-- ==== Sys2Proof/Word.lean ====
section
/-! DEFINITION. Words and bytes of the SXC4-M1: the widths of R3 (bit 0 least significant, bytes
little-endian) and the plainest operations on them. -/

/- The declarations of each file of the package are checked one after another (the option below, in every file but those of
fixed form). Checked side by side, hundreds of them wait for one another, each with a thread and its stack, and the package
as one text runs out of threads. -/
set_option Elab.async false

namespace Sys2Proof

/-- A 64-bit scalar register, address or CSR (R126). -/
abbrev Word := BitVec 64

/-- One byte of memory (R3). -/
abbrev Byte := BitVec 8

/-- A 512-bit vector register (R274). -/
abbrev VWord := BitVec 512

/-- A 128-bit mask register (R275). -/
abbrev MaskWord := BitVec 128

/-- A scalar register number x0 to x31. -/
abbrev Reg := BitVec 5

/-- A vector register number v0 to v7. -/
abbrev VReg := BitVec 3

/-- A mask register number k0 to k3. -/
abbrev KReg := BitVec 2

/-- A core id: die, cluster, core in cluster (R13). -/
abbrev CoreId := BitVec 12

end Sys2Proof
end

