-- ==== Sys2Proof/Syntax.lean ====
section
/-! DEFINITION. The steps of the SXC4-M1: `Instr` has one constructor for each row of the spec's table
of operations and events. The first 229 are instruction words with their operands as decoded, the next
15 are tile commands at the head of a queue, and the rest are events of the module's other agents. -/

set_option Elab.async false

namespace Sys2Proof

/-- Element formats of the vector unit (R90). -/
inductive Fmt where
  | int64 | int32 | int16 | int8 | uint8 | int4
  | fp32 | bf16 | fp16 | e4m3 | e5m2 | e2m1
  deriving DecidableEq, Repr

/-- Rounding modes of `vcvt` (R92). -/
inductive Rm where
  | rne | rtz | rdn | rup | rmm
  deriving DecidableEq, Repr

/-- The sync field of a vector memory form (R93). -/
inductive VSync where
  | plain | keep | take
  deriving DecidableEq, Repr

/-- Element size of the strided and indexed vector forms (R93). -/
inductive El where
  | four | eight
  deriving DecidableEq, Repr

/-- Scopes of `fence.s`, which are the levels of R16 (R79). -/
inductive Scope where
  | thread | core | cluster | die | module | domain
  deriving DecidableEq, Repr

/-- States of a buffer handle (R344). -/
inductive HState where
  | free | filling | full | draining
  deriving DecidableEq, Repr

/-- The two command engines (R306). -/
inductive Eng where
  | matrix | copy
  deriving DecidableEq, Repr

/-- Levels of a group (R16). -/
inductive Level where
  | thread | core | cluster | die | module
  deriving DecidableEq, Repr

/-- Frame types of the Pour (R258). -/
inductive FrameType where
  | cast | inboxcap | barinit | bararr | barphase | barwh | tlinit | tladd | tlset
  | hold | release | fwd | drain | allred | timealign | objfree
  deriving DecidableEq, Repr

/-- A rank of a job, as the job's rank table numbers it (R220). -/
structure Peer where
  job  : BitVec 32
  rank : BitVec 6
  deriving DecidableEq, Repr

/-- A Pour frame without its type: station, object, ARG fields and the 32-byte payload (R258). The header holds no job: `job` is the
one in whose rank table the thread's id counts (R220) (DESIGN CHOICE 96). -/
structure Frame where
  station : BitVec 10
  obj     : BitVec 10
  gtid    : BitVec 22
  job     : BitVec 32
  count   : BitVec 3
  root    : Bool
  payload : BitVec 256
  deriving DecidableEq, Repr

/-- Completion action of a launch (R160, R167). -/
inductive Done where
  | none
  | msg (gtid : BitVec 22) (tag : BitVec 4)
  | tl (obj : BitVec 10) (inc : BitVec 16)
  deriving DecidableEq, Repr

/-- A launch record of an object (R59), with the addresses the loader chose; `argSym` is the symbol whose value is added to
a relocatable argument. -/
structure LaunchRec where
  level    : Level
  count    : BitVec 32
  cls      : BitVec 2
  deadline : Word
  die      : BitVec 2
  gang     : BitVec 8
  entry    : Word
  arg      : Word
  argSym   : Option Nat
  cbase    : Word
  clim     : Word
  done     : Done
  clear    : Bool
  deriving DecidableEq, Repr

/-- A ring record of an object (R60). -/
structure RingRec where
  ring  : BitVec 3
  base  : Word
  size  : Word
  tile  : Word
  count : Word
  deriving DecidableEq, Repr

/-- A bank record of an object: the format code, `group` as the GSIZE code, `axis=mn`, and the scale table's address (R60). -/
structure BankRec where
  bank  : BitVec 5
  fmt   : BitVec 5
  group : BitVec 2
  axis  : Bool
  scale : Word
  deriving DecidableEq, Repr

/-- The relocations that the loader honours (R61). -/
inductive RelocKind where
  | abs64 | abs32 | hi20 | lo12i | lo12s | pchi20 | pclo12i | pclo12s | branch | jump | gran
  deriving DecidableEq, Repr

/-- The bytes that a relocation patches: those in tiered memory (`text`), of the scratchpad or of the Carafe image (R49). -/
inductive RelocPart where
  | text | spad | carafe
  deriving DecidableEq, Repr

/-- One relocation (R61): the part and the address or offset P of the patched bytes, the symbol and the addend A, the address
P0 of the paired `auipc` for the PC-relative low halves, and the lowest bit of a GRAN field. -/
structure Reloc where
  kind   : RelocKind
  part   : RelocPart
  place  : Nat
  symbol : Nat
  addend : Int
  pair   : Nat
  bit    : Nat
  deriving DecidableEq, Repr

/-- A symbol that an object defines: its name, its final address or value, and whether the object exports it (R54, R61). -/
structure Symbol where
  name     : Nat
  value    : Int
  exported : Bool
  deriving DecidableEq, Repr

/-- An object as the loader takes it into the module (R50, R54, R61): its bytes for tiered memory at the addresses that the
loader chose, its scratchpad and Carafe images, its records, its symbols, and the names that it imports (DESIGN CHOICE 81). -/
structure ObjectImage where
  name       : Nat
  job        : BitVec 32
  text       : List (Nat × Byte)
  spad       : List (Nat × Byte)
  spadFull   : List Nat
  spadEmpty  : List Nat
  carafe     : List (Nat × Byte)
  banks      : List BankRec
  rings      : List RingRec
  symbols    : List Symbol
  imports    : List Nat
  relocs     : List Reloc
  launches   : List LaunchRec
  deriving DecidableEq, Repr

/-- An address of a job (R189). -/
structure JobAddr where
  job  : BitVec 32
  addr : Word
  deriving DecidableEq, Repr

/-- A page of a job's page table (R189). -/
structure PageRec where
  job    : BitVec 32
  base   : Nat
  size   : Nat
  tier2  : Bool
  home   : BitVec 2
  r      : Bool
  w      : Bool
  x      : Bool
  shared : Bool
  deriving DecidableEq, Repr

/-- What the debugger writes in a halted thread (R411). -/
inductive DebugField where
  | pc | x (r : Reg) | pw | v (r : VReg) (lane : BitVec 3) | k (r : KReg) (half : BitVec 1)
  | csr (n : BitVec 12) | promise (i : BitVec 3) | latch
  deriving DecidableEq, Repr

/-- Images of the boot chain (R427, R429). -/
inductive ImageKind where
  | stage1 | house | die | os | casot | recovery | record
  deriving DecidableEq, Repr

/-- What verification finds in a signed image (R428): whether digest and signature check, its key index,
whether the certificate lists its type, its security version, and the digest that is measured (DESIGN CHOICE 80). -/
structure ImageRec where
  sigOk  : Bool
  key    : BitVec 4
  typeOk : Bool
  svn    : BitVec 6
  digest : BitVec 512
  deriving DecidableEq, Repr

/-- The configuration record's fields (R430). -/
structure ConfigRec where
  img      : ImageRec
  seq      : Word
  pref     : BitVec 16
  svnadv   : BitVec 16
  mgmtvlan : BitVec 16
  pcap     : BitVec 16
  cxlen    : BitVec 16
  keaten   : BitVec 16
  tinmax   : BitVec 16
  keyidx   : BitVec 16
  netcfg   : BitVec 320
  resvZero : Bool
  deriving DecidableEq, Repr

/-- What training found at boot stage 2: the memory channels, the CXL and the Ethernet ports that trained, the Pour's lock, the supply
and the coolant inlet in 0.1 °C (R427, R433, R435, R436) (DESIGN CHOICE 80). -/
structure Training where
  channels  : List Nat
  pourLock  : Bool
  supplyOk  : Bool
  inletTemp : Nat
  cxl       : BitVec 10
  eth       : BitVec 2
  deriving DecidableEq, Repr

/-- A management write: an image copy or a record copy (R438). -/
inductive MgmtItem where
  | image (kind : ImageKind) (copyB : Bool) (img : ImageRec)
  | record (copyB : Bool) (rec : ConfigRec)
  deriving DecidableEq, Repr

/-- A change of CXL capacity (R435). -/
inductive CxlChange where
  | add (page : PageRec)
  | release (base : Nat)
  | remove (base : Nat)
  deriving DecidableEq, Repr

/-- A replay log item (R418). -/
structure ReplayItem where
  kind    : BitVec 8
  gtid    : BitVec 22
  instret : Word
  value0  : Word
  value1  : Word
  deriving DecidableEq, Repr

/-- A step of the module: one constructor for each row of the table of operations and events. -/
inductive Instr where
  -- RV64I loads and stores (R136, R205)
  | lb (d a : Reg) (i : BitVec 12)
  | lh (d a : Reg) (i : BitVec 12)
  | lw (d a : Reg) (i : BitVec 12)
  | ld (d a : Reg) (i : BitVec 12)
  | lbu (d a : Reg) (i : BitVec 12)
  | lhu (d a : Reg) (i : BitVec 12)
  | lwu (d a : Reg) (i : BitVec 12)
  | sb (a b : Reg) (i : BitVec 12)
  | sh (a b : Reg) (i : BitVec 12)
  | sw (a b : Reg) (i : BitVec 12)
  | sd (a b : Reg) (i : BitVec 12)
  -- OP-IMM and OP-IMM-32 (R136)
  | addi (d a : Reg) (i : BitVec 12)
  | slti (d a : Reg) (i : BitVec 12)
  | sltiu (d a : Reg) (i : BitVec 12)
  | xori (d a : Reg) (i : BitVec 12)
  | ori (d a : Reg) (i : BitVec 12)
  | andi (d a : Reg) (i : BitVec 12)
  | slli (d a : Reg) (sh : BitVec 6)
  | srli (d a : Reg) (sh : BitVec 6)
  | srai (d a : Reg) (sh : BitVec 6)
  | addiw (d a : Reg) (i : BitVec 12)
  | slliw (d a : Reg) (sh : BitVec 5)
  | srliw (d a : Reg) (sh : BitVec 5)
  | sraiw (d a : Reg) (sh : BitVec 5)
  -- OP and OP-32 (R136)
  | add (d a b : Reg)
  | sll (d a b : Reg)
  | slt (d a b : Reg)
  | sltu (d a b : Reg)
  | xor (d a b : Reg)
  | srl (d a b : Reg)
  | or (d a b : Reg)
  | and (d a b : Reg)
  | sub (d a b : Reg)
  | sra (d a b : Reg)
  | mul (d a b : Reg)
  | mulh (d a b : Reg)
  | mulhsu (d a b : Reg)
  | mulhu (d a b : Reg)
  | div (d a b : Reg)
  | divu (d a b : Reg)
  | rem (d a b : Reg)
  | remu (d a b : Reg)
  | addw (d a b : Reg)
  | sllw (d a b : Reg)
  | srlw (d a b : Reg)
  | subw (d a b : Reg)
  | sraw (d a b : Reg)
  | mulw (d a b : Reg)
  | divw (d a b : Reg)
  | divuw (d a b : Reg)
  | remw (d a b : Reg)
  | remuw (d a b : Reg)
  -- control transfer, FENCE and SYSTEM (R136 to R142)
  | lui (d : Reg) (i : BitVec 20)
  | auipc (d : Reg) (i : BitVec 20)
  | jal (d : Reg) (off : BitVec 20)
  | jalr (d a : Reg) (i : BitVec 12)
  | beq (a b : Reg) (off : BitVec 12)
  | bne (a b : Reg) (off : BitVec 12)
  | blt (a b : Reg) (off : BitVec 12)
  | bge (a b : Reg) (off : BitVec 12)
  | bltu (a b : Reg) (off : BitVec 12)
  | bgeu (a b : Reg) (off : BitVec 12)
  | fence (tso : Bool) (pred succ : BitVec 4)
  | ecall
  | ebreak
  | csrrw (d a : Reg) (n : BitVec 12)
  | csrrs (d a : Reg) (n : BitVec 12)
  | csrrc (d a : Reg) (n : BitVec 12)
  | csrrwi (d : Reg) (u : BitVec 5) (n : BitVec 12)
  | csrrsi (d : Reg) (u : BitVec 5) (n : BitVec 12)
  | csrrci (d : Reg) (u : BitVec 5) (n : BitVec 12)
  -- scalar extras (R143 to R148)
  | min (d a b : Reg)
  | max (d a b : Reg)
  | minu (d a b : Reg)
  | maxu (d a b : Reg)
  | clz (d a : Reg)
  | ctz (d a : Reg)
  | cpop (d a : Reg)
  | pmvXp (d : Reg)
  | pmvPx (a : Reg)
  | sel (d : Reg) (n : BitVec 6) (a b : Reg)
  | psetEq (p : BitVec 6) (a b : Reg)
  | psetNe (p : BitVec 6) (a b : Reg)
  | psetLt (p : BitVec 6) (a b : Reg)
  | psetGe (p : BitVec 6) (a b : Reg)
  | psetLtu (p : BitVec 6) (a b : Reg)
  | psetGeu (p : BitVec 6) (a b : Reg)
  | bp (p : BitVec 6) (off : BitVec 12)
  | bnp (p : BitVec 6) (off : BitVec 12)
  -- threads and tasks (R177 to R185)
  | endThread
  | detach
  | start (d : Reg) (a : VReg) (b : Reg)
  | startg (d : Reg) (a : VReg) (b : Reg)
  | rove (d a b : Reg)
  | taskget (d : VReg)
  | taskadd (d : Reg) (a : VReg)
  | grow (d a : Reg)
  | sleep (a : Reg)
  | dlset (a : Reg)
  | dlclr
  | join (k : BitVec 12)
  -- continuations (R377 to R382)
  | susp (d a b : Reg)
  | resm (a b : Reg)
  | ccopy (a b : Reg)
  | cdisc (a b : Reg)
  | cstat (d a : Reg)
  | migcore (a b : Reg)
  -- traps and system (R413 to R415)
  | tret
  | halt
  | hold (a : Reg)
  | rel (a : Reg)
  -- memory, synchronisation and atomics (R206 to R213)
  | lconW (d a : Reg) (i : BitVec 12)
  | lconD (d a : Reg) (i : BitVec 12)
  | lswK (d a b : Reg)
  | lswC (d a b : Reg)
  | sswE (a b c : Reg)
  | sswF (a b c : Reg)
  | feSet (a : Reg)
  | feClr (a : Reg)
  | feTst (d a : Reg)
  | promise (d a b : Reg)
  | unpromise (a : Reg)
  | fenceS (n : Scope)
  | amoAddW (d a b : Reg)
  | amoAddD (d a b : Reg)
  | amoAndW (d a b : Reg)
  | amoAndD (d a b : Reg)
  | amoOrW (d a b : Reg)
  | amoOrD (d a b : Reg)
  | amoXorW (d a b : Reg)
  | amoXorD (d a b : Reg)
  | amoMinW (d a b : Reg)
  | amoMinD (d a b : Reg)
  | amoMaxW (d a b : Reg)
  | amoMaxD (d a b : Reg)
  | amoMinuW (d a b : Reg)
  | amoMinuD (d a b : Reg)
  | amoMaxuW (d a b : Reg)
  | amoMaxuD (d a b : Reg)
  | amoSwapW (d a b : Reg)
  | amoSwapD (d a b : Reg)
  | amoCasW (d a b : Reg)
  | amoCasD (d a b : Reg)
  -- remote access (R240 to R245)
  | ldmW (d a : Reg)
  | ldmD (d a : Reg)
  | migr (a : Reg)
  | sdpW (a b : Reg)
  | sdpD (a b : Reg)
  | cbf
  | rank (d : Reg)
  | drain (a : Reg)
  -- the relaxed prefix with the word that follows it (R96 to R98)
  | rlx (second : BitVec 32)
  -- queues and matrix-engine control (R320 to R324)
  | cmdw (q : BitVec 3) (a : VReg)
  | qpop (d : VReg) (q : BitVec 3)
  | qstat (d : Reg) (q : BitVec 3)
  | radv (n : BitVec 3) (a : Reg)
  | mesc (a : Reg)
  | mereplay
  | meskip
  -- buffer handles (R350 to R354)
  | hbind (d a b : Reg)
  | hwait (a : Reg) (st : HState)
  | hdrain (a : Reg)
  | hfree (a : Reg)
  | hstat (d a : Reg)
  | xtake (d : VReg)
  -- messages, casts, barriers and timelines (R267 to R271)
  | send (a : Reg) (b : VReg) (tag : BitVec 4) (len : BitVec 2)
  | recv (d : Reg) (v : VReg)
  | peek (d : Reg) (v : VReg)
  | btag (off : BitVec 12)
  | cast (a : Reg) (b : VReg)
  | castsub (a b : Reg)
  | barInit (a b : Reg)
  | barReg (a : Reg)
  | barArr (a : Reg)
  | barWait (a b : Reg)
  | barStat (d a : Reg)
  | tlInit (a b : Reg)
  | tlAdd (a b : Reg)
  | tlSet (a b : Reg)
  | tlWait (a b c : Reg)
  | tlRd (d a : Reg)
  -- vector memory (R282 to R284)
  | vld (v : VReg) (a : Reg) (s : BitVec 6) (sync : VSync) (w : BitVec 2)
  | vst (v : VReg) (a : Reg) (s : BitVec 6) (sync : VSync) (w : BitVec 2)
  | vlds (v : VReg) (a b : Reg) (el : El) (w : BitVec 2)
  | vsts (v : VReg) (a b : Reg) (el : El) (w : BitVec 2)
  | vgat (v : VReg) (a : Reg) (b : VReg) (el : El) (w : BitVec 2)
  | vsca (v : VReg) (a : Reg) (b : VReg) (el : El) (w : BitVec 2)
  | vldD (v : VReg) (a : Reg) (s : BitVec 6) (sync : VSync) (w : BitVec 2)
  | vstE (v : VReg) (a : Reg) (s : BitVec 6) (sync : VSync) (w : BitVec 2)
  -- vector moves (R285)
  | vmvx (d : VReg) (x : Reg) (lane : BitVec 3) (w : BitVec 2)
  | vmxv (x : Reg) (a : VReg) (lane : BitVec 3) (w : BitVec 2)
  | vbc (f : Fmt) (d : VReg) (x : Reg) (w : BitVec 2)
  -- vector arithmetic (R286 to R291)
  | vadd (f : Fmt) (m : Option KReg) (d a b : VReg) (w : BitVec 2)
  | vsub (f : Fmt) (m : Option KReg) (d a b : VReg) (w : BitVec 2)
  | vmul (f : Fmt) (m : Option KReg) (d a b : VReg) (w : BitVec 2)
  | vfma (f : Fmt) (m : Option KReg) (d a b : VReg) (w : BitVec 2)
  | vfms (f : Fmt) (m : Option KReg) (d a b : VReg) (w : BitVec 2)
  | vmax (f : Fmt) (m : Option KReg) (d a b : VReg) (w : BitVec 2)
  | vmin (f : Fmt) (m : Option KReg) (d a b : VReg) (w : BitVec 2)
  | vabs (f : Fmt) (m : Option KReg) (d a : VReg) (w : BitVec 2)
  | vneg (f : Fmt) (m : Option KReg) (d a : VReg) (w : BitVec 2)
  | vand (m : Option KReg) (d a b : VReg) (w : BitVec 2)
  | vor (m : Option KReg) (d a b : VReg) (w : BitVec 2)
  | vxor (m : Option KReg) (d a b : VReg) (w : BitVec 2)
  | vnot (m : Option KReg) (d a : VReg) (w : BitVec 2)
  | vsll (f : Fmt) (m : Option KReg) (d a b : VReg) (w : BitVec 2)
  | vsrl (f : Fmt) (m : Option KReg) (d a b : VReg) (w : BitVec 2)
  | vsra (f : Fmt) (m : Option KReg) (d a b : VReg) (w : BitVec 2)
  | vcmpEq (f : Fmt) (m : Option KReg) (d : KReg) (a b : VReg) (w : BitVec 2)
  | vcmpLt (f : Fmt) (m : Option KReg) (d : KReg) (a b : VReg) (w : BitVec 2)
  | vcmpLe (f : Fmt) (m : Option KReg) (d : KReg) (a b : VReg) (w : BitVec 2)
  | vsel (f : Fmt) (n : KReg) (d a b : VReg) (w : BitVec 2)
  | vredAdd (f : Fmt) (m : Option KReg) (d a : VReg) (w : BitVec 2)
  | vredMax (f : Fmt) (m : Option KReg) (d a : VReg) (w : BitVec 2)
  | vredMin (f : Fmt) (m : Option KReg) (d a : VReg) (w : BitVec 2)
  | vscan (f : Fmt) (m : Option KReg) (d a : VReg) (w : BitVec 2)
  | vperm (f : Fmt) (m : Option KReg) (d a b : VReg) (w : BitVec 2)
  | vcvt (f sf : Fmt) (rm : Rm) (d a : VReg) (w : BitVec 2)
  | vq (f : Fmt) (m : Option KReg) (d a b : VReg) (w : BitVec 2)
  | vdq (f : Fmt) (m : Option KReg) (d a b : VReg) (w : BitVec 2)
  -- vector functions and mask operations (R294, R295)
  | vexp2 (f : Fmt) (m : Option KReg) (d a : VReg) (w : BitVec 2)
  | vrcp (f : Fmt) (m : Option KReg) (d a : VReg) (w : BitVec 2)
  | vrsq (f : Fmt) (m : Option KReg) (d a : VReg) (w : BitVec 2)
  | vsig (f : Fmt) (m : Option KReg) (d a : VReg) (w : BitVec 2)
  | vtanh (f : Fmt) (m : Option KReg) (d a : VReg) (w : BitVec 2)
  | kand (d a b : KReg) (w : BitVec 2)
  | kor (d a b : KReg) (w : BitVec 2)
  | knot (d a : KReg) (w : BitVec 2)
  | kmv (d a : KReg) (w : BitVec 2)
  -- tile commands at the head of a core's q0 or q4 (R325 to R330, R355 to R359)
  | tnop (e : Eng) (core : CoreId)
  | mma (core : CoreId)
  | mmaSp (core : CoreId)
  | mmq (core : CoreId)
  | accZero (core : CoreId)
  | accLd (core : CoreId)
  | accSt (core : CoreId)
  | sig (e : Eng) (core : CoreId)
  | tfence (e : Eng) (core : CoreId)
  | copy1d (core : CoreId)
  | copyNd (core : CoreId)
  | gath (core : CoreId)
  | scat (core : CoreId)
  | fill (core : CoreId)
  | allred (core : CoreId)
  -- engine events (R308, R341, R317, R316)
  | meCommandCompletion (core : CoreId)
  | copyCompletion (core : CoreId) (seq : Word)
  | meBudgetRefill
  | spareColumnMap (core : CoreId) (column : BitVec 6)
  -- traps, halts and the debugger (R402, R408, R409, R415, R441, R411)
  | asyncTrap (tid : BitVec 16)
  | breakpointMatch (tid : BitVec 16)
  | stepReport (tid : BitVec 16)
  | holdRequest (tid : BitVec 16)
  | releaseRequest (tid : BitVec 16)
  | debugStateWrite (tid : BitVec 16) (f : DebugField) (value value2 : Word)
  -- memory returns, translation and fetch (R192, R229, R189, R171)
  | loadDataReturn (packet : Nat)
  | storeAcknowledge (packet : Nat)
  | postedAck (packet : Nat)
  | translationWalk (core : CoreId) (addr : JobAddr)
  | pageMap (page : PageRec)
  | pageRefuse (addr : JobAddr)
  | mappingWithdraw (base : JobAddr)
  | icacheLineFill (cluster : BitVec 9) (line : Nat)
  -- synchronising accesses and waits (R199 to R201, R4, R173, R184)
  | parkArrival (packet : Nat)
  | parkResend (packet : Nat)
  | syncCancel (tid : BitVec 16)
  | cancelConfirm (tid : BitVec 16)
  | waitLimitExpiry (tid : BitVec 16)
  | tickAdvance
  | deadlineFire (tid : BitVec 16)
  | sleepExpiry (tid : BitVec 16)
  -- the fabric (R217 to R237)
  | packetInject (packet : Nat)
  | tokenRefill
  | remoteAccessArrival (packet : Nat)
  | linkRetry (port : BitVec 4)
  | escapeTimer (packet : Nat)
  | cbTimeoutFlush (core : CoreId) (entry : Nat)
  | roverArrival (rover : Nat)
  | arrivalSlotTake (core : CoreId)
  | roverReoffer (rover : Nat)
  | drainMarkerAck (core : CoreId) (rank : Peer)
  | rankDark (rank : Peer)
  | relock (rank : Peer) (ports : BitVec 12) (x y : BitVec 8)
  | rankLoss (rank : Peer)
  | rankTableWrite (rank : Peer) (value : Word)
  -- messages and the Pour (R253 to R265, R375, R237, R359, R151)
  | messageOffer (tid : BitVec 16)
  | messageReoffer (tid : BitVec 16)
  | cupCapture (station : BitVec 10)
  | castFrame (f : Frame)
  | inboxcapFrame (f : Frame)
  | barinitFrame (f : Frame)
  | bararrFrame (f : Frame)
  | barphaseFrame (f : Frame)
  | barwhFrame (f : Frame)
  | tlinitFrame (f : Frame)
  | tladdFrame (f : Frame)
  | tlsetFrame (f : Frame)
  | holdFrame (f : Frame)
  | releaseFrame (f : Frame)
  | fwdFrame (f : Frame)
  | drainFrame (f : Frame)
  | allredFrame (f : Frame)
  | timealignFrame (f : Frame)
  | objfreeFrame (f : Frame)
  | domainBarrierPacket (ty : FrameType) (f : Frame)
  | uncorrectableFrame (station : BitVec 10) (ty : FrameType) (f : Frame)
  | resyncEnd (station : BitVec 10)
  | spareWavelengthSwitch (wavelength : BitVec 4)
  -- the task queue unit (R162 to R166, R174)
  | tquDeal (die : BitVec 2)
  | class3Aging (die : BitVec 2)
  | class2Aging (die : BitVec 2)
  | taskStart (core : CoreId)
  | preemption (die : BitVec 2)
  | thermalDisable (core : CoreId)
  | thermalEnable (core : CoreId)
  -- continuations and migration (R370, R378, R375)
  | suspendCommit (id : Nat)
  | resumeAccept (id : Nat)
  | liveMigrationComplete (src dst : CoreId) (spare : Bool)
  | forwardEntryFree (cluster : BitVec 9) (src : CoreId)
  -- CSR writes with effects of their own (R157, R185, R250, R233, R223, R317, R303, R416, R279, R150)
  | slotcfgModeWrite (core : CoreId) (mode : Bool)
  | slotcfgXferWrite (core : CoreId) (xfer : Bool)
  | dlineWrite (tid : BitVec 16) (value : Word)
  | inboxConfigWrite (core : CoreId) (size : Bool) (value : Word)
  | arrspillWrite (core : CoreId) (value : Word)
  | fabqosWrite (core : CoreId) (n : BitVec 2) (value : Word)
  | mebudgetWrite (core : CoreId) (value : Word)
  | ringCsrWrite (core : CoreId) (n : BitVec 12) (value : Word)
  | profctlClr (core : CoreId)
  | vflagsAccess (tid : BitVec 16)
  | csrWrite (tid : BitVec 16) (n : BitVec 12) (value : Word)
  -- the loader (R50, R59 to R61)
  | objectLoad (obj : ObjectImage)
  -- boot, security and management (R427 to R438)
  | powerOn
  | bootStage (t : Training)
  | watchdogExpiry
  | measurementExtend (reg : BitVec 3) (digest : BitVec 512)
  | quoteRequest (nonce : BitVec 512)
  | mgmtWrite (item : MgmtItem)
  | mgmtReset
  | smbusPowerDown
  | supplyOutOfRange
  | junctionTrip (die : BitVec 2)
  | powerCapExceeded (cluster : BitVec 9) (budget : BitVec 16)
  | coolantLimit
  | channelRetire (channel : BitVec 7)
  | cxlCapacityChange (c : CxlChange)
  | ethernetFrame (port : Bool) (vlan : BitVec 12) (addr : Nat) (bytes : List Byte)
  | ethernetFailover (port : Bool)
  | replayItemDelivery (item : ReplayItem)
  -- words that are no instruction, and fetches out of bounds (R66, R405)
  | illegalWord (word : BitVec 32)
  | fetchbound (addr : Word)
  -- vector results, lanes, lost cores and jobs (R276, R224, R12, R139)
  | vectorResultWrite (tid : BitVec 16)
  | laneDegrade (port : BitVec 4) (lanes : BitVec 5)
  | lostCore (core : CoreId)
  | jobEnd (job : BitVec 32)
  deriving DecidableEq, Repr

end Sys2Proof
end

