-- ==== Sys2Proof/WellFormed.lean ====
section
/-! DEFINITION. Which steps are well formed: the operand values that an instruction word can hold and
that the spec's tables accept (R280, R84, R86). A tile command or an event is always well formed. -/

set_option Elab.async false

namespace Sys2Proof

/-- The formats of the element-wise arithmetic, compare, select, permute and reduction forms (R280). -/
def Fmt.arith : Fmt → Bool
  | .int64 | .int32 | .int16 | .int8 | .uint8 | .fp32 | .bf16 | .fp16 => true
  | .int4 | .e4m3 | .e5m2 | .e2m1 => false

/-- The formats of the fused forms and the functions (R280). -/
def Fmt.float3 : Fmt → Bool
  | .fp32 | .bf16 | .fp16 => true
  | _ => false

/-- The formats of `vsll` and `vsrl` (R280). -/
def Fmt.intShift : Fmt → Bool
  | .int64 | .int32 | .int16 | .int8 | .uint8 => true
  | _ => false

/-- The formats of `vsra` (R280). -/
def Fmt.intArithShift : Fmt → Bool
  | .int64 | .int32 | .int16 | .int8 => true
  | _ => false

/-- The formats of `vq` and `vdq`: INT8A and INT4A codes (R280, R293). -/
def Fmt.asymCode : Fmt → Bool
  | .uint8 | .int4 => true
  | _ => false

/-- The queues that `cmdw` may name in some slot (R84). -/
def cmdwQueue (q : BitVec 3) : Bool := q == 0#3 || q == 2#3 || q == 4#3

/-- The queues that `qpop` may name in some slot (R84). -/
def qpopQueue (q : BitVec 3) : Bool := q == 1#3 || q == 5#3

/-- The queues that `qstat` may name (R84). -/
def qstatQueue (q : BitVec 3) : Bool := q != 6#3 && q != 7#3

/-- Well-formedness of a step. -/
def Instr.wf : Instr → Bool
  | .cmdw q _ => cmdwQueue q
  | .qpop _ q => qpopQueue q
  | .qstat _ q => qstatQueue q
  | .send _ _ tag _ => tag != 15#4
  | .vadd f _ _ _ _ _ => f.arith
  | .vsub f _ _ _ _ _ => f.arith
  | .vmul f _ _ _ _ _ => f.arith
  | .vmax f _ _ _ _ _ => f.arith
  | .vmin f _ _ _ _ _ => f.arith
  | .vabs f _ _ _ _ => f.arith
  | .vneg f _ _ _ _ => f.arith
  | .vcmpEq f _ _ _ _ _ => f.arith
  | .vcmpLt f _ _ _ _ _ => f.arith
  | .vcmpLe f _ _ _ _ _ => f.arith
  | .vsel f _ _ _ _ _ => f.arith
  | .vperm f _ _ _ _ _ => f.arith
  | .vredAdd f _ _ _ _ => f.arith
  | .vredMax f _ _ _ _ => f.arith
  | .vredMin f _ _ _ _ => f.arith
  | .vscan f _ _ _ _ => f.arith
  | .vfma f _ _ _ _ _ => f.float3
  | .vfms f _ _ _ _ _ => f.float3
  | .vexp2 f _ _ _ _ => f.float3
  | .vrcp f _ _ _ _ => f.float3
  | .vrsq f _ _ _ _ => f.float3
  | .vsig f _ _ _ _ => f.float3
  | .vtanh f _ _ _ _ => f.float3
  | .vsll f _ _ _ _ _ => f.intShift
  | .vsrl f _ _ _ _ _ => f.intShift
  | .vsra f _ _ _ _ _ => f.intArithShift
  | .vq f _ _ _ _ _ => f.asymCode
  | .vdq f _ _ _ _ _ => f.asymCode
  | _ => true

/-- A well-formed step, as a proposition. -/
abbrev Instr.WellFormed (i : Instr) : Prop := i.wf = true

end Sys2Proof
end

