-- ==== Sys2Proof/Decode.lean ====
section
/-! DEFINITION. The decoder of instruction words, written from the encoding tables of R63 to R98, total
on every word and rejecting by name; after it the encoder, written from the same tables. -/

set_option Elab.async false

namespace Sys2Proof

/-- Why a word is no instruction (R8, R63 to R97). Every reason raises ILLEGAL under R66. -/
inductive Reject where
  | compressed      -- bits 1:0 are not 0b11 (R63)
  | opcode          -- a major opcode that R64 does not implement
  | funct           -- a funct3, funct7, vop or cond value without an instruction
  | field           -- a non-zero bit in a field that the form does not name (R68)
  | format          -- an element format or rounding mode outside the operation's row (R280, R92)
  | queue           -- a queue number that R84 marks ILLEGAL in every slot
  | tag             -- `send` with tag 15 (R86)
  deriving DecidableEq, Repr

/-- `k` when `c` holds, a rejection otherwise. -/
def check {α : Type} (c : Bool) (r : Reject) (k : Except Reject α) : Except Reject α :=
  if c then k else .error r

/-- Bits `lo + len - 1` down to `lo` of a word. -/
abbrev fld (w : BitVec 32) (lo len : Nat) : BitVec len := w.extractLsb' lo len

/-- The 12-bit halved offset of the B and PB layouts: imm[12], imm[11], imm[10:5], imm[4:1] (R67). -/
def offB (w : BitVec 32) : BitVec 12 := fld w 31 1 ++ fld w 7 1 ++ fld w 25 6 ++ fld w 8 4

/-- The 20-bit halved offset of the J layout: imm[20], imm[19:12], imm[11], imm[10:1] (R65). -/
def offJ (w : BitVec 32) : BitVec 20 := fld w 31 1 ++ fld w 12 8 ++ fld w 20 1 ++ fld w 21 10

/-- The immediate of the S layout (R65). -/
def immS (w : BitVec 32) : BitVec 12 := fld w 25 7 ++ fld w 7 5

/-- Format codes of R90. -/
def Fmt.ofCode (c : BitVec 4) : Option Fmt :=
  match c.toNat with
  | 0 => some .int64 | 1 => some .int32 | 2 => some .int16 | 3 => some .int8
  | 4 => some .uint8 | 5 => some .int4 | 6 => some .fp32 | 7 => some .bf16
  | 8 => some .fp16 | 9 => some .e4m3 | 10 => some .e5m2 | 11 => some .e2m1
  | _ => none

/-- Format codes of R90. -/
def Fmt.code : Fmt → BitVec 4
  | .int64 => 0#4 | .int32 => 1#4 | .int16 => 2#4 | .int8 => 3#4
  | .uint8 => 4#4 | .int4 => 5#4 | .fp32 => 6#4 | .bf16 => 7#4
  | .fp16 => 8#4 | .e4m3 => 9#4 | .e5m2 => 10#4 | .e2m1 => 11#4

/-- Rounding codes of R92. -/
def Rm.ofCode (c : BitVec 3) : Option Rm :=
  match c.toNat with
  | 0 => some .rne | 1 => some .rtz | 2 => some .rdn | 3 => some .rup | 4 => some .rmm
  | _ => none

/-- Rounding codes of R92. -/
def Rm.code : Rm → BitVec 3
  | .rne => 0#3 | .rtz => 1#3 | .rdn => 2#3 | .rup => 3#3 | .rmm => 4#3

/-- Sync codes of R93. -/
def VSync.ofCode (c : BitVec 2) : Option VSync :=
  match c.toNat with
  | 0 => some .plain | 1 => some .keep | 2 => some .take | _ => none

/-- Sync codes of R93. -/
def VSync.code : VSync → BitVec 2
  | .plain => 0#2 | .keep => 1#2 | .take => 2#2

/-- Element-size codes of R93. -/
def El.ofCode (c : BitVec 1) : El := if c = 0#1 then .four else .eight

/-- Element-size codes of R93. -/
def El.code : El → BitVec 1
  | .four => 0#1 | .eight => 1#1

/-- Scope codes of R79. -/
def Scope.ofCode (c : BitVec 5) : Option Scope :=
  match c.toNat with
  | 0 => some .thread | 1 => some .core | 2 => some .cluster | 3 => some .die
  | 4 => some .module | 5 => some .domain | _ => none

/-- Scope codes of R79. -/
def Scope.code : Scope → BitVec 5
  | .thread => 0#5 | .core => 1#5 | .cluster => 2#5 | .die => 3#5 | .module => 4#5 | .domain => 5#5

/-- Handle-state codes of R85. -/
def HState.ofCode (c : BitVec 5) : Option HState :=
  match c.toNat with
  | 0 => some .free | 1 => some .filling | 2 => some .full | 3 => some .draining | _ => none

/-- Handle-state codes of R85. -/
def HState.code : HState → BitVec 5
  | .free => 0#5 | .filling => 1#5 | .full => 2#5 | .draining => 3#5

/-- The mask operand of the VA layout: m and km (R91). -/
def maskCode : Option KReg → BitVec 3
  | none => 0#3
  | some k => 1#1 ++ k

/-- LOAD (R136). -/
def decLoad (w : BitVec 32) : Except Reject Instr :=
  if fld w 12 3 = 0#3 then .ok (.lb (fld w 7 5) (fld w 15 5) (fld w 20 12))
  else if fld w 12 3 = 1#3 then .ok (.lh (fld w 7 5) (fld w 15 5) (fld w 20 12))
  else if fld w 12 3 = 2#3 then .ok (.lw (fld w 7 5) (fld w 15 5) (fld w 20 12))
  else if fld w 12 3 = 3#3 then .ok (.ld (fld w 7 5) (fld w 15 5) (fld w 20 12))
  else if fld w 12 3 = 4#3 then .ok (.lbu (fld w 7 5) (fld w 15 5) (fld w 20 12))
  else if fld w 12 3 = 5#3 then .ok (.lhu (fld w 7 5) (fld w 15 5) (fld w 20 12))
  else if fld w 12 3 = 6#3 then .ok (.lwu (fld w 7 5) (fld w 15 5) (fld w 20 12))
  else .error .funct

/-- STORE (R136). -/
def decStore (w : BitVec 32) : Except Reject Instr :=
  if fld w 12 3 = 0#3 then .ok (.sb (fld w 15 5) (fld w 20 5) (immS w))
  else if fld w 12 3 = 1#3 then .ok (.sh (fld w 15 5) (fld w 20 5) (immS w))
  else if fld w 12 3 = 2#3 then .ok (.sw (fld w 15 5) (fld w 20 5) (immS w))
  else if fld w 12 3 = 3#3 then .ok (.sd (fld w 15 5) (fld w 20 5) (immS w))
  else .error .funct

/-- OP-IMM (R136). -/
def decOpImm (w : BitVec 32) : Except Reject Instr :=
  if fld w 12 3 = 0#3 then .ok (.addi (fld w 7 5) (fld w 15 5) (fld w 20 12))
  else if fld w 12 3 = 2#3 then .ok (.slti (fld w 7 5) (fld w 15 5) (fld w 20 12))
  else if fld w 12 3 = 3#3 then .ok (.sltiu (fld w 7 5) (fld w 15 5) (fld w 20 12))
  else if fld w 12 3 = 4#3 then .ok (.xori (fld w 7 5) (fld w 15 5) (fld w 20 12))
  else if fld w 12 3 = 6#3 then .ok (.ori (fld w 7 5) (fld w 15 5) (fld w 20 12))
  else if fld w 12 3 = 7#3 then .ok (.andi (fld w 7 5) (fld w 15 5) (fld w 20 12))
  else if fld w 12 3 = 1#3 ∧ fld w 26 6 = 0#6 then .ok (.slli (fld w 7 5) (fld w 15 5) (fld w 20 6))
  else if fld w 12 3 = 5#3 ∧ fld w 26 6 = 0#6 then .ok (.srli (fld w 7 5) (fld w 15 5) (fld w 20 6))
  else if fld w 12 3 = 5#3 ∧ fld w 26 6 = 16#6 then .ok (.srai (fld w 7 5) (fld w 15 5) (fld w 20 6))
  else .error .funct

/-- OP-IMM-32 (R136). -/
def decOpImm32 (w : BitVec 32) : Except Reject Instr :=
  if fld w 12 3 = 0#3 then .ok (.addiw (fld w 7 5) (fld w 15 5) (fld w 20 12))
  else if fld w 12 3 = 1#3 ∧ fld w 25 7 = 0#7 then .ok (.slliw (fld w 7 5) (fld w 15 5) (fld w 20 5))
  else if fld w 12 3 = 5#3 ∧ fld w 25 7 = 0#7 then .ok (.srliw (fld w 7 5) (fld w 15 5) (fld w 20 5))
  else if fld w 12 3 = 5#3 ∧ fld w 25 7 = 32#7 then .ok (.sraiw (fld w 7 5) (fld w 15 5) (fld w 20 5))
  else .error .funct

/-- OP (R136). -/
def decOp (w : BitVec 32) : Except Reject Instr :=
  if fld w 25 7 = 0#7 ∧ fld w 12 3 = 0#3 then .ok (.add (fld w 7 5) (fld w 15 5) (fld w 20 5))
  else if fld w 25 7 = 0#7 ∧ fld w 12 3 = 1#3 then .ok (.sll (fld w 7 5) (fld w 15 5) (fld w 20 5))
  else if fld w 25 7 = 0#7 ∧ fld w 12 3 = 2#3 then .ok (.slt (fld w 7 5) (fld w 15 5) (fld w 20 5))
  else if fld w 25 7 = 0#7 ∧ fld w 12 3 = 3#3 then .ok (.sltu (fld w 7 5) (fld w 15 5) (fld w 20 5))
  else if fld w 25 7 = 0#7 ∧ fld w 12 3 = 4#3 then .ok (.xor (fld w 7 5) (fld w 15 5) (fld w 20 5))
  else if fld w 25 7 = 0#7 ∧ fld w 12 3 = 5#3 then .ok (.srl (fld w 7 5) (fld w 15 5) (fld w 20 5))
  else if fld w 25 7 = 0#7 ∧ fld w 12 3 = 6#3 then .ok (.or (fld w 7 5) (fld w 15 5) (fld w 20 5))
  else if fld w 25 7 = 0#7 ∧ fld w 12 3 = 7#3 then .ok (.and (fld w 7 5) (fld w 15 5) (fld w 20 5))
  else if fld w 25 7 = 32#7 ∧ fld w 12 3 = 0#3 then .ok (.sub (fld w 7 5) (fld w 15 5) (fld w 20 5))
  else if fld w 25 7 = 32#7 ∧ fld w 12 3 = 5#3 then .ok (.sra (fld w 7 5) (fld w 15 5) (fld w 20 5))
  else if fld w 25 7 = 1#7 ∧ fld w 12 3 = 0#3 then .ok (.mul (fld w 7 5) (fld w 15 5) (fld w 20 5))
  else if fld w 25 7 = 1#7 ∧ fld w 12 3 = 1#3 then .ok (.mulh (fld w 7 5) (fld w 15 5) (fld w 20 5))
  else if fld w 25 7 = 1#7 ∧ fld w 12 3 = 2#3 then .ok (.mulhsu (fld w 7 5) (fld w 15 5) (fld w 20 5))
  else if fld w 25 7 = 1#7 ∧ fld w 12 3 = 3#3 then .ok (.mulhu (fld w 7 5) (fld w 15 5) (fld w 20 5))
  else if fld w 25 7 = 1#7 ∧ fld w 12 3 = 4#3 then .ok (.div (fld w 7 5) (fld w 15 5) (fld w 20 5))
  else if fld w 25 7 = 1#7 ∧ fld w 12 3 = 5#3 then .ok (.divu (fld w 7 5) (fld w 15 5) (fld w 20 5))
  else if fld w 25 7 = 1#7 ∧ fld w 12 3 = 6#3 then .ok (.rem (fld w 7 5) (fld w 15 5) (fld w 20 5))
  else if fld w 25 7 = 1#7 ∧ fld w 12 3 = 7#3 then .ok (.remu (fld w 7 5) (fld w 15 5) (fld w 20 5))
  else .error .funct

/-- OP-32 (R136). -/
def decOp32 (w : BitVec 32) : Except Reject Instr :=
  if fld w 25 7 = 0#7 ∧ fld w 12 3 = 0#3 then .ok (.addw (fld w 7 5) (fld w 15 5) (fld w 20 5))
  else if fld w 25 7 = 0#7 ∧ fld w 12 3 = 1#3 then .ok (.sllw (fld w 7 5) (fld w 15 5) (fld w 20 5))
  else if fld w 25 7 = 0#7 ∧ fld w 12 3 = 5#3 then .ok (.srlw (fld w 7 5) (fld w 15 5) (fld w 20 5))
  else if fld w 25 7 = 32#7 ∧ fld w 12 3 = 0#3 then .ok (.subw (fld w 7 5) (fld w 15 5) (fld w 20 5))
  else if fld w 25 7 = 32#7 ∧ fld w 12 3 = 5#3 then .ok (.sraw (fld w 7 5) (fld w 15 5) (fld w 20 5))
  else if fld w 25 7 = 1#7 ∧ fld w 12 3 = 0#3 then .ok (.mulw (fld w 7 5) (fld w 15 5) (fld w 20 5))
  else if fld w 25 7 = 1#7 ∧ fld w 12 3 = 4#3 then .ok (.divw (fld w 7 5) (fld w 15 5) (fld w 20 5))
  else if fld w 25 7 = 1#7 ∧ fld w 12 3 = 5#3 then .ok (.divuw (fld w 7 5) (fld w 15 5) (fld w 20 5))
  else if fld w 25 7 = 1#7 ∧ fld w 12 3 = 6#3 then .ok (.remw (fld w 7 5) (fld w 15 5) (fld w 20 5))
  else if fld w 25 7 = 1#7 ∧ fld w 12 3 = 7#3 then .ok (.remuw (fld w 7 5) (fld w 15 5) (fld w 20 5))
  else .error .funct

/-- BRANCH (R136). -/
def decBranch (w : BitVec 32) : Except Reject Instr :=
  if fld w 12 3 = 0#3 then .ok (.beq (fld w 15 5) (fld w 20 5) (offB w))
  else if fld w 12 3 = 1#3 then .ok (.bne (fld w 15 5) (fld w 20 5) (offB w))
  else if fld w 12 3 = 4#3 then .ok (.blt (fld w 15 5) (fld w 20 5) (offB w))
  else if fld w 12 3 = 5#3 then .ok (.bge (fld w 15 5) (fld w 20 5) (offB w))
  else if fld w 12 3 = 6#3 then .ok (.bltu (fld w 15 5) (fld w 20 5) (offB w))
  else if fld w 12 3 = 7#3 then .ok (.bgeu (fld w 15 5) (fld w 20 5) (offB w))
  else .error .funct

/-- MISC-MEM: FENCE alone, with fm 0000 or 1000 and rs1 = rd = 0 (R136, R138). -/
def decMiscMem (w : BitVec 32) : Except Reject Instr :=
  if fld w 12 3 = 0#3 then
    check ((fld w 15 5) == 0#5 && (fld w 7 5) == 0#5) .field <|
      if fld w 28 4 = 0#4 then .ok (.fence false (fld w 24 4) (fld w 20 4))
      else if fld w 28 4 = 8#4 then .ok (.fence true (fld w 24 4) (fld w 20 4))
      else .error .field
  else .error .funct

/-- SYSTEM: ECALL, EBREAK and the Zicsr instructions (R136). -/
def decSystem (w : BitVec 32) : Except Reject Instr :=
  if fld w 12 3 = 0#3 then
    check ((fld w 15 5) == 0#5 && (fld w 7 5) == 0#5) .field <|
      if (fld w 20 12) = 0#12 then .ok .ecall
      else if (fld w 20 12) = 1#12 then .ok .ebreak
      else .error .funct
  else if fld w 12 3 = 1#3 then .ok (.csrrw (fld w 7 5) (fld w 15 5) (fld w 20 12))
  else if fld w 12 3 = 2#3 then .ok (.csrrs (fld w 7 5) (fld w 15 5) (fld w 20 12))
  else if fld w 12 3 = 3#3 then .ok (.csrrc (fld w 7 5) (fld w 15 5) (fld w 20 12))
  else if fld w 12 3 = 5#3 then .ok (.csrrwi (fld w 7 5) (fld w 15 5) (fld w 20 12))
  else if fld w 12 3 = 6#3 then .ok (.csrrsi (fld w 7 5) (fld w 15 5) (fld w 20 12))
  else if fld w 12 3 = 7#3 then .ok (.csrrci (fld w 7 5) (fld w 15 5) (fld w 20 12))
  else .error .funct

/-- custom-0 funct3 000: the scalar extras (R70). -/
def decExtras (w : BitVec 32) : Except Reject Instr :=
  if fld w 25 7 = 0#7 then .ok (.min (fld w 7 5) (fld w 15 5) (fld w 20 5))
  else if fld w 25 7 = 1#7 then .ok (.max (fld w 7 5) (fld w 15 5) (fld w 20 5))
  else if fld w 25 7 = 2#7 then .ok (.minu (fld w 7 5) (fld w 15 5) (fld w 20 5))
  else if fld w 25 7 = 3#7 then .ok (.maxu (fld w 7 5) (fld w 15 5) (fld w 20 5))
  else if fld w 25 7 = 4#7 then check ((fld w 20 5) == 0#5) .field <| .ok (.clz (fld w 7 5) (fld w 15 5))
  else if fld w 25 7 = 5#7 then check ((fld w 20 5) == 0#5) .field <| .ok (.ctz (fld w 7 5) (fld w 15 5))
  else if fld w 25 7 = 6#7 then check ((fld w 20 5) == 0#5) .field <| .ok (.cpop (fld w 7 5) (fld w 15 5))
  else if fld w 25 7 = 8#7 then check ((fld w 15 5) == 0#5 && (fld w 20 5) == 0#5) .field <| .ok (.pmvXp (fld w 7 5))
  else if fld w 25 7 = 9#7 then check ((fld w 7 5) == 0#5 && (fld w 20 5) == 0#5) .field <| .ok (.pmvPx (fld w 15 5))
  else if fld w 31 1 = 1#1 then .ok (.sel (fld w 7 5) (fld w 25 6) (fld w 15 5) (fld w 20 5))
  else .error .funct

/-- The P layout: `pset` (R71). -/
def decPset (w : BitVec 32) : Except Reject Instr :=
  check (fld w 25 1 == 0#1 && fld w 10 2 == 0#2) .field <|
    if fld w 7 3 = 0#3 then .ok (.psetEq (fld w 26 6) (fld w 15 5) (fld w 20 5))
    else if fld w 7 3 = 1#3 then .ok (.psetNe (fld w 26 6) (fld w 15 5) (fld w 20 5))
    else if fld w 7 3 = 4#3 then .ok (.psetLt (fld w 26 6) (fld w 15 5) (fld w 20 5))
    else if fld w 7 3 = 5#3 then .ok (.psetGe (fld w 26 6) (fld w 15 5) (fld w 20 5))
    else if fld w 7 3 = 6#3 then .ok (.psetLtu (fld w 26 6) (fld w 15 5) (fld w 20 5))
    else if fld w 7 3 = 7#3 then .ok (.psetGeu (fld w 26 6) (fld w 15 5) (fld w 20 5))
    else .error .funct

/-- The PB layout: `bp` and `bnp` (R72). -/
def decBp (w : BitVec 32) : Except Reject Instr :=
  check (fld w 16 3 == 0#3) .field <|
    if fld w 15 1 = 0#1 then .ok (.bp (fld w 19 6) (offB w)) else .ok (.bnp (fld w 19 6) (offB w))

/-- custom-0 funct3 011: threads and tasks (R73). -/
def decThreads (w : BitVec 32) : Except Reject Instr :=
  if fld w 25 7 = 0#7 then check ((fld w 7 5) == 0#5 && (fld w 15 5) == 0#5 && (fld w 20 5) == 0#5) .field <| .ok .endThread
  else if fld w 25 7 = 1#7 then check ((fld w 7 5) == 0#5 && (fld w 15 5) == 0#5 && (fld w 20 5) == 0#5) .field <| .ok .detach
  else if fld w 25 7 = 2#7 then check (fld w 18 2 == 0#2) .field <| .ok (.start (fld w 7 5) (fld w 15 3) (fld w 20 5))
  else if fld w 25 7 = 3#7 then check (fld w 18 2 == 0#2) .field <| .ok (.startg (fld w 7 5) (fld w 15 3) (fld w 20 5))
  else if fld w 25 7 = 4#7 then .ok (.rove (fld w 7 5) (fld w 15 5) (fld w 20 5))
  else if fld w 25 7 = 5#7 then check (fld w 10 2 == 0#2 && (fld w 15 5) == 0#5 && (fld w 20 5) == 0#5) .field <| .ok (.taskget (fld w 7 3))
  else if fld w 25 7 = 6#7 then check (fld w 18 2 == 0#2 && (fld w 20 5) == 0#5) .field <| .ok (.taskadd (fld w 7 5) (fld w 15 3))
  else if fld w 25 7 = 7#7 then check ((fld w 20 5) == 0#5) .field <| .ok (.grow (fld w 7 5) (fld w 15 5))
  else if fld w 25 7 = 8#7 then check ((fld w 7 5) == 0#5 && (fld w 20 5) == 0#5) .field <| .ok (.sleep (fld w 15 5))
  else if fld w 25 7 = 9#7 then check ((fld w 7 5) == 0#5 && (fld w 20 5) == 0#5) .field <| .ok (.dlset (fld w 15 5))
  else if fld w 25 7 = 10#7 then check ((fld w 7 5) == 0#5 && (fld w 15 5) == 0#5 && (fld w 20 5) == 0#5) .field <| .ok .dlclr
  else .error .funct

/-- custom-0 funct3 100: `join` (R74). -/
def decJoin (w : BitVec 32) : Except Reject Instr :=
  check ((fld w 7 5) == 0#5 && (fld w 15 5) == 0#5) .field <| .ok (.join (fld w 20 12))

/-- custom-0 funct3 101: continuations (R75). -/
def decCont (w : BitVec 32) : Except Reject Instr :=
  if fld w 25 7 = 0#7 then .ok (.susp (fld w 7 5) (fld w 15 5) (fld w 20 5))
  else if fld w 25 7 = 1#7 then check ((fld w 7 5) == 0#5) .field <| .ok (.resm (fld w 15 5) (fld w 20 5))
  else if fld w 25 7 = 2#7 then check ((fld w 7 5) == 0#5) .field <| .ok (.ccopy (fld w 15 5) (fld w 20 5))
  else if fld w 25 7 = 3#7 then check ((fld w 7 5) == 0#5) .field <| .ok (.cdisc (fld w 15 5) (fld w 20 5))
  else if fld w 25 7 = 4#7 then check ((fld w 20 5) == 0#5) .field <| .ok (.cstat (fld w 7 5) (fld w 15 5))
  else if fld w 25 7 = 5#7 then check ((fld w 7 5) == 0#5) .field <| .ok (.migcore (fld w 15 5) (fld w 20 5))
  else .error .funct

/-- custom-0 funct3 110: traps and system (R76). -/
def decTraps (w : BitVec 32) : Except Reject Instr :=
  if fld w 25 7 = 0#7 then check ((fld w 7 5) == 0#5 && (fld w 15 5) == 0#5 && (fld w 20 5) == 0#5) .field <| .ok .tret
  else if fld w 25 7 = 1#7 then check ((fld w 7 5) == 0#5 && (fld w 15 5) == 0#5 && (fld w 20 5) == 0#5) .field <| .ok .halt
  else if fld w 25 7 = 2#7 then check ((fld w 7 5) == 0#5 && (fld w 20 5) == 0#5) .field <| .ok (.hold (fld w 15 5))
  else if fld w 25 7 = 3#7 then check ((fld w 7 5) == 0#5 && (fld w 20 5) == 0#5) .field <| .ok (.rel (fld w 15 5))
  else .error .funct

/-- custom-0 (R69). -/
def decCustom0 (w : BitVec 32) : Except Reject Instr :=
  if fld w 12 3 = 0#3 then decExtras w
  else if fld w 12 3 = 1#3 then decPset w
  else if fld w 12 3 = 2#3 then decBp w
  else if fld w 12 3 = 3#3 then decThreads w
  else if fld w 12 3 = 4#3 then decJoin w
  else if fld w 12 3 = 5#3 then decCont w
  else if fld w 12 3 = 6#3 then decTraps w
  else .error .funct

/-- custom-1 funct3 010: synchronising accesses, full/empty, promises and `fence.s` (R78, R79). -/
def decSync (w : BitVec 32) : Except Reject Instr :=
  if fld w 25 7 = 0#7 then .ok (.lswK (fld w 7 5) (fld w 15 5) (fld w 20 5))
  else if fld w 25 7 = 1#7 then .ok (.lswC (fld w 7 5) (fld w 15 5) (fld w 20 5))
  else if fld w 25 7 = 2#7 then .ok (.sswE (fld w 15 5) (fld w 20 5) (fld w 7 5))
  else if fld w 25 7 = 3#7 then .ok (.sswF (fld w 15 5) (fld w 20 5) (fld w 7 5))
  else if fld w 25 7 = 4#7 then check ((fld w 7 5) == 0#5 && (fld w 20 5) == 0#5) .field <| .ok (.feSet (fld w 15 5))
  else if fld w 25 7 = 5#7 then check ((fld w 7 5) == 0#5 && (fld w 20 5) == 0#5) .field <| .ok (.feClr (fld w 15 5))
  else if fld w 25 7 = 6#7 then check ((fld w 20 5) == 0#5) .field <| .ok (.feTst (fld w 7 5) (fld w 15 5))
  else if fld w 25 7 = 8#7 then .ok (.promise (fld w 7 5) (fld w 15 5) (fld w 20 5))
  else if fld w 25 7 = 9#7 then check ((fld w 7 5) == 0#5 && (fld w 20 5) == 0#5) .field <| .ok (.unpromise (fld w 15 5))
  else if fld w 25 7 = 12#7 then
    check ((fld w 7 5) == 0#5 && (fld w 15 5) == 0#5) .field <| 
      match Scope.ofCode (fld w 20 5) with
      | some n => .ok (.fenceS n)
      | none => .error .funct
  else .error .funct

/-- custom-1 funct3 011: the atomics (R80). -/
def decAmo (w : BitVec 32) : Except Reject Instr :=
  if fld w 25 7 = 0#7 then .ok (.amoAddW (fld w 7 5) (fld w 15 5) (fld w 20 5))
  else if fld w 25 7 = 1#7 then .ok (.amoAddD (fld w 7 5) (fld w 15 5) (fld w 20 5))
  else if fld w 25 7 = 8#7 then .ok (.amoAndW (fld w 7 5) (fld w 15 5) (fld w 20 5))
  else if fld w 25 7 = 9#7 then .ok (.amoAndD (fld w 7 5) (fld w 15 5) (fld w 20 5))
  else if fld w 25 7 = 16#7 then .ok (.amoOrW (fld w 7 5) (fld w 15 5) (fld w 20 5))
  else if fld w 25 7 = 17#7 then .ok (.amoOrD (fld w 7 5) (fld w 15 5) (fld w 20 5))
  else if fld w 25 7 = 24#7 then .ok (.amoXorW (fld w 7 5) (fld w 15 5) (fld w 20 5))
  else if fld w 25 7 = 25#7 then .ok (.amoXorD (fld w 7 5) (fld w 15 5) (fld w 20 5))
  else if fld w 25 7 = 32#7 then .ok (.amoMinW (fld w 7 5) (fld w 15 5) (fld w 20 5))
  else if fld w 25 7 = 33#7 then .ok (.amoMinD (fld w 7 5) (fld w 15 5) (fld w 20 5))
  else if fld w 25 7 = 40#7 then .ok (.amoMaxW (fld w 7 5) (fld w 15 5) (fld w 20 5))
  else if fld w 25 7 = 41#7 then .ok (.amoMaxD (fld w 7 5) (fld w 15 5) (fld w 20 5))
  else if fld w 25 7 = 48#7 then .ok (.amoMinuW (fld w 7 5) (fld w 15 5) (fld w 20 5))
  else if fld w 25 7 = 49#7 then .ok (.amoMinuD (fld w 7 5) (fld w 15 5) (fld w 20 5))
  else if fld w 25 7 = 56#7 then .ok (.amoMaxuW (fld w 7 5) (fld w 15 5) (fld w 20 5))
  else if fld w 25 7 = 57#7 then .ok (.amoMaxuD (fld w 7 5) (fld w 15 5) (fld w 20 5))
  else if fld w 25 7 = 64#7 then .ok (.amoSwapW (fld w 7 5) (fld w 15 5) (fld w 20 5))
  else if fld w 25 7 = 65#7 then .ok (.amoSwapD (fld w 7 5) (fld w 15 5) (fld w 20 5))
  else if fld w 25 7 = 72#7 then .ok (.amoCasW (fld w 7 5) (fld w 15 5) (fld w 20 5))
  else if fld w 25 7 = 73#7 then .ok (.amoCasD (fld w 7 5) (fld w 15 5) (fld w 20 5))
  else .error .funct

/-- custom-1 funct3 100: remote access (R81). -/
def decRemote (w : BitVec 32) : Except Reject Instr :=
  if fld w 25 7 = 0#7 then check ((fld w 20 5) == 0#5) .field <| .ok (.ldmW (fld w 7 5) (fld w 15 5))
  else if fld w 25 7 = 1#7 then check ((fld w 20 5) == 0#5) .field <| .ok (.ldmD (fld w 7 5) (fld w 15 5))
  else if fld w 25 7 = 2#7 then check ((fld w 7 5) == 0#5 && (fld w 20 5) == 0#5) .field <| .ok (.migr (fld w 15 5))
  else if fld w 25 7 = 4#7 then check ((fld w 7 5) == 0#5) .field <| .ok (.sdpW (fld w 15 5) (fld w 20 5))
  else if fld w 25 7 = 5#7 then check ((fld w 7 5) == 0#5) .field <| .ok (.sdpD (fld w 15 5) (fld w 20 5))
  else if fld w 25 7 = 8#7 then check ((fld w 7 5) == 0#5 && (fld w 15 5) == 0#5 && (fld w 20 5) == 0#5) .field <| .ok .cbf
  else if fld w 25 7 = 9#7 then check ((fld w 15 5) == 0#5 && (fld w 20 5) == 0#5) .field <| .ok (.rank (fld w 7 5))
  else if fld w 25 7 = 10#7 then check ((fld w 7 5) == 0#5 && (fld w 20 5) == 0#5) .field <| .ok (.drain (fld w 15 5))
  else .error .funct

/-- custom-1 (R77). -/
def decCustom1 (w : BitVec 32) : Except Reject Instr :=
  if fld w 12 3 = 0#3 then .ok (.lconW (fld w 7 5) (fld w 15 5) (fld w 20 12))
  else if fld w 12 3 = 1#3 then .ok (.lconD (fld w 7 5) (fld w 15 5) (fld w 20 12))
  else if fld w 12 3 = 2#3 then decSync w
  else if fld w 12 3 = 3#3 then decAmo w
  else if fld w 12 3 = 4#3 then decRemote w
  else .error .funct

/-- custom-3 funct3 001: queues and matrix-engine control (R83, R84). -/
def decQueues (w : BitVec 32) : Except Reject Instr :=
  if fld w 25 7 = 0#7 then check (fld w 10 2 == 0#2 && fld w 18 2 == 0#2 && (fld w 20 5) == 0#5) .field <| check (cmdwQueue (fld w 7 3)) .queue <| .ok (.cmdw (fld w 7 3) (fld w 15 3))
  else if fld w 25 7 = 1#7 then check (fld w 10 2 == 0#2 && fld w 18 2 == 0#2 && (fld w 20 5) == 0#5) .field <| check (qpopQueue (fld w 15 3)) .queue <| .ok (.qpop (fld w 7 3) (fld w 15 3))
  else if fld w 25 7 = 2#7 then check (fld w 18 2 == 0#2 && (fld w 20 5) == 0#5) .field <| check (qstatQueue (fld w 15 3)) .queue <| .ok (.qstat (fld w 7 5) (fld w 15 3))
  else if fld w 25 7 = 3#7 then check (fld w 10 2 == 0#2 && (fld w 20 5) == 0#5) .field <| .ok (.radv (fld w 7 3) (fld w 15 5))
  else if fld w 25 7 = 4#7 then check ((fld w 7 5) == 0#5 && (fld w 20 5) == 0#5) .field <| .ok (.mesc (fld w 15 5))
  else if fld w 25 7 = 5#7 then check ((fld w 7 5) == 0#5 && (fld w 15 5) == 0#5 && (fld w 20 5) == 0#5) .field <| .ok .mereplay
  else if fld w 25 7 = 6#7 then check ((fld w 7 5) == 0#5 && (fld w 15 5) == 0#5 && (fld w 20 5) == 0#5) .field <| .ok .meskip
  else .error .funct

/-- custom-3 funct3 010: buffer handles and `xtake` (R85). -/
def decHandles (w : BitVec 32) : Except Reject Instr :=
  if fld w 25 7 = 0#7 then .ok (.hbind (fld w 7 5) (fld w 15 5) (fld w 20 5))
  else if fld w 25 7 = 1#7 then
    check ((fld w 7 5) == 0#5) .field <| 
      match HState.ofCode (fld w 20 5) with
      | some s => .ok (.hwait (fld w 15 5) s)
      | none => .error .funct
  else if fld w 25 7 = 2#7 then check ((fld w 7 5) == 0#5 && (fld w 20 5) == 0#5) .field <| .ok (.hdrain (fld w 15 5))
  else if fld w 25 7 = 3#7 then check ((fld w 7 5) == 0#5 && (fld w 20 5) == 0#5) .field <| .ok (.hfree (fld w 15 5))
  else if fld w 25 7 = 4#7 then check ((fld w 20 5) == 0#5) .field <| .ok (.hstat (fld w 7 5) (fld w 15 5))
  else if fld w 25 7 = 5#7 then check (fld w 10 2 == 0#2 && (fld w 15 5) == 0#5 && (fld w 20 5) == 0#5) .field <| .ok (.xtake (fld w 7 3))
  else .error .funct

/-- custom-3 funct3 011: `send` in the SM layout (R86). -/
def decSend (w : BitVec 32) : Except Reject Instr :=
  check (fld w 25 1 == 0#1 && fld w 23 2 == 0#2 && (fld w 7 5) == 0#5) .field <| 
    check (fld w 28 4 != 15#4) .tag <| .ok (.send (fld w 15 5) (fld w 20 3) (fld w 28 4) (fld w 26 2))

/-- custom-3 funct3 100: receive, broadcast, barriers and timelines (R87). -/
def decPour (w : BitVec 32) : Except Reject Instr :=
  if fld w 25 7 = 0#7 then check (fld w 23 2 == 0#2 && (fld w 15 5) == 0#5) .field <| .ok (.recv (fld w 7 5) (fld w 20 3))
  else if fld w 25 7 = 1#7 then check (fld w 23 2 == 0#2 && (fld w 15 5) == 0#5) .field <| .ok (.peek (fld w 7 5) (fld w 20 3))
  else if fld w 25 7 = 2#7 then check (fld w 23 2 == 0#2 && (fld w 7 5) == 0#5) .field <| .ok (.cast (fld w 15 5) (fld w 20 3))
  else if fld w 25 7 = 3#7 then check ((fld w 7 5) == 0#5) .field <| .ok (.castsub (fld w 15 5) (fld w 20 5))
  else if fld w 25 7 = 8#7 then check ((fld w 7 5) == 0#5) .field <| .ok (.barInit (fld w 15 5) (fld w 20 5))
  else if fld w 25 7 = 9#7 then check ((fld w 7 5) == 0#5 && (fld w 20 5) == 0#5) .field <| .ok (.barReg (fld w 15 5))
  else if fld w 25 7 = 10#7 then check ((fld w 7 5) == 0#5 && (fld w 20 5) == 0#5) .field <| .ok (.barArr (fld w 15 5))
  else if fld w 25 7 = 11#7 then check ((fld w 7 5) == 0#5) .field <| .ok (.barWait (fld w 15 5) (fld w 20 5))
  else if fld w 25 7 = 12#7 then check ((fld w 20 5) == 0#5) .field <| .ok (.barStat (fld w 7 5) (fld w 15 5))
  else if fld w 25 7 = 16#7 then check ((fld w 7 5) == 0#5) .field <| .ok (.tlInit (fld w 15 5) (fld w 20 5))
  else if fld w 25 7 = 17#7 then check ((fld w 7 5) == 0#5) .field <| .ok (.tlAdd (fld w 15 5) (fld w 20 5))
  else if fld w 25 7 = 18#7 then check ((fld w 7 5) == 0#5) .field <| .ok (.tlSet (fld w 15 5) (fld w 20 5))
  else if fld w 25 7 = 19#7 then .ok (.tlWait (fld w 15 5) (fld w 20 5) (fld w 7 5))
  else if fld w 25 7 = 20#7 then check ((fld w 20 5) == 0#5) .field <| .ok (.tlRd (fld w 7 5) (fld w 15 5))
  else .error .funct

/-- custom-3 funct3 101: `btag` (R88). -/
def decBtag (w : BitVec 32) : Except Reject Instr :=
  check (fld w 15 10 == 0#10) .field <| .ok (.btag (offB w))

/-- custom-3 but for the `rlx` prefix (R82). -/
def decCustom3 (w : BitVec 32) : Except Reject Instr :=
  if fld w 12 3 = 1#3 then decQueues w
  else if fld w 12 3 = 2#3 then decHandles w
  else if fld w 12 3 = 3#3 then decSend w
  else if fld w 12 3 = 4#3 then decPour w
  else if fld w 12 3 = 5#3 then decBtag w
  else .error .funct

/-- The VM layout with an offset and a sync field: `vld`, `vst`, `vld.d`, `vst.e` (R93). -/
def decVm (w : BitVec 32) (mk : VReg → Reg → BitVec 6 → VSync → BitVec 2 → Instr) : Except Reject Instr :=
  check (fld w 12 1 == 0#1) .field <|
    match VSync.ofCode (fld w 13 2) with
    | some s => .ok (mk (fld w 7 3) (fld w 15 5) (fld w 20 6) s (fld w 10 2))
    | none => .error .field

/-- The VM layout with a stride register: `vlds`, `vsts` (R93). -/
def decVstride (w : BitVec 32) (mk : VReg → Reg → Reg → El → BitVec 2 → Instr) : Except Reject Instr :=
  check (fld w 25 1 == 0#1 && fld w 13 2 == 0#2) .field <|
    .ok (mk (fld w 7 3) (fld w 15 5) (fld w 20 5) (El.ofCode (fld w 12 1)) (fld w 10 2))

/-- The VM layout with an index vector: `vgat`, `vsca` (R93). -/
def decVindex (w : BitVec 32) (mk : VReg → Reg → VReg → El → BitVec 2 → Instr) : Except Reject Instr :=
  check (fld w 23 3 == 0#3 && fld w 13 2 == 0#2) .field <|
    .ok (mk (fld w 7 3) (fld w 15 5) (fld w 20 3) (El.ofCode (fld w 12 1)) (fld w 10 2))

/-- The mask operand of the VA layout; m = 0 with km non-zero is rejected (R91). -/
def decMask (w : BitVec 32) (k : Option KReg → Except Reject Instr) : Except Reject Instr :=
  if fld w 21 1 = 1#1 then k (some (fld w 19 2))
  else check (fld w 19 2 == 0#2) .field (k none)

/-- The element format of a vector word, within the operation's row of R280. -/
def decFmt (w : BitVec 32) (ok : Fmt → Bool) (k : Fmt → Except Reject Instr) : Except Reject Instr :=
  match Fmt.ofCode (fld w 22 4) with
  | some f => check (ok f) .format (k f)
  | none => .error .format

/-- The VA layout with two sources and a format (R91). -/
def decVa2 (w : BitVec 32) (ok : Fmt → Bool)
    (mk : Fmt → Option KReg → VReg → VReg → VReg → BitVec 2 → Instr) : Except Reject Instr :=
  check (fld w 15 1 == 0#1) .field <| decFmt w ok fun f => decMask w fun m =>
    .ok (mk f m (fld w 7 3) (fld w 12 3) (fld w 16 3) (fld w 10 2))

/-- The VA layout with one source and a format (R91). -/
def decVa1 (w : BitVec 32) (ok : Fmt → Bool)
    (mk : Fmt → Option KReg → VReg → VReg → BitVec 2 → Instr) : Except Reject Instr :=
  check (fld w 15 4 == 0#4) .field <| decFmt w ok fun f => decMask w fun m =>
    .ok (mk f m (fld w 7 3) (fld w 12 3) (fld w 10 2))

/-- The VA layout of a compare: the mask kd in vd[1:0] (R91). -/
def decVcmp (w : BitVec 32)
    (mk : Fmt → Option KReg → KReg → VReg → VReg → BitVec 2 → Instr) : Except Reject Instr :=
  check (fld w 15 1 == 0#1 && fld w 9 1 == 0#1) .field <| decFmt w Fmt.arith fun f => decMask w fun m =>
    .ok (mk f m (fld w 7 2) (fld w 12 3) (fld w 16 3) (fld w 10 2))

/-- The VA layout of a logic form with two sources: fmt 0 (R90). -/
def decVlog2 (w : BitVec 32) (mk : Option KReg → VReg → VReg → VReg → BitVec 2 → Instr) :
    Except Reject Instr :=
  check (fld w 15 1 == 0#1) .field <| check (fld w 22 4 == 0#4) .format <| decMask w fun m =>
    .ok (mk m (fld w 7 3) (fld w 12 3) (fld w 16 3) (fld w 10 2))

/-- The VA layout of `vnot`: fmt 0, vb 0 (R90, R91). -/
def decVlog1 (w : BitVec 32) (mk : Option KReg → VReg → VReg → BitVec 2 → Instr) : Except Reject Instr :=
  check (fld w 15 4 == 0#4) .field <| check (fld w 22 4 == 0#4) .format <| decMask w fun m =>
    .ok (mk m (fld w 7 3) (fld w 12 3) (fld w 10 2))

/-- The VA layout of `vsel`: m is 1 (R91). -/
def decVsel (w : BitVec 32) : Except Reject Instr :=
  check (fld w 15 1 == 0#1 && fld w 21 1 == 1#1) .field <| decFmt w Fmt.arith fun f =>
    .ok (.vsel f (fld w 19 2) (fld w 7 3) (fld w 12 3) (fld w 16 3) (fld w 10 2))

/-- The VC layout: `vcvt` (R92). -/
def decVcvt (w : BitVec 32) : Except Reject Instr :=
  match Fmt.ofCode (fld w 22 4), Fmt.ofCode (fld w 15 4), Rm.ofCode (fld w 19 3) with
  | some f, some sf, some rm => .ok (.vcvt f sf rm (fld w 7 3) (fld w 12 3) (fld w 10 2))
  | _, _, _ => .error .format

/-- The VA layout of the two-source mask operations (R91). -/
def decK2 (w : BitVec 32) (mk : KReg → KReg → KReg → BitVec 2 → Instr) : Except Reject Instr :=
  check (fld w 18 8 == 0#8 && fld w 14 2 == 0#2 && fld w 9 1 == 0#1) .field <|
    .ok (mk (fld w 7 2) (fld w 12 2) (fld w 16 2) (fld w 10 2))

/-- The VA layout of the one-source mask operations (R91). -/
def decK1 (w : BitVec 32) (mk : KReg → KReg → BitVec 2 → Instr) : Except Reject Instr :=
  check (fld w 14 12 == 0#12 && fld w 9 1 == 0#1) .field <|
    .ok (mk (fld w 7 2) (fld w 12 2) (fld w 10 2))

/-- custom-2: vectors (R89). -/
def decCustom2 (w : BitVec 32) : Except Reject Instr :=
  if fld w 26 6 = 0#6 then decVm w .vld
  else if fld w 26 6 = 1#6 then decVm w .vst
  else if fld w 26 6 = 2#6 then decVstride w .vlds
  else if fld w 26 6 = 3#6 then decVstride w .vsts
  else if fld w 26 6 = 4#6 then decVindex w .vgat
  else if fld w 26 6 = 5#6 then decVindex w .vsca
  else if fld w 26 6 = 6#6 then decVm w .vldD
  else if fld w 26 6 = 7#6 then decVm w .vstE
  else if fld w 26 6 = 8#6 then check (fld w 20 6 == 0#6) .field <| .ok (.vmvx (fld w 7 3) (fld w 15 5) (fld w 12 3) (fld w 10 2))
  else if fld w 26 6 = 9#6 then check (fld w 20 6 == 0#6) .field <| .ok (.vmxv (fld w 15 5) (fld w 12 3) (fld w 7 3) (fld w 10 2))
  else if fld w 26 6 = 10#6 then check (fld w 20 2 == 0#2 && fld w 12 3 == 0#3) .field <| decFmt w (fun _ => true) fun f => .ok (.vbc f (fld w 7 3) (fld w 15 5) (fld w 10 2))
  else if fld w 26 6 = 16#6 then decVa2 w Fmt.arith .vadd
  else if fld w 26 6 = 17#6 then decVa2 w Fmt.arith .vsub
  else if fld w 26 6 = 18#6 then decVa2 w Fmt.arith .vmul
  else if fld w 26 6 = 19#6 then decVa2 w Fmt.float3 .vfma
  else if fld w 26 6 = 20#6 then decVa2 w Fmt.float3 .vfms
  else if fld w 26 6 = 21#6 then decVa2 w Fmt.arith .vmax
  else if fld w 26 6 = 22#6 then decVa2 w Fmt.arith .vmin
  else if fld w 26 6 = 23#6 then decVa1 w Fmt.arith .vabs
  else if fld w 26 6 = 24#6 then decVa1 w Fmt.arith .vneg
  else if fld w 26 6 = 25#6 then decVlog2 w .vand
  else if fld w 26 6 = 26#6 then decVlog2 w .vor
  else if fld w 26 6 = 27#6 then decVlog2 w .vxor
  else if fld w 26 6 = 28#6 then decVlog1 w .vnot
  else if fld w 26 6 = 29#6 then decVa2 w Fmt.intShift .vsll
  else if fld w 26 6 = 30#6 then decVa2 w Fmt.intShift .vsrl
  else if fld w 26 6 = 31#6 then decVa2 w Fmt.intArithShift .vsra
  else if fld w 26 6 = 32#6 then decVcmp w .vcmpEq
  else if fld w 26 6 = 33#6 then decVcmp w .vcmpLt
  else if fld w 26 6 = 34#6 then decVcmp w .vcmpLe
  else if fld w 26 6 = 35#6 then decVsel w
  else if fld w 26 6 = 36#6 then decVa1 w Fmt.arith .vredAdd
  else if fld w 26 6 = 37#6 then decVa1 w Fmt.arith .vredMax
  else if fld w 26 6 = 38#6 then decVa1 w Fmt.arith .vredMin
  else if fld w 26 6 = 39#6 then decVa1 w Fmt.arith .vscan
  else if fld w 26 6 = 40#6 then decVa2 w Fmt.arith .vperm
  else if fld w 26 6 = 44#6 then decVcvt w
  else if fld w 26 6 = 45#6 then decVa2 w Fmt.asymCode .vq
  else if fld w 26 6 = 46#6 then decVa2 w Fmt.asymCode .vdq
  else if fld w 26 6 = 48#6 then decVa1 w Fmt.float3 .vexp2
  else if fld w 26 6 = 49#6 then decVa1 w Fmt.float3 .vrcp
  else if fld w 26 6 = 50#6 then decVa1 w Fmt.float3 .vrsq
  else if fld w 26 6 = 51#6 then decVa1 w Fmt.float3 .vsig
  else if fld w 26 6 = 52#6 then decVa1 w Fmt.float3 .vtanh
  else if fld w 26 6 = 56#6 then decK2 w .kand
  else if fld w 26 6 = 57#6 then decK2 w .kor
  else if fld w 26 6 = 58#6 then decK1 w .knot
  else if fld w 26 6 = 59#6 then decK1 w .kmv
  else .error .funct

/-- The word of the `rlx` prefix (R96). -/
def rlxPrefix : BitVec 32 := 0x0000007B#32

/-- An instruction word that is no `rlx` prefix (R63, R64). -/
def decodeWord (w : BitVec 32) : Except Reject Instr :=
  if fld w 0 2 ≠ 3#2 then .error .compressed
  else if fld w 0 7 = 0x03#7 then decLoad w
  else if fld w 0 7 = 0x0B#7 then decCustom0 w
  else if fld w 0 7 = 0x0F#7 then decMiscMem w
  else if fld w 0 7 = 0x13#7 then decOpImm w
  else if fld w 0 7 = 0x17#7 then .ok (.auipc (fld w 7 5) (fld w 12 20))
  else if fld w 0 7 = 0x1B#7 then decOpImm32 w
  else if fld w 0 7 = 0x23#7 then decStore w
  else if fld w 0 7 = 0x2B#7 then decCustom1 w
  else if fld w 0 7 = 0x33#7 then decOp w
  else if fld w 0 7 = 0x37#7 then .ok (.lui (fld w 7 5) (fld w 12 20))
  else if fld w 0 7 = 0x3B#7 then decOp32 w
  else if fld w 0 7 = 0x5B#7 then decCustom2 w
  else if fld w 0 7 = 0x63#7 then decBranch w
  else if fld w 0 7 = 0x67#7 then check (fld w 12 3 == 0#3) .funct <| .ok (.jalr (fld w 7 5) (fld w 15 5) (fld w 20 12))
  else if fld w 0 7 = 0x6F#7 then .ok (.jal (fld w 7 5) (offJ w))
  else if fld w 0 7 = 0x73#7 then decSystem w
  else if fld w 0 7 = 0x7B#7 then decCustom3 w
  else .error .opcode

/-- The instruction that the word `w` begins, `second` being the word that follows it in memory: the
prefix and the second word form one pair (R96), whatever the second word is. -/
def decode (w second : BitVec 32) : Except Reject Instr :=
  if w = rlxPrefix then .ok (.rlx second) else decodeWord w

/-- Which instructions may follow the prefix (R97). -/
def Instr.rlxEligible : Instr → Bool
  | .lb .. | .lh .. | .lw .. | .ld .. | .lbu .. | .lhu .. | .lwu .. => true
  | .sb .. | .sh .. | .sw .. | .sd .. => true
  | .lconW .. | .lconD .. => true
  | .amoAddW .. | .amoAddD .. => true
  | .amoAndW .. | .amoAndD .. => true
  | .amoOrW .. | .amoOrD .. => true
  | .amoXorW .. | .amoXorD .. => true
  | .amoMinW .. | .amoMinD .. => true
  | .amoMaxW .. | .amoMaxD .. => true
  | .amoMinuW .. | .amoMinuD .. => true
  | .amoMaxuW .. | .amoMaxuD .. => true
  | .amoSwapW .. | .amoSwapD .. => true
  | .amoCasW .. | .amoCasD .. => true
  | .vld _ _ _ s _ | .vst _ _ _ s _ | .vldD _ _ _ s _ | .vstE _ _ _ s _ => s == .plain
  | .vlds .. | .vsts .. | .vgat .. | .vsca .. => true
  | _ => false

/-! ### The encoder -/

/-- The R and X layouts. -/
def encX (f7 : BitVec 7) (b a : BitVec 5) (f3 : BitVec 3) (d : BitVec 5) (op : BitVec 7) : BitVec 32 :=
  f7 ++ b ++ a ++ f3 ++ d ++ op

/-- The I and XI layouts. -/
def encI (i : BitVec 12) (a : BitVec 5) (f3 : BitVec 3) (d : BitVec 5) (op : BitVec 7) : BitVec 32 :=
  i ++ a ++ f3 ++ d ++ op

/-- The S layout. -/
def encS (i : BitVec 12) (b a : BitVec 5) (f3 : BitVec 3) (op : BitVec 7) : BitVec 32 :=
  i.extractLsb' 5 7 ++ b ++ a ++ f3 ++ i.extractLsb' 0 5 ++ op

/-- The B and PB layouts around a halved offset; `mid` fills bits 24:15. -/
def encB (off : BitVec 12) (mid : BitVec 10) (f3 : BitVec 3) (op : BitVec 7) : BitVec 32 :=
  off.extractLsb' 11 1 ++ off.extractLsb' 4 6 ++ mid ++ f3 ++ off.extractLsb' 0 4 ++ off.extractLsb' 10 1 ++ op

/-- The U layout. -/
def encU (i : BitVec 20) (d : BitVec 5) (op : BitVec 7) : BitVec 32 := i ++ d ++ op

/-- The J layout around a halved offset. -/
def encJ (off : BitVec 20) (d : BitVec 5) (op : BitVec 7) : BitVec 32 :=
  off.extractLsb' 19 1 ++ off.extractLsb' 0 10 ++ off.extractLsb' 10 1 ++ off.extractLsb' 11 8 ++ d ++ op

/-- The P layout. -/
def encP (p : BitVec 6) (b a : BitVec 5) (cond : BitVec 3) : BitVec 32 :=
  p ++ 0#1 ++ b ++ a ++ 1#3 ++ 0#2 ++ cond ++ 0x0B#7

/-- The SM layout. -/
def encSM (tag : BitVec 4) (len : BitVec 2) (b a : BitVec 5) : BitVec 32 :=
  tag ++ len ++ 0#1 ++ b ++ a ++ 3#3 ++ 0#5 ++ 0x7B#7

/-- The VA layout. -/
def encVA (vop : BitVec 6) (f : BitVec 4) (m : Option KReg) (b a : VReg) (w : BitVec 2) (d : VReg) :
    BitVec 32 :=
  vop ++ f ++ maskCode m ++ b ++ 0#1 ++ a ++ w ++ d ++ 0x5B#7

/-- The VC layout. -/
def encVC (f : BitVec 4) (rm : BitVec 3) (sf : BitVec 4) (a : VReg) (w : BitVec 2) (d : VReg) : BitVec 32 :=
  0x2C#6 ++ f ++ rm ++ sf ++ a ++ w ++ d ++ 0x5B#7

/-- The VM layout. -/
def encVM (vop s : BitVec 6) (a : Reg) (sync : BitVec 2) (el : BitVec 1) (w : BitVec 2) (d : VReg) :
    BitVec 32 :=
  vop ++ s ++ a ++ sync ++ el ++ w ++ d ++ 0x5B#7

/-- The VX layout. -/
def encVX (vop : BitVec 6) (f : BitVec 4) (x : Reg) (a : VReg) (w : BitVec 2) (d : VReg) : BitVec 32 :=
  vop ++ f ++ 0#2 ++ x ++ a ++ w ++ d ++ 0x5B#7

/-- A vector register in a 5-bit field (R68). -/
abbrev v5 (v : BitVec 3) : BitVec 5 := 0#2 ++ v

/-- A mask register in a 3-bit field (R68). -/
abbrev k3 (k : KReg) : BitVec 3 := 0#1 ++ k

/-- The word of a well-formed one-word instruction; none for a pair, a tile command or an event. -/
def encodeWord : Instr → Option (BitVec 32)
  | .lb d a i => some (encI i a 0#3 d 0x03#7)
  | .lh d a i => some (encI i a 1#3 d 0x03#7)
  | .lw d a i => some (encI i a 2#3 d 0x03#7)
  | .ld d a i => some (encI i a 3#3 d 0x03#7)
  | .lbu d a i => some (encI i a 4#3 d 0x03#7)
  | .lhu d a i => some (encI i a 5#3 d 0x03#7)
  | .lwu d a i => some (encI i a 6#3 d 0x03#7)
  | .sb a b i => some (encS i b a 0#3 0x23#7)
  | .sh a b i => some (encS i b a 1#3 0x23#7)
  | .sw a b i => some (encS i b a 2#3 0x23#7)
  | .sd a b i => some (encS i b a 3#3 0x23#7)
  | .addi d a i => some (encI i a 0#3 d 0x13#7)
  | .slti d a i => some (encI i a 2#3 d 0x13#7)
  | .sltiu d a i => some (encI i a 3#3 d 0x13#7)
  | .xori d a i => some (encI i a 4#3 d 0x13#7)
  | .ori d a i => some (encI i a 6#3 d 0x13#7)
  | .andi d a i => some (encI i a 7#3 d 0x13#7)
  | .slli d a sh => some (encI (0#6 ++ sh) a 1#3 d 0x13#7)
  | .srli d a sh => some (encI (0#6 ++ sh) a 5#3 d 0x13#7)
  | .srai d a sh => some (encI (16#6 ++ sh) a 5#3 d 0x13#7)
  | .addiw d a i => some (encI i a 0#3 d 0x1B#7)
  | .slliw d a sh => some (encX 0#7 sh a 1#3 d 0x1B#7)
  | .srliw d a sh => some (encX 0#7 sh a 5#3 d 0x1B#7)
  | .sraiw d a sh => some (encX 32#7 sh a 5#3 d 0x1B#7)
  | .add d a b => some (encX 0#7 b a 0#3 d 0x33#7)
  | .sll d a b => some (encX 0#7 b a 1#3 d 0x33#7)
  | .slt d a b => some (encX 0#7 b a 2#3 d 0x33#7)
  | .sltu d a b => some (encX 0#7 b a 3#3 d 0x33#7)
  | .xor d a b => some (encX 0#7 b a 4#3 d 0x33#7)
  | .srl d a b => some (encX 0#7 b a 5#3 d 0x33#7)
  | .or d a b => some (encX 0#7 b a 6#3 d 0x33#7)
  | .and d a b => some (encX 0#7 b a 7#3 d 0x33#7)
  | .sub d a b => some (encX 32#7 b a 0#3 d 0x33#7)
  | .sra d a b => some (encX 32#7 b a 5#3 d 0x33#7)
  | .mul d a b => some (encX 1#7 b a 0#3 d 0x33#7)
  | .mulh d a b => some (encX 1#7 b a 1#3 d 0x33#7)
  | .mulhsu d a b => some (encX 1#7 b a 2#3 d 0x33#7)
  | .mulhu d a b => some (encX 1#7 b a 3#3 d 0x33#7)
  | .div d a b => some (encX 1#7 b a 4#3 d 0x33#7)
  | .divu d a b => some (encX 1#7 b a 5#3 d 0x33#7)
  | .rem d a b => some (encX 1#7 b a 6#3 d 0x33#7)
  | .remu d a b => some (encX 1#7 b a 7#3 d 0x33#7)
  | .addw d a b => some (encX 0#7 b a 0#3 d 0x3B#7)
  | .sllw d a b => some (encX 0#7 b a 1#3 d 0x3B#7)
  | .srlw d a b => some (encX 0#7 b a 5#3 d 0x3B#7)
  | .subw d a b => some (encX 32#7 b a 0#3 d 0x3B#7)
  | .sraw d a b => some (encX 32#7 b a 5#3 d 0x3B#7)
  | .mulw d a b => some (encX 1#7 b a 0#3 d 0x3B#7)
  | .divw d a b => some (encX 1#7 b a 4#3 d 0x3B#7)
  | .divuw d a b => some (encX 1#7 b a 5#3 d 0x3B#7)
  | .remw d a b => some (encX 1#7 b a 6#3 d 0x3B#7)
  | .remuw d a b => some (encX 1#7 b a 7#3 d 0x3B#7)
  | .lui d i => some (encU i d 0x37#7)
  | .auipc d i => some (encU i d 0x17#7)
  | .jal d off => some (encJ off d 0x6F#7)
  | .jalr d a i => some (encI i a 0#3 d 0x67#7)
  | .beq a b off => some (encB off (b ++ a) 0#3 0x63#7)
  | .bne a b off => some (encB off (b ++ a) 1#3 0x63#7)
  | .blt a b off => some (encB off (b ++ a) 4#3 0x63#7)
  | .bge a b off => some (encB off (b ++ a) 5#3 0x63#7)
  | .bltu a b off => some (encB off (b ++ a) 6#3 0x63#7)
  | .bgeu a b off => some (encB off (b ++ a) 7#3 0x63#7)
  | .fence tso p s => some (encI ((if tso then 8#4 else 0#4) ++ p ++ s) 0#5 0#3 0#5 0x0F#7)
  | .ecall => some (encI 0#12 0#5 0#3 0#5 0x73#7)
  | .ebreak => some (encI 1#12 0#5 0#3 0#5 0x73#7)
  | .csrrw d a n => some (encI n a 1#3 d 0x73#7)
  | .csrrs d a n => some (encI n a 2#3 d 0x73#7)
  | .csrrc d a n => some (encI n a 3#3 d 0x73#7)
  | .csrrwi d a n => some (encI n a 5#3 d 0x73#7)
  | .csrrsi d a n => some (encI n a 6#3 d 0x73#7)
  | .csrrci d a n => some (encI n a 7#3 d 0x73#7)
  | .min d a b => some (encX 0#7 b a 0#3 d 0x0B#7)
  | .max d a b => some (encX 1#7 b a 0#3 d 0x0B#7)
  | .minu d a b => some (encX 2#7 b a 0#3 d 0x0B#7)
  | .maxu d a b => some (encX 3#7 b a 0#3 d 0x0B#7)
  | .clz d a => some (encX 4#7 0#5 a 0#3 d 0x0B#7)
  | .ctz d a => some (encX 5#7 0#5 a 0#3 d 0x0B#7)
  | .cpop d a => some (encX 6#7 0#5 a 0#3 d 0x0B#7)
  | .pmvXp d => some (encX 8#7 0#5 0#5 0#3 d 0x0B#7)
  | .pmvPx a => some (encX 9#7 0#5 a 0#3 0#5 0x0B#7)
  | .sel d n a b => some (encX (1#1 ++ n) b a 0#3 d 0x0B#7)
  | .psetEq p a b => some (encP p b a 0#3)
  | .psetNe p a b => some (encP p b a 1#3)
  | .psetLt p a b => some (encP p b a 4#3)
  | .psetGe p a b => some (encP p b a 5#3)
  | .psetLtu p a b => some (encP p b a 6#3)
  | .psetGeu p a b => some (encP p b a 7#3)
  | .bp p off => some (encB off (p ++ 0#4) 2#3 0x0B#7)
  | .bnp p off => some (encB off (p ++ 1#4) 2#3 0x0B#7)
  | .endThread => some (encX 0#7 0#5 0#5 3#3 0#5 0x0B#7)
  | .detach => some (encX 1#7 0#5 0#5 3#3 0#5 0x0B#7)
  | .start d a b => some (encX 2#7 b (v5 a) 3#3 d 0x0B#7)
  | .startg d a b => some (encX 3#7 b (v5 a) 3#3 d 0x0B#7)
  | .rove d a b => some (encX 4#7 b a 3#3 d 0x0B#7)
  | .taskget d => some (encX 5#7 0#5 0#5 3#3 (v5 d) 0x0B#7)
  | .taskadd d a => some (encX 6#7 0#5 (v5 a) 3#3 d 0x0B#7)
  | .grow d a => some (encX 7#7 0#5 a 3#3 d 0x0B#7)
  | .sleep a => some (encX 8#7 0#5 a 3#3 0#5 0x0B#7)
  | .dlset a => some (encX 9#7 0#5 a 3#3 0#5 0x0B#7)
  | .dlclr => some (encX 10#7 0#5 0#5 3#3 0#5 0x0B#7)
  | .join k => some (encI k 0#5 4#3 0#5 0x0B#7)
  | .susp d a b => some (encX 0#7 b a 5#3 d 0x0B#7)
  | .resm a b => some (encX 1#7 b a 5#3 0#5 0x0B#7)
  | .ccopy a b => some (encX 2#7 b a 5#3 0#5 0x0B#7)
  | .cdisc a b => some (encX 3#7 b a 5#3 0#5 0x0B#7)
  | .cstat d a => some (encX 4#7 0#5 a 5#3 d 0x0B#7)
  | .migcore a b => some (encX 5#7 b a 5#3 0#5 0x0B#7)
  | .tret => some (encX 0#7 0#5 0#5 6#3 0#5 0x0B#7)
  | .halt => some (encX 1#7 0#5 0#5 6#3 0#5 0x0B#7)
  | .hold a => some (encX 2#7 0#5 a 6#3 0#5 0x0B#7)
  | .rel a => some (encX 3#7 0#5 a 6#3 0#5 0x0B#7)
  | .lconW d a i => some (encI i a 0#3 d 0x2B#7)
  | .lconD d a i => some (encI i a 1#3 d 0x2B#7)
  | .lswK d a b => some (encX 0#7 b a 2#3 d 0x2B#7)
  | .lswC d a b => some (encX 1#7 b a 2#3 d 0x2B#7)
  | .sswE a b c => some (encX 2#7 b a 2#3 c 0x2B#7)
  | .sswF a b c => some (encX 3#7 b a 2#3 c 0x2B#7)
  | .feSet a => some (encX 4#7 0#5 a 2#3 0#5 0x2B#7)
  | .feClr a => some (encX 5#7 0#5 a 2#3 0#5 0x2B#7)
  | .feTst d a => some (encX 6#7 0#5 a 2#3 d 0x2B#7)
  | .promise d a b => some (encX 8#7 b a 2#3 d 0x2B#7)
  | .unpromise a => some (encX 9#7 0#5 a 2#3 0#5 0x2B#7)
  | .fenceS n => some (encX 12#7 n.code 0#5 2#3 0#5 0x2B#7)
  | .amoAddW d a b => some (encX 0#7 b a 3#3 d 0x2B#7)
  | .amoAddD d a b => some (encX 1#7 b a 3#3 d 0x2B#7)
  | .amoAndW d a b => some (encX 8#7 b a 3#3 d 0x2B#7)
  | .amoAndD d a b => some (encX 9#7 b a 3#3 d 0x2B#7)
  | .amoOrW d a b => some (encX 16#7 b a 3#3 d 0x2B#7)
  | .amoOrD d a b => some (encX 17#7 b a 3#3 d 0x2B#7)
  | .amoXorW d a b => some (encX 24#7 b a 3#3 d 0x2B#7)
  | .amoXorD d a b => some (encX 25#7 b a 3#3 d 0x2B#7)
  | .amoMinW d a b => some (encX 32#7 b a 3#3 d 0x2B#7)
  | .amoMinD d a b => some (encX 33#7 b a 3#3 d 0x2B#7)
  | .amoMaxW d a b => some (encX 40#7 b a 3#3 d 0x2B#7)
  | .amoMaxD d a b => some (encX 41#7 b a 3#3 d 0x2B#7)
  | .amoMinuW d a b => some (encX 48#7 b a 3#3 d 0x2B#7)
  | .amoMinuD d a b => some (encX 49#7 b a 3#3 d 0x2B#7)
  | .amoMaxuW d a b => some (encX 56#7 b a 3#3 d 0x2B#7)
  | .amoMaxuD d a b => some (encX 57#7 b a 3#3 d 0x2B#7)
  | .amoSwapW d a b => some (encX 64#7 b a 3#3 d 0x2B#7)
  | .amoSwapD d a b => some (encX 65#7 b a 3#3 d 0x2B#7)
  | .amoCasW d a b => some (encX 72#7 b a 3#3 d 0x2B#7)
  | .amoCasD d a b => some (encX 73#7 b a 3#3 d 0x2B#7)
  | .ldmW d a => some (encX 0#7 0#5 a 4#3 d 0x2B#7)
  | .ldmD d a => some (encX 1#7 0#5 a 4#3 d 0x2B#7)
  | .migr a => some (encX 2#7 0#5 a 4#3 0#5 0x2B#7)
  | .sdpW a b => some (encX 4#7 b a 4#3 0#5 0x2B#7)
  | .sdpD a b => some (encX 5#7 b a 4#3 0#5 0x2B#7)
  | .cbf => some (encX 8#7 0#5 0#5 4#3 0#5 0x2B#7)
  | .rank d => some (encX 9#7 0#5 0#5 4#3 d 0x2B#7)
  | .drain a => some (encX 10#7 0#5 a 4#3 0#5 0x2B#7)
  | .cmdw q a => some (encX 0#7 0#5 (v5 a) 1#3 (v5 q) 0x7B#7)
  | .qpop d q => some (encX 1#7 0#5 (v5 q) 1#3 (v5 d) 0x7B#7)
  | .qstat d q => some (encX 2#7 0#5 (v5 q) 1#3 d 0x7B#7)
  | .radv n a => some (encX 3#7 0#5 a 1#3 (v5 n) 0x7B#7)
  | .mesc a => some (encX 4#7 0#5 a 1#3 0#5 0x7B#7)
  | .mereplay => some (encX 5#7 0#5 0#5 1#3 0#5 0x7B#7)
  | .meskip => some (encX 6#7 0#5 0#5 1#3 0#5 0x7B#7)
  | .hbind d a b => some (encX 0#7 b a 2#3 d 0x7B#7)
  | .hwait a s => some (encX 1#7 s.code a 2#3 0#5 0x7B#7)
  | .hdrain a => some (encX 2#7 0#5 a 2#3 0#5 0x7B#7)
  | .hfree a => some (encX 3#7 0#5 a 2#3 0#5 0x7B#7)
  | .hstat d a => some (encX 4#7 0#5 a 2#3 d 0x7B#7)
  | .xtake d => some (encX 5#7 0#5 0#5 2#3 (v5 d) 0x7B#7)
  | .send a b tag len => some (encSM tag len (v5 b) a)
  | .recv d v => some (encX 0#7 (v5 v) 0#5 4#3 d 0x7B#7)
  | .peek d v => some (encX 1#7 (v5 v) 0#5 4#3 d 0x7B#7)
  | .btag off => some (encB off 0#10 5#3 0x7B#7)
  | .cast a b => some (encX 2#7 (v5 b) a 4#3 0#5 0x7B#7)
  | .castsub a b => some (encX 3#7 b a 4#3 0#5 0x7B#7)
  | .barInit a b => some (encX 8#7 b a 4#3 0#5 0x7B#7)
  | .barReg a => some (encX 9#7 0#5 a 4#3 0#5 0x7B#7)
  | .barArr a => some (encX 10#7 0#5 a 4#3 0#5 0x7B#7)
  | .barWait a b => some (encX 11#7 b a 4#3 0#5 0x7B#7)
  | .barStat d a => some (encX 12#7 0#5 a 4#3 d 0x7B#7)
  | .tlInit a b => some (encX 16#7 b a 4#3 0#5 0x7B#7)
  | .tlAdd a b => some (encX 17#7 b a 4#3 0#5 0x7B#7)
  | .tlSet a b => some (encX 18#7 b a 4#3 0#5 0x7B#7)
  | .tlWait a b c => some (encX 19#7 b a 4#3 c 0x7B#7)
  | .tlRd d a => some (encX 20#7 0#5 a 4#3 d 0x7B#7)
  | .vld v a s sy w => some (encVM 0#6 s a sy.code 0#1 w v)
  | .vst v a s sy w => some (encVM 1#6 s a sy.code 0#1 w v)
  | .vldD v a s sy w => some (encVM 6#6 s a sy.code 0#1 w v)
  | .vstE v a s sy w => some (encVM 7#6 s a sy.code 0#1 w v)
  | .vlds v a b el w => some (encVM 2#6 (0#1 ++ b) a 0#2 el.code w v)
  | .vsts v a b el w => some (encVM 3#6 (0#1 ++ b) a 0#2 el.code w v)
  | .vgat v a b el w => some (encVM 4#6 (0#3 ++ b) a 0#2 el.code w v)
  | .vsca v a b el w => some (encVM 5#6 (0#3 ++ b) a 0#2 el.code w v)
  | .vmvx d x l w => some (encVX 8#6 0#4 x l w d)
  | .vmxv x a l w => some (encVX 9#6 0#4 x a w l)
  | .vbc f d x w => some (encVX 10#6 f.code x 0#3 w d)
  | .vadd f m d a b w => some (encVA 16#6 f.code m b a w d)
  | .vsub f m d a b w => some (encVA 17#6 f.code m b a w d)
  | .vmul f m d a b w => some (encVA 18#6 f.code m b a w d)
  | .vfma f m d a b w => some (encVA 19#6 f.code m b a w d)
  | .vfms f m d a b w => some (encVA 20#6 f.code m b a w d)
  | .vmax f m d a b w => some (encVA 21#6 f.code m b a w d)
  | .vmin f m d a b w => some (encVA 22#6 f.code m b a w d)
  | .vabs f m d a w => some (encVA 23#6 f.code m 0#3 a w d)
  | .vneg f m d a w => some (encVA 24#6 f.code m 0#3 a w d)
  | .vand m d a b w => some (encVA 25#6 0#4 m b a w d)
  | .vor m d a b w => some (encVA 26#6 0#4 m b a w d)
  | .vxor m d a b w => some (encVA 27#6 0#4 m b a w d)
  | .vnot m d a w => some (encVA 28#6 0#4 m 0#3 a w d)
  | .vsll f m d a b w => some (encVA 29#6 f.code m b a w d)
  | .vsrl f m d a b w => some (encVA 30#6 f.code m b a w d)
  | .vsra f m d a b w => some (encVA 31#6 f.code m b a w d)
  | .vcmpEq f m d a b w => some (encVA 32#6 f.code m b a w (k3 d))
  | .vcmpLt f m d a b w => some (encVA 33#6 f.code m b a w (k3 d))
  | .vcmpLe f m d a b w => some (encVA 34#6 f.code m b a w (k3 d))
  | .vsel f n d a b w => some (encVA 35#6 f.code (some n) b a w d)
  | .vredAdd f m d a w => some (encVA 36#6 f.code m 0#3 a w d)
  | .vredMax f m d a w => some (encVA 37#6 f.code m 0#3 a w d)
  | .vredMin f m d a w => some (encVA 38#6 f.code m 0#3 a w d)
  | .vscan f m d a w => some (encVA 39#6 f.code m 0#3 a w d)
  | .vperm f m d a b w => some (encVA 40#6 f.code m b a w d)
  | .vcvt f sf rm d a w => some (encVC f.code rm.code sf.code a w d)
  | .vq f m d a b w => some (encVA 45#6 f.code m b a w d)
  | .vdq f m d a b w => some (encVA 46#6 f.code m b a w d)
  | .vexp2 f m d a w => some (encVA 48#6 f.code m 0#3 a w d)
  | .vrcp f m d a w => some (encVA 49#6 f.code m 0#3 a w d)
  | .vrsq f m d a w => some (encVA 50#6 f.code m 0#3 a w d)
  | .vsig f m d a w => some (encVA 51#6 f.code m 0#3 a w d)
  | .vtanh f m d a w => some (encVA 52#6 f.code m 0#3 a w d)
  | .kand d a b w => some (encVA 56#6 0#4 none (k3 b) (k3 a) w (k3 d))
  | .kor d a b w => some (encVA 57#6 0#4 none (k3 b) (k3 a) w (k3 d))
  | .knot d a w => some (encVA 58#6 0#4 none 0#3 (k3 a) w (k3 d))
  | .kmv d a w => some (encVA 59#6 0#4 none 0#3 (k3 a) w (k3 d))
  | _ => none

/-- The words of an instruction in the order memory holds them: one, or the two of a pair (R96); none for
a tile command or an event, which no instruction word stands for. -/
def encode : Instr → List (BitVec 32)
  | .rlx second => [rlxPrefix, second]
  | i => match encodeWord i with
    | some w => [w]
    | none => []

/-! ### Bytes -/

/-- The four bytes of a word, lowest address first (R3). -/
def wordBytes (w : BitVec 32) : List Byte :=
  [w.extractLsb' 0 8, w.extractLsb' 8 8, w.extractLsb' 16 8, w.extractLsb' 24 8]

/-- The word of the first four bytes of a list; missing bytes read as zero. -/
def bytesWord (bs : List Byte) : BitVec 32 :=
  bs.getD 3 0 ++ bs.getD 2 0 ++ bs.getD 1 0 ++ bs.getD 0 0

/-- The instruction that a list of bytes begins. -/
def decodeBytes (bs : List Byte) : Except Reject Instr := decode (bytesWord bs) (bytesWord (bs.drop 4))

/-- The instruction that the decoder reads from an instruction whose bits are `w`, numbered from the least
significant bit of its first word; the bits above `nbits` are zero, up to the 64 of a pair. -/
def decodeTableWord (nbits w : Nat) : Option Instr :=
  let x : BitVec 64 := BitVec.ofNat 64 (w % 2 ^ nbits)
  match decodeBytes (wordBytes (x.extractLsb' 0 32) ++ wordBytes (x.extractLsb' 32 32)) with
  | .ok i => some i
  | .error _ => none

end Sys2Proof
end

