-- ==== Sys2Proof/Config.lean ====
section
/-! DEFINITION. What the spec fixes as figures of the module, and the values it leaves open. An open
value is an `opaque` constant with no body: no proof can see which value it is. -/

set_option Elab.async false

namespace Sys2Proof.Config

/-- A fresh free value for each argument: latencies within a range and choices the spec leaves open
(assumption 3) (DESIGN CHOICE 3). -/
opaque free : Nat → Nat

/-- Where the Casot job-service entry stands, but for the alignment of an instruction: not given (DESIGN CHOICE 43). -/
opaque casotPlace : Word

/-- The address of the Casot job-service entry, which EVEC holds at thread start (R139, R158) (DESIGN CHOICE 43). -/
def casotEntry : Word := casotPlace &&& ~~~3#64

/-- The bytes a rover's context leaves in the spill ring: the layout is not architectural (R233) (DESIGN CHOICE 52). -/
opaque spillByte : Nat → Byte

/-- The pool that the house cores reserve for a job in a cluster's Carafe, as offset and size in units of 128
bytes, and the one in tier-1 memory, as address and size in those units: their choice, not architectural
(R374) (DESIGN CHOICE 52). -/
opaque poolCarafe : BitVec 32 → Nat → Nat × Nat
opaque poolTier : BitVec 32 → Nat × Nat

/-- Task entries that the overflow area of a die holds: the house cores' choice (06_threads, Task entries) (DESIGN CHOICE 26). -/
opaque overflowEntries : Nat → Nat

/-- The quote signature of R431 under the device identity key (DESIGN CHOICE 41). -/
opaque quoteSignature : List Byte → List Byte

/-- Cycles in a tick (R4). -/
def cyclesPerTick : Nat := 1250

/-- The Casot basic-control value of SYNCLIM.LIMIT (R200). -/
def casotSyncLimit : Word := 100000

/-- The Casot basic-control value of CARRY.SET (R247). -/
def casotCarry : Word := 0

/-- The Casot basic-control value of SCORECHK.CHK (R298). -/
def casotScoreChk : Word := 1

/-- The granule at which the runtime lays a core's inbox ring of 4 KB, which it chooses (R273): any at which the ring fits in the
scratchpad (DESIGN CHOICE 91). -/
opaque casotInboxBase : Nat → Fin 32513

/-- The place, in units of 256 bytes, at which the runtime lays a core's spill ring of 64 contexts, which it chooses (R247): any
at which the ring fits in the scratchpad (DESIGN CHOICE 91). -/
opaque casotSpillBase : Nat → Fin 1793

/-- Architectural cores of the module (R12). -/
def coreCount : Nat := 4096

/-- Slots of a core (R13). -/
def slotCount : Nat := 16

/-- Entries of q0 (R299). -/
def q0Entries : Nat := 16

/-- Records of q1 (R308). -/
def q1Records : Nat := 32

/-- Entries of q2 (R333). -/
def q2Entries : Nat := 4

/-- Entries of q4 (R336). -/
def q4Entries : Nat := 8

/-- Records of q5 (R336). -/
def q5Records : Nat := 16

/-- Park entries of a core (R199). -/
def parkEntries : Nat := 64

/-- Frames in a station's emit queue (R256). -/
def emitEntries : Nat := 16

/-- Objects of a station's mirror (R260). -/
def pourObjects : Nat := 1024

/-- Pour stations (R19). -/
def stationCount : Nat := 520

/-- Posted-store credits of a core (R229). -/
def postedCredits : Nat := 64

/-- Entries of a combining buffer (R226). -/
def combiningEntries : Nat := 8

/-- Contexts of an arrival queue (R235). -/
def arrivalEntries : Nat := 16

/-- Task entries one die holds in its TQU banks (06_threads, Task entries). -/
def tquEntries : Nat := 16384

end Sys2Proof.Config
end

