-- ==== Sys2Proof/Machine/State.lean ====
section
/-! DEFINITION. The state of one SXC4-M1 module: every register, queue, table and memory that the spec
names, as plain data. Threads, cores, clusters and pages are held sparsely; a core or a cluster that is
not listed stands at its reset value. -/

set_option Elab.async false

namespace Sys2Proof.Machine

/-! ### Threads -/

/-- An object that a promise, a wait or a halt by dependence names (R29, R203, R410). A granule is named
by its canonical address divided by 16. -/
inductive Obj where
  | granule (g : Nat)
  | tag (gtid : BitVec 22) (tag : BitVec 4)
  | barrier (i : BitVec 10)
  | timeline (i : BitVec 10)
  | handle (core : CoreId) (h : BitVec 6)
  | ring (core : CoreId) (n : BitVec 3)
  | mailbox (core : CoreId)
  deriving DecidableEq, Repr

/-- Running, halted at the root, or halted by dependence on an object (R28, R30, R410). -/
inductive Run where
  | live
  | root
  | dep (o : Obj)
  deriving DecidableEq, Repr

/-- Reason of a root halt (R410). -/
inductive Reason where
  | none | ebreak | halt | hold | step | brk | double | traph | asynh
  deriving DecidableEq, Repr

/-- An asynchronous event that waits for the thread's turn (R311, R237). -/
structure AsyncEvent where
  code : BitVec 8
  eval : Word
  deriving DecidableEq, Repr

/-- What a synchronising access does to its granules (R209, R93). -/
inductive SyncOp where
  | keep      -- needs full, leaves full, reads
  | take      -- needs full, leaves empty, reads
  | fill      -- needs empty, leaves full, writes
  | over      -- needs full, leaves full, writes
  deriving DecidableEq, Repr

/-- The data side of a synchronising access. -/
inductive SyncShape where
  | scalarLoad (d : Reg)
  | scalarStore (data : Word)
  | vecLoad (d : VReg)
  | vecStore (data : VWord)
  | vecDecode (d : VReg) (a : Nat) (fmt : Word)
  | vecEncode (bytes : List (Nat × Byte)) (flags : BitVec 6)
  deriving DecidableEq, Repr

/-- A synchronising access: canonical address, operation and data (R209, R282, R284). -/
structure SyncAccess where
  addr  : Nat
  op    : SyncOp
  shape : SyncShape
  deriving DecidableEq, Repr

/-- Operations of the atomics (R80). -/
inductive AmoOp where
  | add | and | or | xor | min | max | minu | maxu | swap | cas
  deriving DecidableEq, Repr

/-- A memory access with everything its performance at the owner needs (R205, R213, R282, R283). -/
inductive Access where
  | load (d : Reg) (w : Nat) (signed lcon : Bool)
  | store (w : Nat) (data : Word)
  | amo (op : AmoOp) (d : Reg) (w : Nat) (b e : Word)
  | vload (d : VReg)
  | vstore (data : VWord)
  | vgather (d : VReg) (el : El) (addrs : List Nat)
  | vscatter (el : El) (addrs : List Nat) (data : VWord)
  | sync (a : SyncAccess)
  | feSet
  | feClr
  | feTst (d : Reg)
  | flush (bytes : List (Nat × Byte))
  | request (hold : Bool) (tid : BitVec 16)
  deriving DecidableEq, Repr

/-- Access classes of R192; a combining-buffer flush is its own. -/
inductive AccClass where
  | ordinary | relaxed | posted | combining
  deriving DecidableEq, Repr

/-- What an instruction whose frame is emitted still does when the frame has been applied (R270, R271). -/
inductive FrameAct where
  | cast
  | init (isBar : Bool)
  | arrive
  | add (inc : Word)
  | set (value : Word)
  deriving DecidableEq, Repr

/-- Why an instruction is to be tried again later: the condition that must hold first. -/
inductive Cause where
  | quiet                          -- every earlier access performed (R309, R320)
  | release                        -- relaxed accesses complete, combining buffer empty (R167, R195)
  | ordinary                       -- the ordinary access has been acknowledged (R192)
  | relaxedRoom                    -- fewer than four relaxed accesses outstanding (R193)
  | overlap (lo len : Nat)         -- earlier accesses to these bytes have been performed (R193)
  | overlapBesides (lo len id : Nat) -- the same, but for an entry's own flush (R389)
  | fence (n : Scope)              -- R208
  | flushed                        -- combining entries of the thread acknowledged (R243)
  | credit                         -- a posted-store credit (R229)
  | room (q : BitVec 3)            -- room in a queue (R299, R333, R336)
  | outbound                       -- a free outbound entry (R267)
  | emit                           -- a free entry of the station's emit queue (R256)
  | vreg (r : BitVec 4)            -- a vector result still in flight (R277)
  | allVec                         -- every vector result written (R279)
  | xreg (r : Reg)                 -- a relaxed load's destination (R193)
  | drain (rank : Option (BitVec 6)) -- R245
  | migrate                        -- the drains of R240
  | outcp (a : Nat)                -- an object's OUTCP is 0 (R378)
  | time (t : Nat)                 -- TIME has passed a value already read (R151)
  | resync                         -- the station has finished RESYNC (R259)
  | hubEmit                        -- the hub's emit queue has room (R256, R262)
  | dark (rank : BitVec 6)         -- held packets below the allowance of a dark rank (R237)
  deriving DecidableEq, Repr

/-- What a thread waits for (DESIGN CHOICE 11). -/
inductive WaitFor where
  | sync (a : SyncAccess)          -- a granule at its own core (R199)
  | access (packet : Nat)          -- a load, or another access whose result it needs (R192)
  | parked (packet : Nat) (a : SyncAccess)  -- a granule reached by a global or remote address (R199)
  | recv (d : Reg) (v : VReg)      -- R268
  | peek (d : Reg) (v : VReg)
  | btag (off : BitVec 12)
  | barrier (i : BitVec 10) (phase : BitVec 32)    -- R270
  | timeline (i : BitVec 10) (target : Word)       -- R271
  | handle (h : BitVec 6) (st : HState)            -- R351
  | qpop (d : VReg) (q : BitVec 3)                 -- R321
  | xtake (d : VReg)                               -- R354
  | frame (ty : FrameType) (act : FrameAct) (i : BitVec 10) -- R269 to R271
  | join (k : BitVec 12)                           -- R172
  | sleep (until_ : Nat)                           -- R184
  | ending                                         -- R177
  | served (a : SyncAccess) (v : VWord) (f : BitVec 6)  -- R199, R209: data that is written two cycles later
  | offer (rover : Nat)                            -- R236
  | walk (addr : Nat)                              -- R189
  | latched (addr : Nat)                           -- R189
  | line (line : Nat)                              -- R171
  | again (c : Cause)
  | suspending (id : Nat)
  | resuming (id : Nat)
  | copying (src : Nat) (version : Word) (dst : Nat)  -- R379
  | submitted (d : Reg) (n : Nat)                  -- R183: a `grow` on its way to the TQU bank
  deriving DecidableEq, Repr

/-- A wait with its place in the wait order, its tick count C and its limit L (R198, R200); `cancel` is set
once the expiry of a parked wait has sent its cancel, and `expired` names the trap's EVAL (R201). -/
structure Wait where
  what   : WaitFor
  order  : Nat
  count  : Nat
  limit  : Option Nat
  eval   : Word
  cancel : Bool
  deriving DecidableEq, Repr

/-- A vector or mask result not yet written (R276, R277): destination 0 to 7 for v0 to v7 and 8 to 11 for
k0 to k3, its value, its flags, the cycle of its writing, the issues left in its window, and the cycle of its issue. -/
structure VResult where
  dest   : BitVec 4
  value  : VWord
  flags  : BitVec 6
  due    : Nat
  window : Nat
  issue  : Nat
  deriving DecidableEq, Repr

/-- A thread's place in a gang: the stream (cluster × 16 + slot), whether it is attached, and the position
of its next stream instruction, or of its last one when it is detached (R168 to R172). -/
structure Gang where
  stream   : Nat
  attached : Bool
  pos      : Nat
  deriving DecidableEq, Repr

/-- A message in an outbound queue (R253): destination, tag, length code and payload. -/
structure OutMsg where
  job     : BitVec 32
  dest    : BitVec 22
  tag     : BitVec 4
  len     : BitVec 2
  payload : VWord
  deriving DecidableEq, Repr

/-- The slot's barrier arrival record (R270). -/
structure ArrRec where
  obj   : BitVec 10
  phase : BitVec 32
  deriving DecidableEq, Repr

/-- The state of a live thread: the architectural state of its slot (R126), its per-slot CSRs (R149), and
what the thread record of a continuation holds (R366). `basic` says that EVEC still is what the thread's start made
it, the Casot entry, and `entered` that PC stands at that entry since a trap (assumption 43). `ackAt` is the cycle in which
an atomic on the own local window is acknowledged (R191), and `relAcks` those of its relaxed ones (R213). `latch` holds the word,
or the two words of a pair, that the thread has fetched and not retired, and `latchCnt` its count C and limit L (R126, R366).
`dlTicks` is the TICKS value that made a DEADLINE event pending (R173), `noticed` lists the entries of the HOLD frames of a halt, which
its RELEASE frames list again (R263), `stepAt` is the cycle in which a stepped instruction retired, and `stepSend` says that it was
a `send` (R409). -/
@[ext]
structure Thread where
  pc        : Word
  x         : Vector Word 32
  taint     : BitVec 32
  pw        : Word
  v         : Vector VWord 8
  k         : Vector MaskWord 4
  vres      : List VResult
  evec      : Word
  basic     : Bool
  entered   : Bool
  epc       : Word
  ecause    : Word
  eval      : Word
  epw       : Word
  vflags    : Word
  synclim   : Word
  dline     : Word
  carry     : Word
  scorechk  : Word
  stepctl   : Word
  instret   : Word
  cbase     : Word
  clim      : Word
  lastTime  : Nat
  inHandler : Bool
  promises  : Vector (Option Obj) 8
  arrRec    : Option ArrRec
  events    : List AsyncEvent
  dlPending : Bool
  dlTicks   : Word
  run       : Run
  reason    : Reason
  wasDep    : Option Obj
  skip      : Bool
  dcode     : BitVec 8
  noticed   : List Obj
  stepped   : Bool
  stepAt    : Nat
  stepSend  : Bool
  wait      : Option Wait
  latch     : Option (BitVec 32 × BitVec 32)
  latchCnt  : Option (Nat × Nat)
  readyAt   : Nat
  ackAt     : Nat
  relAcks   : List Nat
  gang      : Option Gang
  rover     : Bool
  origin    : CoreId
  group     : Nat
  launch    : BitVec 32
  index     : BitVec 32
  job       : BitVec 32
  deriving DecidableEq, Repr

/-! ### Cores -/

/-- The thread that an engine's events go to (R311, R343): a live thread, one that has ended or left, or one
that is saved in the continuation at an address, under a record number (R371). -/
inductive Issued where
  | live (tid : BitVec 16)
  | gone
  | saved (addr rec : Nat)
  deriving DecidableEq, Repr

/-- A command in q0 or q4 (R299, R336): its first word, its second word when it has one, the slot that
pushed it, its recorded issuer and group, its sequence number, the cycle from which the engine sees it, who
gets its events, and the continuation (with the record number) that its completion goes to (R371). -/
structure Cmd where
  word  : BitVec 256
  word1 : BitVec 256
  two   : Bool
  tid   : BitVec 16
  gtid  : BitVec 22
  group : Nat
  job   : BitVec 32
  seq   : Word
  ready : Nat
  who   : Issued
  obj   : Option (Nat × Nat)
  deriving DecidableEq, Repr

/-- The phase of the next command of q0 to start: `sampled` holds the BFMT registers that it sampled at the head (R305),
`checking` is the overflow check of an `acc.st` with rtrap until its end, with the same sample (R300, R329). -/
inductive CmdPhase where
  | queued
  | sampled (fmts : Vector Word 32)
  | checking (due : Nat) (fmts : Vector Word 32)
  | held
  deriving DecidableEq, Repr

/-- A command of q0 that is at work: the status it will report, the cycle at which its own work ends, the bytes that it writes,
as address and length, and whether its tiles leave the rings when it retires (R103, R300). -/
structure MeWork where
  status : Word
  due    : Nat
  writes : List (Nat × Nat)
  pops   : Bool
  deriving DecidableEq, Repr

/-- A record of q1 or q5 (R321, R341) with the group whose threads receive its flags (R310). -/
structure QRec where
  status  : Word
  seq     : Word
  gtid    : BitVec 22
  written : Word
  group   : Nat
  deriving DecidableEq, Repr

/-- A beat of a copy: the source bytes it reads, the bytes it writes, how many of them are bytes of the destination and no scale
entries, and the flags of its conversions (R124, R339 to R341). -/
structure Beat where
  src    : Nat
  srcLen : Nat
  cells  : List (Nat × Byte)
  data   : Nat
  flags  : BitVec 6
  deriving DecidableEq, Repr

/-- A copy of a core that has started and not completed (R337 to R341): its class, the flags it has raised,
whether a beat was corrected, the code and DETAIL of a failure, the bytes written, the cycle of its end, the
address at which it is paused, the cycle until which its beats wait at the port, the barrier phase an `allred` waits for, its
handle as a copy-in or a copy-out, the ranges it writes and those it has written, and the beats that are left. `spans` are its runs as
source, destination and bytes, `convert` says that it may convert between banks, `samples` holds the registers of the banks that it
has met, `done` counts its beats so far, and `snap` keeps the source bytes that it overwrites itself (R121, R355, R356). -/
structure CopyRun where
  cmd     : Cmd
  far     : Bool
  flags   : BitVec 6
  fixed   : Bool
  fail    : Option (Nat × Nat)
  written : Nat
  due     : Nat
  paused  : Option Nat
  atPort  : Option Nat
  gate    : Option (BitVec 10 × BitVec 32)
  copyIn  : Option (BitVec 6)
  copyOut : Option (BitVec 6)
  dsts    : List (Nat × Nat)
  wrote   : List (Nat × Nat)
  beats   : List Beat
  spans   : List (Nat × Nat × Nat)
  convert : Bool
  samples : List (Nat × Word)
  done    : Nat
  snap    : List (Nat × Byte)
  deriving DecidableEq, Repr

/-- An entry of the transfer mailbox q2 (R333) with the pusher's group (R335) and its push order. -/
structure Mail where
  data  : VWord
  group : Nat
  order : Nat
  deriving DecidableEq, Repr

/-- A buffer handle (R344) with the group that bound it. -/
structure Handle where
  bound : Bool
  st    : HState
  len   : BitVec 20
  base  : BitVec 19
  group : Nat
  deriving DecidableEq, Repr

/-- A combining-buffer entry (R226): its id, its thread, its 16-byte block, its valid bytes, and the cycle of the latest store
that entered it. -/
structure CbEntry where
  id    : Nat
  tid   : BitVec 16
  block : Nat
  bytes : List (Nat × Byte)
  last  : Nat
  deriving DecidableEq, Repr

/-- A cast record that waits for room in an inbox (R255). -/
structure CastRec where
  src     : BitVec 22
  chan    : BitVec 6
  payload : BitVec 256
  deriving DecidableEq, Repr

/-- An entry of a prefetch buffer: a task entry, and whether the monitor holds it (R164, R181). -/
structure Buffered where
  entry : VWord
  held  : Bool
  claim : Option (BitVec 4)
  deriving DecidableEq, Repr

/-- The state of one core. CSRs are held as the 64-bit words of R149. `signals` lists the completions whose
signal granule the issuing group has not yet consumed: granule, group and flags (R310). `accBad` marks
accumulators whose parity fails, `residue` counts the residue mismatches that the array is about to meet
(R316): hardware errors, which no row of the table raises. `q0Work` lists the commands of q0 that are at work, the oldest first;
`meAsk` is the charge for which its next one asks the cluster's power arbiter, and `meGranted` says that it has been granted
(R317). `outq` holds the outbound message queues of the
slots, each in its order (R253). `hot`, `cool` and `reading` are the thermal thresholds of the house cores and what the
core's sensor reads (R174), `corrected` the single-bit errors counted for the house cores (R188), `thermal` the slots that are disabled, latest first, and `thermalAt` the cycle from which the thermal
controller may change one again (R174). -/
@[ext]
structure Core where
  slotcfg   : Word
  rovelim   : Word
  arrspill  : Word
  inboxb    : Word
  inboxs    : Word
  inboxSeq  : BitVec 32
  mescale   : Word
  mebudget  : Word
  meBucket  : Nat
  mefault   : Word
  fabqos    : Vector Word 4
  fabBucket : Vector Nat 4
  bfmt      : Vector Word 32
  ringBase  : Vector Word 8
  ringSize  : Vector Word 8
  ringTile  : Vector Word 8
  ringHead  : Vector Word 8
  ringTail  : Vector Word 8
  profctl   : Word
  prof      : Vector Word 16
  acc       : List (Nat × BitVec 32)
  poison    : BitVec 4
  accBad    : BitVec 4
  residue   : Nat
  spareCol  : Option (BitVec 6)
  q0        : List Cmd
  q0Phase   : CmdPhase
  q0Work    : List MeWork
  meAsk     : Option Nat
  meGranted : Bool
  q0Ready   : Nat
  cmdCount  : Word
  q1        : List QRec
  q2        : Vector (Option Mail) 4
  mseq      : BitVec 32
  q4        : List Cmd
  q4Held    : Bool
  copies    : List CopyRun
  copyCount : Word
  q5        : List QRec
  requester : Option (BitVec 22 × Nat)
  handles   : Vector Handle 64
  subs      : Word
  castQ     : List CastRec
  outq      : List (BitVec 4 × OutMsg)
  marks     : BitVec 16
  cb        : List CbEntry
  posted    : Nat
  buffer    : List Buffered
  arrQ      : List Nat
  spill     : List Nat
  spillHead : Nat
  tlb       : List (BitVec 32 × Nat)
  signals   : List (Nat × Nat × BitVec 6)
  owner     : Option Nat
  lost      : Bool
  corrected : Nat
  hot       : Nat
  cool      : Nat
  reading   : Nat
  thermal   : List (BitVec 4)
  thermalAt : Nat
  deriving DecidableEq, Repr

/-! ### Clusters, dies and the module -/

/-- A gang's stream (R168, R169): the stream position of `path`'s first PC, the PCs of the stream from
there on as the pilot has resolved them, and the `join` numbers it has executed with their positions (DEDUCED 78). -/
structure Stream where
  base  : Nat
  path  : List Word
  joins : List (Nat × BitVec 12)
  deriving DecidableEq, Repr

/-- A frame in an emit queue, and the cycle from which the station may emit it; house-core, HOLD and RELEASE frames go first
(R256). -/
structure QFrame where
  ty    : FrameType
  first : Bool
  f     : Frame
  due   : Nat
  deriving DecidableEq, Repr

/-- A forwarding entry: an old core id or an old thread id with its new one, the cycle of its last use, and the cycle from which its
FWD frame has been applied on every rank, none before it is applied here (R375). -/
structure Fwd where
  whole : Bool
  src   : BitVec 16
  dst   : BitVec 16
  last  : Nat
  acked : Option Nat
  deriving DecidableEq, Repr

/-- The state of one cluster: instruction cache, spare, forwarding entries, withheld table and budget (DESIGN CHOICE 13). `missed`
lists the entries that found the table full, with the thread that holds them, and `overflow` counts them for the house cores
(R263); `copyNext` is the core that the copy engine serves next, `copyAt` the cycle from which it may start a command and
`beatsUntil` the cycle at which its beats so far end (R337, R360) (DESIGN CHOICE 13). -/
structure Cluster where
  icache    : List Nat
  spareUsed : Bool
  forward   : List Fwd
  withheld  : List (Obj × Nat)
  streams   : List (Nat × Stream)
  budget    : Option Nat
  budgetNext : Option Nat
  granted   : Nat
  missed    : List (Obj × BitVec 22)
  overflow  : Nat
  copyNext  : Nat
  copyAt    : Nat
  beatsUntil : Nat
  deriving DecidableEq, Repr

/-- A queued task: an entry template with the pending indices lo to hi − 1, its present class, and when it
entered that class, which for a submitted entry is when the TQU bank accepts it; `first` marks one that has returned to the head of its class
(R162, R163, R165, R182). -/
structure QItem where
  entry : VWord
  lo    : Nat
  hi    : Nat
  cls   : Nat
  since : Nat
  first : Bool
  deriving DecidableEq, Repr

/-- A launch (R162, R26): its id, count, ended indices, completion action, job, die, and index-generation
template. -/
structure Launch where
  id    : BitVec 32
  count : Nat
  ended : Nat
  done  : Done
  job   : BitVec 32
  die   : BitVec 2
  cls   : BitVec 2
  entry : VWord
  deriving DecidableEq, Repr

/-- The state of one die: its task queue and its thermal ranking table (R162, R175), the completion messages
that wait for room in an inbox (R167), its retired channels (R434), and whether a junction trip holds it in
reset (R437). -/
structure Die where
  queue    : List QItem
  ranking  : List CoreId
  doneMsgs : List (BitVec 32 × BitVec 22 × BitVec 4)
  retired  : List (BitVec 7)
  tripped  : Bool
  deriving DecidableEq, Repr

/-- A running group (R159, R230). -/
structure Group where
  id       : Nat
  level    : Level
  cls      : BitVec 2
  launch   : BitVec 32
  index    : BitVec 32
  job      : BitVec 32
  cores    : List CoreId
  deadline : Word
  posted   : Nat
  unrcnt   : BitVec 8
  ulast    : BitVec 6
  suspended : Nat
  cbase    : Word
  clim     : Word
  deriving DecidableEq, Repr

/-- A Pour object as every station's mirror holds it (R260). -/
structure PourObj where
  kind    : BitVec 2
  job     : BitVec 32
  scope   : Bool
  home    : BitVec 6
  parties : BitVec 24
  arr     : BitVec 24
  phase   : BitVec 32
  val     : Word
  wheld   : Nat
  deriving DecidableEq, Repr

/-- What a station that resynchronises still holds: its mirror, its capacity table and its cluster's withheld table as they stood
when it discarded a frame; `casts` keeps the casts that have come since, and `late` lists the slots that a thread has taken since, which
may have seen more of the Pour elsewhere (R259, R392). -/
structure Mirror where
  pour     : List (Nat × PourObj)
  capacity : List (Nat × Nat)
  withheld : List (Obj × Nat)
  casts    : List CastRec
  late     : List Nat
  deriving DecidableEq, Repr

/-- A packet of an access (R217): its source, what it does, where, its class and path, the cycle of its issue (`start`), that of
its injection (`issued`) and the cycles it takes from there. `sent` says that it has been injected, `held` that a dark rank or
a CXL fault holds it, `retry` that its flits are in a link's retry buffer (R190, R237); `part` counts the parts of a vector
access that have been performed, and `data` is what they read (R196). `evals` are the addresses of its elements as the instruction
gave them, and `failAt` is the element that failed (R188). -/
structure Packet where
  id      : Nat
  tid     : BitVec 16
  core    : CoreId
  group   : Nat
  pc      : Word
  addr    : Nat
  acc     : Access
  cls     : AccClass
  ordered : Bool
  escape  : Bool
  units   : Nat
  start   : Nat
  issued  : Nat
  total   : Nat
  sent    : Bool
  parked  : Bool
  order   : Nat
  held    : Bool
  retry   : Bool
  part    : Nat
  data    : VWord
  reply   : Option VWord
  fail    : Option (BitVec 8)
  evals   : List Word
  failAt  : Nat
  deriving DecidableEq, Repr

/-- A rover in an arrival queue, a spill ring or on offer (R233 to R236): its state, the core it enters,
whether it starts or migrates, the load it makes on arrival (register, address, width), the context of the
ring that holds it with the free bytes written there, the thread id it last had, and whether a HOLD waits for
it. -/
structure Rover where
  id      : Nat
  thread  : Thread
  target  : CoreId
  fresh   : Bool
  load    : Option (Reg × Nat × Nat)
  spilled : Option (Nat × Nat)
  last    : BitVec 16
  held    : Bool
  deriving DecidableEq, Repr

/-- An extent of a continuation (R367): its core in cluster, offset and length, or a core-state extent. -/
structure Extent where
  coreState : Bool
  core      : BitVec 3
  offset    : Nat
  len       : Nat
  deriving DecidableEq, Repr

/-- A suspension between its Stop and its commit (R370). -/
structure Susp where
  id      : Nat
  addr    : Nat
  level   : BitVec 2
  rights  : BitVec 8
  cause   : BitVec 8
  version : Word
  tids    : List (BitVec 16)
  group   : Nat
  extents : List Extent
  origin  : BitVec 22
  msgs    : List (BitVec 16 × OutMsg × BitVec 22)
  evts    : List (Nat × BitVec 8 × Word × Word × Word)
  sticky  : BitVec 6
  edrop   : Nat
  deriving DecidableEq, Repr

/-- A resume that has passed its checks and waits for its acceptance (R378). -/
structure Resume where
  id      : Nat
  addr    : Nat
  version : Word
  issuer  : Option (BitVec 16)
  core    : CoreId
  claims  : List (BitVec 16)
  job     : BitVec 32
  asCode  : Option Reg
  accepted : Bool
  deriving DecidableEq, Repr

/-- A contribution to an all-reduce (R359). -/
structure Contribution where
  obj   : BitVec 10
  phase : BitVec 32
  core  : CoreId
  seq   : Word
  gtid  : BitVec 22
  count : Nat
  ty    : BitVec 2
  isMax : Bool
  data  : List Byte
  seen  : Nat
  deriving DecidableEq, Repr

/-- A job: the cast channels assigned to it, and whether its inputs are logged (R255, R418). -/
structure Job where
  id       : BitVec 32
  channels : Word
  logged   : Bool
  deriving DecidableEq, Repr

/-- An object that counts as loaded (R50): its name, its job, the symbols that it exports (R54), the granules of the
local window that it wrote, and the cores on which it wrote them. -/
structure Loaded where
  name     : Nat
  job      : BitVec 32
  exports  : List (Nat × Int)
  granules : List Nat
  cores    : List CoreId
  deriving DecidableEq, Repr

/-- A Keatin port (R224, R225). -/
structure Port where
  lanes   : BitVec 5
  retries : Nat
  escapes : Nat
  deriving DecidableEq, Repr

/-- The mode of the module (R432). -/
inductive Mode where
  | off | booting | normal | minimal | dead
  deriving DecidableEq, Repr

/-- What the house cores log: a trip and every sparing action (R437, R439). -/
inductive HouseEvent where
  | trip (die : BitVec 2)
  | core (core : CoreId)
  | column (core : CoreId) (column : BitVec 6)
  | channel (channel : BitVec 7)
  | wavelength (wavelength : BitVec 4)
  | lanes (port : BitVec 4) (lanes : BitVec 5)
  | ethernet (port : Bool)
  deriving DecidableEq, Repr

/-- The boot, security and management state (R427 to R439). `record` and `running` say of what they hold whether
it came from copy B, `trained` the LPDDR-6 channels that trained, `failStage` the stage of the failure that `reason` reports, `smbus` the status
byte, `later` the writes that wait for the next boot, `cxlUp`, `pourUp` and `ports` the links that are up, `inputPower` (W) and `dieTemp`
(0.1 °C) readings, `log` the house cores' log, `mgmtIn` the port and the VLAN of the management frame at hand (R436), `netLog` the arrivals that they wrote (DESIGN CHOICE 71). -/
structure Platform where
  mode      : Mode
  stage     : BitVec 2
  failures  : Nat
  reason    : BitVec 8
  imagesA   : List (ImageKind × ImageRec)
  imagesB   : List (ImageKind × ImageRec)
  recordA   : Option ConfigRec
  recordB   : Option ConfigRec
  record    : Option (Bool × ConfigRec)
  recovery  : Option ImageRec
  revoked   : BitVec 16
  svnMin    : List (ImageKind × BitVec 6)
  running   : List (ImageKind × Bool × ImageRec)
  measure   : Vector (BitVec 512) 8
  quotes    : List (List Byte)
  trained   : List Nat
  smbus     : BitVec 8
  powered   : Bool
  supplyBad : Bool
  hotAction : Bool
  ports     : Vector Bool 2
  netLog    : List (Nat × List Byte)
  failStage : BitVec 2
  later     : List MgmtItem
  cxlUp     : BitVec 10
  pourUp    : Bool
  inputPower : Nat
  dieTemp   : Vector Nat 4
  log       : List HouseEvent
  mgmtIn    : Bool × BitVec 12
  deriving DecidableEq, Repr

/-- A step that the module itself has scheduled: each stands for the row of the table that it is named
after (`frame` for the row of its frame type, `meGrant` for the power arbiter of a cluster, `meStart` and `copyStart` for the command at the head of the
core's q0 or q4, `slotVacant` for the rest of `end`, `displace` for a displacement that had to wait, `messageSend` and
`messageAnswer` for the injection of a message, which stands at its port since step `since`, and for what a peer rank answers, `cancelSend` for the
injection of a cancel, `roverSend` for that of a migration, `handoff` for the services of a granule's waiters, `syncWritten` for the write of a served waiter's register, `copyBeats` for the beats of a copy that waited at the port, `castDrain` for queued casts, `copied` for the end of a `ccopy`,
`rehalt` for the evaluation of a restored or displaced thread's latched instruction, `growAccept` for the acceptance of a `grow`,
`watchdog` for the watchdog of a boot stage). -/
inductive Due where
  | vectorResultWrite (tid : BitVec 16)
  | packetInject (packet : Nat)
  | remoteAccessArrival (packet : Nat)
  | parkArrival (packet : Nat)
  | parkResend (packet : Nat)
  | loadDataReturn (packet : Nat)
  | storeAcknowledge (packet : Nat)
  | postedAck (packet : Nat)
  | escapeTimer (packet : Nat)
  | translationWalk (core : CoreId) (addr : JobAddr)
  | icacheLineFill (cluster : BitVec 9) (line : Nat)
  | syncCancel (tid : BitVec 16)
  | cancelConfirm (tid : BitVec 16)
  | waitLimitExpiry (tid : BitVec 16)
  | deadlineFire (tid : BitVec 16)
  | sleepExpiry (tid : BitVec 16)
  | slotVacant (tid : BitVec 16)
  | syncWritten (tid : BitVec 16)
  | handoff (granule : Nat)
  | displace (tid : BitVec 16)
  | tickAdvance
  | tokenRefill
  | meBudgetRefill
  | cbTimeoutFlush (core : CoreId) (entry : Nat)
  | roverArrival (rover : Nat)
  | arrivalSlotTake (core : CoreId)
  | roverReoffer (rover : Nat)
  | roverSend (rover : Nat)
  | drainMarkerAck (core : CoreId) (rank : Peer)
  | messageOffer (tid : BitVec 16)
  | messageReoffer (tid : BitVec 16)
  | messageSend (tid : BitVec 16) (since : Nat)
  | cancelSend (tid : BitVec 16) (packet since : Nat)
  | initAcks (f : Frame)
  | lostFrame (station : BitVec 10) (ty : FrameType) (f : Frame)
  | moveWait (src dst : CoreId) (deadline : Nat)
  | markerSend (core : CoreId) (rank : Peer) (cls since : Nat)
  | messageAnswer (tid : BitVec 16) (answer : Nat)
  | cupCapture (station : BitVec 10)
  | frame (ty : FrameType) (f : Frame)
  | domainBarrierPacket (ty : FrameType) (f : Frame)
  | resyncEnd (station : BitVec 10)
  | tquDeal (die : BitVec 2)
  | class3Aging (die : BitVec 2)
  | class2Aging (die : BitVec 2)
  | taskStart (core : CoreId)
  | preemption (die : BitVec 2)
  | thermalDisable (core : CoreId)
  | thermalEnable (core : CoreId)
  | suspendCommit (id : Nat)
  | resumeAccept (id : Nat)
  | liveMigrationComplete (src dst : CoreId) (spare : Bool)
  | forwardEntryFree (cluster : BitVec 9) (src : CoreId)
  | meStart (core : CoreId)
  | meGrant (cluster : Nat)
  | meCommandCompletion (core : CoreId)
  | copyStart (core : CoreId)
  | copyCompletion (core : CoreId) (seq : Word)
  | copyBeats (core : CoreId) (seq : Word)
  | castDrain (core : CoreId)
  | stepReport (tid : BitVec 16)
  | copied (tid : BitVec 16)
  | rehalt (tid : BitVec 16)
  | growAccept (tid : BitVec 16)
  | watchdog (stage : BitVec 2)
  deriving DecidableEq, Repr

/-- A step that falls due at a cycle; steps of one cycle are taken in the order of `order`. -/
structure Timed where
  due   : Nat
  order : Nat
  what  : Due
  deriving DecidableEq, Repr

/-- Who performs an instruction word: a thread slot, or a house core (R75, R415) (DESIGN CHOICE 8). -/
inductive Issuer where
  | slot (tid : BitVec 16)
  | house (n : BitVec 4)
  deriving DecidableEq, Repr

/-- A control of the house cores, or a reading that reaches the module, for which the table has no row (DESIGN CHOICE 2). -/
inductive Setting where
  | thresholds (core : CoreId) (hot cool : Nat)   -- R174
  | sensor (core : CoreId) (reading : Nat)        -- R174
  | recovery (cycles : Nat)                       -- R225
  | ownRank (rank : Peer)                         -- R154, R220
  | cxlFault (page : Nat) (bad : Bool)            -- R190
  | frameCorrected                                -- R259
  | frameHeader (station : BitVec 10) (h : Word)  -- R258
  | releaseSaved (object record : Nat)          -- R373
  | windowBudget (cluster : BitVec 9) (units : Nat) -- R317
  | inputPower (watts : Nat)                      -- R437, R438
  | dieTemp (die : BitVec 2) (t : Nat)            -- R437, R438
  | coolant (inlet flow : Nat)                    -- R437
  | injectEvent (tid : BitVec 16) (code : BitVec 8) (eval : Word) -- R418
  | mgmtFrame (port : Bool) (vlan : BitVec 12)    -- R436
  deriving DecidableEq, Repr

/-- What an input does: a row of the table, or a setting. -/
inductive Doing where
  | row (i : Instr)
  | set (x : Setting)
  deriving DecidableEq, Repr

/-- An input from outside the core slots: a step that the house cores, the loader, the debugger, the
network or the board makes (the host interface; assumption 2). `regs` are the registers that the house core
`who` holds when it performs an instruction word (DESIGN CHOICE 2). -/
structure Input where
  who  : Option (BitVec 4)
  regs : List (Reg × Word)
  what : Doing
  deriving DecidableEq, Repr

/-- The rank table of a job, and the module's own rank in it (R154, R220). -/
structure RankTable where
  job     : BitVec 32
  own     : BitVec 6
  entries : Vector Word 64
  deriving DecidableEq, Repr

/-- The state of one module. `paths` holds, for a source and a destination node of the fabric, the cycle at which the latest
packet on the ordered path between them arrives (R218), `cxlBad` the pages that a CXL fault keeps from service (R190).
`dropped` lists what the house cores record of dealt continuation entries that were dropped: job, object address and code (R378).
`cup` is the station that the cup left last, `cupTime` when, in 520ths of 0.4 ns (R19), `fecCount` the frames that the code
corrected (R259), and `peerFrames` what this module's hub has sent to the hubs of other ranks, oldest first (R262, R263), `peerBounces` the bounces that a restore has sent to senders on other ranks, with their REASON (R373). -/
@[ext]
structure State where
  threads   : List (Nat × Thread)
  cores     : List (Nat × Core)
  clusters  : List (Nat × Cluster)
  dies      : Vector Die 4
  mem       : List Host.Cell
  full      : List Nat
  eccOne    : List Nat
  eccBad    : List Nat
  febBad    : List Nat
  pages     : List PageRec
  released  : List (Nat × Nat)
  refused   : List Nat
  time      : Nat
  pour      : List (Nat × PourObj)
  pourPos   : Nat
  cup       : BitVec 10
  emit      : List (Nat × List QFrame)
  capacity  : List (Nat × Nat)
  resync    : List (BitVec 10)
  spareWave : Option (BitVec 4)
  allreds   : List Contribution
  packets   : List Packet
  paths     : List (Nat × Nat × Nat)
  cxlBad    : List Nat
  ranks     : List RankTable
  recovery  : Nat
  ports     : Vector Port 12
  markers   : List (CoreId × Peer × Nat)
  peerInbox : List (BitVec 22 × OutMsg × BitVec 22)
  peerFrames : List (Peer × FrameType × Frame)
  peerBounces : List (BitVec 22 × OutMsg × Nat)
  cupTime   : Nat
  fecCount  : Nat
  frozen    : List (Nat × Mirror)
  groups    : List Group
  launches  : List Launch
  rovers    : List Rover
  susps     : List Susp
  resumes   : List Resume
  poolUsed  : List (Nat × Nat)
  dropped   : List (BitVec 32 × Nat × Word)
  jobs      : List Job
  replayLog : List ReplayItem
  replayIn  : List ReplayItem
  loaded    : List Loaded
  migstat   : Word
  houseX    : List (Nat × Vector Word 32)
  platform  : Platform
  enabled   : Bool
  -- the model's own fields (assumptions 1 to 3)
  cur       : Issuer
  scan      : Nat
  timed     : List Timed
  inputs    : List Input
  fresh     : Nat
  deriving DecidableEq, Repr

/-! ### Outcomes -/

/-- Faults of the machine. The module has no global stop (R28): every exception the spec names is taken
as a trap, a halt or a status. -/
inductive Fault where
  /-- Raised by no meaning: it stands for a machine that stops, which the spec excludes (R28); safe. -/
  | globalStop
  deriving DecidableEq, Repr

/-- Refusals of the machine: an instruction that no one is there to perform (DESIGN CHOICE 8). -/
inductive Refusal where
  /-- An arm of the dispatch whose meaning is not written yet; safe. -/
  | notModelled (mnemonic : String)
  /-- Raised by every instruction word when the issuer is a slot without a live thread, which never
  issues (R14); safe. -/
  | noThread
  /-- Raised by an instruction word other than `hold`, `rel` and `migcore` when the issuer is a house
  core, an RV64GC core whose own instructions the spec does not describe; safe. -/
  | houseCore
  deriving DecidableEq, Repr

/-- The outcome of a step. -/
abbrev Out := Host.Outcome State Fault Refusal

/-! ### Reset -/

/-- A handle at reset: unbound, FREE, every field zero (R344). -/
def Handle.reset : Handle := { bound := false, st := .free, len := 0, base := 0, group := 0 }

/-- A core at module reset (the Reset columns of R119, R156, R222, R232, R233, R250, R302, R312, R314,
R317, R344, R416) (DESIGN CHOICE 6). -/
def Core.reset : Core :=
  { slotcfg := 0x802, rovelim := 0, arrspill := 0, inboxb := 0, inboxs := 0, inboxSeq := 0
    mescale := 0, mebudget := 0x0480000000#64, meBucket := 0x480, mefault := 0
    fabqos := Vector.replicate 4 0xFFFF000000#64, fabBucket := Vector.replicate 4 0xFFFF
    bfmt := Vector.replicate 32 0, ringBase := Vector.replicate 8 0, ringSize := Vector.replicate 8 0
    ringTile := Vector.replicate 8 0, ringHead := Vector.replicate 8 0, ringTail := Vector.replicate 8 0
    profctl := 0, prof := Vector.replicate 16 0, acc := [], poison := 0, accBad := 0, residue := 0, spareCol := none
    q0 := [], q0Phase := .queued, q0Work := [], meAsk := none, meGranted := false, q0Ready := 0, cmdCount := 0, q1 := [], q2 := Vector.replicate 4 none, mseq := 0
    q4 := [], q4Held := false, copies := [], copyCount := 0, q5 := [], requester := none
    handles := Vector.replicate 64 Handle.reset, subs := 0, castQ := [], outq := [], marks := 0, cb := [], posted := 0
    buffer := [], arrQ := [], spill := [], spillHead := 0, tlb := [], signals := [], owner := none, lost := false
    corrected := 0, hot := 0, cool := 0, reading := 0, thermal := [], thermalAt := 0 }

/-- A cluster at module reset (DESIGN CHOICE 6). -/
def Cluster.reset : Cluster :=
  { icache := [], spareUsed := false, forward := [], withheld := [], streams := [], budget := none, budgetNext := none, granted := 0
    missed := [], overflow := 0, copyNext := 0, copyAt := 0, beatsUntil := 0 }

/-- A die at module reset (DESIGN CHOICE 6). -/
def Die.reset : Die := { queue := [], ranking := [], doneMsgs := [], retired := [], tripped := false }

/-- A Pour object at module reset (R260) (DESIGN CHOICE 6). -/
def PourObj.reset : PourObj :=
  { kind := 0, job := 0, scope := false, home := 0, parties := 0, arr := 0, phase := 0, val := 0, wheld := 0 }

/-- The boot state at module reset: nothing has run, and the flash holds no image (assumption 6) (DESIGN CHOICE 6). -/
def Platform.reset : Platform :=
  { mode := .off, stage := 0, failures := 0, reason := 0, imagesA := [], imagesB := [], recordA := none
    recordB := none, record := none, recovery := none, revoked := 0, svnMin := [], running := []
    measure := Vector.replicate 8 0, quotes := [], trained := [], smbus := 0, powered := true
    supplyBad := false, hotAction := false, ports := Vector.replicate 2 true, netLog := []
    failStage := 0, later := [], cxlUp := 0, pourUp := false, inputPower := 0, dieTemp := Vector.replicate 4 0, log := [], mgmtIn := (false, 0) }

/-- The module right after reset: every slot vacant, every register at its Reset column, memory with
nothing listed, no core slot enabled (R6, R34) (DESIGN CHOICE 4, DESIGN CHOICE 6). -/
def State.reset : State :=
  { threads := [], cores := [], clusters := [], dies := Vector.replicate 4 Die.reset, mem := [], full := []
    eccOne := [], eccBad := [], febBad := [], pages := [], released := [], refused := [], time := 0, pour := [], pourPos := 0
    cup := 0, emit := [], capacity := [], resync := [], spareWave := none, allreds := [], packets := [], paths := [], cxlBad := []
    ranks := [], recovery := 2048
    ports := Vector.replicate 12 { lanes := 16, retries := 0, escapes := 0 }, markers := [], peerInbox := [], peerFrames := [], peerBounces := [], cupTime := 0, fecCount := 0, frozen := []
    groups := [], launches := [], rovers := [], susps := [], resumes := [], poolUsed := [], dropped := [], jobs := [], replayLog := []
    replayIn := [], loaded := [], migstat := 0, houseX := [], platform := Platform.reset, enabled := false
    cur := .slot 0, scan := 0, timed := [], inputs := [], fresh := 0 }

end Sys2Proof.Machine
end

