-- ==== Sys2Proof/Machine/Digest.lean ====
section
/-! DEFINITION. SHA-512, the digest of the chain of trust (R428, R431), the measurement registers, and the log of the house
cores that register 6 reports (R437, R439). -/

set_option Elab.async false

namespace Sys2Proof.Machine

/-! ### SHA-512 (FIPS 180-4), which R431 names -/

/-- The constants of the eighty rounds. -/
def shaK : List Word :=
  [0x428A2F98D728AE22#64, 0x7137449123EF65CD#64, 0xB5C0FBCFEC4D3B2F#64, 0xE9B5DBA58189DBBC#64, 0x3956C25BF348B538#64] ++
  [0x59F111F1B605D019#64, 0x923F82A4AF194F9B#64, 0xAB1C5ED5DA6D8118#64, 0xD807AA98A3030242#64, 0x12835B0145706FBE#64] ++
  [0x243185BE4EE4B28C#64, 0x550C7DC3D5FFB4E2#64, 0x72BE5D74F27B896F#64, 0x80DEB1FE3B1696B1#64, 0x9BDC06A725C71235#64] ++
  [0xC19BF174CF692694#64, 0xE49B69C19EF14AD2#64, 0xEFBE4786384F25E3#64, 0x0FC19DC68B8CD5B5#64, 0x240CA1CC77AC9C65#64] ++
  [0x2DE92C6F592B0275#64, 0x4A7484AA6EA6E483#64, 0x5CB0A9DCBD41FBD4#64, 0x76F988DA831153B5#64, 0x983E5152EE66DFAB#64] ++
  [0xA831C66D2DB43210#64, 0xB00327C898FB213F#64, 0xBF597FC7BEEF0EE4#64, 0xC6E00BF33DA88FC2#64, 0xD5A79147930AA725#64] ++
  [0x06CA6351E003826F#64, 0x142929670A0E6E70#64, 0x27B70A8546D22FFC#64, 0x2E1B21385C26C926#64, 0x4D2C6DFC5AC42AED#64] ++
  [0x53380D139D95B3DF#64, 0x650A73548BAF63DE#64, 0x766A0ABB3C77B2A8#64, 0x81C2C92E47EDAEE6#64, 0x92722C851482353B#64] ++
  [0xA2BFE8A14CF10364#64, 0xA81A664BBC423001#64, 0xC24B8B70D0F89791#64, 0xC76C51A30654BE30#64, 0xD192E819D6EF5218#64] ++
  [0xD69906245565A910#64, 0xF40E35855771202A#64, 0x106AA07032BBD1B8#64, 0x19A4C116B8D2D0C8#64, 0x1E376C085141AB53#64] ++
  [0x2748774CDF8EEB99#64, 0x34B0BCB5E19B48A8#64, 0x391C0CB3C5C95A63#64, 0x4ED8AA4AE3418ACB#64, 0x5B9CCA4F7763E373#64] ++
  [0x682E6FF3D6B2B8A3#64, 0x748F82EE5DEFB2FC#64, 0x78A5636F43172F60#64, 0x84C87814A1F0AB72#64, 0x8CC702081A6439EC#64] ++
  [0x90BEFFFA23631E28#64, 0xA4506CEBDE82BDE9#64, 0xBEF9A3F7B2C67915#64, 0xC67178F2E372532B#64, 0xCA273ECEEA26619C#64] ++
  [0xD186B8C721C0C207#64, 0xEADA7DD6CDE0EB1E#64, 0xF57D4F7FEE6ED178#64, 0x06F067AA72176FBA#64, 0x0A637DC5A2C898A6#64] ++
  [0x113F9804BEF90DAE#64, 0x1B710B35131C471B#64, 0x28DB77F523047D84#64, 0x32CAAB7B40C72493#64, 0x3C9EBE0A15C9BEBC#64] ++
  [0x431D67C49C100D4C#64, 0x4CC5D4BECB3E42B6#64, 0x597F299CFC657E2A#64, 0x5FCB6FAB3AD6FAEC#64, 0x6C44198C4A475817#64]

/-- The eight working variables. -/
structure Sha where
  a : Word
  b : Word
  c : Word
  d : Word
  e : Word
  f : Word
  g : Word
  h : Word
  deriving DecidableEq, Repr

/-- The initial hash value. -/
def shaInit : Sha :=
  { a := 0x6A09E667F3BCC908#64, b := 0xBB67AE8584CAA73B#64, c := 0x3C6EF372FE94F82B#64, d := 0xA54FF53A5F1D36F1#64
    e := 0x510E527FADE682D1#64, f := 0x9B05688C2B3E6C1F#64, g := 0x1F83D9ABFB41BD6B#64, h := 0x5BE0CD19137E2179#64 }

/-- A rotation to the right. -/
def rotr (x : Word) (n : Nat) : Word := (x >>> n) ||| (x <<< (64 - n))

/-- One round, with its constant and its word of the schedule. -/
def Sha.round (x : Sha) (k w : Word) : Sha :=
  let s1 := rotr x.e 14 ^^^ rotr x.e 18 ^^^ rotr x.e 41
  let ch := (x.e &&& x.f) ^^^ (~~~x.e &&& x.g)
  let t1 := x.h + s1 + ch + k + w
  let s0 := rotr x.a 28 ^^^ rotr x.a 34 ^^^ rotr x.a 39
  let maj := (x.a &&& x.b) ^^^ (x.a &&& x.c) ^^^ (x.b &&& x.c)
  { a := t1 + (s0 + maj), b := x.a, c := x.b, d := x.c, e := x.d + t1, f := x.e, g := x.f, h := x.g }

/-- The word of the schedule that follows sixteen others. -/
def shaNext (w : List Word) : Word :=
  let at_ := fun (n : Nat) => (w[n]?).getD 0#64
  let s0 := rotr (at_ 1) 1 ^^^ rotr (at_ 1) 8 ^^^ (at_ 1 >>> 7)
  let s1 := rotr (at_ 14) 19 ^^^ rotr (at_ 14) 61 ^^^ (at_ 14 >>> 6)
  s1 + at_ 9 + s0 + at_ 0

/-- A block of sixteen words. -/
def Sha.block (x : Sha) (w : List Word) : Sha :=
  let y := (shaK.foldl (fun (p : Sha × List Word) k => (p.1.round k ((p.2[0]?).getD 0#64), p.2.drop 1 ++ [shaNext p.2])) (x, w)).1
  { a := x.a + y.a, b := x.b + y.b, c := x.c + y.c, d := x.d + y.d, e := x.e + y.e, f := x.f + y.f, g := x.g + y.g, h := x.h + y.h }

/-- Bytes as a number, the first the most significant. -/
def bigEndian (l : List Byte) : Nat := l.foldl (fun n b => n * 256 + b.toNat) 0

/-- A number as n bytes, the most significant first. -/
def toBigEndian (n v : Nat) : List Byte := (List.range n).map fun i => BitVec.ofNat 8 (v / 256 ^ (n - 1 - i))

/-- A message with its padding: a one bit, zeros to the length's place, and the length in bits. -/
def shaPad (m : List Byte) : List Byte :=
  m ++ [0x80#8] ++ List.replicate ((239 - m.length % 128) % 128) 0#8 ++ toBigEndian 16 (8 * m.length)

/-- SHA-512 of a list of bytes; byte 0 of the digest is the lowest of the result (DESIGN CHOICE 41). -/
def sha512 (m : List Byte) : BitVec 512 :=
  let p := shaPad m
  let word := fun (i : Nat) => BitVec.ofNat 64 (bigEndian ((p.drop (8 * i)).take 8))
  let y := (List.range (p.length / 128)).foldl (fun x i => x.block ((List.range 16).map fun j => word (16 * i + j))) shaInit
  let bytes := [y.a, y.b, y.c, y.d, y.e, y.f, y.g, y.h].flatMap fun w => toBigEndian 8 w.toNat
  BitVec.ofNat 512 (bytes.reverse.foldl (fun n b => n * 256 + b.toNat) 0)

/-! ### Measurement (R431) -/

/-- Bytes of a value of 64 bytes, byte 0 first (DESIGN CHOICE 41). -/
def bytes64 (v : BitVec 512) : List Byte := (List.range 64).map fun i => v.extractLsb' (8 * i) 8

/-- M := SHA-512(M ‖ d) (R431). -/
def Platform.extend (p : Platform) (n : Nat) (d : List Byte) : Platform :=
  { p with measure := p.measure.setIfInBounds n (sha512 (bytes64 ((p.measure[n]?).getD 0#512) ++ d)) }

/-! ### The log of the house cores (R437, R439) -/

/-- The bytes of a log entry: which action, and its part (DESIGN CHOICE 41). -/
def HouseEvent.bytes : HouseEvent → List Byte
  | .trip d => [0#8, d.setWidth 8]
  | .core c => [1#8, c.setWidth 8, (c >>> 8).setWidth 8]
  | .column c n => [2#8, c.setWidth 8, (c >>> 8).setWidth 8, n.setWidth 8]
  | .channel c => [3#8, c.setWidth 8]
  | .wavelength w => [4#8, w.setWidth 8]
  | .lanes p n => [5#8, p.setWidth 8, n.setWidth 8]
  | .ethernet p => [6#8, if p then 1#8 else 0#8]

/-- An event enters the log (R437). -/
def State.logEvent (s : State) (e : HouseEvent) : State := { s with platform := { s.platform with log := s.platform.log ++ [e] } }

/-- A sparing action: the house cores log it and report it through register 6, which its digest extends (R431, R439) (DESIGN CHOICE 73). -/
def State.spared (s : State) (e : HouseEvent) : State :=
  let u := s.logEvent e
  { u with platform := u.platform.extend 6 (bytes64 (sha512 e.bytes)) }

end Sys2Proof.Machine
end

