-- ==== Sys2Proof/Machine/Assoc.lean ====
section
/-! DEFINITION. Association lists sorted by a natural-number key: the canonical form in which the state
holds sparse collections (memory bytes, live threads, cores). An entry is looked up, replaced or removed
by its key; keys rise strictly. -/

set_option Elab.async false

namespace Sys2Proof.Machine

/-- The value at key `k`. -/
def assocGet {α : Type} (k : Nat) : List (Nat × α) → Option α
  | [] => none
  | (j, a) :: l => if j = k then some a else assocGet k l

/-- The list with `a` at key `k`, in its place of the order. -/
def assocSet {α : Type} (k : Nat) (a : α) : List (Nat × α) → List (Nat × α)
  | [] => [(k, a)]
  | (j, b) :: l =>
    if k < j then (k, a) :: (j, b) :: l
    else if j = k then (k, a) :: l
    else (j, b) :: assocSet k a l

/-- The list without key `k`. -/
def assocErase {α : Type} (k : Nat) : List (Nat × α) → List (Nat × α)
  | [] => []
  | (j, b) :: l => if j = k then l else (j, b) :: assocErase k l

/-- Keys rise strictly from above `lo`. -/
def assocSortedFrom {α : Type} : Nat → List (Nat × α) → Bool
  | _, [] => true
  | lo, (j, _) :: l => decide (lo ≤ j) && assocSortedFrom (j + 1) l

/-- Keys rise strictly. -/
def assocSorted {α : Type} (l : List (Nat × α)) : Bool := assocSortedFrom 0 l

/-- A sorted list of numbers with `k` in it: the form in which full granules are held. -/
def setInsert (k : Nat) : List Nat → List Nat
  | [] => [k]
  | j :: l => if k < j then k :: j :: l else if j = k then j :: l else j :: setInsert k l

/-- A sorted list of numbers without `k`. -/
def setErase (k : Nat) : List Nat → List Nat
  | [] => []
  | j :: l => if j = k then l else j :: setErase k l

/-- The first element that satisfies `p`, and the list without it. -/
def takeFirst {α : Type} (p : α → Bool) : List α → Option (α × List α)
  | [] => none
  | a :: l => if p a then some (a, l) else
    match takeFirst p l with
    | some (b, r) => some (b, a :: r)
    | none => none

/-- The list with the first element that satisfies `p` replaced by its image. -/
def mapFirst {α : Type} (p : α → Bool) (f : α → α) : List α → List α
  | [] => []
  | a :: l => if p a then f a :: l else a :: mapFirst p f l

end Sys2Proof.Machine
end

