-- ==== Sys2Proof/Machine/Mem.lean ====
section
/-! DEFINITION. Bytes of memory: one list of cells for the whole address space, keyed by the global form
of an address. An address that is not listed reads as 0 (assumption 4). Wider accesses are built here
from bytes, little-endian (R3). -/

set_option Elab.async false

namespace Sys2Proof.Machine

/-- Memory: cells with rising addresses, none of them equal to 0. -/
abbrev Mem := List Host.Cell

/-- What an address that nothing has written reads as (assumption 4). -/
def unlistedByte : Byte := 0#8

/-- The byte at an address (DESIGN CHOICE 4). -/
def loadByte (m : Mem) (a : Nat) : Byte := (assocGet a m).getD unlistedByte

/-- Memory with one byte written; writing the unlisted value removes the cell (DESIGN CHOICE 4). -/
def storeByte (m : Mem) (a : Nat) (b : Byte) : Mem := if b = unlistedByte then assocErase a m else assocSet a b m

/-- The canonical form of memory: addresses rise strictly and no cell holds the unlisted value (DESIGN CHOICE 4). -/
def Mem.wf (m : Mem) : Bool := assocSorted m && m.all fun c => c.2 != unlistedByte

/-- The n bytes from an address, as a little-endian number (R3). -/
def readBytes (m : Mem) (a : Nat) : Nat → Nat
  | 0 => 0
  | n + 1 => (loadByte m a).toNat + 256 * readBytes m (a + 1) n

/-- Memory with the n low bytes of a number written from an address on (R3). -/
def writeBytes (m : Mem) (a : Nat) : Nat → Nat → Mem
  | 0, _ => m
  | n + 1, v => writeBytes (storeByte m a (BitVec.ofNat 8 v)) (a + 1) n (v / 256)

/-- Memory with each byte of a list written at its address. -/
def writeCells (m : Mem) : List (Nat × Byte) → Mem
  | [] => m
  | (a, b) :: l => writeCells (storeByte m a b) l

/-- The bytes of a number with their addresses. -/
def cellsOf (a : Nat) : Nat → Nat → List (Nat × Byte)
  | 0, _ => []
  | n + 1, v => (a, BitVec.ofNat 8 v) :: cellsOf (a + 1) n (v / 256)

/-! ### Granules: 16 bytes, numbered by address ÷ 16 (R187) -/

/-- Granule of an address. -/
def granuleOf (a : Nat) : Nat := a / 16

/-- Granules that n bytes from an address touch. -/
def granulesFrom (a n : Nat) : List Nat := (List.range ((a + n - 1) / 16 - a / 16 + 1)).map (a / 16 + ·)

/-! ### The address map (R20) -/

/-- First address of the global scratchpads (R20). -/
def spadBase : Nat := 0x10000000000

/-- Bytes of one scratchpad. -/
def spadSize : Nat := 0x80000

/-- First address of the Carafes (R20). -/
def carafeBase : Nat := 0x18000000000

/-- Bytes of one Carafe. -/
def carafeSize : Nat := 0x40000

/-- First address of tiered memory (R20). -/
def tierBase : Nat := 0x100000000000

/-- First address beyond tiered memory. -/
def tierEnd : Nat := 0x200000000000

/-- Global form of an offset in a core's local window (R22). -/
def spadAddr (core off : Nat) : Nat := spadBase + core * spadSize + off

/-- Whether an address of the local layout lies in the global scratchpads. -/
def isSpad (a : Nat) : Bool := decide (spadBase ≤ a) && decide (a < spadBase + 4096 * spadSize)

/-- Whether an address of the local layout lies in the Carafes. -/
def isCarafe (a : Nat) : Bool := decide (carafeBase ≤ a) && decide (a < carafeBase + 512 * carafeSize)

/-- Whether an address of the local layout lies in tiered memory. -/
def isTier (a : Nat) : Bool := decide (tierBase ≤ a) && decide (a < tierEnd)

/-- Core that owns a global scratchpad address. -/
def spadCore (a : Nat) : Nat := (a - spadBase) / spadSize

/-- Offset of a global scratchpad address in its core's local window. -/
def spadOff (a : Nat) : Nat := (a - spadBase) % spadSize

/-- Cluster whose Carafe holds an address. -/
def carafeCluster (a : Nat) : Nat := (a - carafeBase) / carafeSize

/-- The global form of an address on another rank of a job (R23); its bits 63:0 are the address as a thread of the job gives it (DESIGN CHOICE 96). -/
def rankAddr (p : Peer) (a : Nat) : Nat := 2 ^ 62 + p.rank.toNat * 2 ^ 56 + a + p.job.toNat * 2 ^ 64

/-- The rank that a global address on another rank names. -/
def addrPeer (a : Nat) : Peer := { job := BitVec.ofNat 32 (a / 2 ^ 64), rank := BitVec.ofNat 6 (a / 2 ^ 56) }

end Sys2Proof.Machine
end

