-- ==== Sys2Proof/Machine/Num.lean ====
section
/-! DEFINITION. Number formats, rounding and flags (04_numbers): element formats of R105 and R106,
rounding to nearest even or by a mode (R112, R92), conversions (R115), the windowed sum of R116, exact
sums (R291) and the vector functions (R294). Values are exact: a finite value is a sign, a natural
number and a power of two. -/

set_option Elab.async false

namespace Sys2Proof.Machine

/-! ### Flags (R113, R114): bit 5 SAT, 4 NV, 3 DZ, 2 OF, 1 UF, 0 NX -/

/-- Flags as the low six bits of VFLAGS (R114). -/
abbrev Flags := BitVec 6

def flagSAT : Flags := 0x20#6
def flagNV : Flags := 0x10#6
def flagDZ : Flags := 0x08#6
def flagOF : Flags := 0x04#6
def flagUF : Flags := 0x02#6
def flagNX : Flags := 0x01#6

/-- A flag when a condition holds. -/
def flagIf (c : Bool) (f : Flags) : Flags := if c then f else 0#6

/-! ### Exact values -/

/-- An exact value. `nan true` is a signalling NaN operand, or the outcome of an invalid operation: its
delivery raises NV (R107, R113). `fin neg m e` is (−1)^neg · m · 2^e. -/
inductive FVal where
  | nan (invalid : Bool)
  | inf (neg : Bool)
  | fin (neg : Bool) (m : Nat) (e : Int)
  deriving DecidableEq, Repr

/-- The value of an integer. -/
def FVal.ofInt (i : Int) : FVal := .fin (decide (i < 0)) i.natAbs 0

/-- The same value with its sign inverted. -/
def FVal.neg : FVal → FVal
  | .nan i => .nan i
  | .inf n => .inf (!n)
  | .fin n m e => .fin (!n) m e

/-- `m` shifted left by a non-negative amount. -/
def shlInt (m : Nat) (e : Int) : Nat := m * 2 ^ e.toNat

/-- Exact product; 0 × ∞ and a signalling operand are invalid (R113). -/
def FVal.mul : FVal → FVal → FVal
  | .nan i, .nan j => .nan (i || j)
  | .nan i, _ => .nan i
  | _, .nan j => .nan j
  | .inf n, .inf k => .inf (n != k)
  | .inf n, .fin k m _ => if m = 0 then .nan true else .inf (n != k)
  | .fin k m _, .inf n => if m = 0 then .nan true else .inf (n != k)
  | .fin n m e, .fin k l f => .fin (n != k) (m * l) (e + f)

/-- A finite value as an integer multiple of 2^q, exact when q is at most its exponent. -/
def scaledInt (neg : Bool) (m : Nat) (e q : Int) : Int :=
  if neg then - (shlInt m (e - q) : Int) else (shlInt m (e - q) : Int)

/-- Exact sum of a list of terms (R291, R287): invalid for a signalling NaN or infinities of both signs;
an exact zero sum is −0 only when every term is −0. -/
def exactSum (l : List FVal) : FVal :=
  let invalid := l.any fun t => match t with | .nan i => i | _ => false
  let anyNan := l.any fun t => match t with | .nan _ => true | _ => false
  let pos := l.any fun t => match t with | .inf n => !n | _ => false
  let negI := l.any fun t => match t with | .inf n => n | _ => false
  if invalid || (pos && negI) then .nan true
  else if anyNan then .nan false
  else if pos then .inf false
  else if negI then .inf true
  else
    let q : Int := l.foldl (fun q t => match t with | .fin _ m e => if m = 0 then q else min q e | _ => q) 4096
    let s : Int := l.foldl (fun s t => match t with
      | .fin n m e => if m = 0 then s else s + scaledInt n m e q
      | _ => s) 0
    let nonzero := l.any fun t => match t with | .fin _ m _ => m != 0 | _ => false
    let allNeg := l.all fun t => match t with | .fin n _ _ => n | _ => false
    if s = 0 then .fin (!nonzero && allNeg && !l.isEmpty) 0 0
    else .fin (decide (s < 0)) s.natAbs q

/-! ### Formats -/

/-- A floating-point format of R105 with the encodings of R106. `maxFin` is the largest finite encoding,
`inf` that of +∞ and `nan` the canonical NaN. -/
structure FloatFmt where
  ebits   : Nat
  mbits   : Nat
  bias    : Int
  maxFin  : Nat
  inf     : Option Nat
  nan     : Option Nat
  signals : Bool
  deriving DecidableEq, Repr

def fp32 : FloatFmt := ⟨8, 23, 127, 0x7F7FFFFF, some 0x7F800000, some 0x7FC00000, true⟩
def bf16 : FloatFmt := ⟨8, 7, 127, 0x7F7F, some 0x7F80, some 0x7FC0, true⟩
def fp16 : FloatFmt := ⟨5, 10, 15, 0x7BFF, some 0x7C00, some 0x7E00, true⟩
def e4m3 : FloatFmt := ⟨4, 3, 7, 0x7E, none, some 0x7F, false⟩
def e5m2 : FloatFmt := ⟨5, 2, 15, 0x7B, some 0x7C, some 0x7E, false⟩
def e2m1 : FloatFmt := ⟨2, 1, 1, 0x7, none, none, false⟩

/-- The weight of the sign bit. -/
def FloatFmt.signBit (f : FloatFmt) : Nat := 2 ^ (f.ebits + f.mbits)

/-- Exponent of the smallest normal. -/
def FloatFmt.emin (f : FloatFmt) : Int := 1 - f.bias

/-- The value of an encoding (R105). -/
def FloatFmt.decode (f : FloatFmt) (bits : Nat) : FVal :=
  let neg := decide (f.signBit ≤ bits % (2 * f.signBit))
  let mag := bits % f.signBit
  let man := mag % 2 ^ f.mbits
  let ex := mag / 2 ^ f.mbits
  if f.maxFin < mag then
    if f.inf = some mag then .inf neg
    else .nan (f.signals && decide (man < 2 ^ (f.mbits - 1)))
  else if ex = 0 then .fin neg man (f.emin - f.mbits)
  else .fin neg (2 ^ f.mbits + man) ((ex : Int) - f.bias - f.mbits)

/-- The number num/den rounded to an integer by a mode, and whether that lost anything (R92). -/
def roundRatio (rm : Rm) (neg : Bool) (num den : Nat) : Nat × Bool :=
  let q := num / den
  let r := num % den
  let up := match rm with
    | .rne => decide (den < 2 * r) || (decide (2 * r = den) && decide (q % 2 = 1))
    | .rtz => false
    | .rdn => neg
    | .rup => !neg
    | .rmm => decide (den ≤ 2 * r)
  if r = 0 then (q, false) else (if up then q + 1 else q, true)

/-- (num/den)·2^e as an integer multiple of 2^q, rounded. -/
def roundAt (rm : Rm) (neg : Bool) (num den : Nat) (e q : Int) : Nat × Bool :=
  roundRatio rm neg (shlInt num (e - q)) (shlInt den (q - e))

/-- floor(log2 (num/den)) for positive num and den. -/
def floorLog2 (num den : Nat) : Int :=
  let k : Int := (num.log2 : Int) - den.log2
  if shlInt num (-k) < shlInt den k then k - 1 else k

/-- What rounding a positive magnitude into a format gives: the encoding, or one beyond the largest finite;
whether it is inexact; whether it is tiny after rounding with an unbounded exponent (R113). -/
structure Rounded where
  bits    : Nat
  inexact : Bool
  tiny    : Bool
  deriving DecidableEq, Repr

/-- Rounding of (num/den)·2^e, positive, into a format. -/
def FloatFmt.round (f : FloatFmt) (rm : Rm) (neg : Bool) (num den : Nat) (e : Int) : Rounded :=
  let ex := floorLog2 num den + e
  let q := max ex f.emin - f.mbits
  let (k, nx) := roundAt rm neg num den e q
  let (u, _) := roundAt rm neg num den e (ex - f.mbits)
  { bits := (q - (f.emin - f.mbits)).toNat * 2 ^ f.mbits + k
    inexact := nx
    tiny := decide (ex < f.emin) && decide (u < shlInt 1 (f.emin - (ex - f.mbits))) }

/-- The encoding of a magnitude with a sign. -/
def FloatFmt.signed (f : FloatFmt) (neg : Bool) (bits : Nat) : Nat := if neg then f.signBit + bits else bits

/-- A value delivered in a format (R107, R113). `conv` says whether the operation is a conversion of R115,
which saturates, or arithmetic, which follows IEEE 754-2019 to ±∞. -/
def FloatFmt.deliver (f : FloatFmt) (rm : Rm) (conv : Bool) : FVal → Nat × Flags
  | .nan i =>
    match f.nan with
    | some n => (n, flagIf i flagNV)
    | none => (0, flagNV)
  | .inf neg =>
    match f.inf with
    | some n => (f.signed neg n, 0#6)
    | none => (f.signed neg f.maxFin, flagNV)
  | .fin neg m e =>
    if m = 0 then (f.signed neg 0, 0#6)
    else
      let r := f.round rm neg m 1 e
      if f.maxFin < r.bits then
        (f.signed neg (if conv then f.maxFin else f.inf.getD f.maxFin), flagOF ||| flagNX)
      else (f.signed neg r.bits, flagIf r.inexact flagNX ||| flagIf (r.inexact && r.tiny) flagUF)

/-- A value delivered as an integer from lo to hi (R115). `fromInt` says whether the source is an
integer. -/
def deliverInt (rm : Rm) (fromInt : Bool) (lo hi : Int) : FVal → Int × Flags
  | .nan _ => (0, flagNV)
  | .inf neg => (if neg then lo else hi, flagNV)
  | .fin neg m e =>
    let (k, nx) := roundAt rm neg m 1 e 0
    let i : Int := if neg then - (k : Int) else k
    let out := if fromInt then flagSAT else flagNV
    if i < lo then (lo, out) else if hi < i then (hi, out) else (i, flagIf nx flagNX)

/-! ### Lane formats (R90, R274) -/

/-- Lane width in bits. -/
def fmtWidth : Fmt → Nat
  | .int64 => 64
  | .int32 | .fp32 => 32
  | .int16 | .bf16 | .fp16 => 16
  | .int8 | .uint8 | .e4m3 | .e5m2 => 8
  | .int4 | .e2m1 => 4

/-- Lanes of a vector register (R274). -/
def fmtLanes (f : Fmt) : Nat := 512 / fmtWidth f

/-- The float format of a lane format, or none for an integer. -/
def fmtFloat : Fmt → Option FloatFmt
  | .fp32 => some fp32
  | .bf16 => some bf16
  | .fp16 => some fp16
  | .e4m3 => some e4m3
  | .e5m2 => some e5m2
  | .e2m1 => some e2m1
  | _ => none

/-- Whether integer lanes are signed. -/
def fmtSigned : Fmt → Bool
  | .uint8 => false
  | _ => true

/-- The integer that w bits hold. -/
def laneInt (signed : Bool) (w bits : Nat) : Int :=
  let b := bits % 2 ^ w
  if signed && decide (2 ^ (w - 1) ≤ b) then (b : Int) - 2 ^ w else b

/-- w bits of an integer. -/
def intLane (w : Nat) (i : Int) : Nat := (i % 2 ^ w).toNat

/-- The least value of integer lanes. -/
def laneLo (signed : Bool) (w : Nat) : Int := if signed then - 2 ^ (w - 1) else 0

/-- The greatest value of integer lanes. -/
def laneHi (signed : Bool) (w : Nat) : Int := if signed then 2 ^ (w - 1) - 1 else 2 ^ w - 1

/-- The value of a lane. -/
def laneVal (f : Fmt) (bits : Nat) : FVal :=
  match fmtFloat f with
  | some g => g.decode bits
  | none => .ofInt (laneInt (fmtSigned f) (fmtWidth f) bits)

/-- An exact integer result saturated to a lane's range with SAT (R286). -/
def clampLane (f : Fmt) (i : Int) : Nat × Flags :=
  let w := fmtWidth f
  if i < laneLo (fmtSigned f) w then (intLane w (laneLo (fmtSigned f) w), flagSAT)
  else if laneHi (fmtSigned f) w < i then (intLane w (laneHi (fmtSigned f) w), flagSAT)
  else (intLane w i, 0#6)

/-- An exact integer result saturated once to a lane with SAT; `int64` lanes wrap and raise nothing
(R286, R291). -/
def satLane (f : Fmt) (i : Int) : Nat × Flags := if f = .int64 then (intLane 64 i, 0#6) else clampLane f i

/-! ### Lane arithmetic (R286, R287) -/

/-- `vadd`. -/
def laneAdd (f : Fmt) (a b : Nat) : Nat × Flags :=
  match fmtFloat f with
  | some g => g.deliver .rne false (exactSum [g.decode a, g.decode b])
  | none => satLane f (laneInt (fmtSigned f) (fmtWidth f) a + laneInt (fmtSigned f) (fmtWidth f) b)

/-- `vsub`. -/
def laneSub (f : Fmt) (a b : Nat) : Nat × Flags :=
  match fmtFloat f with
  | some g => g.deliver .rne false (exactSum [g.decode a, (g.decode b).neg])
  | none => satLane f (laneInt (fmtSigned f) (fmtWidth f) a - laneInt (fmtSigned f) (fmtWidth f) b)

/-- `vmul`. -/
def laneMul (f : Fmt) (a b : Nat) : Nat × Flags :=
  match fmtFloat f with
  | some g => g.deliver .rne false ((g.decode a).mul (g.decode b))
  | none => satLane f (laneInt (fmtSigned f) (fmtWidth f) a * laneInt (fmtSigned f) (fmtWidth f) b)

/-- `vfma`: A × B + D, rounded once (R287). -/
def laneFma (f : Fmt) (a b d : Nat) : Nat × Flags :=
  match fmtFloat f with
  | some g => g.deliver .rne false (exactSum [(g.decode a).mul (g.decode b), g.decode d])
  | none => (d, 0#6)

/-- `vfms`: A × B − D, rounded once (R287). -/
def laneFms (f : Fmt) (a b d : Nat) : Nat × Flags :=
  match fmtFloat f with
  | some g => g.deliver .rne false (exactSum [(g.decode a).mul (g.decode b), (g.decode d).neg])
  | none => (d, 0#6)

/-- `vabs`: the sign bit of a float lane cleared, no flag; integers saturate (R286, R287). -/
def laneAbs (f : Fmt) (a : Nat) : Nat × Flags :=
  match fmtFloat f with
  | some g => (a % g.signBit, 0#6)
  | none => if fmtSigned f then clampLane f (laneInt true (fmtWidth f) a).natAbs else (a, 0#6)

/-- `vneg`: the sign bit of a float lane inverted, no flag; integers saturate, and `uint8` gives 0 with
SAT for a non-zero lane (R286, R287). -/
def laneNeg (f : Fmt) (a : Nat) : Nat × Flags :=
  match fmtFloat f with
  | some g => (if a < g.signBit then a + g.signBit else a - g.signBit, 0#6)
  | none => satLane f (- laneInt (fmtSigned f) (fmtWidth f) a)

/-- The order of two non-NaN values with −0 below +0: whether a is strictly below b (R287). -/
def FVal.below : FVal → FVal → Bool
  | .inf true, .inf true => false
  | .inf true, .nan _ => false
  | .inf true, _ => true
  | .inf false, _ => false
  | .fin _ _ _, .inf n => !n
  | .fin n m e, .fin k l f =>
    let q := min e f
    let x := scaledInt n m e q
    let y := scaledInt k l f q
    decide (x < y) || (decide (x = y) && n && !k)
  | _, _ => false

/-- Whether two values are equal as numbers (R289). -/
def FVal.same : FVal → FVal → Bool
  | .inf n, .inf k => n == k
  | .fin n m e, .fin k l f => decide (scaledInt n m e (min e f) = scaledInt k l f (min e f))
  | _, _ => false

/-- Whether a value is a NaN. -/
def FVal.isNan : FVal → Bool
  | .nan _ => true
  | _ => false

/-- Whether a value is a signalling NaN. -/
def FVal.isSignal : FVal → Bool
  | .nan i => i
  | _ => false

/-- `vmax` and `vmin`: one NaN gives the other operand, two give the canonical NaN (R286, R287). -/
def laneMaxMin (isMax : Bool) (f : Fmt) (a b : Nat) : Nat × Flags :=
  match fmtFloat f with
  | some g =>
    let x := g.decode a
    let y := g.decode b
    let fl := flagIf (x.isSignal || y.isSignal) flagNV
    if x.isNan && y.isNan then (g.nan.getD 0, fl)
    else if x.isNan then (b, fl)
    else if y.isNan then (a, fl)
    else (if (if isMax then x.below y else y.below x) then b else a, fl)
  | none =>
    let x := laneInt (fmtSigned f) (fmtWidth f) a
    let y := laneInt (fmtSigned f) (fmtWidth f) b
    (if (if isMax then x < y else y < x) then b else a, 0#6)

/-- Conditions of `vcmp` (R289). -/
inductive Cmp where
  | eq | lt | le
  deriving DecidableEq, Repr

/-- `vcmp` on one lane: the mask bit and the flags (R289). -/
def laneCmp (c : Cmp) (f : Fmt) (a b : Nat) : Bool × Flags :=
  match fmtFloat f with
  | some g =>
    let x := g.decode a
    let y := g.decode b
    let strictNumber := scaledLess x y
    match c with
    | .eq => (x.same y, flagIf (x.isSignal || y.isSignal) flagNV)
    | .lt => (strictNumber, flagIf (x.isNan || y.isNan) flagNV)
    | .le => (strictNumber || x.same y, flagIf (x.isNan || y.isNan) flagNV)
  | none =>
    let x := laneInt (fmtSigned f) (fmtWidth f) a
    let y := laneInt (fmtSigned f) (fmtWidth f) b
    match c with
    | .eq => (decide (x = y), 0#6)
    | .lt => (decide (x < y), 0#6)
    | .le => (decide (x ≤ y), 0#6)
where
  scaledLess (x y : FVal) : Bool := x.below y && !x.same y

/-- `vred.add` and `vscan` over the active lanes: the exact sum rounded once (R291). -/
def laneSum (f : Fmt) (l : List Nat) : Nat × Flags :=
  match fmtFloat f with
  | some g => g.deliver .rne false (exactSum (l.map g.decode))
  | none => satLane f ((l.map (laneInt (fmtSigned f) (fmtWidth f))).sum)

/-- `vred.max` and `vred.min` over the active lanes: the fold of `vmax` or `vmin` (R291); a NaN that
remains is canonical (R107). -/
def laneFold (isMax : Bool) (f : Fmt) : List Nat → Nat × Flags
  | [] => (0, 0#6)
  | a :: l =>
    let start : Nat × Flags := match fmtFloat f with
      | some g => (if (g.decode a).isNan then g.nan.getD 0 else a, flagIf (g.decode a).isSignal flagNV)
      | none => (a, 0#6)
    l.foldl (fun acc b => let r := laneMaxMin isMax f acc.1 b; (r.1, acc.2 ||| r.2)) start

/-- `vcvt` of one element (R292, R115). -/
def laneConvert (dst src : Fmt) (rm : Rm) (a : Nat) : Nat × Flags :=
  if dst = src then
    if (laneVal src a).isSignal then
      match fmtFloat src with
      | some g => (g.nan.getD 0, flagNV)
      | none => (a, 0#6)
    else (a, 0#6)
  else
    match fmtFloat dst with
    | some g => g.deliver rm true (laneVal src a)
    | none =>
      let (i, fl) := deliverInt rm (fmtFloat src).isNone (laneLo (fmtSigned dst) (fmtWidth dst))
        (laneHi (fmtSigned dst) (fmtWidth dst)) (laneVal src a)
      (intLane (fmtWidth dst) i, fl)

/-! ### Scales and asymmetric codes (R108, R111, R115, R293) -/

/-- An E8M0 scale; 0xFF is a NaN whose use in a product is invalid (R108, R113). -/
def e8m0 (x : Nat) : FVal := if x % 256 = 255 then .nan true else .fin false 1 ((x % 256 : Nat) - 127 : Int)

/-- The FP16 scale of a scale-table entry; infinite and NaN scales make every element invalid (R111). -/
def asymScale (entry : Nat) : FVal :=
  match fp16.decode (entry % 65536) with
  | .fin n m e => .fin n m e
  | _ => .nan true

/-- Zero point of an entry (R111). -/
def asymZero (entry : Nat) : Nat := entry / 65536 % 256

/-- Whether an entry is malformed for code width w (R111). -/
def asymMalformed (w entry : Nat) : Bool :=
  decide (entry / 16777216 % 256 ≠ 0) || (decide (w = 4) && decide (15 < asymZero entry))

/-- scale × (code − zp), exact (R111). -/
def asymDecode (entry code : Nat) : FVal :=
  (asymScale entry).mul (.ofInt ((code : Int) - asymZero entry))

/-- Code for a value: Round(value ÷ scale) + zp, with NX when inexact, or clamped with SAT and no NX; a NaN quotient gives the zero
point and an infinite one the bound of its sign, both with NV (R113, R115, R293) (DEDUCED 36). Over a scale of zero the code is the
zero point with NV, as R293 gives it for `vq`: the spec gives no code for `vst.e`, `acc.st` and copies (DEDUCED 36, DESIGN CHOICE 92). -/
def asymEncode (w entry : Nat) (x : FVal) : Nat × Flags :=
  let z := asymZero entry
  let hi : Int := 2 ^ w - 1
  match fp16.decode (entry % 65536), x with
  | .fin sn sm se, .fin n m e =>
    if sm = 0 then (z, flagNV)
    else
      let (k, nx) := roundAt .rne (n != sn) m sm e se
      let c : Int := (if (n != sn) then - (k : Int) else k) + z
      if c < 0 then (0, flagSAT) else if hi < c then (hi.toNat, flagSAT) else (c.toNat, flagIf nx flagNX)
  | .fin sn sm _, .inf n => if sm = 0 then (z, flagNV) else (if n != sn then 0 else hi.toNat, flagNV)
  | _, _ => (z, flagNV)

/-- A finite non-zero value over a scale of zero is a division by zero (R113) (DESIGN CHOICE 92). -/
def asymZeroScale (entry : Nat) (x : FVal) : Flags :=
  match fp16.decode (entry % 65536), x with
  | .fin _ sm _, .fin _ m _ => flagIf (sm = 0 && decide (m ≠ 0)) flagDZ
  | _, _ => 0#6

/-- Element of an MXINT8 block: a multiple of 2^−6 that saturates with OF and NX (R115). -/
def mxint8Encode : FVal → Nat × Flags
  | .nan _ => (0, flagNV)
  | .inf n => (intLane 8 (if n then -128 else 127), flagNV)
  | .fin n m e =>
    let (k, nx) := roundAt .rne n m 1 (e + 6) 0
    let i : Int := if n then - (k : Int) else k
    if i < -128 then (intLane 8 (-128), flagOF ||| flagNX)
    else if 127 < i then (intLane 8 127, flagOF ||| flagNX)
    else (intLane 8 i, flagIf nx flagNX)

/-- A value divided by the scale 2^(X − 127). -/
def FVal.unscale (x : Nat) : FVal → FVal
  | .fin n m e => .fin n m (e - ((x : Int) - 127))
  | v => v

/-! ### The windowed sum (R116) and the integer accumulation (R117) -/

/-- The result of `MmaCell` for the terms T, which hold the accumulator's value unless zacc (R116). -/
def mmaCell (t : List FVal) : Nat × Flags :=
  match exactSpecial t with
  | some r => r
  | none =>
    let n := t.filterMap fun v => match v with
      | .fin s m e => if m = 0 then none else some (s, m, e)
      | _ => none
    match n with
    | [] =>
      let allNeg := t.all fun v => match v with | .fin s _ _ => s | _ => false
      (if !t.isEmpty && allNeg then 0x80000000 else 0, 0#6)
    | (s0, m0, e0) :: rest =>
      let emax : Int := rest.foldl (fun a x => max a ((x.2.1.log2 : Int) + x.2.2)) ((m0.log2 : Int) + e0)
      let q := emax - 61
      let step := fun (a : Int × Bool) (x : Bool × Nat × Int) =>
        let num := shlInt x.2.1 (x.2.2 - q)
        let den := shlInt 1 (q - x.2.2)
        let k := num / den
        ((if x.1 then a.1 - (k : Int) else a.1 + k), a.2 || decide (num % den ≠ 0))
      let (s, nx) := ((s0, m0, e0) :: rest).foldl step (0, false)
      if s = 0 then (0, flagIf nx flagNX)
      else
        let (r, g) := fp32.deliver .rne false (.fin (decide (s < 0)) s.natAbs q)
        (r, flagIf nx flagNX ||| g)
where
  exactSpecial (t : List FVal) : Option (Nat × Flags) :=
    let pos := t.any fun v => match v with | .inf n => !n | _ => false
    let negI := t.any fun v => match v with | .inf n => n | _ => false
    if t.any FVal.isSignal || (pos && negI) then some (0x7FC00000, flagNV)
    else if t.any FVal.isNan then some (0x7FC00000, 0#6)
    else if pos then some (0x7F800000, 0#6)
    else if negI then some (0xFF800000, 0#6)
    else none

/-- INT32 accumulation: the exact sum saturated once, with SAT (R117). -/
def intCell (c : Option Nat) (products : List Int) : Nat × Flags :=
  satLane .int32 (products.sum + match c with | some b => laneInt true 32 b | none => 0)

/-! ### Functions of R294 -/

/-- Fraction bits of the fixed-point evaluation. -/
def fixBits : Nat := 320

/-- ln 2 with 320 fraction bits. -/
def fixLn2 : Nat := 0xb17217f7d1cf79abc9e3b39803f2f6af40f343267298b62d8a0d175b8baafa2be7b876206debac98

/-- e^r for a fixed-point r in [0, ln 2), by its series from term n down. -/
def fixSeries (r : Nat) : Nat → Nat → Nat
  | 0, acc => acc
  | n + 1, acc => fixSeries r n (2 ^ fixBits + r * acc / 2 ^ fixBits / (n + 1))

/-- e^r for a fixed-point r in [0, ln 2). -/
def fixExp (r : Nat) : Nat := fixSeries r 80 (2 ^ fixBits)

/-- x·2^fixBits rounded down, for a non-negative finite value. -/
def fixOf (m : Nat) (e : Int) : Nat :=
  shlInt m (e + fixBits) / shlInt 1 (- (e + fixBits))

/-- e^(−x) for a non-negative fixed-point x, at most 256. -/
def fixExpNeg (x : Nat) : Nat :=
  let k := x / fixLn2
  if x % fixLn2 = 0 then 2 ^ fixBits / 2 ^ k
  else fixExp (fixLn2 - x % fixLn2) / 2 ^ (k + 1)

/-- The integer square root of n, from bit i of the root down. -/
def sqrtBits (n : Nat) : Nat → Nat → Nat
  | 0, r => r
  | i + 1, r => if (r + 2 ^ i) * (r + 2 ^ i) ≤ n then sqrtBits n i (r + 2 ^ i) else sqrtBits n i r

/-- An exact result, or a value known to lie strictly between M and M + 1 in units of 2^−fixBits, held as
the ratio (num/den)·2^e. -/
structure Exact where
  neg : Bool
  num : Nat
  den : Nat
  e   : Int
  deriving DecidableEq, Repr

/-- A value that is no dyadic rational, from its fixed-point floor. -/
def Exact.sticky (neg : Bool) (m : Nat) : Exact := ⟨neg, 2 * m + 1, 1, - (fixBits + 1 : Int)⟩

/-- Result of a function: special encodings of FP32 with flags, or an exact magnitude still to be rounded. -/
inductive FnResult where
  | special (v : FVal) (f : Flags)
  | value (x : Exact)
  deriving DecidableEq, Repr

/-- The functions of R294. -/
inductive VFn where
  | exp2 | rcp | rsq | sig | tanh
  deriving DecidableEq, Repr

/-- The magnitude is at least 256. -/
def finLarge (m : Nat) (e : Int) : Bool := decide (8 ≤ (m.log2 : Int) + e)

/-- 2^x (R294). -/
def fnExp2 : FVal → FnResult
  | .nan i => .special (.nan i) 0#6
  | .inf true => .special (.fin false 0 0) 0#6
  | .inf false => .special (.inf false) 0#6
  | .fin n m e =>
    if m = 0 then .value ⟨false, 1, 1, 0⟩
    else if finLarge m e then .value ⟨false, 3, 1, if n then -400 else 400⟩
    else
      let x := fixOf m e
      let i := x / 2 ^ fixBits
      let r := x % 2 ^ fixBits
      if r = 0 ∧ 0 ≤ e + fixBits then .value ⟨false, 1, 1, if n then - (i : Int) else i⟩
      else
        let frac := if n then 2 ^ fixBits - r else r
        let k : Int := if n then - (i : Int) - 1 else i
        let y := fixExp (frac * fixLn2 / 2 ^ fixBits)
        .value ⟨false, 2 * y + 1, 1, k - (fixBits + 1)⟩

/-- 1 ÷ x (R294). -/
def fnRcp : FVal → FnResult
  | .nan i => .special (.nan i) 0#6
  | .inf n => .special (.fin n 0 0) 0#6
  | .fin n m e => if m = 0 then .special (.inf n) flagDZ else .value ⟨n, 1, m, -e⟩

/-- 1 ÷ √x (R294). -/
def fnRsq : FVal → FnResult
  | .nan i => .special (.nan i) 0#6
  | .inf true => .special (.nan true) 0#6
  | .inf false => .special (.fin false 0 0) 0#6
  | .fin n m e =>
    if m = 0 then .special (.inf n) flagDZ
    else if n then .special (.nan true) 0#6
    else
      let m' := if e % 2 = 0 then m else 2 * m
      let e' := if e % 2 = 0 then e else e - 1
      let r := sqrtBits (2 ^ (2 * fixBits) / m') (fixBits + 1) 0
      if r * r * m' = 2 ^ (2 * fixBits) then .value ⟨false, r, 1, - (e' / 2) - fixBits⟩
      else .value ⟨false, 2 * r + 1, 1, - (e' / 2) - fixBits - 1⟩

/-- 1 ÷ (1 + e^(−x)) (R294). -/
def fnSig : FVal → FnResult
  | .nan i => .special (.nan i) 0#6
  | .inf true => .special (.fin false 0 0) 0#6
  | .inf false => .special (.fin false 1 0) 0#6
  | .fin n m e =>
    if m = 0 then .value ⟨false, 1, 1, -1⟩
    else
      let x := if finLarge m e then 256 * 2 ^ fixBits else fixOf m e
      let t := fixExpNeg x
      let num := if n then t else 2 ^ fixBits
      .value (Exact.sticky false (num * 2 ^ fixBits / (2 ^ fixBits + t)))

/-- tanh x (R294). -/
def fnTanh : FVal → FnResult
  | .nan i => .special (.nan i) 0#6
  | .inf n => .special (.fin n 1 0) 0#6
  | .fin n m e =>
    if m = 0 then .special (.fin n 0 0) 0#6
    else
      let x := if finLarge m e then 256 * 2 ^ fixBits else 2 * fixOf m e
      let t := fixExpNeg x
      .value (Exact.sticky n ((2 ^ fixBits - t) * 2 ^ fixBits / (2 ^ fixBits + t)))

/-- The function of a form. -/
def VFn.eval : VFn → FVal → FnResult
  | .exp2 => fnExp2
  | .rcp => fnRcp
  | .rsq => fnRsq
  | .sig => fnSig
  | .tanh => fnTanh

/-- An exact magnitude as FP32, with its flags. -/
def Exact.toFp32 (x : Exact) : Nat × Flags :=
  let r := fp32.round .rne x.neg x.num x.den x.e
  if fp32.maxFin < r.bits then (fp32.signed x.neg 0x7F800000, flagOF ||| flagNX)
  else (fp32.signed x.neg r.bits, flagIf r.inexact flagNX ||| flagIf (r.inexact && r.tiny) flagUF)

/-- A function of R294 on one lane: correctly rounded to FP32, and rounded once more into BF16 or FP16,
with the flags of the delivered result (R113) (DEDUCED 83). -/
def laneFn (fn : VFn) (f : Fmt) (a : Nat) : Nat × Flags :=
  match fn.eval (laneVal f a) with
  | .special v fl =>
    let (b, g) := ((fmtFloat f).getD fp32).deliver .rne false v
    (b, fl ||| g)
  | .value x =>
    let (b, g) := x.toFp32
    if f = .fp32 then (b, g)
    else
      let lane := (fmtFloat f).getD fp32
      let (c, h) := lane.deliver .rne false (fp32.decode b)
      let nx := (g ||| h) &&& flagNX
      let tiny := (lane.round .rne x.neg x.num x.den x.e).tiny
      (c, nx ||| ((g ||| h) &&& flagOF) ||| flagIf (tiny && nx != 0#6) flagUF)

end Sys2Proof.Machine
end

