-- ==== Sys2Proof/Machine/Ops.lean ====
section
/-! DEFINITION. The named operations that every meaning is built from: parts of the state, time and
scheduled steps, registers and vector results, retirement, gangs, promises, frames to the Pour,
withholding, halts, taking a trap and returning from one, and waits. -/

set_option Elab.async false

namespace Sys2Proof.Machine

/-! ### Fields of a register -/

/-- A 64-bit register with `len` bits from `lo` on replaced. -/
def putField (w : Word) (lo len v : Nat) : Word :=
  let m : Word := BitVec.ofNat 64 ((2 ^ len - 1) * 2 ^ lo)
  (w &&& ~~~m) ||| (BitVec.ofNat 64 (v * 2 ^ lo) &&& m)

/-- `len` bits from `lo` on of a register. -/
def getField (w : Word) (lo len : Nat) : Nat := w.toNat / 2 ^ lo % 2 ^ len

/-- A list register's entry n. -/
def regAt {k : Nat} (v : Vector Word k) (n : Nat) : Word := (v[n]?).getD 0#64

/-! ### Parts of the state -/

/-- The live thread in a slot. -/
def State.thread? (s : State) (tid : Nat) : Option Thread := assocGet tid s.threads

/-- The state with a thread in a slot. -/
def State.setThread (s : State) (tid : Nat) (t : Thread) : State := { s with threads := assocSet tid t s.threads }

/-- The state with a slot vacant. -/
def State.dropThread (s : State) (tid : Nat) : State := { s with threads := assocErase tid s.threads }

/-- The state with a live thread changed. -/
def State.modThread (s : State) (tid : Nat) (f : Thread → Thread) : State :=
  match s.thread? tid with
  | some t => s.setThread tid (f t)
  | none => s

/-- A core with the registers that the Casot runtime writes for basic control: LIMIT 64 (R247), a spill ring of 64 contexts (R247)
and an inbox ring of 256 granules (R273), each at a base that the runtime chooses (R11, R33) (DESIGN CHOICE 91). -/
def Core.withBasic (k : Core) (c : Nat) : Core :=
  { k with
    rovelim := putField k.rovelim 0 9 64
    arrspill := putField (putField k.arrspill 32 9 64) 8 11 (Config.casotSpillBase c).val
    inboxb := putField k.inboxb 4 15 (Config.casotInboxBase c).val
    inboxs := putField k.inboxs 0 16 256 }

/-- A core that is not listed: at its reset value, and once the runtime has started with its basic controls (R33, R34) (DESIGN CHOICE 91). -/
def State.unlisted (s : State) (c : Nat) : Core := if s.enabled then Core.reset.withBasic c else Core.reset

/-- A core; one that is not listed stands as `unlisted` says. -/
def State.core (s : State) (c : Nat) : Core := (assocGet c s.cores).getD (s.unlisted c)

/-- The state with a core replaced. -/
def State.setCore (s : State) (c : Nat) (k : Core) : State := { s with cores := assocSet c k s.cores }

/-- The state with a core changed. -/
def State.modCore (s : State) (c : Nat) (f : Core → Core) : State := s.setCore c (f (s.core c))

/-- A cluster; one that is not listed stands at its reset value. -/
def State.cluster (s : State) (n : Nat) : Cluster := (assocGet n s.clusters).getD Cluster.reset

/-- The state with a cluster replaced. -/
def State.setCluster (s : State) (n : Nat) (k : Cluster) : State := { s with clusters := assocSet n k s.clusters }

/-- The state with a cluster changed. -/
def State.modCluster (s : State) (n : Nat) (f : Cluster → Cluster) : State := s.setCluster n (f (s.cluster n))

/-- A die. -/
def State.die (s : State) (d : Nat) : Die := (s.dies[d]?).getD Die.reset

/-- The state with a die changed. -/
def State.modDie (s : State) (d : Nat) (f : Die → Die) : State := { s with dies := s.dies.setIfInBounds d (f (s.die d)) }

/-- Core of a thread id (R13). -/
def tidCore (tid : Nat) : Nat := tid / 16

/-- Slot of a thread id (R13). -/
def tidSlot (tid : Nat) : Nat := tid % 16

/-- Cluster number of a core id (R13). -/
def coreCluster (c : Nat) : Nat := c / 8

/-- Die of a core id (R13). -/
def coreDie (c : Nat) : Nat := c / 1024

/-- The rank table of a job; one that nothing has written holds zeros (R220) (DESIGN CHOICE 96). -/
def State.rankTable (s : State) (job : BitVec 32) : RankTable :=
  (s.ranks.find? fun t => t.job == job).getD { job := job, own := 0#6, entries := Vector.replicate 64 0#64 }

/-- The module's logical rank in a job's rank table (R154). -/
def State.ownRank (s : State) (job : BitVec 32) : BitVec 6 := (s.rankTable job).own

/-- A rank of a job is this module. -/
def State.isOwn (s : State) (p : Peer) : Bool := p.rank == s.ownRank p.job

/-- Entry of a rank table (R220). -/
def State.rankEntry (s : State) (p : Peer) : Word := (s.rankTable p.job).entries.get p.rank.toFin

/-- The job of the thread in a slot. -/
def State.jobOf (s : State) (tid : Nat) : BitVec 32 := match s.thread? tid with
  | some t => t.job
  | none => 0#32

/-- Global thread id of a slot of this module: its rank is that of the module in the thread's job (R13, R154). -/
def State.gtid (s : State) (tid : Nat) : BitVec 22 := s.ownRank (s.jobOf tid) ++ BitVec.ofNat 16 tid

/-- TICK (R151). -/
def State.tick (s : State) : Nat := s.time / Config.cyclesPerTick

/-- A running group. -/
def State.group? (s : State) (g : Nat) : Option Group := s.groups.find? fun x => x.id == g

/-- The state with a running group changed. -/
def State.modGroup (s : State) (g : Nat) (f : Group → Group) : State :=
  { s with groups := mapFirst (fun x => x.id == g) f s.groups }

/-- Level of a group, thread when it no longer runs. -/
def State.levelOf (s : State) (g : Nat) : Level := match s.group? g with | some x => x.level | none => .thread

/-- Numeric order of the levels. -/
def levelNo : Level → Nat
  | .thread => 0
  | .core => 1
  | .cluster => 2
  | .die => 3
  | .module => 4

/-- Threads of a group, with their ids. -/
def State.members (s : State) (g : Nat) : List (Nat × Thread) := s.threads.filter fun x => x.2.group == g

/-- Threads of a core. -/
def State.coreThreads (s : State) (c : Nat) : List (Nat × Thread) := s.threads.filter fun x => tidCore x.1 == c

/-- The state after a function on every live thread. -/
def State.mapThreads (s : State) (f : Nat → Thread → Thread) : State :=
  { s with threads := s.threads.map fun x => (x.1, f x.1 x.2) }

/-! ### Scheduled steps and free values (assumptions 2, 3) -/

/-- A timed step in its place: after the steps that are due no later (DESIGN CHOICE 1). -/
def insertTimed (t : Timed) : List Timed → List Timed
  | [] => [t]
  | u :: l => if t.due < u.due then t :: u :: l else u :: insertTimed t l

/-- The state with a step scheduled for a cycle. -/
def State.schedule (s : State) (due : Nat) (i : Due) : State :=
  { s with timed := insertTimed { due := due, order := s.fresh, what := i } s.timed, fresh := s.fresh + 1 }

/-- The state with a step scheduled for a cycle, unless the same step is scheduled already. -/
def State.scheduleOnce (s : State) (due : Nat) (i : Due) : State :=
  if s.timed.any fun t => t.what == i then s else s.schedule due i

/-- A free value from lo to hi: the next of the sequence that `fresh` numbers (DESIGN CHOICE 3). -/
def State.pick (s : State) (lo hi : Nat) : Nat := lo + Config.free s.fresh % (hi - lo + 1)

/-- The state with the free-value counter advanced (DESIGN CHOICE 3). -/
def State.bump (s : State) : State := { s with fresh := s.fresh + 1 }

/-! ### Scalar registers (R126, R194) -/

/-- A scalar register; x0 reads zero. -/
def Thread.reg (t : Thread) (r : Reg) : Word := if r = 0#5 then 0#64 else t.x.get r.toFin

/-- Taint of a register (R194). -/
def Thread.tainted (t : Thread) (r : Reg) : Bool := r != 0#5 && t.taint.getLsbD r.toNat

/-- The thread with a register written and its taint set; a write to x0 is discarded. -/
def Thread.setReg (t : Thread) (r : Reg) (v : Word) (taint : Bool) : Thread :=
  if r = 0#5 then t
  else
    let bit : BitVec 32 := 1#32 <<< r.toNat
    { t with
      x := t.x.set r.toNat v r.isLt
      taint := if taint then t.taint ||| bit else t.taint &&& ~~~bit }

/-- A predicate bit (R127). -/
def Thread.pred (t : Thread) (n : BitVec 6) : Bool := t.pw.getLsbD n.toNat

/-- The thread with one predicate bit written. -/
def Thread.setPred (t : Thread) (n : BitVec 6) (b : Bool) : Thread :=
  let bit : Word := 1#64 <<< n.toNat
  { t with pw := if b then t.pw ||| bit else t.pw &&& ~~~bit }

/-! ### Vector registers and their windows (R276 to R279) -/

/-- VFLAGS with flags ORed in (R114). -/
def Thread.orFlags (t : Thread) (f : Flags) : Thread := { t with vflags := t.vflags ||| f.setWidth 64 }

/-- A vector register as it stands. -/
def Thread.vreg (t : Thread) (r : VReg) : VWord := t.v.get r.toFin

/-- A mask register as it stands. -/
def Thread.kreg (t : Thread) (r : KReg) : MaskWord := t.k.get r.toFin

/-- Number of a vector register among the destinations of results. -/
def vdest (r : VReg) : BitVec 4 := r.setWidth 4

/-- Number of a mask register among the destinations of results (R277). -/
def kdest (r : KReg) : BitVec 4 := 8#4 ||| r.setWidth 4

/-- The thread with a result written. -/
def Thread.putV (t : Thread) (d : BitVec 4) (val : VWord) : Thread :=
  if d.toNat < 8 then { t with v := t.v.setIfInBounds d.toNat val }
  else { t with k := t.k.setIfInBounds (d.toNat - 8) (val.setWidth 128) }

/-- Earlier results for a register that a later one overwrites: they land with its value (R277). -/
def overwrite (d : BitVec 4) (val : VWord) (l : List VResult) : List VResult :=
  l.map fun r => if r.dest = d then { r with value := val } else r

/-- Results whose cycle has come and whose window is closed are written, in program order. -/
def Thread.landFrom (now : Nat) : List VResult → List VResult → Thread → Thread
  | keep, [], t => { t with vres := keep }
  | keep, r :: l, t =>
    if r.window = 0 ∧ r.due ≤ now then
      Thread.landFrom now (overwrite r.dest r.value keep) l ((t.putV r.dest r.value).orFlags r.flags)
    else Thread.landFrom now (keep ++ [r]) l t

/-- Results that are due are written, unless a window still covers them. -/
def Thread.land (t : Thread) (now : Nat) : Thread := Thread.landFrom now [] t.vres t

/-- Every window closes and every result in flight is written (R279). -/
def Thread.drainWindows (t : Thread) : Thread :=
  { t.vres.foldl (fun u r => (u.putV r.dest r.value).orFlags r.flags) t with vres := [] }

/-- One issue of the thread passes: each window shortens by one (R277). -/
def Thread.passWindows (t : Thread) (now : Nat) : Thread :=
  match t.vres with
  | [] => t
  | l => Thread.land { t with vres := l.map fun r => { r with window := r.window - 1 } } now

/-- The thread with a vector register written by a memory or queue instruction. -/
def Thread.memV (t : Thread) (d : VReg) (val : VWord) : Thread :=
  { t.putV (vdest d) val with vres := overwrite (vdest d) val t.vres }

/-- The thread with a vector register written by an access that issued in a cycle: the results of later instructions still
land after it (R193, R277). -/
def Thread.memVFrom (t : Thread) (start : Nat) (d : VReg) (val : VWord) : Thread :=
  { t.putV (vdest d) val with
    vres := t.vres.map fun r => if r.dest = vdest d ∧ r.issue ≤ start then { r with value := val } else r }

/-- What reading vector and mask registers meets (R277). -/
inductive VUse where
  | go
  | stall (r : BitVec 4)
  | wait (r : BitVec 4)
  deriving DecidableEq, Repr

/-- Reading a list of registers: an open window of an earlier result stalls when SCORECHK.CHK = 1; a result
whose window is closed but which is not yet written makes the thread wait (DEDUCED 15). -/
def Thread.useV (t : Thread) (now : Nat) (rs : List (BitVec 4)) : VUse :=
  match rs.find? (fun r => t.scorechk.getLsbD 0 && t.vres.any fun p => p.dest == r && decide (0 < p.window)) with
  | some r => .stall r
  | none =>
    match rs.find? (fun r => t.vres.any fun p => p.dest == r && decide (p.window = 0) && decide (now < p.due)) with
    | some r => .wait r
    | none => .go

/-! ### Gangs and the front end (R168 to R172) -/

/-- The stream of a gang. -/
def State.stream? (s : State) (id : Nat) : Option Stream := assocGet (id % 16) (s.cluster (id / 16)).streams

/-- The state with a gang's stream replaced. -/
def State.setStream (s : State) (id : Nat) (st : Stream) : State :=
  s.modCluster (id / 16) fun c => { c with streams := assocSet (id % 16) st c.streams }

/-- Attached members of a stream, in ascending order of core. -/
def State.attached (s : State) (id : Nat) : List (Nat × Thread) :=
  s.threads.filter fun x => match x.2.gang with
    | some g => g.stream == id && g.attached
    | none => false

/-- Whether a slot holds the pilot of a stream: the lowest attached member (R168). -/
def State.isPilot (s : State) (id tid : Nat) : Bool := ((s.attached id).head?.map (·.1)) == some tid

/-- The earliest cycle at which a thread that issued now may issue again (R128, R133, R171). -/
def Thread.nextIssue (t : Thread) (now busy : Nat) : Nat :=
  match t.gang with
  | some g => if g.attached then now + busy else max (now + busy) ((now / 16 + 1) * 16)
  | none => now + busy

/-- The instruction in the retry latch is a `send`. -/
def Thread.latchSends (t : Thread) : Bool := match t.latch with
  | some w => match decodeWord w.1 with
    | .ok (.send _ _ _ _) => true
    | _ => false
  | none => false

/-- Retirement of the thread's instruction: the next PC, the instruction count, the window of each pending
result, the skip bit and the report of a single step (R153, R277, R402, R409). -/
def Thread.retired (t : Thread) (now : Nat) (pc : Word) (busy : Nat) : Thread :=
  let u := t.passWindows now
  { u with
    pc := pc
    instret := u.instret + 1#64
    skip := false
    stepAt := now
    stepSend := u.stepctl.getLsbD 63 && u.latchSends
    wait := none
    latch := none
    latchCnt := none
    stepped := u.stepctl.getLsbD 63
    readyAt := max u.readyAt (u.nextIssue now busy) }

/-- The members of a stream that wait at a `join` and are not halted, lowest core first, with its number (R172). -/
def State.joinWaiters (s : State) (id : Nat) : List (Nat × Thread × BitVec 12) :=
  s.threads.filterMap fun x => match x.2.gang, x.2.wait, x.2.run with
    | some g, some w, .live => match w.what with
      | .join k => if g.stream == id then some (x.1, x.2, k) else none
      | _ => none
    | _, _, _ => none

/-- The members that wait at `join k` attach: p63 := 0, and each goes on with the stream's next instruction, at `pc` and at
position `pos` (R172) (DEDUCED 78). -/
def State.attachJoin (s : State) (id : Nat) (k : BitVec 12) (pc : Word) (pos : Nat) : State :=
  (s.joinWaiters id).foldl (fun u x =>
    if x.2.2 = k then
      u.setThread x.1 { (x.2.1.setPred 63#6 false).retired s.time pc 8 with
                        gang := x.2.1.gang.map fun g => { g with attached := true, pos := pos } }
    else u) s

/-- The member that waits at a `join` with the lowest core becomes pilot when no member is attached, and its `join` counts
as the stream's (R172) (DEDUCED 78). -/
def State.settleJoin (s : State) (id : Nat) : State :=
  if !(s.attached id).isEmpty then s
  else match s.joinWaiters id, s.stream? id with
    | (_, t, k) :: _, some st =>
      let pos := st.base + st.path.length
      (s.setStream id { base := pos, path := [t.pc + 4#64], joins := st.joins ++ [(pos, k)] }).attachJoin id k (t.pc + 4#64) pos
    | _, _ => s

/-- The next PC of the pilot becomes the stream's once the pilot stands past the end of the path: another member that has
issued the same instruction goes on no earlier than the pilot's resolution, 4 cycles after its issue, and one whose next PC
differs detaches (R168, R170) (DEDUCED 78). -/
def State.resolveStream (s : State) (id : Nat) : State :=
  match s.stream? id, s.attached id with
  | some st, (_, t) :: rest =>
    let pos := (t.gang.map (·.pos)).getD 0
    if pos = st.base + st.path.length then
      rest.foldl (fun u x => match x.2.gang with
        | some g =>
          if g.pos = pos then
            if x.2.pc = t.pc then u.setThread x.1 { x.2 with readyAt := max x.2.readyAt (t.readyAt - 4) }
            else u.setThread x.1 { x.2 with gang := some { g with attached := false, pos := g.pos - 1 } }
          else u
        | none => u) (s.setStream id { st with path := st.path ++ [t.pc] })
    else s
  | _, _ => s

/-- The state after a member detaches (R170): the next attached member becomes pilot. -/
def State.detachGang (s : State) (tid : Nat) : State :=
  match s.thread? tid with
  | some t =>
    match t.gang with
    | some g =>
      if g.attached then
        ((s.setThread tid { t with gang := some { g with attached := false } }).resolveStream g.stream).settleJoin g.stream
      else s
    | none => s
  | none => s

/-- Retirement of a gang member: its next PC against the stream. The stream follows the pilot's resolved
path; the instruction after a control transfer is known only when the pilot has resolved it (R168) (DEDUCED 78). -/
def State.gangRetire (s : State) (tid : Nat) (t : Thread) (g : Gang) (pc : Word) (transfer : Bool) (busy : Nat) : State :=
  let r := t.retired s.time pc busy
  match s.stream? g.stream with
  | none => s.setThread tid r
  | some st =>
    let s1 := s.setThread tid { r with gang := some { g with pos := g.pos + 1 } }
    match st.path[g.pos + 1 - st.base]? with
    | some n => if n = pc then s1 else (s.setThread tid r).detachGang tid
    | none =>
      if s.isPilot g.stream tid then s1.resolveStream g.stream
      else if transfer then s1
      else s1.setStream g.stream { st with path := st.path ++ [pc] }

/-- Retirement of the thread's instruction with its next PC. `transfer` marks a control transfer. -/
def State.finish (s : State) (tid : Nat) (t : Thread) (pc : Word) (transfer : Bool) (busy : Nat) : State :=
  match t.gang with
  | some g => if g.attached then s.gangRetire tid t g pc transfer busy else s.setThread tid (t.retired s.time pc busy)
  | none => s.setThread tid (t.retired s.time pc busy)

/-- Retirement to the next word. -/
def State.next (s : State) (tid : Nat) (t : Thread) : State := s.finish tid t (t.pc + 4#64) false 8

/-- Retirement past a memory instruction: a pair of words when `rlx` marks it (R98). -/
def State.nextMem (s : State) (tid : Nat) (t : Thread) (relaxed : Bool) : State :=
  s.finish tid t (t.pc + (if relaxed then 8#64 else 4#64)) false 8

/-! ### Promises (R203, R211) -/

/-- Open entries of a thread's promise table. -/
def Thread.openPromises (t : Thread) : List Obj := t.promises.toList.filterMap id

/-- The table without an object (a fulfilment by the promising thread). -/
def Thread.fulfil (t : Thread) (o : Obj) : Thread :=
  { t with promises := t.promises.map fun e => if e = some o then none else e }

/-- The index of an object in the table. -/
def Thread.promiseAt (t : Thread) (o : Obj) : Option Nat := t.promises.toList.findIdx? (· == some o)

/-- The lowest free entry. -/
def Thread.promiseFree (t : Thread) : Option Nat := t.promises.toList.findIdx? (· == none)

/-- The table with an object recorded. -/
def Thread.setPromise (t : Thread) (i : Nat) (o : Option Obj) : Thread :=
  { t with promises := t.promises.setIfInBounds i o }

/-! ### Frames of the Pour (R256, R258, R263) -/

/-- Rank, core and granule index of a scratchpad granule, by its canonical address ÷ 16. -/
def granuleParts (own : BitVec 6) (g : Nat) : BitVec 6 × BitVec 12 × BitVec 15 :=
  let a := g * 16
  let rank := if 2 ^ 62 ≤ a then BitVec.ofNat 6 (a / 2 ^ 56) else own
  let loc := a % 2 ^ 56
  (rank, BitVec.ofNat 12 (spadCore loc), BitVec.ofNat 15 (spadOff loc / 16))

/-- A promise as a 40-bit entry of a HOLD frame (R263). -/
def objEntry (own : BitVec 6) : Obj → BitVec 40
  | .granule g =>
    let (r, c, i) := granuleParts own g
    0#2 ++ 0#4 ++ ((0#1 ++ r ++ c ++ i) : BitVec 34)
  | .tag gtid tag => 1#2 ++ tag ++ gtid.setWidth 34
  | .barrier i => 2#2 ++ 0#4 ++ i.setWidth 34
  | .timeline i => 3#2 ++ 0#4 ++ i.setWidth 34
  | _ => 0#40

/-- The object that a 40-bit entry names, and its rank, in a module that is rank `own` of the job. -/
def entryObj (own : Peer) (e : BitVec 40) : Obj × BitVec 6 :=
  let k := e.extractLsb' 38 2
  let tag := e.extractLsb' 34 4
  let o := e.extractLsb' 0 34
  if k = 0#2 then
    let rank := o.extractLsb' 27 6
    let a := spadAddr (o.extractLsb' 15 12).toNat (16 * (o.extractLsb' 0 15).toNat)
    (.granule ((if rank = own.rank then a else rankAddr { own with rank := rank } a) / 16), rank)
  else if k = 1#2 then (.tag (o.extractLsb' 0 22) tag, o.extractLsb' 16 6)
  else if k = 2#2 then (.barrier (o.extractLsb' 0 10), own.rank)
  else (.timeline (o.extractLsb' 0 10), own.rank)

/-- Up to six entries packed into a payload, entry 0 lowest. -/
def packEntries (own : BitVec 6) : List Obj → BitVec 256
  | [] => 0#256
  | o :: l => (packEntries own l <<< 40) ||| (objEntry own o).setWidth 256

/-- Entry n of a payload. -/
def payloadEntry (p : BitVec 256) (n : Nat) : BitVec 40 := p.extractLsb' (40 * n) 40

/-- Lists of at most six. -/
def sixes {α : Type} : Nat → List α → List (List α)
  | 0, _ => []
  | n + 1, l => if l.length ≤ 6 then [l] else l.take 6 :: sixes n (l.drop 6)

/-- Frames in a station's emit queue. -/
def State.emitQ (s : State) (n : Nat) : List QFrame := (assocGet n s.emit).getD []

/-- The state with a frame in a station's emit queue, which may leave `wait` cycles from now: frames of house cores, HOLD and
RELEASE go ahead of thread frames. The queue holds the first 16; what stands behind them waits at its core (R256). -/
def State.queueFrame (s : State) (station : Nat) (ty : FrameType) (first : Bool) (f : Frame) (wait : Nat) : State :=
  let l := s.emitQ station
  let q : QFrame := { ty := ty, first := first, f := f, due := s.time + wait }
  let l' := if q.first then l.filter (·.first) ++ [q] ++ l.filter (fun x => !x.first) else l ++ [q]
  { s with emit := assocSet station l' s.emit }

/-- A station's emit queue is full: a request waits for room (R256). -/
def State.emitFull (s : State) (station : Nat) : Bool := decide (Config.emitEntries ≤ (s.emitQ station).length)

/-- Queued casts of a core enter its ring in this cycle, as room has appeared (R255). -/
def State.wakeCasts (s : State) (c : Nat) : State :=
  if (s.core c).castQ.isEmpty then s else s.scheduleOnce s.time (.castDrain (BitVec.ofNat 12 c))

/-- What this module's hub sends to the hub of another rank on the ordered fabric channels (R262, R263). -/
def State.toRank (s : State) (rank : Peer) (ty : FrameType) (f : Frame) : State :=
  { s with peerFrames := s.peerFrames ++ [(rank, ty, f)] }

/-- A frame of a slot's station. -/
def State.slotFrame (s : State) (tid : Nat) (obj : BitVec 10) (payload : BitVec 256) : Frame :=
  { station := BitVec.ofNat 10 (coreCluster (tidCore tid)), obj := obj, gtid := s.gtid tid, job := s.jobOf tid, count := 0#3
    root := false, payload := payload }

/-- The state with HOLD or RELEASE frames for a thread's promises queued (R263) (DESIGN CHOICE 84). -/
def State.queueNotices (s : State) (ty : FrameType) (tid : Nat) (root : Bool) (objs : List Obj) : State :=
  (sixes 2 objs).foldl (fun a l => a.queueFrame (coreCluster (tidCore tid)) ty true
    { s.slotFrame tid 0#10 (packEntries (s.ownRank (s.jobOf tid)) l) with count := BitVec.ofNat 3 l.length, root := root } 0) s

/-! ### Withholding (R202, R264, R315, R348) -/

/-- A Pour object; one that is not listed stands at its reset value (R260). -/
def State.pourObj (s : State) (i : Nat) : PourObj := (assocGet i s.pour).getD PourObj.reset

/-- The state with a Pour object replaced. -/
def State.setPour (s : State) (i : Nat) (o : PourObj) : State := { s with pour := assocSet i o s.pour }

/-- A station is resynchronising (R259) (DEDUCED 76). -/
def State.resyncing (s : State) (station : Nat) : Bool := s.resync.any fun n => n.toNat == station

/-- What a station that resynchronises still holds (R259). -/
def State.frozenAt (s : State) (station : Nat) : Option Mirror := if s.resyncing station then assocGet station s.frozen else none

/-- An object in a station's own mirror (R257, R259). -/
def State.mirrorObj (s : State) (station i : Nat) : PourObj := match s.frozenAt station with
  | some m => (assocGet i m.pour).getD PourObj.reset
  | none => s.pourObj i

/-- The withheld table of a station's cluster (R259, R263). -/
def State.heldTable (s : State) (station : Nat) : List (Obj × Nat) := match s.frozenAt station with
  | some m => m.withheld
  | none => (s.cluster station).withheld

/-- Withheld count of an object in a cluster's table. -/
def heldCount (o : Obj) (l : List (Obj × Nat)) : Nat :=
  match l.find? (·.1 == o) with
  | some (_, n) => n
  | none => 0

/-- Whether a granule is full. -/
def State.isFull (s : State) (g : Nat) : Bool := s.full.elem g

/-- The station's table that counts a granule: that of its owner's cluster. -/
def State.granuleHeld (s : State) (g : Nat) : Nat :=
  heldCount (.granule g) (s.heldTable (coreCluster (spadCore (g * 16))))

/-- A granule is withheld: empty and promised by a halted party (R202). -/
def State.granuleWithheld (s : State) (g : Nat) : Bool := !s.isFull g && decide (0 < s.granuleHeld g)

/-- Some halted party promised a message to a thread. -/
def State.tagHeld (s : State) (tid : Nat) : Option Obj :=
  ((s.heldTable (coreCluster (tidCore tid))).find? fun e => match e.1 with
    | .tag g _ => g == s.gtid tid && decide (0 < e.2)
    | _ => false).map (·.1)

/-- Granules that a synchronising access acts on (R209, R282, R284). -/
def SyncAccess.granules (a : SyncAccess) : List Nat :=
  match a.shape with
  | .scalarLoad _ | .scalarStore _ => [a.addr / 16]
  | _ => (List.range 4).map fun i => a.addr / 64 * 4 + i

/-- Whether the access needs its granules full (R202). -/
def SyncAccess.needsFull (a : SyncAccess) : Bool := a.op != .fill

/-- The occupied granules of an inbox (R250). -/
def Core.inboxUsed (k : Core) : Nat := (k.inboxs.extractLsb' 32 16).toNat

/-- Fields of a command word (R99, R103). -/
def cmdOpcode (c : Cmd) : Nat := (c.word.extractLsb' 0 8).toNat
def cmdPost (c : Cmd) : Bool := c.word.getLsbD 9
def cmdSignal (c : Cmd) : Bool := c.word.getLsbD 10
def cmdStrap (c : Cmd) : Bool := c.word.getLsbD 11
def cmdSgran (c : Cmd) : Nat := (c.word.extractLsb' 32 15).toNat
def cmdRingA (c : Cmd) : Nat := (c.word.extractLsb' 72 3).toNat
def cmdRingB (c : Cmd) : Nat := (c.word.extractLsb' 80 3).toNat

/-- Occupancy of a ring (R303). -/
def Core.ringOcc (k : Core) (n : Nat) : Nat :=
  (((k.ringTail[n]?).getD 0#64).toNat + 2 ^ 32 - ((k.ringHead[n]?).getD 0#64).toNat) % 2 ^ 32

/-- A ring is withheld for a command that needs `need` of its tiles (R315). -/
def State.ringWithheld (s : State) (c n need : Nat) : Bool :=
  let k := s.core c
  let base := (k.ringBase[n]?).getD 0#64
  decide (k.ringOcc n < need) && base.getLsbD 63
    && s.granuleWithheld (spadAddr c (16 * (base.extractLsb' 32 15).toNat) / 16)

/-- The commands of q0 that have not started. -/
def Core.unstarted (k : Core) : List Cmd := k.q0.drop k.q0Work.length

/-- The command that waits at the head of q0 is gated by a withheld ring (R315). -/
def State.q0Gated (s : State) (c : Nat) : Option (BitVec 3) :=
  match (s.core c).unstarted, (s.core c).q0Phase with
  | h :: _, .sampled _ =>
    let op := cmdOpcode h
    if op = 1 ∨ op = 2 ∨ op = 3 then
      if s.ringWithheld c (cmdRingA h) 1 then some (BitVec.ofNat 3 (cmdRingA h))
      else if s.ringWithheld c (cmdRingB h) (if op = 2 then 2 else 1) then some (BitVec.ofNat 3 (cmdRingB h))
      else none
    else none
  | _, _ => none

/-- A gated command of q0 will fill the granule with its signal (R315). -/
def State.signalGated (s : State) (g : Nat) : Option Obj :=
  let c := spadCore (16 * g)
  if isSpad (16 * g) ∧ ((s.core c).unstarted.any fun x => cmdSignal x && spadAddr c (16 * cmdSgran x) / 16 == g) then
    (s.q0Gated c).map fun n => .ring (BitVec.ofNat 12 c) n
  else none

/-- The transfer slot of a core is halted (R348). -/
def State.transferHalted (s : State) (c : Nat) : Bool :=
  match s.thread? (c * 16 + 15) with
  | some t => t.run != .live
  | none => false

/-- An `allred` of the core whose barrier is withheld for its phase, as the core's station holds it (R259, R348). -/
def State.allredHeld (s : State) (c : Nat) (p : CopyRun → Bool) : Option Obj :=
  ((s.core c).copies.find? fun r => p r && match r.gate with
    | some (i, ph) =>
      let o := s.mirrorObj (coreCluster c) i.toNat
      decide (0 < o.wheld) && decide ((o.phase - ph).toInt ≤ 0)
    | none => false).bind fun r => r.gate.map fun g => Obj.barrier g.1

/-- A copy command word names a handle: every copy command may but `allred`, whose bit 12 is opmax (R104, R359). -/
def wordHandle (w : BitVec 256) (h : BitVec 6) : Bool :=
  let op := (w.extractLsb' 0 8).toNat
  decide (0x40 ≤ op) && decide (op ≤ 0x44) && w.getLsbD 12 && w.extractLsb' 248 6 == h

/-- A q2 request or q4 command of the core names a handle (R348). -/
def Core.namesHandle (k : Core) (h : BitVec 6) : Bool :=
  k.q2.toList.any (fun m => match m with
    | some x => wordHandle (x.data.extractLsb' 0 256) h
    | none => false)
  || k.q4.any (fun c => wordHandle c.word h) || k.copies.any (fun c => wordHandle c.cmd.word h)

/-- A granule that a synchronising access needs full is withheld for it; so is the signal granule of a gated command or of an
`allred` for a load (R202, R315, R348). -/
def State.syncWithheld (s : State) (a : SyncAccess) : Option Obj :=
  if a.needsFull then
    match a.granules.find? s.granuleWithheld with
    | some g => some (.granule g)
    | none =>
      if a.granules.all s.isFull || !(a.op == .keep || a.op == .take) then none
      else a.granules.findSome? fun g => (s.signalGated g).orElse fun _ =>
        if isSpad (16 * g) then
          let c := spadCore (16 * g)
          s.allredHeld c fun r => cmdSignal r.cmd && spadAddr c (16 * cmdSgran r.cmd) / 16 == g
        else none
  else none

/-- The object that is withheld for what a thread waits on, if one is (R202, R264, R315, R348); a station that resynchronises goes
by its own mirror (R259). A parked access meets withholding at its owner: not while it or its reply travels. -/
def State.withheldFor (s : State) (tid : Nat) : WaitFor → Option Obj
  | .sync a => s.syncWithheld a
  | .parked p a => if s.packets.any fun (q : Packet) => q.id == p && !q.parked then none else s.syncWithheld a
  | .recv _ _ | .peek _ _ | .btag _ => if (s.core (tidCore tid)).inboxUsed = 0 then s.tagHeld tid else none
  | .barrier i p =>
    let o := s.mirrorObj (coreCluster (tidCore tid)) i.toNat
    if 0 < o.wheld ∧ (o.phase - p).toInt ≤ 0 then some (.barrier i) else none
  | .timeline i target =>
    let o := s.mirrorObj (coreCluster (tidCore tid)) i.toNat
    if 0 < o.wheld ∧ (o.val - target).toInt < 0 then some (.timeline i) else none
  | .handle h st =>
    let c := tidCore tid
    let k := s.core c
    let e := k.handles.get h.toFin
    if st = .full ∧ (e.st = .free ∨ e.st = .filling) ∧ s.transferHalted c ∧ k.namesHandle h then
      some (.handle (BitVec.ofNat 12 c) h)
    else none
  | .qpop _ q =>
    let c := tidCore tid
    if q = 1#3 then
      match s.q0Gated c with
      | some n =>
        if (s.core c).unstarted.any cmdPost ∧ !((s.core c).q0.take (s.core c).q0Work.length).any cmdPost then
          some (.ring (BitVec.ofNat 12 c) n)
        else none
      | none => none
    else match (s.core c).copies.find? fun r => cmdPost r.cmd with
      | some r => s.allredHeld c fun x => x.cmd.seq == r.cmd.seq
      | none => none
  | .again (.room q) =>
    let c := tidCore tid
    if q = 0#3 then (s.q0Gated c).map fun n => .ring (BitVec.ofNat 12 c) n
    else if q = 2#3 ∧ s.transferHalted c then some (.mailbox (BitVec.ofNat 12 c))
    else none
  | _ => none

/-! ### Halts (R28, R30, R406, R410, R441) -/

/-- A cancel for the owner of a parked access waits at its core's port (R201, R217, R223). -/
def State.sendCancel (s : State) (tid packet : Nat) : State :=
  s.bump.schedule s.time (.cancelSend (BitVec.ofNat 16 tid) packet s.fresh)

/-- The wait of a thread that halts is withdrawn: a parked access is cancelled at its owner (R201, R402). -/
def State.withdrawParked (s : State) (tid : Nat) : State :=
  match s.thread? tid with
  | none => s
  | some t => match t.wait with
    | some w => match w.what with
      | .parked p _ => if w.cancel then s else (s.setThread tid { t with wait := some { w with cancel := true } }).sendCancel tid p
      | _ => s
    | none => s

/-- The frame that a thread's instruction waits for is still in its station's emit queue. -/
def State.frameQueued (s : State) (tid : Nat) (ty : FrameType) : Bool :=
  (s.emitQ (coreCluster (tidCore tid))).any fun q => q.ty == ty && q.f.gtid == s.gtid tid

/-- The state without a thread's frame in its station's emit queue. -/
def State.unqueueFrame (s : State) (tid : Nat) (ty : FrameType) : State :=
  let n := coreCluster (tidCore tid)
  { s with emit := assocSet n ((s.emitQ n).filter fun q => !(q.ty == ty && q.f.gtid == s.gtid tid)) s.emit }

/-- The end of a wait by an event (R173, R311): the instruction does not complete and is executed again with a fresh limit. A
parked access first cancels at its owner; a load on its way is given up; a frame that has left its emit queue, an accepted
resume, a suspension, a `ccopy`, a `grow` and an `end` take their course, as what is served first wins; a DEADLINE completes a `sleep` (R201) (DEDUCED 64). -/
def State.endWait (s : State) (tid : Nat) (deadline : Bool) : State :=
  match s.thread? tid with
  | none => s
  | some t =>
    match t.wait, t.run with
    | some w, .live =>
      let ready := { t with wait := none, latch := none, latchCnt := none, readyAt := max t.readyAt (s.time + 3) }
      match w.what with
      | .parked _ _ => s.withdrawParked tid
      | .sleep _ => if deadline then s.finish tid t (t.pc + 4#64) false 0 else s.setThread tid ready
      | .resuming id =>
        if s.resumes.any fun r => r.id == id && r.accepted then s
        else { s with resumes := s.resumes.filter fun r => r.id != id }.setThread tid ready
      | .offer r => { s with rovers := s.rovers.filter fun (x : Rover) => x.id != r }.setThread tid ready
      | .access id => { s with packets := s.packets.filter fun (p : Packet) => p.id != id }.setThread tid ready
      | .frame ty _ _ => if s.frameQueued tid ty then (s.unqueueFrame tid ty).setThread tid ready else s
      | .suspending _ | .ending | .served _ _ _ | .copying _ _ _ | .submitted _ _ => s
      | _ => s.setThread tid ready
    | _, _ => s

/-- An event that came during a halt ends a wait that the halt has left standing, so that it is taken at once (R31, R173). -/
def State.wakePending (s : State) (tid : Nat) : State :=
  match s.thread? tid with
  | some t => if !t.inHandler && (t.dlPending || !t.events.isEmpty) then s.endWait tid t.dlPending else s
  | none => s

/-- A root halt: the thread leaves rotation, its windows drain, a gang member detaches, and HOLD frames
carry its promises; a thread that was halted by dependence emits no further frames (R441). -/
def State.rootHalt (s : State) (tid : Nat) (why : Reason) : State :=
  match s.thread? tid with
  | none => s
  | some t =>
    match t.run with
    | .root => s
    | .dep o => s.setThread tid { t with run := .root, reason := why, wasDep := some o }
    | .live =>
      let s1 := (s.setThread tid t.drainWindows).detachGang tid
      let s2 := s1.modThread tid fun u => { u with run := .root, reason := why, wasDep := none, stepped := false, noticed := t.openPromises }
      (s2.withdrawParked tid).queueNotices .hold tid true t.openPromises

/-- A halt by dependence on a withheld object: the wait is withdrawn, the instruction is latched with its
count, and HOLD frames carry the thread's promises (R30, R264). -/
def State.depHalt (s : State) (tid : Nat) (o : Obj) : State :=
  match s.thread? tid with
  | none => s
  | some t =>
    let s1 := (s.setThread tid t.drainWindows).detachGang tid
    let s2 := s1.modThread tid fun u => { u with run := .dep o, noticed := t.openPromises }
    let s3 := match t.wait with
      | some w => match w.what with
        | .parked p _ => { s2 with packets := s2.packets.filter fun q => q.id != p }
        | _ => s2
      | none => s2
    s3.queueNotices .hold tid false t.openPromises

/-- What a thread that waited does when its halt ends: its waiting instruction is executed again with its count (R265). A
`sleep`, an access or a frame on its way, a suspension, a resume, a `ccopy`, a `grow` and an `end` go on (DEDUCED 18). -/
def Thread.rewait (t : Thread) : Thread :=
  match t.wait with
  | some w => match w.what with
    | .parked _ _ => if w.cancel then t else { t with wait := none, latchCnt := w.limit.map fun l => (w.count, l) }
    | .sync _ | .recv _ _ | .peek _ _ | .btag _ | .barrier _ _ | .timeline _ _ | .handle _ _ | .qpop _ _ | .xtake _
    | .join _ | .offer _ | .walk _ | .latched _ | .line _ | .again _ =>
      { t with wait := none, latchCnt := w.limit.map fun l => (w.count, l) }
    | _ => t
  | none => t

/-- The end of a halt by dependence: RELEASE lists what the HOLD listed, and the skip bit is set (R263, R265, R408) (DEDUCED 18). -/
def State.depRelease (s : State) (tid : Nat) : State :=
  match s.thread? tid with
  | none => s
  | some t =>
    ((s.setThread tid { t.rewait with run := .live, skip := true, noticed := [], readyAt := max t.readyAt (s.time + 3) }).queueNotices
      .release tid false t.noticed).wakePending tid

/-- Release of a root halt, with the skip bit set: RELEASE lists what the HOLD listed (R263, R408, R441) (DEDUCED 18). -/
def State.releaseRoot (s : State) (tid : Nat) : State :=
  match s.thread? tid with
  | none => s
  | some t =>
    match t.run with
    | .root =>
      let stillHeld := match t.wasDep, t.wait with
        | some _, some w => (s.withheldFor tid w.what).isSome
        | _, _ => false
      match t.wasDep, stillHeld with
      | some o, true => s.setThread tid { t with run := .dep o, reason := .none, skip := true, wasDep := none }
      | _, _ =>
        ((s.setThread tid { t.rewait with run := .live, reason := .none, skip := true, wasDep := none, noticed := [] }).queueNotices
          .release tid true t.noticed).wakePending tid
    | _ => s

/-- Threads halted by dependence on an object that is no longer withheld for them become runnable, and
waiting threads for which an object is now withheld halt (R30, R265). -/
def State.settleWithheld (s : State) : State :=
  s.threads.foldl (fun a x => match a.thread? x.1 with
    | none => a
    | some t =>
      match t.run, t.wait with
      | .dep _, some w => if (a.withheldFor x.1 w.what).isNone then a.depRelease x.1 else a
      | .live, some w => match a.withheldFor x.1 w.what with
        | some o => a.depHalt x.1 o
        | none => a
      | _, _ => a) s

/-! ### Traps (R398 to R405) -/

/-- Cause codes (R400). -/
def cILLEGAL : BitVec 8 := 0x01#8
def cACCESSFAULT : BitVec 8 := 0x02#8
def cMISALIGN : BitVec 8 := 0x03#8
def cFETCHBOUND : BitVec 8 := 0x04#8
def cECALL : BitVec 8 := 0x05#8
def cMEMERR : BitVec 8 := 0x06#8
def cSYNCLIMIT : BitVec 8 := 0x07#8
def cSTALLSHORT : BitVec 8 := 0x08#8
def cBANKFMT : BitVec 8 := 0x09#8
def cMSGSIZE : BitVec 8 := 0x0A#8
def cFABUNREACH : BitVec 8 := 0x0B#8
def cPROMISEEND : BitVec 8 := 0x0C#8
def cPROMISEFMT : BitVec 8 := 0x0D#8
def cPROMISEFULL : BitVec 8 := 0x0E#8
def cTASKFMT : BitVec 8 := 0x0F#8
def cPOURFMT : BitVec 8 := 0x10#8
def cOBJTYPE : BitVec 8 := 0x11#8
def cOBJBUSY : BitVec 8 := 0x12#8
def cHSTATE : BitVec 8 := 0x13#8
def cRINGOVF : BitVec 8 := 0x14#8
def cCONTFMT : BitVec 8 := 0x15#8
def cCONTCORRUPT : BitVec 8 := 0x16#8
def cCONTRIGHTS : BitVec 8 := 0x17#8
def cCONTSTALE : BitVec 8 := 0x18#8
def cCONTPLACE : BitVec 8 := 0x19#8
def cDEADLINE : BitVec 8 := 0x20#8
def cILLCMD : BitVec 8 := 0x21#8
def cMESTATUS : BitVec 8 := 0x22#8
def cRESCALE : BitVec 8 := 0x23#8

/-- Bits 1:0 cleared: the ADDR fields of EPC and EVEC (R398). -/
def align4 (w : Word) : Word := w &&& ~~~3#64

/-- The trap registers as a trap writes them, and the jump to EVEC (R401). -/
def Thread.enterTrap (t : Thread) (now : Nat) (code : BitVec 8) (eval epc : Word) (async : Bool) : Thread :=
  { t with
    epc := align4 epc
    eval := eval
    ecause := (if async then 0x8000000000000000#64 else 0#64) ||| code.setWidth 64
    epw := t.pw
    inHandler := true
    pc := t.evec, entered := t.basic
    wait := none
    latch := none
    latchCnt := none
    skip := if async then t.skip else false
    stepped := t.stepped || (!async && t.stepctl.getLsbD 63)
    readyAt := if async then t.readyAt else max t.readyAt (t.nextIssue now 8) }

/-- A double trap: the thread halts with the second cause in DCODE, its trap registers unchanged and PC at
the instruction that trapped (R403). -/
def State.doubleTrap (s : State) (tid : Nat) (t : Thread) (code : BitVec 8) (epc : Word) : State :=
  (s.setThread tid { t with dcode := code, pc := epc, skip := false, wait := none, latch := none, latchCnt := none }).rootHalt tid .double

/-- Taking a trap (R401): the one operation by which every precise and asynchronous trap is taken. The
windows drain, an attached gang member detaches, EPC, EVAL, ECAUSE and EPW are written, the handler state is
set, PC becomes EVEC, and STEPCTL.TRAPH or ASYNH then halts the thread. -/
def State.takeTrap (s : State) (tid : Nat) (t : Thread) (code : BitVec 8) (eval epc : Word) (async : Bool) : State :=
  if !async && t.inHandler then s.doubleTrap tid t code epc
  else
    let t1 := t.drainWindows.enterTrap s.time code eval epc async
    let s1 := match t.gang with
      | some g => if g.attached then (s.setThread tid t1).detachGang tid else s.setThread tid t1
      | none => s.setThread tid t1
    if !async && t.stepctl.getLsbD 61 then s1.rootHalt tid .traph
    else if async && t.stepctl.getLsbD 60 then s1.rootHalt tid .asynh
    else s1

/-- A trap that comes long after its instruction issued, as at the end of a wait or of an access: the handler's first turn is
bound by the issue alone (R419). -/
def State.trapLate (s : State) (tid : Nat) (t : Thread) (code : BitVec 8) (eval epc : Word) : State :=
  (s.takeTrap tid t code eval epc false).modThread tid fun u => { u with readyAt := max t.readyAt s.time }

/-- A precise trap that ends the thread's wait (R201, R419). -/
def State.trapWaited (s : State) (tid : Nat) (t : Thread) (code : BitVec 8) (eval : Word) : State :=
  s.trapLate tid { t with wait := none } code eval t.pc

/-- A precise trap at the thread's instruction. -/
def State.trap (s : State) (tid : Nat) (t : Thread) (code : BitVec 8) (eval : Word) : State :=
  s.takeTrap tid t code eval t.pc false

/-- The return from a trap: PC, the predicate word and the handler state (R413). -/
def Thread.leaveTrap (t : Thread) : Thread := { t with pw := t.epw, inHandler := false, entered := false }

/-! ### Waits (R128, R198 to R201) -/

/-- The default wait limit (R200). -/
def Thread.defaultLimit (t : Thread) : Nat := (t.synclim.extractLsb' 0 32).toNat

/-- The wait limit of an instruction with a limit register (R200). -/
def Thread.limitOf (t : Thread) (r : Reg) : Nat :=
  if r = 0#5 then t.defaultLimit else ((t.reg r).extractLsb' 0 32).toNat

/-- The state with the thread waiting. A count kept in the retry latch continues (R201, R265). -/
def State.await (s : State) (tid : Nat) (t : Thread) (what : WaitFor) (limit : Option Nat) (eval : Word) : State :=
  let kept := t.latchCnt
  let w : Wait :=
    { what := what, order := s.fresh
      count := match kept with | some (c, _) => c | none => 0
      limit := match kept, limit with | some (_, l), some _ => some l | _, l => l
      eval := eval, cancel := false }
  { s.setThread tid { t with wait := some w, latchCnt := none, readyAt := max t.readyAt (t.nextIssue s.time 8) }
    with fresh := s.fresh + 1 }

/-- The state with the thread not ready until a condition holds; its instruction is then tried again (DESIGN CHOICE 11). -/
def State.retryWhen (s : State) (tid : Nat) (t : Thread) (c : Cause) : State :=
  s.setThread tid { t with wait := some { what := .again c, order := s.fresh, count := 0, limit := none
                                          eval := 0#64, cancel := false } }

/-- A wait that a withheld object turns into a halt by dependence, and any other that begins (R202, R264). -/
def State.awaitOrHalt (s : State) (tid : Nat) (t : Thread) (what : WaitFor) (limit : Option Nat) (eval : Word) : State :=
  let s1 := s.await tid t what limit eval
  match s.withheldFor tid what with
  | some o => s1.depHalt tid o
  | none => s1

/-- The instruction is to be tried again when a condition holds; the wait has a limit, and a withheld object
turns it into a halt by dependence (R315, R333, R348). -/
def State.retryOrHalt (s : State) (tid : Nat) (t : Thread) (c : Cause) (limit : Option Nat) (eval : Word) : State :=
  let w : Wait :=
    { what := .again c, order := s.fresh
      count := match t.latchCnt with | some (n, _) => n | none => 0
      limit := match t.latchCnt, limit with | some (_, l), some _ => some l | _, l => l
      eval := eval, cancel := false }
  let s1 := { s.setThread tid { t with wait := some w, latchCnt := none } with fresh := s.fresh + 1 }
  match s.withheldFor tid (.again c) with
  | some o => s1.depHalt tid o
  | none => s1

/-- A suspension that has stopped a slot and not committed yet: it diverts the slot's messages and events (R370, R371). -/
def State.diverting (s : State) (tid : Nat) : Option Susp :=
  s.susps.find? fun x => x.tids.any fun t => t.toNat == tid

/-- KIND of a pending event for a cause code (R367). -/
def evtKind (c : BitVec 8) : BitVec 8 :=
  if c = cILLCMD then 3 else if c = cRESCALE then 4 else if c = cMESTATUS then 5 else 6

/-- Flags of a status word (R307). -/
def statusFlags (w : Word) : Flags := w.extractLsb' 8 6

/-- Flags that an asynchronous event carries: those of the status word of a MESTATUS (R311). -/
def eventFlags (code : BitVec 8) (eval : Word) : Flags := if code = cMESTATUS then statusFlags eval else 0#6

/-- A suspension takes an event or completion in the order of arrival; the ninth is counted and leaves its flags (R371). -/
def Susp.record (f : Flags) (e : Nat × BitVec 8 × Word × Word × Word) (x : Susp) : Susp :=
  if x.evts.length < 8 then { x with evts := x.evts ++ [e] }
  else { x with sticky := x.sticky ||| f, edrop := min 255 (x.edrop + 1) }

/-- A suspension under way changed. -/
def State.modSusp (s : State) (id : Nat) (f : Susp → Susp) : State := { s with susps := mapFirst (fun y => y.id == id) f s.susps }

/-- The record number of a thread that a suspension takes. -/
def Susp.recordOf (x : Susp) (tid : Nat) : Nat := (x.tids.findIdx? fun t => t.toNat == tid).getD 0

/-- An event of a taken thread that comes after the Stop is pending in the object (R371). -/
def Susp.take (tid : Nat) (e : AsyncEvent) (x : Susp) : Susp :=
  x.record (eventFlags e.code e.eval) (x.recordOf tid, evtKind e.code, e.eval, 0#64, 0#64)

/-- The state with an asynchronous event for a thread (R311, R237): at most four are held, and a pending
event ends a wait outside a handler (DEDUCED 64). -/
def State.postEvent (s : State) (tid : Nat) (e : AsyncEvent) : State :=
  match s.thread? tid, s.diverting tid with
  | none, _ => s
  | some _, some x => s.modSusp x.id (Susp.take tid e)
  | some t, none =>
    let s1 := s.setThread tid { t with events := t.events ++ [e] }
    if t.inHandler then s1 else s1.endWait tid false

/-- A deadline that has passed falls due at once (R173, R185). -/
def State.checkDline (s : State) (tid : Nat) : State :=
  match s.thread? tid with
  | some t =>
    if t.dline.getLsbD 63 ∧ (t.dline.extractLsb' 0 63).toNat ≤ s.tick then s.schedule s.time (.deadlineFire (BitVec.ofNat 16 tid))
    else s
  | none => s

/-! ### Performing an instruction -/

/-- A meaning performed by the thread of the issuing slot; a slot without a live thread issues nothing
(R14), and a house core's own instructions are not the module's (R415) (DESIGN CHOICE 8). -/
def performing (s : State) (f : Nat → Thread → State) : Out :=
  match s.cur with
  | .slot tid =>
    match s.thread? tid.toNat with
    | some t => .next (f tid.toNat t)
    | none => .refused .noThread
  | .house _ => .refused .houseCore

/-- The ILLEGAL trap of an instruction: EVAL holds the word (R66). -/
def State.illegal (s : State) (tid : Nat) (t : Thread) (i : Instr) : State :=
  s.trap tid t cILLEGAL (((encode i).headD 0#32).setWidth 64)

/-- A scalar instruction that writes one register and goes on (R131, R194). -/
def State.writeReg (s : State) (tid : Nat) (t : Thread) (d : Reg) (v : Word) (taint : Bool) : State :=
  s.next tid (t.setReg d v taint)

/-- Flags of a completion merged into every live thread of its group, its rovers on their way among them (R114, R232, R310). -/
def State.mergeFlags (s : State) (g : Nat) (f : Flags) : State :=
  let merge := fun (t : Thread) => if t.group = g then t.orFlags f else t
  { s.mapThreads fun _ t => merge t with rovers := s.rovers.map fun r => { r with thread := merge r.thread } }

/-! ### The log of a job's inputs (R418) -/

/-- The job of a thread logs its inputs (R418) (DESIGN CHOICE 72). -/
def State.logged (s : State) (t : Thread) : Bool := s.jobs.any fun j => j.id == t.job && j.logged

/-- An input that a thread meets enters the log of its job, stamped with its INSTRET (R418) (DESIGN CHOICE 72). -/
def State.logItem (s : State) (tid : Nat) (t : Thread) (kind : BitVec 8) (v0 v1 : Word) : State :=
  if s.logged t then
    { s with replayLog := s.replayLog ++ [{ kind := kind, gtid := s.gtid tid, instret := t.instret, value0 := v0, value1 := v1 }] }
  else s

/-- The log's word for a granule, a Pour object or a handle that serves: the entry of R263, or bit 40 with the handle's core and number (DESIGN CHOICE 72). -/
def serveKey (own : BitVec 6) : Obj → Word
  | .handle c h => BitVec.ofNat 64 (2 ^ 40 + c.toNat * 64 + h.toNat)
  | o => (objEntry own o).setWidth 64

/-- The log's word for a core's inbox (DESIGN CHOICE 72). -/
def inboxKey (c : Nat) : Word := BitVec.ofNat 64 (2 ^ 41 + c)

/-- An item that is a serve by an object. -/
def isServe (key : Word) (r : ReplayItem) : Bool := r.kind == 5#8 && r.value0 == key

/-- In replay the serves of an object are made in the logged order: the next one is this thread's (R418). -/
def State.mayServe (s : State) (tid : Nat) (key : Word) : Bool := match s.replayIn.find? (isServe key) with
  | some r => r.gtid == s.gtid tid
  | none => true

/-- A serve of a waiting thread is logged with its position in the object's order, or is the next one of a replay (R418). -/
def State.countServe (s : State) (tid : Nat) (key : Word) : State :=
  let s1 := match takeFirst (isServe key) s.replayIn with
    | some (_, l) => { s with replayIn := l }
    | none => s
  match s.thread? tid with
  | some t => s1.logItem tid t 5#8 key (BitVec.ofNat 64 (s.replayLog.filter (isServe key)).length)
  | none => s1

end Sys2Proof.Machine
end

