-- ==== Sys2Proof/Machine/Flags.lean ====
section
/-! DEFINITION. VFLAGS and the reading of vector operands: the sticky flags of R114, the waits and traps of
R277 before a vector instruction issues, and the pending result that it leaves (R276, R279). -/

set_option Elab.async false

namespace Sys2Proof.Machine

/-- Latency classes of R276. -/
inductive VClass where
  | simple | fused | reduction | function
  deriving DecidableEq, Repr

/-- Cycles from issue to the writing of the result (R276). -/
def VClass.cycles : VClass → Nat
  | .simple => 8
  | .fused => 12
  | .reduction => 16
  | .function => 24

/-- A vector instruction goes on with its operands, traps with STALLSHORT, or waits for a result (R277). -/
def State.withVecs (s : State) (tid : Nat) (t : Thread) (rs : List (BitVec 4)) (f : Unit → State) : State :=
  match t.useV s.time rs with
  | .stall r => s.trap tid t cSTALLSHORT (r.setWidth 64)
  | .wait r => s.retryWhen tid t (.vreg r)
  | .go => f ()

/-- The thread with a result in flight: it is written after the latency of its class, and its window covers
the next w issues (R276, R277). -/
def Thread.pend (t : Thread) (now : Nat) (c : VClass) (d : BitVec 4) (val : VWord) (f : Flags) (w : BitVec 2) : Thread :=
  { t with vres := t.vres ++ [{ dest := d, value := val, flags := f, due := now + c.cycles, window := w.toNat, issue := now }] }

/-- Retirement of a vector instruction with its result in flight. -/
def State.nextVec (s : State) (tid : Nat) (t : Thread) (c : VClass) (d : BitVec 4) (val : VWord) (f : Flags)
    (w : BitVec 2) : State :=
  ((s.next tid t).modThread tid fun u => u.pend s.time c d val f w).schedule (s.time + c.cycles)
    (.vectorResultWrite (BitVec.ofNat 16 tid))

/-- The results whose cycle has come are written, and their flags enter VFLAGS; a result that an open window
still covers keeps its value back (R277, R279). -/
def Thread.writeDue (t : Thread) (now : Nat) : Thread :=
  let due := t.vres.filter fun r => decide (r.due ≤ now)
  let u := due.foldl (fun a r => a.orFlags r.flags) t
  Thread.land { u with vres := u.vres.map fun r => if r.due ≤ now then { r with flags := 0#6 } else r } now

end Sys2Proof.Machine
end

