-- ==== Sys2Proof/Machine/Bank.lean ====
section
/-! DEFINITION. Bank format registers and the elements of a bank: validity of a register (R120), the
position of an element and of its scale entry (R121), decoding and encoding (R105 to R111, R115, R123). -/

set_option Elab.async false

namespace Sys2Proof.Machine

/-- FMT of a bank format register (R119). -/
def bfFmt (r : Word) : Nat := (r.extractLsb' 0 5).toNat
/-- GSIZE (R119). -/
def bfGsize (r : Word) : Nat := (r.extractLsb' 10 2).toNat
/-- AXIS: groups run across lines (R119). -/
def bfAxis (r : Word) : Bool := r.getLsbD 12
/-- DYN (R119). -/
def bfDyn (r : Word) : Bool := r.getLsbD 13
/-- LINE (R119). -/
def bfLine (r : Word) : Nat := (r.extractLsb' 16 4).toNat
/-- First byte of the scale table in the local window (R119). -/
def bfScale (r : Word) : Nat := 16 * (r.extractLsb' 25 15).toNat

/-- Bits of an element of a format code; a `raw` bank is read in bytes (R120). -/
def codeBits (c : Nat) : Nat :=
  if c = 1 ∨ c = 7 then 32
  else if c = 2 ∨ c = 3 then 16
  else if c = 6 ∨ c = 10 ∨ c = 13 ∨ c = 16 then 4
  else 8

/-- MX formats (R120). -/
def codeMX (c : Nat) : Bool := decide (11 ≤ c) && decide (c ≤ 14)

/-- Asymmetric formats (R120). -/
def codeAsym (c : Nat) : Bool := c == 15 || c == 16

/-- Elements that share a scale entry: 32 for MX, 32, 64 or 128 for the asymmetric formats. -/
def bfGroup (r : Word) : Nat := if codeAsym (bfFmt r) then 16 * 2 ^ bfGsize r else 32

/-- Elements of a line (R119). -/
def bfLineElems (r : Word) : Nat := 2 ^ (bfLine r + 6) * 8 / codeBits (bfFmt r)

/-- Group index of element n of a bank (R121). -/
def bfGroupOf (r : Word) (n : Nat) : Nat :=
  if bfAxis r then n / bfLineElems r / bfGroup r * bfLineElems r + n % bfLineElems r else n / bfGroup r

/-- Bytes of a scale entry. -/
def entryBytes (r : Word) : Nat := if codeAsym (bfFmt r) then 4 else 1

/-- Scale entries of a whole bank. -/
def bfEntries (r : Word) : Nat :=
  let n := 16384 * 8 / codeBits (bfFmt r)
  bfGroupOf r (n - 1) + 1

/-- An invalid register (R120). -/
def bfInvalid (r : Word) : Bool :=
  let c := bfFmt r
  let grouped := codeMX c || codeAsym c
  decide (16 < c)
  || (if codeAsym c then decide (bfGsize r = 0) else decide (bfGsize r ≠ 0))
  || (bfDyn r && !codeMX c)
  || decide (8 < bfLine r)
  || (grouped && !bfAxis r && decide (bfLineElems r % bfGroup r ≠ 0))
  || (grouped && decide (spadSize < bfScale r + entryBytes r * bfEntries r))

/-- Local-window offset of the scale entry of group i. -/
def entryOff (r : Word) (i : Nat) : Nat := bfScale r + entryBytes r * i

/-- The scale entry of group i of core c, as raw bytes (R121). -/
def readEntry (m : Mem) (c : Nat) (r : Word) (i : Nat) : Nat :=
  if codeMX (bfFmt r) || codeAsym (bfFmt r) then readBytes m (spadAddr c (entryOff r i)) (entryBytes r) else 0

/-- Whether an entry is malformed (R111). -/
def entryBad (r : Word) (entry : Nat) : Bool :=
  codeAsym (bfFmt r) && asymMalformed (codeBits (bfFmt r)) entry

/-- The bits of element n from address a, with w-bit elements (R110). -/
def readElem (m : Mem) (a w n : Nat) : Nat :=
  if w = 4 then (loadByte m (a + n / 2)).toNat / 2 ^ (4 * (n % 2)) % 16
  else readBytes m (a + n * (w / 8)) (w / 8)

/-- Memory with element n from address a written (R110). -/
def writeElem (m : Mem) (a w n v : Nat) : Mem :=
  if w = 4 then
    let old := (loadByte m (a + n / 2)).toNat
    let new := if n % 2 = 0 then old / 16 * 16 + v % 16 else v % 16 * 16 + old % 16
    storeByte m (a + n / 2) (BitVec.ofNat 8 new)
  else writeBytes m (a + n * (w / 8)) (w / 8) v

/-- Signed integer formats. -/
def codeSigned (c : Nat) : Bool := c != 9

/-- Integer formats without scales (R110). -/
def codeInt (c : Nat) : Bool := c == 7 || c == 8 || c == 9 || c == 10

/-- The element format of a float or MX code. -/
def codeFloat (c : Nat) : FloatFmt :=
  if c = 2 then bf16
  else if c = 3 then fp16
  else if c = 4 ∨ c = 11 then e4m3
  else if c = 5 ∨ c = 12 then e5m2
  else if c = 6 ∨ c = 13 then e2m1
  else fp32

/-- The exact value of an element with its scale entry (R105 to R111) (DEDUCED 36). -/
def decodeElem (r : Word) (entry bits : Nat) : FVal :=
  let c := bfFmt r
  if codeInt c then .ofInt (laneInt (codeSigned c) (codeBits c) bits)
  else if codeAsym c then asymDecode entry bits
  else if c = 14 then
    (e8m0 entry).mul (match FVal.ofInt (laneInt true 8 bits) with
      | .fin n m _ => .fin n m (-6)
      | v => v)
  else if codeMX c then (e8m0 entry).mul ((codeFloat c).decode bits)
  else (codeFloat c).decode bits

/-- A value encoded into an element with its scale entry (R115). `fromInt` marks an integer source (DEDUCED 36). -/
def encodeElem (r : Word) (fromInt : Bool) (entry : Nat) (v : FVal) : Nat × Flags :=
  let c := bfFmt r
  if codeInt c then
    let (i, f) := deliverInt .rne fromInt (laneLo (codeSigned c) (codeBits c)) (laneHi (codeSigned c) (codeBits c)) v
    (intLane (codeBits c) i, f)
  else if codeAsym c then
    let (x, f) := asymEncode (codeBits c) entry v
    (x, f ||| asymZeroScale entry v)
  else if codeMX c then
    if entry % 256 = 255 then ((if c = 14 then 0 else (codeFloat c).nan.getD 0), flagNV)
    else if c = 14 then mxint8Encode (v.unscale (entry % 256))
    else (codeFloat c).deliver .rne true (v.unscale (entry % 256))
  else (codeFloat c).deliver .rne true v

/-- emaxElem of R123. -/
def codeEmax (c : Nat) : Int :=
  if c = 11 then 8 else if c = 12 then 15 else if c = 13 then 2 else 0

/-- The dynamic scale of a block (R123). -/
def dynScale (c : Nat) (vals : List FVal) : Nat :=
  let exps := vals.filterMap fun v => match v with
    | .fin _ m e => if m = 0 then none else some ((m.log2 : Int) + e)
    | _ => none
  match exps with
  | [] => 0
  | x :: l => (max 0 (min 254 (l.foldl max x - codeEmax c + 127))).toNat

/-! ### The unit of `vld.d` and `vst.e` (R284) -/

/-- Bytes of the unit that a decoding load or encoding store moves, and its alignment (R284) (DEDUCED 45, DESIGN CHOICE 100). -/
def unitBytes (r : Word) : Nat :=
  let c := bfFmt r
  if c = 0 ∨ c = 1 ∨ c = 7 then 64 else 2 * codeBits c

/-- Whether the unit moves its bits unchanged. -/
def unitRaw (r : Word) : Bool := bfFmt r == 0 || bfFmt r == 1 || bfFmt r == 7

/-- Element index, within its bank, of local offset a. -/
def elemIndex (r : Word) (a : Nat) : Nat := a % 16384 * 8 / codeBits (bfFmt r)

/-- Whether a scale entry that the unit at offset a uses is malformed. -/
def unitBad (m : Mem) (c : Nat) (r : Word) (a : Nat) : Bool :=
  (List.range 16).any fun i => entryBad r (readEntry m c r (bfGroupOf r (elemIndex r a + i)))

/-- `vld.d`: 16 elements from offset a of core c, as FP32 lanes, with their flags (R284). -/
def decodeUnit (m : Mem) (c : Nat) (r : Word) (a : Nat) : VWord × Flags :=
  if unitRaw r then (BitVec.ofNat 512 (readBytes m (spadAddr c a) 64), 0#6)
  else
    let w := codeBits (bfFmt r)
    (List.range 16).foldl (fun acc i =>
      let entry := readEntry m c r (bfGroupOf r (elemIndex r a + i))
      let (b, f) := fp32.deliver .rne true (decodeElem r entry (readElem m (spadAddr c a) w i))
      (acc.1 ||| (BitVec.ofNat 512 b <<< (32 * i)), acc.2 ||| f)) (0#512, 0#6)

/-- `vst.e`: the bytes that encode 16 FP32 lanes at offset a of core c, with their flags (R284). -/
def encodeUnit (m : Mem) (c : Nat) (r : Word) (a : Nat) (v : VWord) : List (Nat × Byte) × Flags :=
  if unitRaw r then (cellsOf (spadAddr c a) 64 v.toNat, 0#6)
  else
    let w := codeBits (bfFmt r)
    let (n, f) := (List.range 16).foldl (fun (acc : Nat × Flags) i =>
      let entry := readEntry m c r (bfGroupOf r (elemIndex r a + i))
      let (b, g) := encodeElem r false entry (fp32.decode (v.extractLsb' (32 * i) 32).toNat)
      (acc.1 + b * 2 ^ (w * i), acc.2 ||| g)) (0, 0#6)
    (cellsOf (spadAddr c a) (2 * w) n, f)

end Sys2Proof.Machine
end

