-- ==== Sys2Proof/Machine/Access.lean ====
section
/-! DEFINITION. How an access reaches memory: the ranges of R20 to R23, translation (R189), bank errors
(R188), full/empty bits and Handoff (R197 to R199), the combining buffer (R226 to R228), packets and their
return (R192, R193, R217, R218). -/

set_option Elab.async false

namespace Sys2Proof.Machine

/-! ### Ranges (R20 to R23) -/

/-- Where an address lies for the issuing core. Every memory place carries the address's global form. -/
inductive Place where
  | own (a : Nat)                  -- the local window
  | spad (a : Nat)                 -- a global scratchpad of this module
  | carafe (a : Nat)
  | tier (a : Nat)
  | q0 | q2                        -- the aliases of the engine window
  | remote (rank : Peer) (a : Nat) -- another rank
  | bad
  deriving DecidableEq, Repr

/-- Place of an address of the local layout, without the local and engine windows (DESIGN CHOICE 21). -/
def globalPlace (a : Nat) : Place :=
  if isSpad a then .spad a else if isCarafe a then .carafe a else if isTier a then .tier a else .bad

/-- VALID of a rank-table entry. -/
def rankValid (e : Word) : Bool := e.getLsbD 63

/-- STATE of a rank-table entry: 0 up, 1 dark, 2 unreachable. -/
def rankState (e : Word) : Nat := (e.extractLsb' 61 2).toNat

/-- Place of an address for a core and a job (R20 to R23) (DESIGN CHOICE 21). -/
def State.place (s : State) (core : Nat) (job : BitVec 32) (a : Word) : Place :=
  if a.getLsbD 63 then .bad
  else if a.getLsbD 62 then
    let k : Peer := { job := job, rank := a.extractLsb' 56 6 }
    let l := (a.extractLsb' 0 56).toNat
    match globalPlace l with
    | .bad => .bad
    | p => if !rankValid (s.rankEntry k) then .bad else if s.isOwn k then p else .remote k (rankAddr k l)
  else if a.toNat < spadSize then .own (spadAddr core a.toNat)
  else if a.toNat < spadSize + 0x40 then .q0
  else if a.toNat < spadSize + 0x80 then .q2
  else globalPlace a.toNat

/-- The global form of a memory place. -/
def Place.addr? : Place → Option Nat
  | .own a | .spad a | .carafe a | .tier a | .remote _ a => some a
  | _ => none

/-- Whether a place lies in a scratchpad (R197). -/
def Place.isScratch : Place → Bool
  | .own _ | .spad _ => true
  | .remote _ a => isSpad (a % 2 ^ 56)
  | _ => false

/-- An address lies in a page. -/
def pageHolds (p : PageRec) (a : Nat) : Bool := decide (p.base ≤ a) && decide (a < p.base + p.size)

/-- A page that holds an address, of whatever job: pages of two jobs at one address are one place of memory (DESIGN CHOICE 96). -/
def State.pageAt (s : State) (a : Nat) : Option PageRec := s.pages.find? (pageHolds · a)

/-- Class of destination whose order R218 keeps: a core, a Carafe or a die, of a rank. -/
def destKey (s : State) (a : Nat) : Nat :=
  let l := a % 2 ^ 56
  let base := a / 2 ^ 56 * 2 ^ 16
  if isSpad l then base + spadCore l
  else if isCarafe l then base + 0x2000 + carafeCluster l
  else base + 0x3000 + match s.pageAt l with
    | some p => p.home.toNat
    | none => 0

/-! ### Latency (R191, R219, R246) -/

/-- Runs of up to eight routers, and the edge, along one dimension (R219) (DESIGN CHOICE 23). -/
def legCycles (edge a b : Nat) : Nat :=
  let lo := min a b
  let hi := max a b
  if lo < edge ∧ edge ≤ hi then (edge - 1 - lo + 7) / 8 + (hi - edge + 7) / 8 + 6 else (hi - lo + 7) / 8

/-- Mesh column of a cluster number (R18). -/
def meshCol (n : Nat) : Nat := 16 * (n / 128 % 2) + n % 16

/-- Mesh row of a cluster number (R18). -/
def meshRow (n : Nat) : Nat := 8 * (n / 256) + n % 128 / 16

/-- Unloaded one-way latency of b bytes between clusters (R219). -/
def meshLatency (n m b : Nat) : Nat :=
  4 + legCycles 16 (meshCol n) (meshCol m) + legCycles 8 (meshRow n) (meshRow m)
    + (if meshCol n ≠ meshCol m ∧ meshRow n ≠ meshRow m then 1 else 0) + ((b + 63) / 64 - 1)

/-- Bounds of an access to a cluster of this module (R191). -/
def clusterRange (n m : Nat) : Nat × Nat :=
  if n = m then (20, 20) else if n / 128 = m / 128 then (24, 44) else (60, 100)

/-- Keatin hops to a rank: the distance of the coordinates in the rank table, at least one (R220, R246) (DESIGN CHOICE 23). -/
def State.hops (s : State) (rank : Peer) : Nat :=
  let (e, o) := (s.rankEntry rank, s.rankEntry { rank with rank := s.ownRank rank.job })
  let apart := fun (a b : Nat) => max a b - min a b
  max 1 (apart (e.extractLsb' 0 8).toNat (o.extractLsb' 0 8).toNat + apart (e.extractLsb' 8 8).toNat (o.extractLsb' 8 8).toNat)

/-- Bounds of a round trip to a rank: 0.45 to 0.80 µs at one hop and 0.20 to 0.30 µs for each further one (R246). -/
def State.rankRange (s : State) (rank : Peer) : Nat × Nat := (563 + 250 * (s.hops rank - 1), 1000 + 375 * (s.hops rank - 1))

/-- Unloaded bounds of an access from a core, in cycles to its completion (R191, R246) (DESIGN CHOICE 23). -/
def State.accessRange (s : State) (core : Nat) (a : Nat) : Nat × Nat :=
  let n := coreCluster core
  if 2 ^ 62 ≤ a then s.rankRange (addrPeer a)
  else if isSpad a then (if spadCore a = core then (16, 20) else clusterRange n (coreCluster (spadCore a)))
  else if isCarafe a then clusterRange n (carafeCluster a)
  else match s.pageAt a with
    | some p => (if p.home.toNat = coreDie core then 90 else 130, if p.tier2 then 1500 else 320)
    | none => (90, 1500)

/-- One-way time of a packet to the owner of an address (DESIGN CHOICE 23). -/
def State.oneWay (s : State) (core a b total : Nat) : Nat :=
  if 2 ^ 62 ≤ a then total / 2
  else
    let m := if isSpad a then coreCluster (spadCore a) else if isCarafe a then carafeCluster a
      else 128 * (destKey s a % 4)
    min (meshLatency (coreCluster core) m b) (total - 1)

/-! ### Ordered paths (R217, R218) -/

/-- Node of a core of a rank among the destinations of R218. -/
def State.coreNode (s : State) (rank : Peer) (c : Nat) : Nat := if s.isOwn rank then c else rankAddr rank 0 / 2 ^ 56 * 2 ^ 16 + c

/-- The cycle at which the latest packet on an ordered path arrives. -/
def State.pathArrival (s : State) (src dst : Nat) : Nat :=
  (s.paths.filter fun x => x.1 == src && x.2.1 == dst).foldl (fun m x => max m x.2.2) 0

/-- A packet on the ordered path between two nodes that would arrive in a cycle: it arrives after those before it, and its
parts occupy `extra` cycles more (R218); with the cycle of its arrival (DESIGN CHOICE 23). -/
def State.onPath (s : State) (src dst due extra : Nat) : State × Nat :=
  let d := max due (s.pathArrival src dst)
  ({ s with paths := (src, dst, d + extra) :: s.paths.filter fun x => (x.1 != src || x.2.1 != dst) && decide (s.time ≤ x.2.2) }, d)

/-! ### Errors of a bank or of tiered memory (R188, R190) -/

/-- An access to n bytes meets an uncorrectable granule or a failed parity (DESIGN CHOICE 61). -/
def State.memErr (s : State) (a n : Nat) : Bool :=
  (granulesFrom a n).any fun g => s.eccBad.elem g || s.febBad.elem g

/-- Single-bit errors of the granules are corrected, written back and counted for the house cores (R188) (DESIGN CHOICE 61). -/
def State.scrub (s : State) (a n : Nat) : State :=
  if s.eccOne.isEmpty then s
  else
    let hit := fun (g : Nat) => (granulesFrom a n).elem g
    let count := fun (u : State) (g : Nat) =>
      if isSpad (16 * g) then u.modCore (spadCore (16 * g)) fun k => { k with corrected := k.corrected + 1 } else u
    { (s.eccOne.filter hit).foldl count s with eccOne := s.eccOne.filter fun g => !hit g }

/-- Whole granules written: their checks are rebuilt (DESIGN CHOICE 61). -/
def State.rebuild (s : State) (a n : Nat) : State :=
  let keep := fun g => !(granulesFrom a n).elem g
  { s with eccOne := s.eccOne.filter keep, eccBad := s.eccBad.filter keep, febBad := s.febBad.filter keep }

/-! ### The inbox ring is not stored to (R250) -/

/-- Capacity C of an inbox in bytes (R250). -/
def Core.inboxCap (k : Core) : Nat :=
  let size := (k.inboxs.extractLsb' 0 16).toNat
  let base := (k.inboxb.extractLsb' 4 15).toNat
  if spadSize < (base + size) * 16 then 0 else size * 16

/-- First byte of an inbox's ring in the local window. -/
def Core.inboxBase (k : Core) : Nat := 16 * (k.inboxb.extractLsb' 4 15).toNat

/-- n bytes from a global address meet the ring of an enabled inbox of this module. -/
def State.hitsInbox (s : State) (a n : Nat) : Bool :=
  isSpad a &&
    let k := s.core (spadCore a)
    let o := spadOff a
    decide (0 < k.inboxCap) && decide (o < k.inboxBase + k.inboxCap) && decide (k.inboxBase < o + n)

/-! ### Atomics (R213) -/

/-- The value an atomic writes over `old`, of width w bits; none when `cas` does not write. -/
def amoNew (op : AmoOp) (w : Nat) (old b e : Nat) : Option Nat :=
  let so := laneInt true w old
  let sb := laneInt true w b
  let m := 2 ^ w
  match op with
  | .add => some ((old + b) % m)
  | .and => some (Nat.land old (b % m))
  | .or => some (Nat.lor old (b % m))
  | .xor => some (Nat.xor old (b % m))
  | .min => some (if so < sb then old else b % m)
  | .max => some (if sb < so then old else b % m)
  | .minu => some (if old < b % m then old else b % m)
  | .maxu => some (if b % m < old then old else b % m)
  | .swap => some (b % m)
  | .cas => if old = e % m then some (b % m) else none

/-- n bytes as a register value: sign-extended or zero-extended (R136). -/
def extendBytes (n : Nat) (signed : Bool) (v : Nat) : Word :=
  if signed then BitVec.ofInt 64 (laneInt true (8 * n) v) else BitVec.ofNat 64 v

/-! ### Performing at the owner -/

/-- The lanes of a gather. -/
def gatherLanes (m : Mem) (b : Nat) : List Nat → Nat → VWord
  | [], _ => 0#512
  | a :: l, i => (BitVec.ofNat 512 (readBytes m a b) <<< (8 * b * i)) ||| gatherLanes m b l (i + 1)

/-- Memory after a scatter, lowest lane first (R283). -/
def scatterLanes (m : Mem) (b : Nat) (data : VWord) : List Nat → Nat → Mem
  | [], _ => m
  | a :: l, i => scatterLanes (writeBytes m a b (data.extractLsb' (8 * b * i) (8 * b)).toNat) b data l (i + 1)

/-- Bytes of an element (R93). -/
def elBytes : El → Nat
  | .four => 4
  | .eight => 8

/-- Address and length of each piece of memory that an access touches, from its global address (DESIGN CHOICE 46). -/
def Access.pieces (a : Nat) : Access → List (Nat × Nat)
  | .load _ w _ _ => [(a, w)]
  | .store w _ => [(a, w)]
  | .amo _ _ w _ _ => [(a, w)]
  | .vload _ => [(a, 64)]
  | .vstore _ => [(a, 64)]
  | .vgather _ el l => l.map fun x => (x, elBytes el)
  | .vscatter el l _ => l.map fun x => (x, elBytes el)
  | .sync x => match x.shape with
    | .scalarLoad _ | .scalarStore _ => [(x.addr, 8)]
    | _ => [(x.addr / 64 * 64, 64)]
  | .feSet | .feClr | .feTst _ => [(a, 1)]
  | .flush l => l.map fun x => (x.1, 1)
  | .request _ _ => []

/-- Whether an access writes memory. -/
def Access.writes : Access → Bool
  | .store _ _ | .amo _ _ _ _ _ | .vstore _ | .vscatter _ _ _ | .flush _ => true
  | .sync x => x.op == .fill || x.op == .over
  | _ => false

/-- Whether an access returns data. -/
def Access.returns : Access → Bool
  | .load _ _ _ _ | .amo _ _ _ _ _ | .vload _ | .vgather _ _ _ | .feTst _ => true
  | .sync x => x.op == .keep || x.op == .take
  | _ => false

/-- The register that an access's data goes to, as a scalar or a vector register. -/
def Access.dest : Access → Option Reg × Option VReg
  | .load d _ _ _ | .amo _ d _ _ _ | .feTst d => (some d, none)
  | .vload d | .vgather d _ _ => (none, some d)
  | .sync x => match x.shape with
    | .scalarLoad d => (some d, none)
    | .vecLoad d | .vecDecode d _ _ => (none, some d)
    | _ => (none, none)
  | _ => (none, none)

/-- The access writes whole granules, whose checks are rebuilt (R188). -/
def Access.whole : Access → Bool
  | .vstore _ => true
  | _ => false

/-- The cause code with which an access fails at the owner: a store to an inbox ring, or an uncorrectable error (R188, R250).
An `fe.*` form on a granule whose data cannot be corrected fails too, and leaves the bit (DESIGN CHOICE 88). -/
def State.accessFault (s : State) (a : Nat) (acc : Access) : Option (BitVec 8) :=
  let ps := acc.pieces a
  if acc.writes && ps.any fun p => s.hitsInbox p.1 p.2 then some cACCESSFAULT
  else if !acc.whole && ps.any fun p => s.memErr p.1 p.2 then some cMEMERR
  else none

/-- An access performed at the owner of its bytes: the state after it, and its data or the cause code it
fails with (R188, R213, R250) (DESIGN CHOICE 21, DESIGN CHOICE 88). -/
def State.performAt (s : State) (a : Nat) (acc : Access) : State × Except (BitVec 8) VWord :=
  match s.accessFault a acc with
  | some c => (s, .error c)
  | none =>
      let s := if acc.whole then s.rebuild a 64 else (acc.pieces a).foldl (fun u p => u.scrub p.1 p.2) s
      match acc with
      | .load _ w _ _ => (s, .ok (BitVec.ofNat 512 (readBytes s.mem a w)))
      | .store w d => ({ s with mem := writeBytes s.mem a w d.toNat }, .ok 0#512)
      | .amo op _ w b e =>
        let old := readBytes s.mem a w
        match amoNew op (8 * w) old b.toNat e.toNat with
        | some n => ({ s with mem := writeBytes s.mem a w n }, .ok (BitVec.ofNat 512 old))
        | none => (s, .ok (BitVec.ofNat 512 old))
      | .vload _ => (s, .ok (BitVec.ofNat 512 (readBytes s.mem a 64)))
      | .vstore d => ({ s with mem := writeBytes s.mem a 64 d.toNat }, .ok 0#512)
      | .vgather _ el l => (s, .ok (gatherLanes s.mem (elBytes el) l 0))
      | .vscatter el l d => ({ s with mem := scatterLanes s.mem (elBytes el) d l 0 }, .ok 0#512)
      | .flush l => ({ s with mem := writeCells s.mem l }, .ok 0#512)
      | .feTst _ => (s, .ok (if s.isFull (a / 16) then 1#512 else 0#512))
      | .feSet => ({ s with full := setInsert (a / 16) s.full }, .ok 0#512)
      | .feClr => ({ s with full := setErase (a / 16) s.full }, .ok 0#512)
      | .sync _ | .request _ _ => (s, .ok 0#512)

/-- Parts in which an access is performed: the granules of 64 bytes, the lanes of a gather or a scatter (R196). -/
def Access.parts : Access → Nat
  | .vload _ | .vstore _ => 4
  | .vgather _ _ l | .vscatter _ l _ => max 1 l.length
  | _ => 1

/-- One part of an access: its address, and what is performed there as an access of its own. -/
def Access.part (a n : Nat) : Access → Nat × Access
  | .vload d => (a + 16 * n, .vgather d .eight [a + 16 * n, a + 16 * n + 8])
  | .vstore v => (a + 16 * n, .flush (cellsOf (a + 16 * n) 16 (v.extractLsb' (128 * n) 128).toNat))
  | .vgather d el l => (a, .vgather d el ((l.drop n).take 1))
  | .vscatter el l v => (a, .vscatter el ((l.drop n).take 1) (v >>> (8 * elBytes el * n)))
  | x => (a, x)

/-- Bits that one part of an access reads. -/
def Access.partBits : Access → Nat
  | .vload _ => 128
  | .vgather _ el _ => 8 * elBytes el
  | _ => 0

/-- One part of an access performed at the owner; what the first part meets fails the whole (R188, R196) (DESIGN CHOICE 9). -/
def State.performPart (s : State) (a : Nat) (acc : Access) (n : Nat) : State × Except (BitVec 8) VWord :=
  if acc.parts = 1 then s.performAt a acc
  else match (if n = 0 then s.accessFault a acc else none) with
    | some c => (s, .error c)
    | none =>
      let (b, x) := acc.part a n
      match (if acc.whole then s.rebuild b 16 else s).performAt b x with
      | (s1, .ok v) => (s1, .ok (v <<< (acc.partBits * n)))
      | r => r

/-- The thread with an access's data in its destination (R205, R206, R213). -/
def Thread.takeData (t : Thread) (acc : Access) (v : VWord) : Thread :=
  match acc with
  | .load d w signed lcon => t.setReg d (extendBytes w signed (v.toNat % 2 ^ (8 * w))) lcon
  | .amo _ d w _ _ => t.setReg d (extendBytes w true (v.toNat % 2 ^ (8 * w))) false
  | .feTst d => t.setReg d (v.setWidth 64) false
  | .vload d | .vgather d _ _ => t.memV d v
  | .sync x => match x.shape with
    | .scalarLoad d => t.setReg d (v.setWidth 64) false
    | .vecLoad d | .vecDecode d _ _ => t.memV d v
    | _ => t
  | _ => t

/-- The thread with the return of an access at an address that it did not wait for: what later vector instructions wrote stands
(R193), and an `fe.set` fulfils now (R203). -/
def Thread.takeLate (t : Thread) (start a : Nat) (acc : Access) (v : VWord) : Thread :=
  match acc with
  | .vload d | .vgather d _ _ => t.memVFrom start d v
  | .feSet => t.fulfil (.granule (a / 16))
  | x => t.takeData x v

/-! ### Synchronising accesses and Handoff (R198, R199, R209) -/

/-- The granules meet the access's need (R198). -/
def State.syncMet (s : State) (a : SyncAccess) : Bool :=
  if a.needsFull then a.granules.all s.isFull else a.granules.all fun g => !s.isFull g

/-- A synchronising access served: its data, the bits of its granules and its flags (R209, R282, R284). -/
def State.serveSync (s : State) (a : SyncAccess) : State × VWord × Flags :=
  let line := a.addr / 64 * 64
  let (v, f) : VWord × Flags := match a.shape with
    | .scalarLoad _ => (BitVec.ofNat 512 (readBytes s.mem a.addr 8), 0#6)
    | .vecLoad _ => (BitVec.ofNat 512 (readBytes s.mem line 64), 0#6)
    | .vecDecode _ o r => decodeUnit s.mem (spadCore a.addr) r o
    | .vecEncode _ fl => (0#512, fl)
    | _ => (0#512, 0#6)
  let mem := match a.shape with
    | .scalarStore d => writeBytes s.mem a.addr 8 d.toNat
    | .vecStore d => writeBytes s.mem line 64 d.toNat
    | .vecEncode l _ => writeCells s.mem l
    | _ => s.mem
  let full := match a.op with
    | .take => a.granules.foldl (fun l g => setErase g l) s.full
    | .fill => a.granules.foldl (fun l g => setInsert g l) s.full
    | _ => s.full
  ({ s with mem := mem, full := full }, v, f)

/-- Promises that a served access fulfils: the granules it left full (R203). -/
def Thread.fulfilSync (t : Thread) (a : SyncAccess) : Thread :=
  if a.op = .fill then a.granules.foldl (fun u g => u.fulfil (.granule g)) t else t

/-- Flags of a completion whose signal granule a thread of the issuing group has had served (R310). -/
def State.consumeSignal (s : State) (tid : Nat) (a : SyncAccess) : State :=
  match s.thread? tid with
  | none => s
  | some t =>
    if a.op = .keep ∨ a.op = .take then
      a.granules.foldl (fun u g =>
        let c := spadCore (g * 16)
        match (u.core c).signals.find? fun e => e.1 == g && e.2.1 == t.group with
        | some e => (u.modCore c fun k => { k with signals := k.signals.filter (· != e) }).mergeFlags t.group e.2.2
        | none => u) s
    else s

/-- The thread whose synchronising access has been served: data, flags and retirement. -/
def State.finishSync (s : State) (tid : Nat) (t : Thread) (a : SyncAccess) (v : VWord) (f : Flags) (extra : Nat) : State :=
  let u := (t.takeData (.sync a) v).orFlags f
  s.finish tid { u with readyAt := max u.readyAt (s.time + extra) } (t.pc + 4#64) false 0

/-- The reply to a synchronising access has come back: the thread goes on. -/
def State.completeSync (s : State) (tid : Nat) (t : Thread) (a : SyncAccess) (v : VWord) (f : Flags) : State :=
  (s.finishSync tid (t.fulfilSync a) a v f 0).consumeSignal tid a

/-- A sleeping thread has been served: its promise is fulfilled now, its register is written two cycles later, and it is ready
three cycles later (R199). -/
def State.serveSleeper (s : State) (tid : Nat) (t : Thread) (a : SyncAccess) (v : VWord) (f : Flags) : State :=
  let w := t.wait.map fun w => { w with what := .served a v f, limit := none }
  ((s.setThread tid { t.fulfilSync a with wait := w }).consumeSignal tid a).schedule (s.time + 2) (.syncWritten (BitVec.ofNat 16 tid))

/-- The register of a served sleeper is written, and its instruction retires (R199). -/
def State.syncWritten (s : State) (tid : Nat) : State :=
  match s.thread? tid with
  | some t => match t.wait with
    | some w => match w.what with
      | .served a v f => s.finishSync tid t a v f 1
      | _ => s
    | none => s
  | none => s

/-- A waiter of a granule: a sleeping local thread or a parked packet, with its place in the order. -/
inductive Waiter where
  | local (tid : Nat) (a : SyncAccess)
  | parked (p : Packet) (a : SyncAccess)
  deriving DecidableEq, Repr

/-- The satisfiable waiters of a granule, each with its order (R198) (DEDUCED 22). -/
def State.waitersOf (s : State) (g : Nat) : List (Nat × Waiter) :=
  (s.threads.filterMap fun x => match x.2.wait, x.2.run with
    | some w, .live => match w.what with
      | .sync a =>
        if a.granules.elem g && s.syncMet a && s.mayServe x.1 (serveKey (s.ownRank x.2.job) (.granule g)) then some (w.order, .local x.1 a) else none
      | _ => none
    | _, _ => none)
  ++ s.packets.filterMap fun p => match p.acc with
    | .sync a =>
      if p.parked && a.granules.elem g && s.syncMet a && s.mayServe p.tid.toNat (serveKey (s.ownRank (s.jobOf p.tid.toNat)) (.granule g)) then
        some (p.order, .parked p a)
      else none
    | _ => none

/-- The entry with the least order. -/
def oldest {α : Type} : List (Nat × α) → Option α
  | [] => none
  | x :: l => some (l.foldl (fun (m : Nat × α) y => if y.1 < m.1 then y else m) x).2

/-- A packet of the list replaced by its image. -/
def State.modPacket (s : State) (id : Nat) (f : Packet → Packet) : State :=
  { s with packets := mapFirst (fun p => p.id == id) f s.packets }

/-- The reply to a packet is on its way back to the issuer. -/
def State.replyTo (s : State) (p : Packet) (r : Except (BitVec 8) VWord) : State :=
  let s0 := s.modPacket p.id fun q => { q with
    parked := false
    held := false
    reply := match r with | .ok v => some v | .error _ => none
    fail := match r with | .ok _ => none | .error c => some c }
  let due0 := max (s.time + 1) (if p.parked then s.time + p.total / 2 else p.issued + p.total)
  let (s1, due) := if p.ordered then s0.onPath (destKey s p.addr) p.core.toNat due0 0 else (s0, due0)
  s1.schedule due (if p.cls = .posted then .postedAck p.id
    else if p.acc.returns then .loadDataReturn p.id else .storeAcknowledge p.id)

/-- The granules of a waiter's access. -/
def Waiter.granules : Waiter → List Nat
  | .local _ a | .parked _ a => a.granules

/-- The thread of a waiter. -/
def Waiter.tid : Waiter → Nat
  | .local tid _ => tid
  | .parked p _ => p.tid.toNat

/-- One waiter served (R198, R199). -/
def State.serveWaiter (s : State) : Waiter → State
  | .local tid a =>
    match s.thread? tid with
    | none => s
    | some t =>
      if a.granules.any fun g => s.memErr (g * 16) 16 then s.trapWaited tid t cMEMERR (BitVec.ofNat 64 (spadOff a.addr))
      else
        let (s1, v, f) := (a.granules.foldl (fun u x => u.scrub (x * 16) 16) s).serveSync a
        s1.serveSleeper tid t a v f
  | .parked p a =>
    if a.granules.any fun g => s.memErr (g * 16) 16 then s.replyTo p (.error cMEMERR)
    else
      let (s1, v, _) := (a.granules.foldl (fun u x => u.scrub (x * 16) 16) s).serveSync a
      s1.replyTo p (.ok v)

/-- A granule's Handoff goes on in the next cycle while a waiter on it can be served (R198) (DEDUCED 22). -/
def State.handoff (s : State) (g : Nat) : State :=
  if (s.waitersOf g).isEmpty then s else s.scheduleOnce (s.time + 1) (.handoff g)

/-- Handoff after a change of the bits of some granules: threads that now meet a withheld granule halt (R198, R202) (DEDUCED 22). -/
def State.handoffAll (s : State) (l : List Nat) : State := (l.foldl State.handoff s).settleWithheld

/-- One serve of a granule's Handoff: the oldest waiter that can be served; what it changes goes on in the next cycle (R198) (DEDUCED 22). -/
def State.serveNext (s : State) (g : Nat) : State :=
  match oldest (s.waitersOf g) with
  | some w => ((s.countServe w.tid (serveKey (s.ownRank (s.jobOf w.tid)) (.granule g))).serveWaiter w).handoffAll (g :: w.granules)
  | none => s

/-- A synchronising access can be served at once: its granules meet its need, and no waiter that could be served stands before
it (R198). -/
def State.servedAtOnce (s : State) (a : SyncAccess) : Bool := s.syncMet a && a.granules.all fun g => (s.waitersOf g).isEmpty

/-! ### Translation (R189) -/

/-- The page of a job's page table that holds a tiered address. -/
def State.pageOf (s : State) (job : BitVec 32) (a : Nat) : Option PageRec :=
  s.pages.find? fun p => p.job == job && pageHolds p a

/-- Outcome of a translation: the page, a miss that starts a walk, or a replayable fault. -/
inductive Xlate where
  | hit (p : PageRec)
  | miss
  | fault
  deriving DecidableEq, Repr

/-- The translation cache of a core holds a page (R189). -/
def State.cached (s : State) (core : Nat) (p : PageRec) : Bool := (s.core core).tlb.elem (p.job, p.base)

/-- Translation of a tiered address of a job by a core (R189) (DEDUCED 19). -/
def State.translate (s : State) (core : Nat) (job : BitVec 32) (a : Nat) (write : Bool) : Xlate :=
  match s.pageOf job a with
  | none => .miss
  | some p =>
    if s.cached core p then (if (if write then p.w else p.r) then .hit p else .fault) else .miss

/-- The translation cache with a page most recently used, of at most 64 entries (R189). -/
def touchTlb (p : PageRec) (l : List (BitVec 32 × Nat)) : List (BitVec 32 × Nat) :=
  ((p.job, p.base) :: l.filter (· != (p.job, p.base))).take 64

/-- The translation cache after a lookup of an address that it holds: every hit counts as a use (R189). -/
def State.useTlb (s : State) (core : Nat) (job : BitVec 32) (a : Nat) : State := match s.pageOf job a with
  | some p => if s.cached core p then s.modCore core fun k => { k with tlb := touchTlb p k.tlb } else s
  | none => s

/-- A CXL fault keeps the page of an address from service (R190). -/
def State.cxlFault (s : State) (a : Nat) : Bool :=
  s.pages.any fun p => p.tier2 && pageHolds p a && s.cxlBad.elem p.base

/-- Key of a refusal for one thread's latched address (DEDUCED 19). -/
def refusalKey (tid a : Nat) : Nat := tid * 2 ^ 64 + a

/-- An address lies in capacity that has gone, and no page of the job maps it (R435) (DEDUCED 19). -/
def State.gone (s : State) (job : BitVec 32) (a : Nat) : Bool :=
  (s.pageOf job a).isNone && s.released.any fun r => decide (r.1 ≤ a) && decide (a < r.1 + r.2)

/-- An address that the house cores have refused raises its fault, once, and one whose capacity has gone raises it always:
ACCESSFAULT, or FETCHBOUND on a fetch (R171, R189, R435) (DEDUCED 19). -/
def State.orRefused (s : State) (tid : Nat) (t : Thread) (a : Nat) (code : BitVec 8) (other : State) : State :=
  if s.gone t.job a then s.trap tid t code (BitVec.ofNat 64 a)
  else if s.refused.elem (refusalKey tid a) then
    { s with refused := s.refused.filter (· != refusalKey tid a) }.trap tid t code (BitVec.ofNat 64 a)
  else other

/-- The thread waits for a walk of the page table. -/
def State.beginWalk (s : State) (tid : Nat) (t : Thread) (a : Nat) : State :=
  s.orRefused tid t a cACCESSFAULT ((s.await tid t (.walk a) none 0#64).schedule (s.time + s.pick 100 400)
    (.translationWalk (BitVec.ofNat 12 (tidCore tid)) { job := t.job, addr := BitVec.ofNat 64 a }))

/-- A replayable fault: the instruction is latched until the house cores map the page, and raises an access
fault when they have refused it (R189) (DEDUCED 66). -/
def State.latch (s : State) (tid : Nat) (t : Thread) (a : Nat) : State :=
  s.orRefused tid t a cACCESSFAULT (s.await tid t (.latched a) none 0#64)

/-- The first of a list of tiered addresses that does not translate, with its outcome; none when all do. -/
def State.firstMiss (s : State) (core : Nat) (job : BitVec 32) (write : Bool) : List Nat → Option (Nat × Xlate)
  | [] => none
  | a :: l => match s.translate core job a write with
    | .hit _ => s.firstMiss core job write l
    | x => some (a, x)

/-- The translation cache after the lookups of a list of addresses, up to the first that misses (R189). -/
def State.useTlbs (s : State) (core : Nat) (job : BitVec 32) (write : Bool) : List Nat → State
  | [] => s
  | a :: l => match s.translate core job a write with
    | .hit _ => (s.useTlb core job a).useTlbs core job write l
    | _ => s.useTlb core job a

/-! ### Outstanding work of a thread (R192, R193, R229) -/

/-- Packets of a thread. -/
def State.packetsOf (s : State) (tid : Nat) : List Packet := s.packets.filter fun p => p.tid.toNat == tid

/-- An ordinary access is outstanding (R192). -/
def State.ordinaryOut (s : State) (tid : Nat) : Bool :=
  ((s.packetsOf tid).any fun p => p.cls == .ordinary) || match s.thread? tid with
    | some t => decide (s.time < t.ackAt)
    | none => false

/-- Relaxed accesses outstanding (R193). -/
def State.relaxedOut (s : State) (tid : Nat) : Nat :=
  ((s.packetsOf tid).filter fun p => p.cls == .relaxed).length
    + match s.thread? tid with
      | some t => (t.relAcks.filter fun n => decide (s.time < n)).length
      | none => 0

/-- The thread has entries in its core's combining buffer, or flushes not yet acknowledged (R226, R227). -/
def State.combiningOut (s : State) (tid : Nat) : Bool :=
  ((s.core (tidCore tid)).cb.any fun e => e.tid.toNat == tid) || (s.packetsOf tid).any fun p => p.cls == .combining

/-- Two byte ranges meet. -/
def rangesMeet (a n b m : Nat) : Bool := decide (a < b + m) && decide (b < a + n)

/-- An earlier access of the thread to bytes of the range is still outstanding (R193). -/
def State.overlapOut (s : State) (tid a n : Nat) : Bool :=
  (s.packetsOf tid).any fun p => (p.acc.pieces p.addr).any fun q => rangesMeet a n q.1 q.2

/-- The same, but for the flush of an entry of the combining buffer itself. -/
def State.overlapBesides (s : State) (tid a n id : Nat) : Bool :=
  (s.packetsOf tid).any fun p => p.id != id && (p.acc.pieces p.addr).any fun q => rangesMeet a n q.1 q.2

/-! ### The combining buffer (R226 to R228) -/

/-- A packet of a thread's access before it leaves. -/
def Packet.new (id tid core group : Nat) (pc : Word) (a : Nat) (acc : Access) (cls : AccClass) (ordered : Bool) (units now total : Nat)
    (evals : List Word) : Packet :=
  { id := id, tid := BitVec.ofNat 16 tid, core := BitVec.ofNat 12 core, group := group, pc := pc, addr := a, acc := acc, cls := cls
    ordered := ordered, escape := false, units := units, start := now, issued := now, total := total, sent := false, parked := false
    order := 0, held := false, retry := false, part := 0, data := 0#512, reply := none, fail := none, evals := evals, failAt := 0 }

/-- An entry is being flushed: its packet exists. -/
def State.flushing (s : State) (e : CbEntry) : Bool := s.packets.any fun p => p.id == e.id

/-- The flush of an entry: its valid bytes leave as one write on the ordered path; `start` keeps the cycle of the latest store
(R226, R409). -/
def State.flushEntry (s : State) (core : Nat) (e : CbEntry) : State :=
  if s.flushing e then s
  else
    let r := s.accessRange core e.block
    let g := match s.thread? e.tid.toNat with | some t => t.group | none => 0
    let pc := match s.thread? e.tid.toNat with | some t => t.pc | none => 0#64
    let p := { Packet.new e.id e.tid.toNat core g pc e.block (.flush e.bytes) .combining true 1 s.time (s.pick r.1 r.2) [] with start := e.last }
    { s.bump with packets := s.packets ++ [p] }.schedule s.time (.packetInject p.id)

/-- Every entry of a thread that satisfies a condition is flushed. -/
def State.flushThread (s : State) (tid : Nat) (p : CbEntry → Bool) : State :=
  (s.core (tidCore tid)).cb.foldl (fun u e => if e.tid.toNat == tid && p e then u.flushEntry (tidCore tid) e else u) s

/-- The entry of a thread for a block: it stays in the buffer until its flush is injected (R226). -/
def State.cbEntry? (s : State) (tid block : Nat) : Option CbEntry :=
  (s.core (tidCore tid)).cb.find? fun e => e.tid.toNat == tid && e.block == block

/-- The bytes of an entry cover a range. -/
def CbEntry.covers (e : CbEntry) (a n : Nat) : Bool :=
  (List.range n).all fun i => e.bytes.any fun b => b.1 == a + i

/-- An entry meets a range. -/
def CbEntry.meets (e : CbEntry) (a n : Nat) : Bool := e.bytes.any fun b => decide (a ≤ b.1) && decide (b.1 < a + n)

/-- The value of n covered bytes of an entry. -/
def CbEntry.value (e : CbEntry) (a : Nat) : Nat → Nat
  | 0 => 0
  | n + 1 => (match e.bytes.find? fun b => b.1 == a with | some b => b.2.toNat | none => 0) + 256 * e.value (a + 1) n

/-- Bytes merged into an entry's bytes: later bytes replace earlier ones. -/
def mergeCells (old new : List (Nat × Byte)) : List (Nat × Byte) :=
  new.foldl (fun l b => assocSet b.1 b.2 l) old

/-- A relaxed store enters the combining buffer (R226); none when no entry is free yet. -/
def State.combine (s : State) (tid : Nat) (cells : List (Nat × Byte)) (block : Nat) : State × Bool :=
  let c := tidCore tid
  match s.cbEntry? tid block with
  | some e =>
    let e' := { e with bytes := mergeCells e.bytes cells, last := s.time }
    let s0 := s.modCore c fun k => { k with cb := mapFirst (fun x => x.id == e.id) (fun _ => e') k.cb }
    let s1 := s0.modPacket e.id fun p => { p with acc := .flush e'.bytes, start := s.time }
    (if e'.bytes.length = 16 then s1.flushEntry c e' else s1, true)
  | none =>
    if (s.core c).cb.length < Config.combiningEntries then
      let e : CbEntry := { id := s.fresh, tid := BitVec.ofNat 16 tid, block := block, bytes := cells, last := s.time }
      let s1 := { s.modCore c fun k => { k with cb := k.cb ++ [e] } with fresh := s.fresh + 1 }
      (s1.schedule (s.time + 64) (.cbTimeoutFlush (BitVec.ofNat 12 c) e.id), true)
    else match (s.core c).cb.find? fun e => !s.flushing e with
      | some e => (s.flushEntry c e, false)
      | none => (s, false)

/-! ### Unreachable targets (R22, R230, R237) -/

/-- A core id that names no architectural core (R12, R22). -/
def State.lostCore (s : State) (a : Nat) : Bool := isSpad a && (s.core (spadCore a)).lost

/-- The target of a place is unreachable. -/
def State.unreachable (s : State) : Place → Bool
  | .own a | .spad a => s.lostCore a
  | .remote k _ => rankState (s.rankEntry k) == 2
  | _ => false

/-- An address lies on another rank, this one. -/
def onPeer (a : Nat) (p : Peer) : Bool := decide (2 ^ 62 ≤ a) && addrPeer a == p

/-- An address of a job lies on a rank of it, which may be this module. -/
def State.onRank (s : State) (a : Nat) (p : Peer) : Bool := if 2 ^ 62 ≤ a then addrPeer a == p else s.isOwn p

/-- Rank of an address of a job. -/
def State.rankOf (s : State) (job : BitVec 32) (a : Nat) : BitVec 6 := if 2 ^ 62 ≤ a then (addrPeer a).rank else s.ownRank job

/-- A posted or relaxed store of a group to an address completed UNREACHABLE (R230). -/
def State.fabricStatus (s : State) (g : Nat) (a : Nat) : State :=
  s.modGroup g fun x => { x with unrcnt := if x.unrcnt = 255#8 then x.unrcnt else x.unrcnt + 1#8, ulast := s.rankOf x.job a }

/-- The rank that a message goes to. -/
def OutMsg.peer (m : OutMsg) : Peer := { job := m.job, rank := m.dest.extractLsb' 16 6 }

/-- Packets of a core held for a dark rank, its messages among them (R237). -/
def State.heldFor (s : State) (core : Nat) (rank : Peer) : Nat :=
  (s.packets.filter fun p => p.held && !p.retry && p.core.toNat == core && onPeer p.addr rank).length
    + ((s.core core).outq.filter fun m => m.2.peer == rank && !s.isOwn rank).length

/-! ### Source regulation (R223) -/

/-- Class of a group (R223). -/
def State.groupClass (s : State) (g : Nat) : Nat := match s.group? g with | some x => x.cls.toNat | none => 0

/-- The core after the injection of a packet of some units in a class; none while its bucket holds too few tokens (R223). -/
def Core.spend (k : Core) (cls units : Nat) : Option Core :=
  let reg := (k.fabqos[cls]?).getD 0#64
  let burst := max 1 (getField reg 24 16)
  let level := (k.fabBucket[cls]?).getD 0
  let left := fun (n : Nat) => some { k with fabBucket := k.fabBucket.setIfInBounds cls n }
  if getField reg 4 16 = 0 then some k
  else if units ≤ level then left (level - units)
  else if burst < units ∧ burst ≤ level then left 0
  else none

/-- The cycle after the next refill of the buckets (R223). -/
def State.nextRefill (s : State) : Nat := (s.time / 1024 + 1) * 1024 + 1

/-- The packet waits at its core's router port. -/
def Packet.waiting (p : Packet) : Bool := !p.sent && !p.held && !p.parked && p.reply.isNone && p.fail.isNone

/-- Packets of a class that wait at a core's port, in the order of their issue. -/
def State.portQueue (s : State) (core cls : Nat) : List Packet :=
  s.packets.filter fun p => p.waiting && p.core.toNat == core && s.groupClass p.group == cls

/-- The next packet that waits at a port tries. -/
def State.wakePort (s : State) (core cls : Nat) : State := match s.portQueue core cls with
  | p :: _ => s.schedule s.time (.packetInject p.id)
  | [] => s

/-- Class of a slot's thread (R223). -/
def State.threadClass (s : State) (tid : Nat) : Nat := match s.thread? tid with | some t => s.groupClass t.group | none => 0

/-- The places, in the order of issue, of what waits at a core's port in a class: the first of its packets, and its messages,
rovers, cancels and markers (R218, R223) (DESIGN CHOICE 24). -/
def State.portOrders (s : State) (core cls : Nat) : List Nat :=
  let mine := fun (tid n : Nat) => if tidCore tid == core && s.threadClass tid == cls && n != 0 then some n else none
  ((s.portQueue core cls).head?.map (·.id)).toList ++ s.timed.filterMap fun t => match t.what with
    | .messageSend tid n => mine tid.toNat n
    | .cancelSend tid _ n => mine tid.toNat n
    | .markerSend c _ k n => if c.toNat == core && k == cls then some n else none
    | .roverSend id => (s.rovers.find? fun r => r.id == id).bind fun r => mine r.last.toNat id
    | _ => none

/-- What waits at a core's port in a class, at a place in its order, leaves: the core after it, or the cycle of the next attempt
(R218, R223). -/
def State.portTry (s : State) (core cls n units : Nat) : Except Nat Core :=
  if (s.portOrders core cls).any fun m => decide (m < n) then .error (s.time + 1)
  else match (s.core core).spend cls units with
    | some k => .ok k
    | none => .error s.nextRefill

/-! ### Issue of an access -/

/-- An access that a thread issues: its address, its pieces' width, what it does, whether `rlx` marks it,
its address register (R194), and the EVAL of its faults. -/
structure MemReq where
  a       : Word
  n       : Nat
  acc     : Access
  relaxed : Bool
  areg    : Reg
  deriving DecidableEq, Repr

/-- A packet leaves a thread; `evals` are the addresses that the instruction gave (R188, R217). -/
def State.sendPacket (s : State) (tid : Nat) (t : Thread) (a bytes : Nat) (acc : Access) (cls : AccClass)
    (ordered : Bool) (evals : List Word) : State × Nat :=
  let r := s.accessRange (tidCore tid) a
  let p := Packet.new (s.fresh + 1) tid (tidCore tid) t.group t.pc a acc cls ordered ((bytes + 63) / 64) s.time (s.pick r.1 r.2) evals
  ({ s with packets := s.packets ++ [p], fresh := s.fresh + 2 }.schedule s.time (.packetInject p.id), p.id)

/-- A store of at most eight bytes that may enter the combining buffer. -/
def Access.combinable : Access → Bool
  | .store _ _ => true
  | _ => false

/-- An atomic. -/
def Access.isAmo : Access → Bool
  | .amo _ _ _ _ _ => true
  | _ => false

/-- The waits of an access before it issues: the ordinary access outstanding, four relaxed accesses, and
earlier accesses to the same bytes (R192, R193, R227, R229). -/
def State.accessWait (s : State) (tid a n : Nat) (relaxed : Bool) : Option Cause :=
  if s.ordinaryOut tid then some .ordinary
  else if relaxed ∧ 4 ≤ s.relaxedOut tid then some .relaxedRoom
  else if s.overlapOut tid a n then some (.overlap a n)
  else none

/-- An access of a thread to one place of at most 64 bytes, its alignment already checked (R205, R239). -/
def State.access (s : State) (tid : Nat) (t : Thread) (q : MemReq) : State :=
  let core := tidCore tid
  let pl := s.place core t.job q.a
  match pl.addr? with
  | none => s.trap tid t cACCESSFAULT q.a
  | some a =>
    if q.acc.writes && (pl == .own a || pl == .spad a) && s.hitsInbox a q.n then s.trap tid t cACCESSFAULT q.a
    else if s.unreachable pl then
      if q.relaxed then
        if q.acc.returns then (s.nextMem tid t true).postEvent tid { code := cFABUNREACH, eval := q.a }
        else (s.nextMem tid t true).fabricStatus t.group a
      else s.trap tid t cFABUNREACH q.a
    else
      let mine := (s.core core).cb.filter fun e => e.tid.toNat == tid && e.meets a q.n
      match mine with
      | e :: _ =>
        if s.ordinaryOut tid then s.retryWhen tid t .ordinary
        else if q.relaxed ∧ 4 ≤ s.relaxedOut tid then s.retryWhen tid t .relaxedRoom
        else if !q.acc.writes && e.covers a q.n then
          s.nextMem tid (t.takeData q.acc (BitVec.ofNat 512 (e.value a q.n))) q.relaxed
        else if q.relaxed && q.acc.combinable && !t.tainted q.areg then
          if s.overlapBesides tid a q.n e.id then s.retryWhen tid t (.overlapBesides a q.n e.id)
          else match q.acc with
          | .store w d => (s.combine tid (cellsOf a w d.toNat) (a / 16 * 16)).1.nextMem tid t true
          | _ => s.nextMem tid t true
        else (s.flushThread tid fun x => x.meets a q.n).retryWhen tid t (.overlap a q.n)
      | [] => match s.accessWait tid a q.n q.relaxed with
        | some c => s.retryWhen tid t c
        | none =>
          match pl with
          | .own _ =>
            match s.performAt a q.acc with
            | (s1, .ok v) =>
              let u := if !q.acc.isAmo then t
                else if q.relaxed then { t with relAcks := (s.time + 10) :: t.relAcks.filter fun n => decide (s.time < n) }
                else { t with ackAt := s.time + 10 }
              s1.nextMem tid (u.takeData q.acc v) q.relaxed
            | (s1, .error c) => s1.trap tid t c q.a
          | .tier _ =>
            match s.translate core t.job a q.acc.writes with
            | .miss => s.beginWalk tid t a
            | .fault => (s.useTlb core t.job a).latch tid t a
            | .hit _ =>
              let u := s.useTlb core t.job a
              if s.cxlFault a && !q.relaxed then u.latch tid t a else launchPacket u tid t q a
          | .remote k _ =>
            if rankState (s.rankEntry k) = 1 ∧ 32 ≤ s.heldFor core k then s.retryWhen tid t (.dark k.rank)
            else if q.relaxed && q.acc.combinable && !t.tainted q.areg then enterBuffer s tid t q a
            else launchPacket s tid t q a
          | _ =>
            if q.relaxed && q.acc.combinable && !t.tainted q.areg then enterBuffer s tid t q a
            else launchPacket s tid t q a
where
  /-- A relaxed store enters the combining buffer, or waits for a free entry (R226). -/
  enterBuffer (s : State) (tid : Nat) (t : Thread) (q : MemReq) (a : Nat) : State :=
    match q.acc with
    | .store w d =>
      match s.combine tid (cellsOf a w d.toNat) (a / 16 * 16) with
      | (s1, true) => s1.nextMem tid t true
      | (s1, false) => s1.retryWhen tid t (.room 7#3)
    | _ => s.nextMem tid t true
  /-- The access leaves as a packet: a load keeps its thread waiting; a store, an atomic or a relaxed
  access lets it go on (R192). -/
  launchPacket (s : State) (tid : Nat) (t : Thread) (q : MemReq) (a : Nat) : State :=
    let (s1, id) := s.sendPacket tid t a q.n q.acc (if q.relaxed then .relaxed else .ordinary)
      (!q.relaxed || t.tainted q.areg) [q.a]
    let waits := !q.relaxed && match q.acc with
      | .load _ _ _ _ | .vload _ | .vgather _ _ _ => true
      | _ => false
    if waits then s1.await tid t (.access id) none q.a else s1.nextMem tid t q.relaxed

end Sys2Proof.Machine
end

