-- ==== Sys2Proof/Machine/Operands.lean ====
section
/-! DEFINITION. Operand forms: effective addresses, branch targets, vector lanes and masks (R274, R275,
R93), and the fields of task entries (R160). -/

set_option Elab.async false

namespace Sys2Proof.Machine

/-! ### Addresses (R65, R93, R137) -/

/-- X[rs1] + SignExtend(imm) (R205). -/
def Thread.ea (t : Thread) (a : Reg) (i : BitVec 12) : Word := t.reg a + i.signExtend 64

/-- X[rs1] + s × 64 (R282). -/
def Thread.vea (t : Thread) (a : Reg) (s : BitVec 6) : Word := t.reg a + (s.signExtend 64 <<< 6)

/-- PC + the halved 12-bit offset of a branch (R65). -/
def Thread.branchTarget (t : Thread) (off : BitVec 12) : Word := t.pc + (off.signExtend 64 <<< 1)

/-- PC + the halved 20-bit offset of a jump (R65). -/
def Thread.jumpTarget (t : Thread) (off : BitVec 20) : Word := t.pc + (off.signExtend 64 <<< 1)

/-- Whether an address is a multiple of n. -/
def aligned (a : Word) (n : Nat) : Bool := decide (a.toNat % n = 0)

/-! ### Lanes (R274, R275) -/

/-- Lane i of width w. -/
def laneOf (v : VWord) (w i : Nat) : Nat := (v.extractLsb' (w * i) w).toNat

/-- A register from lanes of width w, lane 0 first. -/
def fromLanes (w : Nat) : List Nat → VWord
  | [] => 0#512
  | x :: l => (fromLanes w l <<< w) ||| BitVec.ofNat 512 (x % 2 ^ w)

/-- The lanes of a register. -/
def lanesOf (v : VWord) (w : Nat) : List Nat := (List.range (512 / w)).map (laneOf v w)

/-- The register with lane i of width w replaced. -/
def setLane (v : VWord) (w i x : Nat) : VWord :=
  (v &&& ~~~((BitVec.ofNat 512 (2 ^ w - 1)) <<< (w * i))) ||| (BitVec.ofNat 512 (x % 2 ^ w) <<< (w * i))

/-- Whether lane i is active under a mask (R275). -/
def activeLane (m : Option MaskWord) (i : Nat) : Bool := match m with
  | some k => k.getLsbD i
  | none => true

/-- The mask that an instruction names. -/
def Thread.maskOf (t : Thread) (m : Option KReg) : Option MaskWord := m.map t.kreg

/-- The mask register among an instruction's sources. -/
def maskReads (m : Option KReg) : List (BitVec 4) := match m with
  | some k => [kdest k]
  | none => []

/-- An element-wise operation: active lanes get the operation's result, the others keep the destination's
value; flags of active lanes are collected (R275, R286). -/
def mapLanes (w : Nat) (m : Option MaskWord) (f : Nat → Nat × Flags) (d : VWord) : VWord × Flags :=
  let rs := (List.range (512 / w)).map fun i => if activeLane m i then f i else (laneOf d w i, 0#6)
  (fromLanes w (rs.map (·.1)), rs.foldl (fun a r => a ||| r.2) 0#6)

/-- The lanes of the active set, in ascending order (R291). -/
def activeLanes (w : Nat) (m : Option MaskWord) (a : VWord) : List Nat :=
  ((List.range (512 / w)).filter (activeLane m)).map (laneOf a w)

/-- A mask from one bit for each lane (R289). -/
def fromBits : List Bool → MaskWord
  | [] => 0#128
  | b :: l => (fromBits l <<< 1) ||| (if b then 1#128 else 0#128)

/-! ### Synchronising accesses and full/empty operations of a thread -/

/-- The drains of `end`: earlier relaxed accesses performed and the combining buffer drained; the thread's entries are flushed
(R177). -/
def State.drainWait (s : State) (tid : Nat) (t : Thread) (f : Unit → State) : State :=
  if s.relaxedOut tid ≠ 0 ∨ s.combiningOut tid then (s.flushThread tid fun _ => true).retryWhen tid t .release
  else f ()

/-- An event that the ordinary access before it precedes: it waits for the acknowledgement (R192, R388). -/
def State.ordinaryWait (s : State) (tid : Nat) (t : Thread) (f : Unit → State) : State :=
  if s.ordinaryOut tid then s.retryWhen tid t .ordinary else f ()

/-- The waits of a release: the ordinary access acknowledged, earlier relaxed accesses performed and the combining buffer drained
(R167, R195, R387, R388). -/
def State.releaseWait (s : State) (tid : Nat) (t : Thread) (f : Unit → State) : State :=
  s.ordinaryWait tid t fun _ => s.drainWait tid t f

/-- A synchronising access of a thread, its alignment already checked (R197, R209, R282, R284). -/
def State.syncIssue (s : State) (tid : Nat) (t : Thread) (a : Word) (op : SyncOp) (shape : SyncShape) (n limit : Nat) : State :=
  let pl := s.place (tidCore tid) t.job a
  match pl.addr? with
  | none => s.trap tid t cACCESSFAULT a
  | some g =>
    let q : SyncAccess := { addr := g, op := op, shape := shape }
    let stores := q.op == .fill || q.op == .over
    if !pl.isScratch then s.trap tid t cACCESSFAULT a
    else if stores && s.hitsInbox g n then s.trap tid t cACCESSFAULT a
    else if s.unreachable pl then s.trap tid t cFABUNREACH a
    else if s.ordinaryOut tid then s.retryWhen tid t .ordinary
    else if s.overlapOut tid g n then s.retryWhen tid t (.overlap g n)
    else
      let go : Unit → State := fun _ =>
        match pl with
        | .own _ =>
          if q.granules.any fun x => s.memErr (x * 16) 16 then s.trap tid t cMEMERR a
          else if (s.withheldFor tid (.sync q)).isSome ∨ !s.servedAtOnce q then
            s.awaitOrHalt tid t (.sync q) (some limit) a
          else
            let s0 := q.granules.foldl (fun u x => u.scrub (x * 16) 16) s
            let (s1, v, f) := s0.serveSync q
            let u := ((t.takeData (.sync q) v).orFlags f).fulfilSync q
            let s2 := (s1.next tid u).consumeSignal tid q
            if op = .take ∨ op = .fill then s2.handoffAll q.granules else s2
        | _ =>
          match pl with
          | .remote k _ =>
            if rankState (s.rankEntry k) = 1 ∧ 32 ≤ s.heldFor (tidCore tid) k then
              s.retryWhen tid t (.dark k.rank)
            else park s tid t g n q a limit
          | _ => park s tid t g n q a limit
      if stores then s.releaseWait tid t go
      else if ((s.core (tidCore tid)).cb.any fun e => e.tid.toNat == tid && e.meets g n) then
        (s.flushThread tid fun e => e.meets g n).retryWhen tid t (.overlap g n)
      else go ()
where
  /-- The access travels to the owner core and parks there (R199). -/
  park (s : State) (tid : Nat) (t : Thread) (g n : Nat) (q : SyncAccess) (a : Word) (limit : Nat) : State :=
    let (s1, id) := s.sendPacket tid t g n (.sync q) .ordinary true [a]
    s1.await tid t (.parked id q) (some limit) a

/-- `fe.set`, `fe.clr` and `fe.tst` (R210). -/
def State.feIssue (s : State) (tid : Nat) (t : Thread) (a : Word) (acc : Access) : State :=
  let pl := s.place (tidCore tid) t.job a
  match pl.addr? with
  | none => s.trap tid t cACCESSFAULT a
  | some g =>
    if !pl.isScratch then s.trap tid t cACCESSFAULT a
    else if s.unreachable pl then s.trap tid t cFABUNREACH a
    else if s.ordinaryOut tid then s.retryWhen tid t .ordinary
    else
      let go : Unit → State := fun _ =>
        match pl with
        | .own _ =>
          match s.performAt g acc with
          | (s1, .ok v) =>
            let u := (t.takeData acc v)
            let u := if acc = .feSet then u.fulfil (.granule (g / 16)) else u
            let s2 := s1.next tid u
            if s1.isFull (g / 16) = s.isFull (g / 16) then s2 else s2.handoffAll [g / 16]
          | (s1, .error c) => s1.trap tid t c a
        | .remote k _ =>
          if rankState (s.rankEntry k) = 1 ∧ 32 ≤ s.heldFor (tidCore tid) k then s.retryWhen tid t (.dark k.rank)
          else leave s tid t g acc
        | _ => leave s tid t g acc
      if acc = .feSet then s.releaseWait tid t go else go ()
where
  /-- The access leaves as a packet, with the timing of a store: the thread goes on, and an `fe.set` fulfils when its
  acknowledgement returns (R191, R192, R203). -/
  leave (s : State) (tid : Nat) (t : Thread) (g : Nat) (acc : Access) : State :=
    (s.sendPacket tid t g 8 acc .ordinary true [a]).1.next tid t

/-! ### Task entries (R160) -/

/-- Dword n of an entry. -/
def entryDw (e : VWord) (n : Nat) : Word := e.extractLsb' (64 * n) 64

def entryKind (e : VWord) : Nat := ((entryDw e 0).extractLsb' 62 2).toNat
def entryClass (e : VWord) : BitVec 2 := (entryDw e 0).extractLsb' 60 2
def entryLevel (e : VWord) : Nat := ((entryDw e 0).extractLsb' 57 3).toNat
def entryDie (e : VWord) : BitVec 2 := (entryDw e 0).extractLsb' 55 2
def entryCtrl (e : VWord) : Bool := (entryDw e 0).getLsbD 54
def entryRq (e : VWord) : Bool := (entryDw e 0).getLsbD 53
def entryGmask (e : VWord) : BitVec 8 := (entryDw e 0).extractLsb' 40 8
def entryLaunch (e : VWord) : BitVec 32 := (entryDw e 0).extractLsb' 0 32
def entryPc (e : VWord) : Word := entryDw e 1
def entryArg (e : VWord) : Word := entryDw e 2
def entryCount (e : VWord) : BitVec 32 := (entryDw e 3).extractLsb' 32 32
def entryIndex (e : VWord) : BitVec 32 := (entryDw e 3).extractLsb' 0 32
def entryDeadline (e : VWord) : Word := entryDw e 4
def entryCbase (e : VWord) : Word := entryDw e 5
def entryClim (e : VWord) : Word := entryDw e 6
def entryDone (e : VWord) : Nat := ((entryDw e 7).extractLsb' 62 2).toNat
def entryDtag (e : VWord) : BitVec 4 := (entryDw e 7).extractLsb' 58 4
def entryDobj (e : VWord) : BitVec 10 := (entryDw e 7).extractLsb' 48 10
def entryDinc (e : VWord) : BitVec 16 := (entryDw e 7).extractLsb' 32 16
def entryJob (e : VWord) : BitVec 32 := (entryDw e 7).extractLsb' 0 32

/-- The level that an entry names. -/
def levelOfNo (n : Nat) : Level :=
  if n = 0 then .thread else if n = 1 then .core else if n = 2 then .cluster else if n = 3 then .die else .module

/-- The entry with dword n replaced. -/
def setEntryDw (e : VWord) (n : Nat) (w : Word) : VWord := setLane e 64 n w.toNat

/-- The number of the first dword of an entry that holds a faulty field (R161, R182); `spawn` marks an entry
with LAUNCH = 0 under `start` or `startg`, `submit` one under `taskadd` without RQ. Of two fields that contradict each
other the later one counts as faulty: dword 4 for DEADLINE against CLASS, dword 6 for CLIM against CBASE (DESIGN CHOICE 86). -/
def entryFault (e : VWord) (spawn submit : Bool) : Option Nat :=
  let k := entryKind e
  let d0 := entryDw e 0
  if k = 0 ∨ 4 < entryLevel e ∨ d0.extractLsb' 48 5 ≠ 0#5 ∨ d0.extractLsb' 32 8 ≠ 0#8
      ∨ (entryGmask e ≠ 0#8) ≠ (k = 2) ∨ (entryGmask e ≠ 0#8 ∧ entryLevel e ≠ 2)
      ∨ (entryCtrl e ∧ ¬ (k = 1 ∧ entryLevel e = 1)) ∨ (submit ∧ entryLaunch e ≠ 0#32) then some 0
  else if submit ∧ entryCount e = 0#32 then some 3
  else if (entryDeadline e ≠ 0#64) ≠ (entryClass e = 0#2) then
    if spawn then none else some 4
  else if !spawn && decide ((entryClim e).toNat ≤ (entryCbase e).toNat) then some 6
  else if entryDone e = 3 ∨ entryDtag e = 15#4 then some 7
  else none

/-! ### Continuation objects (R362, R363, R366): byte positions are fixed here -/

/-- The field of n bytes at an address, little-endian. -/
def State.field (s : State) (a n : Nat) : Nat := readBytes s.mem a n

end Sys2Proof.Machine
end

