-- ==== Sys2Proof/Machine/Csr.lean ====
section
/-! DEFINITION. Control and status registers (R149 to R154): the value each reads, the effect of writing
each field map, the CSR instructions (R141, R150), and the writes with effects of their own (R157, R185, R223,
R233, R250, R303, R317, R416). -/

set_option Elab.async false

namespace Sys2Proof.Machine

/-! ### Scope and access (R149) -/

/-- Access of a CSR: absent, read-only, written by house cores only, from slot 0 only, or freely. -/
inductive CsrKind where
  | absent | ro | hw | slot0 | rw
  deriving DecidableEq, Repr

/-- The CSR map (R149). -/
def csrKind (n : Nat) : CsrKind :=
  if n < 0x800 then .absent
  else if n ≤ 0x809 then .rw
  else if n = 0x80A then .hw
  else if n = 0x810 then .slot0
  else if 0x811 ≤ n ∧ n ≤ 0x816 then .rw
  else if 0x818 ≤ n ∧ n ≤ 0x81B then .rw
  else if 0x820 ≤ n ∧ n ≤ 0x83F then .rw
  else if 0x840 ≤ n ∧ n ≤ 0x867 then .rw
  else if n = 0x870 then .rw
  else if 0xC00 ≤ n ∧ n ≤ 0xC02 then .ro
  else if 0xCC0 ≤ n ∧ n ≤ 0xCC4 then .ro
  else if 0xCD0 ≤ n ∧ n ≤ 0xCDF then .ro
  else .absent

/-! ### Reading -/

/-- The value of a CSR for a thread; CYCLE, TIME and TICK read the module time base (R149, R151, R154). -/
def State.csrValue (s : State) (tid : Nat) (t : Thread) (n : Nat) : Word :=
  let k := s.core (tidCore tid)
  if n = 0x800 then t.evec
  else if n = 0x801 then t.epc
  else if n = 0x802 then t.ecause
  else if n = 0x803 then t.eval
  else if n = 0x804 then t.epw
  else if n = 0x805 then t.vflags
  else if n = 0x806 then t.synclim
  else if n = 0x807 then t.dline
  else if n = 0x808 then t.carry
  else if n = 0x809 then t.scorechk
  else if n = 0x80A then t.stepctl
  else if n = 0x810 then k.slotcfg
  else if n = 0x811 then k.rovelim
  else if n = 0x812 then k.arrspill
  else if n = 0x813 then k.inboxb
  else if n = 0x814 then k.inboxs
  else if n = 0x815 then k.mescale
  else if n = 0x816 then k.mebudget
  else if 0x818 ≤ n ∧ n ≤ 0x81B then regAt k.fabqos (n - 0x818)
  else if 0x820 ≤ n ∧ n ≤ 0x83F then regAt k.bfmt (n - 0x820)
  else if 0x840 ≤ n ∧ n ≤ 0x847 then regAt k.ringBase (n - 0x840)
  else if 0x848 ≤ n ∧ n ≤ 0x84F then regAt k.ringSize (n - 0x848)
  else if 0x850 ≤ n ∧ n ≤ 0x857 then regAt k.ringTile (n - 0x850)
  else if 0x858 ≤ n ∧ n ≤ 0x85F then regAt k.ringHead (n - 0x858)
  else if 0x860 ≤ n ∧ n ≤ 0x867 then regAt k.ringTail (n - 0x860)
  else if n = 0x870 then k.profctl
  else if n = 0xC00 ∨ n = 0xC01 then BitVec.ofNat 64 s.time
  else if n = 0xC02 then t.instret
  else if n = 0xCC0 then (s.gtid tid).setWidth 64
  else if n = 0xCC1 then BitVec.ofNat 64 s.tick
  else if n = 0xCC2 then k.mefault
  else if n = 0xCC3 then t.cbase
  else if n = 0xCC4 then t.clim
  else if 0xCD0 ≤ n ∧ n ≤ 0xCDF then regAt k.prof (n - 0xCD0)
  else 0#64

/-- A timer CSR (R151). -/
def csrTimer (n : Nat) : Bool := n == 0xC00 || n == 0xC01 || n == 0xCC1

/-- A timer read: its value is logged, and in replay it is the logged value (R418) (DESIGN CHOICE 10, DESIGN CHOICE 72). -/
def State.readTimer (s : State) (tid : Nat) (t : Thread) (n : Nat) : State × Thread × Word :=
  let stamp := fun (r : ReplayItem) => r.kind == 1#8 && r.gtid == s.gtid tid && r.instret == t.instret
  match takeFirst stamp s.replayIn with
  | some (r, rest) => ({ s with replayIn := rest }, { t with lastTime := s.time }, r.value0)
  | none =>
    let v := s.csrValue tid t n
    (s.logItem tid t 1#8 v 0#64, { t with lastTime := s.time }, v)

/-! ### Writing (R5, R7, R150) -/

/-- DLINE written: ARMED sets the deadline, and clearing it cancels a pending event (R185). -/
def Thread.setDline (t : Thread) (v : Word) : Thread :=
  { t with dline := v, dlPending := if v.getLsbD 63 then t.dlPending else false }

/-- A write of SLOTCFG.XFER: ignored while slot 15 is occupied, q4 or q2 hold work, or a copy of the core is
outstanding (R157). A slot 15 that becomes a worker slot may be taken by a rover or a task (R164, R235), and one that becomes the transfer slot is disabled no more (R156). -/
def State.writeXfer (s : State) (c : Nat) (x : Bool) : State :=
  let k := s.core c
  let busy := (s.thread? (c * 16 + 15)).isSome || !k.q4.isEmpty || !k.copies.isEmpty || k.q2.toList.any (·.isSome)
  if busy then s
  else
    let s1 := s.modCore c fun k =>
      { k with
        slotcfg := putField (if x then putField k.slotcfg 31 1 0 else k.slotcfg) 1 1 (if x then 1 else 0)
        thermal := if x then k.thermal.filter (· != 15#4) else k.thermal }
    if x then s1
    else (s1.schedule s.time (.arrivalSlotTake (BitVec.ofNat 12 c))).schedule s.time (.tquDeal (BitVec.ofNat 2 (coreDie c)))

/-- A write of SLOTCFG.MODE; MODE = 0 returns task start to hardware (R157). -/
def State.writeMode (s : State) (c : Nat) (x : Bool) : State :=
  let s1 := s.modCore c fun k => { k with slotcfg := putField k.slotcfg 0 1 (if x then 1 else 0) }
  if x then s1 else s1.schedule s.time (.taskStart (BitVec.ofNat 12 c))

/-- A write of SLOTCFG, field by field (R156, R157). -/
def State.writeSlotcfg (s : State) (c : Nat) (v : Word) : State :=
  let s1 := s.modCore c fun k => { k with slotcfg := putField k.slotcfg 8 4 (min 8 (getField v 8 4)) }
  let x := v.getLsbD 1
  let s2 := if x = (s.core c).slotcfg.getLsbD 1 then s1 else s1.writeXfer c x
  if v.getLsbD 0 = (s.core c).slotcfg.getLsbD 0 then s2 else s2.writeMode c (v.getLsbD 0)

/-- The core's new capacity on the Pour (R250, R254). -/
def State.emitInboxcap (s : State) (c : Nat) : State :=
  s.queueFrame (coreCluster c) .inboxcap false (s.slotFrame (c * 16) 0#10 (BitVec.ofNat 256 (c + (s.core c).inboxCap * 2 ^ 64))) 0

/-- A write of INBOXB or INBOXS (`size`) that changes BASE or SIZE, and so emits a frame (R250). -/
def Core.inboxChanges (k : Core) (size : Bool) (v : Word) : Bool :=
  k.inboxUsed == 0 && (if size then min 32768 (getField v 0 16) != getField k.inboxs 0 16 else getField v 4 15 != getField k.inboxb 4 15)

/-- A write of INBOXB or INBOXS (`size`): BASE and SIZE stay while records are held; a change empties the
ring's pointers, restarts SEQ and announces the capacity (R250, R251). -/
def State.writeInbox (s : State) (c : Nat) (size : Bool) (v : Word) : State :=
  let k := s.core c
  let used := k.inboxUsed
  let k1 := if size then { k with inboxs := putField k.inboxs 48 16 (getField v 48 16) } else k
  let new := if size then min 32768 (getField v 0 16) else getField v 4 15
  let old := if size then getField k.inboxs 0 16 else getField k.inboxb 4 15
  if used ≠ 0 ∨ new = old then s.setCore c k1
  else
    let k2 := if size then { k1 with inboxs := putField k1.inboxs 0 16 new } else { k1 with inboxb := putField k1.inboxb 4 15 new }
    ((s.setCore c { k2 with inboxb := putField k2.inboxb 32 32 0, inboxSeq := 0#32 }).emitInboxcap c).wakeCasts c

/-- A write of ARRSPILL: BASE and COUNT stay while contexts are held (R233). -/
def Core.writeArrspill (k : Core) (v : Word) : Core :=
  if getField k.arrspill 48 9 ≠ 0 then k
  else { k with arrspill := putField (putField k.arrspill 32 9 (min 256 (getField v 32 9))) 8 11 (getField v 8 11) }

/-- A write of FABQOSn: the bucket is full at the new BURST (R222, R223). -/
def Core.writeFabqos (k : Core) (n : Nat) (v : Word) : Core :=
  let burst := max 1 (getField v 24 16)
  { k with
    fabqos := k.fabqos.setIfInBounds n (putField (putField 0#64 24 16 burst) 4 16 (getField v 4 16))
    fabBucket := k.fabBucket.setIfInBounds n burst }

/-- A write of MEBUDGET: the bucket is full at the new BURST (R317). -/
def Core.writeMebudget (k : Core) (v : Word) : Core :=
  let burst := max 1 (getField v 24 16)
  { k with mebudget := putField (putField 0#64 24 16 burst) 4 16 (getField v 4 16), meBucket := burst }

/-- A matrix command that reads ring n is in q0 (R303). -/
def Core.ringBusy (k : Core) (n : Nat) : Bool :=
  k.q0.any fun c => (cmdOpcode c == 1 || cmdOpcode c == 2 || cmdOpcode c == 3) && (cmdRingA c == n || cmdRingB c == n)

/-- RINGTILE as it is stored: bits 63:13 zero, TILE at most 0x1000 (R302). -/
def tileField (v : Word) : Word := BitVec.ofNat 64 (min 0x1000 (getField v 0 13))

/-- A write of a ring register, ignored while a command in q0 names the ring (R302, R303). -/
def Core.writeRing (k : Core) (csr : Nat) (v : Word) : Core :=
  let n := (csr - 0x840) % 8
  if k.ringBusy n then k
  else if csr ≤ 0x847 then { k with ringBase := k.ringBase.setIfInBounds n (v &&& 0x80007FFF0007FFF0#64) }
  else if csr ≤ 0x84F then { k with ringSize := k.ringSize.setIfInBounds n (v &&& 0xFFFFF#64) }
  else if csr ≤ 0x857 then { k with ringTile := k.ringTile.setIfInBounds n (tileField v) }
  else if csr ≤ 0x85F then { k with ringHead := k.ringHead.setIfInBounds n (v &&& 0xFFFFFFFF#64) }
  else { k with ringTail := k.ringTail.setIfInBounds n (v &&& 0xFFFFFFFF#64) }

/-- A write of PROFCTL (R416). -/
def Core.writeProfctl (k : Core) (v : Word) : Core :=
  { k with
    profctl := v &&& 0xF1#64
    prof := if v.getLsbD 8 then Vector.replicate 16 0#64 else k.prof }

/-- Bits of a BFMT register that hold fields (R119). -/
def bfmtMask : Word := 0xFFFE0F3C1F#64

/-- The effect of writing a CSR that the writer may write: each field map's own rule (R114, R119, R156,
R173, R200, R222, R231 to R233, R250, R278, R302, R314, R317, R398, R407, R416). -/
def State.csrWrite (s : State) (tid n : Nat) (v : Word) : State :=
  let c := tidCore tid
  if n = 0x800 then s.modThread tid fun t => { t with evec := align4 v, basic := false }
  else if n = 0x801 then s.modThread tid fun t => { t with epc := align4 v }
  else if n = 0x802 then s.modThread tid fun t => { t with ecause := v &&& 0x80000000000000FF#64 }
  else if n = 0x803 then s.modThread tid fun t => { t with eval := v }
  else if n = 0x804 then s.modThread tid fun t => { t with epw := v }
  else if n = 0x805 then s.modThread tid fun t => { t with vflags := v &&& 0x3F#64 }
  else if n = 0x806 then s.modThread tid fun t => { t with synclim := v &&& 0xFFFFFFFF#64 }
  else if n = 0x807 then (s.modThread tid fun t => t.setDline v).checkDline tid
  else if n = 0x808 then s.modThread tid fun t => { t with carry := BitVec.ofNat 64 (min 2 (getField v 0 2)) }
  else if n = 0x809 then s.modThread tid fun t => { t with scorechk := v &&& 1#64 }
  else if n = 0x80A then s.modThread tid fun t => { t with stepctl := v &&& 0xF0001FFFFFFFFFFC#64 }
  else if n = 0x810 then s.writeSlotcfg c v
  else if n = 0x811 then s.modCore c fun k => { k with rovelim := putField k.rovelim 0 9 (min 256 (getField v 0 9)) }
  else if n = 0x812 then s.modCore c fun k => k.writeArrspill v
  else if n = 0x813 then s.writeInbox c false v
  else if n = 0x814 then s.writeInbox c true v
  else if n = 0x815 then s.modCore c fun k => { k with mescale := v &&& 0xFF#64 }
  else if n = 0x816 then (s.modCore c fun k => k.writeMebudget v).schedule s.time (.meStart (BitVec.ofNat 12 c))
  else if 0x818 ≤ n ∧ n ≤ 0x81B then s.modCore c fun k => k.writeFabqos (n - 0x818) v
  else if 0x820 ≤ n ∧ n ≤ 0x83F then
    s.modCore c fun k => { k with bfmt := k.bfmt.setIfInBounds (n - 0x820) (v &&& bfmtMask) }
  else if 0x840 ≤ n ∧ n ≤ 0x867 then
    ((s.modCore c fun k => k.writeRing n v).schedule s.time (.meStart (BitVec.ofNat 12 c))).settleWithheld
  else if n = 0x870 then s.modCore c fun k => k.writeProfctl v
  else s

/-! ### CSR instructions (R141, R150) -/

/-- How a CSR instruction forms the value it writes. -/
inductive CsrOp where
  | write | set | clear
  deriving DecidableEq, Repr

/-- The new value (DEDUCED 31). -/
def CsrOp.value : CsrOp → Word → Word → Word
  | .write, _, x => x
  | .set, old, x => old ||| x
  | .clear, old, x => old &&& ~~~x

/-- Whether a slot may write a CSR (R150) (DEDUCED 31). -/
def csrWritable (n slot : Nat) : Bool := match csrKind n with
  | .rw => true
  | .slot0 => slot == 0
  | _ => false

/-- A CSR instruction: `x` is its source value, `reads` and `writes` say whether it reads and attempts a
write (R141) (DEDUCED 31). -/
def State.csr (s : State) (tid : Nat) (t : Thread) (i : Instr) (op : CsrOp) (d : Reg) (n : Nat) (x : Word)
    (reads writes : Bool) : State :=
  if csrKind n = .absent ∨ (writes ∧ !csrWritable n (tidSlot tid)) then s.illegal tid t i
  else if n = 0x805 ∧ t.vres.any fun r => decide (s.time < r.due) then s.retryWhen tid t .allVec
  else if reads ∧ csrTimer n ∧ s.time < t.lastTime then s.retryWhen tid t (.time t.lastTime)
  else if writes ∧ (n = 0x813 ∨ n = 0x814) ∧ s.emitFull (coreCluster (tidCore tid))
      ∧ (s.core (tidCore tid)).inboxChanges (n == 0x814) (op.value (s.csrValue tid t n) x) then s.retryWhen tid t .emit
  else
    let t := if n = 0x805 then t.writeDue s.time else t
    let (s1, t1, old) := if reads && csrTimer n then s.readTimer tid t n else (s, t, s.csrValue tid t n)
    let s2 := s1.setThread tid t1
    let s3 := if writes then s2.csrWrite tid n (op.value old x) else s2
    match s3.thread? tid with
    | some u => s3.writeReg tid u (if reads then d else 0#5) old false
    | none => s3

/-- CSRRW: with rd = x0 it does not read (R141). -/
def execCsrrw (d a : Reg) (n : BitVec 12) (s : State) : Out :=
  performing s fun tid t => s.csr tid t (.csrrw d a n) .write d n.toNat (t.reg a) (d != 0#5) true

/-- CSRRS: with rs1 = x0 it does not write; a source that is zero attempts no write (R141, R150). -/
def execCsrrs (d a : Reg) (n : BitVec 12) (s : State) : Out :=
  performing s fun tid t => s.csr tid t (.csrrs d a n) .set d n.toNat (t.reg a) true (a != 0#5 && t.reg a != 0#64)

/-- CSRRC (R141, R150). -/
def execCsrrc (d a : Reg) (n : BitVec 12) (s : State) : Out :=
  performing s fun tid t => s.csr tid t (.csrrc d a n) .clear d n.toNat (t.reg a) true (a != 0#5 && t.reg a != 0#64)

/-- CSRRWI (R141). -/
def execCsrrwi (d : Reg) (u : BitVec 5) (n : BitVec 12) (s : State) : Out :=
  performing s fun tid t => s.csr tid t (.csrrwi d u n) .write d n.toNat (u.setWidth 64) (d != 0#5) true

/-- CSRRSI (R141). -/
def execCsrrsi (d : Reg) (u : BitVec 5) (n : BitVec 12) (s : State) : Out :=
  performing s fun tid t => s.csr tid t (.csrrsi d u n) .set d n.toNat (u.setWidth 64) true (u != 0#5)

/-- CSRRCI (R141). -/
def execCsrrci (d : Reg) (u : BitVec 5) (n : BitVec 12) (s : State) : Out :=
  performing s fun tid t => s.csr tid t (.csrrci d u n) .clear d n.toNat (u.setWidth 64) true (u != 0#5)

/-! ### `dlset` and `dlclr` (R185) -/

/-- `dlset`: DLINE armed at X[rs1][62:0]; a value at or below TICK makes the event pending at once. -/
def execDlset (a : Reg) (s : State) : Out :=
  performing s fun tid t =>
    let v := t.reg a ||| 0x8000000000000000#64
    let s1 := s.next tid (t.setDline v)
    if (v.extractLsb' 0 63).toNat ≤ s.tick then s1.schedule s.time (.deadlineFire (BitVec.ofNat 16 tid)) else s1

/-- `dlclr`: ARMED := 0, TICKS kept, a pending event cancelled. -/
def execDlclr (s : State) : Out :=
  performing s fun tid t => s.next tid (t.setDline (t.dline &&& 0x7FFFFFFFFFFFFFFF#64))

/-! ### The writes as steps of their own -/

/-- SLOTCFG.MODE written by the slot-0 monitor (R157). -/
def execSlotcfgModeWrite (core : CoreId) (mode : Bool) (s : State) : Out := .next (s.writeMode core.toNat mode)

/-- SLOTCFG.XFER written by the slot-0 monitor (R157). -/
def execSlotcfgXferWrite (core : CoreId) (xfer : Bool) (s : State) : Out := .next (s.writeXfer core.toNat xfer)

/-- DLINE written (R185). -/
def execDlineWrite (tid : BitVec 16) (value : Word) (s : State) : Out :=
  .next (let s1 := s.modThread tid.toNat fun t => t.setDline value
    if value.getLsbD 63 ∧ (value.extractLsb' 0 63).toNat ≤ s.tick then s1.schedule s.time (.deadlineFire tid) else s1)

/-- INBOXB or INBOXS written (R250). -/
def execInboxConfigWrite (core : CoreId) (size : Bool) (value : Word) (s : State) : Out :=
  .next (s.writeInbox core.toNat size value)

/-- ARRSPILL written (R233). -/
def execArrspillWrite (core : CoreId) (value : Word) (s : State) : Out :=
  .next (s.modCore core.toNat fun k => k.writeArrspill value)

/-- FABQOSn written (R222, R223). -/
def execFabqosWrite (core : CoreId) (n : BitVec 2) (value : Word) (s : State) : Out :=
  .next (s.modCore core.toNat fun k => k.writeFabqos n.toNat value)

/-- MEBUDGET written (R317). -/
def execMebudgetWrite (core : CoreId) (value : Word) (s : State) : Out :=
  .next ((s.modCore core.toNat fun k => k.writeMebudget value).schedule s.time (.meStart core))

/-- A ring register written (R302, R303); another CSR number names none and changes nothing. -/
def execRingCsrWrite (core : CoreId) (n : BitVec 12) (value : Word) (s : State) : Out :=
  .next (if 0x840 ≤ n.toNat ∧ n.toNat ≤ 0x867 then s.csrWrite (core.toNat * 16) n.toNat value else s)

/-- PROFCTL.CLR written as 1: every PROF counter becomes 0 (R416). -/
def execProfctlClr (core : CoreId) (s : State) : Out :=
  .next (s.modCore core.toNat fun k => { k with prof := Vector.replicate 16 0#64 })

/-- The point at which a CSR instruction on VFLAGS goes on: results that are due are written (R279). -/
def execVflagsAccess (tid : BitVec 16) (s : State) : Out :=
  .next (s.modThread tid.toNat fun t => t.writeDue s.time)

/-- A CSR of a slot or of its core written with its field map's effect (R5, R7, R33, R150); a read-only
register is left as it is, and so is a per-slot register of a live thread that is not halted (R411). -/
def execCsrWrite (tid : BitVec 16) (n : BitVec 12) (value : Word) (s : State) : Out :=
  .next (match csrKind n.toNat with
    | .absent | .ro => s
    | _ =>
      let live := (s.thread? tid.toNat).any fun t => t.run == .live
      if live ∧ 0x800 ≤ n.toNat ∧ n.toNat ≤ 0x80A then s else s.csrWrite tid.toNat n.toNat value)

end Sys2Proof.Machine
end

