-- ==== Sys2Proof/Machine/Queue.lean ====
section
/-! DEFINITION. Queue instructions: pushes to q0, q2 and q4 (R299, R320, R333, R336), `qpop` (R321, R341),
`qstat` (R322), `radv` (R303, R323), and the instructions on a hold of the matrix engine (R311 to R314, R324). -/

set_option Elab.async false

namespace Sys2Proof.Machine

/-! ### Waits and legality -/

/-- The release of a push: every earlier access of the thread has been performed, its relaxed accesses have
completed and its combining buffer has drained (R309, R320). -/
def State.quietWait (s : State) (tid : Nat) (t : Thread) (f : Unit → State) : State :=
  if !(s.packetsOf tid).isEmpty || s.combiningOut tid then (s.flushThread tid fun _ => true).retryWhen tid t .quiet
  else f ()

/-- XFER of a core: its slot 15 has transfer duty (R156). -/
def Core.xfer (k : Core) : Bool := k.slotcfg.getLsbD 1

/-- The slot is the core's transfer slot (R84). -/
def State.isTransfer (s : State) (tid : Nat) : Bool := tidSlot tid == 15 && (s.core (tidCore tid)).xfer

/-- A push to a queue is legal in the slot (R84). -/
def State.pushLegal (s : State) (tid q : Nat) : Bool :=
  if q = 0 then true
  else if q = 2 then tidSlot tid != 15 && (s.core (tidCore tid)).xfer
  else if q = 4 then s.isTransfer tid
  else false

/-! ### Pushes -/

/-- The lower and upper command words of a push. -/
def pushLow (d : VWord) : BitVec 256 := d.extractLsb' 0 256
def pushHigh (d : VWord) : BitVec 256 := d.extractLsb' 256 256

/-- The commands of a push to q0: one two-word command, or two one-word commands (R299). -/
def matrixCmds (d : VWord) (tid : Nat) (gtid : BitVec 22) (group : Nat) (job : BitVec 32) (count : Word) (ready : Nat) : List Cmd :=
  let op := (d.extractLsb' 0 8).toNat
  let c : Cmd := { word := pushLow d, word1 := 0#256, two := false, tid := BitVec.ofNat 16 tid, gtid := gtid
                   group := group, job := job, seq := count + 1#64, ready := ready, who := .live (BitVec.ofNat 16 tid), obj := none }
  if op = 1 ∨ op = 2 ∨ op = 3 then [{ c with word1 := pushHigh d, two := true }]
  else [c, { c with word := pushHigh d, seq := count + 2#64 }]

/-- A push of 64 bytes to q0, accepted (R299): the engine sees it 4 cycles later. -/
def State.acceptQ0 (s : State) (tid : Nat) (t : Thread) (d : VWord) : State :=
  let c := tidCore tid
  let k := s.core c
  let l := matrixCmds d tid (s.gtid tid) t.group t.job k.cmdCount (s.time + 4)
  (s.setCore c { k with q0 := k.q0 ++ l, cmdCount := k.cmdCount + BitVec.ofNat 64 l.length }).schedule (s.time + 4)
    (.meStart (BitVec.ofNat 12 c))

/-- The issuer that a push to q4 records: the requester register, else the transfer slot's own thread (R335) (DEDUCED 38). -/
def State.copyIssuer (s : State) (tid : Nat) (t : Thread) : BitVec 22 × Nat :=
  match (s.core (tidCore tid)).requester with
  | some r => r
  | none => (s.gtid tid, t.group)

/-- A push of two command words to q4, accepted (R336) (DESIGN CHOICE 96). -/
def State.acceptQ4 (s : State) (tid : Nat) (t : Thread) (d : VWord) : State :=
  let c := tidCore tid
  let k := s.core c
  let (g, grp) := s.copyIssuer tid t
  let a : Cmd := { word := pushLow d, word1 := 0#256, two := false, tid := BitVec.ofNat 16 tid, gtid := g
                   group := grp, job := ((s.group? grp).map (·.job)).getD t.job, seq := k.copyCount + 1#64, ready := s.time + 4, who := .live (BitVec.ofNat 16 tid), obj := none }
  (s.setCore c { k with q4 := k.q4 ++ [a, { a with word := pushHigh d, seq := k.copyCount + 2#64 }]
                        copyCount := k.copyCount + 2#64 }).schedule (s.time + 4) (.copyStart (BitVec.ofNat 12 c))

/-- The stamp that the core writes in dword 7 of a q2 entry (R333) (DEDUCED 44). -/
def q2Stamp (mseq : BitVec 32) (slot : Nat) (gtid : BitVec 22) : Word :=
  (mseq.setWidth 64 <<< 32) ||| (BitVec.ofNat 64 slot <<< 24) ||| gtid.setWidth 64

/-- The lowest-numbered empty entry of q2. -/
def Core.q2Free (k : Core) : Option Nat := k.q2.toList.findIdx? (· == none)

/-- The oldest full entry of q2 with its number (R354). -/
def Core.q2Oldest (k : Core) : Option (Nat × Mail) :=
  oldest ((k.q2.toList.zipIdx).filterMap fun x => x.1.map fun m => (m.order, (x.2, m)))

/-- `xtake` of an entry: its data, the requester register, the entry empty (R335, R354). -/
def State.takeMail (s : State) (c : Nat) (n : Nat) (m : Mail) : State :=
  s.modCore c fun k => { k with
    q2 := k.q2.setIfInBounds n none
    requester := some ((entryDw m.data 7).extractLsb' 0 22, m.group) }

/-- A transfer slot that sleeps in `xtake` takes the oldest entry; it is ready 7 cycles after the push (R360). -/
def State.serveXtake (s : State) (c : Nat) : State :=
  let tid := c * 16 + 15
  match s.thread? tid, (s.core c).q2Oldest with
  | some t, some (n, m) =>
    match t.wait, t.run with
    | some w, .live => match w.what with
      | .xtake d =>
        (s.takeMail c n m).finish tid { t.memV d m.data with readyAt := max t.readyAt (s.time + 7) } (t.pc + 4#64) false 0
      | _ => s
    | _, _ => s
  | _, _ => s

/-- A push of 64 bytes to entry n of q2, accepted (R333) (DEDUCED 44). -/
def State.acceptQ2 (s : State) (tid : Nat) (t : Thread) (n : Nat) (d : VWord) : State :=
  let c := tidCore tid
  let k := s.core c
  let q := k.mseq + 1#32
  let m : Mail := { data := setEntryDw d 7 (q2Stamp q (tidSlot tid) (s.gtid tid)), group := t.group, order := s.fresh }
  { s.setCore c { k with q2 := k.q2.setIfInBounds n (some m), mseq := q } with fresh := s.fresh + 1 }

/-- The oldest thread of a core that waits for room in q2 (R333). -/
def State.q2First (s : State) (c : Nat) : Option Nat :=
  oldest ((s.coreThreads c).filterMap fun x => match x.2.wait, x.2.run with
    | some w, .live => if w.what = .again (.room 2#3) then some (w.order, x.1) else none
    | _, _ => none)

/-- A push of 64 bytes to q0, q2 or q4 by `cmdw` or by a store to an alias, with its waits (R299, R320, R333,
R336). -/
def State.push (s : State) (tid : Nat) (t : Thread) (q : Nat) (d : VWord) (relaxed : Bool) : State :=
  let k := s.core (tidCore tid)
  s.quietWait tid t fun _ =>
    if q = 0 then
      if k.q0.length + 2 ≤ Config.q0Entries then (s.nextMem tid t relaxed).acceptQ0 tid t d
      else s.retryOrHalt tid t (.room 0#3) none 0#64
    else if q = 2 then
      let free := if t.latchCnt.isNone ∧ (s.q2First (tidCore tid)).isSome then none else k.q2Free
      match free with
      | some n => (((s.nextMem tid t relaxed).acceptQ2 tid t n d).serveXtake (tidCore tid)).settleWithheld
      | none => s.retryOrHalt tid t (.room 2#3) (some t.defaultLimit) 2#64
    else if k.q4.length + 2 ≤ Config.q4Entries then (s.nextMem tid t relaxed).acceptQ4 tid t d
    else s.retryWhen tid t (.room 4#3)

/-- `cmdw qd, va`: the push of V[rs1]; ILLEGAL in a slot that R84 does not allow (R320). -/
def execCmdw (q : BitVec 3) (a : VReg) (s : State) : Out :=
  performing s fun tid t =>
    if s.pushLegal tid q.toNat then
      s.withVecs tid t [vdest a] fun _ => s.push tid t q.toNat (t.vreg a) false
    else s.illegal tid t (.cmdw q a)

/-! ### `qpop` (R321, R341) -/

/-- A record as `qpop` delivers it: q1 fills lanes 0 to 2, q5 also lane 3 (R321, R341). -/
def QRec.lanes (r : QRec) (copy : Bool) : VWord :=
  fromLanes 64 [r.status.toNat, r.seq.toNat, r.gtid.toNat, if copy then r.written.toNat % 2 ^ 40 else 0]

/-- The oldest record of q1 or q5 is popped into vd of a thread; its flags merge into the issuing group when
the thread belongs to it (R310). `extra` is the delay of a thread that slept. -/
def State.popRecord (s : State) (tid : Nat) (t : Thread) (d : VReg) (copy : Bool) (extra : Nat) : State :=
  let c := tidCore tid
  let k := s.core c
  match (if copy then k.q5 else k.q1) with
  | [] => s
  | r :: rest =>
    let s1 := s.setCore c (if copy then { k with q5 := rest } else { k with q1 := rest })
    let u := { t.memV d (r.lanes copy) with readyAt := max t.readyAt (s.time + extra) }
    let s2 := s1.finish tid u (t.pc + 4#64) false (if extra = 0 then 8 else 0)
    if t.group = r.group then s2.mergeFlags r.group (statusFlags r.status) else s2

/-- The oldest thread that sleeps in `qpop` on q1 or q5 of a core. -/
def State.qpopWaiter (s : State) (c : Nat) (q : BitVec 3) : Option (Nat × VReg) :=
  oldest ((s.coreThreads c).filterMap fun x => match x.2.wait, x.2.run with
    | some w, .live => match w.what with
      | .qpop d n => if n = q then some (w.order, (x.1, d)) else none
      | _ => none
    | _, _ => none)

/-- A record has been posted: the oldest sleeping `qpop` takes it and is ready 3 cycles later (R331, R360). -/
def State.serveQpop (s : State) (c : Nat) (copy : Bool) : State :=
  let k := s.core c
  if (if copy then k.q5 else k.q1).isEmpty then s
  else match s.qpopWaiter c (if copy then 5#3 else 1#3) with
    | some (tid, d) => match s.thread? tid with
      | some t => s.popRecord tid t d copy 3
      | none => s
    | none => s

/-- A completion that waits for room in q1 or q5 may go on (R308, R341). -/
def State.wakeCompletions (s : State) (c : Nat) (copy : Bool) : State :=
  if copy then
    (s.core c).copies.foldl (fun u r => if r.due ≤ s.time ∧ cmdPost r.cmd then
      u.schedule s.time (.copyCompletion (BitVec.ofNat 12 c) r.cmd.seq) else u) s
  else match (s.core c).q0Work with
    | w :: _ => if w.due ≤ s.time then s.schedule s.time (.meCommandCompletion (BitVec.ofNat 12 c)) else s
    | [] => s

/-- `qpop vd, qa`: the oldest record; it sleeps while the queue is empty, with limit SYNCLIM and EVAL = qa
(R321). -/
def execQpop (d : VReg) (q : BitVec 3) (s : State) : Out :=
  performing s fun tid t =>
    let c := tidCore tid
    let copy := q == 5#3
    if !(q == 1#3 || (copy && s.isTransfer tid)) then s.illegal tid t (.qpop d q)
    else if (if copy then (s.core c).q5 else (s.core c).q1).isEmpty then
      s.awaitOrHalt tid t (.qpop d q) (some t.defaultLimit) (q.setWidth 64)
    else (s.popRecord tid t d copy 0).wakeCompletions c copy

/-! ### `qstat` (R322) -/

/-- HELD of MEFAULT (R312). -/
def Core.held (k : Core) : Bool := k.mefault.getLsbD 63

/-- The state of a queue as `qstat` reads it (R322, R333, R336). -/
def Core.queueStat (k : Core) (q : Nat) : Word :=
  let busy := !k.q0Work.isEmpty || match k.q0Phase with | .checking _ _ => true | _ => false
  let word := fun (cap used : Nat) => BitVec.ofNat 64 (cap * 2 ^ 16 + used)
  if q = 0 then
    word Config.q0Entries k.q0.length ||| (if k.held then 1#64 <<< 32 else 0#64) ||| (if busy then 1#64 <<< 33 else 0#64)
  else if q = 1 then word Config.q1Records k.q1.length
  else if q = 2 then word Config.q2Entries (k.q2.toList.filter (·.isSome)).length
  else if q = 3 then word (getField k.inboxs 0 16) k.inboxUsed
  else if q = 4 then word Config.q4Entries k.q4.length
  else word Config.q5Records k.q5.length

/-- `qstat xd, qa` (R322); q6 and q7 name no queue (R84). -/
def execQstat (d : Reg) (q : BitVec 3) (s : State) : Out :=
  performing s fun tid t =>
    if qstatQueue q then s.writeReg tid t d ((s.core (tidCore tid)).queueStat q.toNat) false
    else s.illegal tid t (.qstat d q)

/-! ### Rings (R303, R323) -/

/-- Tiles of a ring: SIZE ÷ TILE. -/
def Core.ringTiles (k : Core) (n : Nat) : Nat := (regAt k.ringSize n).toNat / (regAt k.ringTile n).toNat

/-- Local-window offset of a ring (R302). -/
def Core.ringOff (k : Core) (n : Nat) : Nat := 16 * getField (regAt k.ringBase n) 4 15

/-- A valid ring (R303). -/
def Core.ringValid (k : Core) (n : Nat) : Bool :=
  let tile := (regAt k.ringTile n).toNat
  let size := (regAt k.ringSize n).toNat
  decide (tile ≠ 0) && decide (tile % 16 = 0) && decide (size ≠ 0) && decide (size % tile = 0)
    && decide (k.ringOff n + size ≤ spadSize) && decide (k.ringOcc n ≤ k.ringTiles n)

/-- `radv ringn, xa`: a release; RINGOVF when the ring cannot hold X[rs1] more tiles (R323). -/
def execRadv (n : BitVec 3) (a : Reg) (s : State) : Out :=
  performing s fun tid t =>
    s.quietWait tid t fun _ =>
      let v := t.reg a
      let c := tidCore tid
      let k := s.core c
      if v = 0#64 then s.next tid t
      else if 2 ^ 32 ≤ v.toNat ∨ !k.ringValid n.toNat ∨ k.ringTiles n.toNat < k.ringOcc n.toNat + v.toNat then
        s.trap tid t cRINGOVF v
      else
        let tail := (regAt k.ringTail n.toNat + v) &&& 0xFFFFFFFF#64
        (((s.next tid t).modCore c fun k => { k with ringTail := k.ringTail.setIfInBounds n.toNat tail }).schedule
          s.time (.meStart (BitVec.ofNat 12 c))).settleWithheld

/-! ### Holds of the matrix engine (R311 to R314, R324) -/

/-- KIND of MEFAULT: 1 RESCALE, 2 ILLCMD (R312). -/
def Core.holdKind (k : Core) : Nat := getField k.mefault 60 3

/-- HELD := 0; the other fields stay (R312). -/
def Core.clearHeld (k : Core) : Core := { k with mefault := k.mefault &&& 0x7FFFFFFFFFFFFFFF#64 }

/-- The held command, when the thread belongs to its issuing group on this core (R324). -/
def State.heldFor? (s : State) (tid : Nat) (t : Thread) : Option Cmd :=
  let k := s.core (tidCore tid)
  match k.q0 with
  | c :: _ => if k.held && c.group == t.group then some c else none
  | [] => none

/-- Header fields of a status word (R306): opcode, slot, engine, tag, detail, flags and code. -/
def statusWord (c : Cmd) (copy : Bool) (detail : Nat) (f : Flags) (code : Nat) : Word :=
  BitVec.ofNat 64 ((c.word.extractLsb' 0 8).toNat * 2 ^ 56 + tidSlot c.tid.toNat * 2 ^ 52 + (if copy then 2 ^ 51 else 0)
    + (c.word.extractLsb' 16 16).toNat * 2 ^ 32 + detail % 65536 * 2 ^ 16 + f.toNat * 2 ^ 8 + code)

/-- `meskip` of the held command of a core (R313, R324): a RESCALE hold completes it in the next cycle with
DETAIL 0x8000, an ILLCMD hold removes it without completion; the queue goes on at once. -/
def State.skipHeld (s : State) (c : Nat) : State :=
  let k := s.core c
  match k.held, k.q0 with
  | true, h :: rest =>
    if k.holdKind = 1 then
      ((s.setCore c { k.clearHeld with
          q0Phase := .queued
          q0Work := [{ status := statusWord h false 0x8000 0#6 0, due := s.time + 1, writes := [], pops := false }] }).schedule
        (s.time + 1) (.meCommandCompletion (BitVec.ofNat 12 c))).schedule s.time (.meStart (BitVec.ofNat 12 c))
    else
      (s.setCore c { k.clearHeld with q0 := rest, q0Phase := .queued }).schedule s.time (.meStart (BitVec.ofNat 12 c))
  | _, _ => s

/-- Index, within its bank, of element e of a target or source at a local-window address (R121). -/
def elemAt (r : Word) (a e : Nat) : Nat :=
  let w := codeBits (bfFmt r)
  (a * 8 / w + e) % (16384 * 8 / w)

/-- The scale groups of 2,048 elements from an address, each once. -/
def accGroups (r : Word) (a : Nat) : List Nat := ((List.range 2048).map fun e => bfGroupOf r (elemAt r a e)).eraseDups

/-- `mesc xa`: the scale entry of every block of the held `acc.st`, and MESCALE (R324). -/
def execMesc (a : Reg) (s : State) : Out :=
  performing s fun tid t =>
    let c := tidCore tid
    let k := s.core c
    let v := t.reg a
    match s.heldFor? tid t with
    | some h =>
      if k.holdKind = 1 ∧ v.toNat ≤ 0xFE then
        let addr := (h.word.extractLsb' 96 19).toNat
        let r := regAt k.bfmt (addr / 16384)
        let mem := (accGroups r addr).foldl (fun m i => writeBytes m (spadAddr c (entryOff r i)) 1 v.toNat) s.mem
        ({ s with mem := mem }.setCore c { k with mescale := v &&& 0xFF#64 }).next tid t
      else s.illegal tid t (.mesc a)
    | none => s.illegal tid t (.mesc a)

/-- `mereplay`: the held `acc.st` starts again 4 cycles after issue (R324). -/
def execMereplay (s : State) : Out :=
  performing s fun tid t =>
    let c := tidCore tid
    let k := s.core c
    match s.heldFor? tid t with
    | some _ =>
      if k.holdKind = 1 then
        let ready := max k.q0Ready (s.time + 4)
        ((s.setCore c { k.clearHeld with q0Phase := .queued, q0Ready := ready }).schedule ready
          (.meStart (BitVec.ofNat 12 c))).next tid t
      else s.illegal tid t .mereplay
    | none => s.illegal tid t .mereplay

/-- `meskip` (R324). -/
def execMeskip (s : State) : Out :=
  performing s fun tid t =>
    match s.heldFor? tid t with
    | some _ => (s.skipHeld (tidCore tid)).next tid t
    | none => s.illegal tid t .meskip

end Sys2Proof.Machine
end

