-- ==== Sys2Proof/Machine/Handles.lean ====
section
/-! DEFINITION. Buffer handles (R344 to R347, R350 to R353) and `xtake` (R354). -/

set_option Elab.async false

namespace Sys2Proof.Machine

/-- Handle h of a core. -/
def Core.handle (k : Core) (h : Nat) : Handle := (k.handles[h]?).getD Handle.reset

/-- The core with handle h replaced. -/
def Core.setHandle (k : Core) (h : Nat) (e : Handle) : Core := { k with handles := k.handles.setIfInBounds h e }

/-- Threads that sleep in `hwait` for a state of a handle, in the order in which their waits began. -/
def State.hwaiters (s : State) (c h : Nat) (st : HState) : List Nat :=
  (s.coreThreads c).filterMap fun x => match x.2.wait, x.2.run with
    | some w, .live => match w.what with
      | .handle g u => if g.toNat = h ∧ u = st then some x.1 else none
      | _ => none
    | _, _ => none

/-- A handle changes state (R345): every thread that waits for the new state is served and is ready 3 cycles
later (R351). -/
def State.setHState (s : State) (c h : Nat) (st : HState) : State :=
  let s1 := s.modCore c fun k => k.setHandle h { k.handle h with st := st }
  (s1.hwaiters c h st).foldl (fun u tid => match u.thread? tid with
    | some t => (u.countServe tid (serveKey (u.ownRank t.job) (.handle (BitVec.ofNat 12 c) (BitVec.ofNat 6 h)))).finish tid { t with readyAt := max t.readyAt (u.time + 3) } (t.pc + 4#64) false 0
    | none => u) s1

/-- A running copy of the core is a copy-out of the handle. -/
def Core.draining (k : Core) (h : Nat) : Bool :=
  k.copies.any fun r => match r.copyOut with | some x => x.toNat == h | none => false

/-- A running copy of the core names the handle. -/
def Core.copying (k : Core) (h : Nat) : Bool :=
  k.copies.any fun r => r.cmd.word.getLsbD 12 && decide ((r.cmd.word.extractLsb' 248 6).toNat = h)
    && (r.copyIn.isSome || r.copyOut.isSome)

/-- `hdrain` of a FULL handle: DRAINING, and FREE at once when no copy-out names it (R345, R352). -/
def State.drainHandle (s : State) (c h : Nat) : State :=
  let s1 := s.setHState c h .draining
  if (s1.core c).draining h then s1 else s1.setHState c h .free

/-- The handles of a core that groups of a kind have bound become FREE, which serves their waiters, and unbound, once no running
copy names them (R344, R351). -/
def State.freeHandles (s : State) (c : Nat) (gone : Nat → Bool) : State :=
  (List.range 64).foldl (fun u h =>
    let e := (u.core c).handle h
    if e.bound && gone e.group && !(u.core c).copying h then
      (if e.st = .free then u else u.setHState c h .free).modCore c fun k => k.setHandle h Handle.reset
    else u) s

/-- Handles bound by a group that has ended become unbound and FREE once no running copy names them (R344). -/
def State.unbindGroup (s : State) (g : Nat) : State := s.cores.foldl (fun u x => u.freeHandles x.1 fun n => n == g) s

/-- Two regions of a scratchpad meet. -/
def Handle.meets (e : Handle) (b n : Nat) : Bool := e.bound && rangesMeet e.base.toNat e.len.toNat b n

/-- `hbind xd, xa, xb` (R350). -/
def execHbind (d a b : Reg) (s : State) : Out :=
  performing s fun tid t =>
    let x := t.reg a
    let n := t.reg b
    let c := tidCore tid
    let k := s.core c
    if !aligned x 16 || !aligned n 16 || n == 0#64 || decide (spadSize < x.toNat + n.toNat) then
      s.trap tid t cACCESSFAULT x
    else if k.handles.toList.any fun e => e.meets x.toNat n.toNat then
      s.writeReg tid t d 0xFFFFFFFFFFFFFFFE#64 false
    else match k.handles.toList.findIdx? (fun e => !e.bound) with
      | none => s.writeReg tid t d 0xFFFFFFFFFFFFFFFF#64 false
      | some h =>
        (s.setCore c (k.setHandle h { bound := true, st := .free, len := BitVec.ofNat 20 n.toNat
                                      base := BitVec.ofNat 19 x.toNat, group := t.group })).writeReg
          tid t d (BitVec.ofNat 64 h) false

/-- A handle instruction: HSTATE when the operand numbers no handle (chapter 14, Instructions). -/
def State.withHandle (s : State) (tid : Nat) (t : Thread) (a : Reg) (f : Nat → Handle → State) : State :=
  let h := t.reg a
  if 63 < h.toNat then s.trap tid t cHSTATE h else f h.toNat ((s.core (tidCore tid)).handle h.toNat)

/-- `hwait xa, s`: it completes at once in the state named, and sleeps otherwise (R351). -/
def execHwait (a : Reg) (st : HState) (s : State) : Out :=
  performing s fun tid t =>
    s.withHandle tid t a fun h e =>
      if !e.bound then s.trap tid t cHSTATE (t.reg a)
      else if e.st = st then s.next tid t
      else s.awaitOrHalt tid t (.handle (BitVec.ofNat 6 h) st) (some t.defaultLimit) (t.reg a)

/-- `hdrain xa`: a release; the handle must be bound and FULL (R352). -/
def execHdrain (a : Reg) (s : State) : Out :=
  performing s fun tid t =>
    s.withHandle tid t a fun h e =>
      if e.bound && e.st == .full then
        s.quietWait tid t fun _ => ((s.next tid t).drainHandle (tidCore tid) h).settleWithheld
      else s.trap tid t cHSTATE (t.reg a)

/-- `hfree xa`: a bound FREE handle becomes unbound with every field 0; an unbound one stays (R352). -/
def execHfree (a : Reg) (s : State) : Out :=
  performing s fun tid t =>
    s.withHandle tid t a fun h e =>
      if !e.bound then s.next tid t
      else if e.st = .free then (s.modCore (tidCore tid) fun k => k.setHandle h Handle.reset).next tid t
      else s.trap tid t cHSTATE (t.reg a)

/-- STATE of a handle as `hstat` reads it (R344). -/
def hstateNo : HState → Nat
  | .free => 0
  | .filling => 1
  | .full => 2
  | .draining => 3

/-- The entry as `hstat` reads it (R344). -/
def Handle.word (e : Handle) : Word :=
  BitVec.ofNat 64 ((if e.bound then 2 ^ 63 else 0) + hstateNo e.st * 2 ^ 58 + e.len.toNat * 2 ^ 32 + e.base.toNat)

/-- `hstat xd, xa` (R353). -/
def execHstat (d a : Reg) (s : State) : Out :=
  performing s fun tid t => s.withHandle tid t a fun _ e => s.writeReg tid t d e.word false

/-- `xtake vd`: the oldest request, and the requester register; it sleeps while q2 is empty (R354). -/
def execXtake (d : VReg) (s : State) : Out :=
  performing s fun tid t =>
    if !s.isTransfer tid then s.illegal tid t (.xtake d)
    else match (s.core (tidCore tid)).q2Oldest with
      | some (n, m) => (s.takeMail (tidCore tid) n m).next tid (t.memV d m.data)
      | none => s.await tid t (.xtake d) none 0#64

end Sys2Proof.Machine
end

