-- ==== Sys2Proof/Machine/Inbox.lean ====
section
/-! DEFINITION. Inboxes: records and their placement (R250 to R252), waiters (R257), bounces and offers
(R253), the cast queue (R255), and the completion messages of launches (R167). -/

set_option Elab.async false

namespace Sys2Proof.Machine

/-! ### Records (R251) -/

/-- A record to be placed: the fields of its header that the sender gives, and its payload. -/
structure MsgRec where
  src     : BitVec 22
  kind    : Nat
  len     : BitVec 2
  tag     : BitVec 4
  reason  : Nat
  chan    : BitVec 6
  dslot   : BitVec 4
  payload : VWord
  deriving DecidableEq, Repr

/-- Payload bytes of a length code. -/
def payloadBytes (len : BitVec 2) : Nat := 16 * (len.toNat + 1)

/-- Bytes of a record. -/
def MsgRec.size (r : MsgRec) : Nat := 16 + payloadBytes r.len

/-- Dword 0 of a header. -/
def MsgRec.dword0 (r : MsgRec) (seq : BitVec 32) : Word :=
  BitVec.ofNat 64 (seq.toNat * 2 ^ 32 + r.src.toNat * 2 ^ 8 + r.kind * 2 ^ 6 + r.len.toNat * 2 ^ 4 + r.tag.toNat)

/-- Dword 1 of a header. -/
def MsgRec.dword1 (r : MsgRec) (time : Nat) : Word :=
  BitVec.ofNat 64 (time % 2 ^ 48 * 2 ^ 16 + r.reason * 2 ^ 12 + r.chan.toNat * 2 ^ 4 + r.dslot.toNat)

/-- The payload, zero above its length. -/
def MsgRec.data (r : MsgRec) : VWord := BitVec.ofNat 512 (r.payload.toNat % 2 ^ (8 * payloadBytes r.len))

/-- The record as it stands in a ring: header and payload as one number. -/
def MsgRec.bits (r : MsgRec) (seq : BitVec 32) (time : Nat) : Nat :=
  (r.dword0 seq).toNat + (r.dword1 time).toNat * 2 ^ 64 + r.data.toNat * 2 ^ 128

/-- The message of a thread as a record. -/
def OutMsg.record (m : OutMsg) (src : BitVec 22) : MsgRec :=
  { src := src, kind := 0, len := m.len, tag := m.tag, reason := 0, chan := 0, dslot := m.dest.setWidth 4, payload := m.payload }

/-- A bounce: header and payload kept but for KIND, SRC and REASON (R253). -/
def OutMsg.bounce (m : OutMsg) (reason : Nat) : MsgRec :=
  { m.record m.dest with kind := 2, reason := reason }

/-- A cast as a record (R255). -/
def CastRec.record (r : CastRec) : MsgRec :=
  { src := r.src, kind := 0, len := 1, tag := 15, reason := 0, chan := r.chan, dslot := 0, payload := r.payload.setWidth 512 }

/-! ### Placement (R252) -/

/-- HEAD, TAIL and USED in bytes. -/
def Core.inboxHead (k : Core) : Nat := 16 * getField k.inboxb 48 16
def Core.inboxTail (k : Core) : Nat := 16 * getField k.inboxb 32 16
def Core.inboxUsedBytes (k : Core) : Nat := 16 * k.inboxUsed

/-- The core with HEAD, TAIL and USED, given in bytes. -/
def Core.setInbox (k : Core) (head tail used : Nat) : Core :=
  { k with
    inboxb := putField (putField k.inboxb 48 16 (head / 16)) 32 16 (tail / 16)
    inboxs := putField k.inboxs 32 16 (used / 16) }

/-- DROP incremented, saturating (R250). -/
def Core.drop (k : Core) : Core :=
  { k with inboxs := putField k.inboxs 48 16 (min 0xFFFF (getField k.inboxs 48 16 + 1)) }

/-- Bytes of a record written into a ring. -/
def State.ringWrite (s : State) (c off n bits : Nat) : State :=
  let a := spadAddr c ((s.core c).inboxBase + off)
  { s with mem := writeBytes s.mem a n bits }.rebuild a n

/-- An empty ring begins anew before a record is placed, or refused (R252). -/
def State.emptied (s : State) (c : Nat) : State :=
  if (s.core c).inboxUsed = 0 then s.modCore c fun k => k.setInbox 0 0 0 else s

/-- A record placed at the tail, after a pad when it does not fit before the end; none when the ring has no
room (R252). -/
def State.writeRec (s : State) (c : Nat) (r : MsgRec) : Option State :=
  let k := s.core c
  let cap := k.inboxCap
  let n := r.size
  let tail := k.inboxTail
  let used := k.inboxUsedBytes
  let bits := r.bits k.inboxSeq s.time
  let k1 := { k with inboxSeq := k.inboxSeq + 1#32 }
  if tail + n ≤ cap then
    if cap < used + n then none
    else some ((s.setCore c (k1.setInbox k.inboxHead ((tail + n) % cap) (used + n))).ringWrite c tail n bits)
  else
    let e := cap - tail
    if cap < used + e + n then none
    else some (((s.setCore c (k1.setInbox k.inboxHead n (used + e + n))).ringWrite c tail 16 (2 ^ 6)).ringWrite c 0 n bits)

/-- The ring with a pad at its head skipped (R252). -/
def State.skipPad (s : State) (c : Nat) : State :=
  let k := s.core c
  if k.inboxUsed = 0 then s
  else
    let d := readBytes s.mem (spadAddr c (k.inboxBase + k.inboxHead)) 8
    if d / 2 ^ 6 % 4 = 1 then
      (s.setCore c (k.setInbox 0 k.inboxTail (k.inboxUsedBytes - (k.inboxCap - k.inboxHead)))).wakeCasts c
    else s

/-- A record as a reader sees it: dword 0 of its header, its length and its payload. -/
structure HeadRec where
  dword0  : Word
  size    : Nat
  payload : VWord
  deriving DecidableEq, Repr

/-- The record at the head, pads skipped. -/
def State.headRec (s : State) (c : Nat) : Option HeadRec :=
  let k := s.core c
  if k.inboxUsed = 0 then none
  else
    let a := spadAddr c (k.inboxBase + k.inboxHead)
    let d := BitVec.ofNat 64 (readBytes s.mem a 8)
    let n := payloadBytes (d.extractLsb' 4 2)
    some { dword0 := d, size := 16 + n, payload := BitVec.ofNat 512 (readBytes s.mem (a + 16) n) }

/-- The head record popped. -/
def State.popHead (s : State) (c : Nat) (r : HeadRec) : State :=
  (s.modCore c fun k =>
    let cap := k.inboxCap
    k.setInbox (if cap = 0 then 0 else (k.inboxHead + r.size) % cap) k.inboxTail (k.inboxUsedBytes - r.size)).wakeCasts c

/-! ### Reading instructions (R268) and waiters (R257) -/

/-- `recv` or `peek` completes with the head record. -/
def State.takeRec (s : State) (tid : Nat) (t : Thread) (pop : Bool) (d : Reg) (v : VReg) (r : HeadRec) (extra : Nat) : State :=
  let u := (t.setReg d r.dword0 false).memV v r.payload
  let s1 := if pop then s.popHead (tidCore tid) r else s
  s1.finish tid { u with readyAt := max u.readyAt (s.time + extra) } (t.pc + 4#64) false (if extra = 0 then 8 else 0)

/-- `btag` completes with the head record's tag (R268). -/
def State.goTag (s : State) (tid : Nat) (t : Thread) (off : BitVec 12) (r : HeadRec) (extra : Nat) : State :=
  let target := t.branchTarget off + ((r.dword0.extractLsb' 0 4).setWidth 64 <<< 2)
  let u := { t with readyAt := max t.readyAt (s.time + extra) }
  if aligned target 4 then s.finish tid u target true (if extra = 0 then 8 else 0)
  else s.trapWaited tid u cMISALIGN target

/-- Waiting readers of a core's inbox, oldest first. -/
def State.inboxWaiters (s : State) (c : Nat) : List (Nat × Nat × WaitFor) :=
  (s.coreThreads c).filterMap fun x => match x.2.wait, x.2.run with
    | some w, .live => match w.what with
      | .recv _ _ | .peek _ _ | .btag _ => some (w.order, x.1, w.what)
      | _ => none
    | _, _ => none

/-- One waiting reader served with the head record. -/
def State.serveReader (s : State) (c tid : Nat) (w : WaitFor) : State :=
  match (s.skipPad c).headRec c, s.thread? tid with
  | some r, some t => match w with
    | .recv d v => ((s.countServe tid (inboxKey c)).skipPad c).takeRec tid t true d v r 3
    | .peek d v => ((s.countServe tid (inboxKey c)).skipPad c).takeRec tid t false d v r 3
    | .btag off => ((s.countServe tid (inboxKey c)).skipPad c).goTag tid t off r 3
    | _ => s
  | _, _ => s

/-- Every waiting `peek` and `btag`, and then the oldest waiting `recv`, or in replay the logged one, is served (R257, R418). -/
def State.serveInbox (s : State) (c : Nat) : State :=
  let ws := s.inboxWaiters c
  let isRecv := fun (w : Nat × Nat × WaitFor) => match w.2.2 with | .recv _ _ => true | _ => false
  let s1 := (ws.filter fun w => !isRecv w).foldl (fun u w => u.serveReader c w.2.1 w.2.2) s
  match oldest ((ws.filter isRecv).filter fun w => s1.mayServe w.2.1 (inboxKey c)) with
  | some w => s1.serveReader c w.1 w.2
  | none => s1

/-- A record placed, and its waiters served; none when it is refused (R252). -/
def State.putRec (s : State) (c : Nat) (r : MsgRec) : Option State :=
  ((s.emptied c).writeRec c r).map fun u => u.serveInbox c

/-- Queued casts enter the ring, in order, as room appears (R255). -/
def State.drainCasts (c : Nat) : Nat → State → State
  | 0, s => s
  | n + 1, s => match (s.core c).castQ with
    | [] => s
    | x :: rest => match s.putRec c x.record with
      | none => s
      | some u => State.drainCasts c n (u.modCore c fun k => { k with castQ := rest })

/-- A cast reaches a subscribed core (R255). -/
def State.deliverCast (s : State) (c : Nat) (r : CastRec) : State :=
  let k := s.core c
  let queued : State := (if k.castQ.length < 8 then s.setCore c { k with castQ := k.castQ ++ [r] } else s.setCore c k.drop).emptied c
  if k.castQ.isEmpty then
    match s.putRec c r.record with
    | some u => (State.drainCasts c 8 u).settleWithheld
    | none => queued
  else queued

/-- A bounce in the sender core's inbox: dropped when it does not fit or is refused (R253). -/
def State.bounceTo (s : State) (c : Nat) (r : MsgRec) : State :=
  match s.putRec c r with
  | some u => u.settleWithheld
  | none => (s.emptied c).modCore c Core.drop

/-! ### Forwarding entries (R375) -/

/-- Whether an entry redirects a thread id. -/
def Fwd.covers (e : Fwd) (tid : Nat) : Bool := if e.whole then e.src.toNat == tidCore tid else e.src.toNat == tid

/-- The thread id to which an entry redirects. -/
def Fwd.target (e : Fwd) (tid : Nat) : Nat := if e.whole then e.dst.toNat * 16 + tidSlot tid else e.dst.toNat

/-- The entry, in use now when it redirects a thread id (DEDUCED 59). -/
def Fwd.touch (tid now : Nat) (e : Fwd) : Fwd := if e.covers tid then { e with last := now } else e

/-- The thread id that a thread id names once the forwarding entries of its core's cluster are followed (DEDUCED 59). -/
def State.forwardTid (s : State) : Nat → Nat → Nat
  | 0, tid => tid
  | n + 1, tid => match (s.cluster (coreCluster (tidCore tid))).forward.find? fun (e : Fwd) => e.covers tid with
    | some e => s.forwardTid n (e.target tid)
    | none => tid

/-- The core that a core id names (R375). -/
def State.forwardCore (s : State) : Nat → Nat → Nat
  | 0, c => c
  | n + 1, c => match (s.cluster (coreCluster c)).forward.find? fun (e : Fwd) => e.whole && e.src.toNat == c with
    | some e => s.forwardCore n e.dst.toNat
    | none => c

/-- The entries that redirect a thread id are in use at this cycle. -/
def State.touchForward (s : State) (tid : Nat) : State :=
  let n := coreCluster (tidCore tid)
  if (s.cluster n).forward.any fun (e : Fwd) => e.covers tid then
    s.modCluster n fun k => { k with forward := k.forward.map (Fwd.touch tid s.time) }
  else s

/-- A scratchpad address of this module, with its core followed through the forwarding entries (DEDUCED 59). -/
def State.forwardAddr (s : State) (a : Nat) : Nat :=
  if isSpad a then spadAddr (s.forwardCore 4 (spadCore a)) (spadOff a) else a

/-! ### Offers (R253) -/

/-- The answer to an offer. -/
inductive Offered where
  | placed (s : State)
  | refused (s : State)
  | bounced (reason : Nat)
  | held                       -- toward a dark rank (R237)

/-- An offer of a message by a sender at its destination, forwarded when that has moved (R253, R370, R237, R375). A peer rank is outside the
module: its inbox takes every message (assumption 20). -/
def State.offer (s0 : State) (src : BitVec 22) (m0 : OutMsg) : Offered :=
  let rank := m0.peer
  let old := (m0.dest.extractLsb' 0 16).toNat
  let tid := if s0.isOwn rank then s0.forwardTid 4 old else old
  let s := if tid = old then s0 else s0.touchForward old
  let m := { m0 with dest := rank.rank ++ BitVec.ofNat 16 tid }
  let c := tidCore tid
  if !s.isOwn rank then
    let e := s.rankEntry rank
    if rankState e = 2 then .bounced 2
    else if rankState e = 1 then .held
    else .placed { s with peerInbox := s.peerInbox ++ [(m.dest, m, src)] }
  else if (s.core c).lost then .bounced 2
  else match s.diverting tid with
    | some x =>
      if x.msgs.length < 8 then
        .placed { s with susps := mapFirst (fun y => y.id == x.id)
                           (fun y => { y with msgs := y.msgs ++ [(BitVec.ofNat 16 tid, m, src)] }) s.susps }
      else .refused s
    | none =>
      if (s.core c).marks.getLsbD (tidSlot tid) then .bounced 1
      else match s.putRec c (m.record src) with
        | some u => .placed u.settleWithheld
        | none => .refused (s.emptied c)

/-- The oldest message of a slot's outbound queue. -/
def Core.outHead (k : Core) (slot : Nat) : Option OutMsg := (k.outq.find? fun x => x.1.toNat == slot).map (·.2)

/-- The core without the oldest message of a slot's outbound queue. -/
def Core.popOut (k : Core) (slot : Nat) : Core := match takeFirst (fun (x : BitVec 4 × OutMsg) => x.1.toNat == slot) k.outq with
  | some (_, l) => { k with outq := l }
  | none => k

/-- Messages in a slot's outbound queue. -/
def Core.outUsed (k : Core) (slot : Nat) : Nat := (k.outq.filter fun x => x.1.toNat == slot).length

/-- One-way time of a message to its destination, and the 4 cycles to its placement (R267). -/
def State.offerTime (s : State) (tid : Nat) (m : OutMsg) : Nat :=
  let n := 16 + payloadBytes m.len
  if s.isOwn m.peer then
    meshLatency (coreCluster (tidCore tid)) (coreCluster (tidCore (m.dest.extractLsb' 0 16).toNat)) n + 4
  else
    let r := s.rankRange m.peer
    s.pick r.1 r.2 / 2 + 4

/-- The oldest message of a slot is on its way, or waits to be sent or answered. -/
def State.messageOut (s : State) (tid : Nat) : Bool := s.timed.any fun t => match t.what with
  | .messageOffer x | .messageReoffer x | .messageSend x _ | .messageAnswer x _ => x.toNat == tid
  | _ => false

/-- The core after the injection of a packet of a slot's thread that waits at a place of its port's order, or the cycle of the next
attempt (R223). -/
def State.spendPacket (s : State) (tid n bytes : Nat) : Except Nat Core :=
  s.portTry (tidCore tid) (s.threadClass tid) n ((bytes + 63) / 64)

/-- The oldest message of a slot is sent to its destination on the ordered path, once it may leave the port, where it waits since
`since`, 0 for now: a dark rank holds it, and a lost one bounces it (R217, R218, R223, R237, R253). -/
def State.sendOut (s : State) (tid since : Nat) : State :=
  let c := tidCore tid
  match (s.core c).outHead (tidSlot tid) with
  | none => s
  | some m =>
    let rank := m.peer
    let st := if s.isOwn rank then 0 else rankState (s.rankEntry rank)
    if s.messageOut tid ∨ st = 1 then s
    else if st = 2 then
      ((s.modCore c fun k => k.popOut (tidSlot tid)).bounceTo c (m.bounce 2)).schedule s.time (.messageSend (BitVec.ofNat 16 tid) 0)
    else
      let n := if since = 0 then s.fresh else since
      match s.spendPacket tid n (16 + payloadBytes m.len) with
      | .error again => s.bump.schedule again (.messageSend (BitVec.ofNat 16 tid) n)
      | .ok k =>
        let (s1, due) := (s.setCore c k).onPath c (s.coreNode rank (tidCore (m.dest.extractLsb' 0 16).toNat)) (s.time + s.offerTime tid m) 0
        s1.bump.schedule due (.messageOffer (BitVec.ofNat 16 tid))

/-- A slot's oldest message has been placed or bounced: the next one is sent. -/
def State.sendNext (s : State) (tid : Nat) : State := (s.modCore (tidCore tid) fun k => k.popOut (tidSlot tid)).sendOut tid 0

/-- The offer of a slot's oldest message arrives: it leaves the queue when it is placed or bounced, and is offered again 64
cycles later when it is refused (R253). What a peer rank answers is free, and its answer travels back (DESIGN CHOICE 20). -/
def State.offerArrives (s : State) (tid : Nat) : State :=
  let c := tidCore tid
  match (s.core c).outHead (tidSlot tid) with
  | none => s
  | some m =>
    let rank := m.peer
    let src := s.ownRank m.job ++ BitVec.ofNat 16 tid
    if s.isOwn rank then
      match s.offer src m with
      | .placed u => u.sendNext tid
      | .bounced r => (s.bounceTo c (m.bounce r)).sendNext tid
      | .refused u => u.schedule (u.time + 64) (.messageReoffer (BitVec.ofNat 16 tid))
      | .held => s
    else
      let answer := s.pick 0 3
      let s0 := s.bump
      let s1 := if answer = 0 then { s0 with peerInbox := s.peerInbox ++ [(m.dest, m, src)] } else s0
      let (s2, due) := s1.onPath (s.coreNode rank (tidCore (m.dest.extractLsb' 0 16).toNat)) c (s.time + s0.offerTime tid m) 0
      s2.bump.schedule due (.messageAnswer (BitVec.ofNat 16 tid) answer)

/-- A refused message of this module is offered again: its packet takes its tokens anew (R223, R253). -/
def State.reoffer (s : State) (tid : Nat) : State :=
  match (s.core (tidCore tid)).outHead (tidSlot tid) with
  | none => s
  | some m => match s.spendPacket tid s.fresh (16 + payloadBytes m.len) with
    | .error again => s.schedule again (.messageReoffer (BitVec.ofNat 16 tid))
    | .ok k => (s.setCore (tidCore tid) k).offerArrives tid

/-- The answer of a peer rank returns: placed, refused, or bounced with REASON 1 or 3 (R253) (DESIGN CHOICE 20). -/
def State.messageAnswered (s : State) (tid answer : Nat) : State :=
  match (s.core (tidCore tid)).outHead (tidSlot tid) with
  | none => s
  | some m =>
    if answer = 0 then s.sendNext tid
    else if answer = 1 then s.schedule (s.time + 64) (.messageSend (BitVec.ofNat 16 tid) 0)
    else (s.bounceTo (tidCore tid) (m.bounce (if answer = 2 then 1 else 3))).sendNext tid

/-! ### Completion messages of launches (R26, R167) -/

/-- The record of a completion message: SRC 0, a payload of 16 zero bytes (DEDUCED 49). -/
def doneRecord (dest : BitVec 22) (tag : BitVec 4) : MsgRec :=
  { src := 0, kind := 0, len := 0, tag := tag, reason := 0, chan := 0, dslot := dest.setWidth 4, payload := 0#512 }

/-- The completion messages of a die that find room are placed; the others wait (DEDUCED 49). -/
def State.sendDone (s : State) (die : Nat) : State :=
  let l := (s.die die).doneMsgs
  let (u, left) := l.foldl (fun (acc : State × List (BitVec 32 × BitVec 22 × BitVec 4)) x =>
    let m : OutMsg := { job := x.1, dest := x.2.1, tag := x.2.2, len := 0, payload := 0#512 }
    match acc.1.offer 0#22 m with
    | .placed v => (v, acc.2)
    | .bounced _ => acc
    | .refused v => (v, acc.2 ++ [x])
    | .held => (acc.1, acc.2 ++ [x])) (s, [])
  let v := u.modDie die fun d => { d with doneMsgs := left }
  if left.isEmpty then v else v.schedule (v.time + 64) (.tquDeal (BitVec.ofNat 2 die))

end Sys2Proof.Machine
end

