-- ==== Sys2Proof/Machine/Life.lean ====
section
/-! DEFINITION. The life of a thread and of its group: slots and claims (R155 to R159, R164), the state at
thread start (R158), arrival queues and spill rings (R233 to R235), leaving a slot (R157, R255, R311, R313),
and the ends of groups and launches (R26, R159, R162). -/

set_option Elab.async false

namespace Sys2Proof.Machine

/-! ### Slots (R155 to R159, R164) -/

/-- THDIS of a slot (R156). -/
def Core.disabled (k : Core) (slot : Nat) : Bool := k.slotcfg.getLsbD (16 + slot)

/-- MODE of a core (R156). -/
def Core.expert (k : Core) : Bool := k.slotcfg.getLsbD 0

/-- A worker slot: 1 to 14, and 15 when it has no transfer duty (R14, R156). -/
def Core.worker (k : Core) (slot : Nat) : Bool := decide (1 ≤ slot) && (decide (slot ≤ 14) || (slot == 15 && !k.xfer))

/-- The worker slots of a core, lowest first. -/
def Core.workers (k : Core) : List Nat := (List.range 16).filter k.worker

/-- A slot that a buffered entry or a resume in progress has claimed (R164, R378). -/
def State.claimed (s : State) (tid : Nat) : Bool :=
  ((s.core (tidCore tid)).buffer.any fun b => b.claim.any fun x => x.toNat == tidSlot tid)
  || s.resumes.any fun r => r.claims.any fun x => x.toNat == tid

/-- A worker slot is free: vacant, unclaimed and enabled (R235, R373). -/
def State.slotFree (s : State) (tid : Nat) : Bool :=
  (s.thread? tid).isNone && !s.claimed tid && !(s.core (tidCore tid)).disabled (tidSlot tid)
    && !(s.diverting tid).isSome

/-- The lowest-numbered free worker slot of a core for a thread of a group: a core that a group of level core or above
owns gives its slots to the rovers that the group itself starts, and to no arriving rover (R159) (DEDUCED 67). -/
def State.freeWorker (s : State) (c : Nat) (group : Option Nat) : Option Nat :=
  let k := s.core c
  if (k.owner.isSome && k.owner != group) || k.lost then none else k.workers.find? fun n => s.slotFree (c * 16 + n)

/-- A rover stands in a core's arrival queue or spill ring: it takes a slot that falls vacant before a task does (R235). -/
def Core.arrivalWaits (k : Core) : Bool := !k.arrQ.isEmpty || !k.spill.isEmpty

/-- The free worker slot that a dealt task can take (R164, R235). -/
def State.taskWorker (s : State) (c : Nat) : Option Nat := if (s.core c).arrivalWaits then none else s.freeWorker c none

/-- Every worker slot of a core is vacant and unclaimed, no rover waits for one, and no group owns the core (R164). -/
def State.coreVacant (s : State) (c : Nat) : Bool :=
  let k := s.core c
  k.owner.isNone && !k.lost && !k.arrivalWaits && k.workers.all fun n =>
    (s.thread? (c * 16 + n)).isNone && !s.claimed (c * 16 + n) && !(s.diverting (c * 16 + n)).isSome

/-- An idle core of a unit: a vacant one, whose buffer, under MODE = 0, is about to start nothing (R164). -/
def State.coreIdle (s : State) (c : Nat) : Bool := s.coreVacant c && ((s.core c).expert || (s.core c).buffer.isEmpty)

/-! ### The state at thread start (R158) -/

/-- What a start gives a thread. -/
structure Seed where
  pc     : Word
  arg    : Word
  group  : Nat
  launch : BitVec 32
  index  : BitVec 32
  job    : BitVec 32
  cbase  : Word
  clim   : Word
  dline  : Word
  deriving DecidableEq, Repr

/-- A thread whose every register is zero, with the basic-control values (R158). -/
def Thread.blank (q : Seed) (core : CoreId) (ready : Nat) : Thread :=
  { pc := q.pc, x := Vector.replicate 32 0#64, taint := 0#32, pw := 0#64, v := Vector.replicate 8 0#512
    k := Vector.replicate 4 0#128, vres := [], evec := Config.casotEntry, basic := true, entered := false, epc := 0#64, ecause := 0#64, eval := 0#64
    epw := 0#64, vflags := 0#64, synclim := Config.casotSyncLimit, dline := q.dline, carry := Config.casotCarry
    scorechk := Config.casotScoreChk, stepctl := 0#64, instret := 0#64, cbase := q.cbase, clim := q.clim, lastTime := 0
    inHandler := false, promises := Vector.replicate 8 none, arrRec := none, events := [], dlPending := false, dlTicks := 0#64
    run := .live, reason := .none, wasDep := none, skip := false, dcode := 0#8, noticed := [], stepped := false, stepAt := 0, stepSend := false, wait := none
    latch := none, latchCnt := none, readyAt := ready, ackAt := 0, relAcks := [], gang := none, rover := false, origin := core
    group := q.group, launch := q.launch, index := q.index, job := q.job }

/-- The state of a thread started from a task entry: x10 ARG, x11 INDEX, x12 LAUNCH (R158). -/
def Thread.atStart (q : Seed) (core : CoreId) (ready : Nat) : Thread :=
  (((Thread.blank q core ready).setReg 10#5 q.arg false).setReg 11#5 (q.index.setWidth 64) false).setReg 12#5
    (q.launch.setWidth 64) false

/-- DLINE at start: armed at DEADLINE for a class-0 entry (R158). -/
def entryDline (e : VWord) : Word :=
  if entryClass e = 0#2 then 0x8000000000000000#64 ||| entryDeadline e else 0#64

/-- A slot that a thread takes while its station resynchronises (R392). -/
def State.arriveLate (s : State) (tid : Nat) : State :=
  let n := coreCluster (tidCore tid)
  if s.resyncing n then
    { s with frozen := s.frozen.map fun x => if x.1 = n then (x.1, { x.2 with late := setInsert tid x.2.late }) else x }
  else s

/-- A thread takes a slot: the slot's suspended mark goes, and in slot 15 the requester register of the thread before it (R253,
R335). -/
def State.occupy (s : State) (tid : Nat) (t : Thread) : State :=
  (((s.arriveLate tid).modCore (tidCore tid) fun k =>
    { k with marks := k.marks &&& ~~~(1#16 <<< tidSlot tid), requester := if tidSlot tid = 15 then none else k.requester }).setThread
      tid t).checkDline tid

/-- A gang starts on slots of one cluster: every member attached at the stream's first instruction (R158,
R168). -/
def State.startGang (s : State) (tids : List Nat) (mk : Nat → Thread) (pc : Word) : State :=
  match tids with
  | [] => s
  | t0 :: _ =>
    let id := coreCluster (tidCore t0) * 16 + tidSlot t0
    tids.foldl (fun u tid => u.occupy tid { mk tid with gang := some { stream := id, attached := true, pos := 0 } })
      (s.setStream id { base := 0, path := [pc], joins := [] })

/-- The state with a new running group; its id. -/
def State.newGroup (s : State) (g : Nat → Group) : State × Nat :=
  let id := s.fresh + 1
  ({ s with groups := s.groups ++ [g id], fresh := s.fresh + 1 }, id)

/-! ### Arrival queues and spill rings (R233, R235) -/

/-- Ring capacity in contexts (R233). -/
def Core.spillCap (k : Core) : Nat :=
  let n := getField k.arrspill 32 9
  if spadSize < getField k.arrspill 8 11 * 256 + n * 1024 then 0 else n

/-- The core with OCC as the contexts held. -/
def Core.setOcc (k : Core) : Core := { k with arrspill := putField k.arrspill 48 9 k.spill.length }

/-- Global address of context n of a spill ring. -/
def State.spillAddr (s : State) (c n : Nat) : Nat := spadAddr c (getField (s.core c).arrspill 8 11 * 256 + 1024 * n)

/-- The bytes that a context leaves in the ring: open values, numbered from n on (R233) (DESIGN CHOICE 52). -/
def spillBytes (a n : Nat) : List (Nat × Byte) := (List.range 1024).map fun i => (a + i, Config.spillByte (n + i))

/-- Any entry of a promise table (R203). -/
def anyPromise (k o : Word) : Option Obj :=
  if k.toNat % 5 = 0 then none
  else if k.toNat % 5 = 1 then some (.granule o.toNat)
  else if k.toNat % 5 = 2 then some (.tag (o.extractLsb' 0 22) (o.extractLsb' 22 4))
  else if k.toNat % 5 = 3 then some (.barrier (o.extractLsb' 0 10))
  else some (.timeline (o.extractLsb' 0 10))

/-- A rover whose context software has written: every part of its state may take any value, but for job,
group, launch, index and origin core (R233) (DESIGN CHOICE 52). -/
def Thread.scramble (t : Thread) (n : Nat) : Thread :=
  let w := fun (i : Nat) => BitVec.ofNat 64 (Config.free (n + i))
  { t with
    pc := w 0, pw := w 1, taint := BitVec.ofNat 32 (Config.free (n + 2)) &&& ~~~1#32
    x := Vector.ofFn fun (i : Fin 32) => w (8 + i.val)
    evec := align4 (w 40), basic := false, entered := false, epc := align4 (w 41), ecause := w 42 &&& 0x80000000000000FF#64, eval := w 43, epw := w 44
    vflags := w 45 &&& 0x3F#64, synclim := w 46 &&& 0xFFFFFFFF#64, dline := w 47
    carry := BitVec.ofNat 64 (Config.free (n + 48) % 3), scorechk := w 49 &&& 1#64, instret := w 50, cbase := w 51
    clim := w 52
    promises := Vector.ofFn fun (i : Fin 8) => anyPromise (w (56 + 2 * i.val)) (w (57 + 2 * i.val))
    events := (List.range (Config.free (n + 53) % 5)).map fun i =>
      { code := BitVec.ofNat 8 (Config.free (n + 72 + 2 * i)), eval := w (73 + 2 * i) }
    inHandler := (w 54).getLsbD 0, dlPending := (w 54).getLsbD 1, stepctl := w 55 &&& 0xF0001FFFFFFFFFFC#64 }

/-- A refused or an accepted arrival: the rover joins the arrival queue, or the spill ring; none when both are
full (R235). -/
def State.acceptRover (s : State) (c : Nat) (r : Rover) : Option State :=
  let k := s.core c
  if k.arrQ.length < Config.arrivalEntries ∧ k.spill.isEmpty then
    some (({ s with rovers := s.rovers.filter (fun (x : Rover) => x.id != r.id) ++ [r] }.setCore c
      { k with arrQ := k.arrQ ++ [r.id] }).schedule s.time (.arrivalSlotTake (BitVec.ofNat 12 c)))
  else if k.spill.length < k.spillCap then
    let n := (k.spillHead + k.spill.length) % k.spillCap
    let a := s.spillAddr c n
    some ({ s with
      rovers := s.rovers.filter (fun (x : Rover) => x.id != r.id) ++ [{ r with spilled := some (n, s.fresh) }]
      mem := writeCells s.mem (spillBytes a s.fresh)
      fresh := s.fresh + 1024 }.setCore c ({ k with spill := k.spill ++ [r.id] }.setOcc))
  else none

/-- A context read back from the ring: taken as it stands (R233). -/
def State.readContext (s : State) (c : Nat) (r : Rover) : Rover :=
  match r.spilled with
  | none => r
  | some (n, m) =>
    let same := (spillBytes (s.spillAddr c n) m).all fun b => loadByte s.mem b.1 == b.2
    { r with spilled := none, thread := if same then r.thread else r.thread.scramble m }

/-- While the queue has room the ring's head moves to its tail (R235). -/
def State.unspill (c : Nat) : Nat → State → State
  | 0, s => s
  | fuel + 1, s =>
    let k := s.core c
    match k.spill with
    | id :: rest =>
      if k.arrQ.length < Config.arrivalEntries then
        let s1 := { s with rovers := mapFirst (fun r => r.id == id) (s.readContext c) s.rovers }
        State.unspill c fuel (s1.setCore c
          ({ k with arrQ := k.arrQ ++ [id], spill := rest
                    spillHead := if k.spillCap = 0 then 0 else (k.spillHead + 1) % k.spillCap }.setOcc))
      else s
    | [] => s

/-! ### Leaving a slot -/

/-- A command whose issuing thread has ended (R311). -/
def Cmd.disown (tid : Nat) (c : Cmd) : Cmd :=
  match c.who with
  | .live x => if x.toNat = tid then { c with who := .gone } else c
  | _ => c

/-- Every command of a core changed. -/
def Core.mapCmds (k : Core) (f : Cmd → Cmd) : Core :=
  { k with q0 := k.q0.map f, q4 := k.q4.map f, copies := k.copies.map fun r => { r with cmd := f r.cmd } }

/-- The held head of q0, or the command that stopped q4, belongs to a thread. -/
def Core.holdOf (k : Core) (tid : Nat) : Bool := k.held && match k.q0 with
  | c :: _ => c.who == .live (BitVec.ofNat 16 tid)
  | [] => false
def Core.stopOf (k : Core) (tid : Nat) : Bool := k.q4Held && match k.q4 with
  | c :: _ => c.who == .live (BitVec.ofNat 16 tid)
  | [] => false

/-- The command that stopped q4 is removed without completion, and q4 continues (R343) (DEDUCED 39). -/
def State.passQ4 (s : State) (c : Nat) : State :=
  let k := s.core c
  if k.q4Held then
    (s.setCore c { k with q4 := k.q4.drop 1, q4Held := false }).schedule (s.time + 1) (.copyStart (BitVec.ofNat 12 c))
  else s

/-- The thread that issued commands has ended: their events are discarded, a held command is skipped, and a
command that stopped q4 is removed (R311, R313, R343) (DEDUCED 68). -/
def State.disown (s : State) (tid : Nat) : State :=
  let held := (s.cores.filter fun x => x.2.holdOf tid).map (·.1)
  let stopped := (s.cores.filter fun x => x.2.stopOf tid).map (·.1)
  let s1 := { s with cores := s.cores.map fun x => (x.1, x.2.mapCmds (Cmd.disown tid)) }
  stopped.foldl State.passQ4 (held.foldl State.skipHeld s1)

/-- Channels that the house cores have assigned to a job (R255). -/
def State.channelsOf (s : State) (job : BitVec 32) : Word := match s.jobs.find? fun j => j.id == job with
  | some j => j.channels
  | none => 0#64

/-- A thread leaves its slot: an attached member detaches, the slot falls vacant, MODE becomes 0 when the slot
is slot 0, the core's subscription loses the channels of a job whose last thread leaves, and an arrival or a
task may take the slot (R157, R177, R235, R255). -/
def State.leaveSlot (s : State) (tid : Nat) (mark : Bool) : State :=
  match s.thread? tid with
  | none => s
  | some t =>
    let c := tidCore tid
    let s1 := (s.detachGang tid).dropThread tid
    let s2 := if mark then s1.modCore c fun k => { k with marks := k.marks ||| (1#16 <<< tidSlot tid) } else s1
    let s3 := if tidSlot tid = 0 then s2.writeMode c false else s2
    let s4 := if (s3.coreThreads c).any fun x => x.2.job == t.job then s3
      else s3.modCore c fun k => { k with subs := k.subs &&& ~~~s3.channelsOf t.job }
    (s4.schedule (s4.time + 1) (.arrivalSlotTake (BitVec.ofNat 12 c))).schedule (s4.time + 1)
      (.tquDeal (BitVec.ofNat 2 (coreDie c)))

/-! ### Ends of groups and launches (R26, R159) -/

/-- The completion action of a launch (R167, R271). -/
def State.launchDone (s : State) (l : Launch) : State :=
  let d := l.die.toNat
  match l.done with
  | .none => s
  | .msg g tag => (s.modDie d fun x => { x with doneMsgs := x.doneMsgs ++ [(l.job, g, tag)] }).sendDone d
  | .tl obj inc =>
    s.queueFrame (512 + d) .tladd false { station := BitVec.ofNat 10 (512 + d), obj := obj, gtid := 0#22, job := l.job, count := 0#3
                                          root := false, payload := inc.setWidth 256 } 0

/-- An index of a launch has ended: the launch completes when it was the last (R26, R162). -/
def State.indexEnded (s : State) (launch : BitVec 32) : State :=
  match s.launches.find? fun l => l.id == launch with
  | none => s
  | some l =>
    if l.ended + 1 = l.count then { s with launches := s.launches.filter fun x => x.id != launch }.launchDone l
    else { s with launches := mapFirst (fun x => x.id == launch) (fun x => { x with ended := x.ended + 1 }) s.launches }

/-- Every thread of a group has ended, and every store and other access of the group has been acknowledged (R26, R159). -/
def State.groupOver (s : State) (g : Group) : Bool :=
  (s.members g.id).isEmpty && !(s.rovers.any fun r => r.thread.group == g.id) && g.suspended == 0 && g.posted == 0
    && !(s.packets.any fun p => p.group == g.id)

/-- A group ends when it is over: its cores are owned no more, its handles become unbound, its launch counts
the index (R26, R159, R344). -/
def State.settleGroup (s : State) (id : Nat) : State :=
  match s.group? id with
  | none => s
  | some g =>
    if s.groupOver g then
      let s1 := { s with groups := s.groups.filter fun x => x.id != id }
      let s2 := g.cores.foldl (fun u c =>
        if (u.core c.toNat).owner = some id then
          (u.modCore c.toNat fun k => { k with owner := none }).schedule (u.time + 1) (.arrivalSlotTake c)
        else u) s1
      let s3 := (s2.unbindGroup id).indexEnded g.launch
      match g.cores with
      | c :: _ => s3.schedule (s3.time + 1) (.tquDeal (BitVec.ofNat 2 (coreDie c.toNat)))
      | [] => s3
    else s

/-- A rover's count on its origin core is released (R177, R232). -/
def State.releaseRover (s : State) (t : Thread) : State :=
  if t.rover then
    s.modCore t.origin.toNat fun k => { k with rovelim := putField k.rovelim 16 9 (getField k.rovelim 16 9 - 1) }
  else s

/-- A thread ends (R177). -/
def State.endThread (s : State) (tid : Nat) (t : Thread) : State :=
  (((s.disown tid).leaveSlot tid false).releaseRover t).settleGroup t.group

/-- A thread has issued `end` and its slot is not vacant yet (R177). -/
def Thread.ending (t : Thread) : Bool := t.wait.any fun w => w.what == .ending

/-- Threads of a group that have not issued `end`. -/
def State.running (s : State) (g : Nat) : List (Nat × Thread) := (s.members g).filter fun x => !x.2.ending

/-- The slot of a thread that has issued `end` falls vacant, 8 cycles after the issue (R177). -/
def State.vacate (s : State) (tid : Nat) : State :=
  match s.thread? tid with
  | some t => if t.ending then s.endThread tid t else s
  | none => s

end Sys2Proof.Machine
end

