-- ==== Sys2Proof/Machine/Object.lean ====
section
/-! DEFINITION. The continuation object (R362 to R368): its header, thread records, extents and pending area as
bytes of memory, the check code, and what makes an object malformed. -/

set_option Elab.async false

namespace Sys2Proof.Machine

/-! ### Bytes -/

/-- Fields (offset, bytes, value) written from an address on. -/
def putFields (a : Nat) (l : List (Nat × Nat × Nat)) (m : Mem) : Mem :=
  l.foldl (fun u x => writeBytes u (a + x.1) x.2.1 x.2.2) m

/-- n zero bytes written. -/
def zeroBytes (a n : Nat) (m : Mem) : Mem := writeBytes m a n 0

/-- One bit of CRC-32C, reflected (R365). -/
def crcBit (c : BitVec 32) : BitVec 32 := if c.getLsbD 0 then (c >>> 1) ^^^ 0x82F63B78#32 else c >>> 1

/-- One byte of CRC-32C. -/
def crcByte (c : BitVec 32) (b : Byte) : BitVec 32 :=
  crcBit (crcBit (crcBit (crcBit (crcBit (crcBit (crcBit (crcBit (c ^^^ b.setWidth 32))))))))

/-- CRC-32C of a list of bytes (R365). -/
def crc32c (l : List Byte) : BitVec 32 := ~~~(l.foldl crcByte 0xFFFFFFFF#32)

/-- The mutable bytes of a header, which count as zero in CHECK (R365). -/
def mutableByte (i : Nat) : Bool :=
  decide (0x07 ≤ i ∧ i < 0x10) || decide (0x13 ≤ i ∧ i < 0x16) || decide (0x1C ≤ i ∧ i < 0x20)
    || decide (0x38 ≤ i ∧ i < 0x40) || decide (0x5C ≤ i ∧ i < 0x60)

/-- CHECK of the header at an address. -/
def checkOf (m : Mem) (a : Nat) : BitVec 32 :=
  crc32c ((List.range 128).map fun i => if mutableByte i then 0#8 else loadByte m (a + i))

/-! ### Header fields (R363) -/

def objLevel (m : Mem) (a : Nat) : Nat := readBytes m (a + 0x06) 1
def objState (m : Mem) (a : Nat) : Nat := readBytes m (a + 0x07) 1
def objVersion (m : Mem) (a : Nat) : Word := BitVec.ofNat 64 (readBytes m (a + 0x08) 8)
def objNthr (m : Mem) (a : Nat) : Nat := readBytes m (a + 0x10) 1
def objNext (m : Mem) (a : Nat) : Nat := readBytes m (a + 0x11) 1
def objRights (m : Mem) (a : Nat) : BitVec 8 := BitVec.ofNat 8 (readBytes m (a + 0x12) 1)
def objNmsg (m : Mem) (a : Nat) : Nat := readBytes m (a + 0x13) 1
def objNevt (m : Mem) (a : Nat) : Nat := readBytes m (a + 0x14) 1
def objOutcp (m : Mem) (a : Nat) : Nat := readBytes m (a + 0x15) 1
def objClass (m : Mem) (a : Nat) : BitVec 2 := BitVec.ofNat 2 (readBytes m (a + 0x16) 1)
def objCause (m : Mem) (a : Nat) : Nat := readBytes m (a + 0x17) 1
def objJob (m : Mem) (a : Nat) : BitVec 32 := BitVec.ofNat 32 (readBytes m (a + 0x18) 4)
def objOrigin (m : Mem) (a : Nat) : Nat := readBytes m (a + 0x20) 8
def objCopied (m : Mem) (a : Nat) : Nat := readBytes m (a + 0x28) 8
def objDeadline (m : Mem) (a : Nat) : Word := BitVec.ofNat 64 (readBytes m (a + 0x30) 8)
def objSticky (m : Mem) (a : Nat) : Nat := readBytes m (a + 0x38) 8
def objLaunch (m : Mem) (a : Nat) : BitVec 32 := BitVec.ofNat 32 (readBytes m (a + 0x40) 4)
def objIndex (m : Mem) (a : Nat) : BitVec 32 := BitVec.ofNat 32 (readBytes m (a + 0x44) 4)
def objCbase (m : Mem) (a : Nat) : Word := BitVec.ofNat 64 (readBytes m (a + 0x48) 8)
def objClim (m : Mem) (a : Nat) : Word := BitVec.ofNat 64 (readBytes m (a + 0x50) 8)
def objSize (m : Mem) (a : Nat) : Nat := readBytes m (a + 0x58) 4

/-- States of an object (R363). -/
def stWRITING : Nat := 0
def stSUSPENDED : Nat := 1
def stRESUMED : Nat := 2
def stDISCARDED : Nat := 3
def stRESUMING : Nat := 4

/-- STATE and VERSION changed, in one step (R368). -/
def setStateVersion (a st : Nat) (v : Word) (m : Mem) : Mem := putFields a [(0x07, 1, st), (0x08, 8, v.toNat)] m

/-- The version after a version; 1 after the last (R368). -/
def nextVersion (v : Word) : Word := if v = BitVec.allOnes 64 then 1#64 else v + 1#64

/-! ### Extents (R367) -/

/-- LEN of a core-state extent. -/
def coreStateLen : Nat := 0x8500

/-- Bytes of an extent with its descriptor and its full/empty bits (R362). -/
def Extent.bytes (e : Extent) : Nat := if e.coreState then 16 + coreStateLen else 16 + e.len + 16 * ((e.len + 2047) / 2048)

/-- The extent that a descriptor names; none when it is malformed. -/
def readExtent (m : Mem) (a : Nat) : Option Extent :=
  let d0 := BitVec.ofNat 64 (readBytes m a 8)
  let d1 := BitVec.ofNat 64 (readBytes m (a + 8) 8)
  let e : Extent :=
    { coreState := d0.getLsbD 23, core := d0.extractLsb' 20 3, offset := (d0.extractLsb' 0 19).toNat
      len := (d1.extractLsb' 0 20).toNat }
  let ok := if e.coreState then e.offset == 0 && e.len == coreStateLen
    else e.offset % 16 == 0 && e.len % 16 == 0 && e.len != 0 && decide (e.offset + e.len ≤ spadSize)
  if d0.extractLsb' 24 40 = 0#40 ∧ !d0.getLsbD 19 ∧ d1.extractLsb' 20 44 = 0#44 ∧ ok then some e else none

/-- Dwords of a descriptor. -/
def Extent.words (e : Extent) : Nat × Nat :=
  ((if e.coreState then 2 ^ 23 else 0) + e.core.toNat * 2 ^ 20 + e.offset, e.len)

/-- The extents from an address on with their places, and the end of the last. -/
def readExtents (m : Mem) : Nat → Nat → Option (List (Nat × Extent) × Nat)
  | 0, a => some ([], a)
  | n + 1, a => match readExtent m a with
    | none => none
    | some e => (readExtents m n (a + e.bytes)).map fun x => ((a, e) :: x.1, x.2)

/-- Address of thread record t. -/
def recordAddr (a t : Nat) : Nat := a + 128 + 1536 * t

/-- The extents of an object with their places, and the place of its pending area. -/
def objExtents (m : Mem) (a : Nat) : Option (List (Nat × Extent) × Nat) :=
  readExtents m (objNext m a) (recordAddr a (objNthr m a))

/-! ### Malformed objects (R364) -/

/-- The thread records' reserved bits are zero (R366). -/
def recordClean (m : Mem) (r : Nat) : Bool :=
  readBytes m (r + 0x108) 8 % 2 == 0 && decide (readBytes m (r + 0x110) 8 < 2 ^ 41)
    && decide (readBytes m (r + 0x118) 8 < 2 ^ 12) && decide (readBytes m (r + 0x3E0) 8 < 2)
    && readBytes m (r + 0x3E8) 24 == 0 && readBytes m (r + 0x480) 384 == 0
    && (List.range 8).all fun i => decide (readBytes m (r + 0x400 + 16 * i) 8 < 2 ^ 9)

/-- The reserved bits of the pending messages and events that an area holds are zero (R251, R367). -/
def pendingClean (m : Mem) (p nmsg nevt : Nat) : Bool :=
  ((List.range nmsg).all fun i => readBytes m (p + 80 * i) 8 / 2 ^ 30 % 4 == 0 && readBytes m (p + 80 * i + 8) 8 / 2 ^ 10 % 4 == 0)
    && (List.range nevt).all fun i => decide (readBytes m (p + 640 + 32 * i) 8 < 2 ^ 15)

/-- A well-formed object (R364). -/
def objValid (m : Mem) (a : Nat) : Bool :=
  let n := objNthr m a
  let sticky := BitVec.ofNat 64 (objSticky m a)
  readBytes m a 4 == 0x00C4C047 && readBytes m (a + 4) 2 == 1
    && decide (objLevel m a ≤ 2) && decide (objState m a ≤ 4)
    && decide (1 ≤ n ∧ n ≤ if objLevel m a = 0 then 1 else if objLevel m a = 1 then 16 else 128)
    && decide (objNext m a ≤ 16) && decide (objNmsg m a ≤ 8) && decide (objNevt m a ≤ 8) && decide (objOutcp m a ≤ 8)
    && (objRights m a).extractLsb' 5 3 == 0#3 && decide (objOrigin m a < 2 ^ 22)
    && (sticky &&& ~~~0xFF3F003F#64) == 0#64 && decide (readBytes m (a + 0x5C) 4 < 256)
    && readBytes m (a + 0x68) 24 == 0
    && readBytes m (a + 0x1C) 4 == (checkOf m a).toNat
    && (List.range n).all (fun t => recordClean m (recordAddr a t))
    && match objExtents m a with
       | some (_, p) => objSize m a == p + 896 - a && pendingClean m p (objNmsg m a) (objNevt m a)
       | none => false

/-! ### Thread records (R366) -/

/-- Number of a halt reason (R410). -/
def reasonNo : Reason → Nat
  | .none => 0
  | .ebreak => 1
  | .halt => 2
  | .hold => 3
  | .step => 4
  | .brk => 5
  | .double => 6
  | .traph => 7
  | .asynh => 8

/-- The reason of a number. -/
def reasonOfNo : Nat → Reason
  | 1 => .ebreak
  | 2 => .halt
  | 3 => .hold
  | 4 => .step
  | 5 => .brk
  | 6 => .double
  | 7 => .traph
  | 8 => .asynh
  | _ => .none

/-- A bit as a number. -/
def bit01 (b : Bool) : Nat := if b then 1 else 0

/-- The instruction word at an address. -/
def wordAt (m : Mem) (a : Nat) : BitVec 32 := BitVec.ofNat 32 (readBytes m a 4)

/-- The number of a `join` word. -/
def joinNo (w : BitVec 32) : Option (BitVec 12) := match decodeWord w with
  | .ok (.join k) => some k
  | _ => none

/-- A promise as a table entry: KIND, TAG and VALID, and the object as `promise` recorded it (R366). -/
def promiseWords : Option Obj → Nat × Nat
  | some (.granule g) => (0x100, g * 16)
  | some (.tag g t) => (0x101 + t.toNat * 16, g.toNat)
  | some (.barrier i) => (0x102, i.toNat)
  | some (.timeline i) => (0x103, i.toNat)
  | _ => (0, 0)

/-- The promise of a table entry of a thread of a job; an address on another rank is one in the job's rank table. -/
def wordsPromise (job : BitVec 32) (d0 d1 : Nat) : Option Obj :=
  if d0 / 256 % 2 = 0 then none
  else if d0 % 16 = 0 then some (.granule ((if 2 ^ 62 ≤ d1 then d1 + job.toNat * 2 ^ 64 else d1) / 16))
  else if d0 % 16 = 1 then some (.tag (BitVec.ofNat 22 d1) (BitVec.ofNat 4 (d0 / 16)))
  else if d0 % 16 = 2 then some (.barrier (BitVec.ofNat 10 d1))
  else some (.timeline (BitVec.ofNat 10 d1))

/-- The target of a `sleep` in progress. -/
def Thread.sleepTarget (t : Thread) : Option Nat := match t.wait with
  | some w => match w.what with
    | .sleep u => some u
    | _ => none
  | none => none

/-- What the retry latch of a stopped thread holds (R366, R370). -/
def Thread.latched (t : Thread) : Option (BitVec 32 × BitVec 32) := if t.wait.isSome then none else t.latch

/-- PLACE of a thread record (DEDUCED 53). -/
def Thread.placeWord (t : Thread) (tid : Nat) : Nat :=
  let latched := t.latched.isSome
  let k := t.latched.bind fun w => joinNo w.1
  tidSlot tid + tidCore tid % 8 * 2 ^ 4 + bit01 t.rover * 2 ^ 7 + bit01 (t.run == .root) * 2 ^ 8
    + bit01 ((match t.run with | .dep _ => true | _ => false) || t.wasDep.isSome) * 2 ^ 9
    + bit01 t.inHandler * 2 ^ 10 + bit01 t.gang.isSome * 2 ^ 11 + bit01 t.gang.isSome * 2 ^ 12 + bit01 latched * 2 ^ 13
    + bit01 t.sleepTarget.isSome * 2 ^ 14 + bit01 k.isSome * 2 ^ 15 + (k.getD 0).toNat * 2 ^ 16
    + (if t.run = .root then reasonNo t.reason else 0) * 2 ^ 28 + bit01 t.skip * 2 ^ 32 + t.dcode.toNat * 2 ^ 33

/-- A thread record written (R366) (DEDUCED 53). -/
def writeRecord (r tid : Nat) (t : Thread) (m : Mem) : Mem :=
  let (c, l) := if t.latched.isSome then t.latchCnt.getD (0, 0) else (0, 0)
  let held := match t.latched with
    | some w => w.1.toNat + (if w.1 = 0x7B#32 then w.2.toNat * 2 ^ 32 else 0)
    | none => 0
  let arr := match t.arrRec with
    | some x => x.obj.toNat + 2 ^ 10 + x.phase.toNat * 2 ^ 32
    | none => 0
  let xs := (List.range 31).map fun i => (8 * (i + 1), 8, (t.reg (BitVec.ofNat 5 (i + 1))).toNat)
  let vs := (List.range 8).map fun i => (0x140 + 64 * i, 64, ((t.v[i]?).getD 0#512).toNat)
  let ks := (List.range 4).map fun i => (0x340 + 16 * i, 16, ((t.k[i]?).getD 0#128).toNat)
  let cs := [t.evec, t.epc, t.ecause, t.eval, t.epw, t.vflags, t.synclim, t.dline, t.carry, t.scorechk, t.stepctl, t.instret]
  let csrs := (cs.zipIdx).map fun x => (0x380 + 8 * x.2, 8, x.1.toNat)
  let ps := (t.promises.toList.zipIdx).flatMap fun x =>
    [(0x400 + 16 * x.2, 8, (promiseWords x.1).1), (0x408 + 16 * x.2, 8, (promiseWords x.1).2)]
  putFields r ([(0x000, 8, t.pc.toNat)] ++ xs ++
    [(0x100, 8, t.pw.toNat), (0x108, 8, (t.taint &&& ~~~1#32).toNat), (0x110, 8, t.placeWord tid)
     , (0x118, 8, if t.rover then t.origin.toNat else 0), (0x120, 8, t.sleepTarget.getD 0)
     , (0x128, 8, c % 2 ^ 32 + l % 2 ^ 32 * 2 ^ 32)
     , (0x130, 8, held), (0x138, 8, arr)] ++ vs ++ ks ++ csrs
    ++ [(0x3E0, 8, bit01 t.dlPending)] ++ ps) (zeroBytes r 1536 m)

/-- The thread that a record restores, in a group (R366, R373). A halt by dependence names no object yet: `State.rehalt` looks for it (DEDUCED 53). -/
def readRecord (m : Mem) (r group : Nat) (a : Nat) (now : Nat) : Thread :=
  let d := fun (o : Nat) => BitVec.ofNat 64 (readBytes m (r + o) 8)
  let place := d 0x110
  let arr := d 0x138
  let lc := d 0x128
  let root := place.getLsbD 8
  let dep := place.getLsbD 9
  let any := root || dep
  let promises : Vector (Option Obj) 8 := Vector.ofFn fun (i : Fin 8) =>
    wordsPromise (objJob m a) (d (0x400 + 16 * i.val)).toNat (d (0x408 + 16 * i.val)).toNat
  let basic := align4 (d 0x380) == Config.casotEntry
  let unknown : Obj := .granule 0
  let q : Seed := { pc := d 0, arg := 0, group := group, launch := objLaunch m a, index := objIndex m a, job := objJob m a
                    cbase := objCbase m a, clim := objClim m a, dline := d 0x3B8 }
  { Thread.blank q ((d 0x118).setWidth 12) now with
    x := Vector.ofFn fun (i : Fin 32) => if i.val = 0 then 0#64 else d (8 * i.val)
    taint := (d 0x108).setWidth 32 &&& ~~~1#32
    pw := d 0x100
    v := Vector.ofFn fun (i : Fin 8) => BitVec.ofNat 512 (readBytes m (r + 0x140 + 64 * i.val) 64)
    k := Vector.ofFn fun (i : Fin 4) => BitVec.ofNat 128 (readBytes m (r + 0x340 + 16 * i.val) 16)
    evec := align4 (d 0x380), basic := basic, entered := basic && place.getLsbD 10 && d 0 == Config.casotEntry, epc := align4 (d 0x388), ecause := d 0x390 &&& 0x80000000000000FF#64, eval := d 0x398
    epw := d 0x3A0, vflags := d 0x3A8 &&& 0x3F#64, synclim := d 0x3B0 &&& 0xFFFFFFFF#64
    carry := BitVec.ofNat 64 (min 2 ((d 0x3C0).extractLsb' 0 2).toNat), scorechk := d 0x3C8 &&& 1#64
    stepctl := d 0x3D0 &&& 0xF0001FFFFFFFFFFC#64, instret := d 0x3D8
    inHandler := place.getLsbD 10
    promises := promises
    noticed := if any then promises.toList.filterMap id else []
    arrRec := if arr.getLsbD 10 then some { obj := arr.extractLsb' 0 10, phase := arr.extractLsb' 32 32 } else none
    dlPending := (d 0x3E0).getLsbD 0
    dlTicks := d 0x3B8 &&& 0x7FFFFFFFFFFFFFFF#64
    run := if root then .root else if dep then .dep unknown else .live
    wasDep := if root && dep then some unknown else none
    reason := if root then reasonOfNo (place.extractLsb' 28 4).toNat else .none
    skip := any && place.getLsbD 32
    dcode := if any then place.extractLsb' 33 8 else 0#8
    latch := if place.getLsbD 13 then some ((d 0x130).extractLsb' 0 32, (d 0x130).extractLsb' 32 32) else none
    latchCnt := if place.getLsbD 13 ∧ lc ≠ 0#64 then some ((lc.extractLsb' 0 32).toNat, (lc.extractLsb' 32 32).toNat) else none
    rover := place.getLsbD 7 }

/-! ### Core-state extents (R367) -/

/-- Fields of a core's state within a core-state extent, from its data on (DEDUCED 54). -/
def coreStateFields (k : Core) : List (Nat × Nat × Nat) :=
  let regs := fun (o : Nat) (l : List Word) => (l.zipIdx).map fun (x : Word × Nat) => ((o + 8 * x.2, 8, x.1.toNat) : Nat × Nat × Nat)
  (k.acc.map fun e => (4 * e.1, 4, e.2.toNat))
    ++ regs 0x8000 k.bfmt.toList
    ++ regs 0x8100 (k.ringBase.toList ++ k.ringSize.toList ++ k.ringTile.toList ++ k.ringHead.toList ++ k.ringTail.toList)
    ++ regs 0x8240 ([k.slotcfg, k.rovelim, k.arrspill, k.inboxb, k.inboxs, k.mescale, k.mebudget] ++ k.fabqos.toList ++ [k.subs])
    ++ regs 0x82C0 (k.handles.toList.map Handle.word)
    ++ [(0x84F8, 8, k.poison.toNat)]

/-- The handle that a word in the layout of `hstat` gives, bound by a group. -/
def handleOfWord (g : Nat) (w : Word) : Handle :=
  let n := (w.extractLsb' 58 2).toNat
  { bound := w.getLsbD 63, st := if n = 0 then .free else if n = 1 then .filling else if n = 2 then .full else .draining
    len := w.extractLsb' 32 20, base := w.extractLsb' 0 19, group := if w.getLsbD 63 then g else 0 }

/-- Accumulator elements from 8 KB each; zero elements are not listed. -/
def readAcc (m : Mem) (a : Nat) : List (Nat × BitVec 32) :=
  (List.range 8192).filterMap fun i =>
    let v := readBytes m (a + 4 * i) 4
    if v = 0 then none else some (i, BitVec.ofNat 32 v)

/-- A SLOTCFG value in which a transfer slot is not disabled: THDIS has bit 31 only while XFER = 0 (R156). -/
def transferFree (w : Word) : Word := if w.getLsbD 1 then w &&& ~~~(1#64 <<< 31) else w

/-- A core with the state of a core-state extent; what belongs to the core itself (THDIS, LIVE, OCC) stays (DEDUCED 54). -/
def Core.load (k : Core) (m : Mem) (a g : Nat) : Core :=
  let d := fun (o : Nat) => BitVec.ofNat 64 (readBytes m (a + o) 8)
  { k with
    acc := readAcc m a
    poison := (d 0x84F8).setWidth 4
    bfmt := Vector.ofFn fun (i : Fin 32) => d (0x8000 + 8 * i.val) &&& bfmtMask
    ringBase := Vector.ofFn fun (i : Fin 8) => d (0x8100 + 8 * i.val) &&& 0x80007FFF0007FFF0#64
    ringSize := Vector.ofFn fun (i : Fin 8) => d (0x8140 + 8 * i.val) &&& 0xFFFFF#64
    ringTile := Vector.ofFn fun (i : Fin 8) => BitVec.ofNat 64 (min 0x1000 (getField (d (0x8180 + 8 * i.val)) 0 13))
    ringHead := Vector.ofFn fun (i : Fin 8) => d (0x81C0 + 8 * i.val) &&& 0xFFFFFFFF#64
    ringTail := Vector.ofFn fun (i : Fin 8) => d (0x8200 + 8 * i.val) &&& 0xFFFFFFFF#64
    slotcfg := transferFree (putField (putField k.slotcfg 8 4 (min 8 (getField (d 0x8240) 8 4))) 0 2 (getField (d 0x8240) 0 2))
    thermal := if (d 0x8240).getLsbD 1 then k.thermal.filter (· != 15#4) else k.thermal
    rovelim := putField k.rovelim 0 9 (min 256 (getField (d 0x8248) 0 9))
    arrspill := if getField k.arrspill 48 9 = 0 then
      putField (putField k.arrspill 32 9 (min 256 (getField (d 0x8250) 32 9))) 8 11 (getField (d 0x8250) 8 11) else k.arrspill
    inboxb := d 0x8258 &&& 0xFFFFFFFF0007FFF0#64
    inboxs := d 0x8260 &&& 0xFFFFFFFF0000FFFF#64
    mescale := d 0x8268 &&& 0xFF#64
    mebudget := d 0x8270 &&& 0xFFFF0FFFF0#64
    fabqos := Vector.ofFn fun (i : Fin 4) => d (0x8278 + 8 * i.val) &&& 0xFFFF0FFFF0#64
    subs := d 0x8298
    handles := Vector.ofFn fun (i : Fin 64) => handleOfWord g (d (0x82C0 + 8 * i.val)) }

end Sys2Proof.Machine
end

