-- ==== Sys2Proof/Machine/Ranges.lean ====
section
/-! DEFINITION. What a copy command names: its fields (R104), its addresses (R339), the banks between which it converts (R121,
R124), its dimension table and index list (R356, R357), and the ranges that it will write. -/

set_option Elab.async false

namespace Sys2Proof.Machine

/-! ### Command fields (R104) -/

def cmdHandle (c : Cmd) : BitVec 6 := c.word.extractLsb' 248 6
def cmdCount (c : Cmd) : Nat := (c.word.extractLsb' 224 24).toNat
def cmdEsz (c : Cmd) : BitVec 2 := c.word.extractLsb' 220 2
def cmdNdim (c : Cmd) : Nat := (c.word.extractLsb' 216 4).toNat
def cmdAux (c : Cmd) : Nat := (c.word.extractLsb' 192 19).toNat
def cmdTo (c : Cmd) : Word := c.word.extractLsb' 128 64
def cmdFrom (c : Cmd) : Word := c.word.extractLsb' 64 64
def cmdFillLit (c : Cmd) : BitVec 32 := c.word.extractLsb' 64 32

/-! ### Addresses (R339) -/

/-- The global form of n bytes that a copy of a job may name; none for an address range that R339 does not allow. -/
def State.copyAddr (s : State) (core : Nat) (job : BitVec 32) (a : Word) (n : Nat) : Option Nat :=
  let stop := fun (l : Nat) =>
    if isSpad l then spadBase + 4096 * spadSize else if isCarafe l then carafeBase + 512 * carafeSize else tierEnd
  match s.place core job a with
  | .own g => if a.toNat + n ≤ spadSize then some g else none
  | .spad g | .carafe g | .tier g => if g + n ≤ stop g then some g else none
  | .remote _ g => if g % 2 ^ 56 + n ≤ stop (g % 2 ^ 56) then some g else none
  | _ => none

/-! ### Conversion between banks (R124) -/

/-- The format register of the bank that holds a scratchpad address of this module (DEDUCED 37). -/
def State.regOf (s : State) (g : Nat) : Word := regAt (s.core (spadCore g)).bfmt (spadOff g / 16384)

/-- The format register that a copy goes by for a bank: the one that it has sampled, by the bank's number, or the register as it
stands (R121). -/
def State.regWith (s : State) (l : List (Nat × Word)) (g : Nat) : Word := match l.find? fun x => x.1 == g / 16384 with
  | some x => x.2
  | none => s.regOf g

/-- The banks of two addresses convert: both lie in scratchpads of this module, in banks of different formats, neither `raw` (DEDUCED 37). -/
def State.converts (s : State) (l : List (Nat × Word)) (src dst : Nat) : Bool :=
  isSpad src && isSpad dst && bfFmt (s.regWith l src) != bfFmt (s.regWith l dst) && bfFmt (s.regWith l src) != 0
    && bfFmt (s.regWith l dst) != 0

/-- Addresses, one in each bank that n bytes meet. -/
def bankAddrs (a n : Nat) : List Nat := (List.range (n / 16384 + 2)).map fun i => min (a + 16384 * i) (a + n - 1)

/-- A run meets banks between which it converts. -/
def State.runConverts (s : State) (l : List (Nat × Word)) (src dst n : Nat) : Bool :=
  isSpad src && isSpad dst && (bankAddrs src n).any fun a => (bankAddrs dst (8 * n)).any (s.converts l a)

/-- What a run moves at once: an element between banks that convert, or a byte; the places of its ends in bits, their widths and
the registers of their banks (R121, R124). -/
structure CopyUnit where
  src   : Nat
  dst   : Nat
  ws    : Nat
  wd    : Nat
  rs    : Word
  rd    : Word
  conv  : Bool
  whole : Bool
  deriving DecidableEq, Repr

/-- The units of a run of `left` bits, each with the registers of the banks that hold it (R121, R124). -/
def State.copyUnits (s : State) (l : List (Nat × Word)) : Nat → Nat → Nat → Nat → List CopyUnit
  | 0, _, _, _ => []
  | fuel + 1, src, dst, left =>
    if left = 0 then []
    else
      let rs := s.regWith l (src / 8)
      let rd := s.regWith l (dst / 8)
      let conv := s.converts l (src / 8) (dst / 8)
      let ws := if conv then codeBits (bfFmt rs) else 8
      let wd := if conv then codeBits (bfFmt rd) else 8
      { src := src, dst := dst, ws := ws, wd := wd, rs := rs, rd := rd, conv := conv, whole := decide (ws ≤ left) } ::
        s.copyUnits l fuel (src + ws) (dst + wd) (left - ws)

/-- Bytes that a run of n source bytes writes (R124). -/
def State.destBytes (s : State) (convert : Bool) (src dst n : Nat) : Nat :=
  if convert && s.runConverts [] src dst n then
    (((s.copyUnits [] (2 * n + 1) (8 * src) (8 * dst) (8 * n)).map fun u => u.wd).sum + 7) / 8
  else n

/-! ### Dimension tables and index lists (R356, R357) -/

/-- A dimension of `copy.nd`: extent, source stride, destination stride. -/
def dimAt (m : Mem) (core aux d : Nat) : Nat × Word × Word × Nat :=
  let a := spadAddr core (aux + 32 * d)
  (readBytes m a 8, BitVec.ofNat 64 (readBytes m (a + 8) 8), BitVec.ofNat 64 (readBytes m (a + 16) 8), readBytes m (a + 24) 8)

/-- Source and destination offsets of every index vector, i_0 fastest (R356). -/
def ndOffsets : List (Nat × Word × Word × Nat) → List (Word × Word)
  | [] => [(0#64, 0#64)]
  | (e, ss, ds, _) :: rest => (ndOffsets rest).flatMap fun o =>
      (List.range e).map fun i => (o.1 + BitVec.ofNat 64 i * ss, o.2 + BitVec.ofNat 64 i * ds)

/-- Element bytes of `gath` and `scat` (R104). -/
def gatherBytes (e : BitVec 2) : Nat := if e = 0#2 then 8 else if e = 1#2 then 16 else if e = 2#2 then 64 else 256

/-! ### The ranges that a command will write -/

/-- Source and destination of each run of a command, as addresses, with its bytes (R355 to R358). -/
def State.cmdRuns (s : State) (core : Nat) (c : Cmd) : List (Word × Word × Nat) :=
  let op := cmdOpcode c
  let n := cmdCount c
  if op = 0x40 ∨ op = 0x44 ∨ op = 0x48 then [(cmdFrom c, cmdTo c, n)]
  else if op = 0x41 then
    let dims := (List.range (cmdNdim c + 1)).map (dimAt s.mem core (cmdAux c))
    if 2 ^ 32 < (dims.map (·.1)).prod then []
    else (ndOffsets dims).map fun o => (cmdFrom c + o.1, cmdTo c + o.2, n)
  else if op = 0x42 ∨ op = 0x43 then
    let e := gatherBytes (cmdEsz c)
    (List.range n).map fun i =>
      let x := BitVec.ofNat 64 (readBytes s.mem (spadAddr core (cmdAux c + 4 * i)) 4 * e)
      let y := BitVec.ofNat 64 (i * e)
      if op = 0x43 then (cmdFrom c + y, cmdTo c + x, e) else (cmdFrom c + x, cmdTo c + y, e)
  else []

/-- The ranges that a queued copy will write, its signal granule among them (R370). -/
def State.cmdDsts (s : State) (core : Nat) (c : Cmd) : List (Nat × Nat) :=
  let op := cmdOpcode c
  let runs := (s.cmdRuns core c).filterMap fun r => match (s.place core c.job r.1).addr?, (s.place core c.job r.2.1).addr? with
    | _, none => none
    | some a, some b => some (b, s.destBytes (op == 0x40 || op == 0x41) a b r.2.2)
    | none, some b => some (b, r.2.2)
  if cmdSignal c then (spadAddr core (16 * cmdSgran c), 16) :: runs else runs

end Sys2Proof.Machine
end

