-- ==== Sys2Proof/Machine/Continuation.lean ====
section
/-! DEFINITION. Continuations: suspension (R369 to R372), resumption (R373, R378), the instructions `susp`,
`resm`, `ccopy`, `cdisc` and `cstat` (R376 to R381), and pre-emption into a pool (R374). -/

set_option Elab.async false

namespace Sys2Proof.Machine

/-! ### Reaching an object (R362, R376) -/

/-- End of the range that holds an address: its Carafe, or tiered memory. -/
def rangeEnd (a : Nat) : Nat :=
  let l := a % 2 ^ 56
  a - l + (if isCarafe l then carafeBase + (carafeCluster l + 1) * carafeSize else tierEnd)

/-- A multiple of 128 in a Carafe or in tiered memory, with its global address (R376) (DESIGN CHOICE 56). -/
def State.objPlace (s : State) (core : Nat) (job : BitVec 32) (a : Word) : Option Nat :=
  if aligned a 128 then
    match s.place core job a with
    | .carafe g => some g
    | .tier g => some g
    | .remote _ g => if isSpad (g % 2 ^ 56) then none else some g
    | _ => none
  else none

/-- Tiered pages that n bytes of an object meet translate, and earlier accesses of the thread to them have been performed; else a walk,
a replayable fault or a wait (R189, R376, R389). -/
def State.withPages (s : State) (tid : Nat) (t : Thread) (g n : Nat) (write : Bool) (f : State) : State :=
  if s.overlapOut tid g n || (s.core (tidCore tid)).cb.any (fun e => e.tid.toNat == tid && e.meets g n) then
    (s.flushThread tid fun e => e.meets g n).retryWhen tid t (.overlap g n)
  else if 2 ^ 62 ≤ g ∨ !isTier g then f
  else
    let places := (List.range ((n + 65535) / 65536)).map (fun i => g + 65536 * i) ++ [g + n - 1]
    match s.firstMiss (tidCore tid) t.job write places with
    | some (x, .fault) => s.latch tid t x
    | some (x, _) => s.beginWalk tid t x
    | none => match places.find? s.cxlFault with
      | some x => s.latch tid t x
      | none => f

/-- An instruction reaches an object: ACCESSFAULT for a bad address, FABUNREACH for a lost rank, a wait while
an ordinary access is outstanding or the rank is dark, a walk or a replayable fault (R192, R237, R376). -/
def State.withObject (s : State) (tid : Nat) (t : Thread) (a : Word) (write : Bool) (f : Nat → State) : State :=
  let core := tidCore tid
  match s.objPlace core t.job a with
  | none => s.trap tid t cACCESSFAULT a
  | some g =>
    if s.ordinaryOut tid then s.retryWhen tid t .ordinary
    else if 2 ^ 62 ≤ g then
      let e := rankState (s.rankEntry (addrPeer g))
      if e = 2 then s.trap tid t cFABUNREACH a
      else if e = 1 then s.retryWhen tid t (.dark (addrPeer g).rank)
      else s.withPages tid t g 128 write (f g)
    else s.withPages tid t g 128 write (f g)

/-- The same for the whole object that stands there, as its SIZE says (R376). -/
def State.withWhole (s : State) (tid : Nat) (t : Thread) (a : Word) (write : Bool) (f : Nat → State) : State :=
  s.withObject tid t a write fun g =>
    let n := objSize s.mem g
    if readBytes s.mem g 4 = 0x00C4C047 ∧ 128 < n ∧ g + n ≤ rangeEnd g then s.withPages tid t g n write (f g) else f g

/-- A valid object of a job that is being written, is suspended or is being resumed (R377, R379). -/
def State.objHeld (s : State) (a : Nat) (job : BitVec 32) : Bool :=
  objValid s.mem a && objJob s.mem a == job
    && (objState s.mem a == stWRITING || objState s.mem a == stSUSPENDED || objState s.mem a == stRESUMING)

/-- The version at which a suspension writes an area (R368). -/
def State.writeVersion (s : State) (a : Nat) (job : BitVec 32) : Word :=
  if objValid s.mem a && objJob s.mem a == job then nextVersion (objVersion s.mem a) else 1#64

/-! ### Suspension (R369 to R372) -/

/-- Threads that a suspension of a level takes, when the level rule allows it (R369). -/
def State.unitOf (s : State) (tid : Nat) (t : Thread) (level : Nat) : Option (List Nat) :=
  let l := s.levelOf t.group
  let ms := (s.running t.group).map (·.1)
  let still := !(s.rovers.any fun r => r.thread.group == t.group)
  if level = 0 then (if l = .thread then some [tid] else none)
  else if level = 1 then
    (if l = .core && still && ms.all (fun x => tidCore x == tidCore tid) then some ms else none)
  else if level = 2 then
    (if l = .cluster && still && ms.all (fun x => coreCluster (tidCore x) == coreCluster (tidCore tid)) then some ms else none)
  else none

/-- Core-state extents that a level adds: one for each core of the unit (R370). -/
def State.coreExtents (s : State) (tid : Nat) (t : Thread) (level : Nat) : List Extent :=
  let cores := if level = 0 then [] else if level = 1 then [tidCore tid] else
    match s.group? t.group with
    | some g => g.cores.map (·.toNat)
    | none => []
  cores.map fun c => { coreState := true, core := BitVec.ofNat 3 c, offset := 0, len := coreStateLen }

/-- The withdrawal of a taken thread's wait (R201, R370). -/
def Thread.withdraw (t : Thread) : Thread := match t.wait with
  | some w => match w.what with
    | .parked _ _ => t
    | .walk _ | .line _ => { t with wait := none, latch := none }
    | .latched _ => { t with wait := none }
    | _ => t.rewait
  | none => t

/-- The Stop of a taken thread: windows close, a member detaches, its wait is withdrawn (R370) (DEDUCED 53). -/
def State.stopThread (s : State) (tid : Nat) : State :=
  match s.thread? tid with
  | none => s
  | some t =>
    let s1 := (s.setThread tid t.drainWindows).detachGang tid
    let s2 := s1.withdrawParked tid
    let offered := match t.wait with
      | some w => match w.what with
        | .offer r => some r
        | _ => none
      | none => none
    let s3 := match offered with
      | some r => { s2 with rovers := s2.rovers.filter fun q => q.id != r }
      | none => s2
    (s3.modThread tid Thread.withdraw).flushThread tid fun _ => true

/-- The commands of a group answer to the object; those of a taken thread, or of other groups for a taken transfer thread, report to its
record (R343, R371) (DEDUCED 39). -/
def Cmd.save (addr group : Nat) (tids : List (Nat × BitVec 22)) (c : Cmd) : Cmd :=
  let who := match c.who with
    | .live x => match tids.findIdx? fun y => y.1 == x.toNat with
      | some m => .saved addr m
      | none => c.who
    | w => w
  if c.group = group ∧ c.obj.isNone then
    let n := (tids.findIdx? fun x => x.2 == c.gtid).getD 0
    { c with who := who, obj := some (addr, n) }
  else { c with who := who }

/-- Header and pending area of an object (R363, R365): CHECK is written last. -/
def writeHeader (x : Susp) (st nmsg nevt outcp sticky stime size : Nat) (cls : BitVec 2) (job launch index : BitVec 32)
    (deadline cbase clim : Word) (m : Mem) : Mem :=
  let m1 := putFields x.addr
    [(0x00, 4, 0x00C4C047), (0x04, 2, 1), (0x06, 1, x.level.toNat), (0x07, 1, st), (0x08, 8, x.version.toNat)
     , (0x10, 1, x.tids.length), (0x11, 1, x.extents.length), (0x12, 1, x.rights.toNat), (0x13, 1, nmsg), (0x14, 1, nevt)
     , (0x15, 1, outcp), (0x16, 1, cls.toNat), (0x17, 1, x.cause.toNat), (0x18, 4, job.toNat), (0x20, 8, x.origin.toNat)
     , (0x28, 8, 0), (0x30, 8, deadline.toNat), (0x38, 8, sticky), (0x40, 4, launch.toNat), (0x44, 4, index.toNat)
     , (0x48, 8, cbase.toNat), (0x50, 8, clim.toNat), (0x58, 4, size), (0x5C, 4, x.edrop), (0x60, 8, stime)]
    (zeroBytes (x.addr + 0x68) 24 m)
  putFields x.addr [(0x1C, 4, (checkOf m1 x.addr).toNat)] m1

/-- Core of an extent of a suspended unit. -/
def Susp.coreOf (x : Susp) (e : Extent) : Nat := match x.tids with
  | t :: _ => (tidCore t.toNat) / 8 * 8 + e.core.toNat
  | [] => e.core.toNat

/-- Full/empty bits of n granules, granule 0 in bit 0. -/
def State.fullBits (s : State) (g : Nat) : Nat → Nat
  | 0 => 0
  | n + 1 => bit01 (s.isFull g) + 2 * s.fullBits (g + 1) n

/-- One extent written at its place: descriptor, data, full/empty bits (R367). -/
def State.writeExtent (s : State) (x : Susp) (e : Extent) (p : Nat) (m : Mem) : Mem :=
  let (d0, d1) := e.words
  let m1 := putFields p [(0, 8, d0), (8, 8, d1)] m
  let c := x.coreOf e
  if e.coreState then putFields (p + 16) (coreStateFields (s.core c)) (zeroBytes (p + 16) coreStateLen m1)
  else
    let src := spadAddr c e.offset
    let m2 := writeBytes m1 (p + 16) e.len (readBytes s.mem src e.len)
    writeBytes m2 (p + 16 + e.len) (16 * ((e.len + 2047) / 2048)) (s.fullBits (src / 16) (e.len / 16))

/-- The extents written one after another. -/
def State.writeExtents (s : State) (x : Susp) : List Extent → Nat → Mem → Mem
  | [], _, m => m
  | e :: l, p, m => s.writeExtents x l (p + e.bytes) (s.writeExtent x e p m)

/-- Size of the object (R362). -/
def Susp.size (x : Susp) : Nat := 128 + 1536 * x.tids.length + (x.extents.map Extent.bytes).sum + 896

/-- The pending messages written, each in 80 bytes (R367). -/
def writeMsgs (time : Nat) : List (BitVec 16 × OutMsg × BitVec 22) → Nat → Mem → Mem
  | [], _, m => m
  | x :: l, p, m => writeMsgs time l (p + 80) (writeBytes m p 80 ((x.2.1.record x.2.2).bits 0#32 time))

/-- The pending events written, each in 32 bytes (R367). -/
def writeEvts : List (Nat × BitVec 8 × Word × Word × Word) → Nat → Mem → Mem
  | [], _, m => m
  | x :: l, p, m =>
    writeEvts l (p + 32) (putFields p [(0, 8, x.2.1.toNat + x.1 * 256), (8, 8, x.2.2.1.toNat), (16, 8, x.2.2.2.1.toNat)
                                       , (24, 8, x.2.2.2.2.toNat)] m)

/-- Events that a thread had not taken at its Stop are pending in the object before those that come later (R371). -/
def State.divertOwn (s : State) (id tid : Nat) : State := match s.thread? tid with
  | some t => (s.setThread tid { t with events := [] }).modSusp id fun x => t.events.foldl (fun y e => y.take tid e) x
  | none => s

/-- Flags of a pending event: those of its status word (R373). -/
def evtFlags (e : Nat × BitVec 8 × Word × Word × Word) : Flags :=
  if e.2.1 = 1 ∨ e.2.1 = 2 ∨ e.2.1 = 5 then statusFlags e.2.2.1 else 0#6

/-- Copies of a core set that answer to an object (DESIGN CHOICE 56). -/
def State.copiesOf (s : State) (addr : Nat) : Nat :=
  (s.cores.map fun x => (x.2.q4.filter fun c => c.obj.any fun o => o.1 == addr).length
    + (x.2.copies.filter fun r => r.cmd.obj.any fun o => o.1 == addr).length).sum

/-- The object written in a state (R370). -/
def State.writeObject (s : State) (x : Susp) (st : Nat) : State :=
  match s.group? x.group with
  | none => s
  | some g =>
    let flags := x.evts.foldl (fun a e => a ||| evtFlags e) x.sticky
    let sticky := flags.toNat + g.ulast.toNat * 2 ^ 16 + g.unrcnt.toNat * 2 ^ 24
    let p := x.addr + x.size - 896
    let m1 := (x.tids.zipIdx).foldl (fun m z => match s.thread? z.1.toNat with
      | some t => writeRecord (recordAddr x.addr z.2) z.1.toNat t m
      | none => m) s.mem
    let m2 := s.writeExtents x x.extents (recordAddr x.addr x.tids.length) m1
    let m3 := writeEvts x.evts (p + 640) (writeMsgs s.time (x.msgs.take 8) p (zeroBytes p 896 m2))
    { s with mem := writeHeader x st (min 8 x.msgs.length) x.evts.length (s.copiesOf x.addr) sticky s.time x.size g.cls g.job
                      g.launch g.index g.deadline g.cbase g.clim m3 }

/-- A suspension begins: the area becomes WRITING, the threads stop, messages divert, the group's commands
answer to the object, a held command is skipped, and the drain is awaited (R313, R368, R370) (DESIGN CHOICE 23). -/
def State.beginSusp (s : State) (group addr level : Nat) (rights cause : BitVec 8) (tids : List Nat) (extents : List Extent)
    (origin : BitVec 22) (job : BitVec 32) : State :=
  let x : Susp :=
    { id := s.fresh, addr := addr, level := BitVec.ofNat 2 level, rights := rights, cause := cause
      version := s.writeVersion addr job, tids := tids.map (BitVec.ofNat 16), group := group, extents := extents
      origin := origin, msgs := [], evts := [], sticky := 0#6, edrop := 0 }
  let held := (s.cores.filter fun c => c.2.held && match c.2.q0 with
    | h :: _ => h.group == group
    | [] => false).map (·.1)
  let stopped := (s.cores.filter fun c => tids.any c.2.stopOf).map (·.1)
  let s1 := tids.foldl State.stopThread { s.bump with susps := s.susps ++ [x] }
  let s2 := { s1 with cores := s1.cores.map fun c => (c.1, c.2.mapCmds (Cmd.save addr group (tids.map fun t => (t, s.gtid t)))) }
  let s3 := tids.foldl (fun u t => u.divertOwn x.id t) (stopped.foldl State.passQ4 (held.foldl State.skipHeld s2))
  let s4 := s3.writeObject x stWRITING
  let n := 24 * tids.length
  let far := if isCarafe addr && carafeCluster addr == coreCluster (tidCore (tids.headD 0)) then 0
    else (s.accessRange (tidCore (tids.headD 0)) addr).2
  let bytes := (x.extents.map Extent.bytes).sum
  (s4.schedule (s4.time + s4.pick n (163 + n + far) + (bytes + 63) / 64) (.suspendCommit x.id)).bump

/-- A command that a suspension must wait for: a matrix command of the group, or a copy whose destination or
signal granule lies in a saved extent (R370). -/
def State.suspBusy (s : State) (x : Susp) : Bool :=
  let inExtent := fun (a n : Nat) => x.extents.any fun e => !e.coreState && rangesMeet (spadAddr (x.coreOf e) e.offset) e.len a n
  s.cores.any fun c =>
    (c.2.q0.any fun m => m.obj.any fun o => o.1 == x.addr)
    || (c.2.copies.any fun r => (r.cmd.obj.any fun o => o.1 == x.addr)
         && ((cmdSignal r.cmd && inExtent (spadAddr c.1 (16 * cmdSgran r.cmd)) 16)
             || r.dsts.any fun d => inExtent d.1 d.2))
    || (c.2.q4.any fun m => (m.obj.any fun o => o.1 == x.addr) && (s.cmdDsts c.1 m).any fun d => inExtent d.1 d.2)

/-- The drain of a suspension has finished (R370). -/
def State.suspReady (s : State) (x : Susp) : Bool :=
  let quiet := x.tids.all fun t =>
    let tid := t.toNat
    (s.packetsOf tid).isEmpty && !s.combiningOut tid && (s.core (tidCore tid)).outUsed (tidSlot tid) == 0
      && match s.thread? tid with
         | some u => match u.wait with
           | some w => match w.what with
             | .access _ | .frame _ _ _ | .resuming _ | .parked _ _ | .served _ _ _ | .copying _ _ _ | .submitted _ _ | .ending => false
             | _ => true
           | none => true
         | none => true
  quiet && !s.suspBusy x && decide (x.evts.length + s.copiesOf x.addr ≤ 8)

/-- A task entry for a continuation (R160, R166). -/
def contEntry (x : Susp) (g : Group) (die : Nat) : VWord :=
  let e0 := BitVec.ofNat 64 (3 * 2 ^ 62 + g.cls.toNat * 2 ^ 60 + x.level.toNat * 2 ^ 57 + die * 2 ^ 55)
  fromLanes 64 [e0.toNat, x.addr, x.version.toNat, 1 * 2 ^ 32, g.deadline.toNat, g.cbase.toNat, g.clim.toNat, g.job.toNat]

/-- A task queued on a die, at the head or at the tail of its class in the order of acceptance (R162, R163, R166). Class 0 stands
in the order of its deadlines, and an entry that returns to its head stands before those of its own deadline only (DESIGN CHOICE 85). -/
def queueItem (q : QItem) (front : Bool) (l : List QItem) : List QItem :=
  if q.cls = 0 then
    let before := fun (x : QItem) =>
      let (a, b) := ((entryDeadline x.entry).toNat, (entryDeadline q.entry).toNat)
      x.cls != 0 || decide (a < b) || (!front && a == b && (x.first || decide (x.since ≤ q.since)))
    l.takeWhile before ++ [q] ++ l.dropWhile before
  else if front then q :: l
  else
    let before := fun (x : QItem) => x.cls != q.cls || x.first || decide (x.since ≤ q.since)
    l.takeWhile before ++ [q] ++ l.dropWhile before

/-- The state with a task queued, which may be dealt from the cycle of its acceptance on; a class that ages gets its time (R163). -/
def State.queueTask (s : State) (die : Nat) (e : VWord) (lo hi cls : Nat) (front : Bool) (accept : Nat) : State :=
  let q : QItem := { entry := e, lo := lo, hi := hi, cls := cls, since := accept, first := front }
  let s1 := (s.modDie die fun d => { d with queue := queueItem q front d.queue }).schedule accept (.tquDeal (BitVec.ofNat 2 die))
  if cls = 3 then s1.schedule (accept + 2500000) (.class3Aging (BitVec.ofNat 2 die))
  else if cls = 2 then s1.schedule (accept + 10000000) (.class2Aging (BitVec.ofNat 2 die))
  else s1

/-- A suspension commits once its drain has finished: the object is written and SUSPENDED, the slots fall
vacant with the suspended mark, the cores of a core or cluster group are free, and a pre-empted or displaced
group's continuation is queued (R166, R175, R370). What a halted thread has fulfilled since its HOLD is released now, since its
record lists open promises only (R263, R366) (DEDUCED 53). -/
def State.commitSusp (s : State) (id : Nat) : State :=
  match s.susps.find? fun x => x.id == id with
  | none => s
  | some x =>
    if !s.suspReady x then s.schedule (s.time + 16) (.suspendCommit id)
    else
      let stepped := x.tids.filter fun t => (s.thread? t.toNat).any fun u => u.stepped && u.run == .live
      let gone := fun (u : State) (t : BitVec 16) => match u.thread? t.toNat with
        | some v => u.queueNotices .release t.toNat (v.run == .root) (v.noticed.filter fun o => !v.openPromises.elem o)
        | none => u
      let s0 := x.tids.foldl gone (stepped.foldl (fun u t => u.rootHalt t.toNat .step) s)
      let s1 := s0.writeObject x stSUSPENDED
      let s2 := { s1 with susps := s1.susps.filter fun y => y.id != id }
      let s3 := x.tids.foldl (fun u t => u.leaveSlot t.toNat true) s2
      let s4 := s3.modGroup x.group fun g => { g with suspended := g.suspended + x.tids.length, unrcnt := 0#8, ulast := 0#6 }
      match s4.group? x.group with
      | none => s4
      | some g =>
        let s5 := if x.level = 0#2 then s4 else
          g.cores.foldl (fun u c => u.modCore c.toNat fun k => if k.owner = some x.group then { k with owner := none } else k) s4
        let die := match g.cores with | c :: _ => coreDie c.toNat | [] => 0
        if x.cause = 1 then s5.queueTask die (contEntry x g die) 0 1 g.cls.toNat true s5.time
        else if x.cause = 2 then s5.queueTask die (contEntry x g die) 0 1 g.cls.toNat false s5.time
        else s5

/-- A suspension commits (R370). -/
def execSuspendCommit (id : Nat) (s : State) : Out := .next (s.commitSusp id)

/-! ### `susp` (R377) -/

/-- Extent requests of a control word; none when one is malformed (R377). -/
def State.requests (s : State) (core : Nat) (c : Word) : Option (List Extent) :=
  let n := (c.extractLsb' 16 5).toNat
  let l := (List.range n).map fun i => readExtent s.mem (spadAddr core ((c.extractLsb' 24 19).toNat + 16 * i))
  if l.all (fun x => match x with | some e => !e.coreState | none => false) then some (l.filterMap id) else none

/-- Two extents of a list meet. -/
def overlapping : List Extent → Bool
  | [] => false
  | e :: l => (l.any fun f => e.core == f.core && rangesMeet e.offset e.len f.offset f.len) || overlapping l

/-- A malformed control word (R377) (DEDUCED 54). -/
def controlBad (c : Word) : Bool :=
  let xlist := (c.extractLsb' 24 19).toNat
  let nx := (c.extractLsb' 16 5).toNat
  (c &&& ~~~0x7FFFF1F1F03#64) != 0#64 || c.extractLsb' 0 2 == 3#2 || decide (16 < nx) || xlist % 16 != 0
    || decide (spadSize < xlist + 16 * nx)

/-- `susp xd, xa, xb` (R377). -/
def execSusp (d a b : Reg) (s : State) : Out :=
  let _ := d
  performing s fun tid t =>
    let addr := t.reg a
    let c := t.reg b
    let level := (c.extractLsb' 0 2).toNat
    s.withObject tid t addr true fun g =>
      match s.requests (tidCore tid) c, s.unitOf tid t level with
      | some l, some tids =>
        let ext := l ++ s.coreExtents tid t level
        let cores := (tids.map fun x => tidCore x % 8)
        let size := 128 + 1536 * tids.length + (ext.map Extent.bytes).sum + 896
        if controlBad c || overlapping l || decide (16 < ext.length) || decide (rangeEnd g < g + size)
            || l.any (fun e => !(if level = 2 then true else cores.elem e.core.toNat)) then s.trap tid t cCONTFMT addr
        else s.withPages tid t g size true <|
          if s.objHeld g t.job then s.trap tid t cCONTSTALE addr
          else
          let s1 := (s.next tid t).beginSusp t.group g level ((c.extractLsb' 8 5).setWidth 8) 0#8 tids ext (s.gtid tid) t.job
          s1.modThread tid fun u => { u with wait := some { what := .suspending s.fresh, order := s.fresh, count := 0
                                                            limit := none, eval := 0#64, cancel := false } }
      | _, _ => s.trap tid t cCONTFMT addr

/-! ### Resumption (R373, R378) -/

/-- Cores of the object's records, as core-in-cluster and slot. -/
def objPlaces (m : Mem) (a : Nat) : List (Nat × Nat) :=
  (List.range (objNthr m a)).map fun t =>
    let p := readBytes m (recordAddr a t + 0x110) 8
    (p / 16 % 8, p % 16)

/-- Target slots of a resume on a core; none when one is not free (R373). `slot` is the slot that a `start`
names for a thread, `issuer` the issuing thread. -/
def State.resumeTargets (s : State) (a core : Nat) (slot : Option Nat) (issuer : Option Nat) : Option (List Nat) :=
  let free := fun (c : Nat) => (s.core c).owner.isNone && !(s.core c).lost && !(s.core c).disabled 0
    && (s.core c).workers.all fun n => s.slotFree (c * 16 + n) || issuer == some (c * 16 + n)
  let places := objPlaces s.mem a
  let clash := fun (l : List Nat) => l.any fun x => (s.thread? x).isSome
  if objLevel s.mem a = 0 then
    match slot with
    | some n => if s.slotFree (core * 16 + n) then some [core * 16 + n] else none
    | none => (s.freeWorker core none).map fun n => [core * 16 + n]
  else if objLevel s.mem a = 1 then
    let ts := places.map fun p => core * 16 + p.2
    let place := match issuer with
      | some i => tidSlot i == 0 || tidSlot i == 15
      | none => true
    if free core && place && !clash ts then some ts else none
  else
    let base := coreCluster core * 8
    let ts := places.map fun p => (base + p.1) * 16 + p.2
    if places.all (fun p => free (base + p.1)) && !clash ts then some ts else none

/-- Another core, cluster or rank than ORIGIN's without the right (R378). -/
def State.needsRight (s : State) (a core : Nat) : Bool :=
  let o := objOrigin s.mem a
  let r := objRights s.mem a
  let oc := o / 16 % 4096
  let away := if objLevel s.mem a = 2 then coreCluster oc != coreCluster core else oc != core
  let rank := o / 2 ^ 16 != (s.ownRank (objJob s.mem a)).toNat
  ((away || rank) && !r.getLsbD 3) || (rank && !r.getLsbD 4)

/-- The checks of a resume before its acceptance: the cause that fails, or the target slots (R378). -/
def State.resumeCheck (s : State) (a core : Nat) (job : BitVec 32) (slot : Option Nat) (issuer : Option Nat) :
    Except (BitVec 8) (List Nat) :=
  if rangeEnd a < a + objSize s.mem a then .error cACCESSFAULT
  else if !objValid s.mem a then .error cCONTCORRUPT
  else if objJob s.mem a ≠ job ∨ !(objRights s.mem a).getLsbD 0 then .error cCONTRIGHTS
  else if s.needsRight a core then .error cCONTRIGHTS
  else match s.resumeTargets a core slot issuer with
    | some l => .ok l
    | none => .error cCONTPLACE

/-- Cycles within which one thread is resumed from an object with nothing pending (R383) (DESIGN CHOICE 23). -/
def resumeBound (core a : Nat) : Nat :=
  if !isCarafe a || carafeCluster a / 128 != coreDie core then 875
  else if carafeCluster a = coreCluster core then 150
  else 312

/-- Cycles from a resume's issue to its acceptance: half the time of a load of the header (R191, R378) (DESIGN CHOICE 23). -/
def State.acceptRange (s : State) (core a : Nat) : Nat × Nat :=
  let r := s.accessRange core a
  (r.1 / 2, r.2 / 2)

/-- Cycles from a resume's acceptance to the restore (R383) (DESIGN CHOICE 23). -/
def State.resumeTime (s : State) (core a : Nat) : Nat :=
  let r := s.acceptRange core a
  let extents := objSize s.mem a - (128 + 1536 * objNthr s.mem a + 896)
  s.pick r.1 (resumeBound core a - r.2) + 24 * (objNthr s.mem a - 1) + 8 * (objNmsg s.mem a + objNevt s.mem a) + (extents + 63) / 64

/-- A resume that has passed its checks (R378). -/
def State.beginResume (s : State) (a core : Nat) (version : Word) (claims : List Nat) (issuer : Option Nat)
    (job : BitVec 32) (asCode : Option Reg) : State :=
  let r : Resume := { id := s.fresh, addr := a, version := version, issuer := issuer.map (BitVec.ofNat 16), core := BitVec.ofNat 12 core
                      claims := claims.map (BitVec.ofNat 16), job := job, asCode := asCode, accepted := false }
  ({ s.bump with resumes := s.resumes ++ [r] }.schedule (s.time + s.pick (s.acceptRange core a).1 (s.acceptRange core a).2) (.resumeAccept r.id)).bump

/-- Code that a `start` writes for a cause (R179) (DEDUCED 27). -/
def startCode (c : BitVec 8) : Word :=
  if c = cCONTSTALE then 4 else if c = cCONTRIGHTS then 5 else if c = cCONTCORRUPT then 6 else if c = cCONTPLACE then 7
  else if c = cCONTFMT then 8 else 9

/-- The end of a resume for its issuer: a code for `start`, retirement or a trap for `resm`; the house cores record the code of a
dealt entry that fails (R378). -/
def State.endResume (s : State) (r : Resume) (cause : Option (BitVec 8)) : State :=
  let s1 := { s with resumes := s.resumes.filter fun x => x.id != r.id }
  match r.issuer with
  | none => match cause with
    | some c => { s1 with dropped := s1.dropped ++ [(r.job, r.addr, startCode c)] }
    | none => s1
  | some tid => match s1.thread? tid.toNat with
    | none => s1
    | some t =>
      match r.asCode, cause with
      | some d, c => s1.next tid.toNat (t.setReg d (match c with | some x => startCode x | none => 0#64) false)
      | none, none => s1.next tid.toNat t
      | none, some c => s1.trapWaited tid.toNat t c (t.reg (match decodeWord (wordAt s.mem t.pc.toNat) with
          | .ok (.resm a _) => a
          | _ => 0#5))

/-- The running group of an object's launch and index; a new one when it has ended (R183, R373) (DEDUCED 57). -/
def State.objGroup (s : State) (a : Nat) (cores : List CoreId) : State × Nat :=
  let m := s.mem
  match s.groups.find? fun g => g.launch == objLaunch m a && g.index == objIndex m a && g.job == objJob m a with
  | some g => (s, g.id)
  | none => s.newGroup fun id =>
      { id := id, level := levelOfNo (objLevel m a), cls := objClass m a, launch := objLaunch m a, index := objIndex m a
        job := objJob m a, cores := cores, deadline := objDeadline m a, posted := 0, unrcnt := 0, ulast := 0, suspended := 0
        cbase := objCbase m a, clim := objClim m a }

/-- An extent restored on a core (R373): bytes and full/empty bits, or a core's state (DEDUCED 54). -/
def State.restoreExtent (s : State) (c g p : Nat) (e : Extent) : State :=
  if e.coreState then s.modCore c fun k => k.load s.mem (p + 16) g
  else
    let dst := spadAddr c e.offset
    let bits := readBytes s.mem (p + 16 + e.len) (16 * ((e.len + 2047) / 2048))
    let gs := List.range (e.len / 16)
    let full := gs.foldl (fun l i => if bits / 2 ^ i % 2 = 1 then setInsert (dst / 16 + i) l else setErase (dst / 16 + i) l) s.full
    ({ s with mem := writeBytes s.mem dst e.len (readBytes s.mem (p + 16) e.len), full := full }.rebuild dst e.len).handoffAll
      (gs.map fun i => dst / 16 + i)

/-- A pending message delivered on the core of a thread, with DSLOT set to its new slot; bounced to its SRC with REASON 1 when it
does not fit (R373). -/
def State.restoreMsg (s : State) (job : BitVec 32) (p tid : Nat) : State :=
  let d0 := BitVec.ofNat 64 (readBytes s.mem p 8)
  let d1 := BitVec.ofNat 64 (readBytes s.mem (p + 8) 8)
  let src := d0.extractLsb' 8 22
  let r : MsgRec := { src := src, kind := (d0.extractLsb' 6 2).toNat, len := d0.extractLsb' 4 2, tag := d0.extractLsb' 0 4
                      reason := 0, chan := d1.extractLsb' 4 6, dslot := BitVec.ofNat 4 (tidSlot tid)
                      payload := BitVec.ofNat 512 (readBytes s.mem (p + 16) 64) }
  match s.putRec (tidCore tid) r with
  | some u => u.settleWithheld
  | none =>
    if src.extractLsb' 16 6 = s.ownRank job then
      s.bounceTo (tidCore (src.extractLsb' 0 16).toNat) { r with src := s.gtid tid, kind := 2, reason := 1 }
    else { s with peerBounces := s.peerBounces ++ [(src, { job := job, dest := s.gtid tid, tag := r.tag, len := r.len, payload := r.payload }, 1)] }

/-- Cause code of a pending event's KIND. -/
def evtCause (k : Nat) : BitVec 8 := if k = 3 then cILLCMD else if k = 4 then cRESCALE else if k = 5 then cMESTATUS else cFABUNREACH

/-- A pending event delivered: a record of q1 or q5, or an event of its thread (R373). -/
def State.restoreEvt (s : State) (p : Nat) (tids : List Nat) : State :=
  let d := fun (o : Nat) => BitVec.ofNat 64 (readBytes s.mem (p + o) 8)
  let kind := readBytes s.mem p 1
  let tid := (tids[readBytes s.mem (p + 1) 1 % 128]?).getD (tids.headD 0)
  let c := tidCore tid
  let r : QRec := { status := d 8, seq := d 16, gtid := s.gtid tid, written := if kind = 2 then d 24 else 0#64, group := 0 }
  if kind = 1 then (s.modCore c fun k => { k with q1 := k.q1 ++ [r] }).serveQpop c false
  else if kind = 2 then
    if (s.core c).xfer then (s.modCore c fun k => { k with q5 := k.q5 ++ [r] }).serveQpop c true else s
  else s.modThread tid fun t => { t with events := t.events ++ [{ code := evtCause kind, eval := d 8 }] }

/-- There is room in q1 and q5 of the target cores for the pending completions (R373). -/
def State.roomFor (s : State) (a p : Nat) (tids : List Nat) : Bool :=
  let evs := (List.range (objNevt s.mem a)).map fun i =>
    (readBytes s.mem (p + 640 + 32 * i) 1, tidCore ((tids[readBytes s.mem (p + 641 + 32 * i) 1 % 128]?).getD (tids.headD 0)))
  tids.all fun t =>
    let c := tidCore t
    let k := s.core c
    decide (k.q1.length + (evs.filter fun e => e.1 == 1 && e.2 == c).length ≤ Config.q1Records)
      && (!k.xfer || decide (k.q5.length + (evs.filter fun e => e.1 == 2 && e.2 == c).length ≤ Config.q5Records))

/-- The issuing thread of the `susp` that saved a record: the word before its PC is a `susp` and ORIGIN named it
(R373) (DEDUCED 55). -/
def suspReg (m : Mem) (a r : Nat) : Option Reg :=
  let p := readBytes m (r + 0x110) 8
  if objCause m a = 0 ∧ objOrigin m a % 2 ^ 7 = p / 16 % 8 * 16 + p % 16 then
    match decodeWord (wordAt m (readBytes m r 8 - 4)) with
    | .ok (.susp d _ _) => some d
    | _ => none
  else none

/-- One record loaded into its slot (R373). A thread that another rank suspended may have read a TIME that lies up to 2,500
cycles ahead, which the record does not hold: how far is free (R152) (DEDUCED 53, DEDUCED 55, DESIGN CHOICE 94). -/
def State.restoreThread (s : State) (a n tid group : Nat) (version : Word) : State :=
  let r := recordAddr a n
  let t0 := readRecord s.mem r group a s.time
  let place := readBytes s.mem (r + 0x110) 8
  let t1 := match suspReg s.mem a r with
    | some d => t0.setReg d version false
    | none => t0
  let stream := coreCluster (tidCore tid) * 16 + tidSlot tid
  let t2 := if place / 2 ^ 11 % 2 = 1 then { t1 with gang := some { stream := stream, attached := false, pos := 0 } } else t1
  let sleeping := place / 2 ^ 14 % 2 = 1
  let until_ := readBytes s.mem (r + 0x120) 8
  let t4 := if objOrigin s.mem a / 2 ^ 16 % 2 ^ 6 = (s.ownRank t2.job).toNat then t2 else { t2 with lastTime := s.time + s.pick 0 2500 }
  let t3 := if sleeping then
      { t4 with wait := some { what := .sleep until_, order := s.fresh, count := 0, limit := none, eval := 0#64, cancel := false } }
    else t4
  let s1 := (s.bump).occupy tid t3
  let s2 := if place / 2 ^ 11 % 2 = 1 ∧ (s1.stream? stream).isNone then
      s1.setStream stream { base := 0, path := [], joins := [] } else s1
  let s3 := if sleeping then s2.schedule (max until_ s2.time) (.sleepExpiry (BitVec.ofNat 16 tid)) else s2
  if place / 2 ^ 9 % 2 = 1 then s3.schedule s3.time (.rehalt (BitVec.ofNat 16 tid)) else s3

/-- The restore of an accepted resume (R373) (DEDUCED 57). A pending message names a slot but no core: which of a cluster's saved
threads of that slot gets it is free (R251, R367) (DESIGN CHOICE 56, DEDUCED 57). -/
def State.restore (s : State) (r : Resume) : State :=
  let a := r.addr
  let m := s.mem
  let tids := r.claims.map (·.toNat)
  match objExtents m a with
  | none => s
  | some (exts, p) =>
    let cores := (tids.map fun t => BitVec.ofNat 12 (tidCore t)).eraseDups
    let (s0, g) := s.objGroup a cores
    let coreFor := fun (e : Extent) => if objLevel m a = 2 then coreCluster r.core.toNat * 8 + e.core.toNat else r.core.toNat
    let s1 := exts.foldl (fun u x => u.restoreExtent (coreFor x.2) g x.1 x.2) s0
    let s2 := (tids.zipIdx).foldl (fun u x => u.restoreThread a x.2 x.1 g (objVersion m a)) s1
    let sticky := BitVec.ofNat 64 (objSticky m a)
    let un := (sticky.extractLsb' 24 8).toNat
    let s3 := s2.modGroup g fun x => { x with
      suspended := x.suspended - tids.length
      unrcnt := BitVec.ofNat 8 (min 255 (x.unrcnt.toNat + un)), ulast := if un = 0 then x.ulast else sticky.extractLsb' 16 6
      cores := if x.level = .thread then x.cores else cores }
    let s4 := if objLevel m a = 0 then s3 else cores.foldl (fun u c => u.modCore c.toNat fun k => { k with owner := some g }) s3
    let evs := (List.range (objNevt m a)).map fun i => p + 640 + 32 * i
    let flags := evs.foldl (fun f q => if readBytes m q 1 = 1 ∨ readBytes m q 1 = 2 ∨ readBytes m q 1 = 5 then
      f ||| statusFlags (BitVec.ofNat 64 (readBytes m (q + 8) 8)) else f) (sticky.extractLsb' 0 6)
    let s5 := s4.mergeFlags g flags
    let named := fun (q : Nat) => ((tids.zipIdx).filter fun x => readBytes m (recordAddr a x.2 + 0x110) 8 % 16 == readBytes m (q + 8) 1 % 16).map (·.1)
    let taker := fun (u : State) (q : Nat) => ((named q)[u.pick 0 ((named q).length - 1)]?).getD (tids.headD 0)
    let s6 := (List.range (objNmsg m a)).foldl (fun u i => u.bump.restoreMsg (objJob m a) (p + 80 * i) (taker u (p + 80 * i))) s5
    let s7 := evs.foldl (fun u q => u.restoreEvt q tids) s6
    { s7 with mem := setStateVersion a stRESUMED (objVersion m a) s7.mem
              poolUsed := s7.poolUsed.filter fun x => x.1 != a }

/-- A resume is accepted at the owner, and restored (R368, R373, R378): it waits for the redirected copies, takes
the version in one step, and waits for room in q1 and q5. -/
def State.acceptResume (s : State) (id : Nat) : State :=
  match s.resumes.find? fun r => r.id == id with
  | none => s
  | some r =>
    let a := r.addr
    if !r.accepted then
      if objValid s.mem a && objOutcp s.mem a != 0 then s.schedule (s.time + 16) (.resumeAccept id)
      else if !objValid s.mem a ∨ objState s.mem a ≠ stSUSPENDED ∨ objVersion s.mem a ≠ r.version then
        s.endResume r (some cCONTSTALE)
      else
        { s with mem := setStateVersion a stRESUMING (nextVersion r.version) s.mem
                 resumes := mapFirst (fun x => x.id == id) (fun x => { x with accepted := true }) s.resumes }.bump.schedule
          (s.time + s.resumeTime r.core.toNat a) (.resumeAccept id)
    else match objExtents s.mem a with
      | none => s.endResume r (some cCONTCORRUPT)
      | some (_, p) =>
        if s.roomFor a p (r.claims.map (·.toNat)) then ((s.restore r).endResume r none).settleWithheld
        else s.schedule (s.time + 16) (.resumeAccept id)

/-- A resume is accepted (R378). -/
def execResumeAccept (id : Nat) (s : State) : Out := .next (s.acceptResume id)

/-- `resm xa, xb` (R378). -/
def execResm (a b : Reg) (s : State) : Out :=
  performing s fun tid t =>
    s.releaseWait tid t fun _ =>
      s.withWhole tid t (t.reg a) true fun g =>
        match s.resumeCheck g (tidCore tid) t.job none (some tid) with
        | .error c => s.trap tid t c (t.reg a)
        | .ok l => (s.beginResume g (tidCore tid) (t.reg b) l (some tid) t.job none).await tid t (.resuming s.fresh) none 0#64

/-! ### `ccopy`, `cdisc` and `cstat` (R379 to R381) -/

/-- The checks of R376 on an object that need a right: the cause that fails. -/
def State.objFault (s : State) (g : Nat) (job : BitVec 32) (right : Nat) : Option (BitVec 8) :=
  if rangeEnd g < g + objSize s.mem g then some cACCESSFAULT
  else if !objValid s.mem g then some cCONTCORRUPT
  else if objJob s.mem g ≠ job ∨ !(objRights s.mem g).getLsbD right then some cCONTRIGHTS
  else none

/-- The copy of an object, in STATE 0 until it ends (R379) (DESIGN CHOICE 56). -/
def State.copyObject (s : State) (src dst : Nat) (from_ : Word) : State :=
  let n := objSize s.mem src
  let m1 := writeBytes s.mem dst n (readBytes s.mem src n)
  let m2 := putFields dst [(0x07, 1, stWRITING), (0x08, 8, 1), (0x15, 1, 0), (0x28, 8, from_.toNat)] m1
  { s with mem := putFields dst [(0x1C, 4, (checkOf m2 dst).toNat)] m2 }

/-- The time of a load or an atomic of an object's header (R191, R381, R383) (DESIGN CHOICE 23). -/
def State.objTime (s : State) (tid a : Nat) : Nat :=
  let r := s.accessRange (tidCore tid) a
  s.pick r.1 r.2

/-- `ccopy xa, xb` (R379) (DESIGN CHOICE 56). -/
def execCcopy (a b : Reg) (s : State) : Out :=
  performing s fun tid t =>
    s.withWhole tid t (t.reg a) false fun src =>
      match s.objFault src t.job 1 with
      | some c => s.trap tid t c (t.reg a)
      | none =>
        if objState s.mem src ≠ stSUSPENDED then s.trap tid t cCONTSTALE (t.reg a)
        else if objOutcp s.mem src ≠ 0 then s.retryWhen tid t (.outcp src)
        else
          s.withObject tid t (t.reg b) true fun dst =>
            let n := objSize s.mem src
            if rangeEnd dst < dst + n then s.trap tid t cACCESSFAULT (t.reg b)
            else if rangesMeet src n dst n then s.trap tid t cCONTFMT (t.reg b)
            else s.withPages tid t dst n true <|
              if s.objHeld dst t.job then s.trap tid t cCONTSTALE (t.reg b)
              else
                ((s.copyObject src dst (t.reg a)).await tid t (.copying src (objVersion s.mem src) dst) none (t.reg a)).bump.schedule
                  (s.time + s.objTime tid src + (n + 63) / 64) (.copied (BitVec.ofNat 16 tid))

/-- The rovers among an object's records. -/
def objRovers (m : Mem) (a : Nat) : List Nat :=
  ((List.range (objNthr m a)).map (recordAddr a)).filter fun r => readBytes m (r + 0x110) 8 / 2 ^ 7 % 2 == 1

/-- A copy counts as further saved threads of its group, and its rovers on their origin cores (R159, R232, R380) (DESIGN CHOICE 56). -/
def State.countCopy (s : State) (a : Nat) : State :=
  let m := s.mem
  let rove := fun (u : State) (r : Nat) => u.modCore (readBytes m (r + 0x118) 8 % 4096) fun k =>
    { k with rovelim := putField k.rovelim 16 9 (min 511 (getField k.rovelim 16 9 + 1)) }
  match s.groups.find? fun g => g.launch == objLaunch m a && g.index == objIndex m a && g.job == objJob m a with
  | some g => (objRovers m a).foldl rove (s.modGroup g.id fun x => { x with suspended := x.suspended + objNthr m a })
  | none => (objRovers m a).foldl rove s

/-- A `ccopy` ends: the destination becomes SUSPENDED in one step with a check that the source still is what was read; else it stays
in STATE 0 and CONTSTALE is raised (R379) (DESIGN CHOICE 56). -/
def State.copyDone (s : State) (tid : Nat) : State :=
  match s.thread? tid with
  | none => s
  | some t => match t.wait with
    | some w => match w.what with
      | .copying src v dst =>
        if objValid s.mem src ∧ objState s.mem src = stSUSPENDED ∧ objVersion s.mem src = v then
          ({ s with mem := setStateVersion dst stSUSPENDED 1#64 s.mem }.countCopy dst).finish tid t (t.pc + 4#64) false 0
        else s.trapWaited tid t cCONTSTALE (BitVec.ofNat 64 (objCopied s.mem dst))
      | _ => s
    | none => s

/-- The saved threads of a discarded object count as ended: promises go, halted ones are released, rovers leave
their origin's count (R380) (DESIGN CHOICE 56). -/
def State.discard (s : State) (tid a : Nat) : State :=
  let m := s.mem
  let n := objNthr m a
  let g? := s.groups.find? fun g => g.launch == objLaunch m a && g.index == objIndex m a && g.job == objJob m a
  let s1 := (List.range n).foldl (fun u i =>
    let r := recordAddr a i
    let t := readRecord m r 0 a s.time
    let place := readBytes m (r + 0x110) 8
    let halted := place / 2 ^ 8 % 4 ≠ 0
    let u1 := if halted then u.queueNotices .release tid (place / 2 ^ 8 % 2 = 1) t.openPromises else u
    let u2 := u1.releaseRover t
    { u2 with mem := zeroBytes (r + 0x400) 128 u2.mem }) s
  let s2 := { s1 with mem := putFields a [(0x13, 1, 0)] (setStateVersion a stDISCARDED (nextVersion (objVersion m a)) s1.mem)
                      poolUsed := s1.poolUsed.filter fun x => x.1 != a }
  match g? with
  | some g => (s2.modGroup g.id fun x => { x with suspended := x.suspended - n }).settleGroup g.id
  | none => s2

/-- The debugger releases a suspended thread: HALTED goes from its record and its promises are released; one that stays halted
by dependence keeps them withheld (R373, R441) (DESIGN CHOICE 2). -/
def State.releaseSaved (s : State) (a i : Nat) : State :=
  let m := s.mem
  let r := recordAddr a i
  let place := readBytes m (r + 0x110) 8
  if objValid m a && objState m a == stSUSPENDED && decide (i < objNthr m a) && decide (place / 2 ^ 8 % 2 = 1) then
    let s1 := { s with mem := writeBytes m (r + 0x110) 8 (place - 2 ^ 8) }
    if place / 2 ^ 9 % 2 = 1 then s1
    else s1.queueNotices .release (objOrigin m a % 2 ^ 16) true (readRecord m r 0 a s.time).openPromises
  else s

/-- `cdisc xa, xb` (R380) (DESIGN CHOICE 56). -/
def execCdisc (a b : Reg) (s : State) : Out :=
  performing s fun tid t =>
    s.withWhole tid t (t.reg a) true fun g =>
      match s.objFault g t.job 2 with
      | some c => s.trap tid t c (t.reg a)
      | none =>
        if objOutcp s.mem g ≠ 0 then s.retryWhen tid t (.outcp g)
        else if objState s.mem g ≠ stSUSPENDED ∨ objVersion s.mem g ≠ t.reg b then s.trap tid t cCONTSTALE (t.reg a)
        else
          ((s.next tid t).discard tid g).bump.modThread tid fun u =>
            { u with readyAt := max u.readyAt (s.time + s.objTime tid g) }

/-- What `cstat` reads (R381). -/
def objStat (m : Mem) (a : Nat) (job : BitVec 32) : Word :=
  if objValid m a && objJob m a == job then
    BitVec.ofNat 64 ((objVersion m a).toNat % 2 ^ 48 * 2 ^ 16 + (objRights m a).toNat * 2 ^ 8 + objLevel m a * 2 ^ 4 + objState m a)
  else 15#64

/-- `cstat xd, xa` (R381). -/
def execCstat (d a : Reg) (s : State) : Out :=
  performing s fun tid t =>
    s.withObject tid t (t.reg a) false fun g =>
      (s.writeReg tid t d (objStat s.mem g t.job) false).bump.modThread tid fun u =>
        { u with readyAt := max u.readyAt (s.time + s.objTime tid g) }

/-! ### Pre-emption into a pool (R374) -/

/-- The pools of a job for a cluster: addresses and sizes (R374). -/
def poolsOf (job : BitVec 32) (cluster : Nat) : List (Nat × Nat) :=
  let c := Config.poolCarafe job cluster
  let t := Config.poolTier job
  let off := c.1 % (carafeSize / 128)
  [ (carafeBase + cluster * carafeSize + 128 * off, 128 * min c.2 (carafeSize / 128 - off))
  , (tierBase + 128 * (t.1 % ((tierEnd - tierBase) / 128)), 128 * t.2) ]

/-- Areas of the pools that hold an object which is neither RESUMED nor DISCARDED. -/
def State.poolHeld (s : State) : List (Nat × Nat) :=
  s.poolUsed.filter fun x => objState s.mem x.1 != stRESUMED && objState s.mem x.1 != stDISCARDED

/-- The lowest place where n bytes fit: the pool's start or the end of a held area, rounded up (R374) (DESIGN CHOICE 52). -/
def State.poolPlace (s : State) (n : Nat) (pool : Nat × Nat) : Option Nat :=
  let ends := pool.1 :: (s.poolHeld.map fun x => (x.1 + x.2 + 127) / 128 * 128)
  let fits := fun (a : Nat) => decide (pool.1 ≤ a) && decide (a + n ≤ pool.1 + pool.2)
    && s.poolHeld.all fun x => !rangesMeet a n x.1 x.2
  (ends.filter fits).foldl (fun m a => match m with | none => some a | some b => some (min a b)) none

/-- Threads of a group are suspended into a pool of the group's job; none when no pool has room (R374). -/
def State.evictUnit (s : State) (g : Group) (level : Nat) (cause rights : BitVec 8) (unit : List (Nat × Thread)) : Option State :=
  match unit with
  | [] => none
  | (tid, t) :: rest =>
    let ext := s.coreExtents tid t level
    let n := 128 + 1536 * (rest.length + 1) + (ext.map Extent.bytes).sum + 896
    match (poolsOf g.job (coreCluster (tidCore tid))).filterMap (s.poolPlace n) with
    | a :: _ =>
      some ({ s with poolUsed := s.poolUsed.filter (fun (y : Nat × Nat) => y.1 != a) ++ [(a, n)] }.beginSusp g.id a level rights cause
        (tid :: rest.map fun (y : Nat × Thread) => y.1) ext (s.gtid tid) g.job)
    | [] => none

/-- The task queue unit suspends a group (R166, R374). -/
def State.evict (s : State) (g : Group) (cause rights : BitVec 8) : Option State :=
  s.evictUnit g (levelNo g.level) cause rights (s.running g.id)

end Sys2Proof.Machine
end

