-- ==== Sys2Proof/Machine/Scalar.lean ====
section
/-! DEFINITION. The scalar instructions of RV64I and M without memory, CSR and control transfer (R136, R133,
R194), and the scalar extras (R143 to R148). -/

set_option Elab.async false

namespace Sys2Proof.Machine

/-! ### Shared forms -/

/-- An operation of two registers; the result's taint is the OR of its sources' (R194). -/
def State.aluRR (s : State) (tid : Nat) (t : Thread) (d a b : Reg) (f : Word → Word → Word) : State :=
  s.writeReg tid t d (f (t.reg a) (t.reg b)) (t.tainted a || t.tainted b)

/-- An operation of one register. -/
def State.aluR (s : State) (tid : Nat) (t : Thread) (d a : Reg) (f : Word → Word) : State :=
  s.writeReg tid t d (f (t.reg a)) (t.tainted a)

/-- A divide: it occupies the thread for `busy` cycles (R133). -/
def State.divRR (s : State) (tid : Nat) (t : Thread) (d a b : Reg) (busy : Nat) (f : Word → Word → Word) : State :=
  s.finish tid (t.setReg d (f (t.reg a) (t.reg b)) (t.tainted a || t.tainted b)) (t.pc + 4#64) false busy

/-- A 32-bit result, sign-extended (R136). -/
def sext32 (x : BitVec 32) : Word := x.signExtend 64

/-- The low 32 bits of a register value. -/
def low32 (x : Word) : BitVec 32 := x.setWidth 32

/-- A truth value as a register value. -/
def boolWord (b : Bool) : Word := if b then 1#64 else 0#64

/-- The 12-bit immediate sign-extended. -/
def imm12 (i : BitVec 12) : Word := i.signExtend 64

/-- Signed quotient: all ones for a zero divisor, and −2^(w−1) for −2^(w−1) ÷ −1 (R136). -/
def quotS {w : Nat} (x y : BitVec w) : BitVec w := if y = 0 then BitVec.allOnes w else x.sdiv y

/-- Unsigned quotient: all ones for a zero divisor (R136). -/
def quotU {w : Nat} (x y : BitVec w) : BitVec w := if y = 0 then BitVec.allOnes w else x / y

/-- Signed remainder: the dividend for a zero divisor (R136). -/
def remS {w : Nat} (x y : BitVec w) : BitVec w := if y = 0 then x else x.srem y

/-- Unsigned remainder: the dividend for a zero divisor (R136). -/
def remU {w : Nat} (x y : BitVec w) : BitVec w := if y = 0 then x else x % y

/-- Bits 127:64 of a product. -/
def high64 (x : BitVec 128) : Word := x.extractLsb' 64 64

/-- Zero bits above the highest 1 bit, looking at bits n − 1 down (R144). -/
def clzBits (x : Word) : Nat → Nat
  | 0 => 0
  | n + 1 => if x.getLsbD n then 0 else clzBits x n + 1

/-- Zero bits below the lowest 1 bit, looking at n bits from bit 64 − n up (R144). -/
def ctzBits (x : Word) : Nat → Nat
  | 0 => 0
  | n + 1 => if x.getLsbD (63 - n) then 0 else ctzBits x n + 1

/-- Number of 1 bits among bits n − 1 to 0 (R144). -/
def popBits (x : Word) : Nat → Nat
  | 0 => 0
  | n + 1 => popBits x n + (if x.getLsbD n then 1 else 0)

/-- Signed lesser-than. -/
def slt64 (x y : Word) : Bool := decide (x.toInt < y.toInt)

/-- Unsigned lesser-than. -/
def ult64 (x y : Word) : Bool := decide (x.toNat < y.toNat)

/-! ### OP-IMM and OP-IMM-32 (R136) -/

/-- ADDI: X[rd] := X[rs1] + imm (R136). -/
def execAddi (d a : Reg) (i : BitVec 12) (s : State) : Out :=
  performing s fun tid t => s.aluR tid t d a fun x => x + imm12 i

/-- SLTI: signed comparison with the immediate (R136). -/
def execSlti (d a : Reg) (i : BitVec 12) (s : State) : Out :=
  performing s fun tid t => s.aluR tid t d a fun x => boolWord (slt64 x (imm12 i))

/-- SLTIU: unsigned comparison with the sign-extended immediate (R136). -/
def execSltiu (d a : Reg) (i : BitVec 12) (s : State) : Out :=
  performing s fun tid t => s.aluR tid t d a fun x => boolWord (ult64 x (imm12 i))

/-- XORI (R136). -/
def execXori (d a : Reg) (i : BitVec 12) (s : State) : Out :=
  performing s fun tid t => s.aluR tid t d a fun x => x ^^^ imm12 i

/-- ORI (R136). -/
def execOri (d a : Reg) (i : BitVec 12) (s : State) : Out :=
  performing s fun tid t => s.aluR tid t d a fun x => x ||| imm12 i

/-- ANDI (R136). -/
def execAndi (d a : Reg) (i : BitVec 12) (s : State) : Out :=
  performing s fun tid t => s.aluR tid t d a fun x => x &&& imm12 i

/-- ADDIW (R136). -/
def execAddiw (d a : Reg) (i : BitVec 12) (s : State) : Out :=
  performing s fun tid t => s.aluR tid t d a fun x => sext32 (low32 x + low32 (imm12 i))

/-- SLLI (R136). -/
def execSlli (d a : Reg) (sh : BitVec 6) (s : State) : Out :=
  performing s fun tid t => s.aluR tid t d a fun x => x <<< sh.toNat

/-- SRLI (R136). -/
def execSrli (d a : Reg) (sh : BitVec 6) (s : State) : Out :=
  performing s fun tid t => s.aluR tid t d a fun x => x >>> sh.toNat

/-- SRAI (R136). -/
def execSrai (d a : Reg) (sh : BitVec 6) (s : State) : Out :=
  performing s fun tid t => s.aluR tid t d a fun x => x.sshiftRight sh.toNat

/-- SLLIW (R136). -/
def execSlliw (d a : Reg) (sh : BitVec 5) (s : State) : Out :=
  performing s fun tid t => s.aluR tid t d a fun x => sext32 (low32 x <<< sh.toNat)

/-- SRLIW (R136). -/
def execSrliw (d a : Reg) (sh : BitVec 5) (s : State) : Out :=
  performing s fun tid t => s.aluR tid t d a fun x => sext32 (low32 x >>> sh.toNat)

/-- SRAIW (R136). -/
def execSraiw (d a : Reg) (sh : BitVec 5) (s : State) : Out :=
  performing s fun tid t => s.aluR tid t d a fun x => sext32 ((low32 x).sshiftRight sh.toNat)

/-! ### OP and OP-32 (R136) -/

/-- ADD (R136). -/
def execAdd (d a b : Reg) (s : State) : Out :=
  performing s fun tid t => s.aluRR tid t d a b fun x y => x + y

/-- SUB (R136). -/
def execSub (d a b : Reg) (s : State) : Out :=
  performing s fun tid t => s.aluRR tid t d a b fun x y => x - y

/-- SLL (R136). -/
def execSll (d a b : Reg) (s : State) : Out :=
  performing s fun tid t => s.aluRR tid t d a b fun x y => x <<< (y.toNat % 64)

/-- SLT (R136). -/
def execSlt (d a b : Reg) (s : State) : Out :=
  performing s fun tid t => s.aluRR tid t d a b fun x y => boolWord (slt64 x y)

/-- SLTU (R136). -/
def execSltu (d a b : Reg) (s : State) : Out :=
  performing s fun tid t => s.aluRR tid t d a b fun x y => boolWord (ult64 x y)

/-- XOR (R136). -/
def execXor (d a b : Reg) (s : State) : Out :=
  performing s fun tid t => s.aluRR tid t d a b fun x y => x ^^^ y

/-- SRL (R136). -/
def execSrl (d a b : Reg) (s : State) : Out :=
  performing s fun tid t => s.aluRR tid t d a b fun x y => x >>> (y.toNat % 64)

/-- SRA (R136). -/
def execSra (d a b : Reg) (s : State) : Out :=
  performing s fun tid t => s.aluRR tid t d a b fun x y => x.sshiftRight (y.toNat % 64)

/-- OR (R136). -/
def execOr (d a b : Reg) (s : State) : Out :=
  performing s fun tid t => s.aluRR tid t d a b fun x y => x ||| y

/-- AND (R136). -/
def execAnd (d a b : Reg) (s : State) : Out :=
  performing s fun tid t => s.aluRR tid t d a b fun x y => x &&& y

/-- MUL (R136). -/
def execMul (d a b : Reg) (s : State) : Out :=
  performing s fun tid t => s.aluRR tid t d a b fun x y => x * y

/-- MULH (R136). -/
def execMulh (d a b : Reg) (s : State) : Out :=
  performing s fun tid t => s.aluRR tid t d a b fun x y => high64 (x.signExtend 128 * y.signExtend 128)

/-- MULHSU (R136). -/
def execMulhsu (d a b : Reg) (s : State) : Out :=
  performing s fun tid t => s.aluRR tid t d a b fun x y => high64 (x.signExtend 128 * y.setWidth 128)

/-- MULHU (R136). -/
def execMulhu (d a b : Reg) (s : State) : Out :=
  performing s fun tid t => s.aluRR tid t d a b fun x y => high64 (x.setWidth 128 * y.setWidth 128)

/-- ADDW (R136). -/
def execAddw (d a b : Reg) (s : State) : Out :=
  performing s fun tid t => s.aluRR tid t d a b fun x y => sext32 (low32 x + low32 y)

/-- SUBW (R136). -/
def execSubw (d a b : Reg) (s : State) : Out :=
  performing s fun tid t => s.aluRR tid t d a b fun x y => sext32 (low32 x - low32 y)

/-- SLLW (R136). -/
def execSllw (d a b : Reg) (s : State) : Out :=
  performing s fun tid t => s.aluRR tid t d a b fun x y => sext32 (low32 x <<< (y.toNat % 32))

/-- SRLW (R136). -/
def execSrlw (d a b : Reg) (s : State) : Out :=
  performing s fun tid t => s.aluRR tid t d a b fun x y => sext32 (low32 x >>> (y.toNat % 32))

/-- SRAW (R136). -/
def execSraw (d a b : Reg) (s : State) : Out :=
  performing s fun tid t => s.aluRR tid t d a b fun x y => sext32 ((low32 x).sshiftRight (y.toNat % 32))

/-- MULW (R136). -/
def execMulw (d a b : Reg) (s : State) : Out :=
  performing s fun tid t => s.aluRR tid t d a b fun x y => sext32 (low32 x * low32 y)

/-- DIV: 40 cycles (R133, R136). -/
def execDiv (d a b : Reg) (s : State) : Out :=
  performing s fun tid t => s.divRR tid t d a b 40 fun x y => quotS x y

/-- DIVU: 40 cycles (R133, R136). -/
def execDivu (d a b : Reg) (s : State) : Out :=
  performing s fun tid t => s.divRR tid t d a b 40 fun x y => quotU x y

/-- REM: 40 cycles (R133, R136). -/
def execRem (d a b : Reg) (s : State) : Out :=
  performing s fun tid t => s.divRR tid t d a b 40 fun x y => remS x y

/-- REMU: 40 cycles (R133, R136). -/
def execRemu (d a b : Reg) (s : State) : Out :=
  performing s fun tid t => s.divRR tid t d a b 40 fun x y => remU x y

/-- DIVW: 24 cycles (R133, R136). -/
def execDivw (d a b : Reg) (s : State) : Out :=
  performing s fun tid t => s.divRR tid t d a b 24 fun x y => sext32 (quotS (low32 x) (low32 y))

/-- DIVUW: 24 cycles (R133, R136). -/
def execDivuw (d a b : Reg) (s : State) : Out :=
  performing s fun tid t => s.divRR tid t d a b 24 fun x y => sext32 (quotU (low32 x) (low32 y))

/-- REMW: 24 cycles (R133, R136). -/
def execRemw (d a b : Reg) (s : State) : Out :=
  performing s fun tid t => s.divRR tid t d a b 24 fun x y => sext32 (remS (low32 x) (low32 y))

/-- REMUW: 24 cycles (R133, R136). -/
def execRemuw (d a b : Reg) (s : State) : Out :=
  performing s fun tid t => s.divRR tid t d a b 24 fun x y => sext32 (remU (low32 x) (low32 y))

/-! ### LUI and AUIPC (R136) -/

/-- LUI: the immediate in bits 31:12, sign-extended; untainted (R194). -/
def execLui (d : Reg) (i : BitVec 20) (s : State) : Out :=
  performing s fun tid t => s.writeReg tid t d (sext32 (i ++ 0#12)) false

/-- AUIPC: PC plus the immediate in bits 31:12; untainted (R194). -/
def execAuipc (d : Reg) (i : BitVec 20) (s : State) : Out :=
  performing s fun tid t => s.writeReg tid t d (t.pc + sext32 (i ++ 0#12)) false

/-! ### Scalar extras (R143 to R148) -/

/-- `min` (R143). -/
def execMin (d a b : Reg) (s : State) : Out :=
  performing s fun tid t => s.aluRR tid t d a b fun x y => if slt64 x y then x else y

/-- `max` (R143). -/
def execMax (d a b : Reg) (s : State) : Out :=
  performing s fun tid t => s.aluRR tid t d a b fun x y => if slt64 y x then x else y

/-- `minu` (R143). -/
def execMinu (d a b : Reg) (s : State) : Out :=
  performing s fun tid t => s.aluRR tid t d a b fun x y => if ult64 x y then x else y

/-- `maxu` (R143). -/
def execMaxu (d a b : Reg) (s : State) : Out :=
  performing s fun tid t => s.aluRR tid t d a b fun x y => if ult64 y x then x else y

/-- `clz` (R144). -/
def execClz (d a : Reg) (s : State) : Out :=
  performing s fun tid t => s.aluR tid t d a fun x => BitVec.ofNat 64 (clzBits x 64)

/-- `ctz` (R144). -/
def execCtz (d a : Reg) (s : State) : Out :=
  performing s fun tid t => s.aluR tid t d a fun x => BitVec.ofNat 64 (ctzBits x 64)

/-- `cpop` (R144). -/
def execCpop (d a : Reg) (s : State) : Out :=
  performing s fun tid t => s.aluR tid t d a fun x => BitVec.ofNat 64 (popBits x 64)

/-- `pmv.xp`: X[rd] := pw (R147). -/
def execPmvXp (d : Reg) (s : State) : Out :=
  performing s fun tid t => s.writeReg tid t d t.pw false

/-- `pmv.px`: pw := X[rs1] (R147). -/
def execPmvPx (a : Reg) (s : State) : Out :=
  performing s fun tid t => s.next tid { t with pw := t.reg a }

/-- `sel`: X[rs1] when predicate n is set, X[rs2] otherwise (R148). -/
def execSel (d : Reg) (n : BitVec 6) (a b : Reg) (s : State) : Out :=
  performing s fun tid t => s.aluRR tid t d a b fun x y => if t.pred n then x else y

/-- `pset.eq` (R145). -/
def execPsetEq (p : BitVec 6) (a b : Reg) (s : State) : Out :=
  performing s fun tid t => s.next tid (t.setPred p (decide (t.reg a = t.reg b)))

/-- `pset.ne` (R145). -/
def execPsetNe (p : BitVec 6) (a b : Reg) (s : State) : Out :=
  performing s fun tid t => s.next tid (t.setPred p (decide (t.reg a ≠ t.reg b)))

/-- `pset.lt` (R145). -/
def execPsetLt (p : BitVec 6) (a b : Reg) (s : State) : Out :=
  performing s fun tid t => s.next tid (t.setPred p (slt64 (t.reg a) (t.reg b)))

/-- `pset.ge` (R145). -/
def execPsetGe (p : BitVec 6) (a b : Reg) (s : State) : Out :=
  performing s fun tid t => s.next tid (t.setPred p (!slt64 (t.reg a) (t.reg b)))

/-- `pset.ltu` (R145). -/
def execPsetLtu (p : BitVec 6) (a b : Reg) (s : State) : Out :=
  performing s fun tid t => s.next tid (t.setPred p (ult64 (t.reg a) (t.reg b)))

/-- `pset.geu` (R145). -/
def execPsetGeu (p : BitVec 6) (a b : Reg) (s : State) : Out :=
  performing s fun tid t => s.next tid (t.setPred p (!ult64 (t.reg a) (t.reg b)))

end Sys2Proof.Machine
end

