-- ==== Sys2Proof/Machine/Control.lean ====
section
/-! DEFINITION. Control transfer (R136, R137, R141, R146), ECALL, EBREAK, `halt` and `tret` (R139, R140,
R413, R414), and `detach` (R178). -/

set_option Elab.async false

namespace Sys2Proof.Machine

/-- A taken transfer to a target: MISALIGN at the transfer when the target is not a multiple of 4; the link
register is written otherwise (R137). -/
def State.goTo (s : State) (tid : Nat) (t : Thread) (target : Word) (link : Option Reg) : State :=
  if aligned target 4 then
    let u := match link with
      | some d => t.setReg d (t.pc + 4#64) false
      | none => t
    s.finish tid u target true 8
  else s.trap tid t cMISALIGN target

/-- A conditional branch (R136). -/
def State.branch (s : State) (tid : Nat) (t : Thread) (taken : Bool) (off : BitVec 12) : State :=
  if taken then s.goTo tid t (t.branchTarget off) none else s.finish tid t (t.pc + 4#64) true 8

/-- JAL (R136). -/
def execJal (d : Reg) (off : BitVec 20) (s : State) : Out :=
  performing s fun tid t => s.goTo tid t (t.jumpTarget off) (some d)

/-- JALR: bit 0 of the sum is cleared (R137). -/
def execJalr (d a : Reg) (i : BitVec 12) (s : State) : Out :=
  performing s fun tid t => s.goTo tid t (t.ea a i &&& ~~~1#64) (some d)

/-- BEQ (R136). -/
def execBeq (a b : Reg) (off : BitVec 12) (s : State) : Out :=
  performing s fun tid t => s.branch tid t (decide (t.reg a = t.reg b)) off

/-- BNE (R136). -/
def execBne (a b : Reg) (off : BitVec 12) (s : State) : Out :=
  performing s fun tid t => s.branch tid t (decide (t.reg a ≠ t.reg b)) off

/-- BLT (R136). -/
def execBlt (a b : Reg) (off : BitVec 12) (s : State) : Out :=
  performing s fun tid t => s.branch tid t (slt64 (t.reg a) (t.reg b)) off

/-- BGE (R136). -/
def execBge (a b : Reg) (off : BitVec 12) (s : State) : Out :=
  performing s fun tid t => s.branch tid t (!slt64 (t.reg a) (t.reg b)) off

/-- BLTU (R136). -/
def execBltu (a b : Reg) (off : BitVec 12) (s : State) : Out :=
  performing s fun tid t => s.branch tid t (ult64 (t.reg a) (t.reg b)) off

/-- BGEU (R136). -/
def execBgeu (a b : Reg) (off : BitVec 12) (s : State) : Out :=
  performing s fun tid t => s.branch tid t (!ult64 (t.reg a) (t.reg b)) off

/-- `bp`: taken when the predicate is 1 (R146). -/
def execBp (p : BitVec 6) (off : BitVec 12) (s : State) : Out :=
  performing s fun tid t => s.branch tid t (t.pred p) off

/-- `bnp`: taken when the predicate is 0 (R146). -/
def execBnp (p : BitVec 6) (off : BitVec 12) (s : State) : Out :=
  performing s fun tid t => s.branch tid t (!t.pred p) off

/-- ECALL: the ECALL trap, with EVAL zero (R139). -/
def execEcall (s : State) : Out :=
  performing s fun tid t => s.trap tid t cECALL 0#64

/-- The thread leaves its gang's stream before it halts (R170, R414) (DEDUCED 78). -/
def State.leaveStream (s : State) (tid : Nat) (t : Thread) : State × Thread :=
  match t.gang with
  | none => (s, t)
  | some g =>
    let s1 := s.detachGang tid
    (s1, { t with gang := some { g with attached := false } })

/-- EBREAK: it retires, and the thread halts at the next word (R140, R414). -/
def execEbreak (s : State) : Out :=
  performing s fun tid t =>
    let (s1, u) := s.leaveStream tid t
    (s1.next tid u).rootHalt tid .ebreak

/-- `halt`: it does not retire; the thread halts at the `halt` itself (R414). -/
def execHalt (s : State) : Out :=
  performing s fun tid t =>
    let (s1, u) := s.leaveStream tid t
    (s1.setThread tid { u with latch := none, readyAt := max u.readyAt (u.nextIssue s.time 8) }).rootHalt tid .halt

/-- `tret`: PC := EPC, pw := EPW, the handler state clear; ILLEGAL outside a handler (R413). -/
def execTret (s : State) : Out :=
  performing s fun tid t =>
    if t.inHandler then s.finish tid t.leaveTrap (align4 t.epc) true 8 else s.illegal tid t .tret

/-- `detach`: an attached member leaves its stream; without effect otherwise (R178). -/
def execDetach (s : State) : Out :=
  performing s fun tid t =>
    let (s1, u) := s.leaveStream tid t
    s1.next tid u

/-- `join k`: p63 := 0 for an attached member or a thread in no gang; a detached member stays detached with
p63 := 1 when the stream has passed this `join`, becomes pilot when no member is attached, and waits
otherwise (R172). A member for which the stream has passed this `join` and no member is attached answers to two rows of
R172: it stays detached (DEDUCED 78, DESIGN CHOICE 95). -/
def execJoin (k : BitVec 12) (s : State) : Out :=
  performing s fun tid t =>
    match t.gang with
    | none => s.next tid (t.setPred 63#6 false)
    | some g =>
      match s.stream? g.stream with
      | none => s.next tid (t.setPred 63#6 false)
      | some st =>
        if g.attached then
          let pilot := s.isPilot g.stream tid
          let s1 := s.next tid (t.setPred 63#6 false)
          if pilot then
            let s2 := match s1.stream? g.stream with
              | some st1 => s1.setStream g.stream { st1 with joins := st1.joins ++ [(g.pos, k)] }
              | none => s1
            s2.attachJoin g.stream k (t.pc + 4#64) (g.pos + 1)
          else s1
        else if st.joins.any fun j => j.2 == k && decide (g.pos < j.1) then s.next tid (t.setPred 63#6 true)
        else (s.await tid t (.join k) (some t.defaultLimit) (k.setWidth 64)).settleJoin g.stream

end Sys2Proof.Machine
end

