-- ==== Sys2Proof/Machine/Engine.lean ====
section
/-! DEFINITION. The matrix engine (R299 to R318, R325 to R331): the commands at the head of a core's q0, their
checks, charges, results and completions, and the engine's events. -/

set_option Elab.async false

namespace Sys2Proof.Machine

/-! ### Command fields (R99, R102, R103) -/

def cmdL (c : Cmd) : Bool := c.word.getLsbD 8
def cmdFa (c : Cmd) : Bool := c.word.getLsbD 12
def cmdFb (c : Cmd) : Bool := c.word.getLsbD 13
def cmdAcc (c : Cmd) : Nat := (c.word.extractLsb' 64 2).toNat
def cmdZacc (c : Cmd) : Bool := c.word.getLsbD 88
def cmdAddr (c : Cmd) : Nat := (c.word.extractLsb' 96 19).toNat
def cmdLit (c : Cmd) : BitVec 32 := c.word.extractLsb' 128 32
def cmdRowoff (c : Cmd) : BitVec 32 := c.word1.extractLsb' 32 32
def cmdColoff (c : Cmd) : BitVec 64 := c.word1.extractLsb' 64 64
def cmdMeta (c : Cmd) : Nat := (c.word1.extractLsb' 128 19).toNat
def cmdGidxA (c : Cmd) : Nat := (c.word1.extractLsb' 128 16).toNat
def cmdGidxB (c : Cmd) : Nat := (c.word1.extractLsb' 144 16).toNat

/-- `len` one bits from `lo` on. -/
def ones256 (lo len : Nat) : BitVec 256 := BitVec.ofNat 256 ((2 ^ len - 1) * 2 ^ lo)

/-- Header bits that every command may set; sgran is zero when `signal` = 0 (R99) (DEDUCED 32). -/
def headerBits (c : Cmd) : BitVec 256 :=
  ones256 0 8 ||| ones256 9 3 ||| ones256 16 16 ||| (if cmdSignal c then ones256 32 15 else 0#256)

/-- Bits of word 0 that a matrix command may set (R100, R102, R103). -/
def matrixBits (c : Cmd) : BitVec 256 :=
  let op := cmdOpcode c
  headerBits c |||
    (if op = 1 ∨ op = 2 ∨ op = 3 then ones256 12 2 ||| ones256 64 2 ||| ones256 72 3 ||| ones256 80 3 ||| ones256 88 1
     else if op = 8 then ones256 64 2
     else if op = 9 then
       ones256 64 2 ||| (if cmdL c then ones256 8 1 ||| ones256 128 32 else ones256 96 19)
     else if op = 10 then ones256 12 1 ||| ones256 64 2 ||| ones256 96 19
     else 0#256)

/-- Bits of word 1 that a two-word command may set, the 0xFF marker among them (R103). -/
def word1Bits (op : Nat) : BitVec 256 :=
  ones256 0 8 ||| ones256 32 96 ||| (if op = 2 then ones256 128 19 else if op = 3 then ones256 128 32 else 0#256)

/-- Opcodes that q0 accepts (R101). -/
def q0Accepts (op : Nat) : Bool :=
  op == 0 || op == 1 || op == 2 || op == 3 || op == 8 || op == 9 || op == 10 || op == 0x10 || op == 0x11

/-- A command of q0 that meets the ILLCMD fate (R100, R101, R103) (DEDUCED 32). -/
def illMatrix (c : Cmd) : Bool :=
  let op := cmdOpcode c
  let pair := op == 1 || op == 2 || op == 3
  !q0Accepts op || (c.word &&& ~~~(matrixBits c)) != 0#256 || (pair && !c.two)
    || (pair && (c.word1.extractLsb' 0 8 != 0xFF#8 || (c.word1 &&& ~~~(word1Bits op)) != 0#256))

/-! ### Events and pending completions (R311, R343, R371) -/

/-- A pending event or completion for a continuation: while its suspension runs, and after its commit in the
object's pending area (R371). `reserved` marks a copy counted in OUTCP. -/
def State.savedEvent (s : State) (addr rec : Nat) (kind : BitVec 8) (f : Flags) (d1 d2 d3 : Word) (reserved : Bool) : State :=
  match s.susps.find? fun x => x.addr == addr with
  | some x => s.modSusp x.id (Susp.record f (rec, kind, d1, d2, d3))
  | none =>
    let nevt := readBytes s.mem (addr + 0x14) 1
    let outcp := readBytes s.mem (addr + 0x15) 1
    let left := if reserved then outcp - 1 else outcp
    if nevt + left < 8 then
      let p := addr + readBytes s.mem (addr + 0x58) 4 - 256 + 32 * nevt
      let m1 := writeBytes s.mem p 8 (kind.toNat + rec * 256)
      let m2 := writeBytes m1 (p + 8) 8 d1.toNat
      let m3 := writeBytes m2 (p + 16) 8 d2.toNat
      let m4 := writeBytes m3 (p + 24) 8 d3.toNat
      let m5 := writeBytes m4 (addr + 0x14) 1 (nevt + 1)
      { s with mem := writeBytes m5 (addr + 0x15) 1 left }
    else
      let m1 := writeBytes s.mem (addr + 0x38) 1 (Nat.lor (readBytes s.mem (addr + 0x38) 1) f.toNat)
      let m2 := writeBytes m1 (addr + 0x5C) 1 (min 255 (readBytes s.mem (addr + 0x5C) 1 + 1))
      { s with mem := writeBytes m2 (addr + 0x15) 1 left }

/-- An event of an engine for the thread that a command answers to (R311, R343, R371). -/
def State.cmdEvent (s : State) (c : Cmd) (code : BitVec 8) (kind : BitVec 8) (eval : Word) : State :=
  match c.who with
  | .live tid => s.postEvent tid.toNat { code := code, eval := eval }
  | .gone => s
  | .saved a r => s.savedEvent a r kind (eventFlags code eval) eval 0#64 0#64 false

/-- The thread that a command answers to already holds four undelivered events, those that the commands at work before it may
still raise counted (R311). -/
def State.eventsFull (s : State) (core : Nat) (c : Cmd) : Bool := match c.who with
  | .live tid => match s.thread? tid.toNat with
    | some t =>
      let k := s.core core
      decide (4 ≤ t.events.length + ((k.q0.take k.q0Work.length).filter fun x => cmdStrap x && x.who == c.who).length)
    | none => false
  | _ => false

/-- The status and sequence number in the signal granule, which becomes full; its oldest waiter is served in this cycle. The flags of the
group's earlier completions there that no load has consumed stay with it (R308, R310, R331). -/
def State.writeSignal (s : State) (core : Nat) (c : Cmd) (status : Word) : State :=
  let a := spadAddr core (16 * cmdSgran c)
  let m := writeBytes (writeBytes s.mem a 8 status.toNat) (a + 8) 8 c.seq.toNat
  let s1 := { s with mem := m, full := setInsert (a / 16) s.full }
  let mine := fun (e : Nat × Nat × Flags) => e.1 == a / 16 && e.2.1 == c.group
  let s2 := s1.modCore core fun k =>
    let f := (k.signals.filter mine).foldl (fun f e => f ||| e.2.2) (statusFlags status)
    { k with signals := k.signals.filter (fun e => !mine e) ++ [(a / 16, c.group, f)] }
  if (s2.waitersOf (a / 16)).isEmpty then s2 else s2.scheduleOnce s2.time (.handoff (a / 16))

/-! ### Holds (R311, R312) -/

/-- MEFAULT as a hold writes it (R312). -/
def holdWord (c : Cmd) (kind block : Nat) : Word :=
  BitVec.ofNat 64 (2 ^ 63 + kind * 2 ^ 60 + tidSlot c.tid.toNat * 2 ^ 56 + cmdOpcode c * 2 ^ 48
    + (c.word.extractLsb' 16 16).toNat * 2 ^ 32 + block % 65536 * 2 ^ 16)

/-- A hold of q0 begins: RESCALE (kind 1) or ILLCMD (kind 2), with its event (R311); a hold whose issuer has
ended, or is being suspended, ends at once (R313). -/
def State.holdQueue (s : State) (core : Nat) (c : Cmd) (kind block : Nat) : State :=
  let w := holdWord c kind block
  let s1 := (s.modCore core fun k => { k with mefault := w, q0Phase := .held }).cmdEvent c
    (if kind = 1 then cRESCALE else cILLCMD) (if kind = 1 then 4#8 else 3#8) w
  match c.who with
  | .live _ => s1
  | _ => s1.skipHeld core

/-! ### Charges (R317) -/

/-- Non-zero bytes among n from an address. -/
def nonzeroBytes (m : Mem) (a n : Nat) : Nat := ((List.range n).filter fun i => loadByte m (a + i) != 0#8).length

/-- What a grant of U units takes from the budget of the window, or none while it is short of them. A charge
above the whole budget takes all of it, at the start of a window in which it is the first choice (R317). -/
def Cluster.grants (k : Cluster) (u : Nat) (first : Bool) : Option Nat := match k.budget with
  | none => some 0
  | some b =>
    if b < u then if first && k.granted == 0 then some b else none
    else if k.granted + u ≤ b then some u
    else none

/-- The units that a charge of U takes from a core's bucket (R317). -/
def Core.meNeed (k : Core) (u : Nat) : Nat := min u (getField k.mebudget 24 16)

/-- The core's bucket and the arbiter of its cluster grant U units, or the command waits: for the arbiter's decision of this
cycle, or for a refill (R317). -/
def State.charge (s : State) (core u : Nat) (f : State → State) : State :=
  let k := s.core core
  if k.meGranted then f (s.modCore core fun k => { k with meGranted := false })
  else if k.meBucket < k.meNeed u then s
  else match (s.cluster (coreCluster core)).budget with
    | none => f (s.modCore core fun k => { k with meBucket := k.meBucket - k.meNeed u })
    | some _ => (s.modCore core fun k => { k with meAsk := some u }).schedule s.time (.meGrant (coreCluster core))

/-! ### Starting and completing -/

/-- The command that starts is at work until a cycle, with the status it will report, the bytes it writes and the tiles it
pops; the next one may start in the next cycle (R300, R331). -/
def State.runHead (s : State) (core : Nat) (status : Word) (due : Nat) (writes : List (Nat × Nat)) (pops : Bool) : State :=
  let sig := match (s.core core).unstarted with
    | c :: _ => if cmdSignal c then [(spadAddr core (16 * cmdSgran c), 16)] else []
    | [] => []
  let s1 := s.modCore core fun k =>
    { k with
      q0Phase := .queued
      q0Work := k.q0Work ++ [{ status := status, due := due, writes := writes ++ sig, pops := pops }]
      q0Ready := max k.q0Ready (s.time + 1) }
  (s1.schedule due (.meCommandCompletion (BitVec.ofNat 12 core))).schedule (s.time + 1) (.meStart (BitVec.ofNat 12 core))

/-- An array command. -/
def opArray (op : Nat) : Bool := op == 1 || op == 2 || op == 3

/-- A command that names an accumulator: an array command or an accumulator command. -/
def opAcc (op : Nat) : Bool := opArray op || op == 8 || op == 9 || op == 10

/-- A command may start beside the commands at work: only an array command beside accumulator commands on other accumulators
overlaps, a command without a body does no work, and `tfence` stands alone (R300, R330) (DEDUCED 33). -/
def Core.mayStart (k : Core) (c : Cmd) : Bool :=
  (k.q0.take k.q0Work.length).all fun x =>
    let a := cmdOpcode x
    let b := cmdOpcode c
    a != 0x11 && b != 0x11 && (!opAcc a || !opAcc b || (opArray a != opArray b && cmdAcc x != cmdAcc c))

/-- Bytes that a command reads are written by one at work (R300). -/
def Core.readsWritten (k : Core) (pieces : List (Nat × Nat)) : Bool :=
  k.q0Work.any fun w => w.writes.any fun x => pieces.any fun p => rangesMeet x.1 x.2 p.1 p.2

/-- The code of a completed command from its flags (R307). -/
def okCode (f : Flags) (corrected : Bool) : Nat :=
  if f &&& flagSAT ≠ 0#6 then 1 else if corrected then 5 else 0

/-- The format registers that the next command of q0 has sampled, or samples now (R305). -/
def Core.sample (k : Core) : Vector Word 32 := match k.q0Phase with
  | .sampled v => v
  | .checking _ v => v
  | _ => k.bfmt

/-- The next command of q0 has opcode `op` and may start now: the engine sees it, no hold stands before it, the commands at work
allow it, its fields pass R100, and a strapped command has room for its event; `f` gets the core with the format registers of
its sample (R300, R305, R311). A hold begins when every earlier command has completed (DEDUCED 33). -/
def State.withHead (s : State) (core op : Nat) (f : State → Cmd → Core → State) : State :=
  let k := s.core core
  match k.unstarted with
  | c :: _ =>
    let mine := cmdOpcode c == op || (op == 0 && !q0Accepts (cmdOpcode c))
    let checking := match k.q0Phase with | .checking _ _ => true | _ => false
    if !mine || checking || decide (s.time < c.ready) || decide (s.time < k.q0Ready) || k.held then s
    else if illMatrix c then if !k.q0Work.isEmpty || s.eventsFull core c then s else s.holdQueue core c 2 0
    else if !k.mayStart c || (cmdStrap c && s.eventsFull core c) then s
    else f (s.modCore core fun k => { k with q0Phase := .sampled k.sample }) c { k with bfmt := k.sample }
  | [] => s

/-- A failed check: FORMAT with a DETAIL, complete at start + 1; no tile is read (R305, R317, R331). -/
def State.failHead (s : State) (core : Nat) (c : Cmd) (detail : Nat) : State :=
  s.charge core (if opArray (cmdOpcode c) then 8 else 4) fun s1 =>
    s1.runHead core (statusWord c false detail 0#6 3) (s1.time + 1) [] false

/-! ### Accumulators (R301) -/

/-- Element e of accumulator a. -/
def Core.accAt (k : Core) (a e : Nat) : BitVec 32 := (assocGet (a * 2048 + e) k.acc).getD 0#32

/-- Elements of an accumulator as the sparse list holds them. -/
def accCells (base : Nat) : List (BitVec 32) → List (Nat × BitVec 32)
  | [] => []
  | x :: l => if x = 0#32 then accCells (base + 1) l else (base, x) :: accCells (base + 1) l

/-- The core with accumulator a replaced; its parity and poison are those of new data. -/
def Core.putAcc (k : Core) (a : Nat) (l : List (BitVec 32)) (clear : Bool) : Core :=
  let lo := k.acc.filter fun x => decide (x.1 < a * 2048)
  let hi := k.acc.filter fun x => decide ((a + 1) * 2048 ≤ x.1)
  let m : BitVec 4 := ~~~(1#4 <<< a)
  { k with
    acc := lo ++ accCells (a * 2048) l ++ hi
    poison := if clear then k.poison &&& m else k.poison
    accBad := if clear then k.accBad &&& m else k.accBad }

/-- A command that reads accumulator a meets its poison bit or a parity failure (R316). -/
def Core.accFails (k : Core) (a : Nat) : Bool := k.poison.getLsbD a || k.accBad.getLsbD a

/-- The poison bit of accumulator a set. -/
def Core.poisonAcc (k : Core) (a : Nat) : Core := { k with poison := k.poison ||| (1#4 <<< a) }

/-! ### Operands of the array commands (R304, R305, R121, R122) -/

/-- The register of the bank that holds a local-window address. -/
def Core.bank (k : Core) (a : Nat) : Word := regAt k.bfmt (a / 16384)

/-- n bytes from an address lie in banks of equal registers. -/
def Core.sameBanks (k : Core) (a n : Nat) : Bool :=
  (List.range ((a + n - 1) / 16384 - a / 16384 + 1)).all fun i => regAt k.bfmt (a / 16384 + i) == k.bank a

/-- Local-window address of the tile that follows the head of ring n by j. -/
def Core.tileAddr (k : Core) (n j : Nat) : Nat :=
  let tiles := k.ringTiles n
  if tiles = 0 then k.ringOff n
  else k.ringOff n + (((regAt k.ringHead n).toNat + j) % 2 ^ 32 % tiles) * (regAt k.ringTile n).toNat

/-- An operand: its format register, the width of its elements and the local-window address of its tile. -/
structure Operand where
  reg  : Word
  w    : Nat
  addr : Nat
  deriving DecidableEq, Repr

/-- The operand that stands j tiles behind the head of ring n. -/
def Core.operand (k : Core) (n j : Nat) : Operand :=
  let a := k.tileAddr n j
  let r := k.bank a
  { reg := r, w := codeBits (bfFmt r), addr := a }

/-- Elements K of a row of A and a column of B (R304). -/
def kOf (a b : Operand) : Nat := 512 / max a.w b.w

/-- Formats that `mma` and `mma.sp` accept (R122). -/
def mmaAccepts (c : Nat) : Bool :=
  c == 2 || c == 3 || c == 4 || c == 5 || c == 6 || c == 8 || c == 9 || c == 10 || codeMX c

/-- Formats that `mmq` accepts (R118). -/
def mmqAccepts (c : Nat) : Bool := c == 8 || c == 9 || c == 10 || codeAsym c

/-- An MX operand whose tile does not begin at a block: its blocks do not lie along K (R122). -/
def Operand.offBlock (o : Operand) : Bool :=
  codeMX (bfFmt o.reg) && decide (o.addr % 16384 * 8 / o.w % 32 ≠ 0)

/-- LINE ≠ 0, or groups that do not lie along K (R305 DETAIL 2). -/
def Operand.badAxis (o : Operand) (quant : Bool) : Bool :=
  decide (bfLine o.reg ≠ 0) || ((codeMX (bfFmt o.reg) || codeAsym (bfFmt o.reg)) && bfAxis o.reg) || (!quant && o.offBlock)

/-- The group indices of an `mmq` operand reach past the local window (R118). -/
def Operand.pastTable (o : Operand) (gidx rows kk : Nat) : Bool :=
  codeAsym (bfFmt o.reg) && decide (spadSize < entryOff o.reg (gidx + rows * kk / bfGroup o.reg))

/-- The checks of an array command before it waits for tiles, in the order of R305: a DETAIL, or none (DEDUCED 34). -/
def arrayCheck (k : Core) (c : Cmd) (op : Nat) : Option Nat :=
  let na := cmdRingA c
  let nb := cmdRingB c
  let a := k.operand na 0
  let b := k.operand nb 0
  let fa := bfFmt a.reg
  let fb := bfFmt b.reg
  let kk := kOf a b
  let sizeA := 32 * (kk * a.w / 8)
  let sizeB := 64 * (kk * b.w / 8)
  let formats := if op = 3 then mmqAccepts fa && mmqAccepts fb && (codeAsym fa || codeAsym fb)
    else mmaAccepts fa && mmaAccepts fb && !(op == 2 && codeMX fa)
  let b2 := k.operand nb 1
  if !formats then some 1
  else if a.badAxis (op == 3) || b.badAxis (op == 3) || (op == 2 && b2.badAxis false) then some 2
  else if (regAt k.ringTile na).toNat ≠ sizeA ∨ (regAt k.ringTile nb).toNat ≠ sizeB then some 3
  else if bfInvalid a.reg || bfInvalid b.reg then some 5
  else if (codeAsym fa && decide (kk % bfGroup a.reg ≠ 0)) || (codeAsym fb && decide (kk % bfGroup b.reg ≠ 0)) then some 6
  else if !k.ringValid na || !k.ringValid nb || na == nb then some 7
  else if !k.sameBanks a.addr sizeA || !k.sameBanks b.addr sizeB then some 7
  else if op == 2 && (decide (cmdMeta c % 16 ≠ 0) || decide (spadSize < cmdMeta c + 8 * kk)
      || b2.reg != b.reg || !k.sameBanks b2.addr sizeB) then some 7
  else if op == 3 && (a.pastTable (cmdGidxA c) 32 kk || b.pastTable (cmdGidxB c) 64 kk) then some 7
  else none

/-- Elements i × K to i × K + K − 1 of an operand's tile, as exact values (R121). -/
def operandRow (m : Mem) (core : Nat) (o : Operand) (kk i : Nat) : List FVal :=
  (List.range kk).map fun x =>
    let e := i * kk + x
    decodeElem o.reg (readEntry m core o.reg (bfGroupOf o.reg (elemAt o.reg o.addr e))) (readElem m (spadAddr core o.addr) o.w e)

/-- The same elements as integers: codes for the asymmetric formats (R117, R118). -/
def operandInts (m : Mem) (core : Nat) (o : Operand) (kk i : Nat) : List Int :=
  (List.range kk).map fun x =>
    laneInt (codeSigned (bfFmt o.reg) && !codeAsym (bfFmt o.reg)) o.w (readElem m (spadAddr core o.addr) o.w (i * kk + x))

/-- Formats whose pairs accumulate in INT32 (R117). -/
def intFormat (c : Nat) : Bool := c == 8 || c == 9 || c == 10

/-- The pieces of the scratchpad that an operand's tile and its scale entries occupy, as global addresses; the entries of an
asymmetric format begin at group `gidx` (R118, R121). -/
def operandPieces (core : Nat) (o : Operand) (gidx rows kk : Nat) : List (Nat × Nat) :=
  (spadAddr core o.addr, rows * kk * o.w / 8) ::
    (if codeMX (bfFmt o.reg) then
      [(spadAddr core (entryOff o.reg (bfGroupOf o.reg (elemAt o.reg o.addr 0))), rows * kk / 32)]
     else if codeAsym (bfFmt o.reg) then [(spadAddr core (entryOff o.reg gidx), 4 * (rows * kk / bfGroup o.reg))]
     else [])

/-- One element's update: the products, the accumulator's value unless zacc, and the result (R116, R117). -/
def accStep (isInt zacc : Bool) (old : BitVec 32) (fp : List FVal) (ip : List Int) : Nat × Flags :=
  if isInt then intCell (if zacc then none else some old.toNat) ip
  else mmaCell (if zacc then fp else fp32.decode old.toNat :: fp)

/-- The new accumulator and its flags: `terms i j` gives the products of a row and a column. -/
def accUpdate (k : Core) (c : Cmd) (isInt : Bool) (fterms : Nat → Nat → List FVal) (iterms : Nat → Nat → List Int) :
    List (BitVec 32) × Flags :=
  let rs := (List.range 2048).map fun e =>
    let i := e / 64
    let j := e % 64
    let off := (cmdRowoff c).getLsbD i || (cmdColoff c).getLsbD j
    accStep isInt (cmdZacc c) (k.accAt (cmdAcc c) e) (if off || isInt then [] else fterms i j) (if off || !isInt then [] else iterms i j)
  (rs.map fun r => BitVec.ofNat 32 r.1, rs.foldl (fun f r => f ||| r.2) 0#6)

/-- Products of a row and a column. -/
def products (x y : List FVal) : List FVal := List.zipWith FVal.mul x y

/-- Integer products of a row and a column. -/
def intProducts (x y : List Int) : List Int := List.zipWith (· * ·) x y

/-- Row or column i of a list of rows. -/
def rowAt {α : Type} (l : Array (List α)) (i : Nat) : List α := (l[i]?).getD []

/-- The heads of the rings that a command does not keep move on as it retires (R103, R325, R326). -/
def Core.popTiles (k : Core) (c : Cmd) : Core :=
  let nb := if cmdOpcode c = 2 then 2 else 1
  let bump := fun (v : Vector Word 8) (n d : Nat) => v.setIfInBounds n ((regAt v n + BitVec.ofNat 64 d) &&& 0xFFFFFFFF#64)
  let h1 := if cmdFa c then k.ringHead else bump k.ringHead (cmdRingA c) 1
  { k with ringHead := if cmdFb c then h1 else bump h1 (cmdRingB c) nb }

/-- The tiles and charge of an array command: its checks, its wait for tiles, its charge, a malformed entry or bad metadata, its
data errors, and then its sum (R305, R307, R316, R317, R325). `run` gives the accumulator and flags, or the DETAIL of a
malformed entry or of bad metadata with the code it reports (DESIGN CHOICE 9). -/
def State.arrayCommand (s : State) (core op nb : Nat) (c : Cmd) (k : Core) (extra : List (Nat × Nat))
    (run : Operand → Operand → Nat → Except (Nat × Nat) (List (BitVec 32) × Flags)) : State :=
  match arrayCheck k c op with
  | some d => s.failHead core c d
  | none =>
    let a := k.operand (cmdRingA c) 0
    let b := k.operand (cmdRingB c) 0
    let kk := kOf a b
    let pieces := operandPieces core a (cmdGidxA c) 32 kk
      ++ (List.range nb).flatMap (fun j => operandPieces core (k.operand (cmdRingB c) j) (cmdGidxB c) 64 kk) ++ extra
    if k.ringOcc (cmdRingA c) < 1 ∨ k.ringOcc (cmdRingB c) < nb then s.settleWithheld
    else if k.readsWritten pieces then s
    else
      let sizeA := 32 * kk * a.w / 8
      let sizeB := 64 * kk * b.w / 8
      let z := nonzeroBytes s.mem (spadAddr core a.addr) sizeA
        + ((List.range nb).map fun j => nonzeroBytes s.mem (spadAddr core (k.tileAddr (cmdRingB c) j)) sizeB).sum
      s.charge core (8 + (z + 95) / 96) fun s1 =>
        let done := fun (u : State) (detail : Nat) (f : Flags) (code : Nat) (late : Nat) (pops : Bool) =>
          u.runHead core (statusWord c false detail f code) (u.time + 72 + late) [] pops
        match run a b kk with
        | .error (d, code) => done s1 d 0#6 code 0 false
        | .ok (acc, f) =>
          if pieces.any fun p => s1.memErr p.1 p.2 then done s1 1 0#6 6 0 false
          else if !cmdZacc c && k.accFails (cmdAcc c) then
            done (s1.modCore core fun k => k.poisonAcc (cmdAcc c)) 2 0#6 6 0 false
          else
            let fixed := pieces.any fun p => (granulesFrom p.1 p.2).any s1.eccOne.elem
            let s2 := pieces.foldl (fun u p => u.scrub p.1 p.2) s1
            let s3 := s2.modCore core fun k => { k with residue := 0 }
            if 2 ≤ k.residue then done s3 3 0#6 6 64 false
            else
              let s4 := s3.modCore core fun k => k.putAcc (cmdAcc c) acc (cmdZacc c)
              let code := okCode f fixed
              done s4 (if code = 5 then 1 else 0) f code (if k.residue = 1 then 64 else 0) true

/-- `mma` (R325). -/
def State.mmaHead (s : State) (core : Nat) : State :=
  s.withHead core 1 fun s c k => s.arrayCommand core 1 1 c k [] fun a b kk =>
    let isInt := intFormat (bfFmt a.reg) && intFormat (bfFmt b.reg)
    let ra := ((List.range 32).map (operandRow s.mem core a kk)).toArray
    let rb := ((List.range 64).map (operandRow s.mem core b kk)).toArray
    let ia := ((List.range 32).map (operandInts s.mem core a kk)).toArray
    let ib := ((List.range 64).map (operandInts s.mem core b kk)).toArray
    .ok (accUpdate k c isInt (fun i j => products (rowAt ra i) (rowAt rb j)) fun i j => intProducts (rowAt ia i) (rowAt ib j))

/-! ### `mma.sp` (R326) -/

/-- The nibble of group g of row i of the metadata at a local-window address. -/
def spNibble (m : Mem) (core addr kk i g : Nat) : Nat :=
  let b := (loadByte m (spadAddr core (addr + i * (kk / 4) + g / 2))).toNat
  if g % 2 = 0 then b % 16 else b / 16

/-- The first group with p0 ≥ p1, as row × 256 + group. -/
def spBad (m : Mem) (core addr kk : Nat) : Option Nat :=
  (((List.range 32).flatMap fun i => (List.range (kk / 2)).map fun g => (i, g)).find? fun x =>
    let n := spNibble m core addr kk x.1 x.2
    decide (n / 4 ≤ n % 4)).map fun x => x.1 * 256 + x.2

/-- A dense row of 2K positions from K kept values and their metadata; a position that is not kept is zero (DEDUCED 35). -/
def spDense {α : Type} (zero : α) (nib : Nat → Nat) (kept : List α) : List α :=
  let v := kept.toArray
  (List.range (2 * kept.length)).map fun p =>
    let g := p / 4
    let n := nib g
    if p % 4 = n % 4 then (v[2 * g]?).getD zero
    else if p % 4 = n / 4 then (v[2 * g + 1]?).getD zero
    else zero

/-- `mma.sp` (R326) (DEDUCED 35). -/
def State.mmaSpHead (s : State) (core : Nat) : State :=
  s.withHead core 2 fun s c k =>
    let kk0 := kOf (k.operand (cmdRingA c) 0) (k.operand (cmdRingB c) 0)
    s.arrayCommand core 2 2 c k [(spadAddr core (cmdMeta c), 8 * kk0)] fun a b kk =>
      match spBad s.mem core (cmdMeta c) kk with
      | some d => .error (d, 2)
      | none =>
        let b2 := k.operand (cmdRingB c) 1
        let isInt := intFormat (bfFmt a.reg) && intFormat (bfFmt b.reg)
        let nib := spNibble s.mem core (cmdMeta c) kk
        let ra := ((List.range 32).map fun i => spDense (.fin false 0 0) (nib i) (operandRow s.mem core a kk i)).toArray
        let ia := ((List.range 32).map fun i => spDense 0 (nib i) (operandInts s.mem core a kk i)).toArray
        let rb := ((List.range 64).map fun j => operandRow s.mem core b kk j ++ operandRow s.mem core b2 kk j).toArray
        let ib := ((List.range 64).map fun j => operandInts s.mem core b kk j ++ operandInts s.mem core b2 kk j).toArray
        .ok (accUpdate k c isInt (fun i j => products (rowAt ra i) (rowAt rb j)) fun i j => intProducts (rowAt ia i) (rowAt ib j))

/-! ### `mmq` (R327, R118) -/

/-- The scale entry of element e of an `mmq` operand: group index gidx + ⌊e ÷ G⌋ (R118). -/
def mmqEntry (m : Mem) (core : Nat) (o : Operand) (gidx e : Nat) : Nat :=
  readBytes m (spadAddr core (entryOff o.reg (gidx + e / bfGroup o.reg))) 4

/-- Scale and zero point of element e; a plain integer operand counts as scale 1 and zero point 0. -/
def mmqScale (m : Mem) (core : Nat) (o : Operand) (gidx e : Nat) : FVal × Int :=
  if codeAsym (bfFmt o.reg) then
    let x := mmqEntry m core o gidx e
    (asymScale x, (asymZero x : Int))
  else (.ofInt 1, 0)

/-- Group size of an operand; a plain integer operand has the whole row. -/
def mmqGroup (o : Operand) (kk : Nat) : Nat := if codeAsym (bfFmt o.reg) then bfGroup o.reg else kk

/-- An entry of a row that is malformed (DEDUCED 34). -/
def mmqRowBad (m : Mem) (core : Nat) (o : Operand) (gidx rows kk : Nat) : Bool :=
  codeAsym (bfFmt o.reg) && (List.range (rows * kk / bfGroup o.reg)).any fun g =>
    asymMalformed o.w (readBytes m (spadAddr core (entryOff o.reg (gidx + g))) 4)

/-- The segments of row i: scale, and the codes less the zero point. -/
def mmqRow (m : Mem) (core : Nat) (o : Operand) (gidx kk seg i : Nat) : List (FVal × List Int) :=
  let xs := operandInts m core o kk i
  (List.range (kk / seg)).map fun g =>
    let (sc, z) := mmqScale m core o gidx (i * kk + g * seg)
    (sc, ((xs.drop (g * seg)).take seg).map (· - z))

/-- The segment terms of a row and a column (R118). -/
def mmqTerms (x y : List (FVal × List Int)) : List FVal :=
  List.zipWith (fun a b => (a.1.mul b.1).mul (.ofInt (intProducts a.2 b.2).sum)) x y

/-- `mmq` (R327) (DEDUCED 34). -/
def State.mmqHead (s : State) (core : Nat) : State :=
  s.withHead core 3 fun s c k => s.arrayCommand core 3 1 c k [] fun a b kk =>
    if mmqRowBad s.mem core a (cmdGidxA c) 32 kk || mmqRowBad s.mem core b (cmdGidxB c) 64 kk then .error (4, 3)
    else
      let seg := min (mmqGroup a kk) (mmqGroup b kk)
      let ra := ((List.range 32).map (mmqRow s.mem core a (cmdGidxA c) kk seg)).toArray
      let rb := ((List.range 64).map (mmqRow s.mem core b (cmdGidxB c) kk seg)).toArray
      .ok (accUpdate k c false (fun i j => mmqTerms (rowAt ra i) (rowAt rb j)) fun _ _ => [])

/-! ### `acc.zero`, `acc.ld`, `acc.st` (R328, R329) -/

/-- `acc.zero` (R328). -/
def State.accZeroHead (s : State) (core : Nat) : State :=
  s.withHead core 8 fun s c _ => s.charge core 4 fun s1 =>
    (s1.modCore core fun k => k.putAcc (cmdAcc c) [] true).runHead core (statusWord c false 0 0#6 0) (s1.time + 4) [] false

/-- The largest number of granules of n bytes from an address in one bank (R331). -/
def bankShare (a n : Nat) : Nat :=
  ((List.range ((a + n - 1) / 16384 - a / 16384 + 1)).map fun i =>
    let lo := max a ((a / 16384 + i) * 16384)
    let hi := min (a + n) ((a / 16384 + i + 1) * 16384)
    (hi - lo + 15) / 16).foldl max 0

/-- An element that `acc.ld` reads: 32-bit formats unchanged, BF16 and FP16 as exact FP32 (R328). -/
def accLoaded (r : Word) (bits : Nat) : Nat × Flags :=
  if codeBits (bfFmt r) = 16 then fp32.deliver .rne true ((codeFloat (bfFmt r)).decode bits) else (bits, 0#6)

/-- Bits of an element of a bank as the accumulator commands see it: `raw` counts as 32 (R328, R329). -/
def accBits (r : Word) : Nat := if bfFmt r = 0 then 32 else codeBits (bfFmt r)

/-- Checks of a source or target range of `acc.ld` and `acc.st` (R305 DETAIL 7). -/
def Core.accRange (k : Core) (a n : Nat) : Bool := decide (a % 16 = 0) && decide (a + n ≤ spadSize) && k.sameBanks a n

/-- `acc.ld` (R328). -/
def State.accLdHead (s : State) (core : Nat) : State :=
  s.withHead core 9 fun s c k =>
    if cmdL c then
      s.charge core 4 fun s1 =>
        (s1.modCore core fun k => k.putAcc (cmdAcc c) (List.replicate 2048 (cmdLit c)) true).runHead core
          (statusWord c false 0 0#6 0) (s1.time + 16) [] false
    else
      let a := cmdAddr c
      let r := k.bank a
      let fm := bfFmt r
      let n := 2048 * accBits r / 8
      if !(fm == 0 || fm == 1 || fm == 7 || fm == 2 || fm == 3) then s.failHead core c 1
      else if bfInvalid r then s.failHead core c 5
      else if !k.accRange a n then s.failHead core c 7
      else if k.readsWritten [(spadAddr core a, n)] then s
      else s.charge core 4 fun s1 =>
        let g := spadAddr core a
        let due := s1.time + 16 + bankShare a n
        if s1.memErr g n then s1.runHead core (statusWord c false 1 0#6 6) due [] false
        else
          let xs := (List.range 2048).map fun e => accLoaded r (readElem s1.mem g (accBits r) e)
          let f := xs.foldl (fun x y => x ||| y.2) 0#6
          let fixed := (granulesFrom g n).any s1.eccOne.elem
          let code := okCode f fixed
          ((s1.scrub g n).modCore core fun k => k.putAcc (cmdAcc c) (xs.map fun y => BitVec.ofNat 32 y.1) true).runHead core
            (statusWord c false (if code = 5 then 1 else 0) f code) due [] false

/-- The value of an accumulator element as its target's format reads it (R329). -/
def accVal (r : Word) (x : BitVec 32) : FVal :=
  if codeInt (bfFmt r) then .ofInt (laneInt true 32 x.toNat) else fp32.decode x.toNat

/-- The scale entry that governs element e of a target: the block's dynamic scale, or the stored entry. -/
def accEntry (m : Mem) (core : Nat) (r : Word) (a : Nat) (dyn : List (Nat × Nat)) (e : Nat) : Nat :=
  let g := bfGroupOf r (elemAt r a e)
  match dyn.find? (·.1 == g) with
  | some d => d.2
  | none => readEntry m core r g

/-- Dynamic scales of the blocks of a target, one for each group: that of a block which the target covers only in part is formed
from the elements it covers, and the rest of the block stays (R123) (DESIGN CHOICE 93). -/
def accDyn (k : Core) (c : Cmd) (r : Word) (a : Nat) : List (Nat × Nat) :=
  if bfDyn r then
    (accGroups r a).map fun g => (g, dynScale (bfFmt r) (((List.range 2048).filter fun e => bfGroupOf r (elemAt r a e) == g).map
      fun e => accVal r (k.accAt (cmdAcc c) e)))
  else []

/-- The encoded elements of a target (R115, R123, R329). -/
def accEncoded (m : Mem) (core : Nat) (k : Core) (c : Cmd) (r : Word) (a : Nat) : List (Nat × Flags) :=
  let dyn := accDyn k c r a
  (List.range 2048).map fun e =>
    let x := k.accAt (cmdAcc c) e
    if bfFmt r = 0 then (x.toNat, 0#6)
    else encodeElem r (codeInt (bfFmt r)) (accEntry m core r a dyn e) (accVal r x)

/-- Elements of width w packed into a number, element 0 lowest. -/
def packElems (w : Nat) : List (Nat × Flags) → Nat
  | [] => 0
  | x :: l => x.1 % 2 ^ w + 2 ^ w * packElems w l

/-- Index, within the target, of the first of its blocks whose encoding overflows (R312, R329) (DEDUCED 48). -/
def accOverflow (m : Mem) (core : Nat) (k : Core) (c : Cmd) (r : Word) (a : Nat) : Option Nat :=
  let bad := ((accEncoded m core k c r a).zipIdx.filter fun x => x.1.2 &&& flagOF != 0#6).map fun x =>
    bfGroupOf r (elemAt r a x.2)
  (accGroups r a).findIdx? bad.elem

/-- The scale entries of a target that `acc.st` reads, as addresses and lengths. -/
def accEntries (core : Nat) (r : Word) (a : Nat) : List (Nat × Nat) :=
  if (codeMX (bfFmt r) || codeAsym (bfFmt r)) && !bfDyn r then
    (accGroups r a).map fun g => (spadAddr core (entryOff r g), entryBytes r)
  else []

/-- The target of an `acc.st` is written, with its dynamic scales, and the command completes 16 + G cycles
after its start; a corrected scale entry gives DATAFIX (R316, R329, R331). -/
def State.accWrite (s : State) (core : Nat) (c : Cmd) (k : Core) (r : Word) (start : Nat) : State :=
  let a := cmdAddr c
  let w := accBits r
  let n := 2048 * w / 8
  let es := accEncoded s.mem core k c r a
  let f := es.foldl (fun x y => x ||| y.2) 0#6
  let g := spadAddr core a
  let dyn := (accDyn k c r a).map fun d => (spadAddr core (entryOff r d.1), d.2)
  let m1 := dyn.foldl (fun m d => writeBytes m d.1 1 d.2) s.mem
  let read := accEntries core r a
  let fixed := read.any fun p => (granulesFrom p.1 p.2).any s.eccOne.elem
  let s1 := { (read.foldl (fun u p => u.scrub p.1 p.2) (s.rebuild g n)) with mem := writeBytes m1 g n (packElems w es) }
  let code := okCode f fixed
  s1.runHead core (statusWord c false (if code = 5 then 1 else 0) f code) (max s.time (start + 16 + bankShare a n))
    ((g, n) :: dyn.map fun d => (d.1, 1)) false

/-- `acc.st` (R329). With rtrap in effect its overflow check ends 16 cycles after its start (R331), and only
then does it hold or write, and the next command may start (R300) (DEDUCED 48). -/
def State.accStHead (s : State) (core : Nat) : State :=
  match (s.core core).q0Phase, (s.core core).unstarted with
  | .checking due v, c :: _ =>
    let k := { s.core core with bfmt := v }
    let r := k.bank (cmdAddr c)
    if s.time < due then s
    else match accOverflow s.mem core k c r (cmdAddr c) with
      | some b => if !k.q0Work.isEmpty || s.eventsFull core c then s.schedule (s.time + 1) (.meStart (BitVec.ofNat 12 core))
        else s.holdQueue core c 1 b
      | none => ((s.accWrite core c k r (due - 16)).modCore core fun q => { q with q0Ready := k.q0Ready }).schedule s.time
          (.meStart (BitVec.ofNat 12 core))
  | _, _ =>
    s.withHead core 10 fun s c k =>
      let a := cmdAddr c
      let r := k.bank a
      let n := 2048 * accBits r / 8
      let late := 16 + bankShare a n
      if 16 < bfFmt r then s.failHead core c 1
      else if bfInvalid r then s.failHead core c 5
      else if !k.accRange a n then s.failHead core c 7
      else if k.readsWritten (accEntries core r a) then s
      else s.charge core 4 fun s1 =>
        if (accGroups r a).any fun g => entryBad r (readEntry s1.mem core r g) then
          s1.runHead core (statusWord c false 4 0#6 3) (s1.time + 16) [] false
        else if k.accFails (cmdAcc c) then
          (s1.modCore core fun k => k.poisonAcc (cmdAcc c)).runHead core (statusWord c false 2 0#6 6) (s1.time + late) [] false
        else if (accEntries core r a).any fun p => s1.memErr p.1 p.2 then
          s1.runHead core (statusWord c false 1 0#6 6) (s1.time + late) [] false
        else if cmdFa c && codeMX (bfFmt r) && !bfDyn r then
          (s1.modCore core fun k => { k with q0Phase := .checking (s1.time + 16) k.sample }).schedule (s1.time + 16)
            (.meStart (BitVec.ofNat 12 core))
        else s1.accWrite core c k r s1.time

/-! ### `sig`, `tfence`, `tnop` (R330) -/

/-- A command of q0 without a body: complete at start + 1 (R330, R331). -/
def State.bareHead (s : State) (core op : Nat) : State :=
  s.withHead core op fun s c _ => s.charge core 4 fun s1 =>
    s1.runHead core (statusWord c false 0 0#6 0) (s1.time + 1) [] false

/-! ### Completion (R308, R311) -/

/-- The completion of the oldest command at work: its tiles leave the rings, signal granule, q1 record, status event; it waits
while q1 is full. One whose own work has ended follows in the same cycle (R103, R300, R308) (DESIGN CHOICE 98). -/
def State.completeHead (s : State) (core : Nat) : State :=
  let k := s.core core
  match k.q0, k.q0Work with
  | c :: rest, w :: work =>
    if s.time < w.due then s
    else if cmdPost c && c.obj.isNone && decide (Config.q1Records ≤ k.q1.length) then s
    else
      let k1 := { k with q0 := rest, q0Work := work }
      let s1 := s.setCore core (if w.pops then k1.popTiles c else k1)
      let s2 := if cmdSignal c then s1.writeSignal core c w.status else s1
      let s3 := if cmdPost c then
          match c.obj with
          | some (a, r) => s2.savedEvent a r 1#8 (statusFlags w.status) w.status c.seq 0#64 false
          | none =>
            (s2.modCore core fun k => { k with q1 := k.q1 ++
              [{ status := w.status, seq := c.seq, gtid := c.gtid, written := 0#64, group := c.group }] }).serveQpop core false
        else s2
      let s4 := if cmdStrap c && w.status.extractLsb' 0 4 != 0#4 then s3.cmdEvent c cMESTATUS 5#8 w.status else s3
      let s5 := match work with
        | v :: _ => if v.due ≤ s.time then s4.schedule s4.time (.meCommandCompletion (BitVec.ofNat 12 core)) else s4
        | [] => s4
      (s5.schedule s5.time (.meStart (BitVec.ofNat 12 core))).settleWithheld
  | _, _ => s

/-- A matrix command completes (R308) (DESIGN CHOICE 7, DEDUCED 33). -/
def execMeCommandCompletion (core : CoreId) (s : State) : Out := .next (s.completeHead core.toNat)

/-- `mma` at the head of q0 (R325). -/
def execMma (core : CoreId) (s : State) : Out := .next (s.mmaHead core.toNat)

/-- `mma.sp` at the head of q0 (R326). -/
def execMmaSp (core : CoreId) (s : State) : Out := .next (s.mmaSpHead core.toNat)

/-- `mmq` at the head of q0 (R327). -/
def execMmq (core : CoreId) (s : State) : Out := .next (s.mmqHead core.toNat)

/-- `acc.zero` at the head of q0 (R328). -/
def execAccZero (core : CoreId) (s : State) : Out := .next (s.accZeroHead core.toNat)

/-- `acc.ld` at the head of q0 (R328). -/
def execAccLd (core : CoreId) (s : State) : Out := .next (s.accLdHead core.toNat)

/-- `acc.st` at the head of q0 (R329). -/
def execAccSt (core : CoreId) (s : State) : Out := .next (s.accStHead core.toNat)

/-! ### Budget and the spare column (R316, R317) -/

/-- The units that refill a core's bucket in a window: RATE, or one eighth of the cluster budget (R317). -/
def refillUnits (k : Core) (budget : Option Nat) : Nat :=
  let rate := getField k.mebudget 4 16
  let burst := getField k.mebudget 24 16
  if rate ≠ 0 then rate else match budget with
    | some b => b / 8
    | none => burst

/-- A list in ascending order of a key, equal keys in their order. -/
def insertBy {α : Type} (key : α → Nat) (x : α) : List α → List α
  | [] => [x]
  | y :: l => if key x < key y then x :: y :: l else y :: insertBy key x l

/-- A stable sort by a key. -/
def sortBy {α : Type} (key : α → Nat) (l : List α) : List α := l.foldl (fun acc x => insertBy key x acc) []

/-- Every 1,024 cycles the buckets are refilled, each cluster's window is new, with the budget that the house cores have set for it,
and the commands that wait try again (R317, R437). -/
def State.refillBudget (s : State) : State :=
  let s1 : State := { s with
    clusters := s.clusters.map fun x =>
      (x.1, { x.2 with granted := 0, budget := x.2.budgetNext.orElse fun _ => x.2.budget, budgetNext := none })
    cores := s.cores.map fun x =>
      let burst := getField x.2.mebudget 24 16
      (x.1, { x.2 with meBucket := min burst (x.2.meBucket + refillUnits x.2 (s.cluster (coreCluster x.1)).budget) }) }
  let waiting := s1.cores.filterMap fun (x : Nat × Core) => if x.2.unstarted.isEmpty then none else some x.1
  waiting.foldl (fun u c => u.schedule u.time (.meStart (BitVec.ofNat 12 c))) s1

/-- The power arbiter of a cluster decides among the cores that ask in this cycle: lowest charge first, and equal charges by lower
core; a core that gets nothing tries again in the next window (R317). -/
def State.arbitrate (s : State) (cluster : Nat) : State :=
  let asks := (List.range 8).filterMap fun i =>
    let c := 8 * cluster + i
    (s.core c).meAsk.map fun u => (c, u)
  ((sortBy (fun (y : Nat × Nat) => y.2) asks).zipIdx).foldl (fun (v : State) (x : (Nat × Nat) × Nat) =>
    let ((c, u), i) := x
    let v1 := v.modCore c fun k => { k with meAsk := none }
    match (v.cluster cluster).grants u (i == 0 && decide (s.time % 1024 = 0)) with
    | none => v1
    | some n =>
      ((v1.modCore c fun k => { k with meGranted := true, meBucket := k.meBucket - k.meNeed u }).modCluster cluster fun q =>
        { q with granted := q.granted + n }).schedule s.time (.meStart (BitVec.ofNat 12 c))) s

/-- The buckets and windows are refilled (R317). -/
def execMeBudgetRefill (s : State) : Out := .next s.refillBudget

/-- A column is mapped onto the spare column; q0 pauses for 256 cycles and no result changes (R316). -/
def execSpareColumnMap (core : CoreId) (column : BitVec 6) (s : State) : Out :=
  .next (let c := core.toNat
    let k := s.core c
    let checked := match k.q0Phase, k.unstarted with
      | .checking due v, h :: _ => due + bankShare (cmdAddr h) (2048 * accBits ({ k with bfmt := v }.bank (cmdAddr h)) / 8)
      | _, _ => s.time
    let from_ := k.q0Work.foldl (fun n w => max n w.due) checked
    ((s.setCore c { k with spareCol := some column, q0Ready := from_ + 256 }).schedule (from_ + 256) (.meStart core)).spared
      (.column core column))

end Sys2Proof.Machine
end

