-- ==== Sys2Proof/Machine/Copy.lean ====
section
/-! DEFINITION. The copy engine (R336 to R343, R355 to R360): the commands of a core's q4, their checks, beats and
completions, and the commands that both engines share (R330). -/

set_option Elab.async false

namespace Sys2Proof.Machine

/-- Opcodes that q4 accepts (R101). -/
def q4Accepts (op : Nat) : Bool :=
  op == 0 || op == 0x10 || op == 0x11 || op == 0x40 || op == 0x41 || op == 0x42 || op == 0x43 || op == 0x44 || op == 0x48

/-- Bits that a copy command may set (R100, R104). -/
def copyBits (c : Cmd) : BitVec 256 :=
  let op := cmdOpcode c
  let ends := ones256 128 64 ||| ones256 224 24
  headerBits c |||
    (if op = 0x40 then ends ||| ones256 12 1 ||| ones256 64 64 ||| ones256 248 6
     else if op = 0x41 then ends ||| ones256 12 1 ||| ones256 64 64 ||| ones256 248 6 ||| ones256 192 19 ||| ones256 216 4
     else if op = 0x42 ∨ op = 0x43 then ends ||| ones256 12 1 ||| ones256 64 64 ||| ones256 248 6 ||| ones256 192 19 ||| ones256 220 2
     else if op = 0x44 then ends ||| ones256 8 1 ||| ones256 12 1 ||| ones256 64 32 ||| ones256 248 6
     else if op = 0x48 then ends ||| ones256 12 2 ||| ones256 64 64 ||| ones256 192 19 ||| ones256 220 2
     else 0#256)

/-- A command of q4 that meets the ILLCMD fate (R100, R101, R104) (DEDUCED 32). -/
def illCopy (c : Cmd) : Bool :=
  let op := cmdOpcode c
  !q4Accepts op || (c.word &&& ~~~(copyBits c)) != 0#256 || (decide (0x40 ≤ op) && decide (cmdCount c = 0))
    || (op == 0x44 && !cmdL c) || (op == 0x48 && cmdEsz c == 3#2)

/-! ### Ranges, classes and starts (R337 to R339) -/

/-- An end of a copy lies in a tier-2 page or on another rank (R337). -/
def State.farEnd (s : State) (core : Nat) (job : BitVec 32) (a : Word) : Bool := match s.place core job a with
  | .remote _ _ => true
  | .tier g => match s.pageOf job g with
    | some p => p.tier2
    | none => false
  | _ => false

/-- The class of a command: far or near (R337). -/
def State.farCopy (s : State) (core : Nat) (c : Cmd) : Bool :=
  let op := cmdOpcode c
  if op = 0x44 then s.farEnd core c.job (cmdTo c)
  else if op = 0x40 ∨ op = 0x41 ∨ op = 0x42 ∨ op = 0x43 then s.farEnd core c.job (cmdTo c) || s.farEnd core c.job (cmdFrom c)
  else false

/-- Copies of a class that run in a cluster (R337). -/
def State.classLoad (s : State) (cl : Nat) (far : Bool) : Nat :=
  ((s.cores.filter fun x => coreCluster x.1 == cl).map fun x => (x.2.copies.filter fun r => r.far == far).length).sum

/-- The barrier of an `allred` and its phase, as its descriptor names it (R359). -/
def State.redPhase (s : State) (core : Nat) (c : Cmd) : BitVec 10 × BitVec 32 :=
  let i : BitVec 10 := BitVec.ofNat 10 (readBytes s.mem (spadAddr core (cmdAux c)) 16)
  (i, (s.pourObj i.toNat).phase)

/-- The command of q4 that may start now, with its place: in q4 order within its class, past a command whose
class is full, never past a `tfence`, nor while one is at work; an `allred` whose phase has no sum yet waits for a free one
(R337, R338, R359). -/
def State.nextCopy (s : State) (core : Nat) : Option (Nat × Cmd) :=
  let k := s.core core
  if k.q4Held || (k.copies.any fun r => cmdOpcode r.cmd == 0x11) then none else scan s core k.q4 0 false false
where
  /-- The scan from place n on; `nearHeld` and `farHeld` say which classes an earlier command already waits in. -/
  scan (s : State) (core : Nat) : List Cmd → Nat → Bool → Bool → Option (Nat × Cmd)
    | [], _, _, _ => none
    | c :: l, n, nearHeld, farHeld =>
      let op := cmdOpcode c
      if s.time < c.ready then none
      else if illCopy c then if n = 0 then some (0, c) else none
      else if op = 0x11 then
        if n = 0 ∧ (s.core core).copies.isEmpty ∧ s.classLoad (coreCluster core) false < 16 then some (0, c) else none
      else
        let far := s.farCopy core c
        let full := decide ((if far then 32 else 16) ≤ s.classLoad (coreCluster core) far)
        let phases := (s.allreds.map fun x => (x.obj, x.phase)).eraseDups
        let sums := op == 0x48 && decide (4 ≤ phases.length) && !phases.elem (s.redPhase core c)
        if (if far then farHeld else nearHeld) || full || sums then
          scan s core l (n + 1) (nearHeld || !far) (farHeld || far)
        else some (n, c)

/-- The core with the command at place n of q4 taken out of the queue. -/
def Core.takeQ4 (k : Core) (n : Nat) : Core := { k with q4 := k.q4.eraseIdx n }

/-- A command of q4 meets the ILLCMD fate: q4 stops, and the event goes to the transfer slot with dword 0; it is
removed at once when the transfer slot's thread is gone (R343) (DEDUCED 39). -/
def State.stopQ4 (s : State) (core : Nat) (c : Cmd) : State :=
  match c.who with
  | .live _ => (s.modCore core fun k => { k with q4Held := true }).cmdEvent c cILLCMD 3#8 (c.word.extractLsb' 0 64)
  | _ => ((s.modCore core fun k => k.takeQ4 0).cmdEvent c cILLCMD 3#8 (c.word.extractLsb' 0 64)).schedule s.time
      (.copyStart (BitVec.ofNat 12 core))

/-- The transfer slot's thread already holds four undelivered events, those that the copies at work may still raise counted
(R311, R343). -/
def State.copyEventsFull (s : State) (core : Nat) (c : Cmd) : Bool := match c.who with
  | .live tid => match s.thread? tid.toNat with
    | some t => decide (4 ≤ t.events.length + ((s.core core).copies.filter fun r => cmdStrap r.cmd && r.cmd.who == c.who).length)
    | none => false
  | _ => false

/-- The next command of q4, when its opcode is `op`, starts: its fields pass R100, and a strapped command has
room for its event (R311, R336, R343). -/
def State.withCopy (s : State) (core op : Nat) (f : Cmd → State → State) : State :=
  match s.nextCopy core with
  | none => s
  | some (n, c) =>
    let mine := cmdOpcode c == op || (op == 0 && !q4Accepts (cmdOpcode c))
    if !mine then s
    else if illCopy c then if s.copyEventsFull core c then s else s.stopQ4 core c
    else if cmdStrap c && s.copyEventsFull core c then s
    else f c ((s.modCore core fun k => k.takeQ4 n).schedule (s.time + 1) (.copyStart (BitVec.ofNat 12 core)))

/-- A copy that has started. -/
def newRun (c : Cmd) (far : Bool) (due : Nat) : CopyRun :=
  { cmd := c, far := far, flags := 0#6, fixed := false, fail := none, written := 0, due := due, paused := none
    atPort := none, gate := none, copyIn := none, copyOut := none, dsts := [], wrote := [], beats := []
    spans := [], convert := false, samples := [], done := 0, snap := [] }

/-- The state with a copy at work, its completion scheduled. -/
def State.addRun (s : State) (core : Nat) (r : CopyRun) : State :=
  let s1 := s.modCore core fun k => { k with copies := k.copies ++ [r] }
  if r.paused.isSome || r.gate.isSome then s1
  else match r.atPort with
  | some n => s1.schedule n (.copyBeats (BitVec.ofNat 12 core) r.cmd.seq)
  | none => s1.schedule r.due (.copyCompletion (BitVec.ofNat 12 core) r.cmd.seq)

/-- A copy whose start checks fail: it completes with the code and DETAIL, and nothing is written (R340). -/
def State.failCopy (s : State) (core : Nat) (c : Cmd) (far : Bool) (code detail : Nat) : State :=
  s.addRun core { newRun c far (s.time + 1) with fail := some (code, detail) }

/-! ### Beats (R339, R340) -/

/-- What the next beat of a copy meets. -/
inductive BeatCheck where
  | go
  | pause (addr : Nat)
  | stop (code detail : Nat)
  deriving DecidableEq, Repr

/-- An address of a beat of a job's copy: unreachable, dark, or a tiered page that is missing, gone, refuses the access or meets a CXL fault (R237,
R339, R435). -/
def State.beatEnd (s : State) (job : BitVec 32) (a : Nat) (write : Bool) : BeatCheck :=
  if 2 ^ 62 ≤ a then
    let st := rankState (s.rankEntry (addrPeer a))
    if st = 2 then .stop 7 0 else if st = 1 then .pause a else .go
  else if s.lostCore a then .stop 7 0
  else if isTier a then
    match s.pageOf job a with
    | some p => if (if write then p.w else p.r) && !s.cxlFault a then .go else .pause a
    | none => if s.gone job a then .stop 3 9 else .pause a
  else .go

/-- Granules that the bytes of a beat cover only in part. -/
def partGranules (cells : List (Nat × Byte)) : List Nat :=
  (cells.map fun x => x.1 / 16).eraseDups.filter fun g => decide ((cells.filter fun x => x.1 / 16 == g).length < 16)

/-- The checks of one beat. -/
def State.beatCheck (s : State) (job : BitVec 32) (b : Beat) : BeatCheck :=
  let src := if b.srcLen = 0 then BeatCheck.go else match s.beatEnd job b.src false with
    | .go => s.beatEnd job (b.src + b.srcLen - 1) false
    | z => z
  match src with
  | .go =>
    let dst := match b.cells.head?, b.cells.getLast? with
      | some x, some y => match s.beatEnd job x.1 true with
        | .go => s.beatEnd job y.1 true
        | z => z
      | _, _ => .go
    match dst with
    | .go =>
      if b.srcLen ≠ 0 ∧ s.memErr b.src b.srcLen then .stop 6 1
      else if (partGranules b.cells).any fun g => s.memErr (g * 16) 16 then .stop 6 1
      else .go
    | z => z
  | z => z

/-- The state with the bytes of a beat written. -/
def State.putBeat (s : State) (b : Beat) : State :=
  let whole := (b.cells.map fun x => x.1 / 16).eraseDups.filter fun g => !(partGranules b.cells).elem g
  let s1 := whole.foldl (fun u g => u.rebuild (g * 16) 16) s
  { s1.scrub b.src b.srcLen with mem := writeCells s1.mem b.cells }

/-- A beat that leaves the core passes its router port: it needs a token of the class of the issuing group, and it keeps its place
on the ordered paths to its source and to its destination; the cycle at which it may try again, when it must wait (R217, R218,
R223). -/
def State.beatPort (s : State) (core : Nat) (c : Cmd) (b : Beat) : Except Nat State :=
  let own := fun (a : Nat) => isSpad a && spadCore a == core
  let dst := match b.cells with | x :: _ => x.1 | [] => spadAddr core 0
  if (b.srcLen = 0 ∨ own b.src) ∧ own dst ∧ (b.srcLen = 0 ∨ s.pathArrival core (destKey s b.src) ≤ s.time) then .ok s
  else
    let arrival := max (if own dst then 0 else s.pathArrival core (destKey s dst))
      (if b.srcLen = 0 then 0 else s.pathArrival core (destKey s b.src))
    if s.time < arrival then .error arrival
    else if (b.srcLen = 0 ∨ own b.src) ∧ own dst then .ok s
    else match (s.core core).spend (s.groupClass c.group) 1 with
      | none => .error s.nextRefill
      | some k => .ok (s.setCore core k)

/-- Ranges of the cells of a beat. -/
def Beat.ranges (b : Beat) : List (Nat × Nat) := match b.cells with
  | x :: _ => if b.data = 0 then b.cells.map fun y => (y.1, 1) else [(x.1, b.cells.length)]
  | [] => []

/-- A beat without the cells that a later copy of its class has already written (R338). -/
def Beat.spare (b : Beat) (later : List (Nat × Nat)) : Beat :=
  if later.isEmpty then b
  else { b with cells := b.cells.filter fun x => !later.any fun r => decide (r.1 ≤ x.1) && decide (x.1 < r.1 + r.2) }

/-- The registers that a copy has sampled, with those of the banks that a beat reads or writes first (R121) (DEDUCED 37). -/
def State.sample (s : State) (l : List (Nat × Word)) (b : Beat) : List (Nat × Word) :=
  let ends := (if b.srcLen = 0 then [] else [b.src, b.src + b.srcLen - 1]) ++ (b.cells.map (·.1)).filter isSpad
  (ends.filter isSpad).foldl (fun acc a => if acc.any fun x => x.1 == a / 16384 then acc else (a / 16384, s.regOf a) :: acc) l

/-- The beats of a copy, until one pauses it, waits at the port or ends it; `later` are the bytes that later copies have
written (R338 to R340). -/
def runBeats (core : Nat) (later : List (Nat × Nat)) : List Beat → State → CopyRun → State × CopyRun
  | [], s, r => (s, { r with beats := [] })
  | b :: l, s, r =>
    match s.beatCheck r.cmd.job b with
    | .go => match s.beatPort core r.cmd b with
      | .error n => (s, { r with beats := b :: l, atPort := some n })
      | .ok s1 =>
        let fixed := b.srcLen != 0 && (granulesFrom b.src b.srcLen).any s.eccOne.elem
        runBeats core later l (s1.putBeat (b.spare later))
          { r with
            written := r.written + b.data, fixed := r.fixed || fixed, flags := r.flags ||| b.flags, wrote := r.wrote ++ b.ranges
            done := r.done + if b.data = 0 then 0 else 1, samples := if r.convert then s.sample r.samples b else r.samples }
    | .pause a => (s, { r with beats := b :: l, paused := some a })
    | .stop code d => (s, { r with beats := [], fail := some (code, d) })

/-- A list in chunks of n. -/
def chunks {α : Type} (n : Nat) : Nat → List α → List (List α)
  | 0, _ => []
  | _, [] => []
  | fuel + 1, l => l.take n :: chunks n fuel (l.drop n)

/-- The beats of n bytes moved unchanged. -/
def plainBeats (m : Mem) (src dst n : Nat) : List Beat :=
  ((chunks 64 (n + 1) (cellsOf dst n (readBytes m src n))).zipIdx).map fun x =>
    { src := src + x.2 * 64, srcLen := min 64 (n - x.2 * 64), cells := x.1, data := x.1.length, flags := 0#6 }

/-! ### Conversion between banks (R124) -/

/-- Elements after which a bank's groups end together (DEDUCED 37). -/
def groupSpan (r : Word) : Nat :=
  if codeMX (bfFmt r) || codeAsym (bfFmt r) then (if bfAxis r then bfGroup r * bfLineElems r else bfGroup r) else 1

/-- Index, within its bank, of the element of width w at a place in bits. -/
def bitElem (a w : Nat) : Nat := (spadOff (a / 8) % 16384 * 8 + a % 8) / w

/-- Address of the scale entry of the element of width w at a place in bits. -/
def bitEntry (r : Word) (a w : Nat) : Nat := spadAddr (spadCore (a / 8)) (entryOff r (bfGroupOf r (bitElem a w)))

/-- The scale entry at an address, for a format that has one. -/
def entryAt (m : Mem) (r : Word) (a : Nat) : Nat :=
  if codeMX (bfFmt r) || codeAsym (bfFmt r) then readBytes m a (entryBytes r) else 0

/-- A unit is in a bank with an invalid register or uses a malformed scale entry (R111, R120). -/
def CopyUnit.bad (m : Mem) (u : CopyUnit) : Bool :=
  u.conv && (bfInvalid u.rs || bfInvalid u.rd || entryBad u.rs (entryAt m u.rs (bitEntry u.rs u.src u.ws))
    || entryBad u.rd (entryAt m u.rd (bitEntry u.rd u.dst u.wd)))

/-- A unit at which a count ends inside an element, a 4-bit pair, a block or a group at either end (R124). -/
def CopyUnit.breaks (u : CopyUnit) : Bool :=
  !u.whole || decide ((u.dst + u.wd) % 8 ≠ 0)
    || (u.conv && (decide ((bitElem u.src u.ws + 1) % groupSpan u.rs ≠ 0) || decide ((bitElem u.dst u.wd + 1) % groupSpan u.rd ≠ 0)))

/-- Bits of a unit at its source. -/
def CopyUnit.bits (m : Mem) (u : CopyUnit) : Nat :=
  readBytes m (u.src / 8) ((u.src % 8 + u.ws + 7) / 8) / 2 ^ (u.src % 8) % 2 ^ u.ws

/-- The exact value of a unit that converts. -/
def CopyUnit.value (m : Mem) (u : CopyUnit) : FVal := decodeElem u.rs (entryAt m u.rs (bitEntry u.rs u.src u.ws)) (u.bits m)

/-- The dynamic scales that a run writes, by the address of their entry: each is formed from those elements of its block that the
run writes (R123) (DESIGN CHOICE 93). -/
def runScales (m : Mem) (us : List CopyUnit) : List (Nat × Nat) :=
  let ds := us.filterMap fun u => if u.conv && bfDyn u.rd then some (bitEntry u.rd u.dst u.wd, bfFmt u.rd, u.value m) else none
  ((ds.map (·.1)).eraseDups).map fun a =>
    let l := ds.filter fun x => x.1 == a
    (a, dynScale (match l with | x :: _ => x.2.1 | [] => 0) (l.map fun x => x.2.2))

/-- The bits of a unit at its destination, and its flags (R115) (DESIGN CHOICE 99). -/
def CopyUnit.encoded (m : Mem) (scales : List (Nat × Nat)) (u : CopyUnit) : Nat × Flags :=
  if u.conv then
    let a := bitEntry u.rd u.dst u.wd
    let entry := match scales.find? fun x => x.1 == a with
      | some x => x.2
      | none => entryAt m u.rd a
    encodeElem u.rd (codeInt (bfFmt u.rs)) entry (u.value m)
  else (u.bits m, 0#6)

/-- The beats of a run of n bytes in units: the dynamic scales first, then the destination bytes of each 64 source bytes. -/
def unitBeats (m : Mem) (src dst n : Nat) (us : List CopyUnit) : List Beat :=
  let scales := runScales m us
  let es := us.map fun u => (u, u.encoded m scales)
  let first : List Beat :=
    if scales.isEmpty then []
    else [{ src := src, srcLen := 0, cells := scales.map fun x => (x.1, BitVec.ofNat 8 x.2), data := 0, flags := 0#6 }]
  first ++ (List.range ((n + 63) / 64)).map fun j =>
    let l := es.filter fun x => (x.1.src - 8 * src) / 512 == j
    let lo := match l with | x :: _ => x.1.dst | [] => 8 * dst
    let bits := l.foldr (fun x v => x.2.1 % 2 ^ x.1.wd + 2 ^ x.1.wd * v) 0
    let len := (l.map fun x => x.1.wd).sum / 8
    { src := src + 64 * j, srcLen := min 64 (n - 64 * j), cells := cellsOf (lo / 8) len bits, data := len
      flags := l.foldl (fun f x => f ||| x.2.2) 0#6 }

/-- What a run does: its beats, the ranges that it writes, and whether it meets a bad register or entry, or a count that breaks
R124 (R340). -/
structure RunPlan where
  beats  : List Beat
  dsts   : List (Nat × Nat)
  bad    : Bool
  breaks : Bool

/-- The plan of a run of n bytes, converted or unchanged, by the registers that the copy has sampled and those that stand (DEDUCED 37). -/
def State.runPlan (s : State) (l : List (Nat × Word)) (convert : Bool) (src dst n : Nat) : RunPlan :=
  if convert && s.runConverts l src dst n then
    let us := s.copyUnits l (2 * n + 1) (8 * src) (8 * dst) (8 * n)
    let scales := (us.filterMap fun u => if u.conv && bfDyn u.rd then some (bitEntry u.rd u.dst u.wd) else none).eraseDups
    { beats := unitBeats s.mem src dst n us
      dsts := (dst, (us.map fun u => u.wd).sum / 8) :: scales.map fun a => (a, 1)
      bad := us.any fun u => u.bad s.mem
      breaks := match us.getLast? with | some u => (us.any fun u => u.conv) && u.breaks | none => false }
  else { beats := plainBeats s.mem src dst n, dsts := [(dst, n)], bad := false, breaks := false }

/-! ### Handles of a copy (R345, R346) -/

/-- What a copy's handle makes it: no handle, a copy-in, a copy-out, or an illegal use (R346). -/
inductive HandleUse where
  | none
  | copyIn
  | copyOut
  | bad
  deriving DecidableEq, Repr

/-- The use of the handle that a copy names, from the source and destination ranges of its runs. -/
def State.handleUse (s : State) (core : Nat) (c : Cmd) (srcs dsts : List (Nat × Nat)) : HandleUse :=
  if !cmdFa c then .none
  else
    let e := (s.core core).handle (cmdHandle c).toNat
    let lo := spadAddr core e.base.toNat
    let inOwn := fun (p : Nat × Nat) => rangesMeet p.1 p.2 (spadAddr core 0) spadSize
    let ds := dsts.filter inOwn
    let ss := srcs.filter inOwn
    let within := fun (p : Nat × Nat) =>
      decide (lo ≤ max p.1 (spadAddr core 0)) && decide (min (p.1 + p.2) (spadAddr core 0 + spadSize) ≤ lo + e.len.toNat)
    let meets := fun (p : Nat × Nat) => rangesMeet p.1 p.2 lo e.len.toNat
    if !e.bound then .bad
    else if !ds.isEmpty && ds.all within && !ss.any meets then if e.st = .free then .copyIn else .bad
    else if !ss.isEmpty && ss.all within && !ds.any meets then if e.st = .full then .copyOut else .bad
    else .bad

/-- The handle's change when a copy that names it starts (R345). -/
def State.startHandle (s : State) (core : Nat) (c : Cmd) : HandleUse → State
  | .copyIn => s.setHState core (cmdHandle c).toNat .filling
  | .copyOut => s.setHState core (cmdHandle c).toNat .draining
  | _ => s

/-! ### Starting a copy -/

/-- A run of a copy: n bytes from a source to a destination, by their global addresses. -/
structure CopySpan where
  src : Nat
  dst : Nat
  n   : Nat
  deriving DecidableEq, Repr

/-- The cycle at which a copy of `work` beats or elements ends: 24 cycles after its start, and not before the cluster's engine has
moved the beats before it, then its own, and the destination's write time, or the times of its far ends; the engine is busy with
its beats until then (R360). -/
def State.copyEnd (s : State) (core : Nat) (dst src : Option Nat) (work : Nat) : State × Nat :=
  let cl := coreCluster core
  let beats := max (s.time + 24) (s.cluster cl).beatsUntil + work
  let w := match dst with | some a => s.accessRange core a | none => (0, 0)
  let r := match src with | some a => s.accessRange core a | none => (0, 0)
  ((s.modCluster cl fun q => { q with beatsUntil := beats }).bump, beats + s.pick (w.1 + r.1) (w.2 + r.2))

/-- The source bytes of a copy that it writes itself, as they stand (R355, R356). -/
def State.snapOf (s : State) (spans : List (Nat × Nat × Nat)) (dsts : List (Nat × Nat)) : List (Nat × Byte) :=
  spans.flatMap fun x => dsts.flatMap fun d =>
    let lo := max x.1 d.1
    let hi := min (x.1 + x.2.2) (d.1 + d.2)
    cellsOf lo (hi - lo) (readBytes s.mem lo (hi - lo))

/-- The ends of a copy whose checks have passed: its handle is checked and changes, then its beats run until one pauses or ends
it (R338 to R340, R345, R346) (DESIGN CHOICE 9). -/
def State.startBeats (s : State) (core : Nat) (c : Cmd) (spans : List (Nat × Nat × Nat)) (convert : Bool) (dsts : List (Nat × Nat))
    (beats : List Beat) (work : Nat) : State :=
  let srcs := spans.map fun x => (x.1, x.2.2)
  let far := s.farCopy core c
  match s.handleUse core c srcs dsts with
  | .bad => s.failCopy core c far 4 (cmdHandle c).toNat
  | use =>
    let src := if cmdOpcode c ≠ 0x44 ∧ s.farEnd core c.job (cmdFrom c) then srcs.head?.map (·.1) else none
    let dst := if src.isNone ∨ s.farEnd core c.job (cmdTo c) then some ((dsts.head?.map (·.1)).getD 0) else none
    let (s1, due) := s.copyEnd core dst src work
    let r0 : CopyRun :=
      { newRun c far due with
        copyIn := if use = .copyIn then some (cmdHandle c) else none
        copyOut := if use = .copyOut then some (cmdHandle c) else none
        dsts := dsts, spans := spans, convert := convert, snap := s.snapOf spans dsts }
    let (s2, r1) := runBeats core [] beats (s1.startHandle core c use) r0
    s2.addRun core r1

/-- A copy of checked runs starts: the inbox ring, formats and counts are checked first (R250, R340). -/
def State.startRuns (s : State) (core : Nat) (c : Cmd) (convert : Bool) (runs : List CopySpan) (work : Nat) : State :=
  let far := s.farCopy core c
  let plans := runs.map fun r => s.runPlan [] convert r.src r.dst r.n
  let dsts := plans.flatMap fun p => p.dsts
  if dsts.any fun d => s.hitsInbox d.1 d.2 then s.failCopy core c far 3 7
  else if plans.any fun p => p.bad then s.failCopy core c far 3 2
  else if plans.any fun p => p.breaks then s.failCopy core c far 3 1
  else s.startBeats core c (runs.map fun r => (r.src, r.dst, r.n)) convert dsts (plans.flatMap fun p => p.beats) work

/-- The run of n bytes between two addresses, its destination in its own width; none when a range is not allowed (R124, R339). -/
def State.copyEnds (s : State) (core : Nat) (job : BitVec 32) (convert : Bool) (a b : Word) (n : Nat) : Option CopySpan :=
  match s.copyAddr core job a n, s.copyAddr core job b 1 with
  | some x, some y => (s.copyAddr core job b (s.destBytes convert x y n)).map fun z => { src := x, dst := z, n := n }
  | _, _ => none

/-- `copy.1d` (R355). -/
def State.copy1dHead (s : State) (core : Nat) : State :=
  s.withCopy core 0x40 fun c u =>
    let n := cmdCount c
    match u.copyEnds core c.job true (cmdFrom c) (cmdTo c) n with
    | some r => u.startRuns core c true [r] ((n + 63) / 64)
    | none => u.failCopy core c (u.farCopy core c) 3 7

/-- A condition holds of some offset of an index vector below the extents (R356). -/
def ndAny (p : Word × Word → Bool) : List (Nat × Word × Word × Nat) → Word × Word → Bool
  | [], o => p o
  | (e, ss, ds, _) :: rest, o => go rest ss ds e o
where
  /-- The remaining values of one index. -/
  go (rest : List (Nat × Word × Word × Nat)) (ss ds : Word) : Nat → Word × Word → Bool
    | 0, _ => false
    | k + 1, o => ndAny p rest o || go rest ss ds k (o.1 + ss, o.2 + ds)

/-- Least and greatest offset of one end of a table's runs, exactly. -/
def ndSpan (l : List (Nat × Word)) : Int × Int :=
  l.foldl (fun acc x =>
    let w := ((x.1 : Int) - 1) * x.2.toInt
    (acc.1 + min 0 w, acc.2 + max 0 w)) (0, 0)

/-- The runs of a table all lie between two allowed addresses of one range, whatever their number: nothing more is to be checked
(R339, R356). -/
def State.ndFits (s : State) (core : Nat) (c : Cmd) (dims : List (Nat × Word × Word × Nat)) : Bool :=
  let one := fun (a : Word) (n : Nat) (sp : Int × Int) =>
    let lo := (a.toNat : Int) + sp.1
    let hi := (a.toNat : Int) + sp.2
    let same := match s.place core c.job (BitVec.ofInt 64 lo), s.place core c.job (BitVec.ofInt 64 hi) with
      | .own _, .own _ | .spad _, .spad _ | .carafe _, .carafe _ | .tier _, .tier _ => true
      | .remote i x, .remote j y =>
        i == j && isSpad (x % 2 ^ 56) == isSpad (y % 2 ^ 56) && isCarafe (x % 2 ^ 56) == isCarafe (y % 2 ^ 56)
      | _, _ => false
    decide (0 ≤ lo) && decide (hi < 2 ^ 64) && same && (s.copyAddr core c.job (BitVec.ofInt 64 hi) n).isSome
      && (s.copyAddr core c.job (BitVec.ofInt 64 lo) n).isSome
  let es := dims.map fun x => x.1 % 2 ^ 32
  !es.elem 0 && one (cmdFrom c) (cmdCount c) (ndSpan (es.zip (dims.map (·.2.1))))
    && one (cmdTo c) (8 * cmdCount c) (ndSpan (es.zip (dims.map (·.2.2.1))))

/-- `copy.nd` (R356). -/
def State.copyNdHead (s : State) (core : Nat) : State :=
  s.withCopy core 0x41 fun c u =>
    let far := u.farCopy core c
    let d := cmdNdim c + 1
    if cmdAux c % 16 ≠ 0 ∨ spadSize < cmdAux c + 32 * d then u.failCopy core c far 3 7
    else
      let dims := (List.range d).map (dimAt u.mem core (cmdAux c))
      let n := cmdCount c
      let run := fun (o : Word × Word) => u.copyEnds core c.job true (cmdFrom c + o.1) (cmdTo c + o.2) n
      if !u.ndFits core c dims && ndAny (fun o => (run o).isNone) (dims.map fun x => (x.1 % 2 ^ 32, x.2)) (0#64, 0#64) then
        u.failCopy core c far 3 7
      else if 2 ^ 32 < (dims.map (·.1)).prod ∨ dims.any fun x => x.1 == 0 || decide (2 ^ 32 ≤ x.1) || x.2.2.2 != 0 then
        u.failCopy core c far 3 11
      else
        let rs := (ndOffsets dims).filterMap run
        u.startRuns core c true rs ((rs.length * n + 63) / 64)

/-- `gath` and `scat` (R357): `scatter` says which end the indices name. -/
def State.indexedCopy (s : State) (core : Nat) (c : Cmd) (scatter : Bool) : State :=
  let far := s.farCopy core c
  let n := cmdCount c
  if cmdAux c % 16 ≠ 0 ∨ spadSize < cmdAux c + 4 * n then s.failCopy core c far 3 7
  else
    let e := gatherBytes (cmdEsz c)
    let idx := (List.range n).map fun i => readBytes s.mem (spadAddr core (cmdAux c + 4 * i)) 4
    let at_ := fun (base : Word) (i : Nat) => s.copyAddr core c.job (base + BitVec.ofNat 64 (i * e)) e
    let ps := idx.zipIdx.map fun x =>
      if scatter then (at_ (cmdFrom c) x.2, at_ (cmdTo c) x.1) else (at_ (cmdFrom c) x.1, at_ (cmdTo c) x.2)
    if ps.any fun p => p.1.isNone || p.2.isNone then s.failCopy core c far 3 7
    else s.startRuns core c false (ps.map fun p => { src := p.1.getD 0, dst := p.2.getD 0, n := e })
      (n * (if e = 256 then 4 else 1))

/-- `gath` (R357). -/
def State.gathHead (s : State) (core : Nat) : State := s.withCopy core 0x42 fun c u => u.indexedCopy core c false

/-- `scat` (R357). -/
def State.scatHead (s : State) (core : Nat) : State := s.withCopy core 0x43 fun c u => u.indexedCopy core c true

/-- `fill`: byte k of the destination is byte k mod 4 of the literal (R358). -/
def State.fillHead (s : State) (core : Nat) : State :=
  s.withCopy core 0x44 fun c u =>
    let n := cmdCount c
    let far := u.farCopy core c
    match u.copyAddr core c.job (cmdTo c) n with
    | none => u.failCopy core c far 3 7
    | some b =>
      if u.hitsInbox b n then u.failCopy core c far 3 7
      else
        let cells := (List.range n).map fun i => (b + i, (cmdFillLit c).extractLsb' (8 * (i % 4)) 8)
        let beats := (chunks 64 (n + 1) cells).map fun l =>
          ({ src := 0, srcLen := 0, cells := l, data := l.length, flags := 0#6 } : Beat)
        u.startBeats core c [] false [(b, n)] beats ((n + 63) / 64)

/-! ### `allred` (R359) -/

/-- Element bytes of an `allred` type. -/
def redBytes (ty : BitVec 2) : Nat := if ty = 1#2 then 2 else 4

/-- The lane format of an `allred` type. -/
def redFmt (ty : BitVec 2) : Fmt := if ty = 0#2 then .fp32 else if ty = 1#2 then .bf16 else .int32

/-- Elements of a contribution. -/
def redElems (ty : BitVec 2) (data : List Byte) : List Nat :=
  let b := redBytes ty
  (chunks b (data.length + 1) data).map fun l => l.foldr (fun x n => x.toNat + 256 * n) 0

/-- The combined elements of the contributions of a phase, each with its flags: exact sums rounded once, or folds
of max (R359, R291, R287). -/
def redCombine (ty : BitVec 2) (isMax : Bool) (cs : List (List Nat)) : List (Nat × Flags) :=
  match cs with
  | [] => []
  | a :: _ => (List.range a.length).map fun i =>
      let xs := cs.map fun l => (l[i]?).getD 0
      if isMax then laneFold true (redFmt ty) xs else laneSum (redFmt ty) xs

/-- The job of a command's recorded group (R335). -/
def State.cmdJob (s : State) (c : Cmd) : Option (BitVec 32) := (s.group? c.group).map (·.job)

/-- `allred`: the contribution is recorded, its frames and one arrival enter the station's emit queue, or go to the hub of the
barrier's home rank, and the copy waits for its phase (R262, R359) (DEDUCED 34). -/
def State.allredHead (s : State) (core : Nat) : State :=
  s.withCopy core 0x48 fun c u =>
    let n := cmdCount c
    let own := fun (a : Word) (k : Nat) => decide (a.toNat + k ≤ spadSize)
    if cmdAux c % 16 ≠ 0 ∨ spadSize < cmdAux c + 16 then u.failCopy core c false 3 7
    else if !own (cmdFrom c) n || !own (cmdTo c) n || u.hitsInbox (spadAddr core (cmdTo c).toNat) n then u.failCopy core c false 3 7
    else
      let d := readBytes u.mem (spadAddr core (cmdAux c)) 16
      let i : BitVec 10 := BitVec.ofNat 10 d
      let o := u.pourObj i.toNat
      let ok := decide (d < 1024) && o.kind == 1#2 && u.cmdJob c == some o.job && o.scope == cmdFb c
        && decide (8 ≤ n) && decide (n ≤ 4096) && decide (n % 8 = 0)
      if !ok then u.failCopy core c false 3 10
      else if u.memErr (spadAddr core (cmdFrom c).toNat) n then u.failCopy core c false 6 1
      else
        let data := (cellsOf 0 n (readBytes u.mem (spadAddr core (cmdFrom c).toNat) n)).map (·.2)
        let x : Contribution :=
          { obj := i, phase := o.phase, core := BitVec.ofNat 12 core, seq := c.seq, gtid := c.gtid, count := n
            ty := cmdEsz c, isMax := cmdFa c, data := data, seen := 0 }
        let frame : Frame :=
          { station := BitVec.ofNat 10 (coreCluster core), obj := i, gtid := c.gtid, job := c.job, count := 0#3, root := false, payload := 0#256 }
        let u1 := { u with allreds := u.allreds ++ [x] }
        let pieces := (List.range ((n + 31) / 32)).map fun j =>
          BitVec.ofNat 256 (((data.drop (32 * j)).take 32).foldr (fun b m => b.toNat + 256 * m) 0)
        let u2 := pieces.foldl (fun v p => v.queueFrame (coreCluster core) .allred false { frame with payload := p } 0) u1
        let arrival : Frame := { frame with payload := 1#256 }
        let home : Peer := { job := c.job, rank := o.home }
        let u3 := if o.scope ∧ !u.isOwn home then u2.toRank home .bararr arrival
          else u2.queueFrame (coreCluster core) .bararr false arrival 0
        let g := spadAddr core (cmdFrom c).toNat
        (u3.scrub g n).addRun core { newRun c false u.time with
          gate := some (i, o.phase), dsts := [(spadAddr core (cmdTo c).toNat, n)]
          fixed := (granulesFrom g n).any u.eccOne.elem }

/-- Contributions of a phase agree in count, type and operation (R359). -/
def redAgree (cs : List Contribution) : Bool := match cs with
  | [] => true
  | a :: l => l.all fun x => x.count == a.count && x.ty == a.ty && x.isMax == a.isMax

/-- A free value of n bytes for what other ranks contribute to a domain sum (DEDUCED 51). -/
def freeBytes (from_ n : Nat) : List Nat := (List.range n).map fun i => Config.free (from_ + i) % 256

/-- The bytes that later copies of a copy's core and class have written (R338). -/
def Core.laterWrites (k : Core) (r : CopyRun) : List (Nat × Nat) :=
  (((k.copies.dropWhile fun x => x.cmd.seq != r.cmd.seq).drop 1).filter fun x => x.far == r.far).flatMap fun x => x.wrote

/-- Every core with a queued copy command looks again: a sum has been freed (R359). -/
def State.wakeCopies (s : State) : State :=
  s.cores.foldl (fun u x => if x.2.q4.isEmpty then u else u.schedule (u.time + 1) (.copyStart (BitVec.ofNat 12 x.1))) s

/-- A phase of a barrier has completed: its `allred`s write their result, or complete with FORMAT 10 when their
contributions differ; a domain sum in which other ranks took part is a free value (R359) (DEDUCED 51). -/
def State.finishReduce (s : State) (i : BitVec 10) (phase : BitVec 32) (arrivals : Nat) : State :=
  let cs := s.allreds.filter fun x => x.obj == i && x.phase == phase
  match cs with
  | [] => s
  | a :: _ =>
    let s1 := { s with allreds := s.allreds.filter fun x => !(x.obj == i && x.phase == phase) }
    let agree := redAgree cs
    let far := (s.pourObj i.toNat).scope && decide (cs.length < arrivals)
    let rs := redCombine a.ty a.isMax (cs.map fun x => redElems x.ty x.data)
    let bytes : List Nat := if far then freeBytes s.fresh a.count
      else rs.flatMap fun r => (cellsOf 0 (redBytes a.ty) r.1).map fun x => x.2.toNat
    let f := if far then 0#6 else rs.foldl (fun f x => f ||| x.2) 0#6
    cs.foldl (fun u x =>
      let core := x.core.toNat
      match (u.core core).copies.find? fun r => r.cmd.seq == x.seq with
      | none => u
      | some r =>
        let dst := spadAddr core (cmdTo r.cmd).toNat
        let b : Beat := { src := 0, srcLen := 0, cells := bytes.zipIdx.map fun y => (dst + y.2, BitVec.ofNat 8 y.1), data := x.count, flags := f }
        let cells := (b.spare ((u.core core).laterWrites r)).cells
        let r1 : CopyRun := if agree then { r with gate := none, flags := f, written := x.count, wrote := b.ranges, due := u.time + 24 }
          else { r with gate := none, fail := some (3, 10), due := u.time + 24 }
        ({ (u.modCore core fun k => { k with copies := mapFirst (fun y => y.cmd.seq == x.seq) (fun _ => r1) k.copies })
            with mem := if agree then writeCells u.mem cells else u.mem }.schedule (u.time + 24)
            (.copyCompletion x.core x.seq)).schedule (u.time + 1) (.copyStart x.core)) ({ s1 with fresh := s1.fresh + a.count }.wakeCopies)

/-! ### Commands without a body (R330) -/

/-- A command of q4 without a body: it runs in the near class and completes at start + 1 (R330, R337). -/
def State.bareCopy (s : State) (core op : Nat) : State :=
  s.withCopy core op fun c u => u.addRun core (newRun c false (u.time + 1))

/-! ### Completion (R338, R341, R342, R345) -/

/-- The status code of a copy (R340, R342) (DEDUCED 38). -/
def CopyRun.code (r : CopyRun) (gone : Bool) : Nat :=
  if gone then 8
  else match r.fail with
    | some (c, _) => c
    | none => okCode r.flags r.fixed

/-- DETAIL of a copy's status. -/
def CopyRun.detail (r : CopyRun) : Nat := match r.fail with
  | some (_, d) => d
  | none => if okCode r.flags r.fixed = 5 then 1 else 0

/-- The handle's change when a copy that names it completes (R345). -/
def State.endHandle (s : State) (core : Nat) (r : CopyRun) : State :=
  let s1 := match r.copyIn with
    | some h =>
      let ok := r.code false == 0 || r.code false == 1 || r.code false == 5
      s.setHState core h.toNat (if ok then .full else .free)
    | none => s
  let s2 := match r.copyOut with
    | some h => if (s1.core core).draining h.toNat then s1 else s1.setHState core h.toNat .free
    | none => s1
  s2.freeHandles core fun g => (s.group? g).isNone

/-- A copy completes when its own work has ended and the copies ahead of it in its class have completed: signal
granule, q5 record or pending event, MESTATUS event; it waits while q5 is full (R338, R341, R342, R371). -/
def State.completeCopy (s : State) (core : Nat) (seq : Word) : State :=
  let k := s.core core
  match k.copies.find? fun r => r.cmd.seq == seq with
  | none => s
  | some r =>
    let c := r.cmd
    let first := match k.copies.find? fun x => x.far == r.far with
      | some x => x.cmd.seq == seq
      | none => false
    if !first || decide (s.time < r.due) || r.paused.isSome || r.atPort.isSome || r.gate.isSome then s
    else if cmdPost c && c.obj.isNone && decide (Config.q5Records ≤ k.q5.length) then s
    else
      let gone := c.obj.isNone && (s.group? c.group).isNone
      let status := statusWord c true r.detail r.flags (r.code gone)
      let f := r.flags
      let s1 := (s.setCore core { k with copies := k.copies.filter fun x => x.cmd.seq != seq }).endHandle core r
      let logged : State := match r.far, c.who with
        | true, .live tid => match s1.thread? tid.toNat with
          | some t => s1.logItem tid.toNat t 3#8 status (cmdTo c)
          | none => s1
        | _, _ => s1
      let s2 : State := if cmdSignal c then logged.writeSignal core c status else logged
      let s3 : State := match c.obj with
        | some (a, n) =>
          if cmdPost c then s2.savedEvent a n 2#8 f status seq (BitVec.ofNat 64 r.written) true
          else if s2.susps.any fun x => x.addr == a then s2
          else { s2 with mem := writeBytes s2.mem (a + 0x15) 1 (readBytes s2.mem (a + 0x15) 1 - 1) }
        | none =>
          if cmdPost c then
            (s2.modCore core fun (k : Core) => { k with q5 := k.q5 ++
              [{ status := status, seq := seq, gtid := c.gtid, written := BitVec.ofNat 64 r.written
                 group := if gone then 0 else c.group }] }).serveQpop core true
          else s2
      let s4 : State := if cmdStrap c && status.extractLsb' 0 4 != 0#4 then s3.cmdEvent c cMESTATUS 5#8 status else s3
      let s5 : State := match (s4.core core).copies.find? fun x => x.far == r.far with
        | some x => if x.paused.isNone && x.atPort.isNone && x.gate.isNone then
            s4.schedule (max s4.time x.due) (.copyCompletion (BitVec.ofNat 12 core) x.cmd.seq) else s4
        | none => s4
      let cl := coreCluster core
      ((List.range 8).foldl (fun u i =>
        if (u.core (8 * cl + i)).q4.isEmpty then u
        else u.schedule (u.time + 1) (.copyStart (BitVec.ofNat 12 (8 * cl + i)))) s5).settleWithheld

/-- A copy completes (R341). -/
def execCopyCompletion (core : CoreId) (seq : Word) (s : State) : Out := .next (s.completeCopy core.toNat seq)

/-- The beats that a copy that has waited still has to move: it reads its source now, but for the bytes that it overwrites itself, and
goes by the registers of the banks that it meets first now (R121, R355, R356) (DESIGN CHOICE 9). -/
def State.beatsLeft (s : State) (r : CopyRun) : List Beat :=
  if r.spans.isEmpty then r.beats
  else
    let u := { s with mem := writeCells s.mem r.snap }
    drop r.done (r.spans.flatMap fun x => (u.runPlan r.samples r.convert x.1 x.2.1 x.2.2).beats)
where
  /-- The beats after the first n that move data. -/
  drop : Nat → List Beat → List Beat
    | 0, l => l
    | _, [] => []
    | n + 1, b :: l => if b.data = 0 then drop (n + 1) l else drop n l

/-- The beats of a copy go on, or it ends with a code (R237, R339) (DESIGN CHOICE 9). -/
def State.continueCopy (s : State) (core : Nat) (q : CopyRun) (fail : Option (Nat × Nat)) : State :=
  let r := if q.wrote.isEmpty then { q with snap := s.snapOf q.spans q.dsts } else q
  let (s1, r1) := match fail with
    | some z => (s, { r with paused := none, atPort := none, fail := some z, beats := [] })
    | none => runBeats core ((s.core core).laterWrites r) (s.beatsLeft r) s { r with paused := none, atPort := none }
  let r2 := { r1 with due := max r1.due (s1.time + 1) }
  let s2 := s1.modCore core fun k => { k with copies := mapFirst (fun y => y.cmd.seq == r.cmd.seq) (fun _ => r2) k.copies }
  if r2.paused.isSome then s2
  else match r2.atPort with
    | some n => s2.schedule n (.copyBeats (BitVec.ofNat 12 core) r.cmd.seq)
    | none => s2.schedule r2.due (.copyCompletion (BitVec.ofNat 12 core) r.cmd.seq)

/-- Copies that a condition on their job and the address of their beat has paused go on, or end with a code (R237, R339). -/
def State.resumeCopies (s : State) (p : BitVec 32 → Nat → Bool) (fail : Option (Nat × Nat)) : State :=
  s.cores.foldl (fun u x => x.2.copies.foldl (fun v r => match r.paused with
    | some a => if p r.cmd.job a then v.continueCopy x.1 r fail else v
    | none => v) u) s

/-- The beats of a copy that waited at the port go on (R218, R223). -/
def State.copyAtPort (s : State) (core : Nat) (seq : Word) : State :=
  match (s.core core).copies.find? fun r => r.cmd.seq == seq with
  | some r => if r.atPort.isSome then s.continueCopy core r none else s
  | none => s

/-! ### Steps -/

/-- `copy.1d` of a core's q4 (R355). -/
def execCopy1d (core : CoreId) (s : State) : Out := .next (s.copy1dHead core.toNat)

/-- `copy.nd` of a core's q4 (R356). -/
def execCopyNd (core : CoreId) (s : State) : Out := .next (s.copyNdHead core.toNat)

/-- `gath` of a core's q4 (R357). -/
def execGath (core : CoreId) (s : State) : Out := .next (s.gathHead core.toNat)

/-- `scat` of a core's q4 (R357). -/
def execScat (core : CoreId) (s : State) : Out := .next (s.scatHead core.toNat)

/-- `fill` of a core's q4 (R358). -/
def execFill (core : CoreId) (s : State) : Out := .next (s.fillHead core.toNat)

/-- `allred` of a core's q4 (R359). -/
def execAllred (core : CoreId) (s : State) : Out := .next (s.allredHead core.toNat)

/-- A command without a body, at the head of q0 or of q4 (R330). -/
def State.bare (s : State) (e : Eng) (core op : Nat) : State := match e with
  | .matrix => s.bareHead core op
  | .copy => s.bareCopy core op

/-- `tnop` (R330); it also stands for a head command whose opcode its queue does not accept (R101). -/
def execTnop (e : Eng) (core : CoreId) (s : State) : Out := .next (s.bare e core.toNat 0)

/-- `sig` (R330). -/
def execSig (e : Eng) (core : CoreId) (s : State) : Out := .next (s.bare e core.toNat 0x10)

/-- `tfence`: it starts when every earlier command of its queue has completed, and no later one starts before it
does (R330, R338). -/
def execTfence (e : Eng) (core : CoreId) (s : State) : Out := .next (s.bare e core.toNat 0x11)

/-- The opcode of the command that the copy engine would start for a core. -/
def State.nextCopyOp (s : State) (core : Nat) : Option Nat := (s.nextCopy core).map fun x =>
  if q4Accepts (cmdOpcode x.2) then cmdOpcode x.2 else 0

end Sys2Proof.Machine
end

