-- ==== Sys2Proof/Machine/Memory.lean ====
section
/-! DEFINITION. Loads and stores (R205), `lcon` (R206), FENCE and `fence.s` (R138, R208), the synchronising
scalar accesses (R209), `fe.*` (R210), promises (R211, R212) and the atomics (R213). -/

set_option Elab.async false

namespace Sys2Proof.Machine

/-! ### Loads, stores and atomics (R205, R206, R213) -/

/-- A load of w bytes at X[rs1] + imm (R205); `lcon` sets the taint of rd (R206). -/
def State.load (s : State) (tid : Nat) (t : Thread) (relaxed lcon : Bool) (d a : Reg) (i : BitVec 12) (w : Nat)
    (signed : Bool) : State :=
  let ea := t.ea a i
  if aligned ea w then
    s.access tid t { a := ea, n := w, acc := .load d w signed lcon, relaxed := relaxed, areg := a }
  else s.trap tid t cMISALIGN ea

/-- A store of w bytes at X[rs1] + imm (R205). -/
def State.store (s : State) (tid : Nat) (t : Thread) (relaxed : Bool) (a b : Reg) (i : BitVec 12) (w : Nat) : State :=
  let ea := t.ea a i
  if aligned ea w then
    s.access tid t { a := ea, n := w, acc := .store w (t.reg b), relaxed := relaxed, areg := a }
  else s.trap tid t cMISALIGN ea

/-- An atomic of w bytes at X[rs1] (R213); `cas` compares with X[rd] as read at issue. -/
def State.amo (s : State) (tid : Nat) (t : Thread) (relaxed : Bool) (op : AmoOp) (w : Nat) (d a b : Reg) : State :=
  let ea := t.reg a
  if aligned ea w then
    s.access tid t { a := ea, n := w, acc := .amo op d w (t.reg b) (t.reg d), relaxed := relaxed, areg := a }
  else s.trap tid t cMISALIGN ea

/-- LB: 1 byte, sign-extended (R205). -/
def execLb (d a : Reg) (i : BitVec 12) (s : State) : Out :=
  performing s fun tid t => s.load tid t false false d a i 1 true

/-- LH: 2 bytes, sign-extended (R205). -/
def execLh (d a : Reg) (i : BitVec 12) (s : State) : Out :=
  performing s fun tid t => s.load tid t false false d a i 2 true

/-- LW: 4 bytes, sign-extended (R205). -/
def execLw (d a : Reg) (i : BitVec 12) (s : State) : Out :=
  performing s fun tid t => s.load tid t false false d a i 4 true

/-- LD: 8 bytes, sign-extended (R205). -/
def execLd (d a : Reg) (i : BitVec 12) (s : State) : Out :=
  performing s fun tid t => s.load tid t false false d a i 8 true

/-- LBU: 1 byte, zero-extended (R205). -/
def execLbu (d a : Reg) (i : BitVec 12) (s : State) : Out :=
  performing s fun tid t => s.load tid t false false d a i 1 false

/-- LHU: 2 bytes, zero-extended (R205). -/
def execLhu (d a : Reg) (i : BitVec 12) (s : State) : Out :=
  performing s fun tid t => s.load tid t false false d a i 2 false

/-- LWU: 4 bytes, zero-extended (R205). -/
def execLwu (d a : Reg) (i : BitVec 12) (s : State) : Out :=
  performing s fun tid t => s.load tid t false false d a i 4 false

/-- SB: 1 byte (R205). -/
def execSb (a b : Reg) (i : BitVec 12) (s : State) : Out :=
  performing s fun tid t => s.store tid t false a b i 1

/-- SH: 2 bytes (R205). -/
def execSh (a b : Reg) (i : BitVec 12) (s : State) : Out :=
  performing s fun tid t => s.store tid t false a b i 2

/-- SW: 4 bytes (R205). -/
def execSw (a b : Reg) (i : BitVec 12) (s : State) : Out :=
  performing s fun tid t => s.store tid t false a b i 4

/-- SD: 8 bytes (R205). -/
def execSd (a b : Reg) (i : BitVec 12) (s : State) : Out :=
  performing s fun tid t => s.store tid t false a b i 8

/-- `lcon.w`: LW, and Taint(rd) := 1 (R206). -/
def execLconW (d a : Reg) (i : BitVec 12) (s : State) : Out :=
  performing s fun tid t => s.load tid t false true d a i 4 true

/-- `lcon.d`: LD, and Taint(rd) := 1 (R206). -/
def execLconD (d a : Reg) (i : BitVec 12) (s : State) : Out :=
  performing s fun tid t => s.load tid t false true d a i 8 true

/-- `amo.add.w` (R213). -/
def execAmoAddW (d a b : Reg) (s : State) : Out :=
  performing s fun tid t => s.amo tid t false .add 4 d a b

/-- `amo.add.d` (R213). -/
def execAmoAddD (d a b : Reg) (s : State) : Out :=
  performing s fun tid t => s.amo tid t false .add 8 d a b

/-- `amo.and.w` (R213). -/
def execAmoAndW (d a b : Reg) (s : State) : Out :=
  performing s fun tid t => s.amo tid t false .and 4 d a b

/-- `amo.and.d` (R213). -/
def execAmoAndD (d a b : Reg) (s : State) : Out :=
  performing s fun tid t => s.amo tid t false .and 8 d a b

/-- `amo.or.w` (R213). -/
def execAmoOrW (d a b : Reg) (s : State) : Out :=
  performing s fun tid t => s.amo tid t false .or 4 d a b

/-- `amo.or.d` (R213). -/
def execAmoOrD (d a b : Reg) (s : State) : Out :=
  performing s fun tid t => s.amo tid t false .or 8 d a b

/-- `amo.xor.w` (R213). -/
def execAmoXorW (d a b : Reg) (s : State) : Out :=
  performing s fun tid t => s.amo tid t false .xor 4 d a b

/-- `amo.xor.d` (R213). -/
def execAmoXorD (d a b : Reg) (s : State) : Out :=
  performing s fun tid t => s.amo tid t false .xor 8 d a b

/-- `amo.min.w` (R213). -/
def execAmoMinW (d a b : Reg) (s : State) : Out :=
  performing s fun tid t => s.amo tid t false .min 4 d a b

/-- `amo.min.d` (R213). -/
def execAmoMinD (d a b : Reg) (s : State) : Out :=
  performing s fun tid t => s.amo tid t false .min 8 d a b

/-- `amo.max.w` (R213). -/
def execAmoMaxW (d a b : Reg) (s : State) : Out :=
  performing s fun tid t => s.amo tid t false .max 4 d a b

/-- `amo.max.d` (R213). -/
def execAmoMaxD (d a b : Reg) (s : State) : Out :=
  performing s fun tid t => s.amo tid t false .max 8 d a b

/-- `amo.minu.w` (R213). -/
def execAmoMinuW (d a b : Reg) (s : State) : Out :=
  performing s fun tid t => s.amo tid t false .minu 4 d a b

/-- `amo.minu.d` (R213). -/
def execAmoMinuD (d a b : Reg) (s : State) : Out :=
  performing s fun tid t => s.amo tid t false .minu 8 d a b

/-- `amo.maxu.w` (R213). -/
def execAmoMaxuW (d a b : Reg) (s : State) : Out :=
  performing s fun tid t => s.amo tid t false .maxu 4 d a b

/-- `amo.maxu.d` (R213). -/
def execAmoMaxuD (d a b : Reg) (s : State) : Out :=
  performing s fun tid t => s.amo tid t false .maxu 8 d a b

/-- `amo.swap.w` (R213). -/
def execAmoSwapW (d a b : Reg) (s : State) : Out :=
  performing s fun tid t => s.amo tid t false .swap 4 d a b

/-- `amo.swap.d` (R213). -/
def execAmoSwapD (d a b : Reg) (s : State) : Out :=
  performing s fun tid t => s.amo tid t false .swap 8 d a b

/-- `amo.cas.w` (R213). -/
def execAmoCasW (d a b : Reg) (s : State) : Out :=
  performing s fun tid t => s.amo tid t false .cas 4 d a b

/-- `amo.cas.d` (R213). -/
def execAmoCasD (d a b : Reg) (s : State) : Out :=
  performing s fun tid t => s.amo tid t false .cas 8 d a b

/-! ### Fences (R138, R208) -/

/-- Numeric form of a fence scope. -/
def scopeNo : Scope → Nat
  | .thread => 0
  | .core => 1
  | .cluster => 2
  | .die => 3
  | .module => 4
  | .domain => 5

/-- Whether a global address lies within scope n of a core: its scratchpad, the scratchpads and the Carafe of
its cluster, those of its die with the tiered pages homed there, its module, every rank (R208). -/
def State.inScope (s : State) (core n a : Nat) : Bool :=
  if n = 5 then true
  else if 2 ^ 62 ≤ a then false
  else if n = 4 then true
  else if isSpad a then
    let c := spadCore a
    if n = 1 then c == core else if n = 2 then coreCluster c == coreCluster core
    else n == 3 && coreDie c == coreDie core
  else if isCarafe a then
    let m := carafeCluster a
    if n = 2 then m == coreCluster core else n == 3 && m / 128 == coreDie core
  else n == 3 && match s.pageAt a with
    | some p => p.home.toNat == coreDie core
    | none => true

/-- Whether an access is a load. -/
def Access.isLoad : Access → Bool
  | .load _ _ _ _ | .vload _ | .vgather _ _ _ => true
  | _ => false

/-- Whether a fence of scope n waits for a packet (R208). -/
def State.fenceWaits (s : State) (core n : Nat) (p : Packet) : Bool :=
  (p.cls == .relaxed && p.acc.isLoad)
  || (decide (1 ≤ n) && (p.acc.pieces p.addr).any (fun q => s.inScope core n q.1) && (decide (2 ≤ n) || p.acc.writes))

/-- Something that a fence of scope n waits for is outstanding (R208, R227). -/
def State.fencePending (s : State) (tid n : Nat) : Bool :=
  (s.packetsOf tid).any (s.fenceWaits (tidCore tid) n)
  || ((s.thread? tid).any fun t => decide (1 ≤ n) && (decide (s.time < t.ackAt) || t.relAcks.any fun m => decide (s.time < m)))
  || (s.core (tidCore tid)).cb.any fun e => e.tid.toNat == tid && decide (1 ≤ n) && s.inScope (tidCore tid) n e.block

/-- A fence of scope n: the thread's combining entries within the scope are flushed, and the thread is not
ready until every access of the scope's set is acknowledged (R208, R227). -/
def State.fenceOp (s : State) (tid : Nat) (t : Thread) (n : Scope) : State :=
  if s.fencePending tid (scopeNo n) then
    (s.flushThread tid fun e => decide (1 ≤ (scopeNo n)) && s.inScope (tidCore tid) (scopeNo n) e.block).retryWhen tid t (.fence n)
  else s.next tid t

/-- FENCE acts as `fence.s 4`, whatever its sets (R138). -/
def execFence (tso : Bool) (pred succ : BitVec 4) (s : State) : Out :=
  let _ := (tso, pred, succ)
  performing s fun tid t => s.fenceOp tid t .module

/-- `fence.s n` (R208). -/
def execFenceS (n : Scope) (s : State) : Out :=
  performing s fun tid t => s.fenceOp tid t n

/-! ### Synchronising accesses (R209) and full/empty operations (R210) -/

/-- A scalar synchronising access: eight bytes at X[rs1], a multiple of 8 (R209). -/
def State.syncScalar (s : State) (tid : Nat) (t : Thread) (a limit : Reg) (op : SyncOp) (shape : SyncShape) : State :=
  let ea := t.reg a
  if aligned ea 8 then s.syncIssue tid t ea op shape 8 (t.limitOf limit) else s.trap tid t cMISALIGN ea

/-- `lsw.k`: waits for full, leaves full (R209). -/
def execLswK (d a b : Reg) (s : State) : Out :=
  performing s fun tid t => s.syncScalar tid t a b .keep (.scalarLoad d)

/-- `lsw.c`: waits for full, leaves empty (R209). -/
def execLswC (d a b : Reg) (s : State) : Out :=
  performing s fun tid t => s.syncScalar tid t a b .take (.scalarLoad d)

/-- `ssw.e`: waits for empty, leaves full (R209). -/
def execSswE (a b c : Reg) (s : State) : Out :=
  performing s fun tid t => s.syncScalar tid t a c .fill (.scalarStore (t.reg b))

/-- `ssw.f`: waits for full, leaves full (R209). -/
def execSswF (a b c : Reg) (s : State) : Out :=
  performing s fun tid t => s.syncScalar tid t a c .over (.scalarStore (t.reg b))

/-- `fe.set`: a release; the granule becomes full (R210). -/
def execFeSet (a : Reg) (s : State) : Out :=
  performing s fun tid t => s.feIssue tid t (t.reg a) .feSet

/-- `fe.clr`: the granule becomes empty (R210). -/
def execFeClr (a : Reg) (s : State) : Out :=
  performing s fun tid t => s.feIssue tid t (t.reg a) .feClr

/-- `fe.tst`: 1 when the granule is full and 0 when it is empty (R210). -/
def execFeTst (d a : Reg) (s : State) : Out :=
  performing s fun tid t => s.feIssue tid t (t.reg a) (.feTst d)

/-! ### Promises (R203, R211, R212) -/

/-- A malformed descriptor (R211). -/
def promiseBad (x : Word) : Bool :=
  let kind := x.extractLsb' 0 4
  let tag := x.extractLsb' 4 4
  x.extractLsb' 8 56 != 0#56 || decide (3 < kind.toNat) || (if kind = 1#4 then tag == 15#4 else tag != 0#4)

/-- The object that a descriptor and an operand name; none when it is invalid (R203). -/
def State.promiseObj (s : State) (core : Nat) (job : BitVec 32) (x a : Word) : Option Obj :=
  let kind := x.extractLsb' 0 4
  if kind = 0#4 then
    let pl := s.place core job a
    if aligned a 16 && pl.isScratch then pl.addr?.map fun g => .granule (g / 16) else none
  else if kind = 1#4 then
    if a.extractLsb' 22 42 = 0#42 then some (.tag (a.extractLsb' 0 22) (x.extractLsb' 4 4)) else none
  else if a.extractLsb' 10 54 = 0#54 then
    some (if kind = 2#4 then .barrier (a.extractLsb' 0 10) else .timeline (a.extractLsb' 0 10))
  else none

/-- `promise`: the entry that holds the object, the lowest free entry, or all ones when the table is full
(R211). -/
def execPromise (d a b : Reg) (s : State) : Out :=
  performing s fun tid t =>
    let x := t.reg b
    if promiseBad x then s.trap tid t cPROMISEFMT x
    else match s.promiseObj (tidCore tid) t.job x (t.reg a) with
      | none => s.trap tid t cPROMISEFMT (t.reg a)
      | some o =>
        match t.promiseAt o, t.promiseFree with
        | some i, _ => s.writeReg tid t d (BitVec.ofNat 64 i) false
        | none, some i => s.writeReg tid (t.setPromise i (some o)) d (BitVec.ofNat 64 i) false
        | none, none => s.writeReg tid t d (BitVec.allOnes 64) false

/-- `unpromise`: clears the entry that X[rs1] numbers, or every entry (R212). -/
def execUnpromise (a : Reg) (s : State) : Out :=
  performing s fun tid t =>
    let x := t.reg a
    if x = BitVec.allOnes 64 then s.next tid { t with promises := Vector.replicate 8 none }
    else if x.toNat < 8 then s.next tid (t.setPromise x.toNat none)
    else s.next tid t

end Sys2Proof.Machine
end

