-- ==== Sys2Proof/Machine/VectorMem.lean ====
section
/-! DEFINITION. Vector memory instructions: `vld` and `vst` (R282), the strided and indexed forms (R283), and
the decoding loads and encoding stores (R284). -/

set_option Elab.async false

namespace Sys2Proof.Machine

/-! ### Shared parts -/

/-- The source registers of a store among the vector registers (DEDUCED 15). -/
def storeReads (store : Bool) (v : VReg) : List (BitVec 4) := if store then [vdest v] else []

/-- An access to several pieces of memory goes on when no earlier access to their bytes is outstanding and no
combining entry of the thread meets them (R192, R193, R227). -/
def State.whenClear (s : State) (tid : Nat) (t : Thread) (relaxed : Bool) (ps : List (Nat × Nat)) (f : Unit → State) : State :=
  match ps.filterMap (fun p => s.accessWait tid p.1 p.2 relaxed) with
  | c :: _ => s.retryWhen tid t c
  | [] =>
    let meets := fun (e : CbEntry) => ps.any fun p => e.meets p.1 p.2
    match (s.core (tidCore tid)).cb.find? (fun e => e.tid.toNat == tid && meets e) with
    | some e => (s.flushThread tid meets).retryWhen tid t (.overlap e.block 16)
    | none => f ()

/-! ### `vld` and `vst` (R282) -/

/-- The synchronising operation of a load or a store (R93). -/
def vsyncOp (store : Bool) : VSync → SyncOp
  | .take => if store then .fill else .take
  | _ => if store then .over else .keep

/-- A push by a 64-byte store to an alias (R20, R21, R333). -/
def State.aliasStore (s : State) (tid : Nat) (t : Thread) (q : Nat) (a : Word) (d : VWord) (relaxed : Bool) : State :=
  if s.pushLegal tid q then s.push tid t q d relaxed else s.trap tid t cACCESSFAULT a

/-- `vld` and `vst` (R282). -/
def State.vmem (s : State) (tid : Nat) (t : Thread) (relaxed store : Bool) (v : VReg) (a : Reg) (o : BitVec 6)
    (sync : VSync) : State :=
  s.withVecs tid t (storeReads store v) fun _ =>
    let ea := t.vea a o
    let acc : Access := if store then .vstore (t.vreg v) else .vload v
    if !aligned ea 64 then s.trap tid t cMISALIGN ea
    else match sync with
      | .plain =>
        match store, s.place (tidCore tid) t.job ea with
        | true, .q0 => s.aliasStore tid t 0 ea (t.vreg v) relaxed
        | true, .q2 => s.aliasStore tid t 2 ea (t.vreg v) relaxed
        | _, _ => s.access tid t { a := ea, n := 64, acc := acc, relaxed := relaxed, areg := a }
      | y => s.syncIssue tid t ea (vsyncOp store y) (if store then .vecStore (t.vreg v) else .vecLoad v) 64 t.defaultLimit

/-- `vld vd, off(xa)` (R282). -/
def execVld (v : VReg) (a : Reg) (sc : BitVec 6) (sync : VSync) (w : BitVec 2) (s : State) : Out :=
  let _ := w
  performing s fun tid t => s.vmem tid t false false v a sc sync

/-- `vst vd, off(xa)` (R282). -/
def execVst (v : VReg) (a : Reg) (sc : BitVec 6) (sync : VSync) (w : BitVec 2) (s : State) : Out :=
  let _ := w
  performing s fun tid t => s.vmem tid t false true v a sc sync

/-! ### Strided and indexed forms (R283) -/

/-- Elements of a form: 16 of four bytes or 8 of eight. -/
def elCount : El → Nat
  | .four => 16
  | .eight => 8

/-- The element addresses of a strided form: X[rs1] + i × Signed(X[rs2]) (R283). -/
def strideAddrs (base stride : Word) (el : El) : List Word :=
  (List.range (elCount el)).map fun i => base + BitVec.ofNat 64 i * stride

/-- The element addresses of an indexed form: X[rs1] + Signed(lane i of vb) (R283). -/
def indexAddrs (base : Word) (idx : VWord) (el : El) : List Word :=
  let b := elBytes el
  (List.range (elCount el)).map fun i => base + BitVec.ofInt 64 (laneInt true (8 * b) (laneOf idx (8 * b) i))

/-- The first element that a check refuses, lowest lane first: its cause and its address (R283) (DESIGN CHOICE 46). -/
def State.elementFault (s : State) (core : Nat) (job : BitVec 32) (b : Nat) (store : Bool) : List Word → Option (BitVec 8 × Word)
  | [] => none
  | a :: l =>
    if !aligned a b then some (cMISALIGN, a)
    else match (s.place core job a).addr? with
      | none => some (cACCESSFAULT, a)
      | some g =>
        if store && decide (g < 2 ^ 62) && s.hitsInbox g b then some (cACCESSFAULT, a)
        else s.elementFault core job b store l

/-- The most granules that the elements touch in one bank (R296). -/
def bankGranules (l : List Nat) : Nat :=
  let gs := (l.map (· / 16)).eraseDups
  gs.foldl (fun m g => max m (gs.filter fun h => h * 16 / 16384 == g * 16 / 16384).length) 0

/-- An element lies outside the local window. -/
def offWindow : Place → Bool
  | .own _ => false
  | _ => true

/-- A strided or indexed access, every address checked before any element moves (R283) (DESIGN CHOICE 46). -/
def State.vmany (s : State) (tid : Nat) (t : Thread) (relaxed store : Bool) (v : VReg) (areg : Reg) (el : El)
    (addrs : List Word) : State :=
  let core := tidCore tid
  let b := elBytes el
  match s.elementFault core t.job b store addrs with
  | some (c, a) => s.trap tid t c a
  | none =>
    let pls := addrs.map (s.place core t.job)
    let gs := pls.filterMap Place.addr?
    let acc : Access := if store then .vscatter el gs (t.vreg v) else .vgather v el gs
    match (addrs.zip pls).find? fun p => s.unreachable p.2 with
    | some (a, p) =>
      if relaxed then
        if store then (s.nextMem tid t true).fabricStatus t.group (p.addr?.getD 0)
        else (s.nextMem tid t true).postEvent tid { code := cFABUNREACH, eval := a }
      else s.trap tid t cFABUNREACH a
    | none =>
      match (s.core core).cb.find? fun e => e.tid.toNat == tid && !store && gs.all fun g => e.covers g b with
      | some e => s.nextMem tid (t.takeData acc (gatherLanes e.bytes b gs 0)) relaxed
      | none =>
        s.whenClear tid t relaxed (gs.map fun g => (g, b)) fun _ =>
          match pls.find? offWindow with
          | none =>
            match s.performAt (gs.headD 0) acc with
            | (s1, .ok x) =>
              let late := s.time + 8 + (bankGranules gs - 4)
              s1.nextMem tid { t.takeData acc x with readyAt := max t.readyAt late } relaxed
            | (s1, .error c) =>
              let bad := (addrs.zip gs).find? fun p => s.memErr p.2 b
              s1.trap tid t c (match bad with | some p => p.1 | none => addrs.headD 0#64)
          | some _ =>
            let tiers := pls.filterMap fun p => match p with | .tier g => some g | _ => none
            let s1 := s.useTlbs core t.job store tiers
            match s.firstMiss core t.job store tiers, tiers.find? fun g => !relaxed && s.cxlFault g with
            | some (g, .miss), _ => s1.beginWalk tid t g
            | some (g, _), _ | none, some g => s1.latch tid t g
            | none, none =>
              let far := gs.foldl (fun m g => if (s.accessRange core m).2 < (s.accessRange core g).2 then g else m)
                (((pls.find? offWindow).bind Place.addr?).getD 0)
              let dark := pls.find? fun p => match p with
                | .remote k _ => decide (rankState (s.rankEntry k) = 1 ∧ 32 ≤ s.heldFor core k)
                | _ => false
              match dark with
              | some (.remote k _) => s.retryWhen tid t (.dark k.rank)
              | _ =>
                let (s2, id) := s1.sendPacket tid t far (b * gs.length) acc (if relaxed then .relaxed else .ordinary)
                  (!relaxed || t.tainted areg) addrs
                if !relaxed && !store then s2.await tid t (.access id) none (addrs.headD 0#64) else s2.nextMem tid t relaxed

/-- A strided form (R283). -/
def State.vstride (s : State) (tid : Nat) (t : Thread) (relaxed store : Bool) (v : VReg) (a b : Reg) (el : El) : State :=
  s.withVecs tid t (storeReads store v) fun _ => s.vmany tid t relaxed store v a el (strideAddrs (t.reg a) (t.reg b) el)

/-- An indexed form (R283). -/
def State.vindex (s : State) (tid : Nat) (t : Thread) (relaxed store : Bool) (v : VReg) (a : Reg) (b : VReg) (el : El) : State :=
  s.withVecs tid t (storeReads store v ++ [vdest b]) fun _ =>
    s.vmany tid t relaxed store v a el (indexAddrs (t.reg a) (t.vreg b) el)

/-- `vlds vd, (xa), xb` (R283). -/
def execVlds (v : VReg) (a b : Reg) (el : El) (w : BitVec 2) (s : State) : Out :=
  let _ := w
  performing s fun tid t => s.vstride tid t false false v a b el

/-- `vsts vd, (xa), xb` (R283). -/
def execVsts (v : VReg) (a b : Reg) (el : El) (w : BitVec 2) (s : State) : Out :=
  let _ := w
  performing s fun tid t => s.vstride tid t false true v a b el

/-- `vgat vd, (xa), vb` (R283). -/
def execVgat (v : VReg) (a : Reg) (b : VReg) (el : El) (w : BitVec 2) (s : State) : Out :=
  let _ := w
  performing s fun tid t => s.vindex tid t false false v a b el

/-- `vsca vd, (xa), vb` (R283). -/
def execVsca (v : VReg) (a : Reg) (b : VReg) (el : El) (w : BitVec 2) (s : State) : Out :=
  let _ := w
  performing s fun tid t => s.vindex tid t false true v a b el

/-! ### `vld.d` and `vst.e` (R284) -/

/-- A unit at a local-window address, its checks passed: loads and stores without `sync` act at once on the
core's own scratchpad. -/
def State.unitPlain (s : State) (tid : Nat) (t : Thread) (relaxed store : Bool) (v : VReg) (a : Word) (r : Word) : State :=
  let core := tidCore tid
  let g := spadAddr core a.toNat
  let n := unitBytes r
  if store && s.hitsInbox g n then s.trap tid t cACCESSFAULT a
  else s.whenClear tid t relaxed [(g, n)] fun _ =>
    if s.memErr g n && !(store && n == 64) then s.trap tid t cMEMERR a
    else if store then
      let (cells, f) := encodeUnit s.mem core r a.toNat (t.vreg v)
      let s1 := if n = 64 then s.rebuild g 64 else s.scrub g n
      { s1 with mem := writeCells s1.mem cells }.nextMem tid (t.orFlags f) relaxed
    else
      let (x, f) := decodeUnit s.mem core r a.toNat
      (s.scrub g n).nextMem tid ((t.memV v x).orFlags f) relaxed

/-- `vld.d` and `vst.e` (R284) (DEDUCED 45, DESIGN CHOICE 100). -/
def State.vunit (s : State) (tid : Nat) (t : Thread) (relaxed store : Bool) (v : VReg) (a : Reg) (o : BitVec 6)
    (sync : VSync) : State :=
  s.withVecs tid t (storeReads store v) fun _ =>
    let ea := t.vea a o
    let core := tidCore tid
    let r := regAt (s.core core).bfmt (ea.extractLsb' 14 5).toNat
    if !aligned ea (unitBytes r) then s.trap tid t cMISALIGN ea
    else if spadSize ≤ ea.toNat then s.trap tid t cACCESSFAULT ea
    else if bfInvalid r then s.trap tid t cBANKFMT ea
    else if store && bfDyn r then s.trap tid t cBANKFMT ea
    else if unitBad s.mem core r ea.toNat then s.trap tid t cBANKFMT ea
    else match sync with
      | .plain => s.unitPlain tid t relaxed store v ea r
      | y =>
        let (cells, f) := encodeUnit s.mem core r ea.toNat (t.vreg v)
        s.syncIssue tid t ea (vsyncOp store y) (if store then .vecEncode cells f else .vecDecode v ea.toNat r)
          (unitBytes r) t.defaultLimit

/-- `vld.d vd, off(xa)` (R284). -/
def execVldD (v : VReg) (a : Reg) (sc : BitVec 6) (sync : VSync) (w : BitVec 2) (s : State) : Out :=
  let _ := w
  performing s fun tid t => s.vunit tid t false false v a sc sync

/-- `vst.e vd, off(xa)` (R284). -/
def execVstE (v : VReg) (a : Reg) (sc : BitVec 6) (sync : VSync) (w : BitVec 2) (s : State) : Out :=
  let _ := w
  performing s fun tid t => s.vunit tid t false true v a sc sync

end Sys2Proof.Machine
end

