-- ==== Sys2Proof/Machine/Remote.lean ====
section
/-! DEFINITION. Remote access: migrating loads and `migr` (R240, R241), the arrival of rovers (R233 to R236),
posted stores (R242), `cbf`, `rank`, `drain` (R243 to R245), and the relaxed pairs (R96 to R98). -/

set_option Elab.async false

namespace Sys2Proof.Machine

/-! ### Packing a rover (R234) -/

/-- Registers of the carry set, x8 first (R231). -/
def Thread.carryCount (t : Thread) : Nat := if t.carry = 0#64 then 8 else if t.carry = 1#64 then 16 else 24

/-- What a migration carries; the rest is clear (R234). -/
def Thread.packed (t : Thread) : Thread :=
  let u := t.drainWindows
  let n := u.carryCount
  { u with
    x := Vector.ofFn fun (i : Fin 32) => if 8 ≤ i.val ∧ i.val < 8 + n then u.x.get i else 0#64
    taint := u.taint &&& BitVec.ofNat 32 ((2 ^ n - 1) * 2 ^ 8)
    v := Vector.replicate 8 0#512, k := Vector.replicate 4 0#128, arrRec := none, wait := none, latch := none, latchCnt := none
    gang := none }

/-- A rover without its offer. -/
def State.dropRover (s : State) (id : Nat) : State := { s with rovers := s.rovers.filter fun (x : Rover) => x.id != id }

/-- The thread that offers a rover. -/
def State.offering (s : State) (id : Nat) : Option (Nat × Thread) :=
  s.threads.find? fun x => match x.2.wait with
    | some w => w.what == .offer id && x.2.run == .live
    | none => false

/-- Posted stores of a thread that are outstanding (R229). -/
def State.postedOut (s : State) (tid : Nat) : Bool := (s.packetsOf tid).any fun p => p.cls == .posted

/-- OwnCommandsDone: the thread's q0 commands have completed or been removed, its q2 requests have been taken, the
q4 commands that record it as their issuer have completed (R240) (DEDUCED 68). -/
def State.ownDone (s : State) (tid : Nat) : Bool :=
  let k := s.core (tidCore tid)
  let g := s.gtid tid
  !(k.q0.any fun c => c.who == .live (BitVec.ofNat 16 tid))
    && !(k.q2.toList.any fun m => match m with
      | some x => (entryDw x.data 7).extractLsb' 0 22 == g
      | none => false)
    && !(k.q4.any fun c => c.gtid == g) && !(k.copies.any fun r => r.cmd.gtid == g)

/-- The drains before a thread is packed (R240). -/
def State.migrateReady (s : State) (tid : Nat) : Bool :=
  decide (s.relaxedOut tid = 0) && !s.combiningOut tid && !s.postedOut tid && s.ownDone tid

/-- Cycles until a thread that leaves a core is offered at another: the bounds of a migration to its first issue there, less the
8 cycles of its start in a slot, and what larger carry sets add (R246) (DESIGN CHOICE 23). -/
def State.migrateTime (s : State) (src dst : Nat) (t : Thread) : Nat :=
  let n := coreCluster src
  let m := coreCluster dst
  let r := if n = m then (40, 60) else if n / 128 = m / 128 then (50, 90) else (100, 160)
  s.pick (r.1 - 8) (r.2 - 8) + (if t.carry = 0#64 then 0 else if t.carry = 1#64 then 2 else 4)

/-- Bytes of the packet that carries a thread (R234). -/
def Thread.packetBytes (t : Thread) : Nat := 160 + 16 * t.openPromises.length + 32 * t.events.length + 8 * t.carryCount

/-- A rover leaves its core when the bucket of its class allows it, and travels on the ordered path (R217, R218, R223). -/
def State.sendRover (s : State) (id : Nat) : State :=
  match s.rovers.find? (fun (x : Rover) => x.id == id), s.offering id with
  | some r, some (tid, t) => match s.spendPacket tid id t.packetBytes with
    | .error again => s.schedule again (.roverSend id)
    | .ok k =>
      let c := tidCore tid
      let (s1, due) := (s.setCore c k).onPath c r.target.toNat (s.time + s.migrateTime c r.target.toNat t) 0
      s1.bump.schedule due (.roverArrival id)
  | some _, none => s.dropRover id
  | none, _ => s

/-- The thread offers itself to a core (R236). -/
def State.offerRover (s : State) (tid : Nat) (t : Thread) (a : Word) (c : Nat) (load : Option (Reg × Nat × Nat)) : State :=
  let id := s.fresh + 1
  let r : Rover := { id := id, thread := t, target := BitVec.ofNat 12 c, fresh := false, load := load, spilled := none
                     last := BitVec.ofNat 16 tid, held := false }
  ({ s with rovers := s.rovers ++ [r], fresh := s.fresh + 2 }.await tid t (.offer id) none a).sendRover id

/-- `ldm` with a register and a width, and `migr` without (R240, R241). -/
def State.migrate (s : State) (tid : Nat) (t : Thread) (i : Instr) (a : Reg) (load : Option (Reg × Nat)) : State :=
  let ea := t.reg a
  if !t.rover then s.illegal tid t i
  else if load.any fun l => !aligned ea l.2 then s.trap tid t cMISALIGN ea
  else
    let go := fun (g : Nat) =>
      if s.lostCore g then s.trap tid t cFABUNREACH ea
      else
        let c := s.forwardCore 4 (spadCore g)
        if c = tidCore tid then
          match load with
          | some (d, w) => s.access tid t { a := ea, n := w, acc := .load d w true false, relaxed := false, areg := a }
          | none => s.next tid t
        else if s.ordinaryOut tid then s.retryWhen tid t .ordinary
        else if !s.migrateReady tid then (s.flushThread tid fun _ => true).retryWhen tid t .migrate
        else (s.touchForward (spadCore g * 16)).offerRover tid t ea c (load.map fun l => (l.1, spadOff g, l.2))
    match s.place (tidCore tid) t.job ea with
    | .own g => go g
    | .spad g => go g
    | _ => s.trap tid t cACCESSFAULT ea

/-- `ldm.w` (R240). -/
def execLdmW (d a : Reg) (s : State) : Out :=
  performing s fun tid t => s.migrate tid t (.ldmW d a) a (some (d, 4))

/-- `ldm.d` (R240). -/
def execLdmD (d a : Reg) (s : State) : Out :=
  performing s fun tid t => s.migrate tid t (.ldmD d a) a (some (d, 8))

/-- `migr` (R241). -/
def execMigr (a : Reg) (s : State) : Out :=
  performing s fun tid t => s.migrate tid t (.migr a) a none

/-! ### Arrivals (R235, R236) -/

/-- An offered rover arrives: it is accepted and its source slot falls vacant, or it is refused and offers itself
again after 64 cycles, its wait counted from then on (R235, R236). -/
def State.roverArrives (s : State) (id : Nat) : State :=
  match s.rovers.find? fun (x : Rover) => x.id == id, s.offering id with
  | some r, some (tid, t) =>
    let c := s.forwardCore 4 r.target.toNat
    if (s.core c).lost then (s.dropRover id).trapWaited tid t cFABUNREACH
      (match t.wait with | some w => w.eval | none => 0#64)
    else match s.acceptRover c { r with thread := t.packed, target := BitVec.ofNat 12 c } with
      | some s1 => s1.leaveSlot tid false
      | none =>
        let counted := t.wait.map fun w => { w with limit := match w.limit with | some l => some l | none => some t.defaultLimit }
        (s.setThread tid { t with wait := counted }).schedule (s.time + 64) (.roverReoffer id)
  | some _, none => s.dropRover id
  | none, _ => s

/-- An offer reaches its core (R235). -/
def execRoverArrival (rover : Nat) (s : State) : Out := .next (s.roverArrives rover)

/-- A refused rover offers itself again: its packet takes its tokens anew (R223, R236). -/
def State.reofferRover (s : State) (id : Nat) : State := match s.offering id with
  | some (tid, t) => match s.spendPacket tid s.fresh t.packetBytes with
    | .error again => s.schedule again (.roverReoffer id)
    | .ok k => (s.setCore (tidCore tid) k).roverArrives id
  | none => s.roverArrives id

/-- A refused rover offers itself again (R236). -/
def execRoverReoffer (rover : Nat) (s : State) : Out := .next (s.reofferRover rover)

/-- A rover takes a slot: a migrating load is performed there and the instruction retires; a new rover issues no
earlier than 8 cycles later; a HOLD that waited takes effect (R180, R234, R235, R240) (DEDUCED 67). -/
def State.seat (s : State) (tid : Nat) (r : Rover) : State :=
  let t0 := { r.thread with readyAt := max r.thread.readyAt (s.time + 8), lastTime := r.thread.lastTime }
  let s1 := (s.dropRover r.id).occupy tid t0
  let s2 :=
    if r.fresh then s1
    else match r.load with
      | some (d, off, w) =>
        let a := spadAddr (tidCore tid) off
        let acc : Access := .load d w true false
        match s1.performAt a acc with
        | (u, .ok v) => u.finish tid (t0.takeData acc v) (t0.pc + 4#64) false 0
        | (u, .error c) => u.trap tid t0 c (BitVec.ofNat 64 a)
      | none => s1.finish tid t0 (t0.pc + 4#64) false 0
  if r.held then s2.rootHalt tid .hold else s2

/-- Rovers at the head of the arrival queue take the lowest-numbered free worker slots; only one that its own group starts may take a
slot of a core that the group owns (R159, R235) (DEDUCED 67). -/
def State.takeSlots (c : Nat) : Nat → State → State
  | 0, s => s
  | n + 1, s =>
    let s := State.unspill c 272 s
    let group := ((s.core c).arrQ.head?.bind fun id => s.rovers.find? fun (x : Rover) => x.id == id && x.fresh).map fun r => r.thread.group
    match (s.core c).arrQ, s.freeWorker c group with
    | id :: rest, some slot =>
      let s1 := s.modCore c fun k => { k with arrQ := rest }
      match s1.rovers.find? fun (x : Rover) => x.id == id with
      | some r => State.takeSlots c n (s1.seat (c * 16 + slot) r)
      | none => State.takeSlots c n s1
    | _, _ => s

/-- The head of an arrival queue takes a slot (R235). -/
def execArrivalSlotTake (core : CoreId) (s : State) : Out := .next (State.takeSlots core.toNat 32 s)

/-! ### Posted stores (R242) -/

/-- A posted store of w bytes at X[rs1] (R229, R242). -/
def State.post (s : State) (tid : Nat) (t : Thread) (a b : Reg) (w : Nat) : State :=
  let ea := t.reg a
  let core := tidCore tid
  let pl := s.place core t.job ea
  if !aligned ea w then s.trap tid t cMISALIGN ea
  else match pl.addr? with
    | none => s.trap tid t cACCESSFAULT ea
    | some g =>
      let acc : Access := .store w (t.reg b)
      let here := match pl with | .remote _ _ => false | _ => true
      if here && s.hitsInbox g w then s.trap tid t cACCESSFAULT ea
      else if s.unreachable pl then (s.next tid t).fabricStatus t.group g
      else if s.ordinaryOut tid then s.retryWhen tid t .ordinary
      else if (s.core core).cb.any fun e => e.tid.toNat == tid && e.meets g w then
        (s.flushThread tid fun e => e.meets g w).retryWhen tid t (.overlap g w)
      else if s.overlapOut tid g w then s.retryWhen tid t (.overlap g w)
      else match pl with
        | .own _ =>
          match s.performAt g acc with
          | (s1, .ok _) => s1.next tid t
          | (s1, .error c) => s1.trap tid t c ea
        | .tier _ =>
          match s.translate core t.job g true with
          | .miss => s.beginWalk tid t g
          | .fault => (s.useTlb core t.job g).latch tid t g
          | .hit _ => send (s.useTlb core t.job g) tid t g w acc
        | .remote k _ =>
          if rankState (s.rankEntry k) = 1 ∧ 32 ≤ s.heldFor core k then s.retryWhen tid t (.dark k.rank)
          else send s tid t g w acc
        | _ => send s tid t g w acc
where
  /-- The store leaves when a credit is free (R229). -/
  send (s : State) (tid : Nat) (t : Thread) (g w : Nat) (acc : Access) : State :=
    let core := tidCore tid
    if Config.postedCredits ≤ (s.core core).posted then s.retryWhen tid t .credit
    else
      let (s1, _) := s.sendPacket tid t g w acc .posted true [t.reg a]
      ((s1.modCore core fun k => { k with posted := k.posted + 1 }).modGroup t.group fun x =>
        { x with posted := x.posted + 1 }).next tid t

/-- `sdp.w` (R242). -/
def execSdpW (a b : Reg) (s : State) : Out := performing s fun tid t => s.post tid t a b 4

/-- `sdp.d` (R242). -/
def execSdpD (a b : Reg) (s : State) : Out := performing s fun tid t => s.post tid t a b 8

/-! ### `cbf`, `rank` and `drain` (R243 to R245) -/

/-- `cbf` (R243). -/
def execCbf (s : State) : Out :=
  performing s fun tid t =>
    if s.combiningOut tid then (s.flushThread tid fun _ => true).retryWhen tid t .flushed else s.next tid t

/-- Valid ranks of a job's table. -/
def State.validRanks (s : State) (job : BitVec 32) : List Peer :=
  ((List.range 64).map fun k => ({ job := job, rank := BitVec.ofNat 6 k } : Peer)).filter fun p => rankValid (s.rankEntry p)

/-- The other modules of a job. -/
def State.otherRanks (s : State) (job : BitVec 32) : List Peer := (s.validRanks job).filter fun p => !s.isOwn p

/-- What `rank` writes (R244). -/
def State.rankWord (s : State) (job : BitVec 32) (g : Nat) : Word :=
  let (u, l) := match s.group? g with | some x => (x.unrcnt.toNat, x.ulast.toNat) | none => (0, 0)
  BitVec.ofNat 64 (u * 2 ^ 24 + l * 2 ^ 16 + (s.validRanks job).length * 2 ^ 8 + (s.ownRank job).toNat)

/-- `rank xd` (R244). -/
def execRank (d : Reg) (s : State) : Out :=
  performing s fun tid t => s.writeReg tid t d (s.rankWord t.job t.group) false

/-- The thread's posted stores and combining entries, and toward another rank its relaxed accesses, that `drain`
of rank k waits for (R245). -/
def State.drainPending (s : State) (tid : Nat) (k : Peer) : Bool :=
  ((s.packetsOf tid).any fun p => s.onRank p.addr k
      && (p.cls == .posted || p.cls == .combining || (!s.isOwn k && p.cls == .relaxed)))
    || (s.core (tidCore tid)).cb.any fun e => e.tid.toNat == tid && s.onRank e.block k

/-- A marker of a drain notice, which is no group's, from a core toward a rank (R237) (DEDUCED 75). -/
def State.emitMarker (s : State) (core : Nat) (k : Peer) : State :=
  let c := BitVec.ofNat 12 core
  let t := s.rankRange k
  { s.bump with markers := s.markers ++ [(c, k, s.fresh)] }.schedule (s.time + s.pick t.1 t.2) (.drainMarkerAck c k)

/-- A marker of a `drain` leaves its port when the bucket of its thread's class allows it (R223, R237, R245) (DEDUCED 75). -/
def State.markerOut (s : State) (core : CoreId) (rank : Peer) (cls since : Nat) : State :=
  if !s.markers.elem (core, rank, since) then s
  else match s.portTry core.toNat cls since 1 with
    | .error again => s.schedule again (.markerSend core rank cls since)
    | .ok k =>
      let t := s.rankRange rank
      (s.bump.setCore core.toNat k).schedule (s.time + s.pick t.1 t.2) (.drainMarkerAck core rank)

/-- The marker of a thread's `drain` toward a rank (R223, R237, R245) (DEDUCED 75). -/
def State.drainMarker (s : State) (tid : Nat) (k : Peer) : State :=
  let c := BitVec.ofNat 12 (tidCore tid)
  { s.bump with markers := s.markers ++ [(c, k, s.fresh)] }.markerOut c k (s.threadClass tid) s.fresh

/-- `drain` of one rank has nothing left to wait for (R245). -/
def State.drained (s : State) (tid : Nat) (k : Peer) : Bool :=
  rankState (s.rankEntry k) == 2 && !s.isOwn k
    || (!s.drainPending tid k && !(s.markers.any fun m => m.1.toNat == tidCore tid && m.2.1 == k))

/-- Ranks that a `drain` of a thread of a job covers. -/
def State.drainRanks (s : State) (job : BitVec 32) : Option (BitVec 6) → List Peer
  | some k => [{ job := job, rank := k }]
  | none => s.validRanks job

/-- A `drain` in progress is complete. -/
def State.drainDone (s : State) (tid : Nat) (r : Option (BitVec 6)) : Bool :=
  (s.drainRanks (s.jobOf tid) r).all (s.drained tid)

/-- A core has packets or messages outstanding toward a rank (DEDUCED 75). -/
def State.outToward (s : State) (core : Nat) (k : Peer) : Bool :=
  (s.packets.any fun p => p.core.toNat == core && onPeer p.addr k) || (s.core core).outq.any fun m => m.2.peer == k

/-- `drain` of ranks: the entries are flushed, a marker goes toward each other rank that is up or dark unless nothing
is outstanding toward it, and the thread waits (R245) (DEDUCED 75). -/
def State.beginDrain (s : State) (tid : Nat) (t : Thread) (r : Option (BitVec 6)) : State :=
  let ks := s.drainRanks t.job r
  let s1 := s.flushThread tid fun e => ks.any (s.onRank e.block)
  let s2 := (ks.filter fun k =>
      !s.isOwn k && rankState (s.rankEntry k) != 2 && s1.outToward (tidCore tid) k).foldl
    (fun u k => u.drainMarker tid k) s1
  if s2.drainDone tid r then s2.next tid t else s2.retryWhen tid t (.drain r)

/-- `drain xa` (R245). -/
def execDrain (a : Reg) (s : State) : Out :=
  performing s fun tid t =>
    let k := t.reg a
    if k = BitVec.allOnes 64 then s.beginDrain tid t none
    else if k.toNat < 64 ∧ rankValid (s.rankEntry { job := t.job, rank := k.setWidth 6 }) then s.beginDrain tid t (some (k.setWidth 6))
    else s.trap tid t cACCESSFAULT k

/-! ### Relaxed pairs (R96 to R98, R207) -/

/-- The ILLEGAL trap of a pair: EVAL holds both words (R66, R98). -/
def State.illegalPair (s : State) (tid : Nat) (t : Thread) (second : BitVec 32) : State :=
  s.trap tid t cILLEGAL ((second ++ 0x7B#32 : BitVec 64))

/-- The second word of a pair, performed as a relaxed access (R97, R98). -/
def State.relaxedOp (s : State) (tid : Nat) (t : Thread) (second : BitVec 32) : Instr → State
  | .lb d a i => s.load tid t true false d a i 1 true
  | .lh d a i => s.load tid t true false d a i 2 true
  | .lw d a i => s.load tid t true false d a i 4 true
  | .ld d a i => s.load tid t true false d a i 8 true
  | .lbu d a i => s.load tid t true false d a i 1 false
  | .lhu d a i => s.load tid t true false d a i 2 false
  | .lwu d a i => s.load tid t true false d a i 4 false
  | .sb a b i => s.store tid t true a b i 1
  | .sh a b i => s.store tid t true a b i 2
  | .sw a b i => s.store tid t true a b i 4
  | .sd a b i => s.store tid t true a b i 8
  | .lconW d a i => s.load tid t true true d a i 4 true
  | .lconD d a i => s.load tid t true true d a i 8 true
  | .amoAddW d a b => s.amo tid t true .add 4 d a b
  | .amoAddD d a b => s.amo tid t true .add 8 d a b
  | .amoAndW d a b => s.amo tid t true .and 4 d a b
  | .amoAndD d a b => s.amo tid t true .and 8 d a b
  | .amoOrW d a b => s.amo tid t true .or 4 d a b
  | .amoOrD d a b => s.amo tid t true .or 8 d a b
  | .amoXorW d a b => s.amo tid t true .xor 4 d a b
  | .amoXorD d a b => s.amo tid t true .xor 8 d a b
  | .amoMinW d a b => s.amo tid t true .min 4 d a b
  | .amoMinD d a b => s.amo tid t true .min 8 d a b
  | .amoMaxW d a b => s.amo tid t true .max 4 d a b
  | .amoMaxD d a b => s.amo tid t true .max 8 d a b
  | .amoMinuW d a b => s.amo tid t true .minu 4 d a b
  | .amoMinuD d a b => s.amo tid t true .minu 8 d a b
  | .amoMaxuW d a b => s.amo tid t true .maxu 4 d a b
  | .amoMaxuD d a b => s.amo tid t true .maxu 8 d a b
  | .amoSwapW d a b => s.amo tid t true .swap 4 d a b
  | .amoSwapD d a b => s.amo tid t true .swap 8 d a b
  | .amoCasW d a b => s.amo tid t true .cas 4 d a b
  | .amoCasD d a b => s.amo tid t true .cas 8 d a b
  | .vld v a o y _ => s.vmem tid t true false v a o y
  | .vst v a o y _ => s.vmem tid t true true v a o y
  | .vlds v a b el _ => s.vstride tid t true false v a b el
  | .vsts v a b el _ => s.vstride tid t true true v a b el
  | .vgat v a b el _ => s.vindex tid t true false v a b el
  | .vsca v a b el _ => s.vindex tid t true true v a b el
  | .vldD v a o y _ => s.vunit tid t true false v a o y
  | .vstE v a o y _ => s.vunit tid t true true v a o y
  | _ => s.illegalPair tid t second

/-- `rlx` with the word that follows it: an ineligible word makes the pair ILLEGAL (R97). -/
def execRlx (second : BitVec 32) (s : State) : Out :=
  performing s fun tid t =>
    match decodeWord second with
    | .ok i => if i.rlxEligible then s.relaxedOp tid t second i else s.illegalPair tid t second
    | .error _ => s.illegalPair tid t second

end Sys2Proof.Machine
end

