-- ==== Sys2Proof/Machine/Fabric.lean ====
section
/-! DEFINITION. The fabric: injection and regulation of packets (R217, R223, R225), their arrival at the owner and
their return (R192, R199, R229), parking and cancelling (R199, R201), translation and paging (R189), the instruction
cache (R171), reconfiguration of ranks (R220, R237) and links (R224). -/

set_option Elab.async false

namespace Sys2Proof.Machine

/-! ### Requests to halt and to release (R415, R441) -/

/-- A HOLD reaches a thread id: a thread of the job that is not at a root halt halts, and a rover on its way to a
slot halts when it takes one (R235, R415) (DEDUCED 79). -/
def State.holdAt (s : State) (tid : Nat) (job : Option (BitVec 32)) : State :=
  match s.thread? tid with
  | some t => if job.all (fun j => j == t.job) && t.run != .root then s.rootHalt tid .hold else s
  | none =>
    { s with rovers := s.rovers.map fun (r : Rover) =>
        if r.last.toNat = tid ∧ job.all (fun j => j == r.thread.job) then { r with held := true } else r }

/-- A release reaches a thread id (R415) (DEDUCED 79). -/
def State.releaseAt (s : State) (tid : Nat) (job : Option (BitVec 32)) : State :=
  match s.thread? tid with
  | some t => if job.all (fun j => j == t.job) && t.run == .root then s.releaseRoot tid else s
  | none => s

/-- A request of the house cores for a thread is logged: 0 for `hold` and 1 for `rel`, or an event that they inject, with 2 in bits 7:0,
its code in bits 15:8 and its value (R418) (DESIGN CHOICE 72). -/
def State.logRequest (s : State) (tid : Nat) (v0 v1 : Word) : State := match s.thread? tid with
  | some t => s.logItem tid t 4#8 v0 v1
  | none => s

/-- An interrupt of the log takes effect (R418) (DESIGN CHOICE 72). -/
def State.replayItem (s : State) (r : ReplayItem) : State :=
  let tid := (r.gtid.extractLsb' 0 16).toNat
  let what := r.value0.extractLsb' 0 8
  if r.kind ≠ 4#8 then s
  else if what = 0#8 then s.holdAt tid none
  else if what = 1#8 then s.releaseAt tid none
  else if what = 2#8 then s.postEvent tid { code := r.value0.extractLsb' 8 8, eval := r.value1 }
  else s

/-- Items of the log are delivered to the threads whose INSTRET has reached their stamps: interrupts take effect, and what a network
arrival or a storage completion wrote has come as an input. Timer values and serves wait for their reads and serves (R418) (DESIGN CHOICE 72). -/
def State.replayDue (s : State) : State :=
  let due := fun (r : ReplayItem) => r.kind != 1#8 && r.kind != 5#8 && r.gtid == s.gtid (r.gtid.extractLsb' 0 16).toNat
    && match s.thread? (r.gtid.extractLsb' 0 16).toNat with
       | some t => decide (r.instret.toNat ≤ t.instret.toNat)
       | none => false
  (s.replayIn.filter due).foldl State.replayItem { s with replayIn := s.replayIn.filter fun r => !due r }

/-! ### Reaching the owner -/

/-- An access with every address followed through the forwarding entries (R375). -/
def Access.follow (f : Nat → Nat) : Access → Access
  | .vgather d el l => .vgather d el (l.map f)
  | .vscatter el l d => .vscatter el (l.map f) d
  | .flush l => .flush (l.map fun x => (f x.1, x.2))
  | .sync a => .sync { a with addr := f a.addr }
  | x => x

/-- How a packet fares at its target: it is performed, it is held for a dark rank, or it is unreachable (R22,
R237). -/
inductive Reach where
  | go
  | held
  | lost
  deriving DecidableEq, Repr

/-- The reach of an address of this module: a core may be lost (R22), and a CXL fault holds a page (R190). -/
def State.reachHere (s : State) (a : Nat) : Reach :=
  if isSpad a ∧ (s.core (s.forwardCore 4 (spadCore a))).lost then .lost
  else if s.cxlFault a then .held
  else .go

/-- The reach of an address as a packet is injected. -/
def State.reach (s : State) (a : Nat) : Reach :=
  if 2 ^ 62 ≤ a then
    let st := rankState (s.rankEntry (addrPeer a))
    if st = 1 then .held else if st = 2 then .lost else .go
  else s.reachHere a

/-- The reach of an address at its owner: the rank table is not read again for a packet that has been injected (R221). -/
def State.reachAt (s : State) (a : Nat) : Reach := if 2 ^ 62 ≤ a then .go else s.reachHere a

/-- The reach of a packet by that of every piece that it touches, with the piece that decides (R190, R237). -/
def Packet.reach (p : Packet) (f : Nat → Reach) : Reach × Nat :=
  let ps := p.addr :: (p.acc.pieces p.addr).map (·.1)
  match ps.find? (fun a => f a == .lost), ps.find? (fun a => f a == .held) with
  | some a, _ => (.lost, a)
  | none, some a => (.held, a)
  | none, none => (.go, p.addr)

/-- A packet is held in its core's outbound queue, or at the hub, behind those held before it (R190, R237). -/
def State.holdPacket (s : State) (p : Packet) : State :=
  { s with packets := s.packets.filter (fun (q : Packet) => q.id != p.id) ++ [{ p with held := true, retry := p.sent, sent := false }] }

/-- The thread waits for a packet. -/
def Thread.waitsFor (t : Thread) (id : Nat) : Bool := match t.wait with
  | some w => match w.what with
    | .access p => p == id
    | .parked p _ => p == id
    | _ => false
  | none => false

/-- A packet that may not go on: toward a dark rank it is held; on a page with a CXL fault the ordinary access that its thread waits
for is latched, and any other is held at the hub (R189, R190, R237) (DEDUCED 66). -/
def State.stopPacket (s : State) (p : Packet) (a : Nat) : State :=
  match s.thread? p.tid.toNat with
  | some t =>
    if a < 2 ^ 62 ∧ p.cls = .ordinary ∧ t.waitsFor p.id then
      { s with packets := s.packets.filter fun (q : Packet) => q.id != p.id }.setThread p.tid.toNat
        { t with wait := t.wait.map fun (w : Wait) => { w with what := .latched a } }
    else s.holdPacket p
  | none => s.holdPacket p

/-- The piece of an access that fails with a cause code (R188, R250, R237). -/
def State.failIndex (s : State) (a : Nat) (acc : Access) (c : BitVec 8) : Nat :=
  ((acc.pieces a).findIdx? fun q =>
    if c = cMEMERR then s.memErr q.1 q.2 else if c = cACCESSFAULT then s.hitsInbox q.1 q.2 else s.reach q.1 == .lost).getD 0

/-- The address, as the instruction gave it, at which a packet failed (R188, R237). -/
def Packet.evalAt (p : Packet) : Word := (p.evals[p.failAt]?).getD (p.evals.headD (BitVec.ofNat 64 p.addr))

/-- The packet completes UNREACHABLE; a flush gives up its entry (R226, R237). -/
def State.failPacket (s0 : State) (p : Packet) : State :=
  let s := s0.modPacket p.id fun q => { q with failAt := s0.failIndex p.addr p.acc cFABUNREACH }
  let s1 := if p.cls = .combining then
      s.modCore p.core.toNat fun k => { k with cb := k.cb.filter fun (e : CbEntry) => e.id != p.id } else s
  s1.replyTo { p with held := false, parked := false } (.error cFABUNREACH)

/-- The step in which a packet reaches its owner. -/
def Packet.arrival (p : Packet) : Due := match p.acc with
  | .sync _ => .parkArrival p.id
  | _ => .remoteAccessArrival p.id

/-- The packet travels to its owner (R217, R218, R219). -/
def State.launch (s : State) (p : Packet) : State :=
  let t0 := s.time + s.oneWay p.core.toNat p.addr (64 * p.units) p.total
  let (s0, due) := if p.ordered then s.onPath p.core.toNat (destKey s p.addr) t0 ((p.acc.parts - 1) / 4 * 4 + (p.acc.parts - 1) % 4) else (s, t0)
  (s0.modPacket p.id fun q => { q with issued := s.time, held := false, retry := false, sent := true }).schedule due p.arrival

/-! ### Injection (R223, R225) -/

/-- A packet waits at its port until the cycle of its next attempt, or until those before it have left; a relaxed one toward another
rank starts the recovery timer (R223, R225). -/
def State.waitAtPort (s : State) (p : Packet) (again : Nat) : State :=
  let s1 := s.scheduleOnce again (.packetInject p.id)
  if !p.ordered && !p.escape && decide (2 ^ 62 ≤ p.addr) then s1.scheduleOnce (s1.time + s1.recovery) (.escapeTimer p.id) else s1

/-- A packet leaves its core's router port, when those of its class before it have left and the bucket of its class allows it
(R223); a flush frees its entry of the combining buffer (R226). -/
def State.inject (s : State) (id : Nat) : State :=
  match s.packets.find? fun (q : Packet) => q.id == id with
  | none => s
  | some p =>
    let c := p.core.toNat
    let cls := s.groupClass p.group
    if !p.waiting then s
    else match p.reach s.reach with
      | (.lost, _) => (s.failPacket p).wakePort c cls
      | (.held, a) => (s.stopPacket p a).wakePort c cls
      | (.go, _) =>
        if ((s.portQueue c cls).head?.map (·.id)) != some id then s.waitAtPort p s.nextRefill
        else match (if p.retry then .ok (s.core c) else s.portTry c cls id p.units) with
          | .ok k =>
            let k1 := if p.cls = .combining then { k with cb := k.cb.filter fun (e : CbEntry) => e.id != p.id } else k
            ((s.setCore c k1).launch p).wakePort c cls
          | .error again => s.waitAtPort p again

/-- PACKET_INJECT (R217, R223). -/
def execPacketInject (packet : Nat) (s : State) : Out := .next (s.inject packet)

/-- Every 1,024 cycles each bucket gains RATE tokens, up to BURST (R223). -/
def Core.refillTokens (k : Core) : Core :=
  let level := fun (i : Fin 4) =>
    min (max 1 (getField (k.fabqos.get i) 24 16)) (k.fabBucket.get i + getField (k.fabqos.get i) 4 16)
  { k with fabBucket := Vector.ofFn level }

/-- TOKEN_REFILL (R223). -/
def execTokenRefill (s : State) : Out :=
  .next { s with cores := s.cores.map fun x => (x.1, x.2.refillTokens) }

/-- A packet performed at its owner; a request for a thread of another rank acts there (R188, R213, R239, R415). A vector access is performed part by part, four parts in a cycle
at most, and what else falls due comes between them (R196) (DESIGN CHOICE 9). -/
def State.performPacket (s : State) (p : Packet) : State :=
  let a := s.forwardAddr p.addr
  let acc := p.acc.follow s.forwardAddr
  let s := if a = p.addr then s else s.touchForward (spadCore p.addr * 16)
  match acc with
  | .request hold tid =>
    let job := (s.group? p.group).map (·.job)
    let n := s.forwardTid 4 tid.toNat
    (if 2 ^ 62 ≤ p.addr then s else if hold then s.holdAt n job else s.releaseAt n job).replyTo p (.ok 0#512)
  | .feSet | .feClr =>
    let (s1, r) := s.performAt a acc
    let s2 := s1.replyTo p r
    if s1.isFull (a / 16) = s.isFull (a / 16) then s2 else s2.handoffAll [a / 16]
  | _ => match s.performPart a acc p.part with
    | (s1, .error c) => (s1.modPacket p.id fun q => { q with failAt := s.failIndex a acc c }).replyTo p (.error c)
    | (s1, .ok v) =>
      let all := p.data ||| v
      if p.part + 1 < acc.parts then
        (s1.modPacket p.id fun q => { q with part := p.part + 1, data := all }).schedule
          (s1.time + if p.part % 4 = 3 then 1 else 0) (.remoteAccessArrival p.id)
      else s1.replyTo p (.ok all)

/-- REMOTE_ACCESS_ARRIVAL (R217, R239). -/
def execRemoteAccessArrival (packet : Nat) (s : State) : Out :=
  .next (match s.packets.find? fun (q : Packet) => q.id == packet with
    | none => s
    | some p => match p.reach s.reachAt with
      | (.lost, _) => s.failPacket p
      | (.held, a) => s.stopPacket p a
      | (.go, _) => if p.held then s else s.performPacket p)

/-! ### Parking (R199, R201, R202) -/

/-- Packets parked at the owner of an address. -/
def State.parkedAt (s : State) (a : Nat) : Nat :=
  (s.packets.filter fun (q : Packet) => q.parked && destKey s q.addr == destKey s a).length

/-- A synchronising access reaches its owner: it is served, its thread halts by dependence, it parks, or it is
refused and resent (R198, R199, R202). -/
def State.parkOrServe (s0 : State) (p : Packet) (q : SyncAccess) : State :=
  let a := { q with addr := s0.forwardAddr q.addr }
  let s := if a.addr = q.addr then s0 else s0.touchForward (spadCore q.addr * 16)
  let tid := p.tid.toNat
  if s.servedAtOnce a then
    let s1 := s.serveWaiter (.parked p a)
    if a.op = .take ∨ a.op = .fill then s1.handoffAll a.granules else s1
  else match s.syncWithheld a, s.thread? tid with
    | some o, some t => if t.run = .live then s.depHalt tid o else
        { s with packets := s.packets.filter fun (x : Packet) => x.id != p.id }
    | _, _ =>
      if Config.parkEntries ≤ s.parkedAt a.addr then s.schedule (s.time + 64) (.parkResend p.id)
      else { s with packets := mapFirst (fun (x : Packet) => x.id == p.id)
                      (fun x => { x with parked := true, order := s.fresh, addr := s.forwardAddr x.addr, acc := .sync a }) s.packets
                    fresh := s.fresh + 1 }

/-- PARK_ARRIVAL (R199). -/
def execParkArrival (packet : Nat) (s : State) : Out :=
  .next (match s.packets.find? fun (q : Packet) => q.id == packet with
    | none => s
    | some p => match p.acc, s.reachAt p.addr with
      | _, .lost => s.failPacket p
      | _, .held => s.holdPacket p
      | .sync q, .go => s.parkOrServe p q
      | _, .go => s)

/-- PARK_RESEND: a refused access is sent again, as a packet of its own (R199, R223). -/
def execParkResend (packet : Nat) (s : State) : Out :=
  .next ((s.modPacket packet fun p => { p with sent := false }).inject packet)

/-- The packet that a thread's parked wait names. -/
def Thread.parkedPacket (t : Thread) : Option Nat := match t.wait with
  | some w => match w.what with
    | .parked p _ => some p
    | _ => none
  | none => none

/-- A cancel leaves its core's port and travels on the ordered path behind the access that it follows (R201, R217, R218, R223). -/
def State.cancelOut (s : State) (tid packet since : Nat) : State :=
  match s.packets.find? fun (q : Packet) => q.id == packet with
  | none => s.schedule s.time (.cancelConfirm (BitVec.ofNat 16 tid))
  | some p =>
    let c := p.core.toNat
    match s.portTry c (s.groupClass p.group) since 1 with
    | .error again => s.schedule again (.cancelSend (BitVec.ofNat 16 tid) packet since)
    | .ok k =>
      let (s1, due) := (s.setCore c k).onPath c (destKey s p.addr) (s.time + p.total / 2) 0
      s1.schedule due (.syncCancel (BitVec.ofNat 16 tid))

/-- SYNC_CANCEL: a cancel reaches the owner; an entry that has been served drops it, and any other is freed and
confirmed, on the ordered path back (R201, R217, R218). -/
def execSyncCancel (tid : BitVec 16) (s : State) : Out :=
  .next (match (s.thread? tid.toNat).bind Thread.parkedPacket with
    | none => s
    | some id => match s.packets.find? fun (q : Packet) => q.id == id with
      | some p =>
        if p.reply.isSome ∨ p.fail.isSome then s
        else
          let (s1, due) := s.onPath (destKey s p.addr) p.core.toNat (s.time + p.total / 2) 0
          { s1 with packets := s1.packets.filter fun (q : Packet) => q.id != id }.schedule due (.cancelConfirm tid)
      | none => s.schedule s.time (.cancelConfirm tid))

/-- CANCEL_CONFIRM: the expired instruction takes SYNCLIMIT; a wait that an event, a halt or a suspension ended
leaves its instruction latched with its count (R201, R370). -/
def execCancelConfirm (tid : BitVec 16) (s : State) : Out :=
  .next (match s.thread? tid.toNat with
    | none => s
    | some t => match t.wait with
      | none => s
      | some w => match w.what with
        | .parked id _ =>
          if s.packets.any fun (q : Packet) => q.id == id then s
          else if t.run == .live && w.limit.any fun l => decide (l < w.count) then
            s.trapWaited tid.toNat t cSYNCLIMIT w.eval
          else
            let event := !t.inHandler && (t.dlPending || !t.events.isEmpty)
            let keep := t.run != .live || (s.diverting tid.toNat).isSome || !event
            s.setThread tid.toNat { t with wait := none, latch := if keep then t.latch else none, latchCnt := if keep then w.limit.map fun l => (w.count, l) else none }
        | _ => s)

/-! ### Returns (R192, R193, R229, R230) -/

/-- The thread that issued a packet, while it is still there. -/
def State.issuer (s : State) (p : Packet) : Option Thread := match s.thread? p.tid.toNat with
  | some t => if t.group = p.group then some t else none
  | none => none

/-- A packet has returned. -/
def State.dropPacket (s : State) (p : Packet) : State := { s with packets := s.packets.filter fun (q : Packet) => q.id != p.id }

/-- A store, an atomic or a relaxed access that had retired fails: the trap is taken now, with EPC at its
instruction, which counts as not retired (DEDUCED 14). -/
def State.lateTrap (s : State) (p : Packet) (t : Thread) (c : BitVec 8) : State :=
  s.trapLate p.tid.toNat { t with instret := t.instret - 1#64 } c p.evalAt p.pc

/-- The data or the failure of a packet reaches the thread that issued it (DEDUCED 14). -/
def State.deliver (s : State) (p : Packet) (t : Thread) : State :=
  let tid := p.tid.toNat
  match p.fail with
  | none =>
    let v := p.reply.getD 0#512
    if t.waitsFor p.id then
      match p.acc with
      | .sync a => s.completeSync tid t a v 0#6
      | acc => s.finish tid (t.takeData acc v) (t.pc + 4#64) false 0
    else s.setThread tid (t.takeLate p.start p.addr p.acc v)
  | some c =>
    if t.waitsFor p.id then s.trapWaited tid t c p.evalAt
    else if c = cFABUNREACH ∧ p.cls ≠ .ordinary then
      if p.acc.returns then s.postEvent tid { code := c, eval := p.evalAt }
      else s.fabricStatus p.group p.addr
    else s.lateTrap p t c

/-- A packet's return ends it (R192). -/
def State.packetReturns (s : State) (id : Nat) : State :=
  match s.packets.find? fun (q : Packet) => q.id == id with
  | none => s
  | some p =>
    let s1 := s.dropPacket p
    let s2 := match s1.issuer p with
      | some t => s1.deliver p t
      | none => if p.fail = some cFABUNREACH ∧ !p.acc.returns then s1.fabricStatus p.group p.addr else s1
    s2.settleGroup p.group

/-- LOAD_DATA_RETURN (R192, R193). -/
def execLoadDataReturn (packet : Nat) (s : State) : Out := .next (s.packetReturns packet)

/-- STORE_ACKNOWLEDGE (R192, R226) (DEDUCED 14). -/
def execStoreAcknowledge (packet : Nat) (s : State) : Out := .next (s.packetReturns packet)

/-- POSTED_ACK: the credit returns, and the group may end (R229, R159). -/
def execPostedAck (packet : Nat) (s : State) : Out :=
  .next (match s.packets.find? fun (q : Packet) => q.id == packet with
    | none => s
    | some p =>
      let s1 := (s.modCore p.core.toNat fun k => { k with posted := k.posted - 1 }).modGroup p.group fun g => { g with posted := g.posted - 1 }
      s1.packetReturns packet)

/-! ### The combining buffer and the links (R224 to R227) -/

/-- CB_TIMEOUT_FLUSH: an entry flushes 64 cycles after it was allocated (R227). -/
def execCbTimeoutFlush (core : CoreId) (entry : Nat) (s : State) : Out :=
  .next (match (s.core core.toNat).cb.find? fun (e : CbEntry) => e.id == entry with
    | some e => s.flushEntry core.toNat e
    | none => s)

/-- The port that a packet toward a rank uses: the lowest of the entry's PORTS (DESIGN CHOICE 89). -/
def State.portOf (s : State) (rank : Peer) : Nat :=
  let ports := (s.rankEntry rank).extractLsb' 36 12
  ((List.range 12).find? fun i => ports.getLsbD i).getD 0

/-- The state with a port changed. -/
def State.modPort (s : State) (n : Nat) (f : Port → Port) : State :=
  match s.ports[n]? with
  | some p => { s with ports := s.ports.setIfInBounds n (f p) }
  | none => s

/-- ESCAPE_TIMER: a relaxed packet that still waits at its port after the recovery timer moves to the escape channel, and the port
counts it (R225). -/
def execEscapeTimer (packet : Nat) (s : State) : Out :=
  .next (match s.packets.find? fun (q : Packet) => q.id == packet with
    | some p =>
      if p.ordered || p.escape || !p.waiting || decide (p.addr < 2 ^ 62) then s
      else (s.modPacket packet fun q => { q with escape := true }).modPort (s.portOf (addrPeer p.addr)) fun x =>
        { x with escapes := x.escapes + 1 }
    | none => s)

/-- LINK_RETRY: a flit is resent; nothing is lost, duplicated or reordered (R224). -/
def execLinkRetry (port : BitVec 4) (s : State) : Out := .next (s.modPort port.toNat fun x => { x with retries := x.retries + 1 })

/-- LANE_DEGRADE: a port keeps fewer lanes, which the house cores log (R224, R439). -/
def execLaneDegrade (port : BitVec 4) (lanes : BitVec 5) (s : State) : Out :=
  .next ((s.modPort port.toNat fun x => { x with lanes := if lanes.toNat < x.lanes.toNat then lanes else x.lanes }).spared (.lanes port lanes))

/-! ### Ranks (R220, R237, R245) -/

/-- Slots whose oldest outbound message goes to a rank. -/
def State.outboundTo (s : State) (rank : Peer) : List Nat :=
  s.cores.flatMap fun c => (List.range 16).filterMap fun n => match c.2.outHead n with
    | some m => if m.peer = rank ∧ !s.isOwn rank then some (c.1 * 16 + n) else none
    | none => none

/-- DRAIN_MARKER_ACK: the far port acknowledges a marker once every earlier ordered packet of the core toward the
rank has been delivered; a dark rank delays it until relock (R237, R245). -/
def execDrainMarkerAck (core : CoreId) (rank : Peer) (s : State) : Out :=
  .next (match takeFirst (fun (m : CoreId × Peer × Nat) => m.1 == core && m.2.1 == rank) s.markers with
    | none => s
    | some (m, rest) =>
      let st := rankState (s.rankEntry rank)
      let earlier := s.packets.any fun (p : Packet) => p.core == core && p.ordered && onPeer p.addr rank
        && decide (p.id < m.2.2) && p.reply.isNone && p.fail.isNone
      let toRank := fun (n : Nat) => decide (n / 2 ^ 16 = rankAddr rank 0 / 2 ^ 56)
      let last := s.paths.foldl (fun t x => if x.1 == core.toNat && toRank x.2.1 then max t x.2.2 else t) 0
      let offers := s.timed.any fun t => match t.what with
        | .messageSend x n => tidCore x.toNat == core.toNat && decide (n < m.2.2) && (s.outboundTo rank).elem x.toNat
        | _ => false
      if st = 1 then s
      else if st ≠ 2 ∧ (earlier || offers || decide (s.time < last)) then s.schedule (s.time + 16) (.drainMarkerAck core rank)
      else { s with markers := rest })

/-- A rank-table entry written: reserved bits are zero and a STATE of 3 is stored as 2 (R220). -/
def rankStored (v : Word) : Word :=
  let w := v &&& 0xE000FFF0FFFFFFFF#64
  if w.extractLsb' 61 2 = 3#2 then w &&& ~~~(1#64 <<< 61) else w

/-- The state with a job's rank table changed. -/
def State.modTable (s : State) (job : BitVec 32) (f : RankTable → RankTable) : State :=
  { s with ranks := f (s.rankTable job) :: s.ranks.filter fun t => t.job != job }

/-- The state with a rank-table entry written. -/
def State.setRank (s : State) (p : Peer) (v : Word) : State :=
  s.modTable p.job fun t => { t with entries := t.entries.set p.rank.toNat (rankStored v) p.rank.isLt }

/-- The held packets toward a rank, in held order, followed by those of retried flits (R237). -/
def State.heldToward (s : State) (rank : Peer) : List Packet :=
  let l := s.packets.filter fun (p : Packet) => p.held && onPeer p.addr rank
  l.filter (fun p => !p.retry) ++ l.filter (fun p => p.retry)

/-- A held packet is injected again. -/
def State.releaseHeld (s : State) (p : Packet) : State :=
  (s.modPacket p.id fun q => { q with held := false }).schedule (s.time + 1) (.packetInject p.id)

/-- The relaxed packets on their way to a rank that goes dark are kept in the links' retry buffers (R224, R237). -/
def State.keepRetried (s : State) (rank : Peer) : State :=
  let mine := fun (p : Packet) => p.sent && !p.ordered && onPeer p.addr rank && p.reply.isNone
    && p.fail.isNone
  let ids := (s.packets.filter mine).map (·.id)
  { s with
    packets := s.packets.map fun p => if mine p then { p with held := true, retry := true, sent := false } else p
    timed := s.timed.filter fun t => match t.what with | .remoteAccessArrival i => !ids.elem i | _ => true }

/-- A rank is up again: held packets are injected in held order, messages are offered, copies go on, and markers
are acknowledged (R237). -/
def State.rankUp (s : State) (rank : Peer) : State :=
  let l := s.heldToward rank
  let s0 := { s with packets := s.packets.filter (fun (p : Packet) => !l.any fun q => q.id == p.id) ++ l }
  let s1 := l.foldl State.releaseHeld s0
  let s2 := (s1.outboundTo rank).foldl (fun u t => u.sendOut t 0) s1
  let s3 := s2.resumeCopies (fun _ a => onPeer a rank) none
  (s3.markers.filter fun m => m.2.1 == rank).foldl (fun u m => u.schedule (u.time + 16) (.drainMarkerAck m.1 rank)) s3

/-- A rank is lost: held packets complete UNREACHABLE, copies fail, messages are bounced when they are offered, and
markers are forgotten (R237). -/
def State.rankGone (s : State) (rank : Peer) : State :=
  let s1 := (s.heldToward rank).foldl State.failPacket s
  let s2 := (s1.outboundTo rank).foldl (fun u t => u.sendOut t 0) s1
  { s2.resumeCopies (fun _ a => onPeer a rank) (some (7, 0)) with
    markers := s2.markers.filter fun m => m.2.1 != rank }

/-- What a change of an entry's STATE brings. -/
def State.rankChanged (s : State) (rank : Peer) (old : Nat) : State :=
  let new := rankState (s.rankEntry rank)
  if new = old then s else if new = 0 then s.rankUp rank else if new = 2 then s.rankGone rank else s

/-- RANK_TABLE_WRITE by the house cores (R220). -/
def execRankTableWrite (rank : Peer) (value : Word) (s : State) : Out :=
  .next ((s.setRank rank value).rankChanged rank (rankState (s.rankEntry rank)))

/-- The fields STATE, PORTS and coordinates of an entry replaced. -/
def rankWith (e : Word) (state : Nat) (ports : BitVec 12) (x y : BitVec 8) : Word :=
  putField (putField (putField (putField e 61 2 state) 36 12 ports.toNat) 8 8 y.toNat) 0 8 x.toNat

/-- RANK_DARK: once every marker toward the rank has been acknowledged, its STATE becomes 1 (R237). -/
def execRankDark (rank : Peer) (s : State) : Out :=
  .next (if s.isOwn rank ∨ s.markers.any (fun m => m.2.1 == rank) then s
    else (s.keepRetried rank).setRank rank (putField (s.rankEntry rank) 61 2 1))

/-- RELOCK: new PORTS and coordinates, STATE 0 (R237). -/
def execRelock (rank : Peer) (ports : BitVec 12) (x y : BitVec 8) (s : State) : Out :=
  .next (let e := s.rankEntry rank
    (s.setRank rank (rankWith e 0 ports x y)).rankChanged rank (rankState e))

/-- RANK_LOSS: STATE becomes 2 (R237). -/
def execRankLoss (rank : Peer) (s : State) : Out :=
  .next (if s.isOwn rank then s else
    let e := s.rankEntry rank
    (s.setRank rank (putField e 61 2 2)).rankChanged rank (rankState e))

/-- LOST_CORE: the cluster's spare takes the core over when it is unused; otherwise the core id names no core, and
what is parked there or on its way is unreachable (R12, R22) (DEDUCED 60). -/
def execLostCore (core : CoreId) (s : State) : Out :=
  .next (let n := coreCluster core.toNat
    if !(s.cluster n).spareUsed then (s.modCluster n fun k => { k with spareUsed := true }).spared (.core core)
    else
      let s1 := s.modCore core.toNat fun k => { k with lost := true }
      (s1.packets.filter fun (p : Packet) => p.parked && isSpad p.addr && spadCore p.addr == core.toNat).foldl State.failPacket s1)

/-! ### Translation, paging and fetch (R171, R189) -/

/-- Threads that wait for a condition on an address change. -/
def State.mapWaiting (s : State) (p : Nat → Thread → Option Thread) : State :=
  s.mapThreads fun tid t => (p tid t).getD t

/-- The lookup of an address of a job ends (of a gang's stream: in the pilot's core): the page enters the core's translation cache and the threads that wait for it go on, or
their instructions are latched (R189). -/
def State.walkEnds (s : State) (core : Nat) (job : BitVec 32) (a : Nat) : State :=
  let found := s.pageOf job a
  let s1 := match found with
    | some p => s.modCore core fun k => { k with tlb := touchTlb p k.tlb }
    | none => s
  let member := fun (tid : Nat) (t : Thread) => t.gang.any fun g => g.attached && coreCluster (tidCore tid) == coreCluster core
  s1.mapWaiting fun tid t =>
    if t.job ≠ job ∨ (tidCore tid ≠ core ∧ !member tid t) then none
    else match t.wait with
      | some w => if w.what = .walk a then
          some (match found with
            | some _ => { t with wait := none, latchCnt := none }
            | none => { t with wait := some { w with what := .latched a } })
        else none
      | none => none

/-- TRANSLATION_WALK (R189). -/
def execTranslationWalk (core : CoreId) (addr : JobAddr) (s : State) : Out :=
  .next (s.walkEnds core.toNat addr.job addr.addr.toNat)

/-- A page of the sizes of R189, in tiered memory. -/
def pageOk (p : PageRec) : Bool :=
  (p.size == 2 ^ 16 || p.size == 2 ^ 21 || p.size == 2 ^ 30) && p.base % p.size == 0 && isTier p.base && decide (p.base + p.size ≤ tierEnd)

/-- Threads whose job and latched address satisfy a condition execute their instruction again (R189). -/
def State.wakeLatched (s : State) (p : BitVec 32 → Nat → Bool) : State :=
  s.mapWaiting fun _ t => match t.wait with
    | some w => match w.what with
      | .latched a => if p t.job a then some { t with wait := none, readyAt := max t.readyAt (s.time + 3) } else none
      | _ => none
    | none => none

/-- A page is served again after a CXL fault: held requests are replayed, and latched instructions and paused copies go on
(R190). -/
def State.cxlServed (s : State) (page : Nat) : State :=
  let mine := fun (a : Nat) => s.pages.any fun p => p.base == page && pageHolds p a
  let s1 := (s.packets.filter fun (p : Packet) => p.held && decide (p.addr < 2 ^ 62) && mine p.addr).foldl State.releaseHeld s
  (s1.wakeLatched fun _ => mine).resumeCopies (fun _ => mine) none

/-- A tier-1 page fits on its home die: 24 channels of 16 GB, less the retired ones, of which the die covers two (R434). -/
def State.fits (s : State) (page : PageRec) : Bool :=
  let n := (s.die page.home.toNat).retired.length
  let others := s.pages.filter fun p => !p.tier2 && p.home == page.home && p.base != page.base
  let used := ((others.map fun p => (p.base, p.size)).eraseDups.map (·.2)).sum
  page.tier2 || (decide (n ≤ 2) && decide (used + page.size ≤ (24 - n) * 2 ^ 34))

/-- A page of a job mapped: the job's latched instructions and paused copies that it holds go on (R189, R339). -/
def State.mapPage (s : State) (page : PageRec) : State :=
  if !pageOk page || !s.fits page then s
  else
    let inside := fun (r : Nat × Nat) => decide (page.base ≤ r.1) && decide (r.1 + r.2 ≤ page.base + page.size)
    let s1 := { s with pages := page :: s.pages.filter (fun (p : PageRec) => p.job != page.job || p.base != page.base)
                       released := s.released.filter fun r => !inside r }
    let mine := fun (job : BitVec 32) (a : Nat) => job == page.job && pageHolds page a
    (s1.wakeLatched mine).resumeCopies mine none

/-- PAGE_MAP: the house cores map a page for a job (R189). -/
def execPageMap (page : PageRec) (s : State) : Out := .next (s.mapPage page)

/-- PAGE_REFUSE: the house cores refuse a job an address, with its 64 KB: latched instructions raise an access fault, and
paused copies end with PAGEREF (R189, R339) (DEDUCED 19). -/
def execPageRefuse (addr : JobAddr) (s : State) : Out :=
  .next (let near := fun (job : BitVec 32) (a : Nat) => job == addr.job && decide (a / 2 ^ 16 = addr.addr.toNat / 2 ^ 16)
    let keys := s.threads.filterMap fun x => match x.2.wait with
      | some w => match w.what with
        | .latched a => if near x.2.job a then some (refusalKey x.1 a) else none
        | _ => none
      | none => none
    ({ s with refused := s.refused ++ keys }.wakeLatched near).resumeCopies near (some (3, 9)))

/-- Pages leave their tables and the translation cache of every core (R189) (DESIGN CHOICE 96). -/
def State.withdrawPages (s : State) (p : BitVec 32 → Nat → Bool) : State :=
  { s with pages := s.pages.filter fun (x : PageRec) => !p x.job x.base
           cores := s.cores.map fun x => (x.1, { x.2 with tlb := x.2.tlb.filter fun y => !p y.1 y.2 }) }

/-- MAPPING_WITHDRAW: a page leaves a job's page table (R189). -/
def execMappingWithdraw (base : JobAddr) (s : State) : Out :=
  .next (s.withdrawPages fun job b => job == base.job && b == base.addr.toNat)

/-- Lines that an instruction cache holds: 64 KB of 128 bytes (R171) (DESIGN CHOICE 13). -/
def icacheLines : Nat := 512

/-- ICACHE_LINE_FILL: a line of 128 bytes enters the cluster's instruction cache, and the fetches that wait for it
go on (R171) (DESIGN CHOICE 13). -/
def execIcacheLineFill (cluster : BitVec 9) (line : Nat) (s : State) : Out :=
  .next (
    let bad := s.cxlFault (128 * line)
    let s1 := if bad then s else s.modCluster cluster.toNat fun k =>
      { k with icache := (line :: k.icache.filter (· != line)).take icacheLines }
    s1.mapWaiting fun tid t =>
      if coreCluster (tidCore tid) ≠ cluster.toNat then none
      else match t.wait with
        | some w =>
          if w.what ≠ .line line then none
          else if bad then
            some { t with wait := some { w with what := .latched (if t.pc.toNat / 128 = line then t.pc.toNat else t.pc.toNat + 4) } }
          else some { t with wait := none, latchCnt := none }
        | none => none)

/-! ### Ticks, deadlines and limits (R4, R173, R184, R200) -/

/-- A wait with a limit counts one tick; none when the limit does not count (R200). -/
def Wait.counted (w : Wait) : Option Wait :=
  if w.limit.isSome ∧ !w.cancel then some { w with count := w.count + 1 } else none

/-- A tick passes for one thread (R173, R200) (DEDUCED 12). -/
def State.tickThread (s : State) (tid : Nat) : State :=
  match s.thread? tid with
  | none => s
  | some t =>
    let s1 := s.checkDline tid
    match t.run, t.wait.bind Wait.counted with
    | .live, some w =>
      let s2 := s1.setThread tid { t with wait := some w }
      if w.limit.any fun l => decide (l < w.count) then s2.schedule (s2.time + 1) (.waitLimitExpiry (BitVec.ofNat 16 tid)) else s2
    | _, _ => s1

/-- TICK_ADVANCE: every wait counts, deadlines fall due (R4, R173, R200) (DEDUCED 12). -/
def execTickAdvance (s : State) : Out := .next (s.threads.foldl (fun u x => u.tickThread x.1) s)

/-- A deadline fires: ARMED is cleared, the event is pending, and a wait outside a handler ends (R173) (DEDUCED 64). -/
def State.fireDeadline (s : State) (tid : Nat) : State :=
  match s.thread? tid with
  | none => s
  | some t =>
    if t.dline.getLsbD 63 ∧ (t.dline.extractLsb' 0 63).toNat ≤ s.tick then
      let u := { t with dline := t.dline &&& 0x7FFFFFFFFFFFFFFF#64, dlPending := true, dlTicks := t.dline &&& 0x7FFFFFFFFFFFFFFF#64 }
      let s1 := s.setThread tid u
      if t.inHandler then s1 else s1.endWait tid true
    else s

/-- DEADLINE_FIRE (R173). -/
def execDeadlineFire (tid : BitVec 16) (s : State) : Out := .next (s.fireDeadline tid.toNat)

/-- SLEEP_EXPIRY: TIME has reached the target; a sleep that expires during a halt is complete at release (R184) (DESIGN CHOICE 7). -/
def execSleepExpiry (tid : BitVec 16) (s : State) : Out :=
  .next (match s.thread? tid.toNat with
    | some t => match t.wait with
      | some w => match w.what with
        | .sleep u => if u ≤ s.time then s.finish tid.toNat t (t.pc + 4#64) false 0 else s
        | _ => s
      | none => s
    | none => s)

/-- WAIT_LIMIT_EXPIRY: the count has passed the limit: SYNCLIMIT, at once for a local wait and once its cancel is
confirmed for a parked one (R200, R201, R236) (DEDUCED 12). -/
def State.expire (s : State) (tid : Nat) : State :=
  match s.thread? tid with
  | none => s
  | some t => match t.run, t.wait with
    | .live, some w =>
      if w.limit.any fun l => decide (l < w.count) then
        match w.what with
        | .parked _ _ => s.withdrawParked tid
        | .offer r => (s.dropRover r).trapWaited tid t cSYNCLIMIT w.eval
        | _ => s.trapWaited tid t cSYNCLIMIT w.eval
      else s
    | _, _ => s

/-- WAIT_LIMIT_EXPIRY (R200, R201) (DESIGN CHOICE 7). -/
def execWaitLimitExpiry (tid : BitVec 16) (s : State) : Out := .next (s.expire tid.toNat)

/-- VECTOR_RESULT_WRITE: results whose cycle has come are written, unless a window still covers them (R276). -/
def execVectorResultWrite (tid : BitVec 16) (s : State) : Out := .next (s.modThread tid.toNat fun t => t.land s.time)

end Sys2Proof.Machine
end

