-- ==== Sys2Proof/Machine/Pour.lean ====
section
/-! DEFINITION. The Pour: the cup (R256), the frames and what every station does with them (R254, R255, R258 to
R263, R359, R375), domain barriers (R262), and RESYNC (R259). -/

set_option Elab.async false

namespace Sys2Proof.Machine

/-! ### Emission (R19, R256) -/

/-- Cycles from a frame's emission to its application at every station: 12 ns (R256) (DESIGN CHOICE 77). -/
def applyCycles : Nat := 15

/-- The time at which the cup next reaches a station, in 520ths of 0.4 ns: an empty circuit of the 520 stations takes 2.4 ns, and
the cup goes on while no station has a frame to send (R19) (DESIGN CHOICE 77). -/
def State.cupReach (s : State) (n : Nat) : Nat :=
  let r := s.cupTime + 6 * ((n + 520 - s.cup.toNat) % 520)
  r + (1040 * s.time - r + 3119) / 3120 * 3120

/-- The station that captures the cup next: of those with a frame that may leave, the one that the cup reaches first (R19, R256). -/
def State.nextCapture (s : State) : Option Nat :=
  let ready := s.emit.filter fun (x : Nat × List QFrame) => x.2.head?.any fun q => decide (q.due ≤ s.time)
  oldest (ready.map fun x => (s.cupReach x.1, x.1))

/-- The cup is captured in this cycle when it reaches the next such station in it (R19). -/
def State.cupTurn (s : State) : State := match s.nextCapture with
  | some n => if s.cupReach n < 1040 * (s.time + 1) then s.scheduleOnce s.time (.cupCapture (BitVec.ofNat 10 n)) else s
  | none => s

/-- A capture of the cup: the station emits the first two frames of its queue, those that may leave, in queue order, 0.4 ns for each,
and the cup goes on (R19, R256) (DESIGN CHOICE 77). -/
def State.capture (s : State) (station : Nat) : State :=
  let l := s.emitQ station
  let out := (l.takeWhile fun q => decide (q.due ≤ s.time)).take 2
  let left := l.drop out.length
  let s1 := out.foldl (fun (u : State) (q : QFrame) =>
    { u with pourPos := u.pourPos + 1 }.schedule (u.time + applyCycles) (.frame q.ty q.f)) s
  { s1 with emit := if left.isEmpty then assocErase station s1.emit else assocSet station left s1.emit
            cup := if station + 1 = Config.stationCount then 0#10 else BitVec.ofNat 10 (station + 1)
            cupTime := s.cupReach station + 520 * out.length + 6 }.cupTurn

/-- CUP_CAPTURE (R256). -/
def execCupCapture (station : BitVec 10) (s : State) : Out := .next (s.capture station.toNat)

/-! ### The thread whose frame has been applied -/

/-- The thread of a frame that waits for its application; in a payload of 1, an arrival is a copy engine's own
(R359), and no thread waits for it. A thread that has migrated is found through the forwarding entries (R375). -/
def State.frameWaiter (s : State) (ty : FrameType) (f : Frame) : Option (Nat × Thread × FrameAct) :=
  let old := (f.gtid.extractLsb' 0 16).toNat
  let waits := fun (tid : Nat) => match s.thread? tid with
    | some t => match t.wait with
      | some w => match w.what with
        | .frame y act i => if y = ty ∧ i = f.obj then some (tid, t, act) else none
        | _ => none
      | none => none
    | none => none
  if f.gtid.extractLsb' 16 6 ≠ s.ownRank f.job ∨ (f.station.toNat < 512 ∧ f.station.toNat ≠ coreCluster (tidCore old)) ∨ (ty = .bararr ∧ f.payload ≠ 0#256) then none
  else match waits old with
    | some x => some x
    | none => waits (s.forwardTid 4 old)

/-- The instruction whose frame has been applied is complete; at a station that resynchronises the thread stays
not ready until the end (R259). -/
def State.frameDone (s : State) (tid : Nat) (t : Thread) (extra : Nat) : State :=
  let s1 := s.finish tid { t with readyAt := max t.readyAt (s.time + extra) } (t.pc + 4#64) false 0
  if s.resyncing (coreCluster (tidCore tid)) then
    match s1.thread? tid with
    | some u => s1.retryWhen tid u .resync
    | none => s1
  else s1

/-- The other modules of every job that has a rank table. -/
def State.everyRank (s : State) : List Peer := s.ranks.flatMap fun t => s.otherRanks t.job

/-- Cycles until every one of some ranks that is not unreachable has been reached (parts = 2), or has been reached and has answered (parts = 1) (R246) (DESIGN CHOICE 23). -/
def State.ranksTime (s : State) (l : List Peer) (parts : Nat) : Nat :=
  (l.filter fun k => rankState (s.rankEntry k) != 2).foldl
    (fun m k => max m (s.pick (s.rankRange k).1 (s.rankRange k).2 / parts)) 0

/-! ### Waiters of Pour objects (R257, R261, R265) -/

/-- The waiters of an object that are satisfied go on, 3 cycles later; those of a station that resynchronises wait
for its end (R257, R259). -/
def State.serveObject (s : State) (i : Nat) : State :=
  let o := s.pourObj i
  s.threads.foldl (fun u x => match u.thread? x.1 with
    | none => u
    | some t => match t.run, t.wait with
      | .live, some w =>
        let met : Bool := match w.what with
          | .barrier j p => j.toNat == i && decide (0 < (o.phase - p).toInt)
          | .timeline j v => j.toNat == i && decide (0 ≤ (o.val - v).toInt)
          | _ => false
        if met && !u.resyncing (coreCluster (tidCore x.1)) then
          (u.countServe x.1 (serveKey (u.ownRank t.job) (if o.kind = 1#2 then .barrier (BitVec.ofNat 10 i) else .timeline (BitVec.ofNat 10 i)))).finish x.1
            { t with readyAt := max t.readyAt (u.time + 3) } (t.pc + 4#64) false 0
        else u
      | _, _ => u) s

/-- An object changed: dependants are released or halted, and waiters are served. -/
def State.objectChanged (s : State) (i : Nat) : State := s.settleWithheld.serveObject i

/-- The object with a value: a timeline's VAL lies over the place of a barrier's PHASE (R260) (DEDUCED 62). -/
def PourObj.setVal (o : PourObj) (v : Word) : PourObj := { o with val := v, phase := v.extractLsb' 32 32 }

/-! ### Barrier and timeline frames (R261, R262) -/

/-- Whether an init frame applies (R261). -/
def PourObj.initOk (o : PourObj) (kind : BitVec 2) (job : BitVec 32) : Bool :=
  o.kind == 0#2 || (o.kind == kind && o.job == job && o.wheld == 0 && (kind == 2#2 || o.arr == 0#24))

/-- Fields of a BARINIT payload: barrier dword 0 and PARTIES, in the layout of R260. -/
def initJob (p : BitVec 256) : BitVec 32 := p.extractLsb' 32 32
def initHome (p : BitVec 256) : BitVec 6 := p.extractLsb' 8 6
def initScope (p : BitVec 256) : Bool := p.getLsbD 2
def initParties (p : BitVec 256) : BitVec 24 := p.extractLsb' 64 24

/-- The issuer of an init frame goes on, or is told OBJBUSY (R261); a domain barrier waits for every rank's
acknowledgement (R262). -/
def State.initDone (s : State) (ty : FrameType) (f : Frame) (ok far : Bool) : State :=
  match s.frameWaiter ty f with
  | none => s
  | some (tid, t, _) =>
    if !ok then s.trapWaited tid t cOBJBUSY (f.obj.setWidth 64)
    else if far && !(s.otherRanks f.job).isEmpty then s.bump.schedule (s.time + s.ranksTime (s.otherRanks f.job) 1) (.initAcks f) else s.frameDone tid t 0

/-- Every rank has acknowledged the init of a domain barrier: its issuer goes on; a dark rank delays it until relock (R237, R262) (DEDUCED 51). -/
def State.initAcked (s : State) (f : Frame) : State :=
  if (s.otherRanks f.job).any fun k => rankState (s.rankEntry k) == 1 then s.schedule (s.time + 16) (.initAcks f)
  else match s.frameWaiter .barinit f with
    | some (tid, t, _) => s.frameDone tid t 0
    | none => s

/-- What this module's hub sends to each of some ranks (R262, R375). -/
def State.toOthers (s : State) (l : List Peer) (ty : FrameType) (f : Frame) : State := l.foldl (fun u k => u.toRank k ty f) s

/-- A domain barrier whose home is this rank (R262). -/
def State.homeHere (s : State) (o : PourObj) : Bool := o.kind == 1#2 && o.scope && o.home == s.ownRank o.job

/-- BARINIT at every station; the home hub of a domain barrier sends it to the other ranks (R261, R262) (DESIGN CHOICE 16). -/
def State.applyBarinit (s : State) (f : Frame) : State :=
  let i := f.obj.toNat
  let o := s.pourObj i
  let ok := o.initOk 1#2 (initJob f.payload)
  let s1 := if ok then
      (s.setPour i { o with kind := 1#2, job := initJob f.payload, scope := initScope f.payload, home := initHome f.payload
                            parties := initParties f.payload }).objectChanged i
    else s
  let s2 := if ok && s1.homeHere (s1.pourObj i) then s1.toOthers (s1.otherRanks f.job) .barinit f else s1
  s2.initDone .barinit f ok (initScope f.payload)

/-- The object after one arrival, and whether a phase completed (R261). -/
def PourObj.arrive (o : PourObj) : PourObj × Bool :=
  if o.arr + 1#24 = o.parties then ({ o with arr := 0#24, phase := o.phase + 1#32 }, true)
  else ({ o with arr := o.arr + 1#24 }, false)

/-- The issuer of an arrival records index and phase, and its promise is fulfilled (R203, R270). -/
def State.arrived (s : State) (f : Frame) (phase : BitVec 32) : State :=
  match s.frameWaiter .bararr f with
  | none => s
  | some (tid, t, _) =>
    s.frameDone tid { t.fulfil (.barrier f.obj) with arrRec := some { obj := f.obj, phase := phase } } 0

/-- BARARR at every station; the home hub of a domain barrier acknowledges an arrival from another rank with the phase counted,
and sends a new PHASE to the other ranks (R261, R262) (DESIGN CHOICE 16). -/
def State.applyBararr (s : State) (f : Frame) : State :=
  let i := f.obj.toNat
  let o := s.pourObj i
  let (n, full) := o.arrive
  let s1 := (s.setPour i n).arrived f o.phase
  let from_ : Peer := { job := o.job, rank := f.gtid.extractLsb' 16 6 }
  let s2 := if s.homeHere o && !s.isOwn from_ then s1.toRank from_ .bararr { f with payload := o.phase.setWidth 256 } else s1
  if full then
    let s3 := (s2.finishReduce f.obj o.phase o.parties.toNat).objectChanged i
    if s.homeHere o then s3.toOthers (s.otherRanks o.job) .barphase { f with payload := n.phase.setWidth 256 } else s3
  else s2

/-- BARPHASE: the new PHASE at a rank that is not the barrier's home (R262). -/
def State.applyBarphase (s : State) (f : Frame) : State :=
  let i := f.obj.toNat
  let o := s.pourObj i
  let s1 := s.setPour i { o with phase := f.payload.extractLsb' 0 32 }
  (s1.finishReduce f.obj o.phase o.parties.toNat).objectChanged i

/-- BARWH: the new WHELD at a rank that is not the barrier's home (R262). -/
def State.applyBarwh (s : State) (f : Frame) : State :=
  let i := f.obj.toNat
  (s.setPour i { s.pourObj i with wheld := (f.payload.extractLsb' 0 24).toNat }).objectChanged i

/-- TLINIT: VAL in the payload, with the issuer's job above it; a timeline has module scope only (R261, R271) (DESIGN CHOICE 16, DEDUCED 62). -/
def State.applyTlinit (s : State) (f : Frame) : State :=
  let i := f.obj.toNat
  let o := s.pourObj i
  let job := f.payload.extractLsb' 64 32
  let ok := o.initOk 2#2 job
  let s1 := if ok then (s.setPour i ({ o with kind := 2#2, job := job, scope := false, home := 0#6 }.setVal (f.payload.extractLsb' 0 64))).objectChanged i else s
  s1.initDone .tlinit f ok false

/-- The issuer of a `tl.add` or `tl.set` goes on, and its promise is fulfilled when the value rose (R203, R271) (DEDUCED 62). -/
def State.advanced (s : State) (ty : FrameType) (f : Frame) (fulfils : Bool) : State :=
  match s.frameWaiter ty f with
  | none => s
  | some (tid, t, _) => s.frameDone tid (if fulfils then t.fulfil (.timeline f.obj) else t) 0

/-- TLADD (R261, R271). -/
def State.applyTladd (s : State) (f : Frame) : State :=
  let i := f.obj.toNat
  let o := s.pourObj i
  let inc : Word := f.payload.extractLsb' 0 64
  ((s.setPour i (o.setVal (o.val + inc))).advanced .tladd f (inc != 0#64)).objectChanged i

/-- TLSET (R261, R271). -/
def State.applyTlset (s : State) (f : Frame) : State :=
  let i := f.obj.toNat
  let o := s.pourObj i
  let v : Word := f.payload.extractLsb' 0 64
  ((s.setPour i (o.setVal v)).advanced .tlset f (decide (0 < (v - o.val).toInt))).objectChanged i

/-! ### HOLD and RELEASE (R263) -/

/-- Entries of a withheld table (R263). -/
def withheldEntries : Nat := 1024

/-- The station's count of an object one higher; an entry of a thread that finds the table full is counted for the house cores and
not recorded (R263). -/
def Cluster.raise (k : Cluster) (o : Obj) (gtid : BitVec 22) : Cluster :=
  if k.withheld.any fun e => e.1 == o then
    { k with withheld := k.withheld.map fun e => if e.1 = o then (e.1, e.2 + 1) else e }
  else if k.withheld.length < withheldEntries then { k with withheld := k.withheld ++ [(o, 1)] }
  else { k with missed := k.missed ++ [(o, gtid)], overflow := k.overflow + 1 }

/-- The station's count of an object one lower, unless the thread's HOLD was not recorded (R263). -/
def Cluster.lower (k : Cluster) (o : Obj) (gtid : BitVec 22) : Cluster :=
  if k.missed.elem (o, gtid) then { k with missed := k.missed.erase (o, gtid) }
  else { k with withheld := (k.withheld.map fun e => if e.1 = o then (e.1, e.2 - 1) else e).filter fun e => e.2 != 0 }

/-- One entry of a HOLD or RELEASE frame applied at every station (R263): a domain barrier counts at its home, which tells the
other ranks, and the hub forwards an entry of another rank to that rank (R262). -/
def State.noticeEntry (s : State) (hold : Bool) (f : Frame) (e : BitVec 40) : State :=
  let own : Peer := { job := f.job, rank := s.ownRank f.job }
  let (o, rank) := entryObj own e
  let count := fun (n : Nat) => s.modCluster n fun k => if hold then k.raise o f.gtid else k.lower o f.gtid
  let ty : FrameType := if hold then .hold else .release
  let forward := fun (k : BitVec 6) => s.toRank { job := f.job, rank := k } ty { f with count := 1#3, payload := e.setWidth 256 }
  let pour := fun (i : Nat) =>
    let p := s.pourObj i
    let n := if hold then p.wheld + 1 else p.wheld - 1
    if p.kind = 1#2 ∧ p.scope ∧ p.home ≠ s.ownRank p.job then forward p.home
    else
      let s1 := s.setPour i { p with wheld := n }
      if s.homeHere p then s1.toOthers (s.otherRanks p.job) .barwh { f with obj := BitVec.ofNat 10 i, payload := BitVec.ofNat 256 n } else s1
  if rank ≠ own.rank then forward rank
  else match o with
    | .granule g => count (coreCluster (s.forwardCore 4 (spadCore (g * 16))))
    | .tag gtid _ => count (coreCluster (tidCore (s.forwardTid 4 (gtid.extractLsb' 0 16).toNat)))
    | .barrier i => pour i.toNat
    | .timeline i => pour i.toNat
    | _ => s

/-- The entries of a HOLD or RELEASE frame, and what they release or halt (R263 to R265). -/
def State.applyNotice (s : State) (hold : Bool) (f : Frame) : State :=
  let s1 := (List.range f.count.toNat).foldl (fun u n => u.noticeEntry hold f (payloadEntry f.payload n)) s
  s1.threads.foldl (fun u x => match x.2.wait with
    | some w => match w.what with
      | .barrier i _ => u.serveObject i.toNat
      | _ => u
    | none => u) s1.settleWithheld

/-! ### The other frames -/

/-- A cast for the subscribed cores that a condition names, in ascending order (R255). -/
def State.castTo (s : State) (p : Nat → Bool) (r : CastRec) : State :=
  s.cores.foldl (fun u c => if c.2.subs.getLsbD r.chan.toNat && !c.2.lost && p c.1 then u.deliverCast c.1 r else u) s

/-- CAST: a record for every subscribed core; a station that resynchronises keeps it (R255, R259). -/
def State.applyCast (s : State) (f : Frame) : State :=
  let r : CastRec := { src := f.gtid, chan := BitVec.ofNat 6 (f.obj.toNat % 64), payload := f.payload }
  let s0 := s.castTo (fun c => !s.resyncing (coreCluster c)) r
  let late := fun (x : Nat × Mirror) => if s0.resyncing x.1 then (x.1, { x.2 with casts := x.2.casts ++ [r] }) else x
  let s1 := { s0 with frozen := s0.frozen.map late }
  match s1.frameWaiter .cast f with
  | some (tid, t, _) => s1.frameDone tid t 0
  | none => s1

/-- INBOXCAP: a core id and its new C enter the capacity table (R254) (DESIGN CHOICE 16). -/
def State.applyInboxcap (s : State) (f : Frame) : State :=
  { s with capacity := assocSet (f.payload.extractLsb' 0 12).toNat (f.payload.extractLsb' 64 20).toNat s.capacity }

/-- FWD: every station has the forwarding update, and the hub forwards it to the other ranks; the entry's time without use starts
anew (R375) (DESIGN CHOICE 16). A frame of another rank names that rank's ids and asks nothing more here (DESIGN CHOICE 16, DEDUCED 59). -/
def State.applyFwd (s : State) (f : Frame) : State :=
  if f.gtid.extractLsb' 16 6 ≠ s.ownRank f.job then s else
  let old := f.payload.extractLsb' 0 16
  let whole := f.payload.getLsbD 32
  let n := coreCluster (if whole then old.toNat else tidCore old.toNat)
  let renew := fun (e : Fwd) => if e.src = old ∧ e.whole = whole then { e with last := max e.last s.time, acked := some (s.time + s.ranksTime s.everyRank 2) } else e
  (s.bump.toOthers s.everyRank .fwd f).modCluster n fun k => { k with forward := k.forward.map renew }

/-- DRAIN: every router port emits a marker toward each rank that the payload's low 64 bits name (R237) (DESIGN CHOICE 16). -/
def State.applyDrain (s : State) (f : Frame) : State :=
  let peers := (List.range 64).map fun k => ({ job := f.job, rank := BitVec.ofNat 6 k } : Peer)
  let ranks := peers.filter fun p => f.payload.getLsbD p.rank.toNat && !s.isOwn p
  s.cores.foldl (fun u c => ranks.foldl (fun v k => v.emitMarker c.1 k) u) s

/-- ALLRED: one frame of a contribution has reached every station (R359). -/
def State.applyAllred (s : State) (f : Frame) : State :=
  let due := fun (x : Contribution) => x.obj == f.obj && x.gtid == f.gtid && decide (32 * x.seen < x.count)
  { s with allreds := mapFirst due (fun x => { x with seen := x.seen + 1 }) s.allreds }

/-- OBJFREE: the object returns to KIND 0 (R260) (DEDUCED 63). -/
def State.applyObjfree (s : State) (f : Frame) : State :=
  let i := f.obj.toNat
  (s.setPour i { s.pourObj i with kind := 0#2, arr := 0#24 }).objectChanged i

/-- A frame applied at every station, in Pour order (R256, R258) (DESIGN CHOICE 9). -/
def State.applyFrame (s : State) (ty : FrameType) (f : Frame) : State := match ty with
  | .cast => s.applyCast f
  | .inboxcap => s.applyInboxcap f
  | .barinit => s.applyBarinit f
  | .bararr => s.applyBararr f
  | .barphase => s.applyBarphase f
  | .barwh => s.applyBarwh f
  | .tlinit => s.applyTlinit f
  | .tladd => s.applyTladd f
  | .tlset => s.applyTlset f
  | .hold => s.applyNotice true f
  | .release => s.applyNotice false f
  | .fwd => s.applyFwd f
  | .drain => s.applyDrain f
  | .allred => s.applyAllred f
  | .timealign => s
  | .objfree => s.applyObjfree f

/-- CAST_FRAME (R255). -/
def execCastFrame (f : Frame) (s : State) : Out := .next (s.applyCast f)

/-- INBOXCAP_FRAME (R254). -/
def execInboxcapFrame (f : Frame) (s : State) : Out := .next (s.applyInboxcap f)

/-- BARINIT_FRAME (R261). -/
def execBarinitFrame (f : Frame) (s : State) : Out := .next (s.applyBarinit f)

/-- BARARR_FRAME (R261, R359). -/
def execBararrFrame (f : Frame) (s : State) : Out := .next (s.applyBararr f)

/-- BARPHASE_FRAME (R262). -/
def execBarphaseFrame (f : Frame) (s : State) : Out := .next (s.applyBarphase f)

/-- BARWH_FRAME (R262). -/
def execBarwhFrame (f : Frame) (s : State) : Out := .next (s.applyBarwh f)

/-- TLINIT_FRAME (R261). -/
def execTlinitFrame (f : Frame) (s : State) : Out := .next (s.applyTlinit f)

/-- TLADD_FRAME (R261). -/
def execTladdFrame (f : Frame) (s : State) : Out := .next (s.applyTladd f)

/-- TLSET_FRAME (R261). -/
def execTlsetFrame (f : Frame) (s : State) : Out := .next (s.applyTlset f)

/-- HOLD_FRAME (R263, R264). -/
def execHoldFrame (f : Frame) (s : State) : Out := .next (s.applyNotice true f)

/-- RELEASE_FRAME (R263, R265). -/
def execReleaseFrame (f : Frame) (s : State) : Out := .next (s.applyNotice false f)

/-- FWD_FRAME (R375). -/
def execFwdFrame (f : Frame) (s : State) : Out := .next (s.applyFwd f)

/-- DRAIN_FRAME (R237). -/
def execDrainFrame (f : Frame) (s : State) : Out := .next (s.applyDrain f)

/-- ALLRED_FRAME (R359). -/
def execAllredFrame (f : Frame) (s : State) : Out := .next (s.applyAllred f)

/-- TIMEALIGN_FRAME: TIME is one number in this model, so it is aligned as it stands (R151) (DESIGN CHOICE 10, DESIGN CHOICE 50). -/
def execTimealignFrame (f : Frame) (s : State) : Out :=
  let _ := f
  .next s

/-- OBJFREE_FRAME (R260). -/
def execObjfreeFrame (f : Frame) (s : State) : Out := .next (s.applyObjfree f)

/-! ### Domain barriers (R262) -/

/-- The home hub has acknowledged an arrival of this module: the issuer records the phase counted (R262, R270) (DEDUCED 51). -/
def State.homeAck (s : State) (f : Frame) : State := s.arrived { f with payload := 0#256 } (f.payload.extractLsb' 0 32)

/-- A packet of a domain barrier reaches this module's hub: an acknowledgement for one of its threads, or an init,
an arrival, a new phase or a withheld count that the hub emits as a frame (R262) (DEDUCED 51, DESIGN CHOICE 84). -/
def execDomainBarrierPacket (ty : FrameType) (f : Frame) (s : State) : Out :=
  .next (let o := s.pourObj f.obj.toNat
    if ty = .bararr ∧ o.home ≠ s.ownRank o.job then s.homeAck f
    else s.queueFrame 512 ty (ty == .hold || ty == .release) { f with station := 512#10 } 0)

/-! ### FEC and RESYNC (R259) -/

/-- A station discards a frame and resynchronises: it keeps its tables as they stand, and RESYNC ends within 10 µs (R259) (DEDUCED 76). -/
def State.enterResync (s : State) (station : BitVec 10) : State :=
  let n := station.toNat
  let m : Mirror := { pour := s.pour, capacity := s.capacity, withheld := (s.cluster n).withheld, casts := [], late := [] }
  let s1 := if s.resyncing n then s else { s with resync := s.resync ++ [station], frozen := assocSet n m s.frozen }
  s1.bump.schedule (s1.time + s1.pick 1 12500) (.resyncEnd station)

/-- The place of a frame in pour order comes, and a station cannot correct it: the station discards it and resynchronises, within
10 µs; the other stations apply it; a cast is lost on the subscribed cores of its cluster (R259) (DEDUCED 76). -/
def State.discardFrame (s : State) (station : BitVec 10) (ty : FrameType) (f : Frame) : State :=
  let n := station.toNat
  let ch := f.obj.toNat % 64
  let hit := fun (c : Nat × Core) => coreCluster c.1 == n && c.2.subs.getLsbD ch
  let s1 :=
    if ty = .cast then
      let cut := { s with cores := s.cores.map fun c => if hit c then (c.1, { c.2.drop with subs := c.2.subs &&& ~~~(1#64 <<< ch) }) else c }
      let u := cut.applyCast f
      { u with cores := u.cores.map fun c => if s.cores.any fun x => x.1 == c.1 && hit x then
                 (c.1, { c.2 with subs := c.2.subs ||| (1#64 <<< ch) }) else c
               frozen := u.frozen.map fun x => if x.1 = n then (x.1, (assocGet n s.frozen).getD x.2) else x }
    else s
  let s2 := s1.enterResync station
  if ty = .cast then s2 else s2.applyFrame ty f

/-- UNCORRECTABLE_FRAME: one of the frames on their way is discarded in its place in pour order; a frame that this module has not
emitted comes now (R259, R392) (DEDUCED 76). -/
def execUncorrectableFrame (station : BitVec 10) (ty : FrameType) (f : Frame) (s : State) : Out :=
  .next (if s.timed.any fun t => t.what == .frame ty f then
      { s with timed := mapFirst (fun t => t.what == .frame ty f) (fun t => { t with what := .lostFrame station ty f }) s.timed }
    else s.discardFrame station ty f)

/-! ### Frames as they travel (R258) -/

/-- TYPE of a frame (R258). -/
def frameCode : FrameType → BitVec 8
  | .cast => 0x01#8
  | .inboxcap => 0x02#8
  | .barinit => 0x10#8
  | .bararr => 0x11#8
  | .barphase => 0x12#8
  | .barwh => 0x13#8
  | .tlinit => 0x18#8
  | .tladd => 0x19#8
  | .tlset => 0x1A#8
  | .hold => 0x20#8
  | .release => 0x21#8
  | .fwd => 0x28#8
  | .drain => 0x29#8
  | .allred => 0x30#8
  | .timealign => 0x38#8
  | .objfree => 0x3C#8

/-- Every frame type. -/
def frameTypes : List FrameType :=
  [.cast, .inboxcap, .barinit, .bararr, .barphase, .barwh, .tlinit, .tladd, .tlset, .hold, .release, .fwd, .drain, .allred
   , .timealign, .objfree]

/-- The type that a TYPE value names. -/
def frameOfCode (n : BitVec 8) : Option FrameType := frameTypes.find? fun t => frameCode t == n

/-- The 64-bit header of a frame: TYPE, STATION, OBJ, and in ARG the ROOT bit, the entry count and the thread (R258). -/
def frameHeader (ty : FrameType) (f : Frame) : Word :=
  frameCode ty ++ f.station ++ f.obj ++ 0#10 ++ BitVec.ofBool f.root ++ f.count ++ f.gtid

/-- The frame of a job that a header and a payload say; none for a TYPE that is never emitted. -/
def readHeader (job : BitVec 32) (h : Word) (payload : BitVec 256) : Option (FrameType × Frame) :=
  (frameOfCode (h.extractLsb' 56 8)).map fun ty =>
    (ty, { station := h.extractLsb' 46 10, obj := h.extractLsb' 36 10, gtid := h.extractLsb' 0 22, job := job, count := h.extractLsb' 22 3
           root := h.getLsbD 25, payload := payload })

/-- A station receives a header: one of an unassigned TYPE makes the frame uncorrectable there (R258). -/
def State.receiveHeader (s : State) (station : BitVec 10) (h : Word) : State :=
  if (readHeader 0#32 h 0#256).isNone then s.enterResync station else s

/-- RESYNC_END: the station has applied what it kept, and its mirror stands as every other's; its waiters are served (R259) (DEDUCED 76). -/
def execResyncEnd (station : BitVec 10) (s : State) : Out :=
  .next (let s0 := { s with resync := s.resync.filter (· != station), frozen := s.frozen.filter fun x => x.1 != station.toNat }
    let kept := match assocGet station.toNat s.frozen with | some m => m.casts | none => []
    let s1 := kept.foldl (fun u r => u.castTo (fun c => coreCluster c == station.toNat) r) s0
    (s1.threads.foldl (fun u x => if coreCluster (tidCore x.1) ≠ station.toNat then u
      else match x.2.wait with
        | some w => match w.what with
          | .barrier i _ => u.serveObject i.toNat
          | .timeline i _ => u.serveObject i.toNat
          | _ => u
        | none => u) s1).settleWithheld)

/-- SPARE_WAVELENGTH_SWITCH: the spare replaces a failing wavelength; no frame is lost (R259, R439). -/
def execSpareWavelengthSwitch (wavelength : BitVec 4) (s : State) : Out :=
  .next ({ s with spareWave := some wavelength }.spared (.wavelength wavelength))

end Sys2Proof.Machine
end

