-- ==== Sys2Proof/Machine/Message.lean ====
section
/-! DEFINITION. Messages and offers (R253, R254, R267, R268), casts (R269), barriers (R270) and timelines (R271). -/

set_option Elab.async false

namespace Sys2Proof.Machine

/-! ### Waits that the forms share -/

/-- A release of this chapter: the ordinary store acknowledged, relaxed accesses complete, the combining buffer
empty; posted stores are not waited for (R267). -/
def State.sendWait (s : State) (tid : Nat) (t : Thread) (f : Unit → State) : State := s.releaseWait tid t f

/-- A Pour-frame instruction goes on when its station is not resynchronising and its emit queue has room (R256,
R259). -/
def State.emitWait (s : State) (tid : Nat) (t : Thread) (f : Unit → State) : State :=
  let n := coreCluster (tidCore tid)
  if s.resyncing n then s.retryWhen tid t .resync
  else if s.emitFull n then s.retryWhen tid t .emit
  else f ()

/-- Cycles from the issue of a Pour-frame instruction to the first capture that may take its frame: 24 from issue to application
when nothing else waits (R272). -/
def emitCycles : Nat := 24 - applyCycles

/-- The thread's frame enters its station's emit queue, and the thread waits for its application (R269 to R271). -/
def State.emitFrame (s : State) (tid : Nat) (t : Thread) (ty : FrameType) (act : FrameAct) (i : BitVec 10)
    (payload : BitVec 256) : State :=
  (s.await tid t (.frame ty act i) none (i.setWidth 64)).queueFrame (coreCluster (tidCore tid)) ty false (s.slotFrame tid i payload)
    emitCycles

/-! ### `send` (R267) -/

/-- Capacity of a core's inbox in a station's table (R254, R259): what its INBOXCAP frame said, or the ring of the runtime, which
announced it at its start (R273). -/
def State.capOf (s : State) (station c : Nat) : Nat :=
  let l := match s.frozenAt station with | some m => m.capacity | none => s.capacity
  (assocGet (s.forwardCore 4 c) l).getD (if s.enabled then 4096 else 0)

/-- A destination operand that names no thread of a valid rank (R267, R415). -/
def State.badThread (s : State) (job : BitVec 32) (d : Word) : Bool :=
  d.extractLsb' 22 42 != 0#42 || !rankValid (s.rankEntry { job := job, rank := d.extractLsb' 16 6 })

/-- The message enters the thread's outbound queue; a promise of it is fulfilled (R203, R253). -/
def State.enqueue (s : State) (tid : Nat) (t : Thread) (m : OutMsg) : State :=
  let c := tidCore tid
  let first := (s.core c).outUsed (tidSlot tid) == 0
  let s1 := (s.modCore c fun k => { k with outq := k.outq ++ [(BitVec.ofNat 4 (tidSlot tid), m)] }).next tid
    (t.fulfil (.tag m.dest m.tag))
  if first then s1.sendOut tid 0 else s1

/-- `send xa, vb, tag, len` (R267). -/
def execSend (a : Reg) (b : VReg) (tag : BitVec 4) (len : BitVec 2) (s : State) : Out :=
  performing s fun tid t =>
    let d := t.reg a
    let k : Peer := { job := t.job, rank := d.extractLsb' 16 6 }
    if tag = 15#4 then s.illegal tid t (.send a b tag len)
    else s.withVecs tid t [vdest b] fun _ =>
      if s.badThread t.job d then s.trap tid t cACCESSFAULT d
      else if s.isOwn k ∧ s.capOf (coreCluster (tidCore tid)) (tidCore (d.extractLsb' 0 16).toNat) < 32 + payloadBytes len then
        s.trap tid t cMSGSIZE d
      else s.sendWait tid t fun _ =>
        if !s.isOwn k ∧ rankState (s.rankEntry k) = 1 ∧ 32 ≤ s.heldFor (tidCore tid) k then s.retryWhen tid t (.dark k.rank)
        else if 4 ≤ (s.core (tidCore tid)).outUsed (tidSlot tid) then s.retryWhen tid t .outbound
        else s.enqueue tid t
          { job := t.job, dest := d.setWidth 22, tag := tag, len := len
            payload := BitVec.ofNat 512 ((t.vreg b).toNat % 2 ^ (8 * payloadBytes len)) }

/-! ### `recv`, `peek` and `btag` (R268) -/

/-- A thread reads the head record, or waits for one (R268). -/
def State.withRecord (s : State) (tid : Nat) (t : Thread) (w : WaitFor) (f : State → HeadRec → State) : State :=
  let c := tidCore tid
  let s1 := s.skipPad c
  match s1.headRec c with
  | some r => f s1 r
  | none => s1.awaitOrHalt tid t w (some t.defaultLimit) 0#64

/-- After a record has been popped, queued casts enter the ring (R255). -/
def State.popped (s : State) (c : Nat) : State := (State.drainCasts c 8 s).settleWithheld

/-- `recv xd, vb` (R268). -/
def execRecv (d : Reg) (v : VReg) (s : State) : Out :=
  performing s fun tid t =>
    s.withRecord tid t (.recv d v) fun u r => (u.takeRec tid t true d v r 0).popped (tidCore tid)

/-- `peek xd, vb` (R268). -/
def execPeek (d : Reg) (v : VReg) (s : State) : Out :=
  performing s fun tid t => s.withRecord tid t (.peek d v) fun u r => u.takeRec tid t false d v r 0

/-- `btag off` (R268). -/
def execBtag (off : BitVec 12) (s : State) : Out :=
  performing s fun tid t => s.withRecord tid t (.btag off) fun u r => u.goTag tid t off r 0

/-! ### Casts (R269) -/

/-- `cast xa, vb` (R269). -/
def execCast (a : Reg) (b : VReg) (s : State) : Out :=
  performing s fun tid t =>
    let ch := t.reg a
    s.withVecs tid t [vdest b] fun _ =>
      if 63 < ch.toNat then s.trap tid t cPOURFMT ch
      else if !(s.channelsOf t.job).getLsbD ch.toNat then s.trap tid t cOBJTYPE ch
      else s.sendWait tid t fun _ => s.emitWait tid t fun _ =>
        s.emitFrame tid t .cast .cast (ch.setWidth 10) ((t.vreg b).setWidth 256)

/-- `castsub xa, xb` (R269). -/
def execCastsub (a b : Reg) (s : State) : Out :=
  performing s fun tid t =>
    let ch := t.reg a
    let x := t.reg b
    if 63 < ch.toNat then s.trap tid t cPOURFMT ch
    else if 1 < x.toNat then s.trap tid t cPOURFMT x
    else if !(s.channelsOf t.job).getLsbD ch.toNat then s.trap tid t cOBJTYPE ch
    else
      let bit : Word := 1#64 <<< ch.toNat
      (s.modCore (tidCore tid) fun k => { k with subs := if x = 1#64 then k.subs ||| bit else k.subs &&& ~~~bit }).next tid t

/-! ### Barriers (R270) -/

/-- The thread took its slot after its station had begun to resynchronise, so that it may have seen more of the Pour than the station
holds: what it reads there waits for the end (R259, R392) (DEDUCED 76). -/
def State.seenMore (s : State) (tid : Nat) : Bool := (s.frozenAt (coreCluster (tidCore tid))).any fun m => m.late.elem tid

/-- A form on an object of a kind: POURFMT for an index above 1,023, OBJTYPE for another kind or job (R270, R271). -/
def State.withObj (s : State) (tid : Nat) (t : Thread) (a : Reg) (kind : BitVec 2) (claims : Bool)
    (f : BitVec 10 → PourObj → State) : State :=
  let x := t.reg a
  if 1023 < x.toNat then s.trap tid t cPOURFMT x
  else if s.seenMore tid then s.retryWhen tid t .resync
  else
    let o := s.mirrorObj (coreCluster (tidCore tid)) x.toNat
    if (o.kind = kind ∧ o.job = t.job) ∨ (claims ∧ o.kind = 0#2) then f (x.setWidth 10) o else s.trap tid t cOBJTYPE x

/-- A control word of `bar.init` that is not well-formed (R270). -/
def barInitBad (v : Word) : Bool := (v &&& ~~~0x3F0100FFFFFF#64) != 0#64 || v.extractLsb' 0 24 == 0#24

/-- The BARINIT payload: barrier dword 0 and PARTIES (R258, R260) (DESIGN CHOICE 16). -/
def barInitPayload (job : BitVec 32) (v : Word) : BitVec 256 :=
  BitVec.ofNat 256 ((v.extractLsb' 0 24).toNat * 2 ^ 64 + job.toNat * 2 ^ 32 + (v.extractLsb' 40 6).toNat * 2 ^ 8
    + (if v.getLsbD 32 then 4 else 0) + 1)

/-- `bar.init xa, xb`; the frame of a domain barrier leaves this rank's hub (R262, R270). -/
def execBarInit (a b : Reg) (s : State) : Out :=
  performing s fun tid t =>
    s.withObj tid t a 1#2 true fun i _ =>
      let v := t.reg b
      if barInitBad v ∨ (v.getLsbD 32 ∧ v.extractLsb' 40 6 ≠ s.ownRank t.job) then s.trap tid t cPOURFMT v
      else if v.getLsbD 32 then s.ordinaryWait tid t fun _ =>
        if s.resyncing (coreCluster (tidCore tid)) then s.retryWhen tid t .resync
        else if s.emitFull 512 then s.retryWhen tid t (.hubEmit)
        else (s.await tid t (.frame .barinit (.init true) i) none (i.setWidth 64)).queueFrame 512 .barinit false
          { s.slotFrame tid i (barInitPayload t.job v) with station := 512#10 } emitCycles
      else s.ordinaryWait tid t fun _ => s.emitWait tid t fun _ => s.emitFrame tid t .barinit (.init true) i (barInitPayload t.job v)

/-- `bar.reg xa` (R270). -/
def execBarReg (a : Reg) (s : State) : Out :=
  performing s fun tid t =>
    s.withObj tid t a 1#2 false fun i _ =>
      match t.promiseAt (.barrier i), t.promiseFree with
      | some _, _ => s.next tid t
      | none, some n => s.next tid (t.setPromise n (some (.barrier i)))
      | none, none => s.trap tid t cPROMISEFULL (t.reg a)

/-- `bar.arr xa` (R270); toward a barrier whose home is another rank an arrival packet travels there, and its
acknowledgement returns with the phase counted there, which is that of this rank's mirror or the next (R262, R272) (DEDUCED 51). -/
def execBarArr (a : Reg) (s : State) : Out :=
  performing s fun tid t =>
    s.withObj tid t a 1#2 false fun i o =>
      s.sendWait tid t fun _ =>
        let home : Peer := { job := t.job, rank := o.home }
        if o.scope ∧ !s.isOwn home then
          let st := rankState (s.rankEntry home)
          if st = 2 ∨ !rankValid (s.rankEntry home) then s.trap tid t cFABUNREACH (t.reg a)
          else if st = 1 then s.retryWhen tid t (.dark o.home)
          else
            let r := s.rankRange home
            let phase := o.phase + BitVec.ofNat 32 (s.bump.pick 0 1)
            (((s.await tid t (.frame .bararr .arrive i) none (t.reg a)).toRank home .bararr (s.slotFrame tid i 0#256)).bump.schedule (s.time + 24 + s.pick r.1 r.2)
              (.domainBarrierPacket .bararr (s.slotFrame tid i (phase.setWidth 256)))).bump
        else s.emitWait tid t fun _ => s.emitFrame tid t .bararr .arrive i 0#256

/-- The phase that a `bar.wait` waits for (R270) (DEDUCED 18). -/
def Thread.waitPhase (t : Thread) (i : BitVec 10) (o : PourObj) : BitVec 32 := match t.arrRec with
  | some r => if r.obj = i then r.phase else o.phase
  | none => o.phase

/-- `bar.wait xa, xb`; at a station that resynchronises it waits, with its limit counting (R259, R270). -/
def execBarWait (a b : Reg) (s : State) : Out :=
  performing s fun tid t =>
    s.withObj tid t a 1#2 false fun i o =>
      let p := t.waitPhase i o
      if !s.resyncing (coreCluster (tidCore tid)) ∧ 0 < (o.phase - p).toInt then s.next tid t
      else s.awaitOrHalt tid t (.barrier i p) (some (t.limitOf b)) (i.setWidth 64)

/-- What `bar.stat` reads (R270). -/
def PourObj.stat (o : PourObj) : Word :=
  BitVec.ofNat 64 (o.phase.toNat * 2 ^ 32 + o.arr.toNat * 2 ^ 8 + min o.wheld 255)

/-- `bar.stat xd, xa` (R270). -/
def execBarStat (d a : Reg) (s : State) : Out :=
  performing s fun tid t => s.withObj tid t a 1#2 false fun _ o => s.writeReg tid t d o.stat false

/-! ### Timelines (R271) -/

/-- `tl.init xa, xb` (R271). -/
def execTlInit (a b : Reg) (s : State) : Out :=
  performing s fun tid t =>
    s.withObj tid t a 2#2 true fun i _ =>
      s.ordinaryWait tid t fun _ => s.emitWait tid t fun _ =>
        s.emitFrame tid t .tlinit (.init false) i (BitVec.ofNat 256 (t.job.toNat * 2 ^ 64 + (t.reg b).toNat))

/-- `tl.add xa, xb` (R271). -/
def execTlAdd (a b : Reg) (s : State) : Out :=
  performing s fun tid t =>
    s.withObj tid t a 2#2 false fun i _ =>
      s.sendWait tid t fun _ => s.emitWait tid t fun _ =>
        s.emitFrame tid t .tladd (.add (t.reg b)) i ((t.reg b).setWidth 256)

/-- `tl.set xa, xb` (R271). -/
def execTlSet (a b : Reg) (s : State) : Out :=
  performing s fun tid t =>
    s.withObj tid t a 2#2 false fun i _ =>
      s.sendWait tid t fun _ => s.emitWait tid t fun _ =>
        s.emitFrame tid t .tlset (.set (t.reg b)) i ((t.reg b).setWidth 256)

/-- `tl.wait xa, xb, xc`; at a station that resynchronises it waits, with its limit counting (R259, R271). -/
def execTlWait (a b c : Reg) (s : State) : Out :=
  performing s fun tid t =>
    s.withObj tid t a 2#2 false fun i o =>
      let target := t.reg b
      if !s.resyncing (coreCluster (tidCore tid)) ∧ 0 ≤ (o.val - target).toInt then s.next tid t
      else s.awaitOrHalt tid t (.timeline i target) (some (t.limitOf c)) (i.setWidth 64)

/-- `tl.rd xd, xa` (R271). -/
def execTlRd (d a : Reg) (s : State) : Out :=
  performing s fun tid t => s.withObj tid t a 2#2 false fun _ o => s.writeReg tid t d o.val false

/-! ### Offers as steps (R253) -/

/-- MESSAGE_OFFER (R253). -/
def execMessageOffer (tid : BitVec 16) (s : State) : Out := .next (s.offerArrives tid.toNat)

/-- MESSAGE_REOFFER: a refused message is offered again after 64 cycles (R253). -/
def execMessageReoffer (tid : BitVec 16) (s : State) : Out := .next (s.reoffer tid.toNat)

end Sys2Proof.Machine
end

