-- ==== Sys2Proof/Machine/Threads.lean ====
section
/-! DEFINITION. The life of threads and tasks: `end`, `start`, `startg`, `rove`, `taskget`, `taskadd`, `grow` and
`sleep` (R177 to R184), and the task queue unit with aging and pre-emption (R162 to R166). -/

set_option Elab.async false

namespace Sys2Proof.Machine

/-! ### `end` (R177) -/

/-- The wait of a thread that has issued `end`. -/
def State.endWaiting (s : State) : Wait :=
  { what := .ending, order := s.fresh, count := 0, limit := none, eval := 0#64, cancel := false }

/-- `end`: PROMISEEND while promises are open; else the thread ends after its drains: it leaves its gang, and its slot
falls vacant 8 cycles later (R177). -/
def execEndThread (s : State) : Out :=
  performing s fun tid t =>
    let n := t.openPromises.length
    if n ≠ 0 then s.trap tid t cPROMISEEND (BitVec.ofNat 64 n)
    else s.drainWait tid t fun _ =>
      (((s.next tid t).detachGang tid).modThread tid fun u => { u with wait := some s.endWaiting, stepped := false }).schedule
        (s.time + 8) (.slotVacant (BitVec.ofNat 16 tid))

/-! ### Held entries (R179, R181, R182) -/

/-- The monitor: a thread in slot 0 of a core with MODE = 1 (R155). -/
def State.isMonitor (s : State) (tid : Nat) : Bool := tidSlot tid == 0 && (s.core (tidCore tid)).expert

/-- An entry equals a held one in every field except PC and ARG, which a continuation entry does not have (R179). -/
def sameEntry (e h : VWord) : Bool :=
  [0, 3, 4, 5, 6, 7].all (fun n => entryDw e n == entryDw h n)
    && (entryKind e != 3 || (entryDw e 1 == entryDw h 1 && entryDw e 2 == entryDw h 2))

/-- A held entry of a core that matches. -/
def Core.heldEntry (k : Core) (e : VWord) : Bool := k.buffer.any fun b => b.held && sameEntry e b.entry

/-- Held entries of a core. -/
def Core.heldCount (k : Core) : Nat := (k.buffer.filter fun b => b.held).length

/-- The state without the first buffered entry of a core that satisfies a condition; the TQU may refill. -/
def State.unbuffer (s : State) (c : Nat) (p : Buffered → Bool) : State :=
  match takeFirst p (s.core c).buffer with
  | some (_, l) => (s.modCore c fun k => { k with buffer := l }).schedule s.time (.tquDeal (BitVec.ofNat 2 (coreDie c)))
  | none => s

/-! ### `start` and `startg` (R179) -/

/-- An entry that must have been dealt to be started: a fresh or gang entry of a launch, or one that is held. -/
def State.dealtEntry (s : State) (c : Nat) (e : VWord) : Bool :=
  (entryLaunch e != 0#32 && entryKind e != 3) || (s.core c).heldEntry e

/-- Legality of the forms in a slot (R179). -/
def State.startLegal (s : State) (tid : Nat) (t : Thread) (cores : List Nat) (least : Nat) (e : VWord) : Bool :=
  s.isMonitor tid
    || (!s.dealtEntry (tidCore tid) e && decide (least ≤ levelNo (s.levelOf t.group))
        && cores.all fun c => (s.core c).owner == some t.group)

/-- A spawn of `start` or `startg` carries only KIND, LEVEL, GMASK, PC and ARG (R179) (DEDUCED 17). -/
def spawnFields (e : VWord) : Bool :=
  let d0 := if entryKind e = 1 then 1#2 ++ 0#62 else 2#2 ++ 0#2 ++ 2#3 ++ 0#9 ++ entryGmask e ++ 0#40
  entryDw e 0 == d0 && [3, 4, 5, 6, 7].all fun n => entryDw e n == 0#64

/-- Entries that spawn into the issuer's group: LAUNCH = 0 of KIND 1 or 2 (DEDUCED 17). -/
def isSpawn (e : VWord) : Bool := entryLaunch e == 0#32 && (entryKind e == 1 || entryKind e == 2)

/-- BADENTRY, apart from the operand's bits (R161, R179) (DEDUCED 17). -/
def State.badEntry (s : State) (c : Nat) (e : VWord) (gang : Bool) : Bool :=
  let held := (s.core c).heldEntry e
  (entryFault e (isSpawn e && !held) false).isSome
    || (if gang then entryKind e == 1 else entryKind e == 2)
    || (isSpawn e && !held && !spawnFields e)
    || (entryLaunch e != 0#32 && entryKind e != 3 && !held)

/-- ROLE of a target slot (R179): slot 0 without CTRL, the transfer slot, a disabled slot, a slot that the
issuer's group does not own, a lost core. -/
def State.badRole (s : State) (tid : Nat) (t : Thread) (e : VWord) (target : Nat) : Bool :=
  let k := s.core (tidCore target)
  let n := tidSlot target
  k.lost || k.disabled n || (n == 0 && !entryCtrl e) || (n == 15 && k.xfer)
    || match k.owner with
       | some g => g != t.group
       | none => !s.isMonitor tid

/-- BUSY of a target slot: occupied, or claimed by an entry or a resume; a gang's slot index already runs a gang
in the cluster (R168, R179) (DEDUCED 27). -/
def State.busySlot (s : State) (target : Nat) (gang : Bool) : Bool :=
  (s.thread? target).isSome || s.claimed target || (s.diverting target).isSome
    || (gang && s.threads.any fun x => coreCluster (tidCore x.1) == coreCluster (tidCore target)
          && x.2.gang.any fun g => g.stream % 16 == tidSlot target)

/-- The code of a start, before a continuation's own checks (R179) (DEDUCED 27). -/
def State.startCheck (s : State) (tid : Nat) (t : Thread) (e : VWord) (targets : List Nat) (extra gang : Bool) : Word :=
  if extra || targets.isEmpty || s.badEntry (tidCore tid) e gang then 3#64
  else if targets.any (s.badRole tid t e) then 2#64
  else if entryKind e ≠ 3 ∧ targets.any (fun x => s.busySlot x gang) then 1#64
  else 0#64

/-- What a spawned thread takes from its issuer (R179). -/
def Thread.spawnSeed (t : Thread) (e : VWord) : Seed :=
  { pc := entryPc e, arg := entryArg e, group := t.group, launch := t.launch, index := t.index, job := t.job
    cbase := t.cbase, clim := t.clim, dline := 0#64 }

/-- What an entry gives a thread of a group (R158) (DEDUCED 30). -/
def entrySeed (e : VWord) (g : Nat) : Seed :=
  { pc := entryPc e, arg := entryArg e, group := g, launch := entryLaunch e, index := entryIndex e, job := entryJob e
    cbase := entryCbase e, clim := entryClim e, dline := entryDline e }

/-- The group of a dealt entry on its cores, which it owns when its level is core or above and no other group does; the
group of a CTRL entry owns no worker slot (R159, R155; assumption 30) (DEDUCED 30). -/
def State.entryGroup (s : State) (e : VWord) (unit : List Nat) : State × Nat :=
  let cores := if entryLevel e = 0 then unit else unit.filter fun c => (s.core c).owner.isNone
  let (s1, g) := s.newGroup fun id =>
    { id := id, level := levelOfNo (entryLevel e), cls := entryClass e, launch := entryLaunch e, index := entryIndex e
      job := entryJob e, cores := cores.map (BitVec.ofNat 12), deadline := entryDeadline e, posted := 0, unrcnt := 0
      ulast := 0, suspended := 0, cbase := entryCbase e, clim := entryClim e }
  if entryLevel e = 0 ∨ entryCtrl e then (s1, g)
  else (cores.foldl (fun u c => u.modCore c fun k => { k with owner := some g }) s1, g)

/-- Cores of the unit of a level that holds a core. -/
def unitCores (level c : Nat) : List Nat :=
  if level ≤ 1 then [c]
  else if level = 2 then (List.range 8).map (c / 8 * 8 + ·)
  else if level = 3 then (List.range 1024).map (c / 1024 * 1024 + ·)
  else List.range 4096

/-- The threads of an entry start in their slots: one thread, or a gang; the first issue comes no earlier than 24
cycles later (R158, R159, R179). -/
def State.place1 (s : State) (q : Seed) (targets : List Nat) (gang : Bool) : State :=
  let mk := fun (tid : Nat) => Thread.atStart q (BitVec.ofNat 12 (tidCore tid)) (s.time + 24)
  if gang then s.startGang targets mk q.pc
  else match targets with
    | x :: _ => s.occupy x (mk x)
    | [] => s

/-- A fresh or gang entry starts in its targets (R158, R179). -/
def State.startEntry (s : State) (tid : Nat) (t : Thread) (e : VWord) (targets : List Nat) (gang : Bool) : State :=
  let c := tidCore tid
  if isSpawn e && !(s.core c).heldEntry e then s.place1 (t.spawnSeed e) targets gang
  else
    let s1 := s.unbuffer c fun b => b.held && sameEntry e b.entry
    let (s2, g) := s1.entryGroup e (unitCores (entryLevel e) c)
    s2.place1 (entrySeed e g) targets gang

/-- A continuation entry under `start` or `startg`: the level rule, the mask, and the checks of `resm` (R179,
R378). A held entry is resumed for its own job, any other for the issuer's (DEDUCED 28). -/
def State.startCont (s : State) (tid : Nat) (t : Thread) (d : Reg) (e : VWord) (targets : List Nat) (gang : Bool) : State :=
  let a := entryDw e 1
  let code := fun (c : Word) (u : State) => u.finish tid (t.setReg d c false) (t.pc + 4#64) false 16
  match s.objPlace (tidCore tid) t.job a with
  | none => code 9#64 s
  | some g0 =>
    let keys := [refusalKey tid g0, refusalKey tid (g0 + 127)]
    if keys.any fun x => s.refused.elem x then
      code 9#64 { s with refused := s.refused.filter fun x => !keys.elem x }
    else s.withObject tid t a true fun g =>
      let level := objLevel s.mem g
      let held := (s.core (tidCore tid)).heldEntry e
      let job := if held then entryJob e else t.job
      let named := (objPlaces s.mem g).map fun (p : Nat × Nat) => p.1
      let asked := targets.map fun x => tidCore x % 8
      if objValid s.mem g && ((level = 2) != gang) then code 8#64 s
      else if objValid s.mem g && gang && !(named.all asked.elem && asked.all named.elem) then code 3#64 s
      else match s.resumeCheck g (tidCore tid) job (if level = 0 then targets.head?.map tidSlot else none) (some tid) with
        | .error c => code (startCode c) s
        | .ok l =>
          let s1 := s.unbuffer (tidCore tid) fun b => b.held && sameEntry e b.entry
          (s1.beginResume g (tidCore tid) (entryDw e 2) l (some tid) job (some d)).await tid t (.resuming s1.fresh) none 0#64

/-- `start` and `startg` on their targets: legality, the waits of R167, the code (R179). -/
def State.startForm (s : State) (tid : Nat) (t : Thread) (i : Instr) (d : Reg) (v : VReg) (targets : List Nat)
    (extra gang : Bool) : State :=
  s.withVecs tid t [vdest v] fun _ =>
    let e := t.vreg v
    if !s.startLegal tid t (targets.map tidCore) (if gang then 2 else 1) e then s.illegal tid t i
    else s.releaseWait tid t fun _ =>
      let code := s.startCheck tid t e targets extra gang
      if code ≠ 0#64 then s.finish tid (t.setReg d code false) (t.pc + 4#64) false 16
      else if entryKind e = 3 then s.startCont tid t d e targets gang
      else (s.finish tid (t.setReg d 0#64 false) (t.pc + 4#64) false 16).startEntry tid t e targets gang

/-- `start xd, va, xb` (R179). -/
def execStart (d : Reg) (v : VReg) (b : Reg) (s : State) : Out :=
  performing s fun tid t =>
    let x := t.reg b
    s.startForm tid t (.start d v b) d v [tidCore tid * 16 + (x.extractLsb' 0 4).toNat] (x.extractLsb' 4 60 != 0#60) false

/-- `startg xd, va, xb` (R179). -/
def execStartg (d : Reg) (v : VReg) (b : Reg) (s : State) : Out :=
  performing s fun tid t =>
    let x := t.reg b
    let base := coreCluster (tidCore tid) * 8
    let targets := ((List.range 8).filter fun n => x.getLsbD n).map fun n => (base + n) * 16 + (x.extractLsb' 8 4).toNat
    s.startForm tid t (.startg d v b) d v targets (x.extractLsb' 12 52 != 0#52) true

/-! ### `rove` (R180) -/

/-- The state of a new rover (R180). -/
def State.newRover (s : State) (tid : Nat) (t : Thread) (pc arg : Word) : Thread :=
  let core := BitVec.ofNat 12 (tidCore tid)
  let q : Seed := { pc := pc, arg := 0#64, group := t.group, launch := t.launch, index := t.index, job := t.job
                    cbase := t.cbase, clim := t.clim, dline := 0#64 }
  let u := ((Thread.blank q core (s.time + 24)).setReg 8#5 arg false).setReg 9#5 ((s.gtid tid).setWidth 64) false
  { u with carry := t.carry, rover := true, origin := core }

/-- `rove xd, xa, xb` (R180). -/
def execRove (d a b : Reg) (s : State) : Out :=
  performing s fun tid t =>
    s.releaseWait tid t fun _ =>
      let c := tidCore tid
      let k := s.core c
      if getField k.rovelim 0 9 ≤ getField k.rovelim 16 9 then s.next tid (t.setReg d 1#64 false)
      else
        let id := s.fresh + 1
        let r : Rover := { id := id, thread := s.newRover tid t (t.reg a) (t.reg b), target := BitVec.ofNat 12 c, fresh := true
                           load := none, spilled := none, last := BitVec.ofNat 16 tid, held := false }
        match { s with fresh := s.fresh + 2 }.acceptRover c r with
        | none => s.next tid (t.setReg d 2#64 false)
        | some s1 =>
          let s2 := s1.modCore c fun k => { k with rovelim := putField k.rovelim 16 9 (getField k.rovelim 16 9 + 1) }
          s2.finish tid (t.setReg d 0#64 false) (t.pc + 4#64) false 16

/-! ### `taskget`, `taskadd`, `grow`, `sleep` (R181 to R184) -/

/-- `taskget vd` (R181). -/
def execTaskget (d : VReg) (s : State) : Out :=
  performing s fun tid t =>
    let c := tidCore tid
    if !s.isMonitor tid then s.illegal tid t (.taskget d)
    else
      let free := fun (b : Buffered) => !b.held
      match (s.core c).buffer.find? free with
      | some b =>
        if (s.core c).heldCount < 2 then
          let s1 := s.modCore c fun k => { k with buffer := mapFirst free (fun b => { b with held := true, claim := none }) k.buffer }
          (s1.next tid (t.memV d b.entry)).schedule s.time (.tquDeal (BitVec.ofNat 2 (coreDie c)))
        else s.next tid (t.memV d 0#512)
      | none => s.next tid (t.memV d 0#512)

/-- A launch id that no launch has, from 1 to 2^32 − 1 (R182): the choice is free (DESIGN CHOICE 26). -/
def State.launchId (s : State) : BitVec 32 :=
  let from_ := Config.free s.fresh
  let ids := (List.range (s.launches.length + 1)).map fun i => BitVec.ofNat 32 ((from_ + i) % (2 ^ 32 - 1) + 1)
  (ids.find? fun i => !(s.launches.any fun l => l.id == i)).getD 1#32

/-- The completion action of an entry (R160). -/
def entryAction (e : VWord) (gtid : BitVec 22) : Done :=
  if entryDone e = 1 then .msg gtid (entryDtag e) else if entryDone e = 2 then .tl (entryDobj e) (entryDinc e) else .none

/-- The entry with LAUNCH and RQ set (DEDUCED 25). -/
def relabel (e : VWord) (launch : BitVec 32) : VWord :=
  setEntryDw e 0 (((entryDw e 0) &&& 0xFFDFFFFF00000000#64) ||| launch.setWidth 64)

/-- A new launch, its indices queued on the entry's die, where they are accepted at a cycle (R162, R182). -/
def State.newLaunch (s : State) (e : VWord) (count : Nat) (done : Done) (accept : Nat) : State × BitVec 32 :=
  let id := s.launchId
  let e1 := relabel e id
  let d := (entryDie e).toNat
  let l : Launch := { id := id, count := count, ended := 0, done := done, job := entryJob e, die := entryDie e
                      cls := entryClass e, entry := e1 }
  ({ s.bump with launches := s.launches ++ [l] }.queueTask d e1 0 count (entryClass e).toNat false accept, id)

/-- The TQU of a die and its overflow area are full (R182) (DESIGN CHOICE 26). -/
def State.tquFull (s : State) (d : Nat) : Bool :=
  decide (Config.tquEntries + Config.overflowEntries d ≤ (s.die d).queue.length)

/-- Cycles until the TQU bank of a die accepts an entry (R182) (DESIGN CHOICE 23). -/
def State.acceptTime (s : State) (tid die : Nat) : Nat :=
  s.pick 40 160 + (if coreDie (tidCore tid) = die then 0 else meshLatency (coreCluster (tidCore tid)) (128 * die) 64)

/-- The thread goes on when the TQU has accepted. -/
def State.accepted (s : State) (tid : Nat) (t : Thread) (d : Reg) (r : Word) (n : Nat) : State :=
  s.bump.finish tid { t.setReg d r false with readyAt := max t.readyAt (s.time + n) } (t.pc + 4#64) false 8

/-- `taskadd xd, va` (R182). -/
def execTaskadd (d : Reg) (v : VReg) (s : State) : Out :=
  performing s fun tid t =>
    s.withVecs tid t [vdest v] fun _ =>
      let e := t.vreg v
      let c := tidCore tid
      if entryRq e && !s.isMonitor tid then s.illegal tid t (.taskadd d v)
      else s.releaseWait tid t fun _ =>
        match entryFault e false (!entryRq e) with
        | some n => s.trap tid t cTASKFMT (BitVec.ofNat 64 n)
        | none =>
          if entryJob e ≠ t.job then s.trap tid t cTASKFMT 7#64
          else if entryRq e then
            let mine := fun (b : Buffered) => b.held && entryLaunch b.entry == entryLaunch e && entryIndex b.entry == entryIndex e
            if !(s.core c).buffer.any mine then s.trap tid t cTASKFMT 8#64
            else
              let i := (entryIndex e).toNat
              let n := s.acceptTime tid (coreDie c)
              let s1 := (s.unbuffer c mine).queueTask (coreDie c) (relabel e (entryLaunch e)) i (i + 1) (entryClass e).toNat true
                (s.time + n)
              s1.accepted tid t d ((entryLaunch e).setWidth 64) n
          else
            let die := (entryDie e).toNat
            let n := s.acceptTime tid die
            if s.tquFull die then s.accepted tid t d (BitVec.allOnes 64) n
            else
              let (s1, id) := s.bump.newLaunch e (entryCount e).toNat (entryAction e (s.gtid tid)) (s.time + n)
              s1.accepted tid t d (id.setWidth 64) n

/-- `grow xd, xa`: the request goes to the TQU bank of the launch's die, where it takes effect (R183). -/
def execGrow (d a : Reg) (s : State) : Out :=
  performing s fun tid t =>
    s.releaseWait tid t fun _ =>
      let die := match s.launches.find? fun l => l.id == t.launch with
        | some l => l.die.toNat
        | none => coreDie (tidCore tid)
      ((s.await tid t (.submitted d (t.reg a).toNat) none 0#64).bump.schedule (s.time + s.acceptTime tid die)
        (.growAccept (BitVec.ofNat 16 tid)))

/-- The TQU bank accepts a `grow`: the launch gets its indices, and the thread its result (R162, R183). A thread whose launch id names
no launch reads a free value: the spec gives none (DESIGN CHOICE 29). -/
def State.growTaken (s : State) (tid : Nat) : State :=
  match s.thread? tid with
  | none => s
  | some t => match t.wait with
    | some w => match w.what with
      | .submitted d n =>
        let done := fun (u : State) (r : Nat) => u.finish tid (t.setReg d (BitVec.ofNat 64 r) false) (t.pc + 4#64) false 0
        match s.launches.find? fun l => l.id == t.launch with
        | none => done s.bump (Config.free s.fresh)
        | some l =>
          if n = 0 then done s l.count
          else if 2 ^ 32 - 1 < l.count + n then done s (2 ^ 64 - 1)
          else
            let s1 := { s with launches := mapFirst (fun x => x.id == l.id) (fun x => { x with count := x.count + n }) s.launches }
            done (s1.queueTask l.die.toNat l.entry l.count (l.count + n) l.cls.toNat false s.time) l.count
      | _ => s
    | none => s

/-- `sleep xa` (R184). -/
def execSleep (a : Reg) (s : State) : Out :=
  performing s fun tid t =>
    if a = 0#5 then s.next tid t
    else
      let until_ := min (s.time + (t.reg a).toNat) (2 ^ 64 - 1)
      (s.await tid t (.sleep until_) none 0#64).schedule (max until_ s.time) (.sleepExpiry (BitVec.ofNat 16 tid))

/-! ### Dealing (R162 to R165) -/

/-- The entry that a queued task forms at its front (R160, R162) (DEDUCED 28). -/
def State.formEntry (s : State) (q : QItem) : VWord :=
  if entryKind q.entry = 3 ∧ entryLaunch q.entry = 0#32 then q.entry
  else
    let count := match s.launches.find? fun l => l.id == entryLaunch q.entry with
      | some l => l.count
      | none => (entryCount q.entry).toNat
    setEntryDw q.entry 3 (BitVec.ofNat 64 (count * 2 ^ 32 + q.lo))

/-- The prefetch buffer has a place (R164). -/
def Core.bufferRoom (k : Core) : Bool := decide (k.buffer.length < 2)

/-- A core has the vacant, unclaimed slots that an entry of level thread or core needs (R164, R165). -/
def State.hasSlot (s : State) (e : VWord) (c : Nat) : Bool :=
  if entryLevel e = 0 then (s.taskWorker c).isSome
  else s.coreVacant c && (!entryCtrl e || (s.thread? (c * 16)).isNone)

/-- A core's buffer can take an entry: it has a place, or a class-0 entry displaces its second entry (R164, R165). -/
def Core.takesEntry (k : Core) (e : VWord) : Bool := k.bufferRoom || (entryClass e == 0#2 && decide (k.heldCount < 2))

/-- A core can take an entry of level thread or core now: under MODE = 0 it has the slots; under MODE = 1 its buffer is
kept full (R164). -/
def State.canTake (s : State) (e : VWord) (c : Nat) : Bool :=
  let k := s.core c
  !k.lost && k.takesEntry e && (k.expert || (s.hasSlot e c && (entryLevel e == 0 || k.buffer.isEmpty)))

/-- An idle unit of level cluster or above, whose lowest core's buffer can take the entry (R164). -/
def State.unitIdle (s : State) (e : VWord) (cores : List Nat) : Bool :=
  cores.all s.coreIdle && (s.core (cores.headD 0)).takesEntry e

/-- The cores of a die that can take an entry now (R164, R374). -/
def State.takers (s : State) (d : Nat) (e : VWord) : List Nat :=
  let base := d * 1024
  let level := entryLevel e
  let home := (objOrigin s.mem (entryDw e 1).toNat / 16) % 4096
  let bound := entryKind e == 3 && !(objRights s.mem (entryDw e 1).toNat).getLsbD 3
  if level ≤ 1 then
    ((List.range 1024).map (base + ·)).filter fun c => (!bound || c == home) && s.canTake e c
  else
    let units := if level = 2 then (List.range 128).map fun n => unitCores 2 (base + 8 * n)
      else if level = 3 then [unitCores 3 base] else [unitCores 4 0]
    ((units.filter fun u => (!bound || u.elem home) && s.unitIdle e u).map fun u => u.headD 0).take 1

/-- The queue without the front index of a task (R162). -/
def takeIndex (q : QItem) (l : List QItem) : List QItem :=
  match takeFirst (· == q) l with
  | some (_, r) => if q.lo + 1 < q.hi then l.map fun x => if x = q then { x with lo := x.lo + 1 } else x else r
  | none => l

/-- An entry into a core's buffer: a class-0 entry at the head, whose full buffer returns its second entry to the
head of its class; under MODE = 0 a thread entry claims the lowest free worker slot (R164, R165). -/
def State.intoBuffer (s : State) (c : Nat) (e : VWord) : State :=
  let k := s.core c
  let claim := if k.expert ∨ entryLevel e ≠ 0 then none else (s.taskWorker c).map fun n => BitVec.ofNat 4 n
  let b : Buffered := { entry := e, held := false, claim := claim }
  if entryClass e = 0#2 then
    match k.bufferRoom, takeFirst (fun (x : Buffered) => !x.held) k.buffer.reverse with
    | false, some (x, l) =>
      let i := (entryIndex x.entry).toNat
      (s.setCore c { k with buffer := b :: l.reverse }).queueTask (coreDie c) x.entry i (i + 1) (entryClass x.entry).toNat true
        s.time
    | _, _ => s.setCore c { k with buffer := b :: k.buffer }
  else s.setCore c { k with buffer := k.buffer ++ [b] }

/-! ### Pre-emption (R166) -/

/-- A running group that may be pre-empted: level thread or core, class 1 to 3, every thread in its unit on the
die (R166, R369, R374) (DESIGN CHOICE 24). -/
def State.candidate (s : State) (d : Nat) (g : Group) : Bool :=
  decide (levelNo g.level ≤ 1) && g.cls != 0#2 && !(s.susps.any fun x => x.group == g.id)
    && !(s.rovers.any fun r => r.thread.group == g.id)
    && match s.running g.id with
       | [] => false
       | (tid, t) :: rest =>
         coreDie (tidCore tid) == d && (s.unitOf tid t (levelNo g.level)).isSome
           && (g.level != .thread || rest.isEmpty)

/-- The better of two by a lexicographic key, the later one when equal. -/
def better (a b : Nat × Nat × Nat × List Group) : Nat × Nat × Nat × List Group :=
  if a.1 < b.1 ∨ (a.1 = b.1 ∧ (a.2.1 < b.2.1 ∨ (a.2.1 = b.2.1 ∧ a.2.2.1 ≤ b.2.2.1))) then b else a

/-- The groups that a class-0 entry of level thread or core pre-empts on a die (R166). -/
def State.victims (s : State) (d level : Nat) : List Group :=
  let cands := s.groups.filter (s.candidate d)
  if level = 0 then
    (cands.foldl (fun a g => better a (g.cls.toNat, g.id, 0, [g])) (0, 0, 0, [])).2.2.2
  else
    let ofCore := fun (c : Nat) =>
      let ts := (s.coreThreads c).filter fun x => (s.core c).worker (tidSlot x.1)
      let gs := cands.filter fun g => ts.any fun x => x.2.group == g.id
      let alone := gs.all fun g => (s.members g.id).all fun x => tidCore x.1 == c
      if ts.isEmpty || (s.core c).lost || !alone || ts.any (fun x => !(gs.any fun g => g.id == x.2.group)) then none
      else some (gs.foldl (fun m g => max m g.cls.toNat) 0, gs.foldl (fun m g => max m g.id) 0, 4096 - c, gs)
    let cores := (s.threads.map fun x => tidCore x.1).eraseDups.filter fun c => coreDie c == d
    ((cores.filterMap ofCore).foldl better (0, 0, 0, [])).2.2.2

/-- A pre-emption on a die is under way. -/
def State.preempting (s : State) (d : Nat) : Bool :=
  s.susps.any fun x => x.cause == 1#8 && x.tids.any fun t => coreDie (tidCore t.toNat) == d

/-- The victims of a class-0 entry that finds no vacant worker slot, or no vacant core, on its die (R166). -/
def State.victimsFor (s : State) (d : Nat) (e : VWord) : List Group :=
  if 1 < entryLevel e ∨ (List.range 1024).any (fun n => s.hasSlot e (d * 1024 + n)) then [] else s.victims d (entryLevel e)

/-- The tasks that a die's TQU has accepted (R162, R182). -/
def State.queued (s : State) (d : Nat) : List QItem := (s.die d).queue.filter fun q => decide (q.since ≤ s.time)

/-- The first class-0 entry of a die that may pre-empt, with its victims. -/
def State.preemptor (s : State) (d : Nat) : Option (List Group) :=
  if s.preempting d then none
  else ((s.queued d).filter fun q => q.cls == 0).findSome? fun q => match s.victimsFor d (s.formEntry q) with
    | [] => none
    | l => some l

/-- The cores that an entry is dealt to: a class-0 entry goes to a core that has its slots, when one has; when none has,
it pre-empts where it can, and else it waits in the buffer of a core under MODE = 1 (R164 to R166). -/
def State.dealTo (s : State) (d : Nat) (e : VWord) : List Nat :=
  let l := s.takers d e
  if entryClass e = 0#2 ∧ entryLevel e ≤ 1 then
    match l.filter (s.hasSlot e) with
    | [] => if (s.victimsFor d e).isEmpty then l else []
    | v => v
  else l

/-- The oldest eligible task of a class, with the entry it forms and the cores that it may be dealt to (R163). -/
def State.eligible (s : State) (d cls : Nat) : Option (QItem × VWord × List Nat) :=
  ((s.queued d).filter fun q => q.cls == cls).findSome? fun q =>
    let e := s.formEntry q
    match s.dealTo d e with
    | [] => none
    | l => some (q, e, l)

/-- The TQU suspends the victims of a class-0 entry (R166): none of them when no pool has room. -/
def execPreemption (die : BitVec 2) (s : State) : Out :=
  .next (match s.preemptor die.toNat with
    | none => s
    | some l => l.foldl (fun u g => (u.evict g 1#8 0x05#8).getD u) s)

/-! ### Starting the head of a buffer (R164) -/

/-- A continuation entry is resumed by the core; a check that fails drops the entry, and the house cores record its code (R164, R378) (DEDUCED 28). -/
def State.resumeEntry (s : State) (c : Nat) (e : VWord) (slot : Option Nat) : State :=
  let a := (entryDw e 1).toNat
  let s1 := if entryLaunch e = 0#32 then s else s.indexEnded (entryLaunch e)
  let drop := fun (code : Word) => { s1 with dropped := s1.dropped ++ [(entryJob e, a, code)] }
  match s1.objPlace c (entryJob e) (entryDw e 1) with
  | none => drop 9#64
  | some g =>
    match s1.resumeCheck g (if objLevel s.mem a = 2 then c / 8 * 8 else c) (entryJob e) slot none with
    | .error x => drop (startCode x)
    | .ok l => s1.beginResume g c (entryDw e 2) l none (entryJob e) none

/-- Slots in which an entry starts on a core; none while one of them is occupied, or a core of its unit is not vacant (R159, R164) (DEDUCED 30). -/
def State.startSlots (s : State) (c : Nat) (b : Buffered) : Option (List Nat) :=
  let e := b.entry
  let level := entryLevel e
  if level ≠ 0 ∧ !(unitCores level c).all s.coreVacant then none
  else if entryKind e = 2 then
    some (((List.range 8).filter fun n => (entryGmask e).getLsbD n).map fun n => (c / 8 * 8 + n) * 16 + 1)
  else if entryCtrl e then (if (s.thread? (c * 16)).isNone then some [c * 16] else none)
  else if level ≠ 0 then some [c * 16 + 1]
  else match b.claim with
    | some n => some [c * 16 + n.toNat]
    | none => (s.taskWorker c).map fun n => [c * 16 + n]

/-- The head of a core's prefetch buffer starts (R164). An entry that the monitor holds when MODE becomes 0 stays held: the
hardware starts none (R181) (DESIGN CHOICE 24). -/
def State.startHead (s : State) (c : Nat) : State :=
  let k := s.core c
  let free := fun (b : Buffered) => !b.held
  if k.expert then s
  else match k.buffer.find? free with
    | none => s
    | some b =>
      match s.startSlots c b with
      | none => s
      | some l =>
        let s1 := s.unbuffer c fun x => x == b
        if entryKind b.entry = 3 then s1.resumeEntry c b.entry (if entryLevel b.entry = 0 then (l.head?.map tidSlot) else none)
        else
          let (s2, g) := s1.entryGroup b.entry (unitCores (entryLevel b.entry) c)
          s2.place1 (entrySeed b.entry g) l (entryKind b.entry = 2)

/-- The core starts the head of its prefetch buffer (R164) (DESIGN CHOICE 7). -/
def execTaskStart (core : CoreId) (s : State) : Out := .next (s.startHead core.toNat)

/-! ### Dealing one entry (R163 to R166) -/

/-- Cores of a die whose buffer holds an entry try to start it (R164). -/
def State.pokeBuffers (s : State) (d : Nat) : State :=
  (s.cores.filter fun x => coreDie x.1 == d && !x.2.expert && x.2.buffer.any fun b => !b.held).foldl
    (fun u x => u.schedule u.time (.taskStart (BitVec.ofNat 12 x.1))) s

/-- One entry is dealt, in strict class order; a class-0 entry that may pre-empt, or that waits for its victims,
holds back the entries of the other classes (R163 to R166). Under MODE = 0 the entry starts in the cycle of dealing
(R164). Completion messages that wait are tried first (DESIGN CHOICE 24). -/
def State.deal (s0 : State) (d : Nat) : State :=
  let s := (s0.sendDone d).pokeBuffers d
  let again := Due.tquDeal (BitVec.ofNat 2 d)
  let give := fun (x : QItem × VWord × List Nat) =>
    let n := x.2.2.length
    let c := (x.2.2[s.pick 0 (n - 1)]?).getD 0
    let s1 := s.bump.modDie d fun k => { k with queue := takeIndex x.1 k.queue }
    ((s1.intoBuffer c x.2.1).startHead c).schedule s.time again
  if !s.enabled then s
  else match s.eligible d 0 with
  | some x => give x
  | none =>
    if s.preempting d then s
    else if (s.preemptor d).isSome then s.schedule s.time (.preemption (BitVec.ofNat 2 d))
    else match s.eligible d 1 with
      | some x => give x
      | none => match s.eligible d 2 with
        | some x => give x
        | none => match s.eligible d 3 with
          | some x => give x
          | none => s

/-- The TQU deals an entry to a core's buffer (R163) (DESIGN CHOICE 24). -/
def execTquDeal (die : BitVec 2) (s : State) : Out := .next (s.deal die.toNat)

/-- Tasks of a class that have waited long enough move to the tail of the next class (R163) (DEDUCED 25). -/
def State.age (s : State) (d cls wait : Nat) : State :=
  let old := fun (q : QItem) => q.cls == cls && decide (q.since + wait ≤ s.time)
  match takeFirst old (s.die d).queue with
  | none => s
  | some (q, l) =>
    let s1 := (s.modDie d fun k => { k with queue := queueItem { q with cls := cls - 1, since := s.time, first := false } false l }).schedule s.time
      (.tquDeal (BitVec.ofNat 2 d))
    if cls = 3 then s1.schedule (s.time + 10000000) (.class2Aging (BitVec.ofNat 2 d)) else s1

/-- A task that has waited 2 ms in class 3 moves to class 2 (R163) (DEDUCED 25). -/
def execClass3Aging (die : BitVec 2) (s : State) : Out := .next (s.age die.toNat 3 2500000)

/-- A task that has waited 8 ms in class 2 moves to class 1 (R163) (DEDUCED 25). -/
def execClass2Aging (die : BitVec 2) (s : State) : Out := .next (s.age die.toNat 2 10000000)

end Sys2Proof.Machine
end

