-- ==== Sys2Proof/Machine/Migration.lean ====
section
/-! DEFINITION. Live migration: a moved core or thread renamed through the whole state (R375), `migcore` (R382),
forwarding entries, and the thermal controller (R174, R175). -/

set_option Elab.async false

namespace Sys2Proof.Machine

/-! ### Renaming what moves (R375): `ft` maps thread ids, `fc` core ids, `fa` scratchpad addresses -/

/-- A global thread id names a slot of this module, in the job of the thread that stands there (R13, R154). -/
def State.isHere (s : State) (g : BitVec 22) : Bool := s.gtid (g.extractLsb' 0 16).toNat == g

/-- A global thread id renamed when it is one of this module. -/
def movedGtid (here : BitVec 22 → Bool) (ft : Nat → Nat) (g : BitVec 22) : BitVec 22 :=
  if here g then g.extractLsb' 16 6 ++ BitVec.ofNat 16 (ft (g.extractLsb' 0 16).toNat) else g

/-- A thread id renamed. -/
def movedTid (ft : Nat → Nat) (t : BitVec 16) : BitVec 16 := BitVec.ofNat 16 (ft t.toNat)

/-- A core id renamed. -/
def movedCore (fc : Nat → Nat) (c : CoreId) : CoreId := BitVec.ofNat 12 (fc c.toNat)

/-- A granule renamed with its scratchpad. -/
def movedGranule (fa : Nat → Nat) (g : Nat) : Nat := fa (16 * g) / 16

/-- A promised object renamed (DEDUCED 82). -/
def Obj.moved (here : BitVec 22 → Bool) (ft fc fa : Nat → Nat) : Obj → Obj
  | .granule g => .granule (movedGranule fa g)
  | .tag g n => .tag (movedGtid here ft g) n
  | .handle c h => .handle (movedCore fc c) h
  | .ring c n => .ring (movedCore fc c) n
  | .mailbox c => .mailbox (movedCore fc c)
  | o => o

/-- What a thread waits for, renamed. -/
def WaitFor.moved (fa : Nat → Nat) : WaitFor → WaitFor
  | .sync a => .sync { a with addr := fa a.addr }
  | .parked p a => .parked p { a with addr := fa a.addr }
  | .served a v f => .served { a with addr := fa a.addr } v f
  | .again (.overlap lo n) => .again (.overlap (fa lo) n)
  | .again (.overlapBesides lo n e) => .again (.overlapBesides (fa lo) n e)
  | w => w

/-- A thread with everything it names renamed. -/
def Thread.moved (here : BitVec 22 → Bool) (ft fc fa : Nat → Nat) (t : Thread) : Thread :=
  let obj := Obj.moved here ft fc fa
  { t with
    promises := t.promises.map (Option.map obj)
    noticed := t.noticed.map obj
    run := match t.run with | .dep o => .dep (obj o) | r => r
    wasDep := t.wasDep.map obj
    wait := t.wait.map fun w => { w with what := w.what.moved fa }
    origin := movedCore fc t.origin }

/-- A command's issuer renamed: its events follow the thread, the issuer recorded in its words stays. -/
def Cmd.moved (ft : Nat → Nat) (c : Cmd) : Cmd :=
  { c with who := match c.who with | .live x => .live (movedTid ft x) | w => w }

/-- A copy's addresses renamed. -/
def CopyRun.moved (ft fa : Nat → Nat) (r : CopyRun) : CopyRun :=
  let beat := fun (b : Beat) => { b with src := fa b.src, cells := b.cells.map fun x => (fa x.1, x.2) }
  let range := fun (x : Nat × Nat) => (fa x.1, x.2)
  { r with
    cmd := r.cmd.moved ft, paused := r.paused.map fa, beats := r.beats.map beat, dsts := r.dsts.map range, wrote := r.wrote.map range
    spans := r.spans.map fun x => (fa x.1, fa x.2.1, x.2.2), samples := r.samples.map fun x => (fa (x.1 * 16384) / 16384, x.2)
    snap := r.snap.map fun x => (fa x.1, x.2) }

/-- A core renamed. -/
def Core.moved (ft fa : Nat → Nat) (k : Core) : Core :=
  { k with
    q0 := k.q0.map (Cmd.moved ft), q4 := k.q4.map (Cmd.moved ft), copies := k.copies.map (CopyRun.moved ft fa)
    cb := k.cb.map fun e => { e with tid := movedTid ft e.tid, block := fa e.block, bytes := e.bytes.map fun x => (fa x.1, x.2) }
    signals := k.signals.map fun x => (movedGranule fa x.1, x.2) }

/-- A packet renamed (DEDUCED 82). -/
def Packet.moved (ft fc fa : Nat → Nat) (p : Packet) : Packet :=
  { p with tid := movedTid ft p.tid, core := movedCore fc p.core, addr := fa p.addr, acc := p.acc.follow fa }

/-- A scheduled step renamed (DEDUCED 82). -/
def Due.moved (ft fc fa : Nat → Nat) : Due → Due
  | .vectorResultWrite t => .vectorResultWrite (movedTid ft t)
  | .translationWalk c a => .translationWalk (movedCore fc c) a
  | .syncCancel t => .syncCancel (movedTid ft t)
  | .cancelConfirm t => .cancelConfirm (movedTid ft t)
  | .waitLimitExpiry t => .waitLimitExpiry (movedTid ft t)
  | .deadlineFire t => .deadlineFire (movedTid ft t)
  | .sleepExpiry t => .sleepExpiry (movedTid ft t)
  | .slotVacant t => .slotVacant (movedTid ft t)
  | .displace t => .displace (movedTid ft t)
  | .cbTimeoutFlush c e => .cbTimeoutFlush (movedCore fc c) e
  | .arrivalSlotTake c => .arrivalSlotTake (movedCore fc c)
  | .drainMarkerAck c k => .drainMarkerAck (movedCore fc c) k
  | .messageOffer t => .messageOffer (movedTid ft t)
  | .messageReoffer t => .messageReoffer (movedTid ft t)
  | .messageSend t n => .messageSend (movedTid ft t) n
  | .cancelSend t p n => .cancelSend (movedTid ft t) p n
  | .markerSend c r k n => .markerSend (movedCore fc c) r k n
  | .messageAnswer t n => .messageAnswer (movedTid ft t) n
  | .syncWritten t => .syncWritten (movedTid ft t)
  | .handoff g => .handoff (movedGranule fa g)
  | .taskStart c => .taskStart (movedCore fc c)
  | .meStart c => .meStart (movedCore fc c)
  | .meGrant n => .meGrant n
  | .meCommandCompletion c => .meCommandCompletion (movedCore fc c)
  | .copyStart c => .copyStart (movedCore fc c)
  | .copyCompletion c n => .copyCompletion (movedCore fc c) n
  | .copyBeats c n => .copyBeats (movedCore fc c) n
  | .castDrain c => .castDrain (movedCore fc c)
  | .stepReport t => .stepReport (movedTid ft t)
  | .copied t => .copied (movedTid ft t)
  | .rehalt t => .rehalt (movedTid ft t)
  | .growAccept t => .growAccept (movedTid ft t)
  | d => d

/-- A rover renamed (DEDUCED 82). -/
def Rover.moved (here : BitVec 22 → Bool) (ft fc fa : Nat → Nat) (r : Rover) : Rover :=
  { r with thread := r.thread.moved here ft fc fa, target := movedCore fc r.target, last := movedTid ft r.last }

/-- A completion action renamed. -/
def movedDone (here : BitVec 22 → Bool) (ft : Nat → Nat) : Done → Done
  | .msg g tag => .msg (movedGtid here ft g) tag
  | d => d

/-- The renamed list of keys, in order. -/
def rekey {α : Type} (f : Nat → Nat) (l : List (Nat × α)) : List (Nat × α) := l.foldl (fun a x => assocSet (f x.1) x.2 a) []

/-- A sorted set of granules renamed. -/
def regranule (fa : Nat → Nat) (l : List Nat) : List Nat := l.foldl (fun a g => setInsert (movedGranule fa g) a) []

/-- A node of an ordered path: a core of this module by its number (R218) (DEDUCED 82). -/
def movedNode (fc : Nat → Nat) (n : Nat) : Nat := if n < 4096 then fc n else n

/-- A moved core or thread renamed in every part of the state that holds its ids or its scratchpad's addresses
(R375); `here` says which global thread ids are this module's (DEDUCED 58, DEDUCED 82). -/
def State.renamed (s : State) (here : BitVec 22 → Bool) (ft fc fa : Nat → Nat) : State :=
  let obj := Obj.moved here ft fc fa
  { s with
    threads := (rekey ft s.threads).map fun x => (x.1, x.2.moved here ft fc fa)
    cores := (rekey fc s.cores).map fun x => (x.1, x.2.moved ft fa)
    clusters := s.clusters.map fun x => (x.1, { x.2 with withheld := x.2.withheld.map fun y => (obj y.1, y.2) })
    mem := s.mem.foldl (fun m c => assocSet (fa c.1) c.2 m) []
    full := regranule fa s.full, eccOne := regranule fa s.eccOne, eccBad := regranule fa s.eccBad
    febBad := regranule fa s.febBad
    refused := s.refused.map fun k => refusalKey (ft (k / 2 ^ 64)) (k % 2 ^ 64)
    packets := s.packets.map (Packet.moved ft fc fa)
    markers := s.markers.map fun m => (movedCore fc m.1, m.2)
    paths := s.paths.map fun x => (movedNode fc x.1, movedNode fc x.2.1, x.2.2)
    groups := s.groups.map fun g => { g with cores := g.cores.map (movedCore fc) }
    launches := s.launches.map fun l => { l with done := movedDone here ft l.done }
    rovers := s.rovers.map (Rover.moved here ft fc fa)
    resumes := s.resumes.map fun r => { r with issuer := r.issuer.map (movedTid ft), core := movedCore fc r.core
                                               claims := r.claims.map (movedTid ft) }
    allreds := s.allreds.map fun x => { x with core := movedCore fc x.core }
    loaded := s.loaded.map fun o => { o with cores := o.cores.map (movedCore fc) }
    timed := s.timed.map fun t => { t with what := t.what.moved ft fc fa } }

/-! ### Forwarding entries (R375) -/

/-- Forwarding entries of a cluster. -/
def forwardEntries : Nat := 64

/-- Cycles without a packet after which an entry is free: 16 µs (DEDUCED 59). -/
def forwardIdle : Nat := 20000

/-- The old router takes an entry and emits a FWD frame. -/
def State.forwardFrom (s : State) (whole : Bool) (src dst : Nat) : State :=
  let core := if whole then src else tidCore src
  let n := coreCluster core
  let e : Fwd := { whole := whole, src := BitVec.ofNat 16 src, dst := BitVec.ofNat 16 dst, last := s.time, acked := none }
  let s1 := s.modCluster n fun k => { k with forward := k.forward ++ [e] }
  let f := s.slotFrame (core * 16) 0#10 (BitVec.ofNat 256 (src + dst * 2 ^ 16 + if whole then 2 ^ 32 else 0))
  (s1.queueFrame n .fwd false f 0).schedule (s.time + forwardIdle)
    (.forwardEntryFree (BitVec.ofNat 9 n) (BitVec.ofNat 12 core))

/-- A forwarding entry is freed 16 µs after the last packet for its old id, once its FWD frame has been applied on every rank, which
a dark one does after relock (R237, R375) (DEDUCED 59). -/
def execForwardEntryFree (cluster : BitVec 9) (src : CoreId) (s : State) : Out :=
  .next (
    let n := cluster.toNat
    let mine := fun (e : Fwd) => (if e.whole then e.src.toNat else tidCore e.src.toNat) == src.toNat
    let dark := s.everyRank.any fun k => rankState (s.rankEntry k) == 1
    let late := fun (e : Fwd) => if dark then { e with acked := e.acked.map fun t => max t (s.time + s.ranksTime s.everyRank 2) } else e
    let idle := fun (e : Fwd) => mine e && e.acked.any (fun t => decide (t ≤ s.time)) && decide (e.last + forwardIdle ≤ s.time)
    let s1 := s.modCluster n fun k => { k with forward := (k.forward.map late).filter fun e => !idle e }
    match (s1.cluster n).forward.find? mine with
    | some e => s1.schedule (max (s.time + 16) (e.last + forwardIdle)) (.forwardEntryFree cluster src)
    | none => s1)

/-! ### Migration of a core (R375, R382) -/

/-- A register of a house core; x0 reads zero. -/
def State.houseReg (s : State) (n : Nat) (r : Reg) : Word :=
  if r = 0#5 then 0#64 else match assocGet n s.houseX with
    | some x => x.get r.toFin
    | none => 0#64

/-- A free core: no thread, no arrival, no task, no queued work, no owner (R382). -/
def State.coreFree (s : State) (c : Nat) : Bool :=
  let k := s.core c
  (s.coreThreads c).isEmpty && !k.lost && k.owner.isNone && k.q0.isEmpty && k.q4.isEmpty && k.copies.isEmpty
    && k.q2.toList.all Option.isNone && k.buffer.isEmpty && k.arrQ.isEmpty && k.spill.isEmpty && k.outq.isEmpty
    && k.cb.isEmpty && !(s.resumes.any fun r => r.claims.any fun t => tidCore t.toNat == c)

/-- A core whose migration must wait: a running matrix command, entries of the combining buffer, a suspension or a
resume under way, relaxed or posted accesses outstanding (R375, R394) (DEDUCED 58). -/
def State.moveBusy (s : State) (c : Nat) : Bool :=
  let k := s.core c
  let checking := match k.q0Phase with | .checking _ _ => true | _ => false
  !k.q0Work.isEmpty || checking || !k.cb.isEmpty || (s.packets.any fun p => p.core.toNat == c && p.cls != .ordinary) || (s.susps.any fun x => x.tids.any fun t => tidCore t.toNat == c)
    || s.resumes.any fun r => r.core.toNat == c || r.claims.any fun t => tidCore t.toNat == c

/-- Cycles without a free forwarding entry after which a migration fails: 1 ms (R382). -/
def forwardWait : Nat := 1250000

/-- Cycles of a migration between two cores (R383) (DESIGN CHOICE 23). -/
def moveTime (c d : Nat) : Nat := if coreDie c = coreDie d then 17500 else 25000

/-- A migration that found every forwarding entry of its cluster taken goes on when one is free, and fails after 1 ms without one
(R382) (DEDUCED 58). -/
def State.moveAgain (s : State) (src dst : CoreId) (deadline : Nat) : State :=
  if (s.cluster (coreCluster src.toNat)).forward.length < forwardEntries then
    s.schedule (s.time + moveTime src.toNat dst.toNat) (.liveMigrationComplete src dst false)
  else if deadline ≤ s.time then { s with migstat := 3#64 }
  else s.schedule (s.time + 16) (.moveWait src dst deadline)

/-- MIGSTAT of a migration that has moved a core's granules (R382). -/
def State.movedStatus (s : State) (c : Nat) : Word :=
  if (s.eccBad ++ s.febBad).any fun g => isSpad (16 * g) && spadCore (16 * g) == c then 4#64 else 0#64

/-- The threads of a core leave it: their windows close and every attached member detaches (R170, R279). -/
def State.detachCore (s : State) (c : Nat) : State :=
  (s.coreThreads c).foldl (fun u x => (u.modThread x.1 Thread.drainWindows).detachGang x.1) s

/-- What the thermal controller holds for a physical core stays with it: its thresholds, its sensor, and the slots that it has
disabled (R174) (DEDUCED 58). -/
def Core.thermalOf (k from_ : Core) : Core :=
  { k with
    hot := from_.hot, cool := from_.cool, reading := from_.reading, thermalAt := from_.thermalAt
    slotcfg := transferFree (putField k.slotcfg 16 16 (getField from_.slotcfg 16 16))
    thermal := if k.slotcfg.getLsbD 1 then from_.thermal.filter (· != 15#4) else from_.thermal }

/-- Threads that stand in slots that their core has disabled are displaced (R175). -/
def State.displaceDisabled (s : State) (c : Nat) : State :=
  (s.coreThreads c).foldl (fun u x =>
    if (s.core c).disabled (tidSlot x.1) then u.schedule u.time (.displace (BitVec.ofNat 16 x.1)) else u) s

/-- Every slot of a core counts as taken now at its station (R392). -/
def State.coreArrives (s : State) (c : Nat) : State := (s.coreThreads c).foldl (fun u x => u.arriveLate x.1) s

/-- A core moves to another core (R375): its slots, queues and registers, its scratchpad with its full/empty bits,
and its withheld objects; the entry redirects the rest (DEDUCED 58). -/
def State.moveCore (s : State) (src dst : Nat) : State :=
  let fc := fun (c : Nat) => if c = src then dst else c
  let ft := fun (t : Nat) => if tidCore t = src then dst * 16 + tidSlot t else t
  let fa := fun (a : Nat) => if isSpad a ∧ spadCore a = src then spadAddr dst (spadOff a) else a
  let away := fun (a : Nat) => isSpad a && spadCore a == dst
  let keep := fun (l : List Nat) => l.filter fun g => !away (16 * g)
  let here := fun (o : Obj) => match o with
    | .granule g => away (16 * g)
    | .tag g _ => tidCore (g.extractLsb' 0 16).toNat == dst
    | _ => false
  let s0 := s.detachCore src
  let s1 := { s0 with
    mem := s0.mem.filter fun c => !away c.1
    full := keep s0.full, eccOne := keep s0.eccOne, eccBad := keep s0.eccBad, febBad := keep s0.febBad
    cores := assocErase dst s0.cores }.renamed s0.isHere ft fc fa
  let n := coreCluster src
  let m := coreCluster dst
  let go := (s1.cluster n).withheld.filter fun x => here x.1
  let s2 := if n = m then s1 else
    (s1.modCluster n fun k => { k with withheld := k.withheld.filter fun x => !here x.1 }).modCluster m
      fun k => { k with withheld := k.withheld ++ go }
  let s2 := (((s2.modCore dst fun k => k.thermalOf (s0.core dst)).modCore src fun k => k.thermalOf (s0.core src)).coreArrives dst).displaceDisabled dst
  let f := s2.slotFrame (dst * 16) 0#10 (BitVec.ofNat 256 (dst + (s2.core dst).inboxCap * 2 ^ 64))
  (s2.queueFrame m .inboxcap false f 0).forwardFrom true src dst

/-- A migration ends: the house cores' MIGSTAT holds its outcome (R382) (DEDUCED 58). -/
def execLiveMigrationComplete (src dst : CoreId) (spare : Bool) (s : State) : Out :=
  .next (
    let c := src.toNat
    let d := dst.toNat
    let n := coreCluster c
    let status := fun (u : State) (x : Word) => { u with migstat := x }
    if !spare && (s.cluster n).forward.length ≥ forwardEntries then s.schedule (s.time + 16) (.moveWait src dst (s.time + forwardWait))
    else if spare && (s.cluster n).spareUsed then status s 2#64
    else if !spare && !s.coreFree d then status s 1#64
    else if s.moveBusy c then
      ((s.core c).cb.foldl (fun u e => u.flushEntry c e) s).schedule (s.time + 16) (.liveMigrationComplete src dst spare)
    else if spare then status (((s.detachCore c).modCluster n fun k => { k with spareUsed := true }).spared (.core src)) (s.movedStatus c)
    else status (s.moveCore c d) (s.movedStatus c))

/-- `migcore` of house core n: codes 1 and 2 at once, else the end of the migration is awaited; a cluster whose
entries are all taken is waited for, for 1 ms at most (R382, R383). -/
def State.beginMove (s : State) (x y : Word) : State :=
  let c := (x.extractLsb' 0 12).toNat
  let d := (y.extractLsb' 0 12).toNat
  let n := coreCluster c
  let done := fun (t dst : Nat) (spare : Bool) =>
    s.schedule (s.time + t) (.liveMigrationComplete (BitVec.ofNat 12 c) (BitVec.ofNat 12 dst) spare)
  if y.getLsbD 63 then
    if (s.cluster n).spareUsed then { s with migstat := 2#64 } else done 12500 c true
  else if d = c ∨ !s.coreFree d then { s with migstat := 1#64 }
  else if forwardEntries ≤ (s.cluster n).forward.length then
    s.schedule (s.time + 16) (.moveWait (BitVec.ofNat 12 c) (BitVec.ofNat 12 d) (s.time + forwardWait))
  else done (moveTime c d) d false

/-- `migcore xa, xb`: ILLEGAL in a core slot (R75, R382). -/
def execMigcore (a b : Reg) (s : State) : Out :=
  match s.cur with
  | .house n => .next (s.beginMove (s.houseReg n.toNat a) (s.houseReg n.toNat b))
  | .slot _ => performing s fun tid t => s.illegal tid t (.migcore a b)

/-! ### Thermal slot disabling (R174, R175) -/

/-- A thread moves from its slot to another: its wait is withdrawn, its outbound messages go with it; one that is halted
by dependence looks for its object again (R175, R375) (DEDUCED 58). -/
def State.moveThread (s : State) (src dst : Nat) : State :=
  let s1 := s.stopThread src
  match s1.thread? src with
  | none => s
  | some t =>
    let ft := fun (x : Nat) => if x = src then dst else x
    let slot := fun (n : Nat) (x : BitVec 4 × OutMsg) => x.1.toNat == tidSlot n
    let out := ((s1.core (tidCore src)).outq.filter (slot src)).map fun x => (BitVec.ofNat 4 (tidSlot dst), x.2)
    let s2 := (s1.leaveSlot src false).modCore (tidCore src) fun k => { k with outq := k.outq.filter fun x => !slot src x }
    let s3 := (s2.renamed s1.isHere ft id id).modCore (tidCore dst) fun k => { k with outq := k.outq ++ out }
    let s4 := (s3.occupy dst (t.moved s1.isHere ft id id)).forwardFrom false src dst
    (if t.run = .live then s4 else s4.schedule s4.time (.rehalt (BitVec.ofNat 16 dst))).settleWithheld

/-- A thread in a slot that is being disabled is displaced once its relaxed and posted accesses, its entries and its own commands are
done (R394): to the first core of the ranking table with a free worker
slot, else alone into a thread continuation (R175). A resume that it has issued is given up before its acceptance; a
displacement that cannot be made yet is tried again (DEDUCED 58). -/
def State.displace (s : State) (tid : Nat) : State :=
  match s.thread? tid with
  | none => s
  | some t =>
    let later := fun (n : Nat) => s.scheduleOnce (s.time + n) (.displace (BitVec.ofNat 16 tid))
    let accepted := t.wait.any fun w => match w.what with
      | .resuming id => s.resumes.any fun r => r.id == id && r.accepted
      | _ => false
    let resuming := t.wait.any fun w => match w.what with | .resuming _ => true | _ => false
    if (s.diverting tid).isSome || t.ending then s
    else if accepted then later 16
    else
      let s := if resuming then s.endWait tid false else s
      let free := (s.die (coreDie (tidCore tid))).ranking.findSome? fun c => (s.freeWorker c.toNat none).map fun n => c.toNat * 16 + n
      match free with
      | some x =>
        if !s.migrateReady tid then (s.flushThread tid fun _ => true).scheduleOnce (s.time + 16) (.displace (BitVec.ofNat 16 tid))
        else if (s.cluster (coreCluster (tidCore tid))).forward.length < forwardEntries then s.moveThread tid x else later 1250
      | none => match (s.group? t.group).bind fun g => s.evictUnit g 0 2#8 0x0D#8 [(tid, t)] with
        | some u => u
        | none => later 1250

/-- A displacement that had to wait is tried again while the slot is disabled (R175) (DEDUCED 58). -/
def State.displaceAgain (s : State) (tid : Nat) : State :=
  if (s.core (tidCore tid)).disabled (tidSlot tid) then s.displace tid else s

/-- Worker slots that are disabled. -/
def Core.disabledCount (k : Core) : Nat := (k.workers.filter k.disabled).length

/-- Cycles between two changes of the thermal controller: 100 µs (R174). -/
def thermalPeriod : Nat := 125000

/-- The slot that the thermal controller disables next: the highest-numbered enabled worker slot of a core that no group
of level core or above owns, while THDIS holds fewer than THMAX (R174). -/
def Core.thermalPick (k : Core) : Option Nat :=
  if k.owner.isSome || decide (getField k.slotcfg 8 4 ≤ k.disabledCount) then none
  else (k.workers.filter fun n => !k.disabled n).getLast?

/-- THERMAL_DISABLE: while the core's sensor reads above its hot threshold, or the coolant is beyond its limits, one more worker slot is disabled every
100 µs; a slot that a resume under way has claimed is disabled once that has ended (R157, R174) (DEDUCED 58). -/
def execThermalDisable (core : CoreId) (s : State) : Out :=
  .next (
    let c := core.toNat
    let k := s.core c
    if k.reading ≤ k.hot ∧ !s.platform.hotAction then s
    else if s.time < k.thermalAt then s.scheduleOnce k.thermalAt (.thermalDisable core)
    else match k.thermalPick with
      | none => s.scheduleOnce (s.time + thermalPeriod) (.thermalDisable core)
      | some n =>
        if s.resumes.any fun r => r.claims.any fun x => x.toNat == c * 16 + n then
          s.scheduleOnce (s.time + 16) (.thermalDisable core)
        else
          let mine := fun (b : Buffered) => b.claim.any fun x => x.toNat == n
          let s1 := s.setCore c { k with
            slotcfg := k.slotcfg ||| (1#64 <<< (16 + n))
            buffer := k.buffer.map fun b => if mine b then { b with claim := none } else b
            thermal := BitVec.ofNat 4 n :: k.thermal
            thermalAt := s.time + thermalPeriod }
          (s1.displace (c * 16 + n)).scheduleOnce (s.time + thermalPeriod) (.thermalDisable core))

/-- THERMAL_ENABLE: while the sensor reads below its cool threshold, one slot is enabled again every 100 µs, the latest
that was disabled first (R174). -/
def execThermalEnable (core : CoreId) (s : State) : Out :=
  .next (
    let c := core.toNat
    let k := s.core c
    if k.cool ≤ k.reading then s
    else if s.time < k.thermalAt then s.scheduleOnce k.thermalAt (.thermalEnable core)
    else match k.thermal with
      | [] => s
      | n :: rest =>
        let s1 := s.setCore c { k with
          slotcfg := k.slotcfg &&& ~~~(1#64 <<< (16 + n.toNat)), thermal := rest, thermalAt := s.time + thermalPeriod }
        ((s1.schedule s.time (.arrivalSlotTake core)).schedule s.time (.tquDeal (BitVec.ofNat 2 (coreDie c)))).scheduleOnce
          (s.time + thermalPeriod) (.thermalEnable core))

end Sys2Proof.Machine
end

