-- ==== Sys2Proof/Machine/TrapDebug.lean ====
section
/-! DEFINITION. `hold` and `rel` (R415, R441), the steps of a thread's turn before its instruction issues (R402,
R408, R409), the debugger's requests and writes (R411), and the words that are no instruction and the fetches out of
bounds (R66, R405). -/

set_option Elab.async false

namespace Sys2Proof.Machine

/-! ### `hold` and `rel` (R415) -/

/-- A request of a house core takes effect at the thread it names; a request for another rank leaves the module (DEDUCED 79). -/
def State.houseRequest (s : State) (g : Word) (hold : Bool) : State :=
  let tid := s.forwardTid 4 (g.extractLsb' 0 16).toNat
  if s.badThread (s.jobOf tid) g ∨ g.extractLsb' 16 6 ≠ s.ownRank (s.jobOf tid) then s
  else
    if hold then (s.logRequest tid 0#64 0#64).holdAt tid none else (s.logRequest tid 1#64 0#64).releaseAt tid none

/-- A request of a monitor: ILLEGAL elsewhere, ACCESSFAULT for a bad operand, and one round trip on the ordered path
(R415). -/
def State.requestForm (s : State) (i : Instr) (a : Reg) (hold : Bool) : Out :=
  match s.cur with
  | .house n => .next (s.houseRequest (s.houseReg n.toNat a) hold)
  | .slot _ => performing s fun tid t =>
    let g := t.reg a
    if !s.isMonitor tid then s.illegal tid t i
    else if s.badThread t.job g then s.trap tid t cACCESSFAULT g
    else
      let rank : Peer := { job := t.job, rank := g.extractLsb' 16 6 }
      let local_ := spadAddr (tidCore (g.extractLsb' 0 16).toNat) 0
      let addr := if s.isOwn rank then local_ else rankAddr rank local_
      let e := rankState (s.rankEntry rank)
      if !s.isOwn rank ∧ e = 2 then s.trap tid t cFABUNREACH g
      else if s.ordinaryOut tid then s.retryWhen tid t .ordinary
      else if !s.isOwn rank ∧ e = 1 ∧ 32 ≤ s.heldFor (tidCore tid) rank then s.retryWhen tid t (.dark rank.rank)
      else
        let (s1, id) := s.sendPacket tid t addr 8 (.request hold (g.extractLsb' 0 16)) .ordinary true [g]
        s1.await tid t (.access id) none g

/-- `hold xa` (R415). -/
def execHold (a : Reg) (s : State) : Out := s.requestForm (.hold a) a true

/-- `rel xa` (R415). -/
def execRel (a : Reg) (s : State) : Out := s.requestForm (.rel a) a false

/-- A HOLD of the debugger reaches the thread's core (R402, R415) (DEDUCED 79). -/
def execHoldRequest (tid : BitVec 16) (s : State) : Out := .next (let n := s.forwardTid 4 tid.toNat; (s.logRequest n 0#64 0#64).holdAt n none)

/-- A release of the debugger (R441) (DEDUCED 79). -/
def execReleaseRequest (tid : BitVec 16) (s : State) : Out := .next (let n := s.forwardTid 4 tid.toNat; (s.logRequest n 1#64 0#64).releaseAt n none)

/-! ### The steps of a turn (R402) -/

/-- A thread that may take its turn: live and not waiting. -/
def Thread.awake (t : Thread) : Bool := t.run == .live && t.wait.isNone

/-- The first instruction after a step that issues clears the skip bit; an engine that was stopped by a full list of
events, or by the command whose ILLCMD was taken, goes on (R311, R343, R402). -/
def State.eventTaken (s : State) (tid : Nat) (e : AsyncEvent) : State :=
  let mine := fun (c : Cmd) => c.who == .live (BitVec.ofNat 16 tid)
  let cores := (s.cores.filter fun x => x.2.q0.any mine || x.2.q4.any mine || x.2.copies.any fun r => mine r.cmd).map (·.1)
  cores.foldl (fun u c =>
    let core := BitVec.ofNat 12 c
    let stopped := (u.core c).q4Held && match (u.core c).q4 with
      | h :: _ => mine h && e.code == cILLCMD && h.word.extractLsb' 0 64 == e.eval
      | [] => false
    let v := if stopped then u.passQ4 c else u
    (v.schedule v.time (.meStart core)).schedule v.time (.copyStart core)) s

/-- A pending asynchronous event is taken: the oldest, and a DEADLINE, with the TICKS that fired, after every other one (R173, R401,
R402) (DEDUCED 39, DEDUCED 64). -/
def State.takeEvent (s : State) (tid : Nat) (t : Thread) : State :=
  match t.events with
  | e :: rest => (s.takeTrap tid { t with events := rest } e.code e.eval t.pc true).eventTaken tid e
  | [] => s.takeTrap tid { t with dlPending := false } cDEADLINE t.dlTicks t.pc true

/-- An asynchronous event may be taken (DEDUCED 64). -/
def Thread.eventReady (t : Thread) : Bool := !t.inHandler && (!t.events.isEmpty || t.dlPending)

/-- A pending asynchronous event is taken at the thread's turn (R402). -/
def execAsyncTrap (tid : BitVec 16) (s : State) : Out :=
  .next (match s.thread? tid.toNat with
    | some t => if t.awake && t.eventReady then s.takeEvent tid.toNat t else s
    | none => s)

/-- The thread stands at its breakpoint with the skip bit clear (R408). -/
def Thread.atBreak (t : Thread) : Bool :=
  t.stepctl.getLsbD 62 && !t.skip && t.pc == (t.stepctl.extractLsb' 2 43).setWidth 62 ++ 0#2

/-- The thread halts before the breakpoint address issues (R408). -/
def execBreakpointMatch (tid : BitVec 16) (s : State) : Out :=
  .next (match s.thread? tid.toNat with
    | some t => if t.awake && t.atBreak then s.rootHalt tid.toNat .brk else s
    | none => s)

/-- What a stepped instruction started has drained (R318, R409): its vector result, its packet, the buffer entry that its store
entered and its flush, its message, and the commands of its push, but for those that are held or stopped. What earlier instructions
started is not awaited; a push is told by the cycle from which its engine sees it (DESIGN CHOICE 65). -/
def State.stepDrained (s : State) (tid : Nat) (t : Thread) : Bool :=
  let mine := fun (c : Cmd) => c.who == .live (BitVec.ofNat 16 tid) && c.ready == t.stepAt + 4
  let core := s.core (tidCore tid)
  let queued := core.q0.any mine && !(core.held && (core.q0.head?.any mine))
  let copying := (core.q4.any mine && !(core.q4Held && core.q4.head?.any mine)) || core.copies.any fun r => mine r.cmd
  !(t.vres.any fun r => r.issue == t.stepAt && decide (s.time < r.due))
    && !((s.packetsOf tid).any fun p => p.start == t.stepAt)
    && !(core.cb.any fun e => e.tid.toNat == tid && e.last == t.stepAt)
    && !(t.stepSend && core.outUsed (tidSlot tid) != 0) && !queued && !copying

/-- A stepped instruction has drained and the thread halts (R409). -/
def execStepReport (tid : BitVec 16) (s : State) : Out :=
  .next (match s.thread? tid.toNat with
    | some t => if t.awake && t.stepped && s.stepDrained tid.toNat t then s.rootHalt tid.toNat .step else s
    | none => s)

/-! ### The debugger's view and writes (R410, R411) -/

/-- OKIND and OBJ of DBGSTAT for a thread that is halted by dependence (R410). -/
def dbgObj (own : BitVec 6) (o : Obj) : Word :=
  let put := fun (kind core n : Nat) => BitVec.ofNat 64 (kind * 2 ^ 37 + n * 2 ^ 12 + core)
  match o with
  | .handle c h => put 4 c.toNat h.toNat
  | .ring c n => put 5 c.toNat n.toNat
  | .mailbox c => put 6 c.toNat 0
  | o =>
    let e := objEntry own o
    (BitVec.ofNat 64 ((e.extractLsb' 38 2).toNat * 2 ^ 37)) ||| (e.extractLsb' 0 34).setWidth 64

/-- DBGSTAT of a slot, as the house cores read it (R410). -/
def State.dbgstat (s : State) (tid : Nat) : Word := match s.thread? tid with
  | none => 0xC000000000000000#64
  | some t =>
    let run : Nat := match t.run with
      | .live => 0
      | .root => 1
      | .dep _ => 2
    let bit := fun (b : Bool) (n : Nat) => if b then 2 ^ n else 0
    let low := match t.run with
      | .dep o => dbgObj (s.ownRank t.job) o
      | _ => 0#64
    BitVec.ofNat 64 (run * 2 ^ 62 + reasonNo t.reason * 2 ^ 58 + bit t.inHandler 57 + bit t.skip 56 + t.dcode.toNat * 2 ^ 48)
      ||| low

/-- A field of a halted thread written: lanes of 64 bits for vector registers, halves for mask registers, the two
words of a table entry for a promise. The latch is emptied: a halt by dependence stays until its object is no longer withheld, and
the thread then issues at PC (DEDUCED 79). -/
def State.debugWrite (s : State) (tid : Nat) (t : Thread) (f : DebugField) (v v2 : Word) : State := match f with
  | .pc => s.setThread tid { t with pc := v, entered := false }
  | .x r => s.setThread tid (t.setReg r v false)
  | .pw => s.setThread tid { t with pw := v }
  | .v r lane => s.setThread tid { t with v := t.v.set r.toNat (setLane (t.v.get r.toFin) 64 lane.toNat v.toNat) r.isLt }
  | .k r half =>
    let old := t.k.get r.toFin
    let new := if half = 0#1 then old.extractLsb' 64 64 ++ v else v ++ old.extractLsb' 0 64
    s.setThread tid { t with k := t.k.set r.toNat new r.isLt }
  | .csr n => if 0x800 ≤ n.toNat ∧ n.toNat ≤ 0x80A then s.csrWrite tid n.toNat v else s
  | .promise i => s.setThread tid { t with promises := t.promises.set i.toNat (wordsPromise t.job v.toNat v2.toNat) i.isLt }
  | .latch =>
    let fresh := fun (w : Wait) => { w with count := 0, limit := none }
    let u := match t.run, t.wasDep with
      | .root, none => t.rewait
      | _, _ => { t with wait := t.wait.map fresh }
    s.setThread tid { u with latch := none, latchCnt := none }

/-- House cores write a halted thread's state; a write to a thread that is not halted is refused and changes nothing
(R411). -/
def execDebugStateWrite (tid : BitVec 16) (f : DebugField) (value value2 : Word) (s : State) : Out :=
  .next (match s.thread? tid.toNat with
    | some t => if t.run == .live then s else s.debugWrite tid.toNat t f value value2
    | none => s)

/-! ### Words and fetches (R66, R405) -/

/-- A word that is no implemented instruction: ILLEGAL, with the word in EVAL (R66). -/
def execIllegalWord (word : BitVec 32) (s : State) : Out :=
  performing s fun tid t => s.trap tid t cILLEGAL (word.setWidth 64)

/-- A fetch out of bounds: FETCHBOUND, with the fetch address in EVAL; EPC is the instruction, or the prefix of a
pair whose second word fails (R98, R405). -/
def execFetchbound (addr : Word) (s : State) : Out :=
  performing s fun tid t => s.trap tid t cFETCHBOUND addr

end Sys2Proof.Machine
end

