-- ==== Sys2Proof/Machine/Loader.lean ====
section
/-! DEFINITION. The loader's step: an object's relocations, images, banks, rings and launches (R49, R50, R59 to R61),
and the end of a job (R139). -/

set_option Elab.async false

namespace Sys2Proof.Machine

/-! ### Relocations (R47, R61) -/

/-- `%hi` of a value. -/
def hiPart (v : Int) : Int := (v + 0x800) / 4096

/-- `%lo` of a value. -/
def loPart (v : Int) : Int := v - hiPart v * 4096

/-- The value that a relocation computes from the symbol's address S (R61). -/
def relocResult (r : Reloc) (sym : Int) : Int :=
  let v := sym + r.addend
  match r.kind with
  | .abs64 | .abs32 => v
  | .hi20 => hiPart v
  | .lo12i | .lo12s => loPart v
  | .pchi20 => hiPart (v - r.place)
  | .pclo12i | .pclo12s => loPart (v - r.pair)
  | .branch | .jump => v - r.place
  | .gran => v / 16

/-- The value lies in the relocation's range; that of GRAN is a granule of the local window, and so is its symbol (R47, R61). -/
def relocInRange (r : Reloc) (sym : Int) : Bool :=
  let v := relocResult r sym
  let within := fun (lo hi : Int) => decide (lo ≤ v) && decide (v ≤ hi)
  match r.kind with
  | .abs64 => within (-(2 ^ 63)) (2 ^ 64 - 1)
  | .abs32 => within (-(2 ^ 31)) (2 ^ 32 - 1)
  | .hi20 | .pchi20 => within (-(2 ^ 19)) (2 ^ 19 - 1)
  | .lo12i | .lo12s | .pclo12i | .pclo12s => true
  | .branch => within (-4096) 4095 && decide (v % 2 = 0)
  | .jump => within (-1048576) 1048575 && decide (v % 2 = 0)
  | .gran =>
    let a := sym + r.addend
    decide (0 ≤ sym) && decide (sym < 0x80000) && decide (0 ≤ a) && decide (a ≤ 0x7FFF0) && decide (a % 16 = 0)

/-- A word with a field of width n at bit b replaced. -/
def patchWord (w : BitVec 32) (b n : Nat) (v : BitVec 32) : BitVec 32 :=
  let m : BitVec 32 := BitVec.ofNat 32 ((2 ^ n - 1) * 2 ^ b)
  (w &&& ~~~m) ||| ((v <<< b) &&& m)

/-- An instruction word patched by a relocation (R61). -/
def relocInstr (r : Reloc) (sym : Int) (w : BitVec 32) : BitVec 32 :=
  let v := BitVec.ofInt 32 (relocResult r sym)
  match r.kind with
  | .hi20 | .pchi20 => patchWord w 12 20 v
  | .lo12i | .pclo12i => patchWord w 20 12 v
  | .lo12s | .pclo12s => patchWord (patchWord w 7 5 v) 25 7 (v >>> 5)
  | .branch => patchWord (patchWord (patchWord (patchWord w 8 4 (v >>> 1)) 25 6 (v >>> 5)) 7 1 (v >>> 11)) 31 1 (v >>> 12)
  | .jump => patchWord (patchWord (patchWord (patchWord w 21 10 (v >>> 1)) 20 1 (v >>> 11)) 12 8 (v >>> 12)) 31 1 (v >>> 20)
  | _ => w

/-- The bytes of a part with one relocation applied (R61). -/
def relocApply (r : Reloc) (sym : Int) (m : Mem) : Mem := match r.kind with
  | .abs64 => writeBytes m r.place 8 (BitVec.ofInt 64 (relocResult r sym)).toNat
  | .abs32 => writeBytes m r.place 4 (BitVec.ofInt 32 (relocResult r sym)).toNat
  | .gran =>
    let old := readBytes m r.place 32
    let field := old / 2 ^ r.bit % 2 ^ 15
    writeBytes m r.place 32 (old - field * 2 ^ r.bit + (BitVec.ofInt 15 (relocResult r sym)).toNat * 2 ^ r.bit)
  | _ => writeBytes m r.place 4 (relocInstr r sym (BitVec.ofNat 32 (readBytes m r.place 4))).toNat

/-- The value of a symbol: the object's own definition, else the export of an object loaded in the same job (R54, R61) (DESIGN CHOICE 97). -/
def State.symbolValue (s : State) (o : ObjectImage) (name : Nat) : Option Int :=
  match o.symbols.find? fun x => x.name == name with
  | some x => some x.value
  | none => (s.loaded.filter fun x => x.job == o.job).findSome? fun x => (x.exports.find? fun e => e.1 == name).map (·.2)

/-- Names that an object needs: its imports, and the symbols of its relocations and arguments. -/
def imageNeeds (o : ObjectImage) : List Nat := o.imports ++ o.relocs.map (·.symbol) ++ o.launches.filterMap (·.argSym)

/-- An import of an object that no object of its job exports (R54). -/
def State.unresolved (s : State) (o : ObjectImage) : Bool := (imageNeeds o).any fun n => (s.symbolValue o n).isNone

/-- The relocation's value is in range, for the symbol that it names (R61). -/
def State.relocOk (s : State) (o : ObjectImage) (r : Reloc) : Bool := match s.symbolValue o r.symbol with
  | some v => relocInRange r v
  | none => false

/-- A part as the loader writes it: its emitted bytes with their relocations (R61). -/
def State.relocated (s : State) (o : ObjectImage) (part : RelocPart) (cells : List (Nat × Byte)) : Mem :=
  (o.relocs.filter fun r => r.part = part).foldl
    (fun m r => match s.symbolValue o r.symbol with
      | some v => relocApply r v m
      | none => m) (writeCells [] cells)

/-- Emitted bytes with the values that a patched part gives them. -/
def patched (part : Mem) (cells : List (Nat × Byte)) : List (Nat × Byte) := cells.map fun x => (x.1, loadByte part x.1)

/-! ### Where an object is loaded (R49, R50) -/

/-- Dies that the launches of an object name; all four when it holds none. -/
def imageDies (o : ObjectImage) : List Nat :=
  if o.launches.isEmpty then [0, 1, 2, 3] else (List.range 4).filter fun d => o.launches.any fun l => l.die.toNat == d

/-- Cores of a list of dies. -/
def dieCores (ds : List Nat) : List Nat := ds.flatMap fun d => (List.range 1024).map (1024 * d + ·)

/-- Granules of the local window that an object writes. -/
def imageGranules (o : ObjectImage) : List Nat := (o.spad.map fun x => x.1 / 16).eraseDups

/-- An object that conflicts with one that is loaded (R50). The same object again is one of the same name and job: the spec
does not say what makes it the same (DESIGN CHOICE 90). -/
def State.loadConflict (s : State) (o : ObjectImage) (cores : List Nat) : Bool :=
  s.loaded.any fun x => !(x.name == o.name && x.job == o.job)
    && x.granules.any ((imageGranules o).elem ·) && x.cores.any fun c => cores.elem c.toNat

/-- A granule of a core written whole with its full/empty bit. -/
def State.loadGranule (s : State) (c g : Nat) (v : Nat) (full : Bool) : State :=
  let a := spadAddr c (16 * g)
  { s with
    mem := writeBytes s.mem a 16 v
    full := if full then setInsert (a / 16) s.full else setErase (a / 16) s.full }.rebuild a 16

/-- A scratchpad cleared: every byte zero, every granule empty (R50). -/
def State.clearCore (s : State) (c : Nat) : State :=
  let here := fun (g : Nat) => isSpad (16 * g) && spadCore (16 * g) == c
  { s with
    mem := s.mem.filter fun x => !(isSpad x.1 && spadCore x.1 == c)
    full := s.full.filter fun g => !here g
    eccOne := s.eccOne.filter (fun g => !here g), eccBad := s.eccBad.filter (fun g => !here g)
    febBad := s.febBad.filter fun g => !here g }

/-- The BFMT value of a bank record: FMT, GSIZE, AXIS and SGRAN = scale ÷ 16, with LINE = 0 and DYN = 0 (R60, R119). -/
def bankWord (b : BankRec) : Word :=
  BitVec.ofNat 64 (b.fmt.toNat + b.group.toNat * 2 ^ 10 + (if b.axis then 2 ^ 12 else 0) + b.scale.toNat / 16 % 2 ^ 15 * 2 ^ 25)

/-- The banks and rings of an object on a core (R60, R119, R302). -/
def Core.loadRegs (o : ObjectImage) (k : Core) : Core :=
  let k1 := o.banks.foldl (fun (u : Core) b => { u with bfmt := u.bfmt.setIfInBounds b.bank.toNat (bankWord b) }) k
  o.rings.foldl (fun (u : Core) r =>
    let n := r.ring.toNat
    { u with
      ringBase := u.ringBase.setIfInBounds n (r.base &&& 0x7FFF0#64), ringSize := u.ringSize.setIfInBounds n (r.size &&& 0xFFFFF#64)
      ringTile := u.ringTile.setIfInBounds n (tileField r.tile), ringHead := u.ringHead.setIfInBounds n 0#64
      ringTail := u.ringTail.setIfInBounds n (r.count &&& 0xFFFFFFFF#64) }) k1

/-- The images of an object on one core; waiters of what a `clear` emptied are served too (R50, R197, R198). The cores that a `clear` concerns are those of the dies whose own launch
carries it: where launches name several dies, the spec does not say which (DESIGN CHOICE 90). -/
def State.loadCore (s : State) (o : ObjectImage) (spad : Mem) (c : Nat) : State :=
  let clear := o.launches.any fun l => l.clear && l.die.toNat == coreDie c
  let emptied := if clear then s.full.filter fun g => isSpad (16 * g) && spadCore (16 * g) == c else []
  let s1 := if clear then s.clearCore c else s
  let s2 := (imageGranules o).foldl (fun u g => u.loadGranule c g (readBytes spad (16 * g) 16) (o.spadFull.elem g)) s1
  (s2.modCore c (Core.loadRegs o)).handoffAll ((emptied ++ (imageGranules o).map fun g => spadAddr c 0 / 16 + g).eraseDups)

/-- The entry of a launch record (R160, R161); its completion action is held in the TQU (DEDUCED 74, DESIGN CHOICE 97). -/
def State.launchEntry (s : State) (o : ObjectImage) (l : LaunchRec) : VWord :=
  let kind := if l.gang = 0#8 then 1 else 2
  let d0 := kind * 2 ^ 62 + l.cls.toNat * 2 ^ 60 + levelNo l.level * 2 ^ 57 + l.die.toNat * 2 ^ 55 + l.gang.toNat * 2 ^ 40
  let deadline := if l.cls = 0#2 then s.tick + l.deadline.toNat else 0
  let arg := (l.argSym.bind (s.symbolValue o)).getD 0
  fromLanes 64 [d0, l.entry.toNat, (l.arg + BitVec.ofInt 64 arg).toNat, l.count.toNat * 2 ^ 32, deadline, l.cbase.toNat, l.clim.toNat, o.job.toNat]

/-- An object is loaded: rejected whole when an import stays unresolved, a relocation is out of range, or it
conflicts; else its images are written before its launches are queued, in source order (R50, R54, R59 to R61) (DEDUCED 74, DESIGN CHOICE 97). -/
def State.loadObject (s : State) (o : ObjectImage) : State :=
  let cores := (dieCores (imageDies o)).filter fun c => !(s.core c).lost
  if s.unresolved o ∨ !o.relocs.all (s.relocOk o) ∨ s.loadConflict o cores then s
  else
    let s1 := { s with mem := writeCells s.mem (patched (s.relocated o .text o.text) o.text) }
    let clusters := (imageDies o).flatMap fun d => (List.range 128).map (128 * d + ·)
    let image := patched (s.relocated o .carafe o.carafe) o.carafe
    let carafe := fun (m : Mem) (n : Nat) =>
      writeCells m (image.map fun (x : Nat × Byte) => (carafeBase + n * carafeSize + x.1, x.2))
    let s2 := { s1 with mem := clusters.foldl carafe s1.mem }
    let spad := s.relocated o .spad o.spad
    let s3 := cores.foldl (fun (u : State) c => u.loadCore o spad c) s2
    let exports := (o.symbols.filter fun x => x.exported).map fun x => (x.name, x.value)
    let mine : Loaded :=
      { name := o.name, job := o.job, exports := exports, granules := imageGranules o, cores := cores.map (BitVec.ofNat 12) }
    let s4 := { s3 with loaded := s3.loaded.filter (fun (x : Loaded) => !(x.name == o.name && x.job == o.job)) ++ [mine] }
    (o.launches.foldl (fun (u : State) l => (u.newLaunch (s.launchEntry o l) l.count.toNat l.done s.time).1) s4).settleWithheld

/-- OBJECT_LOAD (R50) (DESIGN CHOICE 81). -/
def execObjectLoad (obj : ObjectImage) (s : State) : Out := .next (s.loadObject obj)

/-! ### The end of a job (R139, R50) -/

/-- Every core changed. -/
def State.mapCores (s : State) (f : Core → Core) : State :=
  { s with cores := s.cores.map fun (x : Nat × Core) => (x.1, f x.2) }

/-- A core without a rover in its arrival queue or spill ring. -/
def Core.dropArrival (id : Nat) (k : Core) : Core :=
  let k1 := { k with arrQ := k.arrQ.filter (· != id), spill := k.spill.filter (· != id) }
  if k1.spill.length = k.spill.length then k1 else k1.setOcc

/-- A rover ends before it takes a slot. -/
def State.endRover (s : State) (r : Rover) : State :=
  ((s.releaseRover r.thread).dropRover r.id).mapCores (Core.dropArrival r.id)

/-- The tasks, launches, suspensions, resumes and loaded objects of a job go (DEDUCED 70). -/
def State.dropTasks (s : State) (job : BitVec 32) : State :=
  let tids := (s.threads.filter fun (x : Nat × Thread) => x.2.job == job).map fun (x : Nat × Thread) => x.1
  let mine := fun (e : VWord) => entryJob e == job
  let queue := fun (d : Die) => { d with queue := d.queue.filter fun (q : QItem) => !mine q.entry }
  let buffer := fun (k : Core) => { k with buffer := k.buffer.filter fun (b : Buffered) => !mine b.entry }
  { s with
    launches := s.launches.filter fun (l : Launch) => l.job != job
    dies := s.dies.map queue
    susps := s.susps.filter fun (x : Susp) => !(x.tids.any fun t => tids.elem t.toNat)
    resumes := s.resumes.filter fun (r : Resume) => r.job != job
    loaded := s.loaded.filter fun (o : Loaded) => o.job != job }.mapCores buffer

/-- A group of an ended job goes, with its cores and handles (DEDUCED 70). -/
def State.dropGroup (s : State) (g : Group) : State :=
  let free := fun (k : Core) => if k.owner = some g.id then { k with owner := none } else k
  let s1 := (s.mapCores free).unbindGroup g.id
  { s1 with groups := s1.groups.filter fun (x : Group) => x.id != g.id }

/-- The house cores end a job: its threads and rovers stop, its tasks and launches go, its objects stop counting as
loaded (R50, R139) (DEDUCED 70). -/
def State.endJob (s : State) (job : BitVec 32) : State :=
  let s1 := s.dropTasks job
  let s2 := (s1.rovers.filter fun (r : Rover) => r.thread.job == job).foldl State.endRover s1
  let s3 := (s2.threads.filter fun (x : Nat × Thread) => x.2.job == job).foldl
    (fun (u : State) (x : Nat × Thread) => u.endThread x.1 x.2) s2
  let s4 := (s3.groups.filter fun (g : Group) => g.job == job).foldl State.dropGroup s3
  { s4 with jobs := s4.jobs.filter fun (j : Job) => j.id != job }

/-- JOB_END (R139) (DEDUCED 70). -/
def execJobEnd (job : BitVec 32) (s : State) : Out := .next ((s.endJob job).settleWithheld)

end Sys2Proof.Machine
end

