-- ==== Sys2Proof/Machine/Platform.lean ====
section
/-! DEFINITION. Boot, attestation, the standard interfaces, power, cooling and management (R427 to R439), and the
delivery of replay items (R418). -/

set_option Elab.async false

namespace Sys2Proof.Machine

/-! ### Verification (R428 to R430) -/

/-- Entry of a list of pairs. -/
def pairGet {α β : Type} [BEq α] (k : α) (l : List (α × β)) : Option β := (l.find? fun x => x.1 == k).map fun x => x.2

/-- The list with a pair for a key. -/
def pairSet {α β : Type} [BEq α] (k : α) (b : β) (l : List (α × β)) : List (α × β) := l.filter (fun x => x.1 != k) ++ [(k, b)]

/-- The fused SVN minimum of an image type. -/
def Platform.svnMinOf (p : Platform) (k : ImageKind) : BitVec 6 := (pairGet k p.svnMin).getD 0#6

/-- An image verifies: digest and signature match, its key is not revoked, its type is listed, its SVN reaches the
minimum (R428) (DESIGN CHOICE 80). -/
def Platform.verifies (p : Platform) (k : ImageKind) (i : ImageRec) : Bool :=
  i.sigOk && !p.revoked.getLsbD i.key.toNat && i.typeOk && decide ((p.svnMinOf k).toNat ≤ i.svn.toNat)

/-- A record verifies: signature, key and fields in range, reserved bytes zero; no SVN check (R428, R430). -/
def Platform.recordOk (p : Platform) (r : ConfigRec) : Bool :=
  r.img.sigOk && !p.revoked.getLsbD (r.keyidx.toNat % 16) && r.img.typeOk && r.resvZero && decide (r.keyidx.toNat ≤ 15)
    && decide (r.pref.toNat ≤ 1) && decide (r.svnadv.toNat ≤ 1) && decide (1 ≤ r.mgmtvlan.toNat ∧ r.mgmtvlan.toNat ≤ 4094)
    && decide (800 ≤ r.pcap.toNat) && decide (r.cxlen.toNat < 2 ^ 10) && decide (r.keaten.toNat < 2 ^ 12)
    && decide (r.tinmax.toNat ≤ 450)

/-- The copy of an image that is used: the preferred one, or the other when that fails (R429) (DEDUCED 40). -/
def Platform.choose (p : Platform) (preferB : Bool) (k : ImageKind) : Option (Bool × ImageRec) :=
  let copy := fun (b : Bool) => match pairGet k (if b then p.imagesB else p.imagesA) with
    | some i => if p.verifies k i then some (b, i) else none
    | none => none
  match copy preferB with
  | some x => some x
  | none => copy (!preferB)

/-- The record that is used: of two valid copies the one with the higher SEQ (R430). -/
def Platform.chooseRecord (p : Platform) : Option (Bool × ConfigRec) :=
  let valid := fun (b : Bool) (r : Option ConfigRec) => match r with
    | some x => if p.recordOk x then some (b, x) else none
    | none => none
  match valid false p.recordA, valid true p.recordB with
  | some a, some b => some (if a.2.seq.toNat < b.2.seq.toNat then b else a)
  | some a, none => some a
  | none, b => b

/-- PREF of the record in use (R430) (DEDUCED 40). -/
def Platform.preferB (p : Platform) : Bool := match p.record with
  | some r => r.2.pref == 1#16
  | none => false

/-- The power cap in W: PCAP, at most 2,600 (R430, R437). -/
def Platform.cap (p : Platform) : Nat := match p.record with
  | some r => min 2600 r.2.pcap.toNat
  | none => 2600

/-! ### The status byte and the boot's failures (R433, R438) -/

/-- The status byte: the stage, of the failure when there is one, in bits 7:6, the mode in bits 5:4 and the reason in bits 3:0 (DESIGN CHOICE 73). -/
def Platform.status (p : Platform) : BitVec 8 :=
  let mode : BitVec 2 := match p.mode with
    | .off => 0#2
    | .booting => 1#2
    | .normal => 2#2
    | .minimal | .dead => 3#2
  (if p.reason = 0#8 then p.stage else p.failStage) ++ mode ++ p.reason.extractLsb' 0 4

/-- The platform with its status byte brought up to date. -/
def Platform.report (p : Platform) : Platform := { p with smbus := p.status }

/-- The first failure of a boot is its reason code (R433). -/
def Platform.failed (p : Platform) (code : BitVec 8) : Platform :=
  if p.reason = 0#8 then { p with reason := code, failStage := p.stage } else p

/-- A boot that is broken off has failed with 0x05 (R433). -/
def Platform.interrupted (p : Platform) : Platform := if p.mode = .booting then p.failed 0x05#8 else p

/-! ### Measurement (R431) -/

/-- An image runs: it is measured in the register of the stage that verified it (R431). -/
def Platform.run (p : Platform) (k : ImageKind) (x : Bool × ImageRec) : Platform :=
  { p.extend p.stage.toNat (bytes64 x.2.digest) with running := pairSet k x p.running }

/-! ### Boot (R427, R432, R433) -/

/-- The module in reset: everything outside the flash, the fuses and the root-of-trust core at its reset value, and its links dark
(R432). -/
def State.inReset (s : State) (p : Platform) : State :=
  let dark : Port := { lanes := 0#5, retries := 0, escapes := 0 }
  { State.reset with
    platform := { p with cxlUp := 0#10, pourUp := false, ports := Vector.replicate 2 true }.report, ports := Vector.replicate 12 dark
    inputs := s.inputs, fresh := s.fresh, houseX := s.houseX, cur := s.cur }

/-- The state with its boot state replaced. -/
def State.setPlatform (s : State) (p : Platform) : State := { s with platform := p }

/-- The boot fails: the first failure of a boot is its reason code, and the module stands in reset (R433) (DEDUCED 42). -/
def State.failBoot (s : State) (code : BitVec 8) : State := s.inReset { s.platform.failed code with mode := .off }

/-- Minimal mode, or the root-of-trust core alone when the recovery image fails (R431, R432). -/
def State.minimal (s : State) : State :=
  let p := s.platform
  match p.recovery with
  | some i =>
    if p.verifies .recovery i then
      let q := p.run .recovery (false, i)
      s.inReset { q.extend 5 [1#8] with mode := .minimal }
    else s.inReset { p with mode := .dead }
  | none => s.inReset { p with mode := .dead }

/-- A management write takes its place in the flash (R429). -/
def Platform.store (p : Platform) : MgmtItem → Platform
  | .image k copyB i =>
    if k = .recovery then { p with recovery := some i }
    else if copyB then { p with imagesB := pairSet k i p.imagesB }
    else { p with imagesA := pairSet k i p.imagesA }
  | .record copyB r => if copyB then { p with recordB := some r } else { p with recordA := some r }

/-- Cycles in a second (R4). -/
def second : Nat := 1250000000

/-- The watchdog of each stage, in cycles (R427). -/
def watchdogTime (stage : BitVec 2) : Nat :=
  second * (if stage = 0#2 then 1 else if stage = 1#2 then 2 else if stage = 2#2 then 60 else 120)

/-- A boot stage begins: its number stands in the status byte, and its watchdog runs (R427, R438). -/
def State.beginStage (s : State) (stage : BitVec 2) : State :=
  (s.setPlatform { s.platform with stage := stage }.report).schedule (s.time + watchdogTime stage) (.watchdog stage)

/-- Stage 0 begins (R427, R432): what was written during the last boot takes its place in the flash; the failure count decides between
minimal mode and a boot, which counts as a failure until it is complete (DEDUCED 40). -/
def State.boot (s : State) : State :=
  let p0 := s.platform.interrupted
  let p : Platform := { p0.later.foldl Platform.store p0 with
             stage := 0#2, record := none, running := [], measure := Vector.replicate 8 0#512, trained := [], later := []
             hotAction := false }
  if 3 ≤ p.failures then (s.setPlatform p).minimal
  else (s.inReset { p with failures := p.failures + 1, reason := 0#8, failStage := 0#2, mode := .booting }).beginStage 0#2

/-- Power is applied (R6, R427). -/
def execPowerOn (s : State) : Out :=
  .next ({ s with platform := { s.platform.interrupted with
                                mode := .off, powered := true, supplyBad := false, quotes := [], netLog := [] } }.boot)

/-- Stage 0: copy A of the stage-1 image is used, or copy B when that fails (R427, R429; assumption 40). -/
def State.stageZero (s : State) : State :=
  match s.platform.choose false .stage1 with
  | none => s.failBoot 0x01#8
  | some x => (s.setPlatform (s.platform.run .stage1 x)).beginStage 1#2

/-- Stage 1: the record, then the house and die firmware (R427, R429, R430). -/
def State.stageOne (s : State) : State :=
  let p := s.platform
  match p.chooseRecord with
  | none => s.failBoot 0x03#8
  | some r =>
    let q := { p.extend 4 (bytes64 r.2.img.digest) with record := some r }
    match q.choose q.preferB .house, q.choose q.preferB .die with
    | some h, some d => (s.setPlatform ((q.run .house h).run .die d)).beginStage 2#2
    | _, _ => (s.setPlatform q).failBoot 0x02#8

/-- Channels of a die that did not train: 24 channels a die (R434) (DEDUCED 42). -/
def failedChannels (t : Training) (d : Nat) : List (BitVec 7) :=
  (((List.range 24).map (24 * d + ·)).filter fun c => !t.channels.elem c).map (BitVec.ofNat 7)

/-- Stage 2: training and links, then the operating system (R427, R430, R433, R434) (DESIGN CHOICE 80). -/
def State.stageTwo (s : State) (t : Training) : State :=
  let p := s.platform
  match p.record with
  | none => s.failBoot 0x03#8
  | some r =>
    if (List.range 4).any fun d => decide (2 < (failedChannels t d).length) then s.failBoot 0x06#8
    else if !t.pourLock then s.failBoot 0x07#8
    else if !t.supplyOk then s.failBoot 0x08#8
    else if r.2.tinmax.toNat < t.inletTemp then s.failBoot 0x09#8
    else match p.choose p.preferB .os with
      | none => s.failBoot 0x04#8
      | some o =>
        let lanes := fun (i : Fin 12) =>
          { (s.ports.get i) with lanes := if r.2.keaten.getLsbD i.val then 16#5 else 0#5 }
        let failed := (List.range 4).flatMap (failedChannels t)
        let s1 : State := { s with
          platform := { p.run .os o with
                        trained := t.channels, pourUp := true, cxlUp := r.2.cxlen.extractLsb' 0 10 &&& t.cxl
                        ports := Vector.ofFn fun (i : Fin 2) => t.eth.getLsbD i.val }
          ports := Vector.ofFn lanes
          dies := Vector.ofFn fun (d : Fin 4) => { s.dies.get d with retired := failedChannels t d.val } }
        (failed.foldl (fun u c => u.spared (.channel c)) s1).beginStage 3#2

/-- Stage 3: the Casot image, which writes the basic controls of every core; then core slots are enabled and the boot is complete
(R11, R33, R34, R427, R429, R431, R432) (DESIGN CHOICE 91). -/
def State.stageThree (s : State) : State :=
  let p := s.platform
  match p.choose p.preferB .casot with
  | none => s.failBoot 0x04#8
  | some c =>
    let q := (p.run .casot c).extend 5 [0#8]
    let advance := match q.record with | some r => r.2.svnadv == 1#16 | none => false
    let mins := if advance then q.running.foldl (fun (l : List (ImageKind × BitVec 6)) x =>
        if (q.svnMinOf x.1).toNat < x.2.2.svn.toNat then pairSet x.1 x.2.2.svn l else l) q.svnMin
      else q.svnMin
    { s with
      platform := { q with mode := .normal, failures := 0, svnMin := mins }.report
      enabled := true
      cores := s.cores.map fun x => (x.1, x.2.withBasic x.1) }

/-- BOOT_STAGE (R427): the running stage verifies the images of the next one and starts it (DESIGN CHOICE 80). -/
def execBootStage (t : Training) (s : State) : Out :=
  .next (if s.platform.mode ≠ .booting then s
    else if s.platform.stage = 0#2 then s.stageZero
    else if s.platform.stage = 1#2 then s.stageOne
    else if s.platform.stage = 2#2 then s.stageTwo t
    else s.stageThree)

/-- WATCHDOG_EXPIRY (R427, R433): the running stage has failed; its number is in bits 7:6 of the status byte. -/
def execWatchdogExpiry (s : State) : Out := .next (if s.platform.mode = .booting then s.failBoot 0x05#8 else s)

/-- The time of a stage's watchdog has passed (R427). -/
def State.watchdogEnds (s : State) (stage : BitVec 2) : State :=
  if s.platform.mode = .booting ∧ s.platform.stage = stage then s.failBoot 0x05#8 else s

/-! ### Attestation (R431) -/

/-- The house firmware runs: from stage 2 of a boot on, and in minimal mode (R427, R432). -/
def Platform.houseRuns (p : Platform) : Bool :=
  (p.mode == .booting && decide (2 ≤ p.stage.toNat)) || p.mode == .normal || p.mode == .minimal

/-- MEASUREMENT_EXTEND: the house firmware extends register 6 or 7 (R431). -/
def execMeasurementExtend (reg : BitVec 3) (digest : BitVec 512) (s : State) : Out :=
  .next (if 6 ≤ reg.toNat ∧ s.platform.houseRuns then
      s.setPlatform (s.platform.extend reg.toNat (bytes64 digest))
    else s)

/-- Number of a mode in a quote (DESIGN CHOICE 41). -/
def modeByte : Mode → Byte
  | .off => 0#8
  | .booting => 1#8
  | .normal => 2#8
  | .minimal => 3#8
  | .dead => 4#8

/-- What a quote holds: nonce, registers, stage, mode, SVN minimums, failure count (R431; the order of the spec's
sentence, assumption 41) (DESIGN CHOICE 41). -/
def Platform.quoteBody (p : Platform) (nonce : BitVec 512) : List Byte :=
  bytes64 nonce ++ p.measure.toList.flatMap bytes64 ++ [p.stage.setWidth 8, modeByte p.mode]
    ++ [ImageKind.stage1, .house, .die, .os, .casot, .recovery].map (fun k => (p.svnMinOf k).setWidth 8)
    ++ [BitVec.ofNat 8 p.failures]

/-- MGMTVLAN: of the record in use, else of the one that the flash holds (R430, R436). -/
def Platform.mgmtVlan (p : Platform) : Option (BitVec 16) := ((p.record.orElse fun _ => p.chooseRecord).map fun r => r.2.mgmtvlan)

/-- Management traffic is accepted: the module runs or boots, the port is up, and the frame is on MGMTVLAN, on any VLAN while no
record gives one (R432, R436, R438) (DEDUCED 42). -/
def Platform.accepts (p : Platform) (port : Bool) (vlan : BitVec 12) : Bool :=
  (p.mode == .booting || p.mode == .normal || p.mode == .minimal) && (p.ports[if port then 1 else 0]?).getD false
    && match p.mgmtVlan with
       | some v => v == vlan.setWidth 16
       | none => true

/-- QUOTE_REQUEST: answered on the management VLAN in every stage and in minimal mode (R431). -/
def execQuoteRequest (nonce : BitVec 512) (s : State) : Out :=
  .next (
    let p := s.platform
    if p.accepts p.mgmtIn.1 p.mgmtIn.2 then
      let b := p.quoteBody nonce
      s.setPlatform { p with quotes := p.quotes ++ [b ++ Config.quoteSignature b] }
    else s)

/-! ### Management (R429, R432, R438) -/

/-- A copy that runs: it is not rewritten (R429) (DEDUCED 42). -/
def Platform.runs (p : Platform) (k : ImageKind) (copyB : Bool) : Bool :=
  p.running.any fun x => x.1 == k && x.2.1 == copyB

/-- A write with a valid signature to a copy that does not run (R429, R438) (DEDUCED 42). -/
def Platform.writable (p : Platform) : MgmtItem → Bool
  | .image k copyB i => p.verifies k i && (if k = .recovery then !p.runs .recovery false else k != .record && !p.runs k copyB)
  | .record copyB r => p.recordOk r && !p.record.any fun x => x.1 == copyB

/-- MGMT_WRITE: a write takes effect at the next boot; one that comes during a boot is kept for it (R429, R438) (DEDUCED 42). -/
def execMgmtWrite (item : MgmtItem) (s : State) : Out :=
  .next (
    let p := s.platform
    if !p.accepts p.mgmtIn.1 p.mgmtIn.2 || !p.writable item then s
    else if p.mode = .booting then s.setPlatform { p with later := p.later ++ [item] }
    else s.setPlatform (p.store item))

/-- MGMT_RESET: in minimal mode the failure count becomes 0; the module boots (R432, R438). -/
def execMgmtReset (s : State) : Out :=
  .next (
    let p := s.platform
    if !p.accepts p.mgmtIn.1 p.mgmtIn.2 then s
    else if p.mode = .minimal then (s.setPlatform { p with failures := 0 }).boot
    else s.boot)

/-- What SMBus offers in every stage and mode: the status byte, the hottest die in 0.1 °C, the input power in W, and that the supplies
are in sequence (R438). -/
structure SmbusView where
  status  : BitVec 8
  hottest : Nat
  power   : Nat
  supply  : Bool
  deriving DecidableEq, Repr

/-- A read over SMBus, which changes nothing (R438) (DESIGN CHOICE 73). -/
def Platform.smbusView (p : Platform) : SmbusView :=
  { status := p.smbus, hottest := p.dieTemp.toList.foldl max 0, power := p.inputPower, supply := p.powered && !p.supplyBad }

/-- What the management VLAN reads: the reason code, the sensors, the links that are up and the log (R432, R438, R439). -/
structure MgmtView where
  reason : BitVec 8
  smbus  : SmbusView
  cores  : List (Nat × Nat)
  pour   : Bool
  cxl    : BitVec 10
  keatin : List (BitVec 5)
  log    : List HouseEvent
  deriving DecidableEq, Repr

/-- A read over the management VLAN, which changes nothing (R438) (DESIGN CHOICE 73). -/
def State.mgmtView (s : State) (port : Bool) (vlan : BitVec 12) : Option MgmtView :=
  let p := s.platform
  if p.accepts port vlan then
    some { reason := p.reason, smbus := p.smbusView, cores := s.cores.map fun x => (x.1, x.2.reading), pour := p.pourUp, cxl := p.cxlUp
           keatin := s.ports.toList.map fun x => x.lanes, log := p.log }
  else none

/-- The module powers down; a boot is broken off (R433). -/
def State.powerDown (s : State) (p : Platform) : State :=
  s.inReset { p.interrupted with mode := .off, powered := false, record := none, running := [] }

/-- SMBUS_POWER_DOWN (R438). -/
def execSmbusPowerDown (s : State) : Out := .next (s.powerDown s.platform)

/-- SUPPLY_OUT_OF_RANGE: an orderly power-down; reason 0x08 when it happens during boot (R433, R437). -/
def execSupplyOutOfRange (s : State) : Out :=
  .next (
    let p := { s.platform with supplyBad := true }
    if p.mode = .booting then s.powerDown ((s.setPlatform p).failBoot 0x08#8).platform else s.powerDown p)

/-! ### Power, cooling and parts that fail (R434 to R437) -/

/-- A die is held in reset, its threads are lost, and the trip is logged (R437) (DEDUCED 69). -/
def State.tripDie (s : State) (d : Nat) : State :=
  let here := fun (c : Nat) => coreDie c == d
  let lostGroups := (s.groups.filter fun (g : Group) => g.cores.any fun c => here c.toNat).map fun (g : Group) => g.id
  let live := s.threads.filter fun (x : Nat × Thread) => !here (tidCore x.1)
  let alive := fun (g : Group) => !lostGroups.elem g.id || live.any fun (x : Nat × Thread) => x.2.group == g.id
  let reset := ((List.range 1024).map (1024 * d + ·)).map fun c => (c, { Core.reset with lost := true })
  ({ s with
    threads := live
    cores := (s.cores.filter fun (x : Nat × Core) => x.1 < 1024 * d) ++ reset
      ++ s.cores.filter fun (x : Nat × Core) => 1024 * (d + 1) ≤ x.1
    clusters := s.clusters.filter fun (x : Nat × Cluster) => x.1 / 128 ≠ d
    rovers := s.rovers.filter fun (r : Rover) => !here r.target.toNat
    susps := s.susps.filter fun (x : Susp) => !(x.tids.any fun t => here (tidCore t.toNat))
    resumes := s.resumes.filter fun (r : Resume) => !here r.core.toNat
    groups := s.groups.filter alive }.modDie d fun x => { x with queue := [], tripped := true }).logEvent (.trip (BitVec.ofNat 2 d))

/-- JUNCTION_TRIP (R437) (DEDUCED 69). -/
def execJunctionTrip (die : BitVec 2) (s : State) : Out := .next (s.tripDie die.toNat)

/-- POWER_CAP_EXCEEDED: while the input power is above the cap, the house cores lower a cluster's budget of the matrix engines from the
next window on (R317, R437). -/
def execPowerCapExceeded (cluster : BitVec 9) (budget : BitVec 16) (s : State) : Out :=
  .next (if s.platform.inputPower ≤ s.platform.cap then s
    else s.modCluster cluster.toNat fun k => { k with budgetNext := some (match k.budget with
      | some b => min b budget.toNat
      | none => budget.toNat) })

/-- The hot thresholds' action is raised, or is as before: while it is raised, every core disables worker slots (R174, R437) (DESIGN CHOICE 73). -/
def State.coolantAction (s : State) (hot : Bool) : State :=
  let s1 := s.setPlatform { s.platform with hotAction := hot }
  s1.cores.foldl (fun u x => u.schedule u.time (if hot then .thermalDisable (BitVec.ofNat 12 x.1) else .thermalEnable (BitVec.ofNat 12 x.1)))
    s1

/-- COOLANT_LIMIT: the house cores raise the action of the hot thresholds (R174, R437). -/
def execCoolantLimit (s : State) : Out := .next (s.coolantAction true)

/-- CHANNEL_RETIRE (R434): up to two channels of a die are retired, and logged (R439); a third failure fails a boot with 0x06, and at
run time takes the die's tier-1 pages to tier 2 (DEDUCED 42). -/
def execChannelRetire (channel : BitVec 7) (s : State) : Out :=
  .next (
    let d := channel.toNat / 24
    let old := (s.die d).retired
    if 96 ≤ channel.toNat ∨ old.elem channel then s
    else if 2 ≤ old.length ∧ s.platform.mode = .booting then s.failBoot 0x06#8
    else
      let s1 := s.modDie d fun x => { x with retired := x.retired ++ [channel] }
      if old.length < 2 then s1.spared (.channel channel)
      else { s1 with pages := s1.pages.map fun (p : PageRec) => if p.home.toNat = d then { p with tier2 := true } else p })

/-- The capacity of a page has gone, for every job that has mapped it: later accesses to it meet a refused translation (R189, R339, R435) (DESIGN CHOICE 96). -/
def State.capacityGone (s : State) (base : Nat) : State :=
  match s.pages.find? fun (p : PageRec) => p.base == base with
  | none => s
  | some page =>
    let s1 := s.withdrawPages fun _ b => b == base
    let mine := fun (_ : BitVec 32) (a : Nat) => pageHolds page a
    ({ s1 with released := s1.released ++ [(page.base, page.size)] }.wakeLatched mine).resumeCopies mine
      (some (3, 9))

/-- CXL_CAPACITY_CHANGE (R435): the house cores map capacity added behind a port that has trained; accesses to a page whose capacity has gone meet a
refused translation. -/
def execCxlCapacityChange (c : CxlChange) (s : State) : Out :=
  match c with
  | .add page => if page.tier2 ∧ s.platform.cxlUp ≠ 0#10 then .next (s.mapPage page) else .next s
  | .release base => .next (s.capacityGone base)
  | .remove base => .next (s.capacityGone base)

/-- ETHERNET_FRAME (R436): the house cores write an arrival where its receiver expects it; management traffic is
another path, and only MGMTVLAN carries it; a job that logs has the arrival in its log, for no thread yet (R418). A port that has failed gives its traffic to the other (DESIGN CHOICE 71). -/
def execEthernetFrame (port : Bool) (vlan : BitVec 12) (addr : Nat) (bytes : List Byte) (s : State) : Out :=
  .next (
    let p := s.platform
    let mgmt := p.mgmtVlan.any fun v => v == vlan.setWidth 16
    let up := p.ports.toList.any fun x => x
    let _ := port
    let mapped := fun (a : Nat) => isSpad a || isCarafe a || isTier a
    if p.mode != .normal || mgmt || !up || decide (9216 < bytes.length) || !mapped addr || bytes.isEmpty || !mapped (addr + bytes.length - 1) then s
    else
      let item : ReplayItem := { kind := 2#8, gtid := 0#22, instret := 0#64, value0 := BitVec.ofNat 64 addr
                                 value1 := BitVec.ofNat 64 bytes.length }
      { s with
        mem := writeCells s.mem ((bytes.zipIdx).map fun x => (addr + x.2, x.1))
        platform := { p with netLog := p.netLog ++ [(addr, bytes)] }
        replayLog := if s.jobs.any fun j => j.logged then s.replayLog ++ [item] else s.replayLog })

/-- ETHERNET_FAILOVER: a port fails and gives its traffic to the other, which the house cores log (R436, R439). -/
def execEthernetFailover (port : Bool) (s : State) : Out :=
  .next ((s.setPlatform { s.platform with ports := s.platform.ports.setIfInBounds (if port then 1 else 0) false }).spared
    (.ethernet port))

/-- REPLAY_ITEM_DELIVERY: an item is there for its thread, which meets it once its INSTRET reaches the stamp (R418) (DESIGN CHOICE 72). -/
def execReplayItemDelivery (item : ReplayItem) (s : State) : Out := .next { s with replayIn := s.replayIn ++ [item] }

end Sys2Proof.Machine
end

