-- ==== Sys2Proof/Machine/Vector.lean ====
section
/-! DEFINITION. Vector instructions that touch no memory: moves (R285), arithmetic (R286 to R291), conversion
and quantisation (R292, R293), functions (R294) and mask operations (R295). -/

set_option Elab.async false

namespace Sys2Proof.Machine

/-! ### Shared forms -/

/-- An inactive lane keeps the destination's value, so a masked form reads it (R277) (DEDUCED 15). -/
def keepReads (m : Option KReg) (d : VReg) : List (BitVec 4) := match m with
  | some k => [kdest k, vdest d]
  | none => []

/-- An element-wise form: sources `rs`, lanes of width `w`, the operation on lane i (R275, R286). `ok` says that
the format is one that the operation accepts (R280). -/
def State.elementwise (s : State) (tid : Nat) (t : Thread) (i : Instr) (ok : Bool) (c : VClass) (w : Nat)
    (m : Option KReg) (d : VReg) (rs : List VReg) (win : BitVec 2) (f : Nat → Nat × Flags) : State :=
  if ok then
    s.withVecs tid t (rs.map vdest ++ keepReads m d) fun _ =>
      let (v, fl) := mapLanes w (t.maskOf m) f (t.vreg d)
      s.nextVec tid t c (vdest d) v fl win
  else s.illegal tid t i

/-- A form of two sources. -/
def State.elem2 (s : State) (tid : Nat) (t : Thread) (i : Instr) (ok : Bool) (f : Fmt) (m : Option KReg) (d a b : VReg)
    (win : BitVec 2) (op : Fmt → Nat → Nat → Nat × Flags) : State :=
  let w := fmtWidth f
  s.elementwise tid t i ok .simple w m d [a, b] win fun n => op f (laneOf (t.vreg a) w n) (laneOf (t.vreg b) w n)

/-- A form of one source. -/
def State.elem1 (s : State) (tid : Nat) (t : Thread) (i : Instr) (ok : Bool) (c : VClass) (f : Fmt) (m : Option KReg)
    (d a : VReg) (win : BitVec 2) (op : Fmt → Nat → Nat × Flags) : State :=
  let w := fmtWidth f
  s.elementwise tid t i ok c w m d [a] win fun n => op f (laneOf (t.vreg a) w n)

/-- A fused form: it reads its destination (R287). -/
def State.elem3 (s : State) (tid : Nat) (t : Thread) (i : Instr) (ok : Bool) (f : Fmt) (m : Option KReg) (d a b : VReg)
    (win : BitVec 2) (op : Fmt → Nat → Nat → Nat → Nat × Flags) : State :=
  let w := fmtWidth f
  s.elementwise tid t i ok .fused w m d [a, b, d] win fun n =>
    op f (laneOf (t.vreg a) w n) (laneOf (t.vreg b) w n) (laneOf (t.vreg d) w n)

/-! ### Moves (R285) -/

/-- `vmvx vd, xa, lane`: one 64-bit lane written, the others unchanged; it reads vd. -/
def execVmvx (d : VReg) (x : Reg) (lane : BitVec 3) (w : BitVec 2) (s : State) : Out :=
  performing s fun tid t =>
    s.withVecs tid t [vdest d] fun _ =>
      s.nextVec tid t .simple (vdest d) (setLane (t.vreg d) 64 lane.toNat (t.reg x).toNat) 0#6 w

/-- `vmxv xd, va, lane`: X[rd] := a 64-bit lane, untainted. -/
def execVmxv (x : Reg) (a : VReg) (lane : BitVec 3) (w : BitVec 2) (s : State) : Out :=
  let _ := w
  performing s fun tid t =>
    s.withVecs tid t [vdest a] fun _ => s.writeReg tid t x (BitVec.ofNat 64 (laneOf (t.vreg a) 64 lane.toNat)) false

/-- `vbc.fmt vd, xa`: every lane := the low bits of X[rs1]. -/
def execVbc (f : Fmt) (d : VReg) (x : Reg) (w : BitVec 2) (s : State) : Out :=
  performing s fun tid t =>
    s.nextVec tid t .simple (vdest d) (fromLanes (fmtWidth f) (List.replicate (fmtLanes f) (t.reg x).toNat)) 0#6 w

/-! ### Arithmetic (R286, R287) -/

/-- `vadd` (R286, R287). -/
def execVadd (f : Fmt) (m : Option KReg) (d a b : VReg) (w : BitVec 2) (s : State) : Out :=
  performing s fun tid t => s.elem2 tid t (.vadd f m d a b w) f.arith f m d a b w laneAdd

/-- `vsub` (R286, R287). -/
def execVsub (f : Fmt) (m : Option KReg) (d a b : VReg) (w : BitVec 2) (s : State) : Out :=
  performing s fun tid t => s.elem2 tid t (.vsub f m d a b w) f.arith f m d a b w laneSub

/-- `vmul` (R286, R287). -/
def execVmul (f : Fmt) (m : Option KReg) (d a b : VReg) (w : BitVec 2) (s : State) : Out :=
  performing s fun tid t => s.elem2 tid t (.vmul f m d a b w) f.arith f m d a b w laneMul

/-- `vfma`: A × B + D (R287). -/
def execVfma (f : Fmt) (m : Option KReg) (d a b : VReg) (w : BitVec 2) (s : State) : Out :=
  performing s fun tid t => s.elem3 tid t (.vfma f m d a b w) f.float3 f m d a b w laneFma

/-- `vfms`: A × B − D (R287). -/
def execVfms (f : Fmt) (m : Option KReg) (d a b : VReg) (w : BitVec 2) (s : State) : Out :=
  performing s fun tid t => s.elem3 tid t (.vfms f m d a b w) f.float3 f m d a b w laneFms

/-- `vmax` (R286, R287). -/
def execVmax (f : Fmt) (m : Option KReg) (d a b : VReg) (w : BitVec 2) (s : State) : Out :=
  performing s fun tid t => s.elem2 tid t (.vmax f m d a b w) f.arith f m d a b w (laneMaxMin true)

/-- `vmin` (R286, R287). -/
def execVmin (f : Fmt) (m : Option KReg) (d a b : VReg) (w : BitVec 2) (s : State) : Out :=
  performing s fun tid t => s.elem2 tid t (.vmin f m d a b w) f.arith f m d a b w (laneMaxMin false)

/-- `vabs` (R286, R287) (DEDUCED 47). -/
def execVabs (f : Fmt) (m : Option KReg) (d a : VReg) (w : BitVec 2) (s : State) : Out :=
  performing s fun tid t => s.elem1 tid t (.vabs f m d a w) f.arith .simple f m d a w laneAbs

/-- `vneg` (R286, R287) (DEDUCED 47). -/
def execVneg (f : Fmt) (m : Option KReg) (d a : VReg) (w : BitVec 2) (s : State) : Out :=
  performing s fun tid t => s.elem1 tid t (.vneg f m d a w) f.arith .simple f m d a w laneNeg

/-! ### Logic and shifts (R288) -/

/-- A logic form: 64-bit lanes under the mask (R288). -/
def State.logic (s : State) (tid : Nat) (t : Thread) (i : Instr) (m : Option KReg) (d : VReg) (rs : List VReg) (v : VWord)
    (win : BitVec 2) : State :=
  s.elementwise tid t i true .simple 64 m d rs win fun n => (laneOf v 64 n, 0#6)

/-- `vand` (R288). -/
def execVand (m : Option KReg) (d a b : VReg) (w : BitVec 2) (s : State) : Out :=
  performing s fun tid t => s.logic tid t (.vand m d a b w) m d [a, b] (t.vreg a &&& t.vreg b) w

/-- `vor` (R288). -/
def execVor (m : Option KReg) (d a b : VReg) (w : BitVec 2) (s : State) : Out :=
  performing s fun tid t => s.logic tid t (.vor m d a b w) m d [a, b] (t.vreg a ||| t.vreg b) w

/-- `vxor` (R288). -/
def execVxor (m : Option KReg) (d a b : VReg) (w : BitVec 2) (s : State) : Out :=
  performing s fun tid t => s.logic tid t (.vxor m d a b w) m d [a, b] (t.vreg a ^^^ t.vreg b) w

/-- `vnot` (R288). -/
def execVnot (m : Option KReg) (d a : VReg) (w : BitVec 2) (s : State) : Out :=
  performing s fun tid t => s.logic tid t (.vnot m d a w) m d [a] (~~~(t.vreg a)) w

/-- Shift left; 0 from the width on. -/
def laneSll (f : Fmt) (a b : Nat) : Nat × Flags := (if fmtWidth f ≤ b then 0 else a * 2 ^ b % 2 ^ fmtWidth f, 0#6)

/-- Logical shift right; 0 from the width on. -/
def laneSrl (f : Fmt) (a b : Nat) : Nat × Flags := (if fmtWidth f ≤ b then 0 else a / 2 ^ b, 0#6)

/-- Arithmetic shift right; all sign bits from the width on. -/
def laneSra (f : Fmt) (a b : Nat) : Nat × Flags :=
  (intLane (fmtWidth f) (laneInt true (fmtWidth f) a / 2 ^ (min b (fmtWidth f))), 0#6)

/-- `vsll` (R288). -/
def execVsll (f : Fmt) (m : Option KReg) (d a b : VReg) (w : BitVec 2) (s : State) : Out :=
  performing s fun tid t => s.elem2 tid t (.vsll f m d a b w) f.intShift f m d a b w laneSll

/-- `vsrl` (R288). -/
def execVsrl (f : Fmt) (m : Option KReg) (d a b : VReg) (w : BitVec 2) (s : State) : Out :=
  performing s fun tid t => s.elem2 tid t (.vsrl f m d a b w) f.intShift f m d a b w laneSrl

/-- `vsra` (R288). -/
def execVsra (f : Fmt) (m : Option KReg) (d a b : VReg) (w : BitVec 2) (s : State) : Out :=
  performing s fun tid t => s.elem2 tid t (.vsra f m d a b w) f.intArithShift f m d a b w laneSra

/-! ### Comparison, selection and permutation (R289, R290) -/

/-- `vcmp.cc kd, va, vb`: bit i for each active lane, every other bit 0 (R289). -/
def State.vcmp (s : State) (tid : Nat) (t : Thread) (i : Instr) (c : Cmp) (f : Fmt) (m : Option KReg) (d : KReg) (a b : VReg)
    (win : BitVec 2) : State :=
  if f.arith then
    s.withVecs tid t ([vdest a, vdest b] ++ maskReads m) fun _ =>
      let w := fmtWidth f
      let k := t.maskOf m
      let rs := (List.range (fmtLanes f)).map fun n =>
        if activeLane k n then laneCmp c f (laneOf (t.vreg a) w n) (laneOf (t.vreg b) w n) else (false, 0#6)
      s.nextVec tid t .simple (kdest d) ((fromBits (rs.map (·.1))).setWidth 512) (rs.foldl (fun x r => x ||| r.2) 0#6) win
  else s.illegal tid t i

/-- `vcmp.eq` (R289). -/
def execVcmpEq (f : Fmt) (m : Option KReg) (d : KReg) (a b : VReg) (w : BitVec 2) (s : State) : Out :=
  performing s fun tid t => s.vcmp tid t (.vcmpEq f m d a b w) .eq f m d a b w

/-- `vcmp.lt` (R289). -/
def execVcmpLt (f : Fmt) (m : Option KReg) (d : KReg) (a b : VReg) (w : BitVec 2) (s : State) : Out :=
  performing s fun tid t => s.vcmp tid t (.vcmpLt f m d a b w) .lt f m d a b w

/-- `vcmp.le` (R289). -/
def execVcmpLe (f : Fmt) (m : Option KReg) (d : KReg) (a b : VReg) (w : BitVec 2) (s : State) : Out :=
  performing s fun tid t => s.vcmp tid t (.vcmpLe f m d a b w) .le f m d a b w

/-- `vsel.fmt vd, va, vb, kn`: lane i of va where the mask is 1, of vb elsewhere (R290). -/
def execVsel (f : Fmt) (n : KReg) (d a b : VReg) (w : BitVec 2) (s : State) : Out :=
  performing s fun tid t =>
    if f.arith then
      s.withVecs tid t [vdest a, vdest b, kdest n] fun _ =>
        let x := fmtWidth f
        let v := fromLanes x ((List.range (fmtLanes f)).map fun i =>
          laneOf (if (t.kreg n).getLsbD i then t.vreg a else t.vreg b) x i)
        s.nextVec tid t .simple (vdest d) v 0#6 w
    else s.illegal tid t (.vsel f n d a b w)

/-- `vperm.fmt vd, va, vb`: active lane i := A[B[i] mod L] (R290). -/
def execVperm (f : Fmt) (m : Option KReg) (d a b : VReg) (w : BitVec 2) (s : State) : Out :=
  performing s fun tid t =>
    s.elem2 tid t (.vperm f m d a b w) f.arith f m d a b w fun g _ i => (laneOf (t.vreg a) (fmtWidth g) (i % fmtLanes g), 0#6)

/-! ### Reductions and scans (R291) -/

/-- A reduction: lane 0 := the fold of the active lanes, every other lane 0 (R291). -/
def State.reduce (s : State) (tid : Nat) (t : Thread) (i : Instr) (f : Fmt) (m : Option KReg) (d a : VReg) (win : BitVec 2)
    (op : Fmt → List Nat → Nat × Flags) : State :=
  if f.arith then
    s.withVecs tid t (vdest a :: maskReads m) fun _ =>
      let l := activeLanes (fmtWidth f) (t.maskOf m) (t.vreg a)
      let (v, fl) := if l.isEmpty then (0, 0#6) else op f l
      s.nextVec tid t .reduction (vdest d) (BitVec.ofNat 512 v) fl win
  else s.illegal tid t i

/-- `vred.add` (R291). -/
def execVredAdd (f : Fmt) (m : Option KReg) (d a : VReg) (w : BitVec 2) (s : State) : Out :=
  performing s fun tid t => s.reduce tid t (.vredAdd f m d a w) f m d a w laneSum

/-- `vred.max` (R291). -/
def execVredMax (f : Fmt) (m : Option KReg) (d a : VReg) (w : BitVec 2) (s : State) : Out :=
  performing s fun tid t => s.reduce tid t (.vredMax f m d a w) f m d a w (laneFold true)

/-- `vred.min` (R291). -/
def execVredMin (f : Fmt) (m : Option KReg) (d a : VReg) (w : BitVec 2) (s : State) : Out :=
  performing s fun tid t => s.reduce tid t (.vredMin f m d a w) f m d a w (laneFold false)

/-- `vscan`: each active lane := the sum of the active lanes at or below it, rounded once (R291). -/
def execVscan (f : Fmt) (m : Option KReg) (d a : VReg) (w : BitVec 2) (s : State) : Out :=
  performing s fun tid t =>
    let x := fmtWidth f
    let k := t.maskOf m
    s.elementwise tid t (.vscan f m d a w) f.arith .reduction x m d [a] w fun i =>
      laneSum f (((List.range (i + 1)).filter (activeLane k)).map (laneOf (t.vreg a) x))

/-! ### Conversion and quantisation (R292, R293) -/

/-- `vcvt.dst.src.rm vd, va`: the low lanes converted, the rest of vd 0 (R292). -/
def execVcvt (f sf : Fmt) (rm : Rm) (d a : VReg) (w : BitVec 2) (s : State) : Out :=
  performing s fun tid t =>
    s.withVecs tid t [vdest a] fun _ =>
      let n := min (fmtLanes f) (fmtLanes sf)
      let rs := (List.range n).map fun i => laneConvert f sf rm (laneOf (t.vreg a) (fmtWidth sf) i)
      s.nextVec tid t .simple (vdest d) (fromLanes (fmtWidth f) (rs.map (·.1))) (rs.foldl (fun x r => x ||| r.2) 0#6) w

/-- Code width of `vq` and `vdq`: INT8A under fmt 0x4, INT4A under 0x5 (R293). -/
def quantWidth (f : Fmt) : Nat := if f = .uint8 then 8 else 4

/-- The offending dword of group parameters, when they are malformed: dword 0 holds ENTRY, dword 2 holds P
(R293) (DEDUCED 45). -/
def quantBad (w : Nat) (p : VWord) : Option Word :=
  let d := fun n => entryDw p n
  if (d 0).extractLsb' 32 32 ≠ 0#32 ∨ asymMalformed w ((d 0).extractLsb' 0 32).toNat then some (d 0)
  else if d 1 ≠ 0#64 then some (d 1)
  else if (d 2).extractLsb' 3 61 ≠ 0#61 ∨ (w = 8 ∧ 3 < ((d 2).extractLsb' 0 3).toNat) then some (d 2)
  else ((List.range 5).map fun n => d (n + 3)).find? (· != 0#64)

/-- P of group parameters. -/
def quantBlock (p : VWord) : Nat := (p.extractLsb' 128 3).toNat

/-- ENTRY of group parameters (DEDUCED 45). -/
def quantEntry (p : VWord) : Nat := (p.extractLsb' 0 32).toNat

/-- `vq.fmt vd, va, vb`: 16 FP32 lanes become codes of block P; every other lane of vd stays (R293). -/
def execVq (f : Fmt) (m : Option KReg) (d a b : VReg) (w : BitVec 2) (s : State) : Out :=
  performing s fun tid t =>
    if f.asymCode then
      s.withVecs tid t ([vdest a, vdest b, vdest d] ++ maskReads m) fun _ =>
        let x := quantWidth f
        let p := t.vreg b
        match quantBad x p with
        | some e => s.trap tid t cBANKFMT e
        | none =>
          let k := t.maskOf m
          let (v, fl) := (List.range 16).foldl (fun (acc : VWord × Flags) i =>
            if activeLane k i then
              let (c, g) := asymEncode x (quantEntry p) (fp32.decode (laneOf (t.vreg a) 32 i))
              (setLane acc.1 x (16 * quantBlock p + i) c, acc.2 ||| g)
            else acc) (t.vreg d, 0#6)
          s.nextVec tid t .fused (vdest d) v fl w
    else s.illegal tid t (.vq f m d a b w)

/-- `vdq.fmt vd, va, vb`: FP32 lane i := scale × (code − zp) (R293). -/
def execVdq (f : Fmt) (m : Option KReg) (d a b : VReg) (w : BitVec 2) (s : State) : Out :=
  performing s fun tid t =>
    if f.asymCode then
      s.withVecs tid t ([vdest a, vdest b] ++ keepReads m d) fun _ =>
        let x := quantWidth f
        let p := t.vreg b
        match quantBad x p with
        | some e => s.trap tid t cBANKFMT e
        | none =>
          let (v, fl) := mapLanes 32 (t.maskOf m) (fun i =>
            fp32.deliver .rne true (asymDecode (quantEntry p) (laneOf (t.vreg a) x (16 * quantBlock p + i)))) (t.vreg d)
          s.nextVec tid t .fused (vdest d) v fl w
    else s.illegal tid t (.vdq f m d a b w)

/-! ### Functions (R294) -/

/-- `vexp2`: `2^x` (R294). -/
def execVexp2 (f : Fmt) (m : Option KReg) (d a : VReg) (w : BitVec 2) (s : State) : Out :=
  performing s fun tid t => s.elem1 tid t (.vexp2 f m d a w) f.float3 .function f m d a w (laneFn .exp2)

/-- `vrcp`: `1 ÷ x` (R294). -/
def execVrcp (f : Fmt) (m : Option KReg) (d a : VReg) (w : BitVec 2) (s : State) : Out :=
  performing s fun tid t => s.elem1 tid t (.vrcp f m d a w) f.float3 .function f m d a w (laneFn .rcp)

/-- `vrsq`: `1 ÷ √x` (R294). -/
def execVrsq (f : Fmt) (m : Option KReg) (d a : VReg) (w : BitVec 2) (s : State) : Out :=
  performing s fun tid t => s.elem1 tid t (.vrsq f m d a w) f.float3 .function f m d a w (laneFn .rsq)

/-- `vsig`: `1 ÷ (1 + e^(−x))` (R294). -/
def execVsig (f : Fmt) (m : Option KReg) (d a : VReg) (w : BitVec 2) (s : State) : Out :=
  performing s fun tid t => s.elem1 tid t (.vsig f m d a w) f.float3 .function f m d a w (laneFn .sig)

/-- `vtanh`: `tanh x` (R294). -/
def execVtanh (f : Fmt) (m : Option KReg) (d a : VReg) (w : BitVec 2) (s : State) : Out :=
  performing s fun tid t => s.elem1 tid t (.vtanh f m d a w) f.float3 .function f m d a w (laneFn .tanh)

/-! ### Mask operations (R295) -/

/-- A mask operation on all 128 bits (R295). -/
def State.maskOp (s : State) (tid : Nat) (t : Thread) (d : KReg) (rs : List KReg) (v : MaskWord) (win : BitVec 2) : State :=
  s.withVecs tid t (rs.map kdest) fun _ => s.nextVec tid t .simple (kdest d) (v.setWidth 512) 0#6 win

/-- `kand` (R295). -/
def execKand (d a b : KReg) (w : BitVec 2) (s : State) : Out :=
  performing s fun tid t => s.maskOp tid t d [a, b] (t.kreg a &&& t.kreg b) w

/-- `kor` (R295). -/
def execKor (d a b : KReg) (w : BitVec 2) (s : State) : Out :=
  performing s fun tid t => s.maskOp tid t d [a, b] (t.kreg a ||| t.kreg b) w

/-- `knot` (R295). -/
def execKnot (d a : KReg) (w : BitVec 2) (s : State) : Out :=
  performing s fun tid t => s.maskOp tid t d [a] (~~~(t.kreg a)) w

/-- `kmv` (R295). -/
def execKmv (d a : KReg) (w : BitVec 2) (s : State) : Out :=
  performing s fun tid t => s.maskOp tid t d [a] (t.kreg a) w

end Sys2Proof.Machine
end

