-- ==== Sys2Proof/Machine/Dispatch.lean ====
section
/-! DEFINITION. The meaning of each constructor of Instr: one arm, one direct call. -/

namespace Sys2Proof.Machine

/-- The effect of one step of the module. -/
def exec (i : Instr) (s : State) : Host.Outcome State Fault Refusal :=
  match i with
  | .lb d a imm => Sys2Proof.Machine.execLb d a imm s
  | .lh d a imm => Sys2Proof.Machine.execLh d a imm s
  | .lw d a imm => Sys2Proof.Machine.execLw d a imm s
  | .ld d a imm => Sys2Proof.Machine.execLd d a imm s
  | .lbu d a imm => Sys2Proof.Machine.execLbu d a imm s
  | .lhu d a imm => Sys2Proof.Machine.execLhu d a imm s
  | .lwu d a imm => Sys2Proof.Machine.execLwu d a imm s
  | .sb a b imm => Sys2Proof.Machine.execSb a b imm s
  | .sh a b imm => Sys2Proof.Machine.execSh a b imm s
  | .sw a b imm => Sys2Proof.Machine.execSw a b imm s
  | .sd a b imm => Sys2Proof.Machine.execSd a b imm s
  | .addi d a imm => Sys2Proof.Machine.execAddi d a imm s
  | .slti d a imm => Sys2Proof.Machine.execSlti d a imm s
  | .sltiu d a imm => Sys2Proof.Machine.execSltiu d a imm s
  | .xori d a imm => Sys2Proof.Machine.execXori d a imm s
  | .ori d a imm => Sys2Proof.Machine.execOri d a imm s
  | .andi d a imm => Sys2Proof.Machine.execAndi d a imm s
  | .slli d a sh => Sys2Proof.Machine.execSlli d a sh s
  | .srli d a sh => Sys2Proof.Machine.execSrli d a sh s
  | .srai d a sh => Sys2Proof.Machine.execSrai d a sh s
  | .addiw d a imm => Sys2Proof.Machine.execAddiw d a imm s
  | .slliw d a sh => Sys2Proof.Machine.execSlliw d a sh s
  | .srliw d a sh => Sys2Proof.Machine.execSrliw d a sh s
  | .sraiw d a sh => Sys2Proof.Machine.execSraiw d a sh s
  | .add d a b => Sys2Proof.Machine.execAdd d a b s
  | .sll d a b => Sys2Proof.Machine.execSll d a b s
  | .slt d a b => Sys2Proof.Machine.execSlt d a b s
  | .sltu d a b => Sys2Proof.Machine.execSltu d a b s
  | .xor d a b => Sys2Proof.Machine.execXor d a b s
  | .srl d a b => Sys2Proof.Machine.execSrl d a b s
  | .or d a b => Sys2Proof.Machine.execOr d a b s
  | .and d a b => Sys2Proof.Machine.execAnd d a b s
  | .sub d a b => Sys2Proof.Machine.execSub d a b s
  | .sra d a b => Sys2Proof.Machine.execSra d a b s
  | .mul d a b => Sys2Proof.Machine.execMul d a b s
  | .mulh d a b => Sys2Proof.Machine.execMulh d a b s
  | .mulhsu d a b => Sys2Proof.Machine.execMulhsu d a b s
  | .mulhu d a b => Sys2Proof.Machine.execMulhu d a b s
  | .div d a b => Sys2Proof.Machine.execDiv d a b s
  | .divu d a b => Sys2Proof.Machine.execDivu d a b s
  | .rem d a b => Sys2Proof.Machine.execRem d a b s
  | .remu d a b => Sys2Proof.Machine.execRemu d a b s
  | .addw d a b => Sys2Proof.Machine.execAddw d a b s
  | .sllw d a b => Sys2Proof.Machine.execSllw d a b s
  | .srlw d a b => Sys2Proof.Machine.execSrlw d a b s
  | .subw d a b => Sys2Proof.Machine.execSubw d a b s
  | .sraw d a b => Sys2Proof.Machine.execSraw d a b s
  | .mulw d a b => Sys2Proof.Machine.execMulw d a b s
  | .divw d a b => Sys2Proof.Machine.execDivw d a b s
  | .divuw d a b => Sys2Proof.Machine.execDivuw d a b s
  | .remw d a b => Sys2Proof.Machine.execRemw d a b s
  | .remuw d a b => Sys2Proof.Machine.execRemuw d a b s
  | .lui d imm => Sys2Proof.Machine.execLui d imm s
  | .auipc d imm => Sys2Proof.Machine.execAuipc d imm s
  | .jal d off => Sys2Proof.Machine.execJal d off s
  | .jalr d a imm => Sys2Proof.Machine.execJalr d a imm s
  | .beq a b off => Sys2Proof.Machine.execBeq a b off s
  | .bne a b off => Sys2Proof.Machine.execBne a b off s
  | .blt a b off => Sys2Proof.Machine.execBlt a b off s
  | .bge a b off => Sys2Proof.Machine.execBge a b off s
  | .bltu a b off => Sys2Proof.Machine.execBltu a b off s
  | .bgeu a b off => Sys2Proof.Machine.execBgeu a b off s
  | .fence tso pred succ => Sys2Proof.Machine.execFence tso pred succ s
  | .ecall => Sys2Proof.Machine.execEcall s
  | .ebreak => Sys2Proof.Machine.execEbreak s
  | .csrrw d a n => Sys2Proof.Machine.execCsrrw d a n s
  | .csrrs d a n => Sys2Proof.Machine.execCsrrs d a n s
  | .csrrc d a n => Sys2Proof.Machine.execCsrrc d a n s
  | .csrrwi d u n => Sys2Proof.Machine.execCsrrwi d u n s
  | .csrrsi d u n => Sys2Proof.Machine.execCsrrsi d u n s
  | .csrrci d u n => Sys2Proof.Machine.execCsrrci d u n s
  | .min d a b => Sys2Proof.Machine.execMin d a b s
  | .max d a b => Sys2Proof.Machine.execMax d a b s
  | .minu d a b => Sys2Proof.Machine.execMinu d a b s
  | .maxu d a b => Sys2Proof.Machine.execMaxu d a b s
  | .clz d a => Sys2Proof.Machine.execClz d a s
  | .ctz d a => Sys2Proof.Machine.execCtz d a s
  | .cpop d a => Sys2Proof.Machine.execCpop d a s
  | .pmvXp d => Sys2Proof.Machine.execPmvXp d s
  | .pmvPx a => Sys2Proof.Machine.execPmvPx a s
  | .sel d n a b => Sys2Proof.Machine.execSel d n a b s
  | .psetEq p a b => Sys2Proof.Machine.execPsetEq p a b s
  | .psetNe p a b => Sys2Proof.Machine.execPsetNe p a b s
  | .psetLt p a b => Sys2Proof.Machine.execPsetLt p a b s
  | .psetGe p a b => Sys2Proof.Machine.execPsetGe p a b s
  | .psetLtu p a b => Sys2Proof.Machine.execPsetLtu p a b s
  | .psetGeu p a b => Sys2Proof.Machine.execPsetGeu p a b s
  | .bp p off => Sys2Proof.Machine.execBp p off s
  | .bnp p off => Sys2Proof.Machine.execBnp p off s
  | .endThread => Sys2Proof.Machine.execEndThread s
  | .detach => Sys2Proof.Machine.execDetach s
  | .start d a b => Sys2Proof.Machine.execStart d a b s
  | .startg d a b => Sys2Proof.Machine.execStartg d a b s
  | .rove d a b => Sys2Proof.Machine.execRove d a b s
  | .taskget d => Sys2Proof.Machine.execTaskget d s
  | .taskadd d a => Sys2Proof.Machine.execTaskadd d a s
  | .grow d a => Sys2Proof.Machine.execGrow d a s
  | .sleep a => Sys2Proof.Machine.execSleep a s
  | .dlset a => Sys2Proof.Machine.execDlset a s
  | .dlclr => Sys2Proof.Machine.execDlclr s
  | .join k => Sys2Proof.Machine.execJoin k s
  | .susp d a b => Sys2Proof.Machine.execSusp d a b s
  | .resm a b => Sys2Proof.Machine.execResm a b s
  | .ccopy a b => Sys2Proof.Machine.execCcopy a b s
  | .cdisc a b => Sys2Proof.Machine.execCdisc a b s
  | .cstat d a => Sys2Proof.Machine.execCstat d a s
  | .migcore a b => Sys2Proof.Machine.execMigcore a b s
  | .tret => Sys2Proof.Machine.execTret s
  | .halt => Sys2Proof.Machine.execHalt s
  | .hold a => Sys2Proof.Machine.execHold a s
  | .rel a => Sys2Proof.Machine.execRel a s
  | .lconW d a imm => Sys2Proof.Machine.execLconW d a imm s
  | .lconD d a imm => Sys2Proof.Machine.execLconD d a imm s
  | .lswK d a b => Sys2Proof.Machine.execLswK d a b s
  | .lswC d a b => Sys2Proof.Machine.execLswC d a b s
  | .sswE a b c => Sys2Proof.Machine.execSswE a b c s
  | .sswF a b c => Sys2Proof.Machine.execSswF a b c s
  | .feSet a => Sys2Proof.Machine.execFeSet a s
  | .feClr a => Sys2Proof.Machine.execFeClr a s
  | .feTst d a => Sys2Proof.Machine.execFeTst d a s
  | .promise d a b => Sys2Proof.Machine.execPromise d a b s
  | .unpromise a => Sys2Proof.Machine.execUnpromise a s
  | .fenceS n => Sys2Proof.Machine.execFenceS n s
  | .amoAddW d a b => Sys2Proof.Machine.execAmoAddW d a b s
  | .amoAddD d a b => Sys2Proof.Machine.execAmoAddD d a b s
  | .amoAndW d a b => Sys2Proof.Machine.execAmoAndW d a b s
  | .amoAndD d a b => Sys2Proof.Machine.execAmoAndD d a b s
  | .amoOrW d a b => Sys2Proof.Machine.execAmoOrW d a b s
  | .amoOrD d a b => Sys2Proof.Machine.execAmoOrD d a b s
  | .amoXorW d a b => Sys2Proof.Machine.execAmoXorW d a b s
  | .amoXorD d a b => Sys2Proof.Machine.execAmoXorD d a b s
  | .amoMinW d a b => Sys2Proof.Machine.execAmoMinW d a b s
  | .amoMinD d a b => Sys2Proof.Machine.execAmoMinD d a b s
  | .amoMaxW d a b => Sys2Proof.Machine.execAmoMaxW d a b s
  | .amoMaxD d a b => Sys2Proof.Machine.execAmoMaxD d a b s
  | .amoMinuW d a b => Sys2Proof.Machine.execAmoMinuW d a b s
  | .amoMinuD d a b => Sys2Proof.Machine.execAmoMinuD d a b s
  | .amoMaxuW d a b => Sys2Proof.Machine.execAmoMaxuW d a b s
  | .amoMaxuD d a b => Sys2Proof.Machine.execAmoMaxuD d a b s
  | .amoSwapW d a b => Sys2Proof.Machine.execAmoSwapW d a b s
  | .amoSwapD d a b => Sys2Proof.Machine.execAmoSwapD d a b s
  | .amoCasW d a b => Sys2Proof.Machine.execAmoCasW d a b s
  | .amoCasD d a b => Sys2Proof.Machine.execAmoCasD d a b s
  | .ldmW d a => Sys2Proof.Machine.execLdmW d a s
  | .ldmD d a => Sys2Proof.Machine.execLdmD d a s
  | .migr a => Sys2Proof.Machine.execMigr a s
  | .sdpW a b => Sys2Proof.Machine.execSdpW a b s
  | .sdpD a b => Sys2Proof.Machine.execSdpD a b s
  | .cbf => Sys2Proof.Machine.execCbf s
  | .rank d => Sys2Proof.Machine.execRank d s
  | .drain a => Sys2Proof.Machine.execDrain a s
  | .rlx second => Sys2Proof.Machine.execRlx second s
  | .cmdw q a => Sys2Proof.Machine.execCmdw q a s
  | .qpop d q => Sys2Proof.Machine.execQpop d q s
  | .qstat d q => Sys2Proof.Machine.execQstat d q s
  | .radv n a => Sys2Proof.Machine.execRadv n a s
  | .mesc a => Sys2Proof.Machine.execMesc a s
  | .mereplay => Sys2Proof.Machine.execMereplay s
  | .meskip => Sys2Proof.Machine.execMeskip s
  | .hbind d a b => Sys2Proof.Machine.execHbind d a b s
  | .hwait a st => Sys2Proof.Machine.execHwait a st s
  | .hdrain a => Sys2Proof.Machine.execHdrain a s
  | .hfree a => Sys2Proof.Machine.execHfree a s
  | .hstat d a => Sys2Proof.Machine.execHstat d a s
  | .xtake d => Sys2Proof.Machine.execXtake d s
  | .send a b tag len => Sys2Proof.Machine.execSend a b tag len s
  | .recv d v => Sys2Proof.Machine.execRecv d v s
  | .peek d v => Sys2Proof.Machine.execPeek d v s
  | .btag off => Sys2Proof.Machine.execBtag off s
  | .cast a b => Sys2Proof.Machine.execCast a b s
  | .castsub a b => Sys2Proof.Machine.execCastsub a b s
  | .barInit a b => Sys2Proof.Machine.execBarInit a b s
  | .barReg a => Sys2Proof.Machine.execBarReg a s
  | .barArr a => Sys2Proof.Machine.execBarArr a s
  | .barWait a b => Sys2Proof.Machine.execBarWait a b s
  | .barStat d a => Sys2Proof.Machine.execBarStat d a s
  | .tlInit a b => Sys2Proof.Machine.execTlInit a b s
  | .tlAdd a b => Sys2Proof.Machine.execTlAdd a b s
  | .tlSet a b => Sys2Proof.Machine.execTlSet a b s
  | .tlWait a b c => Sys2Proof.Machine.execTlWait a b c s
  | .tlRd d a => Sys2Proof.Machine.execTlRd d a s
  | .vld v a sc sync w => Sys2Proof.Machine.execVld v a sc sync w s
  | .vst v a sc sync w => Sys2Proof.Machine.execVst v a sc sync w s
  | .vlds v a b el w => Sys2Proof.Machine.execVlds v a b el w s
  | .vsts v a b el w => Sys2Proof.Machine.execVsts v a b el w s
  | .vgat v a b el w => Sys2Proof.Machine.execVgat v a b el w s
  | .vsca v a b el w => Sys2Proof.Machine.execVsca v a b el w s
  | .vldD v a sc sync w => Sys2Proof.Machine.execVldD v a sc sync w s
  | .vstE v a sc sync w => Sys2Proof.Machine.execVstE v a sc sync w s
  | .vmvx d x lane w => Sys2Proof.Machine.execVmvx d x lane w s
  | .vmxv x a lane w => Sys2Proof.Machine.execVmxv x a lane w s
  | .vbc f d x w => Sys2Proof.Machine.execVbc f d x w s
  | .vadd f m d a b w => Sys2Proof.Machine.execVadd f m d a b w s
  | .vsub f m d a b w => Sys2Proof.Machine.execVsub f m d a b w s
  | .vmul f m d a b w => Sys2Proof.Machine.execVmul f m d a b w s
  | .vfma f m d a b w => Sys2Proof.Machine.execVfma f m d a b w s
  | .vfms f m d a b w => Sys2Proof.Machine.execVfms f m d a b w s
  | .vmax f m d a b w => Sys2Proof.Machine.execVmax f m d a b w s
  | .vmin f m d a b w => Sys2Proof.Machine.execVmin f m d a b w s
  | .vabs f m d a w => Sys2Proof.Machine.execVabs f m d a w s
  | .vneg f m d a w => Sys2Proof.Machine.execVneg f m d a w s
  | .vand m d a b w => Sys2Proof.Machine.execVand m d a b w s
  | .vor m d a b w => Sys2Proof.Machine.execVor m d a b w s
  | .vxor m d a b w => Sys2Proof.Machine.execVxor m d a b w s
  | .vnot m d a w => Sys2Proof.Machine.execVnot m d a w s
  | .vsll f m d a b w => Sys2Proof.Machine.execVsll f m d a b w s
  | .vsrl f m d a b w => Sys2Proof.Machine.execVsrl f m d a b w s
  | .vsra f m d a b w => Sys2Proof.Machine.execVsra f m d a b w s
  | .vcmpEq f m d a b w => Sys2Proof.Machine.execVcmpEq f m d a b w s
  | .vcmpLt f m d a b w => Sys2Proof.Machine.execVcmpLt f m d a b w s
  | .vcmpLe f m d a b w => Sys2Proof.Machine.execVcmpLe f m d a b w s
  | .vsel f n d a b w => Sys2Proof.Machine.execVsel f n d a b w s
  | .vredAdd f m d a w => Sys2Proof.Machine.execVredAdd f m d a w s
  | .vredMax f m d a w => Sys2Proof.Machine.execVredMax f m d a w s
  | .vredMin f m d a w => Sys2Proof.Machine.execVredMin f m d a w s
  | .vscan f m d a w => Sys2Proof.Machine.execVscan f m d a w s
  | .vperm f m d a b w => Sys2Proof.Machine.execVperm f m d a b w s
  | .vcvt f sf rm d a w => Sys2Proof.Machine.execVcvt f sf rm d a w s
  | .vq f m d a b w => Sys2Proof.Machine.execVq f m d a b w s
  | .vdq f m d a b w => Sys2Proof.Machine.execVdq f m d a b w s
  | .vexp2 f m d a w => Sys2Proof.Machine.execVexp2 f m d a w s
  | .vrcp f m d a w => Sys2Proof.Machine.execVrcp f m d a w s
  | .vrsq f m d a w => Sys2Proof.Machine.execVrsq f m d a w s
  | .vsig f m d a w => Sys2Proof.Machine.execVsig f m d a w s
  | .vtanh f m d a w => Sys2Proof.Machine.execVtanh f m d a w s
  | .kand d a b w => Sys2Proof.Machine.execKand d a b w s
  | .kor d a b w => Sys2Proof.Machine.execKor d a b w s
  | .knot d a w => Sys2Proof.Machine.execKnot d a w s
  | .kmv d a w => Sys2Proof.Machine.execKmv d a w s
  | .tnop e core => Sys2Proof.Machine.execTnop e core s
  | .mma core => Sys2Proof.Machine.execMma core s
  | .mmaSp core => Sys2Proof.Machine.execMmaSp core s
  | .mmq core => Sys2Proof.Machine.execMmq core s
  | .accZero core => Sys2Proof.Machine.execAccZero core s
  | .accLd core => Sys2Proof.Machine.execAccLd core s
  | .accSt core => Sys2Proof.Machine.execAccSt core s
  | .sig e core => Sys2Proof.Machine.execSig e core s
  | .tfence e core => Sys2Proof.Machine.execTfence e core s
  | .copy1d core => Sys2Proof.Machine.execCopy1d core s
  | .copyNd core => Sys2Proof.Machine.execCopyNd core s
  | .gath core => Sys2Proof.Machine.execGath core s
  | .scat core => Sys2Proof.Machine.execScat core s
  | .fill core => Sys2Proof.Machine.execFill core s
  | .allred core => Sys2Proof.Machine.execAllred core s
  | .meCommandCompletion core => Sys2Proof.Machine.execMeCommandCompletion core s
  | .copyCompletion core seq => Sys2Proof.Machine.execCopyCompletion core seq s
  | .meBudgetRefill => Sys2Proof.Machine.execMeBudgetRefill s
  | .spareColumnMap core column => Sys2Proof.Machine.execSpareColumnMap core column s
  | .asyncTrap tid => Sys2Proof.Machine.execAsyncTrap tid s
  | .breakpointMatch tid => Sys2Proof.Machine.execBreakpointMatch tid s
  | .stepReport tid => Sys2Proof.Machine.execStepReport tid s
  | .holdRequest tid => Sys2Proof.Machine.execHoldRequest tid s
  | .releaseRequest tid => Sys2Proof.Machine.execReleaseRequest tid s
  | .debugStateWrite tid f value value2 => Sys2Proof.Machine.execDebugStateWrite tid f value value2 s
  | .loadDataReturn packet => Sys2Proof.Machine.execLoadDataReturn packet s
  | .storeAcknowledge packet => Sys2Proof.Machine.execStoreAcknowledge packet s
  | .postedAck packet => Sys2Proof.Machine.execPostedAck packet s
  | .translationWalk core addr => Sys2Proof.Machine.execTranslationWalk core addr s
  | .pageMap page => Sys2Proof.Machine.execPageMap page s
  | .pageRefuse addr => Sys2Proof.Machine.execPageRefuse addr s
  | .mappingWithdraw base => Sys2Proof.Machine.execMappingWithdraw base s
  | .icacheLineFill cluster line => Sys2Proof.Machine.execIcacheLineFill cluster line s
  | .parkArrival packet => Sys2Proof.Machine.execParkArrival packet s
  | .parkResend packet => Sys2Proof.Machine.execParkResend packet s
  | .syncCancel tid => Sys2Proof.Machine.execSyncCancel tid s
  | .cancelConfirm tid => Sys2Proof.Machine.execCancelConfirm tid s
  | .waitLimitExpiry tid => Sys2Proof.Machine.execWaitLimitExpiry tid s
  | .tickAdvance => Sys2Proof.Machine.execTickAdvance s
  | .deadlineFire tid => Sys2Proof.Machine.execDeadlineFire tid s
  | .sleepExpiry tid => Sys2Proof.Machine.execSleepExpiry tid s
  | .packetInject packet => Sys2Proof.Machine.execPacketInject packet s
  | .tokenRefill => Sys2Proof.Machine.execTokenRefill s
  | .remoteAccessArrival packet => Sys2Proof.Machine.execRemoteAccessArrival packet s
  | .linkRetry port => Sys2Proof.Machine.execLinkRetry port s
  | .escapeTimer packet => Sys2Proof.Machine.execEscapeTimer packet s
  | .cbTimeoutFlush core entry => Sys2Proof.Machine.execCbTimeoutFlush core entry s
  | .roverArrival rover => Sys2Proof.Machine.execRoverArrival rover s
  | .arrivalSlotTake core => Sys2Proof.Machine.execArrivalSlotTake core s
  | .roverReoffer rover => Sys2Proof.Machine.execRoverReoffer rover s
  | .drainMarkerAck core rank => Sys2Proof.Machine.execDrainMarkerAck core rank s
  | .rankDark rank => Sys2Proof.Machine.execRankDark rank s
  | .relock rank ports x y => Sys2Proof.Machine.execRelock rank ports x y s
  | .rankLoss rank => Sys2Proof.Machine.execRankLoss rank s
  | .rankTableWrite rank value => Sys2Proof.Machine.execRankTableWrite rank value s
  | .messageOffer tid => Sys2Proof.Machine.execMessageOffer tid s
  | .messageReoffer tid => Sys2Proof.Machine.execMessageReoffer tid s
  | .cupCapture station => Sys2Proof.Machine.execCupCapture station s
  | .castFrame f => Sys2Proof.Machine.execCastFrame f s
  | .inboxcapFrame f => Sys2Proof.Machine.execInboxcapFrame f s
  | .barinitFrame f => Sys2Proof.Machine.execBarinitFrame f s
  | .bararrFrame f => Sys2Proof.Machine.execBararrFrame f s
  | .barphaseFrame f => Sys2Proof.Machine.execBarphaseFrame f s
  | .barwhFrame f => Sys2Proof.Machine.execBarwhFrame f s
  | .tlinitFrame f => Sys2Proof.Machine.execTlinitFrame f s
  | .tladdFrame f => Sys2Proof.Machine.execTladdFrame f s
  | .tlsetFrame f => Sys2Proof.Machine.execTlsetFrame f s
  | .holdFrame f => Sys2Proof.Machine.execHoldFrame f s
  | .releaseFrame f => Sys2Proof.Machine.execReleaseFrame f s
  | .fwdFrame f => Sys2Proof.Machine.execFwdFrame f s
  | .drainFrame f => Sys2Proof.Machine.execDrainFrame f s
  | .allredFrame f => Sys2Proof.Machine.execAllredFrame f s
  | .timealignFrame f => Sys2Proof.Machine.execTimealignFrame f s
  | .objfreeFrame f => Sys2Proof.Machine.execObjfreeFrame f s
  | .domainBarrierPacket ty f => Sys2Proof.Machine.execDomainBarrierPacket ty f s
  | .uncorrectableFrame station ty f => Sys2Proof.Machine.execUncorrectableFrame station ty f s
  | .resyncEnd station => Sys2Proof.Machine.execResyncEnd station s
  | .spareWavelengthSwitch wavelength => Sys2Proof.Machine.execSpareWavelengthSwitch wavelength s
  | .tquDeal die => Sys2Proof.Machine.execTquDeal die s
  | .class3Aging die => Sys2Proof.Machine.execClass3Aging die s
  | .class2Aging die => Sys2Proof.Machine.execClass2Aging die s
  | .taskStart core => Sys2Proof.Machine.execTaskStart core s
  | .preemption die => Sys2Proof.Machine.execPreemption die s
  | .thermalDisable core => Sys2Proof.Machine.execThermalDisable core s
  | .thermalEnable core => Sys2Proof.Machine.execThermalEnable core s
  | .suspendCommit id => Sys2Proof.Machine.execSuspendCommit id s
  | .resumeAccept id => Sys2Proof.Machine.execResumeAccept id s
  | .liveMigrationComplete src dst spare => Sys2Proof.Machine.execLiveMigrationComplete src dst spare s
  | .forwardEntryFree cluster src => Sys2Proof.Machine.execForwardEntryFree cluster src s
  | .slotcfgModeWrite core mode => Sys2Proof.Machine.execSlotcfgModeWrite core mode s
  | .slotcfgXferWrite core xfer => Sys2Proof.Machine.execSlotcfgXferWrite core xfer s
  | .dlineWrite tid value => Sys2Proof.Machine.execDlineWrite tid value s
  | .inboxConfigWrite core size value => Sys2Proof.Machine.execInboxConfigWrite core size value s
  | .arrspillWrite core value => Sys2Proof.Machine.execArrspillWrite core value s
  | .fabqosWrite core n value => Sys2Proof.Machine.execFabqosWrite core n value s
  | .mebudgetWrite core value => Sys2Proof.Machine.execMebudgetWrite core value s
  | .ringCsrWrite core n value => Sys2Proof.Machine.execRingCsrWrite core n value s
  | .profctlClr core => Sys2Proof.Machine.execProfctlClr core s
  | .vflagsAccess tid => Sys2Proof.Machine.execVflagsAccess tid s
  | .csrWrite tid n value => Sys2Proof.Machine.execCsrWrite tid n value s
  | .objectLoad obj => Sys2Proof.Machine.execObjectLoad obj s
  | .powerOn => Sys2Proof.Machine.execPowerOn s
  | .bootStage t => Sys2Proof.Machine.execBootStage t s
  | .watchdogExpiry => Sys2Proof.Machine.execWatchdogExpiry s
  | .measurementExtend reg digest => Sys2Proof.Machine.execMeasurementExtend reg digest s
  | .quoteRequest nonce => Sys2Proof.Machine.execQuoteRequest nonce s
  | .mgmtWrite item => Sys2Proof.Machine.execMgmtWrite item s
  | .mgmtReset => Sys2Proof.Machine.execMgmtReset s
  | .smbusPowerDown => Sys2Proof.Machine.execSmbusPowerDown s
  | .supplyOutOfRange => Sys2Proof.Machine.execSupplyOutOfRange s
  | .junctionTrip die => Sys2Proof.Machine.execJunctionTrip die s
  | .powerCapExceeded cluster budget => Sys2Proof.Machine.execPowerCapExceeded cluster budget s
  | .coolantLimit => Sys2Proof.Machine.execCoolantLimit s
  | .channelRetire channel => Sys2Proof.Machine.execChannelRetire channel s
  | .cxlCapacityChange c => Sys2Proof.Machine.execCxlCapacityChange c s
  | .ethernetFrame port vlan addr bytes => Sys2Proof.Machine.execEthernetFrame port vlan addr bytes s
  | .ethernetFailover port => Sys2Proof.Machine.execEthernetFailover port s
  | .replayItemDelivery item => Sys2Proof.Machine.execReplayItemDelivery item s
  | .illegalWord word => Sys2Proof.Machine.execIllegalWord word s
  | .fetchbound addr => Sys2Proof.Machine.execFetchbound addr s
  | .vectorResultWrite tid => Sys2Proof.Machine.execVectorResultWrite tid s
  | .laneDegrade port lanes => Sys2Proof.Machine.execLaneDegrade port lanes s
  | .lostCore core => Sys2Proof.Machine.execLostCore core s
  | .jobEnd job => Sys2Proof.Machine.execJobEnd job s

end Sys2Proof.Machine
end

