-- ==== Sys2Proof/Machine/Turn.lean ====
section
/-! DEFINITION. One turn of a thread: the registers an instruction waits for (R193), fetching (R171, R405), the steps of
a turn (R402), and the issue of an instruction. -/

set_option Elab.async false

namespace Sys2Proof.Machine

/-! ### Registers whose data is in flight (R193) -/

/-- Scalar registers whose data must have returned before an instruction issues: those it reads, and the one that an access
writes (R193). -/
def xregs : Instr → List Reg
  | .lb d a _ | .lh d a _ | .lw d a _ | .ld d a _ | .lbu d a _ | .lhu d a _ | .lwu d a _
  | .lconW d a _ | .lconD d a _ | .feTst d a | .ldmW d a | .ldmD d a => [d, a]
  | .sb a b _ | .sh a b _ | .sw a b _ | .sd a b _ | .add _ a b | .sll _ a b | .slt _ a b | .sltu _ a b | .xor _ a b
  | .srl _ a b | .or _ a b | .and _ a b | .sub _ a b | .sra _ a b | .mul _ a b | .mulh _ a b | .mulhsu _ a b
  | .mulhu _ a b | .div _ a b | .divu _ a b | .rem _ a b | .remu _ a b | .addw _ a b | .sllw _ a b | .srlw _ a b
  | .subw _ a b | .sraw _ a b | .mulw _ a b | .divw _ a b | .divuw _ a b | .remw _ a b | .remuw _ a b | .beq a b _
  | .bne a b _ | .blt a b _ | .bge a b _ | .bltu a b _ | .bgeu a b _ | .min _ a b | .max _ a b | .minu _ a b
  | .maxu _ a b | .sel _ _ a b | .psetEq _ a b | .psetNe _ a b | .psetLt _ a b | .psetGe _ a b | .psetLtu _ a b
  | .psetGeu _ a b | .resm a b | .ccopy a b | .cdisc a b | .migcore a b | .sdpW a b | .sdpD a b | .castsub a b
  | .barInit a b | .barWait a b | .tlInit a b | .tlAdd a b | .tlSet a b | .vlds _ a b _ _ | .vsts _ a b _ _
  | .rove _ a b | .susp _ a b | .promise _ a b | .hbind _ a b => [a, b]
  | .addi _ a _ | .slti _ a _ | .sltiu _ a _ | .xori _ a _ | .ori _ a _ | .andi _ a _ | .slli _ a _ | .srli _ a _
  | .srai _ a _ | .addiw _ a _ | .slliw _ a _ | .srliw _ a _ | .sraiw _ a _ | .jalr _ a _ | .csrrw _ a _
  | .csrrs _ a _ | .csrrc _ a _ | .clz _ a | .ctz _ a | .cpop _ a | .pmvPx a | .sleep a | .dlset a | .hold a
  | .rel a | .feSet a | .feClr a | .unpromise a | .migr a | .drain a | .radv _ a | .mesc a | .hwait a _ | .hdrain a
  | .hfree a | .send a _ _ _ | .cast a _ | .barReg a | .barArr a | .vld _ a _ _ _ | .vst _ a _ _ _
  | .vgat _ a _ _ _ | .vsca _ a _ _ _ | .vldD _ a _ _ _ | .vstE _ a _ _ _ | .grow _ a | .cstat _ a | .hstat _ a
  | .barStat _ a | .tlRd _ a | .start _ _ a | .startg _ _ a => [a]
  | .lswK d a b | .lswC d a b | .amoAddW d a b | .amoAddD d a b
  | .amoAndW d a b | .amoAndD d a b | .amoOrW d a b | .amoOrD d a b | .amoXorW d a b | .amoXorD d a b
  | .amoMinW d a b | .amoMinD d a b | .amoMaxW d a b | .amoMaxD d a b | .amoMinuW d a b | .amoMinuD d a b
  | .amoMaxuW d a b | .amoMaxuD d a b | .amoSwapW d a b | .amoSwapD d a b | .amoCasW d a b | .amoCasD d a b => [d, a, b]
  | .sswE a b c | .sswF a b c | .tlWait a b c => [a, b, c]
  | .vmvx _ x _ _ | .vbc _ _ x _ => [x]
  | _ => []

/-- The destination that a masked form keeps in its inactive lanes, and so reads (R275, R277). -/
def keptReg (m : Option KReg) (d : VReg) : List VReg := if m.isSome then [d] else []

/-- Vector registers whose data must have returned before an instruction issues: those it reads, and the one that an access
writes (R193, R277). -/
def vregs : Instr → List VReg
  | .start _ a _ | .startg _ a _ | .taskadd _ a | .cmdw _ a | .vmxv _ a _ _ => [a]
  | .vmvx d _ _ _ => [d]
  | .send _ b _ _ | .cast _ b => [b]
  | .vld v _ _ _ _ | .vst v _ _ _ _ | .vlds v _ _ _ _ | .vsts v _ _ _ _ | .vldD v _ _ _ _ | .vstE v _ _ _ _ => [v]
  | .vgat v _ b _ _ | .vsca v _ b _ _ => [v, b]
  | .vfma _ _ d a b _ | .vfms _ _ d a b _ | .vq _ _ d a b _ => [d, a, b]
  | .vadd _ m d a b _ | .vsub _ m d a b _ | .vmul _ m d a b _ | .vmax _ m d a b _ | .vmin _ m d a b _
  | .vsll _ m d a b _ | .vsrl _ m d a b _ | .vsra _ m d a b _ | .vperm _ m d a b _ | .vdq _ m d a b _ => [a, b] ++ keptReg m d
  | .vand m d a b _ | .vor m d a b _ | .vxor m d a b _ => [a, b] ++ keptReg m d
  | .vsel _ _ _ a b _ | .vcmpEq _ _ _ a b _ | .vcmpLt _ _ _ a b _ | .vcmpLe _ _ _ a b _ => [a, b]
  | .vabs _ m d a _ | .vneg _ m d a _ | .vscan _ m d a _ | .vexp2 _ m d a _ | .vrcp _ m d a _ | .vrsq _ m d a _
  | .vsig _ m d a _ | .vtanh _ m d a _ => [a] ++ keptReg m d
  | .vnot m d a _ => [a] ++ keptReg m d
  | .vredAdd _ _ _ a _ | .vredMax _ _ _ a _ | .vredMin _ _ _ a _ | .vcvt _ _ _ _ a _ => [a]
  | _ => []

/-- Registers that an instruction waits for; those of a pair are its second word's (R193). -/
def hazardRegs (i : Instr) : List Reg × List VReg := match i with
  | .rlx second => match decodeWord second with
    | .ok j => (xregs j, vregs j)
    | .error _ => ([], [])
  | _ => (xregs i, vregs i)

/-- An access of a thread in flight will write a scalar register. -/
def State.xInFlight (s : State) (tid : Nat) (r : Reg) : Bool :=
  r != 0#5 && (s.packetsOf tid).any fun p => p.acc.dest.1 == some r

/-- An access of a thread in flight will write a vector register. -/
def State.vInFlight (s : State) (tid : Nat) (r : VReg) : Bool := (s.packetsOf tid).any fun p => p.acc.dest.2 == some r

/-- The register in flight that an instruction must wait for (R193). -/
def State.hazard (s : State) (tid : Nat) (i : Instr) : Option Cause :=
  if (s.packetsOf tid).isEmpty then none
  else
    let (xs, vs) := hazardRegs i
    match xs.find? (s.xInFlight tid), vs.find? (s.vInFlight tid) with
    | some r, _ => some (.xreg r)
    | none, some v => some (.vreg (vdest v))
    | none, none => none

/-! ### Fetching (R171, R405) -/

/-- The core whose translation cache a thread's fetch uses: the pilot's for an attached member (R171). -/
def State.fetchCore (s : State) (tid : Nat) (t : Thread) : Nat := match t.gang with
  | some g => if g.attached then match (s.attached g.stream).head? with
      | some x => tidCore x.1
      | none => tidCore tid
    else tidCore tid
  | none => tidCore tid

/-- Translation of a code address: the page must allow execution (R189) (DEDUCED 19). -/
def State.translateCode (s : State) (core : Nat) (job : BitVec 32) (a : Nat) : Xlate :=
  match s.pageOf job a with
  | none => .miss
  | some p => if s.cached core p then (if p.x then .hit p else .fault) else .miss

/-- The fetch of the word at an address: none when the word can be read; else the state in which the thread waits,
or has taken FETCHBOUND or MEMERR (R171, R188, R405) (DESIGN CHOICE 13). A PC that is no multiple of 4, as an entry, a
`rove` operand or a debugger may give, meets no check: the word at that address is fetched (R63) (DESIGN CHOICE 13, DESIGN CHOICE 87). -/
def State.fetchWord (s : State) (tid : Nat) (t : Thread) (a : Word) : Option State :=
  let n := a.toNat
  let cluster := coreCluster (tidCore tid)
  if n < t.cbase.toNat ∨ t.clim.toNat < n + 4 ∨ !isTier n then
    some (s.trap tid t cFETCHBOUND a)
  else if (s.cluster cluster).icache.elem (n / 128) then
    if s.memErr n 4 then some (s.trap tid t cMEMERR a) else none
  else
    let core := s.fetchCore tid t
    match s.translateCode core t.job n with
    | .miss => some (s.orRefused tid t n cFETCHBOUND ((s.await tid t (.walk n) none 0#64).schedule
        (s.time + s.pick 100 400) (.translationWalk (BitVec.ofNat 12 core) { job := t.job, addr := a })))
    | .fault => some ((s.useTlb core t.job n).trap tid t cFETCHBOUND a)
    | .hit _ =>
      let r := s.accessRange core n
      let s1 := s.useTlb core t.job n
      if s.cxlFault n then some (s.orRefused tid t n cFETCHBOUND (s1.await tid t (.latched n) none 0#64))
      else some ((s1.await tid t (.line (n / 128)) none 0#64).schedule (s.time + s.pick r.1 r.2)
        (.icacheLineFill (BitVec.ofNat 9 cluster) (n / 128)))

/-- The words of the next instruction: those in the retry latch, else those at the program counter, or the state of a fetch that
does not deliver them. The second word of a pair is fetched with its prefix (R98, R126) (DEDUCED 66). -/
def State.fetch (s : State) (tid : Nat) (t : Thread) : Except State (BitVec 32 × BitVec 32) :=
  match t.latch with
  | some w => .ok w
  | none => match s.fetchWord tid t t.pc with
    | some u => .error u
    | none =>
      let w := wordAt s.mem t.pc.toNat
      let second := if w = rlxPrefix then s.fetchWord tid t (t.pc + 4#64) else none
      match second with
      | some u => .error u
      | none => .ok (w, wordAt s.mem (t.pc + 4#64).toNat)

/-! ### The turn (R402) -/

/-! ### The Casot job-service entry (R139, assumption 43) -/

/-- The thread stands at the Casot entry: it came there by a trap. `some 4` is the word after the entry's `halt` (DESIGN CHOICE 43). -/
def Thread.atCasot (t : Thread) : Option Nat :=
  if t.entered then some 0
  else if t.inHandler && (decide (t.pc.toNat < t.cbase.toNat) || decide (t.clim.toNat < t.pc.toNat + 4)) then
    if t.pc == t.evec && t.evec == Config.casotEntry then some 0
    else if t.pc == t.evec + 4#64 && t.evec == Config.casotEntry then some 4
    else none
  else none

/-- The Casot entry runs: it serves ECALL with a result in x10 and returns with EPC advanced by 4; for every other
cause it changes no register and executes `halt`; the word after that is `tret` (R139). The result and the count of
the entry's instructions are free (DESIGN CHOICE 43). -/
def State.casotEntered (s : State) (tid : Nat) (t : Thread) (at_ : Nat) : State :=
  if at_ = 4 then s.finish tid t.leaveTrap (align4 t.epc) true 8
  else if t.ecause.extractLsb' 0 8 = cECALL then
    let u := t.setReg 10#5 (BitVec.ofNat 64 (Config.free s.fresh)) false
    let back := { u with epc := align4 (u.epc + 4#64), instret := u.instret + BitVec.ofNat 64 (Config.free (s.fresh + 1)) }
    { s with fresh := s.fresh + 2 }.finish tid back.leaveTrap back.epc true 8
  else
    let (s1, u) := s.leaveStream tid t
    (s1.setThread tid { u with readyAt := max u.readyAt (u.nextIssue s.time 8), skip := false }).rootHalt tid .halt

/-- The next instruction issues: a word that is no instruction raises ILLEGAL, an instruction whose register is still in flight
waits, and any other has its effect and clears the skip bit (R402). Its words stay in the retry latch until it retires, traps or
gives way (R126). -/
def State.issue (s : State) (tid : Nat) (t : Thread) : Out :=
  match t.atCasot with
  | some n => .next (s.casotEntered tid t n)
  | none => match s.fetch tid t with
    | .error u => .next u
    | .ok w => match decode w.1 w.2 with
      | .error _ => execIllegalWord w.1 s
      | .ok i =>
        match s.hazard tid i with
        | some c => .next (s.retryWhen tid { t with latch := some w } c)
        | none => exec i (s.setThread tid { t with latch := some w, skip := false })

/-- What a halted thread's latched instruction would wait for on the objects as they stand, and the object that is withheld for it:
the instruction is tried as if the thread were live, and nothing else of that trial is kept (R373) (DEDUCED 53). -/
def State.trial (s : State) (tid : Nat) (t : Thread) : Option (Obj × Wait) × Nat :=
  match { s with cur := .slot (BitVec.ofNat 16 tid) }.setThread tid { t with run := .live } |>.issue tid { t with run := .live } with
  | .next u => match (u.thread? tid).bind fun v => v.wait with
    | some w => ((s.withheldFor tid w.what).map fun o => (o, w), u.fresh)
    | none => (none, u.fresh)
  | _ => (none, s.fresh)

/-- A restored or displaced thread that was halted by dependence: it stays so while its object is still withheld for it, and names
that object; else it becomes runnable at once, or its root halt is one of a live thread (R265, R373, R441) (DEDUCED 53). -/
def State.rehalt (s : State) (tid : Nat) : State :=
  match s.thread? tid with
  | none => s
  | some t =>
    if t.wait.isSome then s
    else
      let (found, n) := s.trial tid t
      match t.run, found with
      | .dep _, some (o, w) => { s with fresh := n }.setThread tid { t with run := .dep o, wait := some w, latchCnt := none }
      | .dep _, none => s.depRelease tid
      | .root, some (o, w) =>
        if t.wasDep.isSome then { s with fresh := n }.setThread tid { t with wasDep := some o, wait := some w, latchCnt := none } else s
      | .root, none => s.setThread tid { t with wasDep := none }
      | .live, _ => s

/-- A thread that tries its instruction again: the wait ends, its count goes on (R201) (DEDUCED 66). -/
def Thread.retrying (t : Thread) : Thread := match t.wait with
  | some w => { t with wait := none, latchCnt := match w.limit with | some l => some (w.count, l) | none => t.latchCnt }
  | none => t

/-- A `drain` whose condition has come is complete: it is not executed again (R245). -/
def Thread.drainWait (t : Thread) : Bool := match t.wait with
  | some w => match w.what with
    | .again (.drain _) => true
    | _ => false
  | none => false

/-- The turn of a thread only reports a step or meets a breakpoint: nothing issues (R402, R408, R417). -/
def Thread.onlyHalts (t0 : Thread) : Bool :=
  let t := t0.retrying
  !t0.drainWait && (t.stepped || (t.atBreak && t.latch.isNone))

/-- The turn of a live thread that is ready (R402): the report of a stepped instruction, a breakpoint, a pending
asynchronous event whose handler issues in the same turn, or the instruction at the program counter. An instruction in the retry
latch has met its breakpoint already (R408) (DEDUCED 66). -/
def State.turn (s0 : State) (tid : Nat) : Out :=
  match s0.thread? tid with
  | none => .next s0
  | some t0 =>
    let t := t0.retrying
    let s := { s0 with cur := .slot (BitVec.ofNat 16 tid) }.setThread tid t
    if t0.drainWait then .next (s.next tid t)
    else if t.stepped then .next (s.rootHalt tid .step)
    else if t.atBreak && t.latch.isNone then .next (s.rootHalt tid .brk)
    else if t.eventReady then
      let s1 := s.takeEvent tid t
      match s1.thread? tid with
      | some u => if u.awake then s1.issue tid u else .next s1
      | none => .next s1
    else s.issue tid t

end Sys2Proof.Machine
end

