-- ==== Sys2Proof/Machine/Schedule.lean ====
section
/-! DEFINITION. The schedule of the module: when a waiting thread may try again, which slot of a core issues in a cycle
(R128 to R130), profiling (R416, R417), the steps that fall due, the end of a cycle, and inputs from outside. -/

set_option Elab.async false

namespace Sys2Proof.Machine

/-! ### Conditions of a retry -/

/-- The condition of a retry holds. -/
def State.causeMet (s : State) (tid : Nat) : Cause → Bool
  | .quiet => (s.packetsOf tid).isEmpty && !s.combiningOut tid
  | .release => s.relaxedOut tid == 0 && !s.combiningOut tid
  | .ordinary => !s.ordinaryOut tid
  | .relaxedRoom => decide (s.relaxedOut tid < 4)
  | .overlap lo n => !s.overlapOut tid lo n && !((s.core (tidCore tid)).cb.any fun e => e.tid.toNat == tid && e.meets lo n)
  | .overlapBesides lo n e => !s.overlapBesides tid lo n e
  | .fence n => !s.fencePending tid (scopeNo n)
  | .flushed => !s.combiningOut tid
  | .credit => decide ((s.core (tidCore tid)).posted < Config.postedCredits)
  | .room q =>
    let k := s.core (tidCore tid)
    if q = 0#3 then decide (k.q0.length + 2 ≤ Config.q0Entries)
    else if q = 2#3 then k.q2Free.isSome && s.q2First (tidCore tid) == some tid
    else if q = 4#3 then decide (k.q4.length + 2 ≤ Config.q4Entries)
    else decide (k.cb.length < Config.combiningEntries)
  | .outbound => decide ((s.core (tidCore tid)).outUsed (tidSlot tid) < 4)
  | .emit => decide ((s.emitQ (coreCluster (tidCore tid))).length < Config.emitEntries)
  | .vreg r =>
    !((s.packetsOf tid).any fun p => p.acc.dest.2.map vdest == some r)
      && !((s.thread? tid).any fun t => t.vres.any fun v => v.dest == r && v.window == 0 && decide (s.time < v.due))
  | .allVec => !((s.thread? tid).any fun t => t.vres.any fun v => decide (s.time < v.due))
  | .xreg r => !s.xInFlight tid r
  | .drain r => s.drainDone tid r
  | .migrate => s.migrateReady tid
  | .outcp a => objOutcp s.mem a == 0
  | .time t => decide (t ≤ s.time)
  | .resync => !s.resyncing (coreCluster (tidCore tid))
  | .hubEmit => !s.emitFull 512
  | .dark k =>
    let p : Peer := { job := s.jobOf tid, rank := k }
    rankState (s.rankEntry p) != 1 || decide (s.heldFor (tidCore tid) p < 32)

/-! ### Readiness (R128, R169) -/

/-- The thread has issued its next stream instruction and waits for it (R169) (DEDUCED 78). -/
def Thread.waitsIssued (t : Thread) : Bool := match t.wait with
  | some w => match w.what with
    | .again _ | .line _ => false
    | _ => t.latch.isSome
  | none => false

/-- The count n(m) of R169: the stream instructions that a member has issued. -/
def Thread.issuedCount (t : Thread) : Nat := (t.gang.map (·.pos)).getD 0 + (if t.waitsIssued then 1 else 0)

/-- A gang member waits on the front end: the pilot while it is 32 instructions ahead of the slowest attached member, another
member while its next instruction has not been decoded (R168, R169, R424) (DEDUCED 78). -/
def State.frontEnd (s : State) (tid : Nat) (t : Thread) : Bool := match t.gang with
  | some g =>
    if !g.attached then false
    else if s.isPilot g.stream tid then (s.attached g.stream).any fun x => decide (x.2.issuedCount + 32 ≤ t.issuedCount)
    else match s.stream? g.stream with
      | some st => decide (st.base + st.path.length ≤ g.pos)
      | none => false
  | none => false

/-- TIME has passed the last value that the thread read (R151, R152). -/
def State.timePassed (s : State) (t : Thread) : Bool := t.lastTime == 0 || decide (t.lastTime < s.time)

/-- A RELEASE frame of a root halt that names the thread is still to be applied: the thread goes on after it, as R422's unwinding
shows (R415, R422) (DEDUCED 18). -/
def State.releasing (s : State) (tid : Nat) : Bool :=
  let mine := fun (ty : FrameType) (f : Frame) => ty == .release && f.root && f.gtid == s.gtid tid
  ((s.emitQ (coreCluster (tidCore tid))).any fun q => mine q.ty q.f)
    || s.timed.any fun x => match x.what with
         | .frame ty f => mine ty f
         | _ => false

/-- Conditions 1 to 3 of R128: a live thread in an enabled slot, its previous instruction 8 cycles ago, not waiting. -/
def State.eligibleSlot (s : State) (tid : Nat) (t : Thread) : Bool :=
  let k := s.core (tidCore tid)
  let free := match t.wait with
    | none => true
    | some w => match w.what with
      | .again c => s.causeMet tid c
      | _ => false
  t.run == .live && decide (t.readyAt ≤ s.time) && s.timePassed t && free && !k.disabled (tidSlot tid) && !k.lost
    && (s.diverting tid).isNone && !s.frontEnd tid t && (!t.stepped || s.stepDrained tid t) && !s.releasing tid

/-- A slot is ready in a cycle (R128): condition 4 keeps a donated cycle 8 cycles away from its home cycle. -/
def State.readySlot (s : State) (c slot : Nat) : Bool :=
  (s.time % 16 == slot || decide (8 ≤ (slot + 16 - s.time % 16) % 16))
    && match s.thread? (c * 16 + slot) with
       | some t => s.eligibleSlot (c * 16 + slot) t
       | none => false

/-- The slot that issues on a core in this cycle: the home slot, else the first ready one after it (R129). -/
def State.chooseSlot (s : State) (c : Nat) : Option Nat :=
  ((List.range 16).map fun i => (s.time + i) % 16).find? (s.readySlot c)

/-! ### Profiling (R416, R417) -/

/-- The class of a slot that does not issue at its home cycle (R417). -/
def State.profileClass (s : State) (tid : Nat) : Nat :=
  match s.thread? tid with
  | none => 1
  | some t =>
    if (s.core (tidCore tid)).disabled (tidSlot tid) then 1
    else if t.run != .live then 4
    else if s.frontEnd tid t then 2
    else match t.wait with
      | none => 3
      | some w => match w.what with
        | .line _ | .join _ => 2
        | .access _ | .walk _ | .latched _ => 3
        | .again .quiet | .again .release | .again .ordinary | .again .relaxedRoom | .again (.overlap _ _)
        | .again (.overlapBesides _ _ _) | .again (.fence _) | .again .flushed | .again .credit | .again (.xreg _)
        | .again (.dark _) => 3
        | .again (.room q) => if q = 0#3 ∨ q = 2#3 ∨ q = 4#3 then 4 else 3
        | .again (.vreg r) => if (s.packetsOf tid).any fun p => p.acc.dest.2.map vdest == some r then 3 else 4
        | _ => 4

/-- The core with one counter incremented. -/
def Core.countProf (k : Core) (n : Nat) : Core := { k with prof := k.prof.setIfInBounds n (((k.prof[n]?).getD 0#64) + 1#64) }

/-- The histogram counter for a number of ready slots. -/
def histogram (n : Nat) : Nat := if n ≤ 8 then 5 + n else if n ≤ 12 then 14 else 15

/-- The histogram of a core counts this cycle (R417). -/
def State.profileReady (s : State) (c : Nat) : State :=
  if (s.core c).profctl.getLsbD 0 then
    s.modCore c fun k => k.countProf (histogram ((s.coreThreads c).filter fun x => s.eligibleSlot x.1 x.2).length)
  else s

/-- The slot that PROFCTL.SEL names is classed at its home cycle (R417). -/
def State.profileSlot (s : State) (c : Nat) (issued : Option Nat) : State :=
  let k := s.core c
  let sel := getField k.profctl 4 4
  if k.profctl.getLsbD 0 ∧ sel = s.time % 16 then
    s.modCore c fun k => k.countProf (if issued = some sel then 0 else s.profileClass (c * 16 + sel))
  else s

/-! ### A core's cycle -/

/-- A thread that only found that it must wait, or whose instruction is not there yet, has not issued: it tries again in a later
cycle and leaves this one to its siblings (R132) (DESIGN CHOICE 11). -/
def State.notIssued (s : State) (tid : Nat) : Bool := match s.thread? tid with
  | some t => match t.wait with
    | some w => match w.what with
      | .again _ | .line _ => true
      | .walk _ | .latched _ => t.latch.isNone
      | _ => false
    | none => false
  | none => false

/-- The least core with a live thread, or with profiling on, that this cycle has not finished (DESIGN CHOICE 1). -/
def State.nextCore (s : State) : Option Nat :=
  let live := (s.threads.find? fun x => decide (s.scan / 2 ≤ tidCore x.1)).map fun x => tidCore x.1
  let prof := (s.cores.find? fun x => decide (s.scan / 2 ≤ x.1) && x.2.profctl.getLsbD 0).map fun x => x.1
  match live, prof with
  | some a, some b => some (min a b)
  | some a, none => some a
  | none, b => b

/-- One core's cycle: the histogram counts, the chosen slot takes its turn, and the selected slot is classed. After a
turn in which nothing issued the core chooses again: `scan` holds twice the core, plus one then (DESIGN CHOICE 1, DESIGN CHOICE 11). -/
def State.coreCycle (s : State) (c : Nat) : Out :=
  let again := s.scan == 2 * c + 1
  let s1 := if again then s else s.profileReady c
  let done := fun (u : State) (issued : Option Nat) =>
    Host.Outcome.next { u.profileSlot c issued with scan := 2 * c + 2 }
  match s1.chooseSlot c with
  | none => done s1 none
  | some slot => match s1.turn (c * 16 + slot) with
    | .next u =>
      if u.notIssued (c * 16 + slot) then
        let skip := (s1.thread? (c * 16 + slot)).any fun t => t.skip
        .next { u.modThread (c * 16 + slot) (fun t => { t with readyAt := max t.readyAt (s.time + 1), skip := skip }) with scan := 2 * c + 1 }
      else done u (if (s1.thread? (c * 16 + slot)).any Thread.onlyHalts then none else some slot)
    | o => o

/-! ### The end of a cycle -/

/-- The next cycle, and the items of a replay that are due in it (R418): ticks every 1,250 cycles (R4), refills every 1,024 (R223, R317), and a capture of the cup when a
station has a frame to send (R19). -/
def State.endCycle (s : State) : State :=
  let s1 := { s with time := s.time + 1, scan := 0 }
  let s2 := if s1.time % Config.cyclesPerTick = 0 then s1.schedule s1.time .tickAdvance else s1
  let s3 := if s2.time % 1024 = 0 then (s2.schedule s2.time .tokenRefill).schedule s2.time .meBudgetRefill else s2
  s3.cupTurn.replayDue

/-! ### Steps that fall due -/

/-- The command at the head of a core's q0 starts (R299, R330). -/
def startMatrix (core : CoreId) (s : State) : Out :=
  let k := s.core core.toNat
  match k.unstarted with
  | [] => .next s
  | c :: _ =>
    let op := cmdOpcode c
    if op = 1 then execMma core s
    else if op = 2 then execMmaSp core s
    else if op = 3 then execMmq core s
    else if op = 8 then execAccZero core s
    else if op = 9 then execAccLd core s
    else if op = 10 then execAccSt core s
    else if op = 0x10 then execSig .matrix core s
    else if op = 0x11 then execTfence .matrix core s
    else execTnop .matrix core s

/-- The core of a cluster whose q4 the copy engine serves now: the next one, round the eight, with a command that may start
(R337). -/
def State.copyTurn (s : State) (cluster : Nat) : Option Nat :=
  ((List.range 8).map fun i => 8 * cluster + ((s.cluster cluster).copyNext + i) % 8).find? fun c => (s.nextCopyOp c).isSome

/-- The copy engine of a core's cluster starts one command, and looks again in the next cycle (R336 to R338). -/
def startCopy (near : CoreId) (s : State) : Out :=
  let cl := coreCluster near.toNat
  let n := (s.cluster cl).copyAt
  match s.copyTurn cl with
  | none => .next s
  | some c => if s.time < n then .next (s.scheduleOnce n (.copyStart near)) else
    let core : CoreId := BitVec.ofNat 12 c
    let op := (s.nextCopyOp c).getD 0
    let s1 := (s.modCluster cl fun q => { q with copyNext := (c + 1) % 8, copyAt := s.time + 1 }).schedule (s.time + 1) (.copyStart core)
    if op = 0x40 then execCopy1d core s1
    else if op = 0x41 then execCopyNd core s1
    else if op = 0x42 then execGath core s1
    else if op = 0x43 then execScat core s1
    else if op = 0x44 then execFill core s1
    else if op = 0x48 then execAllred core s1
    else if op = 0x10 then execSig .copy core s1
    else if op = 0x11 then execTfence .copy core s1
    else execTnop .copy core s1

/-- A step that falls due (DESIGN CHOICE 7). -/
def runDue (d : Due) (s : State) : Out := match d with
  | .vectorResultWrite t => execVectorResultWrite t s
  | .packetInject p => execPacketInject p s
  | .remoteAccessArrival p => execRemoteAccessArrival p s
  | .parkArrival p => execParkArrival p s
  | .parkResend p => execParkResend p s
  | .loadDataReturn p => execLoadDataReturn p s
  | .storeAcknowledge p => execStoreAcknowledge p s
  | .postedAck p => execPostedAck p s
  | .escapeTimer p => execEscapeTimer p s
  | .translationWalk c a => execTranslationWalk c a s
  | .icacheLineFill n l => execIcacheLineFill n l s
  | .syncCancel t => execSyncCancel t s
  | .cancelConfirm t => execCancelConfirm t s
  | .waitLimitExpiry t => execWaitLimitExpiry t s
  | .deadlineFire t => execDeadlineFire t s
  | .sleepExpiry t => execSleepExpiry t s
  | .slotVacant t => .next (s.vacate t.toNat)
  | .syncWritten t => .next (s.syncWritten t.toNat)
  | .handoff g => .next (s.serveNext g)
  | .messageSend t n => .next (s.sendOut t.toNat n)
  | .initAcks f => .next (s.initAcked f)
  | .lostFrame n ty f => .next (s.discardFrame n ty f)
  | .moveWait a b n => .next (s.moveAgain a b n)
  | .markerSend c r k n => .next (s.markerOut c r k n)
  | .cancelSend t p n => .next (s.cancelOut t.toNat p n)
  | .messageAnswer t n => .next (s.messageAnswered t.toNat n)
  | .roverSend r => .next (s.sendRover r)
  | .displace t => .next (s.displaceAgain t.toNat)
  | .tickAdvance => execTickAdvance s
  | .tokenRefill => execTokenRefill s
  | .meBudgetRefill => execMeBudgetRefill s
  | .cbTimeoutFlush c e => execCbTimeoutFlush c e s
  | .roverArrival r => execRoverArrival r s
  | .arrivalSlotTake c => execArrivalSlotTake c s
  | .roverReoffer r => execRoverReoffer r s
  | .drainMarkerAck c k => execDrainMarkerAck c k s
  | .messageOffer t => execMessageOffer t s
  | .messageReoffer t => execMessageReoffer t s
  | .cupCapture n => execCupCapture n s
  | .frame ty f => .next (s.applyFrame ty f)
  | .domainBarrierPacket ty f => execDomainBarrierPacket ty f s
  | .resyncEnd n => execResyncEnd n s
  | .tquDeal d => execTquDeal d s
  | .class3Aging d => execClass3Aging d s
  | .class2Aging d => execClass2Aging d s
  | .taskStart c => execTaskStart c s
  | .preemption d => execPreemption d s
  | .thermalDisable c => execThermalDisable c s
  | .thermalEnable c => execThermalEnable c s
  | .suspendCommit i => execSuspendCommit i s
  | .resumeAccept i => execResumeAccept i s
  | .liveMigrationComplete a b x => execLiveMigrationComplete a b x s
  | .forwardEntryFree n c => execForwardEntryFree n c s
  | .meStart c => startMatrix c s
  | .meGrant n => .next (s.arbitrate n)
  | .meCommandCompletion c => execMeCommandCompletion c s
  | .copyStart c => startCopy c s
  | .copyCompletion c q => execCopyCompletion c q s
  | .copyBeats c q => .next (s.copyAtPort c.toNat q)
  | .copied t => .next (s.copyDone t.toNat)
  | .rehalt t => .next (s.rehalt t.toNat)
  | .growAccept t => .next (s.growTaken t.toNat)
  | .watchdog n => .next (s.watchdogEnds n)
  | .castDrain c => .next (State.drainCasts c.toNat 8 s).settleWithheld
  | .stepReport t => execStepReport t s

/-! ### Inputs (assumption 2) -/

/-- A setting of the house cores or a reading takes effect: a sensor above or below its threshold starts the thermal
controller (R174, R190, R220, R225, R317, R373, R437) (DESIGN CHOICE 2). -/
def State.applySetting (s : State) : Setting → State
  | .thresholds c h l =>
    ((s.modCore c.toNat fun k => { k with hot := h, cool := l }).schedule s.time (.thermalDisable c)).schedule s.time
      (.thermalEnable c)
  | .sensor c r =>
    ((s.modCore c.toNat fun k => { k with reading := r }).schedule s.time (.thermalDisable c)).schedule s.time (.thermalEnable c)
  | .recovery n => { s with recovery := max 256 (min 65535 n) }
  | .ownRank p => s.modTable p.job fun t => { t with own := p.rank }
  | .frameCorrected => { s with fecCount := s.fecCount + 1 }
  | .frameHeader n h => s.receiveHeader n h
  | .releaseSaved a i => s.releaseSaved a i
  | .windowBudget n u => s.modCluster n.toNat fun k => { k with budgetNext := some u }
  | .injectEvent t c v => (s.logRequest t.toNat (BitVec.ofNat 64 (2 + 256 * c.toNat)) v).postEvent t.toNat { code := c, eval := v }
  | .mgmtFrame port vlan => s.setPlatform { s.platform with mgmtIn := (port, vlan) }
  | .inputPower w => s.setPlatform { s.platform with inputPower := w }
  | .dieTemp d t =>
    let s1 := s.setPlatform { s.platform with dieTemp := s.platform.dieTemp.set d.toNat t }
    if 1050 < t then s1.tripDie d.toNat else s1
  | .coolant t f =>
    let limit := match s.platform.record with | some r => r.2.tinmax.toNat | none => 450
    s.coolantAction (decide (limit < t) || decide (f < 20))
  | .cxlFault page bad =>
    if bad then { s with cxlBad := setInsert page s.cxlBad }
    else ({ s with cxlBad := s.cxlBad.filter (· != page) }).cxlServed page

/-- A step that the outside makes: a house core performs an instruction word with its registers, any other agent one
of the module's events; or a setting (DESIGN CHOICE 2). -/
def takeInput (i : Input) (s : State) : Out :=
  let n := i.who.getD 0#4
  let x := i.regs.foldl (fun (v : Vector Word 32) r => v.set r.1.toNat r.2 r.1.isLt)
    ((assocGet n.toNat s.houseX).getD (Vector.replicate 32 0#64))
  let s1 := if i.regs.isEmpty then s else { s with houseX := assocSet n.toNat x s.houseX }
  match i.what with
  | .row w => exec w { s1 with cur := .house n }
  | .set x => .next (s1.applySetting x)

/-! ### The order of a cycle (R187) -/

/-- When in a cycle a step is taken: a bank serves the issuing slot first, then arriving accesses and the services of waiters, then
the matrix engine, its power arbiter after the commands that ask, then the copy engine (R187, R317); every other step comes
before the slots (DESIGN CHOICE 1). -/
def Due.phase : Due → Nat
  | .remoteAccessArrival _ | .parkArrival _ | .handoff _ => 1
  | .meStart _ | .meCommandCompletion _ => 2
  | .meGrant _ => 3
  | .copyStart _ | .copyCompletion _ _ | .copyBeats _ _ => 4
  | _ => 0

/-- The first step of a phase that has fallen due, and the steps without it. -/
def State.dueIn (s : State) (phase : Nat) : Option (Timed × List Timed) :=
  takeFirst (fun (t : Timed) => decide (t.due ≤ s.time) && t.what.phase == phase) s.timed

/-- The first due step of those that come before the slots of a cycle (DESIGN CHOICE 1). -/
def State.dueNow (s : State) : Option (Timed × List Timed) := s.dueIn 0

/-- The first due step of those that come after the slots of a cycle (R187). -/
def State.dueLate (s : State) : Option (Timed × List Timed) :=
  (((s.dueIn 1).orElse fun _ => s.dueIn 2).orElse fun _ => s.dueIn 3).orElse fun _ => s.dueIn 4

end Sys2Proof.Machine
end

