-- ==== Sys2Proof/Machine/Step.lean ====
section
/-! DEFINITION. One step of the module: an input from outside, a step that has fallen due, the cycle of one core, a step that
a bank serves after the slots (R187), or the end of the cycle. -/

set_option Elab.async false

namespace Sys2Proof.Machine

/-- The step function. While no core slot is enabled (R34) no thread issues (DESIGN CHOICE 1). -/
def step (s : State) : Host.Outcome State Fault Refusal :=
  match s.inputs with
  | i :: rest => takeInput i { s with inputs := rest }
  | [] => match s.dueNow with
    | some (t, rest) => runDue t.what { s with timed := rest }
    | none => match s.enabled, s.nextCore with
      | true, some c => s.coreCycle c
      | _, _ => match s.dueLate with
        | some (t, rest) => runDue t.what { s with timed := rest }
        | none => .next s.endCycle

/-- Address of the instruction that `withFetchWord` stores: the first word of tiered memory (DESIGN CHOICE 5). -/
def fetchPlace : Nat := tierBase

/-- The thread that fetches it: the state of a thread started from a task entry (R158), in slot 8 of core 0, which is
ready at cycle 0 (DESIGN CHOICE 5). -/
def fetchThread (g : Nat) : Thread :=
  Thread.atStart
    { pc := BitVec.ofNat 64 fetchPlace, arg := 0#64, group := g, launch := 1#32, index := 0#32, job := 1#32
      cbase := BitVec.ofNat 64 fetchPlace, clim := BitVec.ofNat 64 (fetchPlace + 4096), dline := 0#64 } 0#12 0

/-- The page that holds it (DESIGN CHOICE 5). -/
def fetchPage : PageRec :=
  { job := 1#32, base := tierBase, size := 2 ^ 16, tier2 := false, home := 0#2, r := true, w := true, x := true, shared := false }

/-- The group of that thread (DESIGN CHOICE 5). -/
def fetchGroup (g : Nat) : Group :=
  { id := g, level := .thread, cls := 2#2, launch := 1#32, index := 0#32, job := 1#32, cores := [0#12], deadline := 0#64
    posted := 0, unrcnt := 0#8, ulast := 0#6, suspended := 0, cbase := BitVec.ofNat 64 fetchPlace
    clim := BitVec.ofNat 64 (fetchPlace + 4096) }

/-- The state with an instruction stored where the next step fetches: core slots enabled, a thread in core 0 at cycle
0, its code page mapped, its line in the instruction cache, and nothing else due (assumption 5) (DESIGN CHOICE 5). -/
def State.withFetchWord (s : State) (nbits w : Nat) : State :=
  let s1 := (s.dropThread 0).setThread 8 (fetchThread (s.fresh + 1))
  let s2 := s1.modCluster 0 fun k => { k with icache := [fetchPlace / 128] }
  { s2 with
    cores := assocSet 0 ((assocGet 0 s.cores).getD Core.reset) s2.cores
    mem := writeBytes s2.mem fetchPlace 8 (w % 2 ^ nbits), pages := [fetchPage], groups := [fetchGroup (s.fresh + 1)]
    fresh := s.fresh + 1
    time := 0, scan := 0, timed := [], inputs := [], enabled := true }

end Sys2Proof.Machine
end

