-- ==== Sys2Proof/Safety.lean ====
section
/-! DEFINITION. The terms in which claims about the module are stated: who performs an instruction, what a thread's
retirement changes and leaves alone, what a trap saves, and the invariant of a safe run. -/

set_option Elab.async false

namespace Sys2Proof.Machine

/-! ### Safe runs -/

/-- The outcome is a next state. The module has no global stop (R28). -/
def Answers (o : Out) : Prop := ∃ u, o = .next u

/-- What every step of a safe run keeps: memory in its one canonical form, and at most one thread in a slot, in the
order of thread ids. -/
structure State.Inv (s : State) : Prop where
  mem : Mem.wf s.mem = true
  threads : assocSorted s.threads = true

/-! ### The performing thread -/

/-- The step is that of slot `tid`, which holds the thread `t`: live and waiting for nothing, as a thread that issues is
(R13, R14, R128), in a state that keeps the invariant. -/
structure Performs (s : State) (tid : BitVec 16) (t : Thread) : Prop where
  inv : s.Inv
  slot : s.cur = .slot tid
  holds : s.thread? tid.toNat = some t
  live : t.run = .live
  idle : t.wait = none

/-- The thread is an attached member of a gang (R168). -/
def Thread.inGang (t : Thread) : Bool := match t.gang with
  | some g => g.attached
  | none => false

/-! ### Frames -/

/-- Another thread `p` of the gang of `t` that becomes `q` because `t` retired or detached: its scalar registers, its
trap registers and its CSRs are as they were (R168, R172). -/
structure GangMoved (t p q : Thread) : Prop where
  gang : ∃ g h, t.gang = some g ∧ p.gang = some h ∧ h.stream = g.stream
  same : q = { p with
    pc := q.pc, pw := q.pw, v := q.v, k := q.k, vres := q.vres, vflags := q.vflags, instret := q.instret
    skip := q.skip, wait := q.wait, latch := q.latch, latchCnt := q.latchCnt, stepped := q.stepped, stepAt := q.stepAt, stepSend := q.stepSend
    readyAt := q.readyAt, gang := q.gang }

/-- From `s` to `u` nothing changes but the thread of slot `tid` and, when it is an attached member of a gang, the
progress of that gang: every byte of memory, every full/empty bit, every core and every queue is as before. -/
structure ThreadOnly (s u : State) (tid : Nat) (t : Thread) : Prop where
  rest : u = { s with threads := u.threads, clusters := u.clusters }
  streams : ∀ n, u.cluster n = { s.cluster n with streams := (u.cluster n).streams }
  others : ∀ k, k ≠ tid → u.thread? k = s.thread? k ∨
    ∃ p q, t.inGang = true ∧ s.thread? k = some p ∧ u.thread? k = some q ∧ GangMoved t p q
  alone : t.inGang = false → u.clusters = s.clusters

/-- From `s` to `u` nothing changes but core `c`. -/
structure CoreOnly (s u : State) (c : Nat) : Prop where
  rest : u = { s with cores := u.cores }
  others : ∀ n, n ≠ c → u.core n = s.core n

/-- The thread `q` has retired one instruction of `t` and goes on at `pc`: the instruction count has risen by one, the
windows of pending vector results have shortened by one issue, and whatever else is not a scalar or predicate register
is as it was (R153, R277). -/
def RetiredTo (s : State) (t q : Thread) (pc : Word) : Prop :=
  q = { t.passWindows s.time with
    x := q.x, taint := q.taint, pw := q.pw, readyAt := q.readyAt, gang := q.gang, pc := pc, instret := t.instret + 1#64
    skip := false, wait := none, latch := none, latchCnt := none, stepped := t.stepctl.getLsbD 63, stepAt := s.time
    stepSend := q.stepSend }

/-- The instruction `i` of thread `t` completes: it retires, the thread goes on at `pc` as `q`, no earlier than `n` cycles
from now (R128, R133), and nothing else changes. -/
structure Completes (i : Instr) (s : State) (tid : BitVec 16) (t q : Thread) (pc : Word) (n : Nat) : Prop where
  run : ∃ u, exec i s = .next u ∧ u.thread? tid.toNat = some q ∧ ThreadOnly s u tid.toNat t
  retired : RetiredTo s t q pc
  ready : s.time + n ≤ q.readyAt

/-- Register `d` of `q` reads `v` with taint `b`; every other register reads as in `t`, and x0 reads zero (R126,
R194). -/
structure WroteReg (t q : Thread) (d : Reg) (v : Word) (b : Bool) : Prop where
  dest : d ≠ 0#5 → q.reg d = v ∧ q.tainted d = b
  zero : q.reg 0#5 = 0#64 ∧ q.tainted 0#5 = false
  others : ∀ r, r ≠ d → q.reg r = t.reg r ∧ q.tainted r = t.tainted r

/-- Predicate `n` of `q` is `b`; every other predicate is as in `t` (R127). -/
structure WrotePred (t q : Thread) (n : BitVec 6) (b : Bool) : Prop where
  dest : q.pred n = b
  others : ∀ m, m ≠ n → q.pred m = t.pred m

/-- `i` writes `v` with taint `b` to register `d`, retires, and changes no other register, predicate or state. -/
def Yields (i : Instr) (s : State) (tid : BitVec 16) (t : Thread) (d : Reg) (v : Word) (b : Bool) (n : Nat := 8) : Prop :=
  ∃ q, Completes i s tid t q (t.pc + 4#64) n ∧ WroteReg t q d v b ∧ q.pw = t.pw

/-- `i` sets predicate `p` to `b`, retires, and changes no other predicate, no register and no state. -/
def Decides (i : Instr) (s : State) (tid : BitVec 16) (t : Thread) (p : BitVec 6) (b : Bool) : Prop :=
  ∃ q, Completes i s tid t q (t.pc + 4#64) 8 ∧ q.x = t.x ∧ q.taint = t.taint ∧ WrotePred t q p b

/-- `i` goes on at `pc`, retires, and changes no register and no state. -/
def GoesTo (i : Instr) (s : State) (tid : BitVec 16) (t : Thread) (pc : Word) : Prop :=
  ∃ q, Completes i s tid t q pc 8 ∧ q.x = t.x ∧ q.taint = t.taint ∧ q.pw = t.pw

/-- `i` takes the trap `code` with `eval`: outside a handler EPC, EVAL, ECAUSE and EPW are written, the handler state
is set, PC becomes EVEC, no general register and no predicate changes, nothing is counted as retired, and STEPCTL.TRAPH
halts the thread then (R401, R407); inside a handler the trap registers stay and the thread halts with the cause in DCODE
(R403). -/
def Traps (i : Instr) (s : State) (tid : BitVec 16) (t : Thread) (code : BitVec 8) (eval : Word) : Prop :=
  ∃ u q, exec i s = .next u ∧ u.thread? tid.toNat = some q ∧ u.mem = s.mem ∧ u.full = s.full ∧
    q.x = t.x ∧ q.taint = t.taint ∧ q.pw = t.pw ∧ q.instret = t.instret ∧ q.inHandler = true ∧
    if t.inHandler then
      q.epc = t.epc ∧ q.eval = t.eval ∧ q.ecause = t.ecause ∧ q.epw = t.epw ∧ q.pc = t.pc ∧
        q.run = .root ∧ q.reason = .double ∧ q.dcode = code
    else
      q.epc = t.pc &&& ~~~3#64 ∧ q.eval = eval ∧ q.ecause = code.setWidth 64 ∧ q.epw = t.pw ∧ q.pc = t.evec ∧
        if t.stepctl.getLsbD 61 then q.run = .root ∧ q.reason = .traph else q.run = .live

end Sys2Proof.Machine
end

