-- ==== Sys2Proof/Certificates/Slice0/Obligations.lean ====
section
/-! DEFINITION. The statements about the model, one definition for each. -/

set_option Elab.async false

open Sys2Proof Sys2Proof.Machine

/-! ### Scalar instructions (05_scalar) -/

/-- R136, R194: OP-IMM. The 12-bit immediate is sign-extended, comparisons give 1 or 0, shifts take the 6-bit amount,
and the result carries the source's taint. -/
def Claims.ImmediateArithmetic : Prop :=
  ∀ s tid t, Performs s tid t → ∀ (d a : Reg) (i : BitVec 12) (sh : BitVec 6),
    let x := t.reg a
    let y : Word := i.signExtend 64
    let b := t.tainted a
    Yields (.addi d a i) s tid t d (x + y) b ∧
    Yields (.slti d a i) s tid t d (if x.toInt < y.toInt then 1 else 0) b ∧
    Yields (.sltiu d a i) s tid t d (if x.toNat < y.toNat then 1 else 0) b ∧
    Yields (.xori d a i) s tid t d (x ^^^ y) b ∧
    Yields (.ori d a i) s tid t d (x ||| y) b ∧
    Yields (.andi d a i) s tid t d (x &&& y) b ∧
    Yields (.slli d a sh) s tid t d (x <<< sh.toNat) b ∧
    Yields (.srli d a sh) s tid t d (x >>> sh.toNat) b ∧
    Yields (.srai d a sh) s tid t d (x.sshiftRight sh.toNat) b

/-- R136, R194: OP and the multiplies. Arithmetic wraps modulo 2^64, shifts take the low six bits of the second source,
the high products are bits 127:64 of the exact product, and the result's taint is the OR of the sources'. -/
def Obligations.RegisterArithmetic : Prop :=
  ∀ s tid t, Performs s tid t → ∀ (d a b : Reg),
    let x := t.reg a
    let y := t.reg b
    let z := t.tainted a || t.tainted b
    Yields (.add d a b) s tid t d (x + y) z ∧
    Yields (.sub d a b) s tid t d (x - y) z ∧
    Yields (.slt d a b) s tid t d (if x.toInt < y.toInt then 1 else 0) z ∧
    Yields (.sltu d a b) s tid t d (if x.toNat < y.toNat then 1 else 0) z ∧
    Yields (.xor d a b) s tid t d (x ^^^ y) z ∧
    Yields (.or d a b) s tid t d (x ||| y) z ∧
    Yields (.and d a b) s tid t d (x &&& y) z ∧
    Yields (.sll d a b) s tid t d (x <<< (y.toNat % 64)) z ∧
    Yields (.srl d a b) s tid t d (x >>> (y.toNat % 64)) z ∧
    Yields (.sra d a b) s tid t d (x.sshiftRight (y.toNat % 64)) z ∧
    Yields (.mul d a b) s tid t d (BitVec.ofInt 64 (x.toInt * y.toInt)) z ∧
    Yields (.mulh d a b) s tid t d (BitVec.ofInt 64 (x.toInt * y.toInt / 2 ^ 64)) z ∧
    Yields (.mulhsu d a b) s tid t d (BitVec.ofInt 64 (x.toInt * y.toNat / 2 ^ 64)) z ∧
    Yields (.mulhu d a b) s tid t d (BitVec.ofNat 64 (x.toNat * y.toNat / 2 ^ 64)) z

/-- R136: the W forms work on the low 32 bits and sign-extend their 32-bit result. -/
def Claims.WordFormArithmetic : Prop :=
  ∀ s tid t, Performs s tid t → ∀ (d a b : Reg) (i : BitVec 12) (sh : BitVec 5),
    let x : BitVec 32 := (t.reg a).setWidth 32
    let y : BitVec 32 := (t.reg b).setWidth 32
    let n := (t.reg b).toNat % 32
    let z := t.tainted a || t.tainted b
    Yields (.addiw d a i) s tid t d ((x + i.signExtend 32).signExtend 64) (t.tainted a) ∧
    Yields (.slliw d a sh) s tid t d ((x <<< sh.toNat).signExtend 64) (t.tainted a) ∧
    Yields (.srliw d a sh) s tid t d ((x >>> sh.toNat).signExtend 64) (t.tainted a) ∧
    Yields (.sraiw d a sh) s tid t d ((x.sshiftRight sh.toNat).signExtend 64) (t.tainted a) ∧
    Yields (.addw d a b) s tid t d ((x + y).signExtend 64) z ∧
    Yields (.subw d a b) s tid t d ((x - y).signExtend 64) z ∧
    Yields (.sllw d a b) s tid t d ((x <<< n).signExtend 64) z ∧
    Yields (.srlw d a b) s tid t d ((x >>> n).signExtend 64) z ∧
    Yields (.sraw d a b) s tid t d ((x.sshiftRight n).signExtend 64) z ∧
    Yields (.mulw d a b) s tid t d ((x * y).signExtend 64) z

/-- The quotient and remainder of a w-bit division, rounded towards zero, with the results of R136 for a zero
divisor. -/
def Claims.quotRem (w : Nat) (x y : Int) : Int × Int := if y = 0 then (2 ^ w - 1, x) else (x.tdiv y, x.tmod y)

/-- R133, R136: the divides. Division by zero gives all ones and the dividend; the thread is occupied for 40 cycles, for
24 by the W forms. -/
def Claims.DivideAndRemainder : Prop :=
  ∀ s tid t, Performs s tid t → ∀ (d a b : Reg),
    let x := t.reg a
    let y := t.reg b
    let x32 : BitVec 32 := x.setWidth 32
    let y32 : BitVec 32 := y.setWidth 32
    let z := t.tainted a || t.tainted b
    let sd := Claims.quotRem 64 x.toInt y.toInt
    let ud := Claims.quotRem 64 x.toNat y.toNat
    let sw := Claims.quotRem 32 x32.toInt y32.toInt
    let uw := Claims.quotRem 32 x32.toNat y32.toNat
    Yields (.div d a b) s tid t d (BitVec.ofInt 64 sd.1) z 40 ∧
    Yields (.divu d a b) s tid t d (BitVec.ofInt 64 ud.1) z 40 ∧
    Yields (.rem d a b) s tid t d (BitVec.ofInt 64 sd.2) z 40 ∧
    Yields (.remu d a b) s tid t d (BitVec.ofInt 64 ud.2) z 40 ∧
    Yields (.divw d a b) s tid t d ((BitVec.ofInt 32 sw.1).signExtend 64) z 24 ∧
    Yields (.divuw d a b) s tid t d ((BitVec.ofInt 32 uw.1).signExtend 64) z 24 ∧
    Yields (.remw d a b) s tid t d ((BitVec.ofInt 32 sw.2).signExtend 64) z 24 ∧
    Yields (.remuw d a b) s tid t d ((BitVec.ofInt 32 uw.2).signExtend 64) z 24

/-- The W forms and the divides, with division by zero: `Claims.WordFormArithmetic`, `Claims.DivideAndRemainder`. -/
def Obligations.WordFormsAndDivision : Prop :=
  Claims.WordFormArithmetic ∧ Claims.DivideAndRemainder

/-- R143, R144, R147, R148: minimum and maximum, bit counts, the predicate word as a register, and the select by a
predicate. The counts are stated by their bits: `clz` zeros above the highest 1, `ctz` zeros below the lowest, `cpop`
all ones. -/
def Claims.ScalarExtras : Prop :=
  ∀ s tid t, Performs s tid t → ∀ (d a b : Reg) (n : BitVec 6),
    let x := t.reg a
    let y := t.reg b
    let z := t.tainted a || t.tainted b
    Yields (.min d a b) s tid t d (if x.toInt ≤ y.toInt then x else y) z ∧
    Yields (.max d a b) s tid t d (if x.toInt ≤ y.toInt then y else x) z ∧
    Yields (.minu d a b) s tid t d (if x.toNat ≤ y.toNat then x else y) z ∧
    Yields (.maxu d a b) s tid t d (if x.toNat ≤ y.toNat then y else x) z ∧
    (∃ k, k ≤ 64 ∧ (∀ j, 64 - k ≤ j → j < 64 → x.getLsbD j = false) ∧ (k < 64 → x.getLsbD (63 - k) = true) ∧
      Yields (.clz d a) s tid t d (BitVec.ofNat 64 k) (t.tainted a)) ∧
    (∃ k, k ≤ 64 ∧ (∀ j, j < k → x.getLsbD j = false) ∧ (k < 64 → x.getLsbD k = true) ∧
      Yields (.ctz d a) s tid t d (BitVec.ofNat 64 k) (t.tainted a)) ∧
    Yields (.cpop d a) s tid t d (BitVec.ofNat 64 ((List.range 64).countP x.getLsbD)) (t.tainted a) ∧
    Yields (.pmvXp d) s tid t d t.pw false ∧
    Yields (.sel d n a b) s tid t d (if t.pred n then x else y) z ∧
    ∃ q, Completes (.pmvPx a) s tid t q (t.pc + 4#64) 8 ∧ q.x = t.x ∧ q.taint = t.taint ∧ q.pw = x

/-- R145: `pset.cc` sets its predicate to the truth of the comparison and leaves the other 63 as they are. -/
def Claims.PredicateSets : Prop :=
  ∀ s tid t, Performs s tid t → ∀ (p : BitVec 6) (a b : Reg),
    let x := t.reg a
    let y := t.reg b
    Decides (.psetEq p a b) s tid t p (decide (x = y)) ∧
    Decides (.psetNe p a b) s tid t p (decide (x ≠ y)) ∧
    Decides (.psetLt p a b) s tid t p (decide (x.toInt < y.toInt)) ∧
    Decides (.psetGe p a b) s tid t p (decide (y.toInt ≤ x.toInt)) ∧
    Decides (.psetLtu p a b) s tid t p (decide (x.toNat < y.toNat)) ∧
    Decides (.psetGeu p a b) s tid t p (decide (y.toNat ≤ x.toNat))

/-- A word of custom-0 in the X layout, funct3 000 (R67). -/
def Claims.xWord (f7 : BitVec 7) (b a d : Reg) : BitVec 32 := f7 ++ b ++ a ++ 0#3 ++ d ++ 0x0B#7

/-- R143, R144, R145, R147, R148: the words of the scalar extras. Every field value of a minimum, a maximum or a `sel` is
legal; a non-zero field that another form does not name, and a condition without a meaning, is rejected. -/
def Claims.ScalarExtraWords : Prop :=
  ∀ (a b d : Reg) (p : BitVec 6) (z : BitVec 1) (y : BitVec 2) (cond : BitVec 3) second,
    let word := fun f7 => decode (Claims.xWord f7 b a d) second
    word 0#7 = .ok (.min d a b) ∧ word 1#7 = .ok (.max d a b) ∧ word 2#7 = .ok (.minu d a b) ∧
    word 3#7 = .ok (.maxu d a b) ∧
    word 4#7 = (if b = 0#5 then .ok (.clz d a) else .error .field) ∧
    word 5#7 = (if b = 0#5 then .ok (.ctz d a) else .error .field) ∧
    word 6#7 = (if b = 0#5 then .ok (.cpop d a) else .error .field) ∧
    word 8#7 = (if a = 0#5 ∧ b = 0#5 then .ok (.pmvXp d) else .error .field) ∧
    word 9#7 = (if d = 0#5 ∧ b = 0#5 then .ok (.pmvPx a) else .error .field) ∧
    word (1#1 ++ p) = .ok (.sel d p a b) ∧
    decode (p ++ z ++ b ++ a ++ 1#3 ++ y ++ cond ++ 0x0B#7) second =
      if z = 0#1 ∧ y = 0#2 then
        if cond = 0#3 then .ok (.psetEq p a b) else if cond = 1#3 then .ok (.psetNe p a b)
        else if cond = 4#3 then .ok (.psetLt p a b) else if cond = 5#3 then .ok (.psetGe p a b)
        else if cond = 6#3 then .ok (.psetLtu p a b) else if cond = 7#3 then .ok (.psetGeu p a b)
        else .error .funct
      else .error .field

/-- Scalar extras and pset: results, frames and words: `Claims.ScalarExtras`, `Claims.PredicateSets`,
`Claims.ScalarExtraWords`. -/
def Obligations.ScalarExtrasAndPredicates : Prop :=
  Claims.ScalarExtras ∧ Claims.PredicateSets ∧ Claims.ScalarExtraWords

/-- R136: LUI and AUIPC write the immediate as bits 31:12, sign-extended, alone and added to PC. -/
def Claims.UpperImmediates : Prop :=
  ∀ s tid t, Performs s tid t → ∀ (d : Reg) (i : BitVec 20),
    let y : Word := (i ++ 0#12 : BitVec 32).signExtend 64
    Yields (.lui d i) s tid t d y false ∧ Yields (.auipc d i) s tid t d (t.pc + y) false

/-- Immediate arithmetic, LUI and AUIPC write their result and change nothing else: `Claims.ImmediateArithmetic`,
`Claims.UpperImmediates`. -/
def Obligations.ImmediateAndUpperArithmetic : Prop :=
  Claims.ImmediateArithmetic ∧ Claims.UpperImmediates

/-- A transfer to `target`: taken when it is a multiple of 4; MISALIGN at the transfer otherwise (R137). -/
def Claims.Transfers (i : Instr) (s : State) (tid : BitVec 16) (t : Thread) (target : Word) : Prop :=
  if target.toNat % 4 = 0 then GoesTo i s tid t target else Traps i s tid t 0x03#8 target

/-- A conditional transfer (R136, R146). -/
def Claims.Branches (i : Instr) (s : State) (tid : BitVec 16) (t : Thread) (taken : Prop) (target : Word) : Prop :=
  (taken → Claims.Transfers i s tid t target) ∧ (¬ taken → GoesTo i s tid t (t.pc + 4#64))

/-- R136, R137, R146: branches. A taken branch goes to PC plus twice its offset, and raises MISALIGN with the target in
EVAL when that is not a multiple of 4. -/
def Claims.BranchForms : Prop :=
  ∀ s tid t, Performs s tid t → ∀ (a b : Reg) (p : BitVec 6) (off : BitVec 12),
    let x := t.reg a
    let y := t.reg b
    let to_ := t.pc + 2#64 * off.signExtend 64
    Claims.Branches (.beq a b off) s tid t (x = y) to_ ∧
    Claims.Branches (.bne a b off) s tid t (x ≠ y) to_ ∧
    Claims.Branches (.blt a b off) s tid t (x.toInt < y.toInt) to_ ∧
    Claims.Branches (.bge a b off) s tid t (y.toInt ≤ x.toInt) to_ ∧
    Claims.Branches (.bltu a b off) s tid t (x.toNat < y.toNat) to_ ∧
    Claims.Branches (.bgeu a b off) s tid t (y.toNat ≤ x.toNat) to_ ∧
    Claims.Branches (.bp p off) s tid t (t.pw.getLsbD p.toNat = true) to_ ∧
    Claims.Branches (.bnp p off) s tid t (t.pw.getLsbD p.toNat = false) to_

/-- R136, R137, R141: JAL and JALR write the address of the next word to rd, x0 discarding it, and go to their target;
JALR clears bit 0 of the sum. A target that is not a multiple of 4 raises MISALIGN, and rd is not written. -/
def Claims.JumpsAndLinks : Prop :=
  ∀ s tid t, Performs s tid t → ∀ (d a : Reg) (i : BitVec 12) (off : BitVec 20),
    let links := fun (j : Instr) (to_ : Word) =>
      if to_.toNat % 4 = 0 then
        ∃ q, Completes j s tid t q to_ 8 ∧ WroteReg t q d (t.pc + 4#64) false ∧ q.pw = t.pw
      else Traps j s tid t 0x03#8 to_
    links (.jal d off) (t.pc + 2#64 * off.signExtend 64) ∧
    links (.jalr d a i) ((t.reg a + i.signExtend 64) &&& ~~~1#64)

/-- Branches and jumps: target, link, and MISALIGN at the transfer: `Claims.BranchForms`, `Claims.JumpsAndLinks`. -/
def Obligations.ControlTransfers : Prop :=
  Claims.BranchForms ∧ Claims.JumpsAndLinks

/-- R139, R401, R402, R403: ECALL takes the ECALL trap with EVAL zero; a word that is no instruction takes ILLEGAL with the
word in EVAL (R66); `tret` outside a handler takes ILLEGAL (R413). -/
def Claims.PreciseTraps : Prop :=
  ∀ s tid t, Performs s tid t →
    Traps .ecall s tid t 0x05#8 0#64 ∧
    (∀ w, Traps (.illegalWord w) s tid t 0x01#8 (w.setWidth 64)) ∧
    (∀ a, Traps (.fetchbound a) s tid t 0x04#8 a) ∧
    (t.inHandler = false → Traps .tret s tid t 0x01#8 0x600B#64)

/-- R413: inside a handler `tret` goes on at EPC, restores pw from EPW and clears the handler state. -/
def Claims.TrapReturn : Prop :=
  ∀ s tid t, Performs s tid t → t.inHandler = true →
    ∃ u q, exec .tret s = .next u ∧ u.thread? tid.toNat = some q ∧ ThreadOnly s u tid.toNat t ∧
      q.pc = t.epc &&& ~~~3#64 ∧ q.pw = t.epw ∧ q.inHandler = false ∧ q.x = t.x ∧ q.taint = t.taint ∧
      s.time + 8 ≤ q.readyAt ∧ (t.inGang = false → q.gang = t.gang) ∧ q.epc = t.epc ∧ q.eval = t.eval ∧ q.ecause = t.ecause ∧ q.epw = t.epw ∧ q.instret = t.instret + 1#64

/-- R140, R414, R28, R410: EBREAK retires and the thread halts at the next word; `halt` does not retire and the thread
halts at the `halt` itself. Neither is a trap: EPC, ECAUSE, EVAL and EPW stay, and so do all registers. -/
def Claims.RootHalts : Prop :=
  ∀ s tid t, Performs s tid t →
    ∀ i why pc n, (i, why, pc, n) = (Instr.ebreak, Reason.ebreak, t.pc + 4#64, 1#64) ∨
        (i, why, pc, n) = (Instr.halt, Reason.halt, t.pc, 0#64) →
      ∃ u q, exec i s = .next u ∧ u.thread? tid.toNat = some q ∧ u.mem = s.mem ∧ u.full = s.full ∧
        q.run = .root ∧ q.reason = why ∧ q.pc = pc ∧ q.instret = t.instret + n ∧ q.x = t.x ∧ q.taint = t.taint ∧
        q.pw = t.pw ∧ q.epc = t.epc ∧ q.ecause = t.ecause ∧ q.eval = t.eval ∧ q.epw = t.epw ∧ q.inHandler = t.inHandler ∧
        ∀ g, q.gang = some g → g.attached = false

/-- Precise traps, the return from a handler, and root halts: `Claims.PreciseTraps`, `Claims.TrapReturn`,
`Claims.RootHalts`. -/
def Obligations.TrapsAndReturns : Prop :=
  Claims.PreciseTraps ∧ Claims.TrapReturn ∧ Claims.RootHalts

/-! ### Control and status registers (05_scalar, 17_traps) -/

/-- Registers of a slot whose writes have no effect beyond their value, with the bits that a write keeps: EVEC, EPC,
ECAUSE, EVAL, EPW, VFLAGS, SYNCLIM and SCORECHK (R114, R149, R200, R278, R398). -/
def Claims.slotCsrs : List (BitVec 12 × Word) :=
  [(0x800#12, ~~~3#64), (0x801#12, ~~~3#64), (0x802#12, 0x80000000000000FF#64), (0x803#12, ~~~0#64),
   (0x804#12, ~~~0#64), (0x805#12, 0x3F#64), (0x806#12, 0xFFFFFFFF#64), (0x809#12, 1#64)]

/-- `i` retires, writes to `d` what CSR `n` read before, leaves `new` in CSR `n`, and changes no other register and no
other CSR of the slot; VFLAGS gains no flag but those of pending vector results. -/
def Claims.Swaps (i : Instr) (s : State) (tid : BitVec 16) (t : Thread) (d : Reg) (n : BitVec 12) (new : Word) : Prop :=
  ∃ u q, exec i s = .next u ∧ u.thread? tid.toNat = some q ∧ ThreadOnly s u tid.toNat t ∧ q.pc = t.pc + 4#64 ∧
    q.instret = t.instret + 1#64 ∧ q.pw = t.pw ∧ WroteReg t q d (s.csrValue tid.toNat t n.toNat) false ∧
    u.csrValue tid.toNat q n.toNat = new ∧
    ∀ m, 0x800 ≤ m → m ≤ 0x80A → m ≠ n.toNat → (m = 0x805 → t.vres = []) →
      u.csrValue tid.toNat q m = s.csrValue tid.toNat t m

/-- R141, R149, R150: the six CSR instructions on the registers of a slot: the old value goes to rd, with rd = x0
discarded, and the register takes the source, or the old value with the source's bits set or cleared; a set or clear by
x0 or 0 writes nothing. -/
def Claims.SlotCsrAccess : Prop :=
  ∀ s tid t, Performs s tid t → ∀ n mask, (n, mask) ∈ Claims.slotCsrs → (n = 0x805#12 → t.vres = []) →
    ∀ (d a : Reg) (z : BitVec 5),
      let old := s.csrValue tid.toNat t n.toNat
      let x := t.reg a
      let y : Word := z.setWidth 64
      Claims.Swaps (.csrrw d a n) s tid t d n (x &&& mask) ∧
      Claims.Swaps (.csrrwi d z n) s tid t d n (y &&& mask) ∧
      Claims.Swaps (.csrrs d a n) s tid t d n (if x = 0#64 then old else (old ||| x) &&& mask) ∧
      Claims.Swaps (.csrrc d a n) s tid t d n (if x = 0#64 then old else (old &&& ~~~x) &&& mask) ∧
      Claims.Swaps (.csrrsi d z n) s tid t d n (if z = 0#5 then old else (old ||| y) &&& mask) ∧
      Claims.Swaps (.csrrci d z n) s tid t d n (if z = 0#5 then old else (old &&& ~~~y) &&& mask)

/-- The CSR numbers of the map (R149). -/
def Claims.presentCsr (n : Nat) : Prop :=
  (0x800 ≤ n ∧ n ≤ 0x80A) ∨ (0x810 ≤ n ∧ n ≤ 0x816) ∨ (0x818 ≤ n ∧ n ≤ 0x81B) ∨ (0x820 ≤ n ∧ n ≤ 0x867) ∨ n = 0x870 ∨
    (0xC00 ≤ n ∧ n ≤ 0xC02) ∨ (0xCC0 ≤ n ∧ n ≤ 0xCC4) ∨ (0xCD0 ≤ n ∧ n ≤ 0xCDF)

/-- `i` raises ILLEGAL with its word in EVAL (R66). -/
def Claims.Illegal (i : Instr) (s : State) (tid : BitVec 16) (t : Thread) : Prop :=
  Traps i s tid t 0x01#8 (((encode i).headD 0#32).setWidth 64)

/-- R5, R149, R150: a CSR number outside the map raises ILLEGAL under every CSR instruction, and so does a write of a
read-only register, of STEPCTL, and of SLOTCFG outside slot 0, a set or clear form writing when its source is not zero
(DEDUCED 31); EVAL holds the word. -/
def Claims.CsrRefusals : Prop :=
  ∀ s tid t, Performs s tid t → ∀ (d a : Reg) (z : BitVec 5) (n : BitVec 12),
    (¬ Claims.presentCsr n.toNat →
      ∀ i ∈ [Instr.csrrw d a n, .csrrs d a n, .csrrc d a n, .csrrwi d z n, .csrrsi d z n, .csrrci d z n],
        Claims.Illegal i s tid t) ∧
    (0xC00 ≤ n.toNat ∨ n = 0x80A#12 ∨ n = 0x810#12 ∧ tid.toNat % 16 ≠ 0 →
      (∀ i ∈ [Instr.csrrw d a n, .csrrwi d z n], Claims.Illegal i s tid t) ∧
      (t.reg a ≠ 0#64 → ∀ i ∈ [Instr.csrrs d a n, .csrrc d a n], Claims.Illegal i s tid t) ∧
      (z ≠ 0#5 → ∀ i ∈ [Instr.csrrsi d z n, .csrrci d z n], Claims.Illegal i s tid t))

/-- R151, R152, R153: TIME and CYCLE read the module's time, TICK the time divided by 1,250, INSTRET the count of retired
instructions and TID the global thread id, when the thread has not read a later time and its job neither logs nor
replays its inputs. -/
def Claims.CounterReads : Prop :=
  ∀ s tid t, Performs s tid t → t.lastTime ≤ s.time → s.replayIn = [] → s.logged t = false → ∀ (d : Reg) n v,
    (n, v) ∈ [(0xC00#12, BitVec.ofNat 64 s.time), (0xC01#12, BitVec.ofNat 64 s.time),
      (0xCC1#12, BitVec.ofNat 64 (s.time / 1250)), (0xC02#12, t.instret),
      (0xCC0#12, (s.ownRank t.job ++ tid).setWidth 64), (0xCC3#12, t.cbase), (0xCC4#12, t.clim)] →
    ∃ u q, exec (.csrrs d 0#5 n) s = .next u ∧ u.thread? tid.toNat = some q ∧ ThreadOnly s u tid.toNat t ∧
      q.pc = t.pc + 4#64 ∧ q.instret = t.instret + 1#64 ∧ WroteReg t q d v false

/-- CSR instructions on the registers of a slot, their refusals, and the counters: `Claims.SlotCsrAccess`,
`Claims.CsrRefusals`, `Claims.CounterReads`. -/
def Obligations.SlotRegisterAccess : Prop :=
  Claims.SlotCsrAccess ∧ Claims.CsrRefusals ∧ Claims.CounterReads

/-- R185, R173: `dlset` arms DLINE at the low 63 bits of its source and `dlclr` disarms it, keeping TICKS and
cancelling a pending event; a deadline at or below TICK falls due at once. A CSR write of DLINE does the same. -/
def Claims.DeadlineSetAndClear : Prop :=
  (∀ s tid t, Performs s tid t → ∀ a : Reg,
    (∃ u q, exec (.dlset a) s = .next u ∧ u.thread? tid.toNat = some q ∧ q.pc = t.pc + 4#64 ∧ q.x = t.x ∧
      q.dline = 1#1 ++ (t.reg a).setWidth 63 ∧ u.mem = s.mem ∧
      (((t.reg a).setWidth 63).toNat ≤ s.time / 1250 →
        ∃ x ∈ u.timed, x.due = s.time ∧ x.what = .deadlineFire tid)) ∧
    ∃ u q, exec .dlclr s = .next u ∧ u.thread? tid.toNat = some q ∧ ThreadOnly s u tid.toNat t ∧ q.pc = t.pc + 4#64 ∧
      q.x = t.x ∧ q.dline = 0#1 ++ t.dline.setWidth 63 ∧ q.dlPending = false) ∧
  ∀ s (tid : BitVec 16) t v, s.thread? tid.toNat = some t →
    ∃ u, exec (.dlineWrite tid v) s = .next u ∧
      u.thread? tid.toNat = some { t with dline := v, dlPending := v.getLsbD 63 && t.dlPending } ∧
      (v.getLsbD 63 = true → (v.setWidth 63).toNat ≤ s.time / 1250 →
        ∃ x ∈ u.timed, x.due = s.time ∧ x.what = .deadlineFire tid)

/-- R222, R223, R233, R317, R416: writes of per-core registers with effects of their own: FABQOSn and MEBUDGET take
BURST (at least 1) and RATE and fill their bucket, upon which a command that waits for units is tried again, ARRSPILL keeps BASE and COUNT while contexts are held, and PROFCTL.CLR
clears the 16 counters. Nothing else of the core and no other core changes. -/
def Claims.CoreRegisterWrites : Prop :=
  ∀ s (c : CoreId) (v : Word),
    let k := s.core c.toNat
    let burst := max 1 (v.toNat / 2 ^ 24 % 2 ^ 16)
    let word : Word := BitVec.ofNat 64 (burst * 2 ^ 24 + v.toNat / 2 ^ 4 % 2 ^ 16 * 2 ^ 4)
    (∃ u, exec (.mebudgetWrite c v) s = .next u ∧ u = { s with cores := u.cores, timed := u.timed, fresh := u.fresh } ∧
      (∀ n, n ≠ c.toNat → u.core n = s.core n) ∧ u.core c.toNat = { k with mebudget := word, meBucket := burst } ∧
      ∃ y ∈ u.timed, y.what = .meStart c) ∧
    (∀ n : BitVec 2, ∃ u, exec (.fabqosWrite c n v) s = .next u ∧ CoreOnly s u c.toNat ∧
      u.core c.toNat = { k with
        fabqos := k.fabqos.setIfInBounds n.toNat word, fabBucket := k.fabBucket.setIfInBounds n.toNat burst }) ∧
    (∃ u, exec (.arrspillWrite c v) s = .next u ∧ CoreOnly s u c.toNat ∧
      u.core c.toNat = { k with arrspill := (u.core c.toNat).arrspill } ∧
      (k.arrspill.extractLsb' 48 9 ≠ 0#9 → (u.core c.toNat).arrspill = k.arrspill) ∧
      (k.arrspill.extractLsb' 48 9 = 0#9 → ((u.core c.toNat).arrspill.extractLsb' 8 11 = v.extractLsb' 8 11 ∧
        ((u.core c.toNat).arrspill.extractLsb' 32 9).toNat = min 256 (v.extractLsb' 32 9).toNat))) ∧
    ∃ u, exec (.profctlClr c) s = .next u ∧ CoreOnly s u c.toNat ∧
      u.core c.toNat = { k with prof := Vector.replicate 16 0#64 }

/-- R156, R157: a write of MODE takes effect at once, and MODE = 0 lets the hardware start tasks again; a write of XFER is
ignored while slot 15 is occupied, q4 or q2 hold work, or a copy of the core runs; slot 15 is no disabled worker slot while it has
transfer duty. -/
def Claims.SlotcfgModeAndXfer : Prop :=
  ∀ s (c : CoreId) (b : Bool),
    let k := s.core c.toNat
    let busy : Prop := s.thread? (c.toNat * 16 + 15) ≠ none ∨ k.q4 ≠ [] ∨ k.copies ≠ [] ∨ ∃ m, some m ∈ k.q2.toList
    (∃ u, exec (.slotcfgModeWrite c b) s = .next u ∧ (u.core c.toNat).slotcfg.getLsbD 0 = b ∧
      u.core c.toNat = { k with slotcfg := (u.core c.toNat).slotcfg } ∧ u.threads = s.threads ∧ u.mem = s.mem ∧
      (b = false → ∃ x ∈ u.timed, x.due = s.time ∧ x.what = .taskStart c)) ∧
    ∃ u, exec (.slotcfgXferWrite c b) s = .next u ∧ (busy → u = s) ∧
      (¬ busy → u = { s with cores := u.cores, timed := u.timed, fresh := u.fresh } ∧
        (∀ n, n ≠ c.toNat → u.core n = s.core n) ∧ (u.core c.toNat).slotcfg.getLsbD 1 = b ∧
        (u.core c.toNat).slotcfg.getLsbD 31 = (k.slotcfg.getLsbD 31 && !b) ∧
        u.core c.toNat = { k with slotcfg := (u.core c.toNat).slotcfg
                                  thermal := if b then k.thermal.filter (· ≠ 15#4) else k.thermal })

/-- R250, R251: a write of INBOXB or INBOXS: BASE and SIZE stay while the inbox holds records; a change of an empty inbox
empties HEAD and TAIL, restarts SEQ and sends an INBOXCAP frame with the new capacity. -/
def Claims.InboxConfiguration : Prop :=
  ∀ s (c : CoreId) (v : Word),
    let k := s.core c.toNat
    (k.inboxs.extractLsb' 32 16 ≠ 0#16 →
      (∃ u, exec (.inboxConfigWrite c false v) s = .next u ∧ u.core c.toNat = k ∧ u.emit = s.emit) ∧
      ∃ u, exec (.inboxConfigWrite c true v) s = .next u ∧ u.emit = s.emit ∧ (u.core c.toNat).inboxb = k.inboxb ∧
        (u.core c.toNat).inboxs.extractLsb' 0 16 = k.inboxs.extractLsb' 0 16) ∧
    (k.inboxs.extractLsb' 32 16 = 0#16 → v.extractLsb' 4 15 ≠ k.inboxb.extractLsb' 4 15 →
      ∃ u x, exec (.inboxConfigWrite c false v) s = .next u ∧
        (u.core c.toNat).inboxb.extractLsb' 4 15 = v.extractLsb' 4 15 ∧
        (u.core c.toNat).inboxb.extractLsb' 32 32 = 0#32 ∧ (u.core c.toNat).inboxSeq = 0#32 ∧
        x ∈ u.emitQ (c.toNat / 8) ∧ x.ty = .inboxcap)

/-- R302, R303: a ring register is written with the bits of its field map while no matrix command in q0 names its ring,
and the write is ignored while one does; TILE is at most 0x1000. -/
def Claims.RingRegisterWrites : Prop :=
  ∀ s (c : CoreId) (v : Word) (n : BitVec 3),
    let k := s.core c.toNat
    let named := ∃ x ∈ k.q0, x.word.toNat % 256 ∈ [1, 2, 3] ∧
      (x.word.extractLsb' 72 3 = n ∨ x.word.extractLsb' 80 3 = n)
    ∀ f ∈ [(0x840, 0x80007FFF0007FFF0#64, Core.ringBase), (0x848, 0xFFFFF#64, Core.ringSize),
      (0x858, 0xFFFFFFFF#64, Core.ringHead), (0x860, 0xFFFFFFFF#64, Core.ringTail)],
      ∃ u, exec (.ringCsrWrite c (BitVec.ofNat 12 (f.1 + n.toNat)) v) s = .next u ∧
        (f.2.2 (u.core c.toNat))[n.toNat]? = (if named then (f.2.2 k)[n.toNat]? else some (v &&& f.2.1)) ∧
      ∃ w, exec (.ringCsrWrite c (BitVec.ofNat 12 (0x850 + n.toNat)) v) s = .next w ∧
        (w.core c.toNat).ringTile[n.toNat]? =
          if named then k.ringTile[n.toNat]? else some (BitVec.ofNat 64 (min 0x1000 (v.toNat % 2 ^ 13)))

/-- Writes of the inbox registers and of the ring registers: `Claims.InboxConfiguration`, `Claims.RingRegisterWrites`. -/
def Obligations.InboxAndRingRegisters : Prop :=
  Claims.InboxConfiguration ∧ Claims.RingRegisterWrites

/-- R33, R150, R411: a write by a house core takes the field map's effect on the register of a slot whose thread is halted, STEPCTL
included, and leaves a read-only register, and the registers of a slot whose thread is not halted, as they are. -/
def Claims.HouseCsrWrites : Prop :=
  ∀ s (tid : BitVec 16) t (v : Word), s.thread? tid.toNat = some t →
    (t.run ≠ .live →
      (∃ u, exec (.csrWrite tid 0x80A#12 v) s = .next u ∧
        u.thread? tid.toNat = some { t with stepctl := v &&& 0xF0001FFFFFFFFFFC#64 }) ∧
      ∃ u, exec (.csrWrite tid 0x806#12 v) s = .next u ∧
        u.thread? tid.toNat = some { t with synclim := v &&& 0xFFFFFFFF#64 }) ∧
    (t.run = .live → ∀ n : BitVec 12, 0x800 ≤ n.toNat → n.toNat ≤ 0x80A → exec (.csrWrite tid n v) s = .next s) ∧
    (∀ n : BitVec 12, 0xC00 ≤ n.toNat → exec (.csrWrite tid n v) s = .next s) ∧
    ∃ u, exec (.vflagsAccess tid) s = .next u ∧
      ∃ q, u.thread? tid.toNat = some q ∧ q.x = t.x ∧ q.pc = t.pc ∧ (t.vres = [] → q.vflags = t.vflags)

/-- Writes of per-core registers with effects of their own, and of a slot by the house cores: `Claims.CoreRegisterWrites`,
`Claims.SlotcfgModeAndXfer`, `Claims.HouseCsrWrites`. -/
def Obligations.CoreAndHouseRegisterWrites : Prop :=
  Claims.CoreRegisterWrites ∧ Claims.SlotcfgModeAndXfer ∧ Claims.HouseCsrWrites

/-! ### Memory, synchronisation and atomics (07_memory) -/

/-- The loads with an address register and an immediate: width, sign extension, and the taint of rd (R205, R206). -/
def Claims.loads (d a : Reg) (i : BitVec 12) : List (Instr × Nat × Bool × Bool) :=
  [(.lb d a i, 1, true, false), (.lh d a i, 2, true, false), (.lw d a i, 4, true, false), (.ld d a i, 8, true, false),
   (.lbu d a i, 1, false, false), (.lhu d a i, 2, false, false), (.lwu d a i, 4, false, false),
   (.lconW d a i, 4, true, true), (.lconD d a i, 8, true, true)]

/-- The stores, with their width (R205). -/
def Claims.stores (a b : Reg) (i : BitVec 12) : List (Instr × Nat) :=
  [(.sb a b i, 1), (.sh a b i, 2), (.sw a b i, 4), (.sd a b i, 8)]

/-- The atomics, with their operation and width (R213). -/
def Claims.atomics (d a b : Reg) : List (Instr × AmoOp × Nat) :=
  [(.amoAddW d a b, .add, 4), (.amoAddD d a b, .add, 8), (.amoAndW d a b, .and, 4), (.amoAndD d a b, .and, 8),
   (.amoOrW d a b, .or, 4), (.amoOrD d a b, .or, 8), (.amoXorW d a b, .xor, 4), (.amoXorD d a b, .xor, 8),
   (.amoMinW d a b, .min, 4), (.amoMinD d a b, .min, 8), (.amoMaxW d a b, .max, 4), (.amoMaxD d a b, .max, 8),
   (.amoMinuW d a b, .minu, 4), (.amoMinuD d a b, .minu, 8), (.amoMaxuW d a b, .maxu, 4), (.amoMaxuD d a b, .maxu, 8),
   (.amoSwapW d a b, .swap, 4), (.amoSwapD d a b, .swap, 8), (.amoCasW d a b, .cas, 4), (.amoCasD d a b, .cas, 8)]

/-- What an atomic writes over `old`; the compare-and-swap compares with `e` (R213). -/
def Claims.amoResult (w : Nat) (old b e : BitVec (8 * w)) : AmoOp → BitVec (8 * w)
  | .add => old + b
  | .and => old &&& b
  | .or => old ||| b
  | .xor => old ^^^ b
  | .min => if old.toInt < b.toInt then old else b
  | .max => if b.toInt < old.toInt then old else b
  | .minu => if old.toNat < b.toNat then old else b
  | .maxu => if b.toNat < old.toNat then old else b
  | .swap => b
  | .cas => if old = e then b else old

/-- Nothing of the thread is outstanding: no packet, no combining-buffer entry, no atomic to be acknowledged (R192,
R193, R226). -/
structure Claims.Settled (s : State) (tid : BitVec 16) (t : Thread) : Prop where
  packets : s.packetsOf tid.toNat = []
  combining : ∀ e ∈ (s.core (tid.toNat / 16)).cb, e.tid ≠ tid
  acked : t.ackAt ≤ s.time
  relaxed : ∀ n ∈ t.relAcks, n ≤ s.time

/-- The bytes `a` to `a + n` of the thread's own scratchpad can be accessed: the core is not lost and no granule fails
its check (R12, R188). -/
structure Claims.Sound (s : State) (tid : BitVec 16) (a n : Nat) : Prop where
  core : (s.core (tid.toNat / 16)).lost = false
  checks : s.memErr a n = false

/-- The state in which the single-bit errors of the granules are corrected, and counted at the core of their scratchpad
(R188). -/
def Claims.corrected (s : State) (a n : Nat) : State :=
  let hit := s.eccOne.filter fun g => (granulesFrom a n).elem g
  let u := if hit = [] then s else
    s.modCore ((a - 0x10000000000) / 0x80000) fun k => { k with corrected := k.corrected + hit.length }
  { u with eccOne := s.eccOne.filter fun g => !(granulesFrom a n).elem g }

/-- R205, R206, R194, R20: a load from the core's own window returns its bytes, little-endian and sign- or
zero-extended; `lcon` sets the taint of rd and every other load clears it; no memory changes. -/
def Claims.LocalLoads : Prop :=
  ∀ s tid t, Performs s tid t → Claims.Settled s tid t → ∀ (d a : Reg) i, ∀ x ∈ Claims.loads d a i,
    let ea := t.reg a + i.signExtend 64
    let w := x.2.1
    let g := 0x10000000000 + tid.toNat / 16 * 0x80000 + ea.toNat
    ea.toNat < 0x80000 → ea.toNat % w = 0 → Claims.Sound s tid g w →
      let v : BitVec (8 * w) := BitVec.ofNat (8 * w) (readBytes s.mem g w)
      ∃ u q, exec x.1 s = .next u ∧ u.thread? tid.toNat = some q ∧ ThreadOnly (Claims.corrected s g w) u tid.toNat t ∧
        RetiredTo s t q (t.pc + 4#64) ∧ q.pw = t.pw ∧
        WroteReg t q d (if x.2.2.1 then v.signExtend 64 else v.setWidth 64) x.2.2.2

/-- R205, R20: a store to the core's own window writes the low bytes of its source there and changes no other byte, no
full/empty bit and no register. -/
def Claims.LocalStores : Prop :=
  ∀ s tid t, Performs s tid t → Claims.Settled s tid t → ∀ (a b : Reg) i, ∀ x ∈ Claims.stores a b i,
    let ea := t.reg a + i.signExtend 64
    let w := x.2
    let g := 0x10000000000 + tid.toNat / 16 * 0x80000 + ea.toNat
    ea.toNat < 0x80000 → ea.toNat % w = 0 → Claims.Sound s tid g w → s.hitsInbox g w = false →
      ∃ u q, exec x.1 s = .next u ∧ u.thread? tid.toNat = some q ∧
        ThreadOnly { Claims.corrected s g w with mem := u.mem } u tid.toNat t ∧
        RetiredTo s t q (t.pc + 4#64) ∧ q.x = t.x ∧ q.taint = t.taint ∧ q.pw = t.pw ∧
        readBytes u.mem g w = (t.reg b).toNat % 256 ^ w ∧
        ∀ c, c < g ∨ g + w ≤ c → loadByte u.mem c = loadByte s.mem c

/-- Loads and stores on the own window, with their frames: `Claims.LocalLoads`, `Claims.LocalStores`. -/
def Obligations.LocalLoadsAndStores : Prop :=
  Claims.LocalLoads ∧ Claims.LocalStores

/-- R213, R191: an atomic on the core's own window returns the old value sign-extended and writes its operation's result
at the same address; no other byte, no full/empty bit and no other register changes. -/
def Obligations.LocalAtomics : Prop :=
  ∀ s tid t, Performs s tid t → Claims.Settled s tid t → ∀ (d a b : Reg), ∀ x ∈ Claims.atomics d a b,
    let ea := t.reg a
    let w := x.2.2
    let g := 0x10000000000 + tid.toNat / 16 * 0x80000 + ea.toNat
    ea.toNat < 0x80000 → ea.toNat % w = 0 → Claims.Sound s tid g w → s.hitsInbox g w = false →
      let old : BitVec (8 * w) := BitVec.ofNat (8 * w) (readBytes s.mem g w)
      ∃ u q, exec x.1 s = .next u ∧ u.thread? tid.toNat = some q ∧
        ThreadOnly { Claims.corrected s g w with mem := u.mem } u tid.toNat t ∧
        RetiredTo s { t with ackAt := s.time + 10 } q (t.pc + 4#64) ∧ q.pw = t.pw ∧
        WroteReg t q d (old.signExtend 64) false ∧
        readBytes u.mem g w =
          (Claims.amoResult w old ((t.reg b).setWidth (8 * w)) ((t.reg d).setWidth (8 * w)) x.2.1).toNat ∧
        ∀ c, c < g ∨ g + w ≤ c → loadByte u.mem c = loadByte s.mem c

/-- R137, R21, R188, R250: an access that is not aligned to its width raises MISALIGN before anything else; one to an
address above the map raises ACCESSFAULT; one that meets an uncorrectable granule of the own window raises MEMERR; a store
to the ring of an enabled inbox raises ACCESSFAULT. EVAL holds the address and no data moves. -/
def Claims.AccessTraps : Prop :=
  ∀ s tid t, Performs s tid t → ∀ (d a b : Reg) i,
    let accesses : List (Instr × Nat × Word × Bool) :=
      (Claims.loads d a i).map (fun x => (x.1, x.2.1, t.reg a + i.signExtend 64, false)) ++
      (Claims.stores a b i).map (fun x => (x.1, x.2, t.reg a + i.signExtend 64, true)) ++
      (Claims.atomics d a b).map (fun x => (x.1, x.2.2, t.reg a, true))
    ∀ x ∈ accesses,
      let w := x.2.1
      let ea := x.2.2.1
      let g := 0x10000000000 + tid.toNat / 16 * 0x80000 + ea.toNat
      (ea.toNat % w ≠ 0 → Traps x.1 s tid t 0x03#8 ea) ∧
      (ea.toNat % w = 0 → 0x200000000000 ≤ ea.toNat ∧ ea.toNat < 2 ^ 62 ∨ 2 ^ 63 ≤ ea.toNat →
        Traps x.1 s tid t 0x02#8 ea) ∧
      (ea.toNat % w = 0 → ea.toNat < 0x80000 →
        (x.2.2.2 = true → s.hitsInbox g w = true → Traps x.1 s tid t 0x02#8 ea) ∧
        (x.2.2.2 && s.hitsInbox g w = false → (s.core (tid.toNat / 16)).lost = false → Claims.Settled s tid t →
          s.memErr g w = true → Traps x.1 s tid t 0x06#8 ea))

/-- R192, R217: an access to another core's scratchpad leaves as a packet. A load keeps its thread waiting for the packet
at the same PC; a store or an atomic lets it go on. Memory does not change until the packet has arrived. -/
def Claims.SharedAccesses : Prop :=
  ∀ s tid t, Performs s tid t → Claims.Settled s tid t → ∀ (d a b : Reg) i,
    let spad := fun (ea : Word) (w : Nat) => ea.toNat % w = 0 ∧ 0x10000000000 ≤ ea.toNat ∧ ea.toNat < 0x10080000000 ∧
      (s.core ((ea.toNat - 0x10000000000) / 0x80000)).lost = false
    (∀ x ∈ Claims.loads d a i, let ea := t.reg a + i.signExtend 64
      spad ea x.2.1 → ∃ u p q, exec x.1 s = .next u ∧ u.mem = s.mem ∧ u.full = s.full ∧
        u.packets = s.packets ++ [p] ∧ p.tid = tid ∧ p.addr = ea.toNat ∧ p.cls = .ordinary ∧
        p.acc = .load d x.2.1 x.2.2.1 x.2.2.2 ∧ u.thread? tid.toNat = some q ∧ q.pc = t.pc ∧ q.x = t.x ∧
        q.wait.map (·.what) = some (.access p.id)) ∧
    (∀ x ∈ Claims.stores a b i, let ea := t.reg a + i.signExtend 64
      spad ea x.2 → s.hitsInbox ea.toNat x.2 = false →
        ∃ u p q, exec x.1 s = .next u ∧ u.mem = s.mem ∧ u.full = s.full ∧
          u.packets = s.packets ++ [p] ∧ p.tid = tid ∧ p.addr = ea.toNat ∧ p.cls = .ordinary ∧
          p.acc = .store x.2 (t.reg b) ∧ u.thread? tid.toNat = some q ∧ q.pc = t.pc + 4#64 ∧ q.x = t.x) ∧
    ∀ x ∈ Claims.atomics d a b, let ea := t.reg a
      spad ea x.2.2 → s.hitsInbox ea.toNat x.2.2 = false →
        ∃ u p q, exec x.1 s = .next u ∧ u.mem = s.mem ∧ u.full = s.full ∧
          u.packets = s.packets ++ [p] ∧ p.tid = tid ∧ p.addr = ea.toNat ∧ p.cls = .ordinary ∧
          p.acc = .amo x.2.1 d x.2.2 (t.reg b) (t.reg d) ∧ u.thread? tid.toNat = some q ∧ q.pc = t.pc + 4#64 ∧ q.x = t.x

/-- Where scalar accesses trap, and how they leave for another core: `Claims.AccessTraps`, `Claims.SharedAccesses`. -/
def Obligations.AccessTrapsAndSharedAccesses : Prop :=
  Claims.AccessTraps ∧ Claims.SharedAccesses

/-- R138, R208: with nothing of the thread outstanding, a fence of any scope and any FENCE word retire without another
effect; with a relaxed load outstanding, a fence of any scope keeps the thread at the same PC. -/
def Claims.Fences : Prop :=
  ∀ s tid t, Performs s tid t →
    (Claims.Settled s tid t →
      (∀ n, GoesTo (.fenceS n) s tid t (t.pc + 4#64)) ∧
      ∀ tso p q, GoesTo (.fence tso p q) s tid t (t.pc + 4#64)) ∧
    ∀ p ∈ s.packetsOf tid.toNat, p.cls = .relaxed → p.acc.isLoad = true →
      ∀ n, ∃ u q, exec (.fenceS n) s = .next u ∧ u.thread? tid.toNat = some q ∧ q.pc = t.pc ∧ q.instret = t.instret ∧
        q.wait.map (·.what) = some (.again (.fence n))

/-- Nothing but this thread waits or has an access under way, and no signal granule is to be consumed: the cases in
which a change of a full/empty bit serves no one else (R198, R310). -/
structure Claims.Alone (s : State) (tid : BitVec 16) : Prop where
  threads : ∀ k p, s.thread? k = some p → p.wait = none ∧ p.run = .live
  packets : s.packets = []
  signals : ∀ c, (s.core c).signals = []
  combining : ∀ e ∈ (s.core (tid.toNat / 16)).cb, e.tid ≠ tid

/-- R197, R198, R209, R203: a scalar synchronising access to the own window that finds its granule as it needs it: `lsw.k`
reads and leaves the granule full, `lsw.c` reads and empties it, `ssw.e` writes and fills it, fulfilling the thread's own
promise, and `ssw.f` writes and leaves it full. -/
def Claims.SynchronisingServed : Prop :=
  ∀ s tid t, Performs s tid t → Claims.Alone s tid → t.ackAt ≤ s.time → ∀ (d a b c : Reg),
    let ea := t.reg a
    let g := 0x10000000000 + tid.toNat / 16 * 0x80000 + ea.toNat
    let n := g / 16
    ea.toNat < 0x80000 → ea.toNat % 8 = 0 → Claims.Sound s tid (n * 16) 16 → s.hitsInbox g 8 = false →
      (n ∈ s.full →
        (∃ u q, exec (.lswK d a b) s = .next u ∧ u.thread? tid.toNat = some q ∧ u.mem = s.mem ∧ u.full = s.full ∧
          q.pc = t.pc + 4#64 ∧ q.promises = t.promises ∧
          WroteReg t q d (BitVec.ofNat 64 (readBytes s.mem g 8)) false) ∧
        (∃ u q, exec (.lswC d a b) s = .next u ∧ u.thread? tid.toNat = some q ∧ u.mem = s.mem ∧
          u.full = setErase n s.full ∧ q.pc = t.pc + 4#64 ∧ q.promises = t.promises ∧
          WroteReg t q d (BitVec.ofNat 64 (readBytes s.mem g 8)) false) ∧
        ∃ u q, exec (.sswF a b c) s = .next u ∧ u.thread? tid.toNat = some q ∧ u.full = s.full ∧
          u.mem = writeBytes s.mem g 8 (t.reg b).toNat ∧ q.pc = t.pc + 4#64 ∧ q.x = t.x ∧ q.promises = t.promises) ∧
      (n ∉ s.full →
        ∃ u q, exec (.sswE a b c) s = .next u ∧ u.thread? tid.toNat = some q ∧ u.full = setInsert n s.full ∧
          u.mem = writeBytes s.mem g 8 (t.reg b).toNat ∧ q.pc = t.pc + 4#64 ∧ q.x = t.x ∧
          ∀ o, some o ∈ q.promises.toList ↔ some o ∈ t.promises.toList ∧ o ≠ .granule n)

/-- R199, R200: the same access that finds its granule otherwise leaves the thread waiting at the same PC, with the limit
of its limit register, or of SYNCLIM when that is x0; no memory and no bit changes. -/
def Claims.SynchronisingWaits : Prop :=
  ∀ s tid t, Performs s tid t → Claims.Alone s tid → t.ackAt ≤ s.time → t.latchCnt = none →
    (∀ n, (s.cluster n).withheld = []) → ∀ (d a b c : Reg),
    let ea := t.reg a
    let g := 0x10000000000 + tid.toNat / 16 * 0x80000 + ea.toNat
    let limit := fun r => if r = 0#5 then (t.synclim.setWidth 32).toNat else ((t.reg r).setWidth 32).toNat
    let waits := fun (j : Instr) (l : Nat) => ∃ u q w, exec j s = .next u ∧ u.thread? tid.toNat = some q ∧
      u.mem = s.mem ∧ u.full = s.full ∧ q.pc = t.pc ∧ q.x = t.x ∧ q.instret = t.instret ∧ q.run = .live ∧
      q.wait = some w ∧ w.limit = some l ∧ w.count = 0 ∧ w.eval = ea
    ea.toNat < 0x80000 → ea.toNat % 8 = 0 → Claims.Sound s tid (g / 16 * 16) 16 → s.hitsInbox g 8 = false →
      s.q0Gated (tid.toNat / 16) = none → (s.core (tid.toNat / 16)).copies = [] →
      (g / 16 ∉ s.full → waits (.lswK d a b) (limit b) ∧ waits (.lswC d a b) (limit b) ∧ waits (.sswF a b c) (limit c)) ∧
      (g / 16 ∈ s.full → waits (.sswE a b c) (limit c))

/-- Scalar synchronising accesses: served as the bit allows, waiting otherwise: `Claims.SynchronisingServed`,
`Claims.SynchronisingWaits`. -/
def Obligations.SynchronisingAccesses : Prop :=
  Claims.SynchronisingServed ∧ Claims.SynchronisingWaits

/-- R210, R203: `fe.set` fills and `fe.clr` empties the granule of its address in the own window, whatever it was, and
`fe.tst` reads its bit; memory is untouched. -/
def Obligations.FullEmptyOperations : Prop :=
  ∀ s tid t, Performs s tid t → Claims.Alone s tid → t.ackAt ≤ s.time → ∀ (d a : Reg),
    let ea := t.reg a
    let n := (0x10000000000 + tid.toNat / 16 * 0x80000 + ea.toNat) / 16
    ea.toNat < 0x80000 → Claims.Sound s tid (0x10000000000 + tid.toNat / 16 * 0x80000 + ea.toNat) 1 →
      (∃ u q, exec (.feSet a) s = .next u ∧ u.thread? tid.toNat = some q ∧ u.mem = s.mem ∧
        u.full = setInsert n s.full ∧ q.pc = t.pc + 4#64 ∧ q.x = t.x ∧
        ∀ o, some o ∈ q.promises.toList ↔ some o ∈ t.promises.toList ∧ o ≠ .granule n) ∧
      (∃ u q, exec (.feClr a) s = .next u ∧ u.thread? tid.toNat = some q ∧ u.mem = s.mem ∧
        u.full = setErase n s.full ∧ q.pc = t.pc + 4#64 ∧ q.x = t.x ∧ q.promises = t.promises) ∧
      ∃ u q, exec (.feTst d a) s = .next u ∧ u.thread? tid.toNat = some q ∧ u.mem = s.mem ∧ u.full = s.full ∧
        q.pc = t.pc + 4#64 ∧ WroteReg t q d (if n ∈ s.full then 1#64 else 0#64) false

/-- The object that a descriptor `x` and an operand `a` name: a granule of the own window, a message tag, a barrier or a
timeline (R203, R211). -/
def Claims.names (tid : BitVec 16) (x a : Word) (o : Obj) : Prop :=
  x = 0#64 ∧ a.toNat % 16 = 0 ∧ a.toNat < 0x80000 ∧
      o = .granule ((0x10000000000 + tid.toNat / 16 * 0x80000 + a.toNat) / 16) ∨
    (∃ tag : BitVec 4, tag ≠ 15#4 ∧ x = BitVec.ofNat 64 (1 + 16 * tag.toNat) ∧ a.toNat < 2 ^ 22 ∧
      o = .tag (a.setWidth 22) tag) ∨
    x = 2#64 ∧ a.toNat < 1024 ∧ o = .barrier (a.setWidth 10) ∨
    x = 3#64 ∧ a.toNat < 1024 ∧ o = .timeline (a.setWidth 10)

/-- R203, R211, R212: `promise` returns the index of the entry that holds its object, else of the lowest free entry,
which then holds it, else all ones; a descriptor of another kind raises PROMISEFMT. `unpromise` clears one entry, every
entry for all ones, and nothing otherwise. -/
def Obligations.Promises : Prop :=
  ∀ s tid t, Performs s tid t → ∀ (d a b : Reg),
    (∀ o, Claims.names tid (t.reg b) (t.reg a) o →
      (∀ i : Fin 8, t.promises[i] = some o → (∀ j : Fin 8, j < i → t.promises[j] ≠ some o) →
        Yields (.promise d a b) s tid t d (BitVec.ofNat 64 i) false) ∧
      ((∀ j : Fin 8, t.promises[j] ≠ some o) →
        (∀ i : Fin 8, t.promises[i] = none → (∀ j : Fin 8, j < i → t.promises[j] ≠ none) →
          ∃ u q, exec (.promise d a b) s = .next u ∧ u.thread? tid.toNat = some q ∧ ThreadOnly s u tid.toNat t ∧
            q.promises = t.promises.set i (some o) ∧ WroteReg t q d (BitVec.ofNat 64 i) false ∧ q.pc = t.pc + 4#64) ∧
        ((∀ i : Fin 8, t.promises[i] ≠ none) → Yields (.promise d a b) s tid t d (BitVec.allOnes 64) false))) ∧
    (4 ≤ (t.reg b).toNat % 16 → Traps (.promise d a b) s tid t 0x0D#8 (t.reg b)) ∧
    ∃ u q, exec (.unpromise a) s = .next u ∧ u.thread? tid.toNat = some q ∧ ThreadOnly s u tid.toNat t ∧
      q.pc = t.pc + 4#64 ∧ q.x = t.x ∧ q.promises =
        if t.reg a = BitVec.allOnes 64 then Vector.replicate 8 none
        else if (t.reg a).toNat < 8 then t.promises.setIfInBounds (t.reg a).toNat none else t.promises

/-! ### Remote access and the fabric (09_remote, 07_memory) -/

/-- R229, R242, R243, R244, R245: with nothing of the thread outstanding, a posted store to the own window writes it and
goes on; one to another core's scratchpad takes a credit of its core and leaves as a posted packet; `cbf` and `drain` of a
valid rank, or of every rank, have nothing to wait for, a dark rank included (DEDUCED 75); `rank` writes the status word of the
thread's group; `drain` of a number above 63, and of an invalid rank, raises ACCESSFAULT. -/
def Claims.PostedStoresAndDrains : Prop :=
  ∀ s tid t, Performs s tid t → Claims.Settled s tid t → ∀ (d a b : Reg),
    let ea := t.reg a
    let c := tid.toNat / 16
    let g := 0x10000000000 + c * 0x80000 + ea.toNat
    (∀ x ∈ [(Instr.sdpW a b, 4), (Instr.sdpD a b, 8)],
      (ea.toNat < 0x80000 → ea.toNat % x.2 = 0 → Claims.Sound s tid g x.2 → s.hitsInbox g x.2 = false →
        ∃ u q, exec x.1 s = .next u ∧ u.thread? tid.toNat = some q ∧
          ThreadOnly { Claims.corrected s g x.2 with mem := u.mem } u tid.toNat t ∧
          RetiredTo s t q (t.pc + 4#64) ∧ q.x = t.x ∧ q.taint = t.taint ∧
          u.mem = writeBytes s.mem g x.2 (t.reg b).toNat) ∧
      (0x10000000000 ≤ ea.toNat → ea.toNat < 0x10080000000 → ea.toNat % x.2 = 0 → s.hitsInbox ea.toNat x.2 = false →
        (s.core ((ea.toNat - 0x10000000000) / 0x80000)).lost = false → (s.core c).posted < 64 →
        ∃ u q p, exec x.1 s = .next u ∧ u.thread? tid.toNat = some q ∧ q.pc = t.pc + 4#64 ∧ q.x = t.x ∧
          u.mem = s.mem ∧ u.packets = s.packets ++ [p] ∧ p.tid = tid ∧ p.addr = ea.toNat ∧ p.cls = .posted ∧
          p.acc = .store x.2 (t.reg b) ∧ p.ordered = true ∧ (u.core c).posted = (s.core c).posted + 1) ∧
      (ea.toNat % x.2 ≠ 0 → Traps x.1 s tid t 0x03#8 ea)) ∧
    GoesTo .cbf s tid t (t.pc + 4#64) ∧
    (s.markers = [] → s.packets = [] →
      (ea = BitVec.allOnes 64 ∨ ea.toNat < 64 ∧ (s.rankEntry { job := t.job, rank := ea.setWidth 6 }).getLsbD 63 = true →
        GoesTo (.drain a) s tid t (t.pc + 4#64)) ∧
      (ea ≠ BitVec.allOnes 64 → (64 ≤ ea.toNat ∨ (s.rankEntry { job := t.job, rank := ea.setWidth 6 }).getLsbD 63 = false) →
        Traps (.drain a) s tid t 0x02#8 ea)) ∧
    ∀ x, s.group? t.group = some x →
      Yields (.rank d) s tid t d (BitVec.ofNat 64 (x.unrcnt.toNat * 2 ^ 24 + x.ulast.toNat * 2 ^ 16 +
        (s.rankTable t.job).entries.toList.countP (fun e => e.getLsbD 63) * 2 ^ 8 + (s.ownRank t.job).toNat)) false

/-- Fences, posted stores, cbf, drain and rank: `Claims.Fences`, `Claims.PostedStoresAndDrains`. That a `drain` with nothing
outstanding has nothing to wait for is DEDUCED 75. -/
def Obligations.FencesAndDrains : Prop :=
  Claims.Fences ∧ Claims.PostedStoresAndDrains

/-- R232, R240, R241: in a thread that is no rover `ldm` and `migr` are ILLEGAL; a rover that names its own core's window
stays, `ldm` loading there and `migr` doing nothing; one that names another core offers itself there and waits, and
nothing else of it changes. Its packet is on its way, or waits for the tokens of its class (R223). -/
def Claims.MigratingInstructions : Prop :=
  ∀ s tid t, Performs s tid t → Claims.Settled s tid t → (∀ n, (s.cluster n).forward = []) → ∀ (d a : Reg),
    let ea := t.reg a
    let c := tid.toNat / 16
    let g := 0x10000000000 + c * 0x80000 + ea.toNat
    let forms : List (Instr × Nat × Nat) := [(.ldmW d a, 4, 1), (.ldmD d a, 8, 1), (.migr a, 1, 0)]
    ∀ x ∈ forms,
      (t.rover = false → Traps x.1 s tid t 0x01#8 (((encode x.1).headD 0#32).setWidth 64)) ∧
      (t.rover = true → ea.toNat % x.2.1 = 0 → ea.toNat < 0x80000 → Claims.Sound s tid g x.2.1 →
        if x.2.2 = 0 then GoesTo x.1 s tid t (t.pc + 4#64)
        else ∃ u q, exec x.1 s = .next u ∧ u.thread? tid.toNat = some q ∧
          ThreadOnly (Claims.corrected s g x.2.1) u tid.toNat t ∧ RetiredTo s t q (t.pc + 4#64) ∧
          WroteReg t q d ((BitVec.ofNat (8 * x.2.1) (readBytes s.mem g x.2.1)).signExtend 64) false) ∧
      (t.rover = true → ea.toNat % x.2.1 = 0 → ∀ n, n < 4096 → n ≠ c → (s.core n).lost = false →
        0x10000000000 + n * 0x80000 ≤ ea.toNat → ea.toNat < 0x10000000000 + (n + 1) * 0x80000 →
        s.packets = [] → s.ownDone tid.toNat = true →
          ∃ u q r, exec x.1 s = .next u ∧ u.thread? tid.toNat = some q ∧ q.pc = t.pc ∧ q.x = t.x ∧ q.instret = t.instret ∧
            u.rovers = s.rovers ++ [r] ∧ r.target.toNat = n ∧ r.thread = t ∧ r.last = tid ∧
            r.load = (if x.2.2 = 0 then none else some (d, (ea.toNat - 0x10000000000) % 0x80000, x.2.1)) ∧
            q.wait.map (·.what) = some (.offer r.id) ∧
            ∃ y ∈ u.timed, y.what = .roverArrival r.id ∨ (y.what = .roverSend r.id ∧ s.time < y.due))

/-- R96, R97, R98, R193, R226: a pair of `rlx` and an eligible load or store retires both words, so PC moves on by 8. A
load from the own window returns its data; a load from another core's scratchpad leaves as a relaxed packet and the
thread goes on; a store there enters the combining buffer. A pair with another second word is ILLEGAL, with both words in
EVAL. -/
def Obligations.RelaxedPairs : Prop :=
  ∀ s tid t, Performs s tid t → Claims.Settled s tid t →
    (∀ (d a : Reg) i, ∀ x ∈ Claims.loads d a i, ∀ w, encode x.1 = [w] →
      let ea := t.reg a + i.signExtend 64
      let n := x.2.1
      let g := 0x10000000000 + tid.toNat / 16 * 0x80000 + ea.toNat
      (ea.toNat < 0x80000 → ea.toNat % n = 0 → Claims.Sound s tid g n →
        let v : BitVec (8 * n) := BitVec.ofNat (8 * n) (readBytes s.mem g n)
        ∃ u q, exec (.rlx w) s = .next u ∧ u.thread? tid.toNat = some q ∧
          ThreadOnly (Claims.corrected s g n) u tid.toNat t ∧ RetiredTo s t q (t.pc + 8#64) ∧
          WroteReg t q d (if x.2.2.1 then v.signExtend 64 else v.setWidth 64) x.2.2.2) ∧
      (0x10000000000 ≤ ea.toNat → ea.toNat < 0x10080000000 → ea.toNat % n = 0 →
        (s.core ((ea.toNat - 0x10000000000) / 0x80000)).lost = false →
        ∃ u q p, exec (.rlx w) s = .next u ∧ u.thread? tid.toNat = some q ∧ q.pc = t.pc + 8#64 ∧ q.x = t.x ∧
          u.mem = s.mem ∧ u.packets = s.packets ++ [p] ∧ p.cls = .relaxed ∧ p.addr = ea.toNat ∧
          p.acc = .load d n x.2.2.1 x.2.2.2 ∧ p.ordered = t.tainted a)) ∧
    (∀ (a b : Reg) i, ∀ x ∈ Claims.stores a b i, ∀ w, encode x.1 = [w] →
      let ea := t.reg a + i.signExtend 64
      0x10000000000 ≤ ea.toNat → ea.toNat < 0x10080000000 → ea.toNat % x.2 = 0 → s.hitsInbox ea.toNat x.2 = false →
        (s.core ((ea.toNat - 0x10000000000) / 0x80000)).lost = false → t.tainted a = false →
        (s.core (tid.toNat / 16)).cb.length < 8 →
        ∃ u q e, exec (.rlx w) s = .next u ∧ u.thread? tid.toNat = some q ∧ q.pc = t.pc + 8#64 ∧ q.x = t.x ∧
          u.mem = s.mem ∧ u.packets = s.packets ∧ (u.core (tid.toNat / 16)).cb = (s.core (tid.toNat / 16)).cb ++ [e] ∧
          e.tid = tid ∧ e.block = ea.toNat / 16 * 16 ∧ e.value ea.toNat x.2 = (t.reg b).toNat % 256 ^ x.2) ∧
    ∀ w : BitVec 32, (∀ i, decodeWord w = .ok i → i.rlxEligible = false) →
      Traps (.rlx w) s tid t 0x01#8 (w ++ 0x7B#32)

/-- A packet of the list, under an id of its own. -/
structure Claims.InFlight (s : State) (p : Packet) : Prop where
  mem : p ∈ s.packets
  alone : ∀ q ∈ s.packets, q.id = p.id → q = p

/-- The thread's mesh is at rest: no core is lost, none is reached through a forwarding entry, nothing is withheld, no
station resynchronises (R12, R259, R264, R375). -/
structure Claims.Calm (s : State) : Prop where
  forward : ∀ n, (s.cluster n).forward = []
  withheld : ∀ n, (s.cluster n).withheld = []
  lost : ∀ c, (s.core c).lost = false
  resync : s.resync = []

/-- No message, cancel, marker or rover waits at a router port of the module (R223). -/
def Claims.NoneAtPort (s : State) : Prop :=
  ∀ x ∈ s.timed, match x.what with
    | .messageSend _ _ | .cancelSend _ _ _ | .markerSend _ _ _ _ | .roverSend _ => False
    | _ => True

/-- The packet is not held, parked or answered, no other packet of its core is in flight, nothing else waits at a port, and the
registers of the core regulate no class: it can leave its port (R223). -/
structure Claims.Leaves (s : State) (p : Packet) : Prop where
  port : Claims.NoneAtPort s
  here : p.held = false ∧ p.parked = false ∧ p.reply = none ∧ p.fail = none
  first : ∀ x ∈ s.packets, x ≠ p → x.core ≠ p.core
  free : ∀ n : Fin 4, ((s.core p.core.toNat).fabqos[n]).extractLsb' 4 16 = 0#16

/-- R192, R217, R223, R229: the life of a packet to a scratchpad of this module. Injection of an unregulated class sets it
on its way; on arrival a load reads its bytes, and a store writes them, at the address of the packet, and the reply is
scheduled; the return of a load's data ends the packet and retires the load in the thread that waits for it; the
acknowledgement of a store ends the packet; that of a posted store returns the credit of its core. -/
def Claims.PacketDelivery : Prop :=
  ∀ s p, s.Inv → Claims.InFlight s p → 0x10000000000 ≤ p.addr → p.addr + 64 ≤ 0x10080000000 →
    (∀ n, (s.cluster n).forward = []) → (∀ n, (s.core n).lost = false) → s.cxlBad = [] → p.held = false →
    (p.sent = false → Claims.Leaves s p → (∀ x ∈ p.acc.pieces p.addr, x.1 < 0x100000000000) →
      ∃ u y, exec (.packetInject p.id) s = .next u ∧ u.mem = s.mem ∧ u.full = s.full ∧ u.threads = s.threads ∧
        y ∈ u.timed ∧ s.time ≤ y.due ∧ y.what = match p.acc with
          | .sync _ => .parkArrival p.id
          | _ => .remoteAccessArrival p.id) ∧
    (∀ d w sg lc, p.acc = .load d w sg lc → w ≤ 8 → p.data = 0#512 → s.memErr p.addr w = false → s.eccOne = [] →
      ∃ u q, exec (.remoteAccessArrival p.id) s = .next u ∧ u.mem = s.mem ∧ u.full = s.full ∧ u.threads = s.threads ∧
        q ∈ u.packets ∧ q.id = p.id ∧ q.reply = some (BitVec.ofNat 512 (readBytes s.mem p.addr w)) ∧ q.fail = none) ∧
    (∀ w v, p.acc = .store w v → s.memErr p.addr w = false → s.hitsInbox p.addr w = false → s.eccOne = [] →
      ∃ u, exec (.remoteAccessArrival p.id) s = .next u ∧ u.mem = writeBytes s.mem p.addr w v.toNat ∧
        u.full = s.full ∧ u.threads = s.threads) ∧
    (∀ d w sg lc t v k, p.acc = .load d w sg lc → p.reply = some v → p.fail = none →
      s.thread? p.tid.toNat = some t → t.group = p.group → t.wait = some k → k.what = .access p.id →
      ∃ u q, exec (.loadDataReturn p.id) s = .next u ∧ u.mem = s.mem ∧ (∀ x ∈ u.packets, x.id ≠ p.id) ∧
        u.thread? p.tid.toNat = some q ∧ q.pc = t.pc + 4#64 ∧ q.wait = none ∧
        WroteReg t q d (extendBytes w sg (v.toNat % 2 ^ (8 * w))) lc) ∧
    (∀ w v t, p.acc = .store w v → p.fail = none → s.thread? p.tid.toNat = some t → t.group = p.group → t.wait = none →
      p.cls = .ordinary →
      ∃ u, exec (.storeAcknowledge p.id) s = .next u ∧ u.mem = s.mem ∧ (∀ x ∈ u.packets, x.id ≠ p.id) ∧
        u.thread? p.tid.toNat = some t) ∧
    (∀ w v, p.acc = .store w v → p.fail = none → s.thread? p.tid.toNat = none → s.group? p.group = none →
      p.cls = .posted → ∃ u, exec (.postedAck p.id) s = .next u ∧ u.mem = s.mem ∧ (∀ x ∈ u.packets, x.id ≠ p.id) ∧
        (u.core p.core.toNat).posted = (s.core p.core.toNat).posted - 1)

/-- R220, R224, R225, R226, R227, R237, R12: the links and ranks. A retry, and the escape of a packet that waits at its port, are
counted and lose nothing; which port counts an escape is the model's choice (DESIGN CHOICE 89); a
degraded port keeps the fewer lanes; a refill gives each bucket RATE tokens up to BURST; the flush of a
combining entry sends its bytes on the ordered path; a rank goes dark, is relocked or is lost by the STATE of its entry, and the table takes what the
house cores write with its reserved bits zero; the last marker toward a rank is acknowledged; a lost core first uses the
cluster's spare and then names no core (DEDUCED 60). -/
def Obligations.FabricEvents : Prop :=
  (∀ s (port : BitVec 4) p, s.ports[port.toNat]? = some p →
    (∃ u, exec (.linkRetry port) s = .next u ∧ u.packets = s.packets ∧ u.mem = s.mem ∧
      u.ports[port.toNat]? = some { p with retries := p.retries + 1 }) ∧
    ∀ lanes, ∃ u, exec (.laneDegrade port lanes) s = .next u ∧ u.packets = s.packets ∧
      u.ports[port.toNat]? = some { p with lanes := if lanes.toNat < p.lanes.toNat then lanes else p.lanes }) ∧
  (∀ s, ∃ u, exec .tokenRefill s = .next u ∧ u = { s with cores := u.cores } ∧ ∀ c k, assocGet c s.cores = some k →
    ∀ n : Fin 4, ((u.core c).fabBucket[n]) =
      min (max 1 ((k.fabqos[n]).toNat / 2 ^ 24 % 2 ^ 16)) (k.fabBucket[n] + (k.fabqos[n]).toNat / 2 ^ 4 % 2 ^ 16)) ∧
  (∀ s p, Claims.InFlight s p → p.ordered = false → p.escape = false → p.held = false → p.reply = none → p.fail = none →
    p.sent = false → p.parked = false → 2 ^ 62 ≤ p.addr → ∃ u q, exec (.escapeTimer p.id) s = .next u ∧ q ∈ u.packets ∧
      q = { p with escape := true } ∧ u.mem = s.mem ∧
      ∃ (n : Fin 12), u.ports = s.ports.set n { s.ports[n] with escapes := s.ports[n].escapes + 1 }) ∧
  (∀ s (c : CoreId) e, e ∈ (s.core c.toNat).cb → (∀ x ∈ (s.core c.toNat).cb, x.id = e.id → x = e) →
    (∀ p ∈ s.packets, p.id ≠ e.id) → ∃ u p, exec (.cbTimeoutFlush c e.id) s = .next u ∧
      u.packets = s.packets ++ [p] ∧ p.id = e.id ∧ p.acc = .flush e.bytes ∧ p.cls = .combining ∧ p.ordered = true ∧
      u.mem = s.mem) ∧
  (∀ s (k : Peer) (v : Word), s.packets = [] → s.markers = [] → s.cores = [] →
    (v.extractLsb' 61 2 ≠ 3#2 → ∃ u, exec (.rankTableWrite k v) s = .next u ∧
      u.rankEntry k = v &&& 0xE000FFF0FFFFFFFF#64 ∧ (∀ j, j ≠ k → u.rankEntry j = s.rankEntry j) ∧
      (∀ j, u.ownRank j = s.ownRank j) ∧ u.mem = s.mem) ∧
    (k.rank ≠ s.ownRank k.job → ∃ u, exec (.rankDark k) s = .next u ∧ (u.rankEntry k).extractLsb' 61 2 = 1#2) ∧
    (k.rank ≠ s.ownRank k.job → ∃ u, exec (.rankLoss k) s = .next u ∧ (u.rankEntry k).extractLsb' 61 2 = 2#2) ∧
    ∀ ports x y, ∃ u, exec (.relock k ports x y) s = .next u ∧ let e := u.rankEntry k
      e.extractLsb' 61 2 = 0#2 ∧ e.extractLsb' 36 12 = ports ∧ e.extractLsb' 8 8 = y ∧ e.extractLsb' 0 8 = x) ∧
  (∀ s (c : CoreId) (k : Peer) n, s.markers = [(c, k, n)] → s.packets = [] → s.paths = [] → Claims.NoneAtPort s →
    (s.rankEntry k).extractLsb' 61 2 ≠ 1#2 →
    ∃ u, exec (.drainMarkerAck c k) s = .next u ∧ u = { s with markers := [] }) ∧
  ∀ s (c : CoreId),
    let n := c.toNat / 8
    ((s.cluster n).spareUsed = false → ∃ u, exec (.lostCore c) s = .next u ∧ (u.cluster n).spareUsed = true ∧
      u.cores = s.cores ∧ u.mem = s.mem) ∧
    ((s.cluster n).spareUsed = true → s.packets = [] → ∃ u, exec (.lostCore c) s = .next u ∧ CoreOnly s u c.toNat ∧
      u.core c.toNat = { s.core c.toNat with lost := true })

/-- R233, R234, R235: rovers. One that arrives at a core with room enters its arrival queue and its source slot falls
vacant; one that finds neither room in the queue nor in the spill ring stays where it was and offers itself again after 64
cycles, on its first arrival and, when it need not wait at its port, on every other; the head of the queue takes the lowest free
worker slot. -/
def Claims.RoverArrivals : Prop :=
  ∀ s r (tid : BitVec 16) t k, s.rovers = [r] → s.threads = [(tid.toNat, t)] → t.wait = some k → k.what = .offer r.id →
    t.run = .live → t.gang = none → (∀ n, (s.cluster n).forward = []) → s.packets = [] → Claims.NoneAtPort s →
    (∀ n : Fin 4, ((s.core (tid.toNat / 16)).fabqos[n]).extractLsb' 4 16 = 0#16) →
    let c := r.target.toNat
    (s.core c).lost = false → tid.toNat / 16 ≠ c →
    ∀ i ∈ [Instr.roverArrival r.id, Instr.roverReoffer r.id],
      ((s.core c).arrQ.length < 16 → (s.core c).spill = [] →
        ∃ u, exec i s = .next u ∧ u.thread? tid.toNat = none ∧ (u.core c).arrQ = (s.core c).arrQ ++ [r.id] ∧
          u.mem = s.mem ∧ ∃ y ∈ u.timed, y.what = .arrivalSlotTake r.target) ∧
      ((s.core c).arrQ.length = 16 → (s.core c).arrspill.extractLsb' 32 9 = 0#9 →
        ∃ u q, exec i s = .next u ∧ u.thread? tid.toNat = some q ∧ q.pc = t.pc ∧ q.x = t.x ∧
          (u.core c).arrQ = (s.core c).arrQ ∧ u.mem = s.mem ∧
          ∃ y ∈ u.timed, y.what = .roverReoffer r.id ∧ y.due = s.time + 64)

/-- R180, R235: the head of an arrival queue takes the lowest free worker slot and goes on where it was packed. -/
def Claims.ArrivalTakesSlot : Prop :=
  ∀ s r (c : CoreId), s.rovers = [r] → s.threads = [] → s.resumes = [] → s.susps = [] →
    let k := s.core c.toNat
    k.arrQ = [r.id] → k.spill = [] → k.owner = none → k.lost = false → k.buffer = [] → k.slotcfg.extractLsb' 16 16 = 0#16 →
    r.fresh = true → r.held = false → r.thread.gang = none → r.thread.dline.getLsbD 63 = false →
      ∃ u q, exec (.arrivalSlotTake c) s = .next u ∧ u.thread? (c.toNat * 16 + 1) = some q ∧
        q = { r.thread with readyAt := q.readyAt } ∧ s.time + 8 ≤ q.readyAt ∧
        (u.core c.toNat).arrQ = [] ∧ u.rovers = [] ∧ u.mem = s.mem

/-- ldm and migr, and the arrival of rovers: `Claims.MigratingInstructions`, `Claims.RoverArrivals`,
`Claims.ArrivalTakesSlot`. -/
def Obligations.RovingAndArrival : Prop :=
  Claims.MigratingInstructions ∧ Claims.RoverArrivals ∧ Claims.ArrivalTakesSlot

/-! ### Waits, time, paging and the debugger (07_memory, 06_threads, 17_traps) -/

/-- A thread that is live, outside a handler, in no gang, with no step or handler halt set: where a trap is taken plainly. -/
structure Claims.Plain (t : Thread) : Prop where
  run : t.run = .live
  handler : t.inHandler = false
  gang : t.gang = none
  stepctl : t.stepctl = 0#64

/-- `q` has taken a trap of `t` with the cause word and EVAL given (R401). -/
def Claims.Trapped (t q : Thread) (cause eval : Word) : Prop :=
  q.epc = t.pc &&& ~~~3#64 ∧ q.eval = eval ∧ q.ecause = cause ∧ q.epw = t.pw ∧ q.inHandler = true ∧ q.pc = t.evec ∧
    q.wait = none ∧ q.x = t.x ∧ q.pw = t.pw ∧ q.run = .live

/-- R4, R173, R200: a tick. Every wait with a limit that no cancel has ended counts one, an expired limit and a passed
deadline fall due, a thread that waits for nothing is as it was, and no memory changes. The cycle of the expiry
is the model's reading (DEDUCED 12). -/
def Claims.TickCountsWaits : Prop :=
  ∀ s, s.Inv → ∃ u, exec .tickAdvance s = .next u ∧ u.mem = s.mem ∧ u.full = s.full ∧ u.time = s.time ∧
    ∀ k t, s.thread? k = some t →
      (t.wait = none → u.thread? k = some t) ∧
      (∀ w l, t.run = .live → t.wait = some w → w.limit = some l → w.cancel = false →
        u.thread? k = some { t with wait := some { w with count := w.count + 1 } } ∧
        (l < w.count + 1 → ∃ y ∈ u.timed, y.what = .waitLimitExpiry (BitVec.ofNat 16 k) ∧ y.due = s.time + 1)) ∧
      (t.dline.getLsbD 63 = true → (t.dline.setWidth 63).toNat ≤ s.time / 1250 →
        ∃ y ∈ u.timed, y.what = .deadlineFire (BitVec.ofNat 16 k) ∧ y.due = s.time)

/-- R173, R184, R200, R201: the end of a wait. A local wait whose count has passed its limit takes SYNCLIMIT, and one
whose count has not goes on; a deadline that has passed is disarmed and becomes pending, and one that has not does
nothing; `sleep` waits until TIME has risen by its operand, and retires then. -/
def Claims.WaitEnds : Prop :=
  (∀ s (tid : BitVec 16) t w l, s.thread? tid.toNat = some t → Claims.Plain t → t.wait = some w → w.limit = some l →
    (∀ p a, w.what ≠ .parked p a) → (∀ r, w.what ≠ .offer r) →
    (l < w.count → ∃ u q, exec (.waitLimitExpiry tid) s = .next u ∧ u.thread? tid.toNat = some q ∧
      Claims.Trapped t q 7#64 w.eval ∧ u.mem = s.mem) ∧
    (w.count ≤ l → exec (.waitLimitExpiry tid) s = .next s)) ∧
  (∀ s (tid : BitVec 16) t, s.thread? tid.toNat = some t → t.wait = none →
    (t.dline.getLsbD 63 = true → (t.dline.setWidth 63).toNat ≤ s.time / 1250 →
      ∃ u, exec (.deadlineFire tid) s = .next u ∧ u.mem = s.mem ∧
        u.thread? tid.toNat = some { t with
          dline := 0#1 ++ t.dline.setWidth 63, dlPending := true, dlTicks := 0#1 ++ t.dline.setWidth 63 }) ∧
    (t.dline.getLsbD 63 = false ∨ s.time / 1250 < (t.dline.setWidth 63).toNat →
      exec (.deadlineFire tid) s = .next s)) ∧
  (∀ s tid t, Performs s tid t → GoesTo (.sleep 0#5) s tid t (t.pc + 4#64) ∧ ∀ a : Reg, a ≠ 0#5 →
    let until_ := min (s.time + (t.reg a).toNat) (2 ^ 64 - 1)
    ∃ u q, exec (.sleep a) s = .next u ∧ u.thread? tid.toNat = some q ∧ q.pc = t.pc ∧ q.x = t.x ∧
      q.wait.map (·.what) = some (.sleep until_) ∧ u.mem = s.mem ∧
      ∃ y ∈ u.timed, y.what = .sleepExpiry tid ∧ y.due = max until_ s.time) ∧
  ∀ s (tid : BitVec 16) t w n, assocSorted s.threads = true → s.thread? tid.toNat = some t → t.wait = some w →
    w.what = .sleep n →
    (n ≤ s.time → ∃ u q, exec (.sleepExpiry tid) s = .next u ∧ u.thread? tid.toNat = some q ∧ q.pc = t.pc + 4#64 ∧
      q.wait = none ∧ q.x = t.x ∧ u.mem = s.mem) ∧
    (s.time < n → exec (.sleepExpiry tid) s = .next s)

/-- Ticks, wait limits, sleeps, and the deadline register: `Claims.DeadlineSetAndClear`, `Claims.TickCountsWaits`,
`Claims.WaitEnds`. The cycle of an expiry is DEDUCED 12. -/
def Obligations.TicksWaitsAndDeadlines : Prop :=
  Claims.DeadlineSetAndClear ∧ Claims.TickCountsWaits ∧ Claims.WaitEnds

/-- R199, R201: a synchronising access that reaches its owner. One whose granule is as it needs is served and its reply
set off; one whose granule is not parks, or is sent again after 64 cycles when the core's 64 park entries are taken. A
cancel removes an access that has not been served and is confirmed, and the confirmed expiry takes SYNCLIMIT; it drops
against one that has been served. -/
def Claims.ParkedAccesses : Prop :=
  (∀ s p q, Claims.InFlight s p → p.acc = .sync q → 0x10000000000 ≤ p.addr → p.addr < 0x10080000000 → q.addr = p.addr →
    Claims.Calm s → s.cxlBad = [] → (∀ x ∈ s.packets, x.parked = false) →
    (∀ x ∈ s.threads, ∀ w ∈ x.2.wait, ∀ a, w.what ≠ .sync a) →
    (∀ d, q.shape = .scalarLoad d → q.op = .keep → p.addr / 16 ∈ s.full → s.memErr (p.addr / 16 * 16) 16 = false →
      ∃ u x, exec (.parkArrival p.id) s = .next u ∧ u.mem = s.mem ∧ u.full = s.full ∧ x ∈ u.packets ∧ x.id = p.id ∧
        x.reply = some (BitVec.ofNat 512 (readBytes s.mem p.addr 8)) ∧ x.parked = false) ∧
    (∀ d, q.shape = .scalarLoad d → q.op = .keep → p.addr / 16 ∉ s.full → s.syncWithheld q = none →
      ∃ u x, exec (.parkArrival p.id) s = .next u ∧ u.mem = s.mem ∧ u.full = s.full ∧ x ∈ u.packets ∧ x.id = p.id ∧
        x.parked = true ∧ u.threads = s.threads)) ∧
  (∀ s p q d, Claims.InFlight s p → p.acc = .sync q → 0x10000000000 ≤ p.addr → p.addr < 0x10080000000 → q.addr = p.addr →
    Claims.Calm s → s.cxlBad = [] → q.shape = .scalarLoad d → q.op = .keep → p.addr / 16 ∉ s.full → s.syncWithheld q = none → 64 ≤ s.parkedAt p.addr →
    ∃ u, exec (.parkArrival p.id) s = .next u ∧ u.packets = s.packets ∧ u.mem = s.mem ∧
      ∃ y ∈ u.timed, y.what = .parkResend p.id ∧ y.due = s.time + 64) ∧
  (∀ s p q, Claims.InFlight s p → p.acc = .sync q → 0x10000000000 ≤ p.addr → p.addr < 0x10080000000 → q.addr = p.addr →
    Claims.Calm s → s.cxlBad = [] → Claims.Leaves s p →
    ∃ u, exec (.parkResend p.id) s = .next u ∧ u.packets.map (·.id) = s.packets.map (·.id) ∧ u.mem = s.mem ∧
      ∃ y ∈ u.timed, y.what = .parkArrival p.id) ∧
  ∀ s (tid : BitVec 16) t w id a, s.thread? tid.toNat = some t → Claims.Plain t → t.wait = some w → w.what = .parked id a →
    (∀ p, Claims.InFlight s p → p.id = id → p.reply = none → p.fail = none →
      ∃ u, exec (.syncCancel tid) s = .next u ∧ (∀ x ∈ u.packets, x.id ≠ id) ∧ u.threads = s.threads ∧ u.mem = s.mem ∧
        ∃ y ∈ u.timed, y.what = .cancelConfirm tid) ∧
    (∀ p, Claims.InFlight s p → p.id = id → p.reply ≠ none → exec (.syncCancel tid) s = .next s) ∧
    (∀ l, (∀ x ∈ s.packets, x.id ≠ id) → w.limit = some l → l < w.count →
      ∃ u q, exec (.cancelConfirm tid) s = .next u ∧ u.thread? tid.toNat = some q ∧ Claims.Trapped t q 7#64 w.eval)

/-- The life of a packet, and of a parked synchronising access: `Claims.PacketDelivery`, `Claims.ParkedAccesses`. -/
def Obligations.PacketLife : Prop :=
  Claims.PacketDelivery ∧ Claims.ParkedAccesses

/-- R189, R171: paging and fetching. A finished walk lets the threads of its core that wait for the address go on when a
page of their job holds it, and latches them when none does; the house cores map a page of a legal size that its die has room for (R434) for a job, or
refuse an address, and the job's latched instructions are executed again, the refused one to trap; a withdrawn page leaves the job's table and
every translation cache; a filled line of a page without a CXL fault lets the fetches of its cluster go on, and the cache keeps at most 512 lines. -/
def Obligations.PagingAndFetch : Prop :=
  (∀ s (c : CoreId) (a : JobAddr) (tid : BitVec 16) t w, s.thread? tid.toNat = some t → tid.toNat / 16 = c.toNat →
    t.job = a.job → t.wait = some w → w.what = .walk a.addr.toNat →
    (∀ p, s.pageOf a.job a.addr.toNat = some p → ∃ u, exec (.translationWalk c a) s = .next u ∧
      u.thread? tid.toNat = some { t with wait := none, latchCnt := none } ∧ (p.job, p.base) ∈ (u.core c.toNat).tlb ∧
      u.mem = s.mem) ∧
    (s.pageOf a.job a.addr.toNat = none → ∃ u, exec (.translationWalk c a) s = .next u ∧
      u.thread? tid.toNat = some { t with wait := some { w with what := .latched a.addr.toNat } } ∧ u.mem = s.mem)) ∧
  (∀ s p, s.cores = [] →
    (p.size ∈ [2 ^ 16, 2 ^ 21, 2 ^ 30] → p.base % p.size = 0 → 0x100000000000 ≤ p.base →
      p.base + p.size ≤ 0x200000000000 → s.fits p = true →
      ∃ u, exec (.pageMap p) s = .next u ∧ p ∈ u.pages ∧ u.mem = s.mem ∧ (∀ a, p.base ≤ a → a < p.base + p.size →
        u.pageOf p.job a = some p) ∧ (∀ j a, j ≠ p.job → u.pageOf j a = s.pageOf j a) ∧
        ∀ k t w a, s.thread? k = some t → t.job = p.job → t.wait = some w → w.what = .latched a → p.base ≤ a → a < p.base + p.size →
          ∃ q, u.thread? k = some q ∧ q.wait = none ∧ q.pc = t.pc) ∧
    (p.size ∉ [2 ^ 16, 2 ^ 21, 2 ^ 30] ∨
      p.tier2 = false ∧ 2 < (s.die p.home.toNat).retired.length → exec (.pageMap p) s = .next s)) ∧
  (∀ s (a : JobAddr), s.cores = [] → ∃ u, exec (.pageRefuse a) s = .next u ∧ u.mem = s.mem ∧ u.pages = s.pages ∧
    ∀ k t w, (k, t) ∈ s.threads → s.thread? k = some t → t.job = a.job → t.wait = some w → w.what = .latched a.addr.toNat →
      (refusalKey k a.addr.toNat) ∈ u.refused ∧ ∃ q, u.thread? k = some q ∧ q.wait = none ∧ q.pc = t.pc) ∧
  (∀ s (b : JobAddr), let other := fun (p : PageRec) => p.job ≠ b.job ∨ p.base ≠ b.addr.toNat
    ∃ u, exec (.mappingWithdraw b) s = .next u ∧ (∀ p ∈ u.pages, other p) ∧ u.mem = s.mem ∧
    (∀ p ∈ s.pages, other p → p ∈ u.pages) ∧ ∀ c, (b.job, b.addr.toNat) ∉ (u.core c).tlb) ∧
  ∀ s (n : BitVec 9) line, s.cxlFault (128 * line) = false →
    ∃ u, exec (.icacheLineFill n line) s = .next u ∧ u.mem = s.mem ∧ u.cores = s.cores ∧
    line ∈ (u.cluster n.toNat).icache ∧ (u.cluster n.toNat).icache.length ≤ 512 ∧
    ∀ (tid : BitVec 16) t w, s.thread? tid.toNat = some t → tid.toNat / 128 = n.toNat → t.wait = some w →
      w.what = .line line → u.thread? tid.toNat = some { t with wait := none, latchCnt := none }

/-- R311, R401, R402: a pending engine event is taken at the thread's turn as an asynchronous trap, with bit 63 of ECAUSE
set, the oldest first; a DEADLINE comes after every other, with cause 0x20 and the TICKS that made it pending in EVAL. -/
def Obligations.AsynchronousTraps : Prop :=
  ∀ s (tid : BitVec 16) t, s.thread? tid.toNat = some t → Claims.Plain t → t.wait = none → s.cores = [] →
    (∀ e rest, t.events = e :: rest → ∃ u q, exec (.asyncTrap tid) s = .next u ∧ u.thread? tid.toNat = some q ∧
      Claims.Trapped t q (1#1 ++ e.code.setWidth 63) e.eval ∧ q.events = rest ∧ u.mem = s.mem) ∧
    (t.events = [] → t.dlPending = true → ∃ u q, exec (.asyncTrap tid) s = .next u ∧ u.thread? tid.toNat = some q ∧
      Claims.Trapped t q (1#1 ++ 0x20#63) t.dlTicks ∧ q.dlPending = false ∧ u.mem = s.mem) ∧
    (t.events = [] → t.dlPending = false → exec (.asyncTrap tid) s = .next s)

/-- A thread after a root halt with a reason: its registers and PC as they were (R28, R410). -/
def Claims.Halted (t q : Thread) (why : Reason) : Prop :=
  q.run = .root ∧ q.reason = why ∧ q.pc = t.pc ∧ q.x = t.x ∧ q.pw = t.pw ∧ q.epc = t.epc ∧ q.ecause = t.ecause ∧
    q.instret = t.instret

/-- R402, R408, R409, R411, R415, R441: the debugger's steps. A breakpoint halts the thread at its address unless the skip
bit is set; a stepped thread halts when what it started has drained; HOLD halts a live thread, and a release lets a
halted one go on with the skip bit set; a write changes a field of a halted thread, and nothing of a live one. -/
def Claims.DebuggerSteps : Prop :=
  ∀ s (tid : BitVec 16) t, s.thread? tid.toNat = some t → t.gang = none → t.wait = none →
    (∀ n, (s.cluster n).forward = []) →
    (t.run = .live →
      (t.stepctl.getLsbD 62 = true → t.skip = false → t.pc = ((t.stepctl.extractLsb' 2 43).setWidth 62 ++ 0#2 : BitVec 64) →
        ∃ u q, exec (.breakpointMatch tid) s = .next u ∧ u.thread? tid.toNat = some q ∧ Claims.Halted t q .brk ∧
          u.mem = s.mem) ∧
      (t.skip = true → exec (.breakpointMatch tid) s = .next s) ∧
      (t.stepped = true → s.stepDrained tid.toNat t = true →
        ∃ u q, exec (.stepReport tid) s = .next u ∧ u.thread? tid.toNat = some q ∧ Claims.Halted t q .step) ∧
      (∃ u q, exec (.holdRequest tid) s = .next u ∧ u.thread? tid.toNat = some q ∧ Claims.Halted t q .hold ∧
        u.mem = s.mem) ∧
      ∀ f v w, exec (.debugStateWrite tid f v w) s = .next s) ∧
    (t.run = .root → t.wasDep = none →
      (∃ u q, exec (.releaseRequest tid) s = .next u ∧ u.thread? tid.toNat = some q ∧
        q = { t with run := .live, reason := .none, skip := true, wasDep := none, noticed := [] } ∧ u.mem = s.mem) ∧
      (∀ v w, ∃ u q, exec (.debugStateWrite tid .pc v w) s = .next u ∧ u.thread? tid.toNat = some q ∧
        q = { t with pc := v, entered := false }) ∧
      (∀ r v w, ∃ u q, exec (.debugStateWrite tid (.x r) v w) s = .next u ∧ u.thread? tid.toNat = some q ∧
        WroteReg t q r v false ∧ q.pc = t.pc ∧ u.mem = s.mem) ∧
      ∀ v w, ∃ u q, exec (.debugStateWrite tid .pw v w) s = .next u ∧ u.thread? tid.toNat = some q ∧
        q = { t with pw := v })

/-- R415, R441: `hold` and `rel`. A house core's request takes effect at the thread it names; that of a monitor leaves as
a packet whose completion the monitor waits for; in any other thread the forms are ILLEGAL. -/
def Claims.HoldAndRelease : Prop :=
  (∀ s n (a : Reg) (tid : BitVec 16) t (x : Vector Word 32), s.cur = .house n → assocGet n.toNat s.houseX = some x →
    a ≠ 0#5 → x[a.toNat] = (s.ownRank t.job ++ tid : BitVec 22).setWidth 64 → s.thread? tid.toNat = some t → t.gang = none →
    t.wait = none → (∀ n, (s.cluster n).forward = []) → (s.core (tid.toNat / 16)).lost = false →
    (s.rankEntry { job := t.job, rank := s.ownRank t.job }).getLsbD 63 = true →
    (t.run = .live → ∃ u q, exec (.hold a) s = .next u ∧ u.thread? tid.toNat = some q ∧ Claims.Halted t q .hold) ∧
    (t.run = .root → t.wasDep = none → ∃ u q, exec (.rel a) s = .next u ∧ u.thread? tid.toNat = some q ∧
      q = { t with run := .live, reason := .none, skip := true, wasDep := none, noticed := [] })) ∧
  ∀ s tid t, Performs s tid t → ∀ a : Reg,
    (s.isMonitor tid.toNat = false →
      Traps (.hold a) s tid t 0x01#8 (((encode (.hold a)).headD 0#32).setWidth 64) ∧
      Traps (.rel a) s tid t 0x01#8 (((encode (.rel a)).headD 0#32).setWidth 64)) ∧
    (s.isMonitor tid.toNat = true → s.badThread t.job (t.reg a) = false → (t.reg a).extractLsb' 16 6 = s.ownRank t.job →
      Claims.Settled s tid t → ∀ i h, (i, h) = (Instr.hold a, true) ∨ (i, h) = (Instr.rel a, false) →
        ∃ u q p, exec i s = .next u ∧ u.thread? tid.toNat = some q ∧ q.pc = t.pc ∧ q.x = t.x ∧ u.mem = s.mem ∧
          u.packets = s.packets ++ [p] ∧ p.acc = .request h ((t.reg a).extractLsb' 0 16) ∧
          q.wait.map (·.what) = some (.access p.id))

/-- The steps of the debugger, and hold and rel: `Claims.DebuggerSteps`, `Claims.HoldAndRelease`. -/
def Obligations.HoldsAndDebugger : Prop :=
  Claims.DebuggerSteps ∧ Claims.HoldAndRelease

/-! ### Vector instructions (12_vector) -/

/-- `i` retires and leaves one result in flight: value `v` and flags `f` for register `d` (0 to 7 v0 to v7, 8 to 11 k0 to
k3), written `lat` cycles from now, under a window of `win` issues. No register, no predicate and no flag has changed yet
(R276, R277). -/
def Claims.Pends (i : Instr) (s : State) (tid : BitVec 16) (t : Thread) (d : BitVec 4) (v : VWord) (f : BitVec 6)
    (lat : Nat) (win : BitVec 2) : Prop :=
  ∃ u q, exec i s = .next u ∧ u.thread? tid.toNat = some q ∧ q.pc = t.pc + 4#64 ∧ q.instret = t.instret + 1#64 ∧
    q.x = t.x ∧ q.pw = t.pw ∧ q.v = t.v ∧ q.k = t.k ∧ q.vflags = t.vflags ∧
    q.vres = [{ dest := d, value := v, flags := f, issue := s.time, due := s.time + lat, window := win.toNat }] ∧
    u = { s with threads := u.threads, clusters := u.clusters, timed := u.timed, fresh := u.fresh } ∧
    ∃ y ∈ u.timed, y.what = .vectorResultWrite tid ∧ y.due = s.time + lat

/-- Lane `n` of width `w`, as a number (R274). -/
def Claims.lane (v : VWord) (w n : Nat) : Nat := v.toNat / 2 ^ (w * n) % 2 ^ w

/-- Lane `n` is active under a mask (R275). -/
def Claims.active (t : Thread) (m : Option KReg) (n : Nat) : Bool := match m with
  | none => true
  | some k => (t.kreg k).getLsbD n

/-- An element-wise result: `g n` gives the value and the flags of active lane `n`, an inactive lane keeps the
destination's value, and the flags of the active lanes are collected (R275). -/
def Claims.Lanewise (i : Instr) (s : State) (tid : BitVec 16) (t : Thread) (d : VReg) (m : Option KReg) (w lat : Nat)
    (win : BitVec 2) (g : Nat → Nat × BitVec 6) : Prop :=
  ∃ v f, Claims.Pends i s tid t (d.setWidth 4) v f lat win ∧
    (∀ n, n < 512 / w → Claims.lane v w n = if Claims.active t m n then (g n).1 % 2 ^ w else Claims.lane (t.vreg d) w n) ∧
    ∀ b : Nat, f.getLsbD b = true ↔ ∃ n, n < 512 / w ∧ Claims.active t m n = true ∧ (g n).2.getLsbD b = true

/-- The integer that a lane holds: unsigned for `uint8`, else signed (R274). -/
def Claims.intOf (f : Fmt) (x : Nat) : Int :=
  if f = .uint8 ∨ 2 * x < 2 ^ fmtWidth f then x else (x : Int) - 2 ^ fmtWidth f

/-- An integer result saturated to the range of the lane, with SAT (bit 5) (R286). -/
def Claims.clamp (f : Fmt) (i : Int) : Nat × BitVec 6 :=
  let lo : Int := if f = .uint8 then 0 else - 2 ^ (fmtWidth f - 1)
  let hi : Int := if f = .uint8 then 255 else 2 ^ (fmtWidth f - 1) - 1
  ((max lo (min hi i) % 2 ^ fmtWidth f).toNat, if i < lo ∨ hi < i then 0x20#6 else 0#6)

/-- An arithmetic result: exact and rounded once to nearest even for a float lane; saturated for an integer lane, but for
`int64`, which wraps (R286, R287). -/
def Claims.result (f : Fmt) (x : FloatFmt → FVal) (i : Int) : Nat × BitVec 6 := match fmtFloat f with
  | some g => g.deliver .rne false (x g)
  | none => if f = .int64 then ((i % 2 ^ 64).toNat, 0#6) else Claims.clamp f i

/-- R276, R277, R286, R287: the arithmetic forms on every format that R280 gives them; on every other format they are
ILLEGAL. Simple forms write their result after 8 cycles, fused forms after 12. -/
def Obligations.VectorArithmetic : Prop :=
  ∀ s tid t, Performs s tid t → t.vres = [] → ∀ f m (d a b : VReg) win,
    let w := fmtWidth f
    let x := Claims.lane (t.vreg a) w
    let y := Claims.lane (t.vreg b) w
    let z := Claims.lane (t.vreg d) w
    let int := Claims.intOf f
    let top := 2 ^ (w - 1)
    (f.arith = true →
      Claims.Lanewise (.vadd f m d a b win) s tid t d m w 8 win (fun n =>
        Claims.result f (fun g => exactSum [g.decode (x n), g.decode (y n)]) (int (x n) + int (y n))) ∧
      Claims.Lanewise (.vsub f m d a b win) s tid t d m w 8 win (fun n =>
        Claims.result f (fun g => exactSum [g.decode (x n), (g.decode (y n)).neg]) (int (x n) - int (y n))) ∧
      Claims.Lanewise (.vmul f m d a b win) s tid t d m w 8 win (fun n =>
        Claims.result f (fun g => (g.decode (x n)).mul (g.decode (y n))) (int (x n) * int (y n))) ∧
      Claims.Lanewise (.vmax f m d a b win) s tid t d m w 8 win (fun n =>
        if (fmtFloat f).isNone then (if int (x n) < int (y n) then y n else x n, 0#6) else laneMaxMin true f (x n) (y n)) ∧
      Claims.Lanewise (.vmin f m d a b win) s tid t d m w 8 win (fun n =>
        if (fmtFloat f).isNone then (if int (y n) < int (x n) then y n else x n, 0#6) else laneMaxMin false f (x n) (y n)) ∧
      Claims.Lanewise (.vabs f m d a win) s tid t d m w 8 win (fun n =>
        if (fmtFloat f).isNone then Claims.clamp f (int (x n)).natAbs else (x n % top, 0#6)) ∧
      Claims.Lanewise (.vneg f m d a win) s tid t d m w 8 win (fun n =>
        if (fmtFloat f).isNone then Claims.result f (fun _ => .nan false) (- int (x n)) else (x n + top, 0#6))) ∧
    (f.float3 = true → ∀ g, fmtFloat f = some g →
      Claims.Lanewise (.vfma f m d a b win) s tid t d m w 12 win (fun n =>
        g.deliver .rne false (exactSum [(g.decode (x n)).mul (g.decode (y n)), g.decode (z n)])) ∧
      Claims.Lanewise (.vfms f m d a b win) s tid t d m w 12 win (fun n =>
        g.deliver .rne false (exactSum [(g.decode (x n)).mul (g.decode (y n)), (g.decode (z n)).neg]))) ∧
    (f.arith = false → ∀ i ∈ [Instr.vadd f m d a b win, .vsub f m d a b win, .vmul f m d a b win, .vmax f m d a b win,
      .vmin f m d a b win, .vabs f m d a win, .vneg f m d a win], Claims.Illegal i s tid t) ∧
    (f.float3 = false → ∀ i ∈ [Instr.vfma f m d a b win, .vfms f m d a b win], Claims.Illegal i s tid t)

/-- R288: the logic forms on 64-bit lanes, and the shifts: an amount of the lane's width or more gives 0, or copies of the
sign bit for `vsra`. -/
def Claims.VectorLogicAndShifts : Prop :=
  ∀ s tid t, Performs s tid t → t.vres = [] → ∀ f m (d a b : VReg) win,
    let w := fmtWidth f
    let x := Claims.lane (t.vreg a)
    let y := Claims.lane (t.vreg b)
    Claims.Lanewise (.vand m d a b win) s tid t d m 64 8 win (fun n => (x 64 n &&& y 64 n, 0#6)) ∧
    Claims.Lanewise (.vor m d a b win) s tid t d m 64 8 win (fun n => (x 64 n ||| y 64 n, 0#6)) ∧
    Claims.Lanewise (.vxor m d a b win) s tid t d m 64 8 win (fun n => (x 64 n ^^^ y 64 n, 0#6)) ∧
    Claims.Lanewise (.vnot m d a win) s tid t d m 64 8 win (fun n => (2 ^ 64 - 1 - x 64 n, 0#6)) ∧
    (f.intShift = true →
      Claims.Lanewise (.vsll f m d a b win) s tid t d m w 8 win (fun n =>
        (if w ≤ y w n then 0 else x w n * 2 ^ y w n, 0#6)) ∧
      Claims.Lanewise (.vsrl f m d a b win) s tid t d m w 8 win (fun n =>
        (if w ≤ y w n then 0 else x w n / 2 ^ y w n, 0#6))) ∧
    (f.intArithShift = true →
      Claims.Lanewise (.vsra f m d a b win) s tid t d m w 8 win (fun n =>
        ((Claims.intOf f (x w n) / 2 ^ min w (y w n) % 2 ^ w).toNat, 0#6))) ∧
    (f.intShift = false → Claims.Illegal (.vsll f m d a b win) s tid t ∧ Claims.Illegal (.vsrl f m d a b win) s tid t) ∧
    (f.intArithShift = false → Claims.Illegal (.vsra f m d a b win) s tid t)

/-- R285, R289, R290, R295: moves between scalar and vector registers, comparisons into a mask, selection, permutation, and
the operations on masks. A comparison's bits beyond the active lanes are 0; on a format that R280 does not give them the
forms with a format are ILLEGAL. -/
def Claims.VectorMovesAndMasks : Prop :=
  ∀ s tid t, Performs s tid t → t.vres = [] → ∀ f m (d a b : VReg) (kd ka kb : KReg) (x : Reg) (lane : BitVec 3) win,
    let w := fmtWidth f
    let av := Claims.lane (t.vreg a)
    let bv := Claims.lane (t.vreg b)
    (∃ v, Claims.Pends (.vmvx d x lane win) s tid t (d.setWidth 4) v 0#6 8 win ∧ ∀ n, n < 8 →
      Claims.lane v 64 n = if n = lane.toNat then (t.reg x).toNat else Claims.lane (t.vreg d) 64 n) ∧
    Yields (.vmxv x a lane win) s tid t x (BitVec.ofNat 64 (av 64 lane.toNat)) false ∧
    (∃ v, Claims.Pends (.vbc f d x win) s tid t (d.setWidth 4) v 0#6 8 win ∧
      ∀ n, n < fmtLanes f → Claims.lane v w n = (t.reg x).toNat % 2 ^ w) ∧
    (f.arith = true →
      (∀ i c, (i, c) ∈ [(Instr.vcmpEq f m kd a b win, Cmp.eq), (.vcmpLt f m kd a b win, .lt), (.vcmpLe f m kd a b win, .le)] →
        ∃ v g, Claims.Pends i s tid t (8#4 + kd.setWidth 4) v g 8 win ∧
          (∀ n : Nat, v.getLsbD n = true ↔
            n < fmtLanes f ∧ Claims.active t m n = true ∧ (laneCmp c f (av w n) (bv w n)).1 = true) ∧
          ((fmtFloat f).isNone = true → g = 0#6 ∧ ∀ n, n < fmtLanes f →
            ((laneCmp c f (av w n) (bv w n)).1 = true ↔ match c with
              | .eq => Claims.intOf f (av w n) = Claims.intOf f (bv w n)
              | .lt => Claims.intOf f (av w n) < Claims.intOf f (bv w n)
              | .le => Claims.intOf f (av w n) ≤ Claims.intOf f (bv w n)))) ∧
      (∃ v, Claims.Pends (.vsel f ka d a b win) s tid t (d.setWidth 4) v 0#6 8 win ∧ ∀ n, n < fmtLanes f →
        Claims.lane v w n = if (t.kreg ka).getLsbD n then av w n else bv w n) ∧
      Claims.Lanewise (.vperm f m d a b win) s tid t d m w 8 win (fun n => (av w (bv w n % fmtLanes f), 0#6))) ∧
    (f.arith = false → ∀ i ∈ [Instr.vcmpEq f m kd a b win, .vcmpLt f m kd a b win, .vcmpLe f m kd a b win,
      .vsel f ka d a b win, .vperm f m d a b win], Claims.Illegal i s tid t) ∧
    Claims.Pends (.kand kd ka kb win) s tid t (8#4 + kd.setWidth 4) ((t.kreg ka &&& t.kreg kb).setWidth 512) 0#6 8 win ∧
    Claims.Pends (.kor kd ka kb win) s tid t (8#4 + kd.setWidth 4) ((t.kreg ka ||| t.kreg kb).setWidth 512) 0#6 8 win ∧
    Claims.Pends (.knot kd ka win) s tid t (8#4 + kd.setWidth 4) ((~~~(t.kreg ka)).setWidth 512) 0#6 8 win ∧
    Claims.Pends (.kmv kd ka win) s tid t (8#4 + kd.setWidth 4) ((t.kreg ka).setWidth 512) 0#6 8 win

/-- Vector logic, shifts, moves, comparisons, selection and mask operations: `Claims.VectorLogicAndShifts`,
`Claims.VectorMovesAndMasks`. -/
def Obligations.VectorLogicMovesAndMasks : Prop :=
  Claims.VectorLogicAndShifts ∧ Claims.VectorMovesAndMasks

/-- R291, R292, R293, R294: reductions and scans over the active lanes, conversions, quantisation against the group
parameters of vb, and the vector functions, with the latency of their class. Malformed group parameters raise BANKFMT
with the offending dword. -/
def Obligations.VectorReductionsAndFunctions : Prop :=
  ∀ s tid t, Performs s tid t → t.vres = [] → ∀ f sf rm m (d a b : VReg) win,
    let w := fmtWidth f
    let x := Claims.lane (t.vreg a) w
    let on := (List.range (512 / w)).filter (Claims.active t m)
    let sum := fun (l : List Nat) =>
      Claims.result f (fun g => exactSum (l.map fun n => g.decode (x n))) ((l.map fun n => Claims.intOf f (x n)).sum)
    let p := t.vreg b
    let c := if f = .uint8 then 8 else 4
    let block := p.toNat / 2 ^ 128 % 8
    let entry := p.toNat % 2 ^ 32
    let src := fun n => Claims.lane (t.vreg a) 32 n
    (f.arith = true →
      Claims.Pends (.vredAdd f m d a win) s tid t (d.setWidth 4) (BitVec.ofNat 512 (sum on).1) (sum on).2 16 win ∧
      Claims.Pends (.vredMax f m d a win) s tid t (d.setWidth 4) (BitVec.ofNat 512 (laneFold true f (on.map x)).1)
        (laneFold true f (on.map x)).2 16 win ∧
      Claims.Pends (.vredMin f m d a win) s tid t (d.setWidth 4) (BitVec.ofNat 512 (laneFold false f (on.map x)).1)
        (laneFold false f (on.map x)).2 16 win ∧
      Claims.Lanewise (.vscan f m d a win) s tid t d m w 16 win (fun n => sum (on.filter (· ≤ n)))) ∧
    (∃ v g, Claims.Pends (.vcvt f sf rm d a win) s tid t (d.setWidth 4) v g 8 win ∧
      (∀ n, n < fmtLanes f → Claims.lane v w n = if n < fmtLanes sf then
        (laneConvert f sf rm (Claims.lane (t.vreg a) (fmtWidth sf) n)).1 % 2 ^ w else 0) ∧
      ∀ k : Nat, g.getLsbD k = true ↔ ∃ n, n < min (fmtLanes f) (fmtLanes sf) ∧
        (laneConvert f sf rm (Claims.lane (t.vreg a) (fmtWidth sf) n)).2.getLsbD k = true) ∧
    (f.asymCode = true →
      (quantBad c p = none →
        (∃ v g, Claims.Pends (.vq f m d a b win) s tid t (d.setWidth 4) v g 12 win ∧ ∀ n, n < 512 / c →
          Claims.lane v c n = if 16 * block ≤ n ∧ n < 16 * block + 16 ∧ Claims.active t m (n - 16 * block) = true then
            (asymEncode c entry (fp32.decode (src (n - 16 * block)))).1 else Claims.lane (t.vreg d) c n) ∧
        Claims.Lanewise (.vdq f m d a b win) s tid t d m 32 12 win (fun n =>
          fp32.deliver .rne true (asymDecode entry (Claims.lane (t.vreg a) c (16 * block + n))))) ∧
      ∀ e, quantBad c p = some e → Traps (.vq f m d a b win) s tid t 0x09#8 e ∧ Traps (.vdq f m d a b win) s tid t 0x09#8 e) ∧
    (f.float3 = true → ∀ i fn, (i, fn) ∈ [(Instr.vexp2 f m d a win, VFn.exp2), (.vrcp f m d a win, .rcp),
      (.vrsq f m d a win, .rsq), (.vsig f m d a win, .sig), (.vtanh f m d a win, .tanh)] →
      Claims.Lanewise i s tid t d m w 24 win (fun n => laneFn fn f (x n))) ∧
    (f.arith = false → ∀ i ∈ [Instr.vredAdd f m d a win, .vredMax f m d a win, .vredMin f m d a win, .vscan f m d a win],
      Claims.Illegal i s tid t) ∧
    (f.asymCode = false → ∀ i ∈ [Instr.vq f m d a b win, .vdq f m d a b win], Claims.Illegal i s tid t) ∧
    (f.float3 = false → ∀ i ∈ [Instr.vexp2 f m d a win, .vrcp f m d a win, .vrsq f m d a win, .vsig f m d a win,
      .vtanh f m d a win], Claims.Illegal i s tid t)

/-- R276, R277, R279: a result whose cycle has come and whose window is closed is written with its flags, and one under an
open window or not yet due stays in flight; reading a register under an open window raises STALLSHORT when SCORECHK.CHK is
set, and reads the earlier value when it is clear. -/
def Claims.VectorResults : Prop :=
  ∀ s tid t r, Performs s tid t → t.vres = [r] → r.dest.toNat < 12 →
    (r.window = 0 → r.due ≤ s.time → ∃ u q, exec (.vectorResultWrite tid) s = .next u ∧
      u.thread? tid.toNat = some q ∧ q.vres = [] ∧ q.vflags = t.vflags ||| r.flags.setWidth 64 ∧ q.x = t.x ∧ q.pc = t.pc ∧
      (∀ v : VReg, q.vreg v = if r.dest = v.setWidth 4 then r.value else t.vreg v) ∧
      (∀ k : KReg, q.kreg k = if r.dest = 8#4 + k.setWidth 4 then r.value.setWidth 128 else t.kreg k) ∧ u.mem = s.mem) ∧
    (0 < r.window ∨ s.time < r.due → ∃ u, exec (.vectorResultWrite tid) s = .next u ∧ u.thread? tid.toNat = some t) ∧
    ∀ (d a : VReg) win, r.dest = a.setWidth 4 → 0 < r.window →
      (t.scorechk.getLsbD 0 = true → Traps (.vnot none d a win) s tid t 0x08#8 (r.dest.setWidth 64)) ∧
      (t.scorechk.getLsbD 0 = false → ∃ u q p, exec (.vnot none d a win) s = .next u ∧ u.thread? tid.toNat = some q ∧
        q.pc = t.pc + 4#64 ∧ p ∈ q.vres ∧ p.dest = d.setWidth 4 ∧ p.value = ~~~(t.vreg a))

/-- Vector register `d` of `q` holds `v`; every other vector register, the masks, the scalar registers and the predicates
are as in `t`. -/
structure Claims.WroteV (t q : Thread) (d : VReg) (v : VWord) : Prop where
  dest : q.vreg d = v
  others : ∀ r, r ≠ d → q.vreg r = t.vreg r
  masks : q.k = t.k
  scalars : q.x = t.x ∧ q.taint = t.taint ∧ q.pw = t.pw

/-- No granule of the module fails a check (R188). -/
structure Claims.Clean (s : State) : Prop where
  one : s.eccOne = []
  bad : s.eccBad = []
  bits : s.febBad = []

/-- R205, R282, R283: the vector loads and stores on the own window. `vld` and `vst` move the 64 bytes of their address; the
strided and indexed forms move 16 elements of four bytes or 8 of eight, the lowest lane first; every address is checked
before any element moves. A load changes no memory, a store no register. -/
def Obligations.VectorLoadsAndStores : Prop :=
  ∀ s tid t, Performs s tid t → t.vres = [] → Claims.Settled s tid t → Claims.Clean s →
    (s.core (tid.toNat / 16)).lost = false → ∀ (v b : VReg) (a x : Reg) (sc : BitVec 6) win el,
    let base := 0x10000000000 + tid.toNat / 16 * 0x80000
    let ea := t.reg a + 64#64 * sc.signExtend 64
    let w := elBytes el
    let loads := fun (i : Instr) (data : VWord) => ∃ u q, exec i s = .next u ∧ u.thread? tid.toNat = some q ∧
      ThreadOnly s u tid.toNat t ∧ q.pc = t.pc + 4#64 ∧ q.instret = t.instret + 1#64 ∧ Claims.WroteV t q v data
    let stores := fun (i : Instr) (m : Mem) => ∃ u q, exec i s = .next u ∧ u.thread? tid.toNat = some q ∧ u.mem = m ∧
      ThreadOnly { s with mem := u.mem } u tid.toNat t ∧ q.pc = t.pc + 4#64 ∧ q.instret = t.instret + 1#64 ∧ q.x = t.x ∧
      q.v = t.v ∧ q.k = t.k ∧ q.pw = t.pw
    (ea.toNat % 64 ≠ 0 → Traps (.vld v a sc .plain win) s tid t 0x03#8 ea ∧ Traps (.vst v a sc .plain win) s tid t 0x03#8 ea) ∧
    (ea.toNat % 64 = 0 → ea.toNat < 0x80000 →
      loads (.vld v a sc .plain win) (BitVec.ofNat 512 (readBytes s.mem (base + ea.toNat) 64)) ∧
      (s.hitsInbox (base + ea.toNat) 64 = false →
        stores (.vst v a sc .plain win) (writeBytes s.mem (base + ea.toNat) 64 (t.vreg v).toNat))) ∧
    ∀ i st (at_ : Nat → Word), (i, st, at_) ∈
        [(Instr.vlds v a x el win, false, fun n => t.reg a + BitVec.ofNat 64 n * t.reg x),
         (.vsts v a x el win, true, fun n => t.reg a + BitVec.ofNat 64 n * t.reg x),
         (.vgat v a b el win, false, fun n => t.reg a + ((t.vreg b).extractLsb' (8 * w * n) (8 * w)).signExtend 64),
         (.vsca v a b el win, true, fun n => t.reg a + ((t.vreg b).extractLsb' (8 * w * n) (8 * w)).signExtend 64)] →
      ((∀ n, n < 64 / w → (at_ n).toNat % w = 0 ∧ (at_ n).toNat < 0x80000 ∧
          (st = true → s.hitsInbox (base + (at_ n).toNat) w = false)) →
        if st then stores i ((List.range (64 / w)).foldl (fun m n =>
            writeBytes m (base + (at_ n).toNat) w (Claims.lane (t.vreg v) (8 * w) n)) s.mem)
        else ∃ data, loads i data ∧
          ∀ n, n < 64 / w → Claims.lane data (8 * w) n = readBytes s.mem (base + (at_ n).toNat) w) ∧
      ((at_ 0).toNat % w ≠ 0 → Traps i s tid t 0x03#8 (at_ 0))

/-- R120, R282, R284, R209: the decoding load and the encoding store on the own window, in the format of the bank that holds
their address, with their flags; BANKFMT for an invalid format register, and for an encoding store to a bank with dynamic
scales. The synchronising forms of `vld` and `vst` find the four granules of their line as they need them, and leave them
as the scalar forms do. -/
def Claims.VectorUnitsAndSynchronisation : Prop :=
  ∀ s tid t, Performs s tid t → t.vres = [] → Claims.Alone s tid → Claims.Settled s tid t → Claims.Clean s →
    (s.core (tid.toNat / 16)).lost = false → ∀ (v : VReg) (a : Reg) (sc : BitVec 6) win,
    let c := tid.toNat / 16
    let ea := t.reg a + 64#64 * sc.signExtend 64
    let g := 0x10000000000 + c * 0x80000 + ea.toNat
    let r := (s.core c).bfmt[ea.toNat / 16384 % 32]
    let unit := decodeUnit s.mem c r ea.toNat
    let cells := encodeUnit s.mem c r ea.toNat (t.vreg v)
    let line := [g / 16, g / 16 + 1, g / 16 + 2, g / 16 + 3]
    (ea.toNat % unitBytes r = 0 → ea.toNat < 0x80000 →
      (bfInvalid r = true → Traps (.vldD v a sc .plain win) s tid t 0x09#8 ea ∧
        Traps (.vstE v a sc .plain win) s tid t 0x09#8 ea) ∧
      (bfDyn r = true → Traps (.vstE v a sc .plain win) s tid t 0x09#8 ea) ∧
      (bfInvalid r = false → unitBad s.mem c r ea.toNat = false →
        (∃ u q, exec (.vldD v a sc .plain win) s = .next u ∧ u.thread? tid.toNat = some q ∧ ThreadOnly s u tid.toNat t ∧
          q.pc = t.pc + 4#64 ∧ Claims.WroteV t q v unit.1 ∧ q.vflags = t.vflags ||| unit.2.setWidth 64) ∧
        (bfDyn r = false → s.hitsInbox g (unitBytes r) = false →
          ∃ u q, exec (.vstE v a sc .plain win) s = .next u ∧ u.thread? tid.toNat = some q ∧
            ThreadOnly { s with mem := u.mem } u tid.toNat t ∧ q.pc = t.pc + 4#64 ∧ q.v = t.v ∧ q.x = t.x ∧
            q.vflags = t.vflags ||| cells.2.setWidth 64 ∧ u.mem = writeCells s.mem cells.1))) ∧
    (ea.toNat % 64 = 0 → ea.toNat < 0x80000 → s.hitsInbox g 64 = false →
      ((∀ n ∈ line, n ∈ s.full) →
        (∀ y ∈ [VSync.keep, VSync.take], ∃ u q, exec (.vld v a sc y win) s = .next u ∧ u.thread? tid.toNat = some q ∧
          u.mem = s.mem ∧ u.full = (if y = .take then line.foldl (fun l n => setErase n l) s.full else s.full) ∧
          q.pc = t.pc + 4#64 ∧ q.promises = t.promises ∧
          Claims.WroteV t q v (BitVec.ofNat 512 (readBytes s.mem g 64))) ∧
        ∃ u q, exec (.vst v a sc .keep win) s = .next u ∧ u.thread? tid.toNat = some q ∧ u.full = s.full ∧
          u.mem = writeBytes s.mem g 64 (t.vreg v).toNat ∧ q.pc = t.pc + 4#64 ∧ q.v = t.v ∧ q.x = t.x) ∧
      ((∀ n ∈ line, n ∉ s.full) →
        ∃ u q, exec (.vst v a sc .take win) s = .next u ∧ u.thread? tid.toNat = some q ∧
          u.full = line.foldl (fun l n => setInsert n l) s.full ∧ u.mem = writeBytes s.mem g 64 (t.vreg v).toNat ∧
          q.pc = t.pc + 4#64 ∧ q.v = t.v ∧ q.x = t.x ∧
          ∀ o, some o ∈ q.promises.toList ↔ some o ∈ t.promises.toList ∧ ∀ n ∈ line, o ≠ .granule n))

/-- Pending vector results, and decoding, encoding and synchronising vector accesses: `Claims.VectorResults`,
`Claims.VectorUnitsAndSynchronisation`. -/
def Obligations.VectorResultsAndUnits : Prop :=
  Claims.VectorResults ∧ Claims.VectorUnitsAndSynchronisation

/-! ### Threads, groups and tasks (06_threads) -/

/-- No engine is stopped on a command of the thread (R311, R343). -/
def Claims.Unheld (s : State) (tid : BitVec 16) : Prop :=
  ∀ c k, (c, k) ∈ s.cores → k.holdOf tid.toNat = false ∧ k.stopOf tid.toNat = false

/-- R26, R157, R159, R177: `end` with open promises raises PROMISEEND with their number. Without, and with its drains
done, the thread retires, issues no more, and its slot falls vacant 8 cycles later; no other thread and no memory changes. When
that cycle has come the slot is vacant: MODE becomes 0 when it is slot 0; when it was the last thread of its group, and nothing
of the group is under way, the group ends, owns no core, and its launch counts the index or completes. -/
def Claims.ThreadEnd : Prop :=
  (∀ s tid t, Performs s tid t →
    (t.openPromises ≠ [] → Traps .endThread s tid t 0x0C#8 (BitVec.ofNat 64 t.openPromises.length)) ∧
    (t.openPromises = [] → Claims.Settled s tid t → t.gang = none →
      ∃ u q, exec .endThread s = .next u ∧ u.thread? tid.toNat = some q ∧ q.pc = t.pc + 4#64 ∧
        q.instret = t.instret + 1#64 ∧ q.x = t.x ∧ q.wait.map (·.what) = some .ending ∧ u.mem = s.mem ∧ u.full = s.full ∧
        (∀ k, k ≠ tid.toNat → u.thread? k = s.thread? k) ∧
        ∃ y ∈ u.timed, y.what = .slotVacant tid ∧ y.due = s.time + 8)) ∧
  ∀ s (tid : BitVec 16) t y, s.Inv → s.inputs = [] → s.timed = [y] → y.what = .slotVacant tid → y.due ≤ s.time →
    s.thread? tid.toNat = some t → t.wait.map (·.what) = some .ending → t.gang = none → Claims.Unheld s tid →
    (∀ k p, s.thread? k = some p → k ≠ tid.toNat → p.wait = none) → (∀ l ∈ s.launches, ∀ g tag, l.done ≠ .msg g tag) →
    ∃ u, step s = .next u ∧ u.thread? tid.toNat = none ∧ u.mem = s.mem ∧ u.full = s.full ∧
      (∀ k, k ≠ tid.toNat → u.thread? k = s.thread? k) ∧
      (tid.toNat % 16 = 0 → (u.core (tid.toNat / 16)).slotcfg.getLsbD 0 = false) ∧
      ∀ g, s.group? t.group = some g → (s.members t.group).map (·.1) = [tid.toNat] → s.rovers = [] → g.suspended = 0 →
        g.posted = 0 → (∀ p ∈ s.packets, p.group ≠ t.group) → g.id = t.group ∧ u.group? t.group = none ∧
          (∀ c ∈ g.cores, (u.core c.toNat).owner ≠ some t.group) ∧
          ∀ l, s.launches = [l] → l.id = g.launch →
            u.launches = if l.ended + 1 = l.count then [] else [{ l with ended := l.ended + 1 }]

/-- R170, R172, R178: `detach` of a thread in no stream only retires, and that of an attached member leaves the stream.
`join` clears p63 for a thread in no gang and for an attached member; a detached member whose stream has passed the join
goes on with p63 set, also when no member is attached any more (DESIGN CHOICE 95). -/
def Claims.GangMembership : Prop :=
  ∀ s tid t, Performs s tid t →
    (t.inGang = false → GoesTo .detach s tid t (t.pc + 4#64)) ∧
    (∀ g, t.gang = some g → g.attached = true → ∃ u q, exec .detach s = .next u ∧ u.thread? tid.toNat = some q ∧
      q.gang = some { g with attached := false } ∧ q.pc = t.pc + 4#64 ∧ q.x = t.x ∧ q.pw = t.pw ∧ u.mem = s.mem) ∧
    ∀ k, (t.gang = none → Decides (.join k) s tid t 63#6 false) ∧
      ∀ g st, t.gang = some g → s.stream? g.stream = some st →
        (g.attached = true → ∃ u q, exec (.join k) s = .next u ∧ u.thread? tid.toNat = some q ∧ q.pc = t.pc + 4#64 ∧
          q.x = t.x ∧ WrotePred t q 63#6 false ∧ u.mem = s.mem) ∧
        (g.attached = false → (∃ j ∈ st.joins, j.2 = k ∧ g.pos < j.1) → ∃ u q, exec (.join k) s = .next u ∧
          u.thread? tid.toNat = some q ∧ q.pc = t.pc + 4#64 ∧ q.x = t.x ∧ WrotePred t q 63#6 true ∧ q.gang = t.gang ∧
          u.mem = s.mem)

/-- end, detach and join: `Claims.ThreadEnd`, `Claims.GangMembership`. What a detached member of a stream without an attached one
meets at a join that the stream has passed is DESIGN CHOICE 95. -/
def Obligations.ThreadEndAndMembership : Prop :=
  Claims.ThreadEnd ∧ Claims.GangMembership

/-- A slot that a spawn of group `g` can start in: vacant, enabled, on a core that the group owns (R179). -/
structure Claims.Startable (s : State) (g x : Nat) : Prop where
  vacant : s.thread? x = none
  owner : (s.core (x / 16)).owner = some g
  present : (s.core (x / 16)).lost = false
  enabled : (s.core (x / 16)).slotcfg.getLsbD (16 + x % 16) = false
  buffer : (s.core (x / 16)).buffer = []

/-- The state of a thread that a spawn of `t` starts (R158, R179): PC and ARG from the entry, INDEX and LAUNCH of the issuer
in x11 and x12, everything else zero or empty, in the issuer's group, ready 24 cycles later. -/
structure Claims.Spawned (t p : Thread) (pc arg : Word) (now : Nat) : Prop where
  pc : p.pc = pc
  regs : p.reg 10#5 = arg ∧ p.reg 11#5 = t.index.setWidth 64 ∧ p.reg 12#5 = t.launch.setWidth 64 ∧
    ∀ r, r ≠ 10#5 → r ≠ 11#5 → r ≠ 12#5 → p.reg r = 0#64
  zero : p.pw = 0#64 ∧ p.instret = 0#64 ∧ p.v = Vector.replicate 8 0#512 ∧ p.k = Vector.replicate 4 0#128
  group : p.group = t.group ∧ p.launch = t.launch ∧ p.index = t.index ∧ p.job = t.job
  bounds : p.cbase = t.cbase ∧ p.clim = t.clim
  state : p.run = .live ∧ p.wait = none ∧ p.inHandler = false ∧ p.promises = Vector.replicate 8 none ∧ p.rover = false
  ready : p.readyAt = now + 24

/-- R158, R168, R179, R180: a spawn by `start` writes 0 to rd and starts a thread in the slot that it names; one by `startg`
starts an attached member in that slot of every core of its mask; `rove` puts a new rover into the core's arrival queue,
with x8 its operand and x9 the issuer's id, and returns 0; 1 when the core's live rovers have reached their limit, 2 when
neither the queue nor the ring has room. -/
def Obligations.ThreadStarts : Prop :=
  ∀ s tid t, Performs s tid t → Claims.Settled s tid t → t.gang = none → t.vres = [] → s.susps = [] → s.resumes = [] →
    ∀ (d a b : Reg) (v : VReg),
    let c := tid.toNat / 16
    let e := t.vreg v
    let x := (t.reg b).toNat
    let n := c * 16 + x
    let member := fun i => (tid.toNat / 128 * 8 + i) * 16 + x / 256
    (∀ g, s.group? t.group = some g → g.level ≠ .thread → 1 ≤ x → x ≤ 14 → Claims.Startable s t.group n →
      e.extractLsb' 0 64 = 0x4000000000000000#64 → e.toNat / 2 ^ 192 = 0 →
      ∃ u q p, exec (.start d v b) s = .next u ∧ u.thread? tid.toNat = some q ∧ u.thread? n = some p ∧
        q.pc = t.pc + 4#64 ∧ WroteReg t q d 0#64 false ∧ Claims.Spawned t p (e.extractLsb' 64 64) (e.extractLsb' 128 64) s.time ∧
        p.gang = none ∧ u.mem = s.mem ∧ ∀ k, k ≠ tid.toNat → k ≠ n → u.thread? k = s.thread? k) ∧
    (∀ g, s.group? t.group = some g → g.level = .cluster → x < 2 ^ 12 → x % 256 ≠ 0 → 1 ≤ x / 256 → x / 256 ≤ 14 →
      (s.core c).buffer = [] → (∀ k p, s.thread? k = some p → p.gang = none) →
      (∀ i, i < 8 → (t.reg b).getLsbD i = true → Claims.Startable s t.group (member i)) →
      (∃ m : BitVec 8, m ≠ 0#8 ∧ e.extractLsb' 0 64 = BitVec.ofNat 64 (0x8400000000000000 + m.toNat * 2 ^ 40)) →
      e.toNat / 2 ^ 192 = 0 →
      ∃ u q, exec (.startg d v b) s = .next u ∧ u.thread? tid.toNat = some q ∧ q.pc = t.pc + 4#64 ∧
        WroteReg t q d 0#64 false ∧ u.mem = s.mem ∧
        ∀ i, i < 8 → (t.reg b).getLsbD i = true → ∃ p y, u.thread? (member i) = some p ∧
          Claims.Spawned t p (e.extractLsb' 64 64) (e.extractLsb' 128 64) s.time ∧ p.gang = some y ∧ y.attached = true ∧
          y.stream = tid.toNat / 128 * 16 + x / 256) ∧
    (let k := s.core c
     let live := k.rovelim.extractLsb' 16 9
     let lim := k.rovelim.extractLsb' 0 9
     (lim.toNat ≤ live.toNat → Yields (.rove d a b) s tid t d 1#64 false) ∧
     (live.toNat < lim.toNat → k.arrQ.length < 16 → k.spill = [] →
      ∃ u q r, exec (.rove d a b) s = .next u ∧ u.thread? tid.toNat = some q ∧ q.pc = t.pc + 4#64 ∧
        WroteReg t q d 0#64 false ∧ r ∈ u.rovers ∧ (u.core c).arrQ = k.arrQ ++ [r.id] ∧ r.thread.rover = true ∧
        r.thread.pc = t.reg a ∧ r.thread.reg 8#5 = t.reg b ∧ r.thread.reg 9#5 = (s.ownRank t.job ++ tid).setWidth 64 ∧
        r.thread.group = t.group ∧ r.thread.origin.toNat = c ∧ r.target.toNat = c ∧
        (u.core c).rovelim.extractLsb' 16 9 = live + 1#9 ∧ u.mem = s.mem) ∧
     (live.toNat < lim.toNat → k.arrQ.length = 16 → k.arrspill.extractLsb' 32 9 = 0#9 → k.spill = [] →
      ∃ u q, exec (.rove d a b) s = .next u ∧ u.thread? tid.toNat = some q ∧ q.pc = t.pc + 4#64 ∧
        WroteReg t q d 2#64 false ∧ u.rovers = s.rovers ∧ u.core c = k ∧ u.mem = s.mem))

/-- `grow` with count `n` waits for its acceptance by the task queue, at most 160 cycles and the way there later; the step that
accepts it lets the thread go on, with its result (R183). -/
def Claims.Grows (d a : Reg) (s : State) (tid : BitVec 16) (t : Thread) (p : State → Thread → Prop) : Prop :=
  ∃ u q y, exec (.grow d a) s = .next u ∧ u.thread? tid.toNat = some q ∧ q.pc = t.pc ∧ q.x = t.x ∧
    q.wait.map (·.what) = some (.submitted d (t.reg a).toNat) ∧ u.launches = s.launches ∧ u.dies = s.dies ∧ u.mem = s.mem ∧
    y ∈ u.timed ∧ y.what = .growAccept tid ∧ s.time < y.due ∧
    ∃ w r, runDue y.what { u with time := y.due } = .next w ∧ w.thread? tid.toNat = some r ∧ r.pc = t.pc + 4#64 ∧
      r.wait = none ∧ w.mem = s.mem ∧ p w r

/-- R160, R161, R162, R181, R182, R183: the task queue from a thread. `taskget` gives the monitor the oldest entry of its
core's buffer that is not held, and zeros when there is none; in another slot it is ILLEGAL. `taskadd` of a well-formed
entry queues its indices under a launch id that no launch has and returns the id, returns all ones when the queue is full,
and raises TASKFMT with the number of the first faulty dword. `grow`, when the queue accepts it, adds indices to the launch of the
thread and returns the count before, or returns all ones when the count would not fit. -/
def Claims.TaskInstructions : Prop :=
  ∀ s tid t, Performs s tid t → Claims.Settled s tid t → t.vres = [] → ∀ (d a : Reg) (v : VReg),
    let c := tid.toNat / 16
    let e := t.vreg v
    let die := (entryDie e).toNat
    let full := 16384 + Config.overflowEntries die ≤ (s.die die).queue.length
    (s.isMonitor tid.toNat = false → Claims.Illegal (.taskget v) s tid t) ∧
    (s.isMonitor tid.toNat = true →
      ((s.core c).buffer = [] → ∃ u q, exec (.taskget v) s = .next u ∧ u.thread? tid.toNat = some q ∧
        q.pc = t.pc + 4#64 ∧ Claims.WroteV t q v 0#512 ∧ (u.core c).buffer = []) ∧
      ∀ b, (s.core c).buffer = [b] → b.held = false → ∃ u q, exec (.taskget v) s = .next u ∧
        u.thread? tid.toNat = some q ∧ q.pc = t.pc + 4#64 ∧ Claims.WroteV t q v b.entry ∧
        (u.core c).buffer = [{ b with held := true, claim := none }] ∧ u.mem = s.mem) ∧
    (entryRq e = false →
      (entryFault e false true = none → entryJob e = t.job →
        (full → ∃ u q, exec (.taskadd d v) s = .next u ∧ u.thread? tid.toNat = some q ∧ q.pc = t.pc + 4#64 ∧
          WroteReg t q d (BitVec.allOnes 64) false ∧ u.launches = s.launches) ∧
        (¬ full → s.launches.length < 65536 → ∃ u q l y, exec (.taskadd d v) s = .next u ∧
          u.thread? tid.toNat = some q ∧ q.pc = t.pc + 4#64 ∧ WroteReg t q d (l.id.setWidth 64) false ∧
          u.launches = s.launches ++ [l] ∧ l.id ≠ 0#32 ∧ (∀ z ∈ s.launches, z.id ≠ l.id) ∧
          l.count = (entryCount e).toNat ∧ l.ended = 0 ∧ l.job = t.job ∧ y ∈ (u.die die).queue ∧ y.lo = 0 ∧
          y.hi = (entryCount e).toNat ∧ y.cls = (entryClass e).toNat ∧ entryLaunch y.entry = l.id ∧ u.mem = s.mem)) ∧
      (∀ n, entryFault e false true = some n → Traps (.taskadd d v) s tid t 0x0F#8 (BitVec.ofNat 64 n)) ∧
      (entryFault e false true = none → entryJob e ≠ t.job → Traps (.taskadd d v) s tid t 0x0F#8 7#64)) ∧
    ∀ l, s.launches = [l] → l.id = t.launch →
      let n := (t.reg a).toNat
      (n ≠ 0 → l.count + n < 2 ^ 32 → Claims.Grows d a s tid t fun w r => WroteReg t r d (BitVec.ofNat 64 l.count) false ∧
        w.launches = [{ l with count := l.count + n }] ∧ ∃ y ∈ (w.die l.die.toNat).queue, y.lo = l.count ∧ y.hi = l.count + n) ∧
      (n = 0 → Claims.Grows d a s tid t fun w r => WroteReg t r d (BitVec.ofNat 64 l.count) false ∧ w.launches = [l] ∧
        w.dies = s.dies) ∧
      (n ≠ 0 → 2 ^ 32 ≤ l.count + n → Claims.Grows d a s tid t fun w r => WroteReg t r d (BitVec.allOnes 64) false ∧
        w.launches = [l] ∧ w.dies = s.dies)

/-- R158, R162, R163, R164, R165: the task queue unit. With no entry of class 0 waiting, a deal takes the front index of the
oldest task that the die has accepted and starts it in slot 1 of an idle core of the die; while no slot is enabled, and before
the task is accepted, nothing is dealt. A task
that has waited 2 ms in class 3, or 8 ms in class 2, joins the tail of the next class; one that has not stays. A core starts
the head of its buffer in the slot that it has claimed. That a deal starts the entry in its own step is the model's choice
(DESIGN CHOICE 24). -/
def Claims.TaskDealing : Prop :=
  (∀ s (d : BitVec 2) x, s.cores = [] → s.threads = [] → s.susps = [] → s.resumes = [] → (s.die d.toNat).doneMsgs = [] →
    (s.die d.toNat).queue = [x] → x.lo < x.hi → 1 ≤ x.cls → x.cls ≤ 3 → entryKind x.entry = 1 → entryLevel x.entry = 0 →
    entryClass x.entry ≠ 0#2 → entryCtrl x.entry = false →
    (s.enabled = true → x.since ≤ s.time → ∃ u k p, exec (.tquDeal d) s = .next u ∧ u.threads = [(k, p)] ∧ k % 16 = 1 ∧
      k / 16 / 1024 = d.toNat ∧ p.pc = entryPc x.entry ∧ p.reg 10#5 = entryArg x.entry ∧ p.index.toNat = x.lo % 2 ^ 32 ∧
      p.launch = entryLaunch x.entry ∧ p.job = entryJob x.entry ∧ p.run = .live ∧ p.readyAt = s.time + 24 ∧
      (u.die d.toNat).queue = (if x.lo + 1 < x.hi then [{ x with lo := x.lo + 1 }] else []) ∧ u.mem = s.mem) ∧
    (s.enabled = false ∨ s.time < x.since →
      ∃ u, exec (.tquDeal d) s = .next u ∧ u.threads = [] ∧ (u.die d.toNat).queue = [x])) ∧
  (∀ s (d : BitVec 2) x, (s.die d.toNat).queue = [x] →
    ∀ i cls wait, (i, cls, wait) = (Instr.class3Aging d, 3, 2500000) ∨ (i, cls, wait) = (Instr.class2Aging d, 2, 10000000) →
      (x.cls = cls → x.since + wait ≤ s.time → ∃ u, exec i s = .next u ∧
        (u.die d.toNat).queue = [{ x with cls := cls - 1, since := s.time, first := false }] ∧ u.threads = s.threads ∧ u.mem = s.mem) ∧
      (x.cls ≠ cls ∨ s.time < x.since + wait → exec i s = .next s)) ∧
  ∀ s (c : CoreId) b (n : BitVec 4), (s.core c.toNat).buffer = [b] → b.held = false → b.claim = some n →
    entryKind b.entry = 1 → entryLevel b.entry = 0 → entryCtrl b.entry = false → entryClass b.entry ≠ 0#2 →
    ((s.core c.toNat).slotcfg.getLsbD 0 = false → ∃ u p, exec (.taskStart c) s = .next u ∧
      u.thread? (c.toNat * 16 + n.toNat) = some p ∧ p.pc = entryPc b.entry ∧ p.reg 10#5 = entryArg b.entry ∧
      p.index = entryIndex b.entry ∧ p.readyAt = s.time + 24 ∧ (u.core c.toNat).buffer = [] ∧ u.mem = s.mem) ∧
    ((s.core c.toNat).slotcfg.getLsbD 0 = true → exec (.taskStart c) s = .next s)

/-- Task instructions and the task queue unit: `Claims.TaskInstructions`, `Claims.TaskDealing`. -/
def Obligations.TaskQueue : Prop :=
  Claims.TaskInstructions ∧ Claims.TaskDealing

/-- R166, R174, R175, R374: what displaces threads. A pre-emption (R166) whose victim finds room in a pool begins its suspension
with CAUSE 1 and the rights 0x05, RESUME and DISCARD (R374), and changes nothing when there is none. While the sensor reads above its hot threshold the thermal
controller disables the highest-numbered enabled worker slot of an unowned core, one every 100 µs, while fewer than THMAX are
disabled; while it reads below the cool threshold the slots are enabled again in reverse order. -/
def Obligations.PreemptionAndThermalControl : Prop :=
  (∀ s (d : BitVec 2), (s.preemptor d.toNat = none → exec (.preemption d) s = .next s) ∧
    ∀ g, s.preemptor d.toNat = some [g] → ∃ u, exec (.preemption d) s = .next u ∧
      ((s.evict g 1#8 0x05#8).isNone = true → u = s) ∧
      ((s.evict g 1#8 0x05#8).isSome = true → ∃ x ∈ u.susps, u.susps.length = s.susps.length + 1 ∧ x.group = g.id ∧
        x.cause = 1#8 ∧ x.rights = 0x05#8 ∧ x.tids = (s.running g.id).map (fun y => BitVec.ofNat 16 y.1) ∧
        ∃ n, (x.addr, n) ∈ u.poolUsed)) ∧
  ∀ s (c : CoreId),
    let k := s.core c.toNat
    let off := fun n => k.slotcfg.getLsbD (16 + n)
    let worker := fun n => 1 ≤ n ∧ (n ≤ 14 ∨ n = 15 ∧ k.slotcfg.getLsbD 1 = false)
    let becomes := fun (i : Instr) (k' : Core) => ∃ u, exec i s = .next u ∧
      u = { s with cores := u.cores, timed := u.timed, fresh := u.fresh } ∧ (∀ n, n ≠ c.toNat → u.core n = s.core n) ∧
      u.core c.toNat = k'
    (k.reading ≤ k.hot → s.platform.hotAction = false → exec (.thermalDisable c) s = .next s) ∧
    (k.hot < k.reading → k.thermalAt ≤ s.time → s.resumes = [] → k.buffer = [] →
      (∀ n, worker n → off n = false → (∀ m, worker m → n < m → off m = true) → k.owner = none →
        ((List.range 16).countP fun m => decide (1 ≤ m ∧ (m ≤ 14 ∨ m = 15 ∧ k.slotcfg.getLsbD 1 = false)) && off m)
          < (k.slotcfg.extractLsb' 8 4).toNat → s.thread? (c.toNat * 16 + n) = none →
        becomes (.thermalDisable c) { k with slotcfg := k.slotcfg ||| (1#64 <<< (16 + n)), thermal := BitVec.ofNat 4 n :: k.thermal
                                             thermalAt := s.time + 125000 }) ∧
      (k.owner ≠ none → becomes (.thermalDisable c) k)) ∧
    (k.cool ≤ k.reading → exec (.thermalEnable c) s = .next s) ∧
    (k.reading < k.cool → k.thermalAt ≤ s.time →
      (k.thermal = [] → exec (.thermalEnable c) s = .next s) ∧
      ∀ n rest, k.thermal = n :: rest → becomes (.thermalEnable c)
        { k with slotcfg := k.slotcfg &&& ~~~(1#64 <<< (16 + n.toNat)), thermal := rest, thermalAt := s.time + 125000 })

/-! ### Continuations and live migration (15_continuations) -/

/-- An address of an object in the Carafe of a cluster: a multiple of 128, with room for `n` bytes (R362, R376). -/
structure Claims.InCarafe (a : Word) (n : Nat) : Prop where
  aligned : a.toNat % 128 = 0
  low : 0x18000000000 ≤ a.toNat
  high : a.toNat < 0x18008000000
  room : a.toNat % 0x40000 + n ≤ 0x40000

/-- R368, R369, R370, R376, R377: `susp` of a thread-level group into a Carafe, without extents, begins: the area is in
state WRITING under the version that follows, the thread waits past the instruction, and the commit is scheduled; an
address that is not a multiple of 128 raises ACCESSFAULT, and a reserved LEVEL raises CONTFMT. The commit waits while the
drain is not finished; then the object is SUSPENDED, the slot is vacant with its suspended mark, and the group counts the
saved thread. That a commit which must wait tries again after 16 cycles is the model's choice (DESIGN CHOICE 11). -/
def Obligations.SuspendAndCommit : Prop :=
  (∀ s tid t, Performs s tid t → Claims.Settled s tid t → t.gang = none → ∀ (d a b : Reg),
    let at_ := t.reg a
    let c := t.reg b
    (at_.toNat % 128 ≠ 0 → Traps (.susp d a b) s tid t 0x02#8 at_) ∧
    (Claims.InCarafe at_ 2560 → c.extractLsb' 0 2 = 3#2 → Traps (.susp d a b) s tid t 0x15#8 at_) ∧
    (Claims.InCarafe at_ 2560 → ∀ r : BitVec 5, c = BitVec.ofNat 64 (r.toNat * 256) → s.levelOf t.group = .thread →
      (∃ g, s.group? t.group = some g) → s.objHeld at_.toNat t.job = false → (∀ y ∈ s.susps, y.id < s.fresh) →
      ∃ u q x, exec (.susp d a b) s = .next u ∧ u.thread? tid.toNat = some q ∧ q.pc = t.pc + 4#64 ∧ q.x = t.x ∧
        q.wait.map (·.what) = some (.suspending x.id) ∧ u.susps = s.susps ++ [x] ∧ x.addr = at_.toNat ∧ x.level = 0#2 ∧
        x.tids = [tid] ∧ x.cause = 0#8 ∧ x.rights = r.setWidth 8 ∧ x.extents = [] ∧ x.origin = s.ownRank t.job ++ tid ∧
        x.version = s.writeVersion at_.toNat t.job ∧ objState u.mem at_.toNat = 0 ∧
        objVersion u.mem at_.toNat = x.version ∧ ∃ y ∈ u.timed, y.what = .suspendCommit x.id)) ∧
  ∀ s x (tid : BitVec 16) t g, s.susps = [x] → x.tids = [tid] → x.extents = [] → x.level = 0#2 → x.cause = 0#8 →
    assocSorted s.threads = true → s.thread? tid.toNat = some t → t.stepped = false → t.gang = none →
    s.group? x.group = some g → x.addr < 2 ^ 62 →
    (s.suspReady x = false → ∃ u, exec (.suspendCommit x.id) s = .next u ∧ u.susps = [x] ∧ u.threads = s.threads ∧
      u.mem = s.mem ∧ ∃ y ∈ u.timed, y.what = .suspendCommit x.id ∧ y.due = s.time + 16) ∧
    (s.suspReady x = true → ∃ u h, exec (.suspendCommit x.id) s = .next u ∧ u.susps = [] ∧ u.thread? tid.toNat = none ∧
      objState u.mem x.addr = 1 ∧ (u.core (tid.toNat / 16)).marks.getLsbD (tid.toNat % 16) = true ∧
      u.group? x.group = some h ∧ h.suspended = g.suspended + 1 ∧ ∀ k, k ≠ tid.toNat → u.thread? k = s.thread? k)

/-- R368, R373, R376, R378: `resm` of an object that passes its checks waits for its acceptance, and takes the trap of the
check that fails. The acceptance of a SUSPENDED object under the version named makes it RESUMING under the next version;
of any other it makes the issuer take CONTSTALE. The restore of an object without extents, messages and events, whose thread was
not halted by dependence (bit 9 of the record's dword 0x110 is clear; one that was, looks for its object again: DEDUCED 53), starts its
thread in the claimed slot with the PC, registers and predicates of its record, the object is RESUMED, and the thread that
issued the `resm` goes on. -/
def Obligations.ResumeAndRestore : Prop :=
  (∀ s tid t, Performs s tid t → Claims.Settled s tid t → ∀ (a b : Reg), Claims.InCarafe (t.reg a) 128 →
    (∀ e, s.resumeCheck (t.reg a).toNat (tid.toNat / 16) t.job none (some tid.toNat) = .error e →
      Traps (.resm a b) s tid t e (t.reg a)) ∧
    (∀ l, s.resumeCheck (t.reg a).toNat (tid.toNat / 16) t.job none (some tid.toNat) = .ok l →
      ∃ u q r, exec (.resm a b) s = .next u ∧ u.thread? tid.toNat = some q ∧ q.pc = t.pc ∧ q.x = t.x ∧ u.mem = s.mem ∧
        u.resumes = s.resumes ++ [r] ∧ r.addr = (t.reg a).toNat ∧ r.version = t.reg b ∧ r.accepted = false ∧
        q.wait.map (·.what) = some (.resuming r.id) ∧ ∃ y ∈ u.timed, y.what = .resumeAccept r.id)) ∧
  (∀ s r, s.resumes = [r] → r.accepted = false → objValid s.mem r.addr = true → objOutcp s.mem r.addr = 0 →
    (objState s.mem r.addr = 1 → objVersion s.mem r.addr = r.version → ∃ u q, exec (.resumeAccept r.id) s = .next u ∧
      objState u.mem r.addr = 4 ∧ objVersion u.mem r.addr = (if r.version = BitVec.allOnes 64 then 1#64 else r.version + 1#64) ∧
      u.resumes = [q] ∧ q.accepted = true ∧ u.threads = s.threads) ∧
    (objState s.mem r.addr ≠ 1 ∨ objVersion s.mem r.addr ≠ r.version → ∀ (tid : BitVec 16) t, r.issuer = some tid →
      r.asCode = none → s.thread? tid.toNat = some t → Claims.Plain t → ∃ u q, exec (.resumeAccept r.id) s = .next u ∧
        u.thread? tid.toNat = some q ∧ q.pc = t.evec ∧ q.ecause = 0x18#64 ∧ u.resumes = [] ∧ u.mem = s.mem)) ∧
  ∀ s r (tid : BitVec 16) p, s.resumes = [r] → r.accepted = true → r.claims = [tid] → Claims.Calm s →
    (r.issuer = none ∧ s.threads = [] ∨ ∃ k t, r.issuer = some k ∧ r.asCode = none ∧ k ≠ tid ∧ s.threads = [(k.toNat, t)] ∧
      Claims.Plain t) →
    objExtents s.mem r.addr = some ([], p) → objLevel s.mem r.addr = 0 → objNthr s.mem r.addr = 1 →
    objNmsg s.mem r.addr = 0 → objNevt s.mem r.addr = 0 → objCause s.mem r.addr ≠ 0 →
    s.roomFor r.addr p [tid.toNat] = true →
    let rec_ := fun o => BitVec.ofNat 64 (readBytes s.mem (r.addr + 128 + o) 8)
    (rec_ 0x110).getLsbD 14 = false → (rec_ 0x110).getLsbD 9 = false →
    ∃ u q, exec (.resumeAccept r.id) s = .next u ∧ u.thread? tid.toNat = some q ∧ q.pc = rec_ 0 ∧ q.pw = rec_ 0x100 ∧
      (∀ x : Reg, x ≠ 0#5 → q.reg x = rec_ (8 * x.toNat)) ∧ q.inHandler = (rec_ 0x110).getLsbD 10 ∧
      (q.run = if (rec_ 0x110).getLsbD 8 then .root else .live) ∧ objState u.mem r.addr = 2 ∧ u.resumes = [] ∧
      ∀ k t, r.issuer = some k → s.thread? k.toNat = some t → ∃ z, u.thread? k.toNat = some z ∧ z.pc = t.pc + 4#64 ∧
        z.wait = none ∧ z.x = t.x

/-- R376, R379, R380, R381: `ccopy` writes a copy in STATE 0 under version 1 with COPIED its source, and changes no byte outside it;
at its end, when the source is as it was, the copy becomes SUSPENDED and the thread goes on; `cdisc` makes a SUSPENDED object under
the version named DISCARDED under the next, from any core (it has no placement, and no origin check: DESIGN CHOICE 56); both take the
trap of the check that fails. `cstat` writes the version, rights, level and state of a valid object of the thread's job, and 15 of
anything else. -/
def Obligations.CopyDiscardAndStatus : Prop :=
  ∀ s tid t, Performs s tid t → Claims.Settled s tid t → t.gang = none → ∀ (d a b : Reg),
    let x := (t.reg a).toNat
    let y := (t.reg b).toNat
    let n := objSize s.mem x
    Claims.InCarafe (t.reg a) 128 →
    (∀ e, s.objFault x t.job 1 = some e → Traps (.ccopy a b) s tid t e (t.reg a)) ∧
    (s.objFault x t.job 1 = none → objState s.mem x ≠ 1 → Traps (.ccopy a b) s tid t 0x18#8 (t.reg a)) ∧
    (s.objFault x t.job 1 = none → objState s.mem x = 1 → objOutcp s.mem x = 0 → Claims.InCarafe (t.reg b) n → 128 ≤ n →
      x + n ≤ y ∨ y + n ≤ x → s.objHeld y t.job = false →
      ∃ u q z, exec (.ccopy a b) s = .next u ∧ u.thread? tid.toNat = some q ∧ q.pc = t.pc ∧ q.x = t.x ∧
        q.wait.map (·.what) = some (.copying x (objVersion s.mem x) y) ∧ objState u.mem y = 0 ∧
        z ∈ u.timed ∧ z.what = .copied tid ∧ s.time ≤ z.due ∧
        ∃ w r, runDue z.what { u with time := z.due } = .next w ∧ w.thread? tid.toNat = some r ∧ r.pc = t.pc + 4#64 ∧
          r.wait = none ∧ r.x = t.x ∧
          objState w.mem y = 1 ∧ objVersion w.mem y = 1#64 ∧ objOutcp w.mem y = 0 ∧ objCopied w.mem y = x ∧
          (∀ k, 0x60 ≤ k → k < n → loadByte w.mem (y + k) = loadByte s.mem (x + k)) ∧
          ∀ k, k < y ∨ y + n ≤ k → loadByte w.mem k = loadByte s.mem k) ∧
    (∀ e, s.objFault x t.job 2 = some e → Traps (.cdisc a b) s tid t e (t.reg a)) ∧
    (s.objFault x t.job 2 = none → objOutcp s.mem x = 0 →
      (objState s.mem x ≠ 1 ∨ objVersion s.mem x ≠ t.reg b → Traps (.cdisc a b) s tid t 0x18#8 (t.reg a)) ∧
      (objState s.mem x = 1 → objVersion s.mem x = t.reg b → s.groups = [] →
        ∃ u q, exec (.cdisc a b) s = .next u ∧ u.thread? tid.toNat = some q ∧ q.pc = t.pc + 4#64 ∧ q.x = t.x ∧
          objState u.mem x = 3 ∧ objNmsg u.mem x = 0 ∧
          objVersion u.mem x = if t.reg b = BitVec.allOnes 64 then 1#64 else t.reg b + 1#64)) ∧
    ∃ u q, exec (.cstat d a) s = .next u ∧ u.thread? tid.toNat = some q ∧ q.pc = t.pc + 4#64 ∧ u.mem = s.mem ∧
      WroteReg t q d (if objValid s.mem x = true ∧ objJob s.mem x = t.job then
        BitVec.ofNat 64 ((objVersion s.mem x).toNat % 2 ^ 48 * 2 ^ 16 + (objRights s.mem x).toNat * 2 ^ 8 +
          objLevel s.mem x * 2 ^ 4 + objState s.mem x) else 15#64) false

/-- R375, R382, R383: `migcore` is ILLEGAL in a core slot. By a house core it ends with code 1 when its target is not free, with
code 2 when the cluster's spare is used, and else after its time, for which R383 gives bounds and the model takes 17,500 cycles on a
die and 25,000 between dies (DESIGN CHOICE 23); the end of the migration of a core to a free one moves, in one step (DEDUCED 58),
every thread with its registers and every byte of the scratchpad, leaves a forwarding entry and code 0. An entry that has
been idle for 16 µs is freed once its FWD frame has been applied on every rank (DEDUCED 59). -/
def Obligations.CoreMigration : Prop :=
  (∀ s tid t, Performs s tid t → ∀ a b : Reg, Claims.Illegal (.migcore a b) s tid t) ∧
  (∀ s n (x : Vector Word 32) (a b : Reg), s.cur = .house n → assocGet n.toNat s.houseX = some x → a ≠ 0#5 → b ≠ 0#5 →
    let c := x[a.toNat].toNat % 4096
    let d := x[b.toNat].toNat % 4096
    (x[b.toNat].getLsbD 63 = false →
      (d = c ∨ s.coreFree d = false → exec (.migcore a b) s = .next { s with migstat := 1#64 }) ∧
      (d ≠ c → s.coreFree d = true → (s.cluster (c / 8)).forward.length < 64 → ∃ u, exec (.migcore a b) s = .next u ∧
        u.threads = s.threads ∧ u.mem = s.mem ∧ ∃ y ∈ u.timed,
          y.what = .liveMigrationComplete (BitVec.ofNat 12 c) (BitVec.ofNat 12 d) false ∧
          y.due = s.time + if c / 1024 = d / 1024 then 17500 else 25000)) ∧
    (x[b.toNat].getLsbD 63 = true → (s.cluster (c / 8)).spareUsed = true →
      exec (.migcore a b) s = .next { s with migstat := 2#64 })) ∧
  (∀ s (c d : CoreId), s.Inv → c ≠ d → s.coreFree d.toNat = true → (s.cluster (c.toNat / 8)).forward.length < 64 →
    s.moveBusy c.toNat = false → s.eccBad = [] → s.febBad = [] →
    (∀ k t, s.thread? k = some t → t.gang = none ∧ t.vres = []) →
    ∃ u e, exec (.liveMigrationComplete c d false) s = .next u ∧ u.migstat = 0#64 ∧
      e ∈ (u.cluster (c.toNat / 8)).forward ∧ e.whole = true ∧ e.src.toNat = c.toNat ∧ e.dst.toNat = d.toNat ∧
      (∀ n t, n < 16 → s.thread? (c.toNat * 16 + n) = some t → u.thread? (c.toNat * 16 + n) = none ∧
        ∃ q, u.thread? (d.toNat * 16 + n) = some q ∧ q.pc = t.pc ∧ q.x = t.x ∧ q.pw = t.pw ∧ q.v = t.v ∧
          (t.run = .live → q.run = .live)) ∧
      ∀ o, o < 0x80000 → loadByte u.mem (0x10000000000 + d.toNat * 0x80000 + o) =
        loadByte s.mem (0x10000000000 + c.toNat * 0x80000 + o)) ∧
  ∀ s (n : BitVec 9) (c : CoreId) e, (s.cluster n.toNat).forward = [e] → e.whole = true → e.src.toNat = c.toNat →
    s.emitQ n.toNat = [] →
    let leaves := fun (f : List Fwd) => ∃ u, exec (.forwardEntryFree n c) s = .next u ∧ (u.cluster n.toNat).forward = f ∧
      u.threads = s.threads ∧ u.mem = s.mem
    (∀ a, e.acked = some a → a ≤ s.time → e.last + 20000 ≤ s.time → (∀ p ∈ s.everyRank, (s.rankEntry p).extractLsb' 61 2 ≠ 1#2) →
      leaves []) ∧
    (e.acked = none → leaves [e]) ∧
    (s.time < e.last + 20000 → ∃ f : Fwd, leaves [f] ∧ f = { e with acked := f.acked })

/-! ### Engine queues and buffer handles (13_tile, 14_transfer) -/

/-- R84, R299, R320, R333, R336: `cmdw`, with earlier accesses performed and room in the queue, pushes 64 bytes and retires:
to q0 one two-word command or two commands of a word each, numbered in push order and seen by the engine after 4 cycles; to
q2 one entry, with the push count, the slot and the thread id in its last dword, its own push counted (DEDUCED 44); to q4 two commands. In a slot that R84
does not allow it is ILLEGAL. A 64-byte store to an alias of q0 or q2 is the same push (R21). -/
def Claims.QueuePushes : Prop :=
  ∀ s tid t, Performs s tid t → Claims.Settled s tid t → s.packets = [] → t.vres = [] → t.gang = none → ∀ v : VReg,
    let c := tid.toNat / 16
    let k := s.core c
    let d := t.vreg v
    let low := d.extractLsb' 0 256
    let high := d.extractLsb' 256 256
    let xfer := k.slotcfg.getLsbD 1
    let pushes := fun (n : BitVec 3) (k' : Core → Prop) => ∃ u q, exec (.cmdw n v) s = .next u ∧
      u.thread? tid.toNat = some q ∧ q.pc = t.pc + 4#64 ∧ q.instret = t.instret + 1#64 ∧ q.x = t.x ∧ q.v = t.v ∧
      u.mem = s.mem ∧ (∀ j, j ≠ c → u.core j = s.core j) ∧ k' (u.core c)
    (k.q0.length + 2 ≤ 16 → pushes 0#3 fun k' => ∃ x y,
      if d.toNat % 256 ∈ [1, 2, 3] then k' = { k with q0 := k.q0 ++ [x], cmdCount := k.cmdCount + 1#64 } ∧ x.two = true ∧
        x.word = low ∧ x.word1 = high ∧ x.seq = k.cmdCount + 1#64 ∧ x.group = t.group ∧ x.ready = s.time + 4
      else k' = { k with q0 := k.q0 ++ [x, y], cmdCount := k.cmdCount + 2#64 } ∧ x.word = low ∧ y.word = high ∧
        x.two = false ∧ y.two = false ∧ x.seq = k.cmdCount + 1#64 ∧ y.seq = k.cmdCount + 2#64 ∧
        x.group = t.group ∧ y.group = t.group ∧ x.ready = s.time + 4) ∧
    (xfer = true → tid.toNat % 16 ≠ 15 → (∀ j p, s.thread? j = some p → p.wait = none) →
      ∀ n : Fin 4, k.q2[n] = none → (∀ m : Fin 4, m < n → k.q2[m] ≠ none) →
      pushes 2#3 fun k' => ∃ m, k' = { k with q2 := k.q2.set n (some m), mseq := k.mseq + 1#32 } ∧ m.group = t.group ∧
        m.data.toNat % 2 ^ 448 = d.toNat % 2 ^ 448 ∧
        m.data.toNat / 2 ^ 448 = (k.mseq + 1#32).toNat * 2 ^ 32 + tid.toNat % 16 * 2 ^ 24 + (s.ownRank t.job ++ tid).toNat) ∧
    (xfer = true → tid.toNat % 16 = 15 → k.q4.length + 2 ≤ 8 → pushes 4#3 fun k' => ∃ x y,
      k' = { k with q4 := k.q4 ++ [x, y], copyCount := k.copyCount + 2#64 } ∧ x.word = low ∧ y.word = high ∧
        x.seq = k.copyCount + 1#64 ∧ y.seq = k.copyCount + 2#64 ∧
        (x.gtid, x.group) = k.requester.getD (s.ownRank t.job ++ tid, t.group)) ∧
    (∀ n : BitVec 3, n ∈ [1#3, 3#3, 5#3, 6#3, 7#3] ∨ n = 2#3 ∧ (xfer = false ∨ tid.toNat % 16 = 15) ∨
      n = 4#3 ∧ (xfer = false ∨ tid.toNat % 16 ≠ 15) → Claims.Illegal (.cmdw n v) s tid t) ∧
    ∀ (a : Reg) (sc : BitVec 6) win, let ea := t.reg a + 64#64 * sc.signExtend 64
      (ea = 0x80000#64 → exec (.vst v a sc .plain win) s = exec (.cmdw 0#3 v) s) ∧
      (ea = 0x80040#64 → xfer = true → tid.toNat % 16 ≠ 15 → exec (.vst v a sc .plain win) s = exec (.cmdw 2#3 v) s)

/-- R310, R321, R322, R341: `qpop` of a queue that holds records pops the oldest into its lanes and, for a thread of its
group, merges its flags; of an empty one it waits with the default limit, and a queue of no slot's is ILLEGAL. `qstat`
reads the capacity and the used entries of a queue; q6 and q7 are ILLEGAL. -/
def Claims.QueueReads : Prop :=
  ∀ s tid t, Performs s tid t → t.vres = [] → t.latchCnt = none → ∀ (v : VReg) (d : Reg),
    let c := tid.toNat / 16
    let k := s.core c
    let moves := k.slotcfg.getLsbD 1 = true ∧ tid.toNat % 16 = 15
    (∀ n copy r rest, (n, copy, r :: rest) = (1#3, false, k.q1) ∨ (n, copy, r :: rest) = (5#3, true, k.q5) ∧ moves →
      ∃ u q, exec (.qpop v n) s = .next u ∧ u.thread? tid.toNat = some q ∧ q.pc = t.pc + 4#64 ∧ q.x = t.x ∧
        Claims.lane (q.vreg v) 64 0 = r.status.toNat ∧ Claims.lane (q.vreg v) 64 1 = r.seq.toNat ∧
        Claims.lane (q.vreg v) 64 2 = r.gtid.toNat ∧
        Claims.lane (q.vreg v) 64 3 = (if copy then r.written.toNat % 2 ^ 40 else 0) ∧
        (∀ x, x ≠ v → q.vreg x = t.vreg x) ∧ u.mem = s.mem ∧
        u.core c = (if copy then { k with q5 := rest } else { k with q1 := rest }) ∧
        q.vflags = if t.group = r.group then t.vflags ||| (r.status.extractLsb' 8 6).setWidth 64 else t.vflags) ∧
    (k.q1 = [] → k.copies = [] → k.q0 = [] → ∃ u q w, exec (.qpop v 1#3) s = .next u ∧ u.thread? tid.toNat = some q ∧
      q.pc = t.pc ∧ q.wait = some w ∧ w.what = .qpop v 1#3 ∧ w.limit = some (t.synclim.setWidth 32).toNat ∧
      w.eval = 1#64 ∧ u.core c = k ∧ u.mem = s.mem) ∧
    (∀ n : BitVec 3, n ∈ [0#3, 2#3, 3#3, 4#3, 6#3, 7#3] ∨ n = 5#3 ∧ ¬ moves → Claims.Illegal (.qpop v n) s tid t) ∧
    (let busy := match k.q0Work, k.q0Phase with
      | _ :: _, _ => 1
      | [], .checking _ _ => 1
      | [], _ => 0
     let head := (if k.mefault.getLsbD 63 then 2 ^ 32 else 0) + busy * 2 ^ 33
     (k.q0.length < 65536 → Yields (.qstat d 0#3) s tid t d (BitVec.ofNat 64 (head + 16 * 2 ^ 16 + k.q0.length)) false) ∧
     Yields (.qstat d 1#3) s tid t d (BitVec.ofNat 64 (32 * 2 ^ 16 + k.q1.length)) false ∧
     Yields (.qstat d 2#3) s tid t d (BitVec.ofNat 64 (4 * 2 ^ 16 + (k.q2.toList.countP (·.isSome)))) false ∧
     Yields (.qstat d 3#3) s tid t d
       (BitVec.ofNat 64 ((k.inboxs.extractLsb' 0 16).toNat * 2 ^ 16 + (k.inboxs.extractLsb' 32 16).toNat)) false ∧
     Yields (.qstat d 4#3) s tid t d (BitVec.ofNat 64 (8 * 2 ^ 16 + k.q4.length)) false ∧
     Yields (.qstat d 5#3) s tid t d (BitVec.ofNat 64 (16 * 2 ^ 16 + k.q5.length)) false ∧
     Claims.Illegal (.qstat d 6#3) s tid t ∧ Claims.Illegal (.qstat d 7#3) s tid t)

/-- cmdw, qpop and qstat on the queues of a core: `Claims.QueuePushes`, `Claims.QueueReads`. That MSEQ counts its own push is
DEDUCED 44. -/
def Obligations.QueuePushesAndReads : Prop :=
  Claims.QueuePushes ∧ Claims.QueueReads

/-- R303, R312, R313, R323, R324: `radv` adds tiles to a valid ring that has room, and raises RINGOVF otherwise; by 0 it
only retires. On a hold of a command of the thread's group: `mesc` sets MESCALE, `mereplay` clears HELD and lets the
command start again after 4 cycles, a pause of the queue over (R316), `meskip` completes an overflowing command with DETAIL 0x8000 and removes an illegal
one; without such a hold the three are ILLEGAL. -/
def Obligations.RingsAndHolds : Prop :=
  ∀ s tid t, Performs s tid t → Claims.Settled s tid t → t.gang = none → ∀ (a : Reg) (n : BitVec 3),
    let c := tid.toNat / 16
    let k := s.core c
    let v := t.reg a
    let tile := (k.ringTile[n.toNat]?).getD 0#64
    let size := (k.ringSize[n.toNat]?).getD 0#64
    let tail := (k.ringTail[n.toNat]?).getD 0#64
    (v = 0#64 → GoesTo (.radv n a) s tid t (t.pc + 4#64)) ∧
    (v ≠ 0#64 → k.ringValid n.toNat = true → k.ringOcc n.toNat + v.toNat ≤ size.toNat / tile.toNat → v.toNat < 2 ^ 32 →
      ∃ u q, exec (.radv n a) s = .next u ∧ u.thread? tid.toNat = some q ∧ q.pc = t.pc + 4#64 ∧ q.x = t.x ∧
        u.core c = { k with ringTail := k.ringTail.setIfInBounds n.toNat (BitVec.ofNat 64 ((tail.toNat + v.toNat) % 2 ^ 32)) } ∧
        u.mem = s.mem) ∧
    (v ≠ 0#64 → 2 ^ 32 ≤ v.toNat ∨ k.ringValid n.toNat = false ∨ size.toNat / tile.toNat < k.ringOcc n.toNat + v.toNat →
      Traps (.radv n a) s tid t 0x14#8 v) ∧
    (k.mefault.getLsbD 63 = false ∨ (∀ h ∈ k.q0.head?, h.group ≠ t.group) →
      Claims.Illegal (.mesc a) s tid t ∧ Claims.Illegal .mereplay s tid t ∧ Claims.Illegal .meskip s tid t) ∧
    ∀ h rest, k.mefault.getLsbD 63 = true → k.q0 = h :: rest → h.group = t.group →
      let free := k.mefault &&& 0x7FFFFFFFFFFFFFFF#64
      let retires := fun (i : Instr) (k' : Core) => ∃ u q, exec i s = .next u ∧ u.thread? tid.toNat = some q ∧
        q.pc = t.pc + 4#64 ∧ q.x = t.x ∧ u.core c = k' ∧ ∀ j, j ≠ tid.toNat → u.thread? j = s.thread? j
      (k.mefault.extractLsb' 60 3 = 1#3 →
        (v.toNat ≤ 0xFE → retires (.mesc a) { k with mescale := v }) ∧
        (0xFE < v.toNat → Claims.Illegal (.mesc a) s tid t) ∧
        retires .mereplay { k with mefault := free, q0Phase := .queued, q0Ready := max k.q0Ready (s.time + 4) } ∧
        ∃ w, w.extractLsb' 16 16 = 0x8000#16 ∧ w.extractLsb' 0 8 = 0#8 ∧ w.extractLsb' 56 8 = h.word.extractLsb' 0 8 ∧
          retires .meskip { k with mefault := free, q0Phase := .queued
                                   q0Work := [{ status := w, due := s.time + 1, writes := [], pops := false }] }) ∧
      (k.mefault.extractLsb' 60 3 = 2#3 →
        Claims.Illegal (.mesc a) s tid t ∧ Claims.Illegal .mereplay s tid t ∧
        retires .meskip { k with mefault := free, q0 := rest, q0Phase := .queued })

/-- The word that `hstat` reads (R344). -/
def Claims.handleWord (e : Handle) : Word :=
  BitVec.ofNat 64 ((if e.bound then 2 ^ 63 else 0) +
    (match e.st with | .free => 0 | .filling => 1 | .full => 2 | .draining => 3) * 2 ^ 58 + e.len.toNat * 2 ^ 32 + e.base.toNat)

/-- R344, R345, R350, R351, R352, R353, R354: buffer handles and `xtake`. `hbind` binds the lowest unbound handle to a
region that meets no bound one, and returns its number; `hwait` retires in the state it names and waits otherwise;
`hdrain` drains a FULL handle, to FREE when no copy-out names it; `hfree` unbinds a FREE handle; `hstat` reads the entry.
A number above 63 raises HSTATE in each of them, an unbound handle in `hwait` and `hdrain` (`hfree` of one does nothing and `hstat`
reads it), and a wrong state in `hdrain` and `hfree`. `xtake` gives the transfer slot the oldest request
and its requester, and waits while there is none. -/
def Obligations.HandlesAndRequests : Prop :=
  ∀ s tid t, Performs s tid t → Claims.Settled s tid t → t.vres = [] → t.gang = none → t.latchCnt = none →
    ∀ (d a b : Reg) (v : VReg) st,
    let c := tid.toNat / 16
    let k := s.core c
    let x := t.reg a
    let n := t.reg b
    let legal := x.toNat % 16 = 0 ∧ n.toNat % 16 = 0 ∧ n ≠ 0#64 ∧ x.toNat + n.toNat ≤ 0x80000
    let meets := ∃ e ∈ k.handles.toList, e.bound = true ∧ e.base.toNat < x.toNat + n.toNat ∧
      x.toNat < e.base.toNat + e.len.toNat
    (¬ legal → Traps (.hbind d a b) s tid t 0x02#8 x) ∧
    (legal → meets → Yields (.hbind d a b) s tid t d 0xFFFFFFFFFFFFFFFE#64 false) ∧
    (legal → ¬ meets → (∀ e ∈ k.handles.toList, e.bound = true) →
      Yields (.hbind d a b) s tid t d 0xFFFFFFFFFFFFFFFF#64 false) ∧
    (legal → ¬ meets → ∀ i : Fin 64, k.handles[i].bound = false → (∀ j : Fin 64, j < i → k.handles[j].bound = true) →
      ∃ u q e, exec (.hbind d a b) s = .next u ∧ u.thread? tid.toNat = some q ∧ q.pc = t.pc + 4#64 ∧
        WroteReg t q d (BitVec.ofNat 64 i) false ∧ u.core c = { k with handles := k.handles.set i e } ∧ e.bound = true ∧
        e.st = .free ∧ e.base.toNat = x.toNat ∧ e.len.toNat = n.toNat ∧ e.group = t.group ∧ u.mem = s.mem) ∧
    (64 ≤ x.toNat → Traps (.hwait a st) s tid t 0x13#8 x ∧ Traps (.hdrain a) s tid t 0x13#8 x ∧
      Traps (.hfree a) s tid t 0x13#8 x ∧ Traps (.hstat d a) s tid t 0x13#8 x) ∧
    (∀ i : Fin 64, x.toNat = i →
      let e := k.handles[i]
      let becomes := fun (j : Instr) (e' : Handle) => ∃ u q, exec j s = .next u ∧ u.thread? tid.toNat = some q ∧
        q.pc = t.pc + 4#64 ∧ q.x = t.x ∧ u.core c = { k with handles := k.handles.set i e' } ∧ u.mem = s.mem
      Yields (.hstat d a) s tid t d (Claims.handleWord e) false ∧
      (e.bound = false → Traps (.hwait a st) s tid t 0x13#8 x ∧ Traps (.hdrain a) s tid t 0x13#8 x ∧
        GoesTo (.hfree a) s tid t (t.pc + 4#64)) ∧
      (e.bound = true →
        (e.st = st → GoesTo (.hwait a st) s tid t (t.pc + 4#64)) ∧
        (e.st ≠ st → k.copies = [] → s.thread? (c * 16 + 15) = none → ∃ u q w, exec (.hwait a st) s = .next u ∧
          u.thread? tid.toNat = some q ∧ q.pc = t.pc ∧ q.wait = some w ∧ w.what = .handle (BitVec.ofNat 6 i) st ∧
          w.limit = some (t.synclim.setWidth 32).toNat ∧ u.core c = k) ∧
        (e.st ≠ .full → Traps (.hdrain a) s tid t 0x13#8 x) ∧
        (e.st ≠ .free → Traps (.hfree a) s tid t 0x13#8 x) ∧
        (e.st = .free → becomes (.hfree a) { bound := false, st := .free, len := 0, base := 0, group := 0 }) ∧
        (e.st = .full → k.copies = [] → s.packets = [] → (∀ j p, s.thread? j = some p → p.wait = none ∧ p.run = .live) →
          becomes (.hdrain a) { e with st := .free }))) ∧
    (k.slotcfg.getLsbD 1 = false ∨ tid.toNat % 16 ≠ 15 → Claims.Illegal (.xtake v) s tid t) ∧
    (k.slotcfg.getLsbD 1 = true → tid.toNat % 16 = 15 →
      (k.q2 = Vector.replicate 4 none → ∃ u q, exec (.xtake v) s = .next u ∧ u.thread? tid.toNat = some q ∧ q.pc = t.pc ∧
        q.wait.map (·.what) = some (.xtake v) ∧ u.core c = k) ∧
      ∀ (i : Fin 4) m, k.q2[i] = some m → (∀ (j : Fin 4) y, j ≠ i → k.q2[j] = some y → m.order < y.order) →
        ∃ u q, exec (.xtake v) s = .next u ∧ u.thread? tid.toNat = some q ∧ q.pc = t.pc + 4#64 ∧
          Claims.WroteV t q v m.data ∧ u.mem = s.mem ∧
          u.core c = { k with q2 := k.q2.set i none, requester := some ((m.data.extractLsb' 448 64).extractLsb' 0 22, m.group) })

/-! ### Messages, casts, barriers and timelines (11_sync) -/

/-- No thread waits, and no core holds queued casts. -/
structure Claims.Quiet (s : State) : Prop where
  threads : ∀ k p, s.thread? k = some p → p.wait = none
  casts : ∀ c, (s.core c).castQ = []
  susps : s.susps = []

/-- `i` puts one frame at the end of the emit queue of its cluster's station, or of its rank's hub, from which a capture may take
it 9 cycles later, and its thread waits for the frame's application; nothing else changes (R256, R262, R269 to R272). -/
def Claims.Emits (i : Instr) (s : State) (tid : BitVec 16) (t : Thread) (ty : FrameType) (act : FrameAct) (obj : BitVec 10)
    (payload : BitVec 256) (hub : Bool := false) : Prop :=
  let n := if hub then 512 else tid.toNat / 128
  ∃ u q, exec i s = .next u ∧ u.thread? tid.toNat = some q ∧ q.pc = t.pc ∧ q.x = t.x ∧ q.pw = t.pw ∧ q.run = t.run ∧
    q.promises = t.promises ∧ q.wait.map (·.what) = some (.frame ty act obj) ∧ q.wait.map (·.limit) = some none ∧
    (∀ k, k ≠ tid.toNat → u.thread? k = s.thread? k) ∧ u = { s with threads := u.threads, emit := u.emit, fresh := u.fresh } ∧
    (∀ m, m ≠ n → u.emitQ m = s.emitQ m) ∧
    u.emitQ n = s.emitQ n ++ [{ ty := ty, first := false, due := s.time + 9, f :=
      { station := BitVec.ofNat 10 n, obj := obj, gtid := s.ownRank t.job ++ tid, job := t.job, count := 0#3, root := false, payload := payload } }]

/-- Bytes that a record of a message takes (R251). -/
def Claims.recordBytes (len : BitVec 2) : Nat := 32 + 16 * len.toNat

/-- R253, R267, R203: `send`. A reserved tag is ILLEGAL; a destination that names no thread of a valid rank raises
ACCESSFAULT, and a message larger than its inbox MSGSIZE. Otherwise, with its release done and an outbound entry free,
the message enters the slot's outbound queue, the thread goes on, and its promise of the message is fulfilled; the first
message of a queue is on its way at once, when the core regulates no class and no packet waits before it. -/
def Claims.Sends : Prop :=
  ∀ s tid t, Performs s tid t → Claims.Settled s tid t → Claims.Calm s → t.vres = [] → t.gang = none →
    ∀ (a : Reg) (b : VReg) (tag : BitVec 4) (len : BitVec 2),
    let d := t.reg a
    let c := tid.toNat / 16
    let slot := BitVec.ofNat 4 tid.toNat
    let named := d.toNat < 2 ^ 22 ∧ (s.rankEntry { job := t.job, rank := d.extractLsb' 16 6 }).getLsbD 63 = true
    let own := d.toNat / 2 ^ 16 = (s.ownRank t.job).toNat
    let room := (assocGet (d.toNat / 16 % 4096) s.capacity).getD (if s.enabled then 4096 else 0)
    let queued := (s.core c).outq.countP fun x => x.1 == slot
    (tag = 15#4 → Claims.Illegal (.send a b tag len) s tid t) ∧
    (tag ≠ 15#4 →
      (¬ named → Traps (.send a b tag len) s tid t 0x02#8 d) ∧
      (named → own → room < Claims.recordBytes len → Traps (.send a b tag len) s tid t 0x0A#8 d) ∧
      (named → own → Claims.recordBytes len ≤ room → queued < 4 → s.packets = [] → Claims.NoneAtPort s →
        (∀ n : Fin 4, ((s.core c).fabqos[n]).extractLsb' 4 16 = 0#16) → s.messageOut tid.toNat = false →
        ∃ u q, exec (.send a b tag len) s = .next u ∧ u.thread? tid.toNat = some q ∧ q.pc = t.pc + 4#64 ∧
          q.instret = t.instret + 1#64 ∧ q.x = t.x ∧ q.pw = t.pw ∧ q.v = t.v ∧ u.mem = s.mem ∧ u.full = s.full ∧
          (∀ k, k ≠ tid.toNat → u.thread? k = s.thread? k) ∧ (∀ j, j ≠ c → u.core j = s.core j) ∧
          (∀ i : Fin 8, q.promises[i] =
            if t.promises[i] = some (.tag (d.setWidth 22) tag) then none else t.promises[i]) ∧
          (∃ m : OutMsg, u.core c = { s.core c with outq := (s.core c).outq ++ [(slot, m)] } ∧ m.job = t.job ∧ m.dest = d.setWidth 22 ∧
            m.tag = tag ∧ m.len = len ∧ m.payload.toNat = (t.vreg b).toNat % 2 ^ (128 * (len.toNat + 1))) ∧
          (queued = 0 → ∃ y ∈ u.timed, y.what = .messageOffer tid ∧ s.time + 4 ≤ y.due)) ∧
      (named → own → Claims.recordBytes len ≤ room → 4 ≤ queued → ∃ u q, exec (.send a b tag len) s = .next u ∧
        u.thread? tid.toNat = some q ∧ q.pc = t.pc ∧ q.wait.map (·.what) = some (.again .outbound) ∧ u.cores = s.cores))

/-- R250, R251, R252, R253: an offer of a slot's oldest message. A suspended destination bounces it, with KIND 2 and
REASON 1, to its sender's inbox, which drops it when it has no ring; a ring with room takes it, at its tail when the record
fits before the end and at its start after a pad otherwise, with SEQ, the sender, the kind, the length and the tag in its
header; no regulated core is meant, whose offers wait for their tokens (R223); a full ring refuses it, and it is offered again after 64 cycles; an empty ring begins anew first. -/
def Claims.MessageOffers : Prop :=
  ∀ s (tid : BitVec 16) m rest, s.Inv → Claims.Calm s → Claims.Quiet s → s.eccBad = [] → s.febBad = [] → s.eccOne = [] →
    m.dest.extractLsb' 16 6 = s.ownRank m.job → (∀ x ∈ rest, x.2.dest.extractLsb' 16 6 = s.ownRank x.2.job) →
    s.packets = [] → Claims.NoneAtPort s → (∀ n : Fin 4, ((s.core (tid.toNat / 16)).fabqos[n]).extractLsb' 4 16 = 0#16) →
    (s.core (tid.toNat / 16)).outq = (BitVec.ofNat 4 tid.toNat, m) :: rest →
    let home := tid.toNat / 16
    let dest := m.dest.extractLsb' 0 16
    let c := dest.toNat / 16
    let k := s.core c
    let size := (k.inboxs.extractLsb' 0 16).toNat * 16
    let used := (k.inboxs.extractLsb' 32 16).toNat * 16
    let tail := if used = 0 then 0 else (k.inboxb.extractLsb' 32 16).toNat * 16
    let base := 0x10000000000 + c * 0x80000 + (k.inboxb.extractLsb' 4 15).toNat * 16
    let n := Claims.recordBytes m.len
    let word := fun (u : State) (a : Nat) => BitVec.ofNat 64 (readBytes u.mem a 8)
    let record := fun (u : State) (a : Nat) =>
      word u a = k.inboxSeq ++ (0#2 : BitVec 2) ++ s.ownRank m.job ++ tid ++ 0#2 ++ m.len ++ m.tag ∧
      (word u (a + 8)).extractLsb' 16 48 = BitVec.ofNat 48 s.time ∧ (word u (a + 8)).extractLsb' 0 4 = dest.setWidth 4 ∧
      readBytes u.mem (a + 16) (n - 16) = m.payload.toNat % 2 ^ (8 * (n - 16))
    let taken := fun (u : State) => (u.core home).outq = rest ∧ ∀ j, u.thread? j = s.thread? j
    let offers := [Instr.messageOffer tid, .messageReoffer tid]
    (k.marks.getLsbD (dest.toNat % 16) = true → (s.core home).inboxs = 0#64 → ∀ i ∈ offers, ∃ u, exec i s = .next u ∧
      taken u ∧ u.mem = s.mem ∧ (u.core home).inboxs = 0x0001000000000000#64) ∧
    (k.marks.getLsbD (dest.toNat % 16) = false → (k.inboxb.extractLsb' 4 15).toNat * 16 + size ≤ 0x80000 →
      (used + n ≤ size → tail + n ≤ size → ∀ i ∈ offers, ∃ u, exec i s = .next u ∧ taken u ∧
        record u (base + tail) ∧ (u.core c).inboxSeq = k.inboxSeq + 1#32 ∧
        ((u.core c).inboxs.extractLsb' 32 16).toNat * 16 = used + n ∧
        ((u.core c).inboxb.extractLsb' 32 16).toNat * 16 = (tail + n) % size ∧
        ∀ a, a < base + tail ∨ base + tail + n ≤ a → loadByte u.mem a = loadByte s.mem a) ∧
      (used + (size - tail) + n ≤ size → size < tail + n → ∀ i ∈ offers, ∃ u, exec i s = .next u ∧ taken u ∧
        record u base ∧ word u (base + tail) = 0x40#64 ∧ (u.core c).inboxSeq = k.inboxSeq + 1#32 ∧
        ((u.core c).inboxs.extractLsb' 32 16).toNat * 16 = used + (size - tail) + n ∧
        ((u.core c).inboxb.extractLsb' 32 16).toNat * 16 = n) ∧
      (size < used + n ∨ size < tail + n ∧ size < used + (size - tail) + n → ∀ i ∈ offers, ∃ u, exec i s = .next u ∧
        (∀ j, j ≠ c → u.core j = s.core j) ∧ u.threads = s.threads ∧ u.mem = s.mem ∧
        (∃ b : Word, u.core c = { k with inboxb := b } ∧ (used ≠ 0 → b = k.inboxb) ∧
          (used = 0 → b.extractLsb' 32 32 = 0#32 ∧ b.extractLsb' 0 32 = k.inboxb.extractLsb' 0 32)) ∧
        ∃ y ∈ u.timed, y.what = .messageReoffer tid ∧ y.due = s.time + 64))

/-- R257, R268: `recv`, `peek` and `btag` on the record at the head of the inbox. `recv` and `peek` write dword 0 of its
header to rd and its payload to the vector register, zero above its length, and `recv` takes the record out; `btag` goes to
its target plus four times the tag. On an empty inbox each waits with the default limit. -/
def Claims.MessageReads : Prop :=
  ∀ s tid t, Performs s tid t → Claims.Quiet s → Claims.Calm s → t.vres = [] → t.gang = none → t.latchCnt = none →
    ∀ (d : Reg) (v : VReg) (off : BitVec 12),
    let c := tid.toNat / 16
    let k := s.core c
    let size := (k.inboxs.extractLsb' 0 16).toNat * 16
    let used := (k.inboxs.extractLsb' 32 16).toNat * 16
    let head := (k.inboxb.extractLsb' 48 16).toNat * 16
    let at_ := 0x10000000000 + c * 0x80000 + (k.inboxb.extractLsb' 4 15).toNat * 16 + head
    let w := BitVec.ofNat 64 (readBytes s.mem at_ 8)
    let n := Claims.recordBytes (w.extractLsb' 4 2)
    let to_ := t.pc + 2#64 * off.signExtend 64 + 4#64 * (w.extractLsb' 0 4).setWidth 64
    let reads := fun (i : Instr) (p : State → Prop) => ∃ u q, exec i s = .next u ∧ u.thread? tid.toNat = some q ∧
      q.pc = t.pc + 4#64 ∧ q.instret = t.instret + 1#64 ∧ WroteReg t q d w false ∧ q.pw = t.pw ∧
      q.vreg v = BitVec.ofNat 512 (readBytes s.mem (at_ + 16) (n - 16)) ∧ (∀ x, x ≠ v → q.vreg x = t.vreg x) ∧
      u.mem = s.mem ∧ (∀ j, j ≠ tid.toNat → u.thread? j = s.thread? j) ∧ p u
    let waits := fun (i : Instr) (x : WaitFor) => ∃ u q y, exec i s = .next u ∧ u.thread? tid.toNat = some q ∧
      q.pc = t.pc ∧ q.x = t.x ∧ q.wait = some y ∧ y.what = x ∧ y.limit = some (t.synclim.setWidth 32).toNat ∧
      y.count = 0 ∧ u.mem = s.mem ∧ u.cores = s.cores
    (used ≠ 0 → n ≤ used → used ≤ size → (k.inboxb.extractLsb' 4 15).toNat * 16 + size ≤ 0x80000 →
      w.extractLsb' 6 2 ≠ 1#2 →
      reads (.peek d v) (fun u => u.cores = s.cores) ∧
      reads (.recv d v) (fun u => (∀ j, j ≠ c → u.core j = s.core j) ∧
        ((u.core c).inboxs.extractLsb' 32 16).toNat * 16 = used - n ∧
        ((u.core c).inboxb.extractLsb' 48 16).toNat * 16 = (head + n) % size ∧
        (u.core c).inboxSeq = k.inboxSeq) ∧
      (to_.toNat % 4 = 0 → GoesTo (.btag off) s tid t to_) ∧
      (to_.toNat % 4 ≠ 0 → Traps (.btag off) s tid t 0x03#8 to_)) ∧
    (used = 0 → waits (.recv d v) (.recv d v) ∧ waits (.peek d v) (.peek d v) ∧ waits (.btag off) (.btag off))

/-- R255, R269: `cast` and `castsub`. A channel above 63 raises POURFMT, as does a `castsub` operand above 1, and a channel
that is not assigned to the thread's job OBJTYPE. A `cast` emits a CAST frame with the channel and the low 32 bytes of its
register; `castsub` sets or clears the channel's bit in the core's subscription and changes nothing else. -/
def Claims.CastInstructions : Prop :=
  ∀ s tid t, Performs s tid t → Claims.Settled s tid t → s.resync = [] → t.vres = [] → t.gang = none → t.latchCnt = none →
    ∀ (a b : Reg) (v : VReg) (j : Job),
    let ch := (t.reg a).toNat
    let x := t.reg b
    let c := tid.toNat / 16
    (63 < ch → Traps (.cast a v) s tid t 0x10#8 (t.reg a) ∧ Traps (.castsub a b) s tid t 0x10#8 (t.reg a)) ∧
    (ch ≤ 63 → 1 < x.toNat → Traps (.castsub a b) s tid t 0x10#8 x) ∧
    (s.jobs = [j] → j.id = t.job → ch ≤ 63 →
      (j.channels.getLsbD ch = false → Traps (.cast a v) s tid t 0x11#8 (t.reg a) ∧
        (x.toNat ≤ 1 → Traps (.castsub a b) s tid t 0x11#8 (t.reg a))) ∧
      (j.channels.getLsbD ch = true →
        ((s.emitQ (tid.toNat / 128)).length < 16 →
          Claims.Emits (.cast a v) s tid t .cast .cast (BitVec.ofNat 10 ch) ((t.vreg v).setWidth 256)) ∧
        (x.toNat ≤ 1 → ∃ u q, exec (.castsub a b) s = .next u ∧ u.thread? tid.toNat = some q ∧ q.pc = t.pc + 4#64 ∧
          q.x = t.x ∧ q.pw = t.pw ∧ u.mem = s.mem ∧ (∀ n, n ≠ c → u.core n = s.core n) ∧ ∃ w : Word,
            u.core c = { s.core c with subs := w } ∧ (w.getLsbD ch = decide (x = 1#64)) ∧
            ∀ n, n < 64 → n ≠ ch → w.getLsbD n = (s.core c).subs.getLsbD n)))

/-- Messages and casts: `Claims.Sends`, `Claims.MessageOffers`, `Claims.MessageReads`, `Claims.CastInstructions`. -/
def Obligations.MessagesAndCasts : Prop :=
  Claims.Sends ∧ Claims.MessageOffers ∧ Claims.MessageReads ∧ Claims.CastInstructions

/-- The forms on a Pour object whose index is in a register, each with the kind of object it acts on and whether it claims
a free one (R270, R271). -/
def Claims.objectForms (d a b c : Reg) : List (Instr × BitVec 2 × Bool) :=
  [(.barInit a b, 1, true), (.barReg a, 1, false), (.barArr a, 1, false), (.barWait a b, 1, false), (.barStat d a, 1, false),
   (.tlInit a b, 2, true), (.tlAdd a b, 2, false), (.tlSet a b, 2, false), (.tlWait a b c, 2, false), (.tlRd d a, 2, false)]

/-- R259, R270, R271, R392: every form on a barrier or a timeline raises POURFMT for an index above 1023, and OBJTYPE for an object
that its station's mirror holds with another kind or for another job; an init also takes a free object. A thread that came to a
resynchronising station from one that had seen more waits first, and is not meant. -/
def Claims.ObjectChecks : Prop :=
  ∀ s tid t, Performs s tid t → ∀ (d a b c : Reg), ∀ x ∈ Claims.objectForms d a b c,
    let i := (t.reg a).toNat
    let o := s.mirrorObj (tid.toNat / 128) i
    (1023 < i → Traps x.1 s tid t 0x10#8 (t.reg a)) ∧
    (i ≤ 1023 → (∀ m, s.frozenAt (tid.toNat / 128) = some m → tid.toNat ∉ m.late) → ¬ (o.kind = x.2.1 ∧ o.job = t.job) → ¬ (x.2.2 = true ∧ o.kind = 0#2) →
      Traps x.1 s tid t 0x11#8 (t.reg a))

/-- R203, R262, R270: barriers. `bar.init` raises POURFMT for a malformed control word and emits BARINIT otherwise, that of a domain
barrier from the rank's hub; `bar.reg`
records the promise of an arrival in the lowest free entry unless it is there, and raises PROMISEFULL without one; `bar.arr`
emits BARARR, or sends a packet to the home of a domain barrier, whose acknowledgement brings the present phase or the next
(DEDUCED 51); `bar.wait` goes on when PHASE has passed the phase that the
slot's arrival recorded, or else the present one, and waits otherwise; `bar.stat` reads PHASE, ARR and WHELD. -/
def Claims.BarrierInstructions : Prop :=
  ∀ s tid t, Performs s tid t → Claims.Settled s tid t → s.resync = [] → t.latchCnt = none → ∀ (d a b : Reg),
    (t.reg a).toNat ≤ 1023 →
    let i := (t.reg a).setWidth 10
    let o := s.pourObj (t.reg a).toNat
    let v := t.reg b
    let room := (s.emitQ (tid.toNat / 128)).length < 16
    let formed := (v &&& ~~~0x3F0100FFFFFF#64) = 0#64 ∧ v.extractLsb' 0 24 ≠ 0#24 ∧
      (v.getLsbD 32 = true → v.extractLsb' 40 6 = s.ownRank t.job)
    (o.kind = 0#2 ∨ o.kind = 1#2 ∧ o.job = t.job →
      (¬ formed → Traps (.barInit a b) s tid t 0x10#8 v) ∧
      (formed → (if v.getLsbD 32 then (s.emitQ 512).length < 16 else room) →
        ∃ p, Claims.Emits (.barInit a b) s tid t .barinit (.init true) i p (v.getLsbD 32) ∧ p.extractLsb' 0 2 = 1#2 ∧
        p.getLsbD 2 = v.getLsbD 32 ∧ p.extractLsb' 8 6 = v.extractLsb' 40 6 ∧ p.extractLsb' 32 32 = t.job ∧
        p.extractLsb' 64 24 = v.extractLsb' 0 24)) ∧
    (o.kind = 1#2 → o.job = t.job →
      (some (.barrier i) ∈ t.promises.toList → GoesTo (.barReg a) s tid t (t.pc + 4#64)) ∧
      (some (.barrier i) ∉ t.promises.toList →
        (none ∉ t.promises.toList → Traps (.barReg a) s tid t 0x0E#8 (t.reg a)) ∧
        ∀ n : Fin 8, t.promises[n] = none → (∀ m : Fin 8, m < n → t.promises[m] ≠ none) → t.gang = none →
          ∃ u q, exec (.barReg a) s = .next u ∧ u.thread? tid.toNat = some q ∧ q.pc = t.pc + 4#64 ∧ q.x = t.x ∧
            q.promises = t.promises.set n (some (.barrier i)) ∧ u = { s with threads := u.threads } ∧
            ∀ k, k ≠ tid.toNat → u.thread? k = s.thread? k) ∧
      (o.scope = false ∨ o.home = s.ownRank t.job → room → Claims.Emits (.barArr a) s tid t .bararr .arrive i 0#256) ∧
      (let e := s.rankEntry { job := t.job, rank := o.home }
       o.scope = true → o.home ≠ s.ownRank t.job → e.getLsbD 63 = true → e.extractLsb' 61 2 = 0#2 → ∃ u q y f, exec (.barArr a) s = .next u ∧
          u.thread? tid.toNat = some q ∧ q.pc = t.pc ∧ q.wait.map (·.what) = some (.frame .bararr .arrive i) ∧
          y ∈ u.timed ∧ y.what = .domainBarrierPacket .bararr f ∧ s.time + 24 ≤ y.due ∧ f.obj = i ∧
          f.gtid = s.ownRank t.job ++ tid ∧ f.payload ∈ [o.phase.setWidth 256, (o.phase + 1#32).setWidth 256] ∧ u.mem = s.mem) ∧
      (let p := match t.arrRec with
        | some r => if r.obj = i then r.phase else o.phase
        | none => o.phase
       (0 < (o.phase - p).toInt → GoesTo (.barWait a b) s tid t (t.pc + 4#64)) ∧
       ((o.phase - p).toInt ≤ 0 → o.wheld = 0 → ∃ u q w, exec (.barWait a b) s = .next u ∧ u.thread? tid.toNat = some q ∧
          q.pc = t.pc ∧ q.x = t.x ∧ q.wait = some w ∧ w.what = .barrier i p ∧ w.eval = t.reg a ∧
          w.limit = some (if b = 0#5 then (t.synclim.setWidth 32).toNat else (v.setWidth 32).toNat))) ∧
      Yields (.barStat d a) s tid t d (o.phase ++ o.arr ++ BitVec.ofNat 8 (min o.wheld 255)) false)

/-- R271: timelines. `tl.init`, `tl.add` and `tl.set` emit their frames with the operand in the low 64 bits of the payload;
`tl.wait` goes on when VAL has reached its target, counting around, and waits otherwise; `tl.rd` reads VAL. -/
def Claims.TimelineInstructions : Prop :=
  ∀ s tid t, Performs s tid t → Claims.Settled s tid t → s.resync = [] → t.latchCnt = none → ∀ (d a b c : Reg),
    (t.reg a).toNat ≤ 1023 →
    let i := (t.reg a).setWidth 10
    let o := s.pourObj (t.reg a).toNat
    let v := t.reg b
    let room := (s.emitQ (tid.toNat / 128)).length < 16
    (o.kind = 0#2 ∨ o.kind = 2#2 ∧ o.job = t.job → room → ∃ p, Claims.Emits (.tlInit a b) s tid t .tlinit (.init false) i p ∧
      p.extractLsb' 0 64 = v) ∧
    (o.kind = 2#2 → o.job = t.job →
      (room → Claims.Emits (.tlAdd a b) s tid t .tladd (.add v) i (v.setWidth 256) ∧
        Claims.Emits (.tlSet a b) s tid t .tlset (.set v) i (v.setWidth 256)) ∧
      (0 ≤ (o.val - v).toInt → GoesTo (.tlWait a b c) s tid t (t.pc + 4#64)) ∧
      ((o.val - v).toInt < 0 → o.wheld = 0 → ∃ u q w, exec (.tlWait a b c) s = .next u ∧ u.thread? tid.toNat = some q ∧
        q.pc = t.pc ∧ q.x = t.x ∧ q.wait = some w ∧ w.what = .timeline i v ∧ w.eval = t.reg a ∧
        w.limit = some (if c = 0#5 then (t.synclim.setWidth 32).toNat else ((t.reg c).setWidth 32).toNat)) ∧
      Yields (.tlRd d a) s tid t d o.val false)

/-- Instructions on barriers and timelines, with their checks: `Claims.ObjectChecks`, `Claims.BarrierInstructions`,
`Claims.TimelineInstructions`. -/
def Obligations.BarriersAndTimelines : Prop :=
  Claims.ObjectChecks ∧ Claims.BarrierInstructions ∧ Claims.TimelineInstructions

/-! ### The Pour: frames, stations and waiters (11_sync) -/

/-- R260, R261, R262: what the frames of barriers and timelines make of their object at every station: an init of a free
object, or of one of the same kind and job with nothing withheld and no arrival, writes it, a timeline with module scope, and any other leaves it; the
arrival that makes ARR equal PARTIES clears ARR and advances PHASE; an add and a set change VAL; a free clears KIND and
ARR. No other object, no thread that waits for nothing, no core and no memory changes. The layouts of the payloads of
BARINIT and TLINIT, and that VAL lies over PHASE, are the model's (DESIGN CHOICE 16, DEDUCED 62, 63). -/
def Claims.ObjectFrames : Prop :=
  ∀ s f, Claims.Quiet s → s.allreds = [] →
    let i := f.obj.toNat
    let o := s.pourObj i
    let p := f.payload
    let low : Word := p.extractLsb' 0 64
    let sets := fun (j : Instr) (o' : PourObj) => ∃ u, exec j s = .next u ∧ u.pourObj i = o' ∧
      (∀ n, n ≠ i → u.pourObj n = s.pourObj n) ∧ u.threads = s.threads ∧ u.mem = s.mem ∧ u.full = s.full ∧ u.cores = s.cores
    let bar := o.kind = 0#2 ∨ o.kind = 1#2 ∧ o.job = p.extractLsb' 32 32 ∧ o.wheld = 0 ∧ o.arr = 0#24
    let line := o.kind = 0#2 ∨ o.kind = 2#2 ∧ o.job = p.extractLsb' 64 32 ∧ o.wheld = 0
    let val := fun (x : PourObj) (v : Word) => { x with val := v, phase := v.extractLsb' 32 32 }
    (bar → sets (.barinitFrame f) { o with kind := 1, job := p.extractLsb' 32 32, scope := p.getLsbD 2
                                           home := p.extractLsb' 8 6, parties := p.extractLsb' 64 24 }) ∧
    (¬ bar → sets (.barinitFrame f) o) ∧
    sets (.bararrFrame f)
      (if o.arr + 1#24 = o.parties then { o with arr := 0, phase := o.phase + 1#32 } else { o with arr := o.arr + 1#24 }) ∧
    sets (.barphaseFrame f) { o with phase := p.extractLsb' 0 32 } ∧
    sets (.barwhFrame f) { o with wheld := p.toNat % 2 ^ 24 } ∧
    (line → sets (.tlinitFrame f) (val { o with kind := 2, job := p.extractLsb' 64 32, scope := false, home := 0 } low)) ∧
    (¬ line → sets (.tlinitFrame f) o) ∧
    sets (.tladdFrame f) (val o (o.val + low)) ∧
    sets (.tlsetFrame f) (val o low) ∧
    sets (.objfreeFrame f) { o with kind := 0, arr := 0 }

/-- `s` holds the one thread `t`, live, in a slot of the cluster whose station sent the frame `f` for it. -/
structure Claims.Sender (s : State) (tid : BitVec 16) (t : Thread) (f : Frame) : Prop where
  only : s.threads = [(tid.toNat, t)]
  plain : Claims.Plain t
  calm : Claims.Calm s
  sums : s.allreds = []
  thread : f.gtid = s.ownRank t.job ++ tid
  job : f.job = t.job
  station : f.station.toNat = tid.toNat / 128

/-- R203, R257, R261, R269, R270, R271: the threads that a frame lets go on. The issuer of a cast, an arrival, an add, a set
or a successful init retires when its frame is applied, an arrival with the phase it counted toward in the slot's record
and its promise fulfilled; an init that does not apply raises OBJBUSY; a waiter whose phase completes, or whose target is
reached, retires, ready no earlier than 3 cycles later. -/
def Claims.FrameWaiters : Prop :=
  ∀ s tid t f w, Claims.Sender s tid t f → t.wait = some w →
    let o := s.pourObj f.obj.toNat
    let p := f.payload
    let low : Word := p.extractLsb' 0 64
    let goes := fun (j : Instr) (P : Thread → Prop) => ∃ u q, exec j s = .next u ∧ u.thread? tid.toNat = some q ∧
      q.pc = t.pc + 4#64 ∧ q.wait = none ∧ q.instret = t.instret + 1#64 ∧ q.x = t.x ∧ q.pw = t.pw ∧ u.mem = s.mem ∧ P q
    let busy := fun (j : Instr) => ∃ u q, exec j s = .next u ∧ u.thread? tid.toNat = some q ∧
      Claims.Trapped t q 0x12#64 (f.obj.setWidth 64) ∧ u.mem = s.mem
    let kept := fun (q : Thread) (x : Obj) (b : Prop) => ∀ i : Fin 8, (b → q.promises[i] =
      if t.promises[i] = some x then none else t.promises[i]) ∧ (¬ b → q.promises[i] = t.promises[i])
    let bar := o.kind = 0#2 ∨ o.kind = 1#2 ∧ o.job = p.extractLsb' 32 32 ∧ o.wheld = 0 ∧ o.arr = 0#24
    let line := o.kind = 0#2 ∨ o.kind = 2#2 ∧ o.job = p.extractLsb' 64 32 ∧ o.wheld = 0
    (∀ act, w.what = .frame .cast act f.obj → s.cores = [] → goes (.castFrame f) fun _ => True) ∧
    (∀ act, w.what = .frame .bararr act f.obj → p = 0#256 → goes (.bararrFrame f) fun q =>
      q.arrRec = some { obj := f.obj, phase := o.phase } ∧ kept q (.barrier f.obj) True) ∧
    (∀ act, w.what = .frame .tladd act f.obj → goes (.tladdFrame f) fun q => kept q (.timeline f.obj) (low ≠ 0#64)) ∧
    (∀ act, w.what = .frame .tlset act f.obj →
      goes (.tlsetFrame f) fun q => kept q (.timeline f.obj) (0 < (low - o.val).toInt)) ∧
    (∀ act, w.what = .frame .barinit act f.obj →
      (bar → p.getLsbD 2 = false → goes (.barinitFrame f) fun _ => True) ∧ (¬ bar → busy (.barinitFrame f))) ∧
    (∀ act, w.what = .frame .tlinit act f.obj → (line → goes (.tlinitFrame f) fun _ => True) ∧ (¬ line → busy (.tlinitFrame f))) ∧
    (∀ ph, w.what = .barrier f.obj ph → o.arr + 1#24 = o.parties → 0 < (o.phase + 1#32 - ph).toInt →
      goes (.bararrFrame f) fun q => s.time + 3 ≤ q.readyAt) ∧
    ∀ v, w.what = .timeline f.obj v → 0 ≤ (o.val + low - v).toInt →
      goes (.tladdFrame f) fun q => s.time + 3 ≤ q.readyAt

/-- R203, R257, R260, R261, R262, R269, R270, R271: the frames of barriers and timelines, and the threads that wait for them. -/
def Claims.BarrierAndTimelineFrames : Prop := Claims.ObjectFrames ∧ Claims.FrameWaiters

/-- The withheld count of an object in a cluster's table (R263). -/
def Claims.count (s : State) (n : Nat) (o : Obj) : Nat := ((s.cluster n).withheld.find? (·.1 == o)).elim 0 (·.2)

/-- R202, R263, R264, R265: an entry of a HOLD frame adds one to the withheld count of its object, and the same entry of a
RELEASE frame takes it away again: a barrier or a timeline counts in its own object, a granule and a message tag in the
table of the station that owns them. A thread that waits for a barrier which becomes withheld halts by dependence on it; when
the count returns to zero it is live again, and executes its instruction once more with its count, no earlier than 3 cycles later. -/
def Claims.HoldAndReleaseFrames : Prop :=
  (∀ s f, Claims.Quiet s → (∀ n, (s.cluster n).forward = []) → f.count = 1#3 →
    let e : BitVec 40 := f.payload.extractLsb' 0 40
    (∀ i : BitVec 10, e = 2#2 ++ 0#4 ++ i.setWidth 34 ∨ e = 3#2 ++ 0#4 ++ i.setWidth 34 →
      let o := s.pourObj i.toNat
      let sets := fun (j : Instr) (n : Nat) => ∃ u, exec j s = .next u ∧ u.pourObj i.toNat = { o with wheld := n } ∧
        (∀ k, k ≠ i.toNat → u.pourObj k = s.pourObj k) ∧ u.clusters = s.clusters ∧ u.threads = s.threads ∧ u.mem = s.mem
      o.scope = false ∨ o.home = s.ownRank o.job → sets (.holdFrame f) (o.wheld + 1) ∧ sets (.releaseFrame f) (o.wheld - 1)) ∧
    ∀ o n, (∃ (c : BitVec 12) (g : BitVec 15), e = 0#2 ++ 0#4 ++ 0#1 ++ s.ownRank f.job ++ c ++ g ∧ n = c.toNat / 8 ∧
        o = .granule ((0x10000000000 + c.toNat * 0x80000) / 16 + g.toNat)) ∨
      (∃ (tag : BitVec 4) (tid : BitVec 16), e = 1#2 ++ tag ++ (s.ownRank f.job ++ tid).setWidth 34 ∧ n = tid.toNat / 128 ∧
        o = .tag (s.ownRank f.job ++ tid) tag) →
      (((s.cluster n).withheld.map (·.1)).Nodup →
        let counts := fun (j : Instr) (m : Nat) => ∃ u, exec j s = .next u ∧ Claims.count u n o = m ∧
          (∀ x, x ≠ o → Claims.count u n x = Claims.count s n x) ∧ (∀ k, k ≠ n → u.cluster k = s.cluster k) ∧
          u.pour = s.pour ∧ u.threads = s.threads ∧ u.mem = s.mem
        ((∃ y ∈ (s.cluster n).withheld, y.1 = o) ∨ (s.cluster n).withheld.length < 1024 →
          counts (.holdFrame f) (Claims.count s n o + 1)) ∧
        ((o, f.gtid) ∉ (s.cluster n).missed → (∀ y ∈ (s.cluster n).withheld, y.2 ≠ 0) → counts (.releaseFrame f) (Claims.count s n o - 1)))) ∧
  ∀ s f (tid : BitVec 16) t w (i : BitVec 10) ph, s.threads = [(tid.toNat, t)] → t.gang = none → s.allreds = [] →
    Claims.Calm s → f.count = 1#3 → f.payload.extractLsb' 0 40 = 2#2 ++ 0#4 ++ i.setWidth 34 → t.wait = some w →
    w.what = .barrier i ph →
    let o := s.pourObj i.toNat
    o.scope = false → (o.phase - ph).toInt ≤ 0 →
    (t.run = .live → ∃ u q, exec (.holdFrame f) s = .next u ∧ u.thread? tid.toNat = some q ∧ q.run = .dep (.barrier i) ∧
      q.pc = t.pc ∧ q.x = t.x ∧ q.wait = some w ∧ u.mem = s.mem) ∧
    (t.run = .dep (.barrier i) → o.wheld = 1 → ∃ u q, exec (.releaseFrame f) s = .next u ∧
      u.thread? tid.toNat = some q ∧ q.run = .live ∧ q.pc = t.pc ∧ q.x = t.x ∧ q.wait = none ∧
      q.latchCnt = w.limit.map (fun l => (w.count, l)) ∧ s.time + 3 ≤ q.readyAt ∧ u.mem = s.mem)

/-- Frames of barriers and timelines and HOLD and RELEASE frames, and their waiters: `Claims.BarrierAndTimelineFrames`,
`Claims.HoldAndReleaseFrames`. -/
def Obligations.ObjectAndHoldFrames : Prop :=
  Claims.BarrierAndTimelineFrames ∧ Claims.HoldAndReleaseFrames

/-- R255: a CAST frame at a core: nothing without a subscription; a record with tag 15, the channel and the 32 bytes at the
tail of an inbox that has room before its end; an entry of the cast queue, when the ring is full. -/
def Claims.CastFrames : Prop :=
  ∀ s f, s.Inv → Claims.Quiet s → Claims.Calm s → Claims.Clean s → assocSorted s.cores = true →
    (∀ c, ((s.core c).inboxb.extractLsb' 4 15).toNat * 16 + ((s.core c).inboxs.extractLsb' 0 16).toNat * 16 ≤ 0x80000 ∧
      ((s.core c).inboxs.extractLsb' 0 16 = 0#16 ∨
        ((s.core c).inboxb.extractLsb' 32 16).toNat < ((s.core c).inboxs.extractLsb' 0 16).toNat)) →
    ∃ u, exec (.castFrame f) s = .next u ∧ u.threads = s.threads ∧ ∀ c,
      let k := s.core c
      let ch := f.obj.toNat % 64
      let size := (k.inboxs.extractLsb' 0 16).toNat * 16
      let used := (k.inboxs.extractLsb' 32 16).toNat * 16
      let tail := if used = 0 then 0 else (k.inboxb.extractLsb' 32 16).toNat * 16
      let at_ := 0x10000000000 + c * 0x80000 + (k.inboxb.extractLsb' 4 15).toNat * 16 + tail
      let word := fun (a : Nat) => BitVec.ofNat 64 (readBytes u.mem a 8)
      (k.subs.getLsbD ch = false → u.core c = k ∧
        ∀ o, o < 0x80000 → loadByte u.mem (0x10000000000 + c * 0x80000 + o) = loadByte s.mem (0x10000000000 + c * 0x80000 + o)) ∧
      (k.subs.getLsbD ch = true →
        (used + 48 ≤ size → tail + 48 ≤ size → word at_ = k.inboxSeq ++ (0#2 : BitVec 2) ++ f.gtid ++ 0#2 ++ 1#2 ++ 15#4 ∧
          (word (at_ + 8)).extractLsb' 4 6 = BitVec.ofNat 6 ch ∧ readBytes u.mem (at_ + 16) 32 = f.payload.toNat ∧
          (u.core c).inboxSeq = k.inboxSeq + 1#32 ∧ ((u.core c).inboxs.extractLsb' 32 16).toNat * 16 = used + 48) ∧
        (size < used + 48 → ∃ x b, u.core c = { k with castQ := [x], inboxb := b } ∧ x.src = f.gtid ∧
          x.chan = BitVec.ofNat 6 ch ∧ x.payload = f.payload ∧ (used ≠ 0 → b = k.inboxb) ∧
          (used = 0 → b.extractLsb' 32 32 = 0#32 ∧ b.extractLsb' 0 32 = k.inboxb.extractLsb' 0 32)))

/-- R254, R359, R375, R237, R151: the other frames. INBOXCAP enters a core and its size in the capacity table; ALLRED counts
a frame of its contribution; FWD, of this rank, renews the forwarding entry that it names and says when every rank has it (DEDUCED 59); DRAIN emits a marker of every core toward the
ranks it names; TIMEALIGN changes nothing in this model, whose TIME is one number (DESIGN CHOICE 50). The layouts of the
payloads of INBOXCAP, FWD and DRAIN are the model's (DESIGN CHOICE 16). -/
def Claims.OtherFrames : Prop :=
  ∀ s f,
    (∃ u, exec (.inboxcapFrame f) s = .next u ∧ u = { s with capacity := u.capacity } ∧
      assocGet (f.payload.toNat % 4096) u.capacity = some (f.payload.extractLsb' 64 20).toNat ∧
      ∀ c, c ≠ f.payload.toNat % 4096 → assocGet c u.capacity = assocGet c s.capacity) ∧
    (∀ x, s.allreds = [x] → x.obj = f.obj → x.gtid = f.gtid → 32 * x.seen < x.count →
      exec (.allredFrame f) s = .next { s with allreds := [{ x with seen := x.seen + 1 }] }) ∧
    (∀ n e, n = (if f.payload.getLsbD 32 then (f.payload.extractLsb' 0 16).toNat / 8 else (f.payload.extractLsb' 0 16).toNat / 128) →
      (s.cluster n).forward = [e] → e.src = f.payload.extractLsb' 0 16 → e.whole = f.payload.getLsbD 32 → e.last ≤ s.time →
      (f.gtid.extractLsb' 16 6 ≠ s.ownRank f.job → exec (.fwdFrame f) s = .next s) ∧
      (f.gtid.extractLsb' 16 6 = s.ownRank f.job → ∃ u a, exec (.fwdFrame f) s = .next u ∧ s.time ≤ a ∧
        u.cluster n = { s.cluster n with forward := [{ e with last := s.time, acked := some a }] } ∧
        u.threads = s.threads ∧ u.mem = s.mem)) ∧
    (∃ u, exec (.drainFrame f) s = .next u ∧ u.threads = s.threads ∧ u.mem = s.mem ∧ (∀ m ∈ s.markers, m ∈ u.markers) ∧
      ∀ (c : CoreId) k (r : BitVec 6), (c.toNat, k) ∈ s.cores → f.payload.getLsbD r.toNat = true → r ≠ s.ownRank f.job →
        let p : Peer := { job := f.job, rank := r }
        (∃ n, (c, p, n) ∈ u.markers) ∧ ∃ y ∈ u.timed, y.what = .drainMarkerAck c p) ∧
    exec (.timealignFrame f) s = .next s

/-- R151, R237, R254, R255, R359, R375: casts and the frames that name no barrier and no timeline. -/
def Obligations.CastAndOtherFrames : Prop := Claims.CastFrames ∧ Claims.OtherFrames

/-- A sparing action of the house cores: it is logged, and register 6 is extended by its digest (R439; the digest is the model's
choice, DESIGN CHOICE 73). -/
def Claims.Spared (p q : Platform) (e : HouseEvent) : Prop :=
  q.log = p.log ++ [e] ∧ ∀ n : Fin 8, q.measure[n] =
    if n = 6 then sha512 (bytes64 p.measure[n] ++ bytes64 (sha512 e.bytes)) else p.measure[n]

/-- R19, R256, R259, R262, R439: the stations. A capture of the cup emits the first two frames of the station's queue that may leave,
applied at every station 15 cycles later (DESIGN CHOICE 77), and hands the cup on, after 0.4 ns for each; the flight round the 520
stations takes 2.4 ns, and goes on while no station has a frame. An uncorrectable frame is applied by the others, in its place in pour
order; the station keeps its mirror as it stands and resynchronises within 10 µs; a cast is lost on the subscribed cores of its
cluster, which count a drop; the end of a resynchronisation, when no cast was kept, lets its waiters go on. A packet of a domain
barrier is emitted by the hub, HOLD and RELEASE before other frames, or tells the issuer of an arrival the phase that its home has
counted. The spare wavelength replaces a failing one. What a resynchronisation keeps, and that the switch loses no frame, is
DEDUCED 76. -/
def Obligations.PourStations : Prop :=
  (∀ s (n : BitVec 10), assocSorted s.emit = true →
    let l := s.emitQ n.toNat
    let captures := fun (out left : List QFrame) => ∃ u, exec (.cupCapture n) s = .next u ∧ u.emitQ n.toNat = left ∧
      u.pourPos = s.pourPos + out.length ∧ (u.cup = if n = 519#10 then 0#10 else n + 1#10) ∧
      (let r := s.cupTime + 6 * ((n.toNat + 520 - s.cup.toNat) % 520)
       u.cupTime = r + (1040 * s.time - r + 3119) / 3120 * 3120 + 520 * out.length + 6) ∧
      (∀ m, m ≠ n.toNat → u.emitQ m = s.emitQ m) ∧ u.threads = s.threads ∧ u.mem = s.mem ∧ u.pour = s.pour ∧
      ∀ x ∈ out, ∃ y ∈ u.timed, y.what = .frame x.ty x.f ∧ y.due = s.time + 15
    ((∀ x ∈ l.take 2, x.due ≤ s.time) → captures (l.take 2) (l.drop 2)) ∧
    ((∀ x ∈ l, s.time < x.due) → captures [] l)) ∧
  (∀ s (n : BitVec 10) ty f y, y ∈ s.timed → y.what = .frame ty f → ∃ u, exec (.uncorrectableFrame n ty f) s = .next u ∧
    u = { s with timed := u.timed } ∧ u.timed.length = s.timed.length ∧ ∃ z ∈ u.timed, z.what = .lostFrame n ty f) ∧
  (∀ s (n : BitVec 10) f, Claims.Quiet s → s.allreds = [] → n ∉ s.resync → assocSorted s.frozen = true →
    (∀ x ∈ s.timed, ∀ ty, x.what ≠ .frame ty f) →
    let o := s.pourObj f.obj.toNat
    let marks := fun (u : State) => u.resync = s.resync ++ [n] ∧ u.threads = s.threads ∧ u.mem = s.mem ∧
      (∀ i, u.mirrorObj n.toNat i = s.pourObj i) ∧ ∃ y ∈ u.timed, y.what = .resyncEnd n ∧ y.due ≤ s.time + 12500
    (∃ u, exec (.uncorrectableFrame n .tladd f) s = .next u ∧ marks u ∧
      (u.pourObj f.obj.toNat).val = o.val + (f.payload.extractLsb' 0 64)) ∧
    ∀ c k, s.cores = [(c, k)] → c / 8 = n.toNat → k.subs.getLsbD (f.obj.toNat % 64) = true → k.inboxs.extractLsb' 48 16 ≠ 0xFFFF#16 →
      ∃ u, exec (.uncorrectableFrame n .cast f) s = .next u ∧ marks u ∧ (u.core c).subs = k.subs ∧
        (u.core c).inboxs.extractLsb' 48 16 = k.inboxs.extractLsb' 48 16 + 1#16 ∧
        (u.core c).inboxs.extractLsb' 0 48 = k.inboxs.extractLsb' 0 48 ∧ (u.core c).castQ = k.castQ) ∧
  (∀ s (tid : BitVec 16) t w (n : BitVec 10), s.threads = [(tid.toNat, t)] → Claims.Plain t → t.wait = some w → s.resync = [n] →
    n.toNat = tid.toNat / 128 → (∀ m, assocGet n.toNat s.frozen = some m → m.casts = []) →
    ∃ u q, exec (.resyncEnd n) s = .next u ∧ u.resync = [] ∧ u.mem = s.mem ∧ u.thread? tid.toNat = some q ∧
      ∀ i ph, w.what = .barrier i ph → 0 < ((s.pourObj i.toNat).phase - ph).toInt → q.pc = t.pc + 4#64 ∧ q.wait = none ∧
        q.x = t.x) ∧
  (∀ s ty f,
    let o := s.pourObj f.obj.toNat
    (ty ≠ .bararr ∨ o.home = s.ownRank o.job → ∃ u, exec (.domainBarrierPacket ty f) s = .next u ∧
      u = { s with emit := u.emit } ∧
      let l := s.emitQ 512
      if ty = .hold ∨ ty = .release then u.emitQ 512 = l.filter (·.first) ++
          [{ ty := ty, first := true, due := s.time, f := { f with station := 512#10 } }] ++ l.filter (fun x => !x.first)
      else u.emitQ 512 = l ++ [{ ty := ty, first := false, due := s.time, f := { f with station := 512#10 } }]) ∧
    ∀ tid t w act, o.home ≠ s.ownRank o.job → Claims.Sender s tid t f → t.wait = some w →
      w.what = .frame .bararr act f.obj → ∃ u q, exec (.domainBarrierPacket .bararr f) s = .next u ∧
        u.thread? tid.toNat = some q ∧ q.pc = t.pc + 4#64 ∧ q.wait = none ∧ q.x = t.x ∧ u.mem = s.mem ∧
        q.arrRec = some { obj := f.obj, phase := f.payload.extractLsb' 0 32 }) ∧
  ∀ s w, ∃ u, exec (.spareWavelengthSwitch w) s = .next u ∧ u = { s with spareWave := some w, platform := u.platform } ∧
    Claims.Spared s.platform u.platform (.wavelength w)

/-! ### Tile commands and copies (13_tile, 14_transfer) -/

/-- The bits that every command may set: opcode, post, signal, strap, tag, and its signal granule when it signals (R99). -/
def Claims.headerBits (w : BitVec 256) : BitVec 256 := if w.getLsbD 10 then 0x7FFFFFFF0EFF#256 else 0xFFFF0EFF#256

/-- The command has opcode `op` and sets no bit but those of its header and `extra` (R100, R101). -/
def Claims.formed (h : Cmd) (op : BitVec 8) (extra : BitVec 256) : Prop :=
  h.word.extractLsb' 0 8 = op ∧ h.word &&& ~~~(Claims.headerBits h.word ||| extra) = 0#256

/-- The status word of a command: opcode, slot, engine, tag, DETAIL, flags and code (R306). -/
def Claims.statusOf (h : Cmd) (copy : Bool) (detail : BitVec 16) (flags : BitVec 6) (code : BitVec 4) : Word :=
  h.word.extractLsb' 0 8 ++ h.tid.extractLsb' 0 4 ++ BitVec.ofBool copy ++ (0#3 : BitVec 3) ++ h.word.extractLsb' 16 16 ++ detail ++
    (0#2 : BitVec 2) ++ flags ++ (0#4 : BitVec 4) ++ code

/-- No thread holds an event, so every command may start (R311). -/
def Claims.NoEvents (s : State) : Prop := ∀ k t, s.thread? k = some t → t.events = []

/-- The command `h` stands at the head of q0 of core `c`, seen by the engine, with no hold and the core's full share of
charge units in a cluster without a budget (R299, R300, R317). -/
structure Claims.AtHead (s : State) (c : CoreId) (h : Cmd) (rest : List Cmd) : Prop where
  queue : (s.core c.toNat).q0 = h :: rest
  phase : (s.core c.toNat).q0Phase = .queued
  idle : (s.core c.toNat).q0Work = []
  free : (s.core c.toNat).mefault.getLsbD 63 = false
  seen : h.ready ≤ s.time ∧ (s.core c.toNat).q0Ready ≤ s.time
  events : Claims.NoEvents s
  units : ((s.core c.toNat).mebudget.extractLsb' 24 16).toNat ≤ (s.core c.toNat).meBucket
  budget : (s.cluster (c.toNat / 8)).budget = none

/-- The head command of q0 is at work from now on, with the status it will report and the tiles it will pop, and completes at
`due`; `u` has the threads and the other cores of `s`. -/
def Claims.Working (s u : State) (c : CoreId) (status : Word) (due : Nat) (pops : Bool := false) : Prop :=
  (u.core c.toNat).q0Phase = .queued ∧
    (∃ w, (u.core c.toNat).q0Work = [w] ∧ w.status = status ∧ w.due = due ∧ w.pops = pops) ∧
    (u.core c.toNat).q0 = (s.core c.toNat).q0 ∧ (u.core c.toNat).ringHead = (s.core c.toNat).ringHead ∧ u.threads = s.threads ∧
    (∀ n, n ≠ c.toNat → u.core n = s.core n) ∧ ∃ y ∈ u.timed, y.what = .meCommandCompletion c ∧ y.due = due

/-- The command `h` stands at the head of q4 of core `c`, seen by the engine, with no copy at work in the module; nothing is on an
ordered path, and the core's registers regulate no class (R218, R223, R336, R337). -/
structure Claims.CopyNext (s : State) (c : CoreId) (h : Cmd) (rest : List Cmd) : Prop where
  queue : (s.core c.toNat).q4 = h :: rest
  going : (s.core c.toNat).q4Held = false
  seen : h.ready ≤ s.time
  idle : (∀ x ∈ s.cores, x.2.copies = []) ∧ s.allreds = []
  events : Claims.NoEvents s
  paths : s.paths = []
  free : ∀ n : Fin 4, ((s.core c.toNat).fabqos[n]).extractLsb' 4 16 = 0#16

/-- The copy `r` of the command `h` is at work: it left q4, and its completion is scheduled when it ends. -/
def Claims.Copying (s u : State) (c : CoreId) (h : Cmd) (rest : List Cmd) (r : CopyRun) : Prop :=
  (u.core c.toNat).copies = [r] ∧ (u.core c.toNat).q4 = rest ∧ r.cmd = h ∧ u.threads = s.threads ∧
    (∀ n, n ≠ c.toNat → u.core n = s.core n) ∧ ∃ y ∈ u.timed, y.what = .copyCompletion c h.seq ∧ y.due = r.due

/-- R99, R100, R101, R305, R311, R312, R330, R343: the commands without a body. At the head of its queue a `tnop`, a `sig`
or a `tfence` completes in the next cycle with status OK; one with another bit set holds its queue, with ILLCMD as an event
for the thread that pushed it, and MEFAULT says which command it was. That sgran must be zero without signal is the model's
reading (DEDUCED 32). -/
def Obligations.BareCommands : Prop :=
  ∀ s (c : CoreId) h rest, ∀ x ∈ [(0x00#8, Instr.tnop), (0x10#8, .sig), (0x11#8, .tfence)],
    (Claims.AtHead s c h rest →
      (Claims.formed h x.1 0#256 → ∃ u, exec (x.2 .matrix c) s = .next u ∧ u.mem = s.mem ∧
        Claims.Working s u c (Claims.statusOf h false 0#16 0#6 0#4) (s.time + 1)) ∧
      (h.word.extractLsb' 0 8 = x.1 → ¬ Claims.formed h x.1 0#256 → ∀ (k : BitVec 16) t, h.who = .live k →
        s.thread? k.toNat = some t → t.wait = none →
        let fault : Word := 0xA#4 ++ h.tid.extractLsb' 0 4 ++ h.word.extractLsb' 0 8 ++ h.word.extractLsb' 16 16 ++ 0#32
        ∃ u, exec (x.2 .matrix c) s = .next u ∧ (u.core c.toNat).mefault = fault ∧ (u.core c.toNat).q0Phase = .held ∧
          (u.core c.toNat).q0 = h :: rest ∧ u.mem = s.mem ∧
          u.thread? k.toNat = some { t with events := [{ code := 0x21#8, eval := fault }] })) ∧
    (Claims.CopyNext s c h rest →
      (Claims.formed h x.1 0#256 → ∃ u r, exec (x.2 .copy c) s = .next u ∧ Claims.Copying s u c h rest r ∧
        r.due = s.time + 1 ∧ r.fail = none ∧ r.written = 0 ∧ u.mem = s.mem) ∧
      (h.word.extractLsb' 0 8 = x.1 → ¬ Claims.formed h x.1 0#256 → ∀ (k : BitVec 16) t, h.who = .live k →
        s.thread? k.toNat = some t → t.wait = none →
        ∃ u, exec (x.2 .copy c) s = .next u ∧ (u.core c.toNat).q4Held = true ∧ (u.core c.toNat).q4 = h :: rest ∧
          u.mem = s.mem ∧ u.thread? k.toNat = some { t with events := [{ code := 0x21#8, eval := h.word.extractLsb' 0 64 }] }))

/-- Element `e` of accumulator `a` of a core (R301). -/
def Claims.accOf (s : State) (c : CoreId) (a e : Nat) : BitVec 32 :=
  (assocGet (a * 2048 + e) (s.core c.toNat).acc).getD 0#32

/-- The other accumulators are as they were. -/
def Claims.OtherAccs (s u : State) (c : CoreId) (a : Nat) : Prop :=
  ∀ b e, b ≠ a → e < 2048 → Claims.accOf u c b e = Claims.accOf s c b e

/-- R301, R328, R329, R331: the accumulator commands. `acc.zero` clears an accumulator in 4 cycles; `acc.ld` fills it with a
literal in 16, or with the 2048 elements at its address, FP32, INT32 and `raw` unchanged and BF16 and FP16 as exact FP32;
each clears the accumulator's poison. `acc.st` writes the 2048 elements, INT32 and `raw` unchanged and a float format
rounded to it, and no byte elsewhere. -/
def Obligations.AccumulatorCommands : Prop :=
  ∀ s (c : CoreId) h rest, s.Inv → assocSorted (s.core c.toNat).acc = true → Claims.AtHead s c h rest → Claims.Clean s →
    let k := s.core c.toNat
    let a := (h.word.extractLsb' 64 2).toNat
    let at_ := (h.word.extractLsb' 96 19).toNat
    let base := 0x10000000000 + c.toNat * 0x80000 + at_
    let reg := (k.bfmt[at_ / 16384]?).getD 0#64
    let fmt := (reg.extractLsb' 0 5).toNat
    let fits := fun (bytes : Nat) => at_ % 16 = 0 ∧ at_ + bytes ≤ 0x80000 ∧
      (k.bfmt[(at_ + bytes - 1) / 16384]?).getD 0#64 = reg
    let plain := reg.extractLsb' 10 4 = 0#4 ∧ (reg.extractLsb' 16 4).toNat ≤ 8
    let clean := fun (u : State) => (u.core c.toNat).poison.getLsbD a = false ∧ u.mem = s.mem ∧ Claims.OtherAccs s u c a
    let ok := Claims.statusOf h false 0#16 0#6 0#4
    (Claims.formed h 0x08#8 (3#256 <<< 64) → ∃ u, exec (.accZero c) s = .next u ∧ Claims.Working s u c ok (s.time + 4) ∧
      clean u ∧ ∀ e, e < 2048 → Claims.accOf u c a e = 0#32) ∧
    (Claims.formed h 0x09#8 ((3#256 <<< 64) ||| 0x100#256 ||| (0xFFFFFFFF#256 <<< 128)) → h.word.getLsbD 8 = true →
      ∃ u, exec (.accLd c) s = .next u ∧ Claims.Working s u c ok (s.time + 16) ∧ clean u ∧
        ∀ e, e < 2048 → Claims.accOf u c a e = h.word.extractLsb' 128 32) ∧
    (Claims.formed h 0x09#8 ((3#256 <<< 64) ||| (0x7FFFF#256 <<< 96)) → plain →
      (fmt ∈ [0, 1, 7] → fits 8192 → ∃ u due, exec (.accLd c) s = .next u ∧ Claims.Working s u c ok due ∧ clean u ∧
        s.time + 16 < due ∧ ∀ e, e < 2048 → Claims.accOf u c a e = BitVec.ofNat 32 (readBytes s.mem (base + 4 * e) 4)) ∧
      (∀ g, (fmt, g) ∈ [(2, bf16), (3, fp16)] → fits 4096 → ∃ u due f code, exec (.accLd c) s = .next u ∧
        Claims.Working s u c (Claims.statusOf h false 0#16 f code) due ∧ clean u ∧ s.time + 16 < due ∧
        ∀ e, e < 2048 → (Claims.accOf u c a e).toNat =
          (fp32.deliver .rne true (g.decode (readBytes s.mem (base + 2 * e) 2))).1)) ∧
    (Claims.formed h 0x0A#8 ((3#256 <<< 64) ||| 0x1000#256 ||| (0x7FFFF#256 <<< 96)) → plain →
      k.poison.getLsbD a = false → k.accBad.getLsbD a = false →
      let stores := fun (w : Nat) (v : BitVec 32 → Nat) => ∃ u due f code, exec (.accSt c) s = .next u ∧
        Claims.Working s u c (Claims.statusOf h false 0#16 f code) due ∧ s.time + 16 < due ∧
        (u.core c.toNat).acc = k.acc ∧
        (∀ e, e < 2048 → readBytes u.mem (base + w * e) w = v (Claims.accOf s c a e)) ∧
        ∀ x, x < base ∨ base + w * 2048 ≤ x → loadByte u.mem x = loadByte s.mem x
      (fmt ∈ [0, 7] → fits 8192 → stores 4 fun x => x.toNat) ∧
      (∀ g w, (fmt, g, w) ∈ [(1, fp32, 4), (2, bf16, 2), (3, fp16, 2)] → fits (2048 * w) →
        stores w fun x => (g.deliver .rne true (fp32.decode x.toNat)).1))

/-- An exact integer saturated to INT32 (R117). -/
def Claims.clamp32 (i : Int) : Int := max (-2 ^ 31) (min (2 ^ 31 - 1) i)

/-- The sum of the products of two rows. -/
def Claims.dot (x y : List Int) : Int := (List.zipWith (· * ·) x y).sum

/-- R116, R117, R118, R304, R325, R326, R327, R331: the array commands, when the checks of R305 pass, their tiles are there
and no check of R316 fails. Element (i, j) of the accumulator becomes its value, unless zacc is set, plus the products of
row i and column j: saturated once to INT32 for integer operands, and one MmaCell of the exact products for the others; a
row or column that is switched off adds nothing. `mma.sp` spreads a row over the positions of its metadata, across two
tiles of B, the other positions adding zero terms (DEDUCED 35); `mmq` takes one term for each segment of equal scales. No memory changes; the command completes 72 cycles later
with its flags, code 1 when one is SAT, and its tiles leave their rings then (`Claims.MatrixCompletion`). -/
def Obligations.ArrayCommands : Prop :=
  ∀ s (c : CoreId) h rest, assocSorted (s.core c.toNat).acc = true → Claims.AtHead s c h rest → Claims.Clean s →
    let k := s.core c.toNat
    let na := (h.word.extractLsb' 72 3).toNat
    let nb := (h.word.extractLsb' 80 3).toNat
    let acc := (h.word.extractLsb' 64 2).toNat
    let zacc := h.word.getLsbD 88
    let x := k.operand na 0
    let y := k.operand nb 0
    let y2 := k.operand nb 1
    let kk := 512 / max x.w y.w
    let ints := bfFmt x.reg ∈ [8, 9, 10] ∧ bfFmt y.reg ∈ [8, 9, 10]
    let off := fun (e : Nat) => (h.word1.extractLsb' 32 32).getLsbD (e / 64) || (h.word1.extractLsb' 64 64).getLsbD (e % 64)
    let ia := fun (e : Nat) => operandInts s.mem c.toNat x kk (e / 64)
    let ib := fun (o : Operand) (e : Nat) => operandInts s.mem c.toNat o kk (e % 64)
    let fa := fun (e : Nat) => operandRow s.mem c.toNat x kk (e / 64)
    let fb := fun (o : Operand) (e : Nat) => operandRow s.mem c.toNat o kk (e % 64)
    let runs := fun (i : Instr) (op : BitVec 8) (tiles : Nat) (extra : BitVec 256) (isInt : Prop)
        (iterm : Nat → Int) (fterms : Nat → List FVal) =>
      Claims.formed h op ((3#256 <<< 64) ||| (7#256 <<< 72) ||| (7#256 <<< 80) ||| (1#256 <<< 88) ||| 0x3000#256) → h.two = true →
      h.word1.extractLsb' 0 8 = 0xFF#8 → h.word1 &&& ~~~(0xFF#256 ||| (0xFFFFFFFFFFFFFFFFFFFFFFFF#256 <<< 32) ||| extra) = 0#256 →
      arrayCheck k h op.toNat = none → 1 ≤ k.ringOcc na → tiles ≤ k.ringOcc nb → k.residue = 0 →
      (zacc = false → k.poison.getLsbD acc = false ∧ k.accBad.getLsbD acc = false) →
      ∃ u f, exec i s = .next u ∧ u.mem = s.mem ∧
        Claims.Working s u c (Claims.statusOf h false 0#16 f (if f.getLsbD 5 then 1#4 else 0#4)) (s.time + 72) true ∧
        Claims.OtherAccs s u c acc ∧
        ∀ e, e < 2048 →
          let old := Claims.accOf s c acc e
          (isInt → (Claims.accOf u c acc e).toInt =
            Claims.clamp32 ((if off e then 0 else iterm e) + if zacc then 0 else old.toInt)) ∧
          (¬ isInt → Claims.accOf u c acc e = BitVec.ofNat 32 (mmaCell
            ((if zacc then [] else [fp32.decode old.toNat]) ++ if off e then [] else fterms e)).1)
    runs (.mma c) 0x01#8 1 0#256 ints (fun e => Claims.dot (ia e) (ib y e)) (fun e => List.zipWith FVal.mul (fa e) (fb y e)) ∧
    (let meta_ := (h.word1.extractLsb' 128 19).toNat
     let nibble := fun (e : Nat) => spNibble s.mem c.toNat meta_ kk (e / 64)
     spBad s.mem c.toNat meta_ kk = none →
       runs (.mmaSp c) 0x02#8 2 (0x7FFFF#256 <<< 128) ints
         (fun e => Claims.dot (spDense 0 (nibble e) (ia e)) (ib y e ++ ib y2 e))
         (fun e => List.zipWith FVal.mul (spDense (.fin false 0 0) (nibble e) (fa e)) (fb y e ++ fb y2 e))) ∧
    (let ga := (h.word1.extractLsb' 128 16).toNat
     let gb := (h.word1.extractLsb' 144 16).toNat
     let table := fun (o : Operand) (g rows : Nat) => codeAsym (bfFmt o.reg) = true →
       entryOff o.reg (g + rows * kk / bfGroup o.reg) ≤ 0x80000 ∧ mmqRowBad s.mem c.toNat o g rows kk = false
     let seg := min (mmqGroup x kk) (mmqGroup y kk)
     table x ga 32 → table y gb 64 →
       runs (.mmq c) 0x03#8 1 (0xFFFFFFFF#256 <<< 128) False (fun _ => 0)
         (fun e => mmqTerms (mmqRow s.mem c.toNat x ga kk seg (e / 64)) (mmqRow s.mem c.toNat y gb kk seg (e % 64))))

/-- R103, R300, R308, R331: completion in q0. The oldest command at work, once its cycle has come, leaves q0, and the commands
behind it stay at work; the rings that it does not keep move on when it pops its tiles; its record, when `post` is set, enters q1
behind the others; while q1 is full it waits; with `signal` its status and sequence number fill the signal granule. -/
def Claims.MatrixCompletion : Prop :=
  ∀ s (c : CoreId) h rest w work, s.Inv → Claims.Quiet s → s.packets = [] →
    (s.core c.toNat).q0 = h :: rest → (s.core c.toNat).q0Work = w :: work → h.obj = none → h.word.getLsbD 11 = false →
    let k := s.core c.toNat
    let moved := fun (n : Fin 8) (bit lo d : Nat) =>
      if w.pops = true ∧ h.word.getLsbD bit = false ∧ n.val = (h.word.extractLsb' lo 3).toNat then d else 0
    (s.time < w.due → exec (.meCommandCompletion c) s = .next s) ∧
    (w.due ≤ s.time → h.word.getLsbD 9 = true → 32 ≤ k.q1.length → exec (.meCommandCompletion c) s = .next s) ∧
    (w.due ≤ s.time → (h.word.getLsbD 9 = true → k.q1.length < 32) →
      ∃ u, exec (.meCommandCompletion c) s = .next u ∧ (u.core c.toNat).q0 = rest ∧ (u.core c.toNat).q0Work = work ∧
        u.threads = s.threads ∧ (u.core c.toNat).acc = k.acc ∧
        (w.pops = false → (u.core c.toNat).ringHead = k.ringHead) ∧
        (∀ n : Fin 8, ((u.core c.toNat).ringHead[n]).toNat % 2 ^ 32 =
          (k.ringHead[n].toNat + moved n 12 72 1 + moved n 13 80 (if h.word.extractLsb' 0 8 = 2#8 then 2 else 1)) % 2 ^ 32) ∧
        (h.word.getLsbD 9 = false → (u.core c.toNat).q1 = k.q1) ∧
        (h.word.getLsbD 9 = true → (u.core c.toNat).q1 = k.q1 ++
          [{ status := w.status, seq := h.seq, gtid := h.gtid, written := 0#64, group := h.group }]) ∧
        (h.word.getLsbD 10 = false → u.mem = s.mem ∧ u.full = s.full) ∧
        (h.word.getLsbD 10 = true →
          let g := 0x10000000000 + c.toNat * 0x80000 + 16 * (h.word.extractLsb' 32 15).toNat
          readBytes u.mem g 8 = w.status.toNat ∧ readBytes u.mem (g + 8) 8 = h.seq.toNat ∧ g / 16 ∈ u.full ∧
          ∀ a, a < g ∨ g + 16 ≤ a → loadByte u.mem a = loadByte s.mem a))

/-- R308, R338, R341, R345: a copy that is done leaves the engine and enters q5, when `post` is set, with the bytes that it has
written and its status; while q5 is full it waits. -/
def Claims.CopyCompletion : Prop :=
  ∀ s (c : CoreId) r, Claims.Quiet s → s.packets = [] → (s.core c.toNat).copies = [r] → r.paused = none → r.atPort = none →
    r.gate = none → r.copyIn = none → r.copyOut = none → (∀ e ∈ (s.core c.toNat).handles.toList, e.bound = false) →
    r.cmd.obj = none → r.cmd.word.getLsbD 10 = false → r.cmd.word.getLsbD 11 = false → (∃ g, s.group? r.cmd.group = some g) →
    let k := s.core c.toNat
    (s.time < r.due → exec (.copyCompletion c r.cmd.seq) s = .next s) ∧
    (r.due ≤ s.time → r.cmd.word.getLsbD 9 = true → 16 ≤ k.q5.length → exec (.copyCompletion c r.cmd.seq) s = .next s) ∧
    (r.due ≤ s.time → (r.cmd.word.getLsbD 9 = true → k.q5.length < 16) →
      ∃ u, exec (.copyCompletion c r.cmd.seq) s = .next u ∧ (u.core c.toNat).copies = [] ∧ u.mem = s.mem ∧
        u.threads = s.threads ∧ (r.cmd.word.getLsbD 9 = false → (u.core c.toNat).q5 = k.q5) ∧
        (r.cmd.word.getLsbD 9 = true → ∃ x, (u.core c.toNat).q5 = k.q5 ++ [x] ∧ x.seq = r.cmd.seq ∧ x.gtid = r.cmd.gtid ∧
          x.written = BitVec.ofNat 64 r.written ∧ x.group = r.cmd.group ∧
          (∀ code d, r.fail = some (code, d) → code < 16 → d < 65536 →
            x.status = Claims.statusOf r.cmd true (BitVec.ofNat 16 d) r.flags (BitVec.ofNat 4 code)) ∧
          (r.fail = none → r.flags.getLsbD 5 = true → x.status = Claims.statusOf r.cmd true 0#16 r.flags 1#4) ∧
          (r.fail = none → r.flags.getLsbD 5 = false → r.fixed = false →
            x.status = Claims.statusOf r.cmd true 0#16 r.flags 0#4)))

/-- R316, R317, R437, R439: a refill adds the core's rate to its bucket up to its burst, and a budget that the house cores have set
holds from this window on; a column on the spare, which is logged, pauses q0 for 256 cycles between two commands. -/
def Claims.EngineEvents : Prop :=
  (∀ s, assocSorted s.cores = true → ∃ u, exec .meBudgetRefill s = .next u ∧ u.mem = s.mem ∧ u.threads = s.threads ∧
    (∀ n, (u.cluster n).budget = ((s.cluster n).budgetNext.orElse fun _ => (s.cluster n).budget)) ∧
    ∀ c k, s.core c = k → (c, k) ∈ s.cores → ∃ n, u.core c = { k with meBucket := n } ∧
      let rate := (k.mebudget.extractLsb' 4 16).toNat
      let burst := (k.mebudget.extractLsb' 24 16).toNat
      (rate ≠ 0 → n = min burst (k.meBucket + rate)) ∧
      (rate = 0 → n = match (s.cluster (c / 8)).budget with
        | some b => min burst (k.meBucket + b / 8)
        | none => burst)) ∧
  ∀ s (c : CoreId) (col : BitVec 6), (∀ w ∈ (s.core c.toNat).q0Work, w.due ≤ s.time) →
    (∀ due v, (s.core c.toNat).q0Phase ≠ .checking due v) →
    ∃ u, exec (.spareColumnMap c col) s = .next u ∧
      u.core c.toNat = { s.core c.toNat with spareCol := some col, q0Ready := s.time + 256 } ∧ u.mem = s.mem ∧
      u.threads = s.threads ∧ Claims.Spared s.platform u.platform (.column c col)

/-- Completions and the events of the matrix engine: `Claims.MatrixCompletion`, `Claims.CopyCompletion`,
`Claims.EngineEvents`. -/
def Obligations.EngineCompletions : Prop :=
  Claims.MatrixCompletion ∧ Claims.CopyCompletion ∧ Claims.EngineEvents

/-- After copies of runs (source, destination, bytes) every byte of a destination holds the byte of a source as it was before
any copy, and every other byte is as it was (R338, R340). -/
def Claims.Moved (m m' : List Host.Cell) (runs : List (Nat × Nat × Nat)) : Prop :=
  ∀ a, (if ∃ r ∈ runs, r.2.1 ≤ a ∧ a < r.2.1 + r.2.2 then
      ∃ r ∈ runs, ∃ i, i < r.2.2 ∧ r.2.1 + i = a ∧ loadByte m' a = loadByte m (r.1 + i)
    else loadByte m' a = loadByte m a)

/-- A run that moves its bytes unchanged within the scratchpads and Carafes of the module: its ends lie there, no element
conversion applies, and no inbox ring is written (R124, R339). -/
def Claims.plainRun (s : State) (r : Nat × Nat × Nat) : Prop :=
  s.runConverts [] r.1 r.2.1 r.2.2 = false ∧ s.hitsInbox r.2.1 r.2.2 = false ∧ r.1 + r.2.2 ≤ 0x100000000000 ∧ r.2.1 + r.2.2 ≤ 0x100000000000

/-- R345, R346: a copy that names a buffer handle. An unbound handle fails it with code 4 and the handle in DETAIL; a
destination inside the region of a FREE handle makes it a copy-in, and the handle FILLING; a source inside the region of a
FULL handle makes it a copy-out, and the handle DRAINING. -/
def Claims.HandleCopies : Prop :=
  ∀ s (c : CoreId) h rest, s.Inv → Claims.CopyNext s c h rest → Claims.Clean s → Claims.Quiet s → (∀ n, (s.core n).lost = false) →
    h.word.getLsbD 12 = true → let n := (h.word.extractLsb' 224 24).toNat
    n ≠ 0 → Claims.formed h 0x40#8 (0x1000#256 ||| ((BitVec.allOnes 128).setWidth 256 <<< 64) ||| (0x3FFFFFFF#256 <<< 224)) →
    let own := 0x10000000000 + c.toNat * 0x80000
    let hd : Fin 64 := (h.word.extractLsb' 248 6).toFin
    let e := (s.core c.toNat).handles[hd]
    let out := fun (a : Nat) => a + n ≤ own ∨ own + 0x80000 ≤ a
    let inside := fun (a : Nat) => own + e.base.toNat ≤ a ∧ a + n ≤ own + e.base.toNat + e.len.toNat ∧ a + n ≤ own + 0x80000
    ∀ a b, s.copyAddr c.toNat h.job (h.word.extractLsb' 64 64) n = some a → s.copyAddr c.toNat h.job (h.word.extractLsb' 128 64) n = some b →
      Claims.plainRun s (a, b, n) →
      (e.bound = false → ∃ u r, exec (.copy1d c) s = .next u ∧ Claims.Copying s u c h rest r ∧ r.fail = some (4, hd.val) ∧
        u.mem = s.mem) ∧
      (e.bound = true → e.st = .free → inside b → out a → ∃ u r, exec (.copy1d c) s = .next u ∧
        Claims.Copying s u c h rest r ∧ r.fail = none ∧ r.copyIn = some (h.word.extractLsb' 248 6) ∧ r.copyOut = none ∧
        (u.core c.toNat).handles = (s.core c.toNat).handles.set hd { e with st := .filling } ∧ Claims.Moved s.mem u.mem [(a, b, n)]) ∧
      (e.bound = true → e.st = .full → inside a → out b → ∃ u r, exec (.copy1d c) s = .next u ∧
        Claims.Copying s u c h rest r ∧ r.fail = none ∧ r.copyOut = some (h.word.extractLsb' 248 6) ∧ r.copyIn = none ∧
        (u.core c.toNat).handles = (s.core c.toNat).handles.set hd { e with st := .draining } ∧ Claims.Moved s.mem u.mem [(a, b, n)])

/-- R104, R337, R338, R339, R340, R355, R356, R357, R358, R359, R360: the copies of a core with no copy at work. `copy.1d`
moves one run, `copy.nd` one run for each index vector of its descriptor, `gath` and `scat` one element for each index,
`fill` repeats its literal; a run that a copy may not name, its destination taken in its own width (R124), fails it with code 3 and
DETAIL 7, and nothing is written. A copy
takes at least 24 cycles and one for each beat. `allred` records its contribution, emits one frame for each 32 bytes of it
and then one arrival, or sends the arrival to the hub of another home rank, and waits for its phase. -/
def Claims.PlainCopies : Prop :=
  ∀ s (c : CoreId) h rest, s.Inv → Claims.CopyNext s c h rest → Claims.Clean s → (∀ n, (s.core n).lost = false) →
    h.word.getLsbD 12 = false → let n := (h.word.extractLsb' 224 24).toNat
    n ≠ 0 →
    let from_ := h.word.extractLsb' 64 64
    let to_ := h.word.extractLsb' 128 64
    let aux := (h.word.extractLsb' 192 19).toNat
    let local_ := 0x10000000000 + c.toNat * 0x80000
    let ends : BitVec 256 := (0xFFFFFFFFFFFFFFFF#256 <<< 128) ||| (0xFFFFFF#256 <<< 224)
    let source : BitVec 256 := 0xFFFFFFFFFFFFFFFF#256 <<< 64
    let auxBits : BitVec 256 := 0x7FFFF#256 <<< 192
    let word := fun (a : Nat) => BitVec.ofNat 64 (readBytes s.mem (local_ + a) 8)
    let moves := fun (i : Instr) (runs : List (Nat × Nat × Nat)) (beats : Nat) => ∃ u r, exec i s = .next u ∧
      Claims.Copying s u c h rest r ∧ r.fail = none ∧ r.flags = 0#6 ∧ r.written = (runs.map (·.2.2)).sum ∧
      s.time + 24 + beats ≤ r.due ∧ Claims.Moved s.mem u.mem runs ∧ u.full = s.full
    let fails := fun (i : Instr) => ∃ u r, exec i s = .next u ∧ Claims.Copying s u c h rest r ∧ r.fail = some (3, 7) ∧
      r.written = 0 ∧ u.mem = s.mem
    (Claims.formed h 0x40#8 (ends ||| source) →
      (∀ a b, s.copyAddr c.toNat h.job from_ n = some a → s.copyAddr c.toNat h.job to_ n = some b → Claims.plainRun s (a, b, n) →
        moves (.copy1d c) [(a, b, n)] ((n + 63) / 64)) ∧
      (s.copyAddr c.toNat h.job from_ n = none ∨ s.copyAddr c.toNat h.job to_ 1 = none → fails (.copy1d c)) ∧
      ∀ a b, s.copyAddr c.toNat h.job from_ n = some a → s.copyAddr c.toNat h.job to_ 1 = some b →
        s.copyAddr c.toNat h.job to_ (s.destBytes true a b n) = none → fails (.copy1d c)) ∧
    (Claims.formed h 0x41#8 (ends ||| source ||| auxBits ||| (0xF#256 <<< 216)) →
      let d := (h.word.extractLsb' 216 4).toNat + 1
      let dims := (List.range d).map fun j => (word (aux + 32 * j), word (aux + 32 * j + 8), word (aux + 32 * j + 16))
      aux % 16 = 0 → aux + 32 * d ≤ 0x80000 → (∀ j, j < d → word (aux + 32 * j + 24) = 0#64) →
      (∀ x ∈ dims, x.1 ≠ 0#64 ∧ x.1.toNat < 2 ^ 32) → (dims.map (·.1.toNat)).prod ≤ 2 ^ 32 →
      let offs := dims.foldr (fun x l => l.flatMap fun o => (List.range x.1.toNat).map fun i =>
        (o.1 + BitVec.ofNat 64 i * x.2.1, o.2 + BitVec.ofNat 64 i * x.2.2)) [((0#64 : Word), (0#64 : Word))]
      ∀ runs, (∀ o ∈ offs, ∃ a b, s.copyAddr c.toNat h.job (from_ + o.1) n = some a ∧ s.copyAddr c.toNat h.job (to_ + o.2) n = some b) →
        runs = offs.map (fun o => ((s.copyAddr c.toNat h.job (from_ + o.1) n).getD 0, (s.copyAddr c.toNat h.job (to_ + o.2) n).getD 0, n)) →
        (∀ r ∈ runs, Claims.plainRun s r) → moves (.copyNd c) runs ((runs.length * n + 63) / 64)) ∧
    (∀ scatter : Bool, Claims.formed h (if scatter then 0x43#8 else 0x42#8) (ends ||| source ||| auxBits ||| (3#256 <<< 220)) →
      let w := match (h.word.extractLsb' 220 2).toNat with | 0 => 8 | 1 => 16 | 2 => 64 | _ => 256
      let index := fun (j : Nat) => readBytes s.mem (local_ + aux + 4 * j) 4
      let at_ := fun (base : Word) (j : Nat) => s.copyAddr c.toNat h.job (base + BitVec.ofNat 64 (j * w)) w
      let run := fun (j : Nat) => if scatter then (at_ from_ j, at_ to_ (index j)) else (at_ from_ (index j), at_ to_ j)
      aux % 16 = 0 → aux + 4 * n ≤ 0x80000 → (∀ j, j < n → ∃ a b, run j = (some a, some b)) →
      ∀ runs, runs = ((List.range n).map fun j => ((run j).1.getD 0, (run j).2.getD 0, w)) →
        (∀ r ∈ runs, s.hitsInbox r.2.1 w = false ∧ r.1 + w ≤ 0x100000000000 ∧ r.2.1 + w ≤ 0x100000000000) →
        moves (if scatter then .scat c else .gath c) runs n) ∧
    (Claims.formed h 0x44#8 (ends ||| 0x100#256 ||| (0xFFFFFFFF#256 <<< 64)) → h.word.getLsbD 8 = true →
      (s.copyAddr c.toNat h.job to_ n = none → fails (.fill c)) ∧
      ∀ b, s.copyAddr c.toNat h.job to_ n = some b → s.hitsInbox b n = false → b + n ≤ 0x100000000000 →
        ∃ u r, exec (.fill c) s = .next u ∧ Claims.Copying s u c h rest r ∧ r.fail = none ∧ r.written = n ∧
          s.time + 24 + (n + 63) / 64 ≤ r.due ∧
          (∀ i, i < n → loadByte u.mem (b + i) = h.word.extractLsb' (64 + 8 * (i % 4)) 8) ∧
          ∀ a, a < b ∨ b + n ≤ a → loadByte u.mem a = loadByte s.mem a) ∧
    (Claims.formed h 0x48#8 (ends ||| source ||| auxBits ||| (3#256 <<< 220) ||| 0x2000#256) →
      h.word.extractLsb' 220 2 ≠ 3#2 → aux % 16 = 0 → aux + 16 ≤ 0x80000 → from_.toNat + n ≤ 0x80000 →
      to_.toNat + n ≤ 0x80000 → s.hitsInbox (local_ + to_.toNat) n = false →
      ∀ (i : BitVec 10) g, readBytes s.mem (local_ + aux) 16 = i.toNat → s.group? h.group = some g →
      let o := s.pourObj i.toNat
      o.kind = 1#2 → o.job = g.job → o.scope = h.word.getLsbD 13 → 8 ≤ n → n ≤ 4096 → n % 8 = 0 →
      ∃ u r x l, exec (.allred c) s = .next u ∧ (u.core c.toNat).copies = [r] ∧ (u.core c.toNat).q4 = rest ∧ r.cmd = h ∧
        r.gate = some (i, o.phase) ∧ u.allreds = [x] ∧ x.obj = i ∧ x.phase = o.phase ∧ x.gtid = h.gtid ∧ x.count = n ∧
        x.seen = 0 ∧ x.data.length = n ∧ (∀ j b, x.data[j]? = some b → b = loadByte s.mem (local_ + from_.toNat + j)) ∧
        u.mem = s.mem ∧ u.threads = s.threads ∧ u.emitQ (c.toNat / 8) = s.emitQ (c.toNat / 8) ++ l ∧
        (∀ q ∈ l, q.f.obj = i ∧ q.f.gtid = h.gtid ∧ q.due = s.time) ∧
        if o.scope = true ∧ o.home ≠ s.ownRank h.job then
          l.map (·.ty) = List.replicate ((n + 31) / 32) .allred ∧ ∃ f : Frame, f.obj = i ∧ f.gtid = h.gtid ∧
            u.peerFrames = s.peerFrames ++ [({ job := h.job, rank := o.home }, .bararr, f)]
        else l.map (·.ty) = List.replicate ((n + 31) / 32) .allred ++ [.bararr] ∧ u.peerFrames = s.peerFrames)

/-- R104, R337 to R340, R345, R346, R355 to R360: the copies, without a buffer handle and with one. -/
def Obligations.Copies : Prop := Claims.PlainCopies ∧ Claims.HandleCopies

/-! ### Loading, jobs, boot and the platform (02_assembler, 05_scalar, 17_traps, 21_platform) -/

/-- R47, R50, R54, R60, R61, R119: loading. An object with a symbol that neither it nor a loaded object of its job gives, or with a
relocation out of range, is rejected whole. One whose launches name dies and that conflicts with nothing puts its text into
memory, its scratchpad bytes, with their full/empty bits, on every core of those dies, its bank registers on those cores, with
LINE and DYN zero, its exported symbols among those of its job, and its launches into the task queues; a granule that it writes
is whole, zero where it gives no byte. The object comes as parsed records (DESIGN CHOICE 81). -/
def Claims.ObjectLoads : Prop :=
  ∀ s o, s.Inv → Claims.Quiet s → s.packets = [] →
    ((∃ n ∈ o.imports ++ o.relocs.map (·.symbol), (∀ x ∈ o.symbols, x.name ≠ n) ∧
        ∀ l ∈ s.loaded, l.job = o.job → ∀ e ∈ l.exports, e.1 ≠ n) → exec (.objectLoad o) s = .next s) ∧
    (∀ r v, r ∈ o.relocs → s.symbolValue o r.symbol = some v → relocInRange r v = false → exec (.objectLoad o) s = .next s) ∧
    ∀ l : LaunchRec, (∀ n ∈ o.imports, ∃ x ∈ o.symbols, x.name = n) → o.relocs = [] → o.carafe = [] → o.rings = [] →
      o.launches = [l] → l.clear = false → l.argSym = none →
      s.loaded = [] → s.full.Nodup → (∀ n, (s.core n).lost = false) → (∀ x ∈ o.text, 0x100000000000 ≤ x.1) →
      (o.text.map (·.1)).Nodup → (∀ x ∈ o.spad, x.1 < 0x80000) → (o.spad.map (·.1)).Nodup → (o.banks.map (·.bank)).Nodup →
      ∃ u, exec (.objectLoad o) s = .next u ∧ u.threads = s.threads ∧
        (∀ x ∈ o.text, loadByte u.mem x.1 = x.2) ∧
        (∃ L, u.launches = s.launches ++ [L] ∧ L.count = l.count.toNat ∧ L.ended = 0 ∧ L.job = o.job ∧ L.die = l.die ∧
          L.done = l.done ∧ L.cls = l.cls) ∧
        (∃ y, u.loaded = [y] ∧ y.name = o.name ∧ y.job = o.job ∧
          ∀ e, e ∈ y.exports ↔ ∃ x ∈ o.symbols, x.exported = true ∧ e = (x.name, x.value)) ∧
        ∀ c, c / 1024 = l.die.toNat →
          let base := 0x10000000000 + c * 0x80000
          (∀ b ∈ o.banks, (u.core c).bfmt[b.bank.toNat] =
            0#24 ++ b.scale.extractLsb' 4 15 ++ 0#12 ++ BitVec.ofBool b.axis ++ b.group ++ 0#5 ++ b.fmt) ∧
          (∀ x ∈ o.spad, loadByte u.mem (base + x.1) = x.2 ∧ ((base + x.1) / 16 ∈ u.full ↔ x.1 / 16 ∈ o.spadFull)) ∧
          ∀ a, a < 0x80000 → (∀ x ∈ o.spad, x.1 ≠ a) →
            loadByte u.mem (base + a) = if ∃ x ∈ o.spad, x.1 / 16 = a / 16 then 0#8 else loadByte s.mem (base + a)

/-- R50, R139, R418: the end of a job leaves no launch, no loaded object and no group of it, and no thread of it in its slot;
a replay item that is delivered stands behind the others (DEDUCED 70, DESIGN CHOICE 72). -/
def Claims.JobEnds : Prop :=
  (∀ s job, ∃ u, exec (.jobEnd job) s = .next u ∧ (∀ l ∈ u.launches, l.job ≠ job) ∧ (∀ o ∈ u.loaded, o.job ≠ job) ∧
    (∀ g ∈ u.groups, g.job ≠ job) ∧ (∀ j ∈ u.jobs, j.id ≠ job) ∧
    ∀ tid t, s.threads = [(tid, t)] → s.rovers = [] → s.launches = [] → t.gang = none →
      (t.job = job → u.threads = []) ∧ (t.job ≠ job → t.wait = none → u.threads = s.threads)) ∧
  ∀ s x, exec (.replayItemDelivery x) s = .next { s with replayIn := s.replayIn ++ [x] }

/-- R47, R50, R60, R61, R139, R418: objects, jobs and replay items. -/
def Claims.ObjectsAndJobs : Prop := Claims.ObjectLoads ∧ Claims.JobEnds

/-- The copy of an image verifies: signature, key, type and security version (R428). -/
def Claims.verified (p : Platform) (k : ImageKind) (i : ImageRec) : Prop :=
  i.sigOk = true ∧ p.revoked.getLsbD i.key.toNat = false ∧ i.typeOk = true ∧
    (((p.svnMin.find? fun x => x.1 == k).map (·.2)).getD 0#6).toNat ≤ i.svn.toNat

/-- The preferred copy of an image, which verifies. -/
def Claims.copyOf (p : Platform) (second : Bool) (k : ImageKind) (i : ImageRec) : Prop :=
  ((if second then p.imagesB else p.imagesA).find? fun x => x.1 == k).map (·.2) = some i ∧ Claims.verified p k i

/-- The boot has failed: the module stands in reset, off, with no core slot enabled and no memory written (DESIGN CHOICE 4); the reason
is `code` unless one is there, and the stage of the failure is in bits 7:6 of the status byte (R433; for every code, DESIGN
CHOICE 73). -/
def Claims.bootFailed (u : State) (p : Platform) (code : BitVec 8) : Prop :=
  u.platform.mode = .off ∧ u.enabled = false ∧ u.threads = [] ∧ u.mem = [] ∧
    (u.platform.reason = if p.reason = 0#8 then code else p.reason) ∧
    u.platform.smbus.extractLsb' 6 2 = if p.reason = 0#8 then p.stage else p.failStage

/-- Stage `n` of a boot has begun in `u`, and its watchdog ends `secs` seconds later (R427). -/
def Claims.atStage (u : State) (n : BitVec 2) (secs now : Nat) : Prop :=
  u.platform.mode = .booting ∧ u.platform.stage = n ∧
    ∃ y ∈ u.timed, y.what = .watchdog n ∧ y.due = now + secs * 1250000000

/-- R34, R427, R428, R429, R430, R431, R432, R433, R434: boot. Power starts stage 0, counts the attempt, and puts what was written
during the last boot into the flash; after three failures the recovery image runs alone, in minimal mode, or the root-of-trust core
when it does not verify, with reason 0x05 when that broke off a boot. Stage 0 uses copy A of the stage-1 image first (DEDUCED 40);
stage 1 verifies the record, the house and the die image, stage 2 the links and the operating system, and stage 3 the Casot image:
then core slots are enabled and the failures are cleared. A failure stops the boot with its reason code, and leaves the module off
(DEDUCED 42); so does the watchdog of a stage, after 1, 2, 60 and 120 s. -/
def Claims.Boot : Prop :=
  (∀ s, let p := s.platform
    (p.failures < 3 → ∃ u, exec .powerOn s = .next u ∧ Claims.atStage u 0#2 1 u.time ∧ u.platform.failures = p.failures + 1 ∧
      u.platform.reason = 0#8 ∧ u.enabled = false ∧ u.threads = [] ∧ u.mem = [] ∧ (∀ n : Fin 8, u.platform.measure[n] = 0#512) ∧
      ∀ k b i, p.later = [.image k b i] → k ≠ .recovery →
        ((if b then u.platform.imagesB else u.platform.imagesA).find? fun x => x.1 == k).map (·.2) = some i) ∧
    (3 ≤ p.failures → p.later = [] → ∃ u, exec .powerOn s = .next u ∧ u.enabled = false ∧ u.threads = [] ∧
      (p.mode = .booting → p.reason = 0#8 → u.platform.reason = 0x05#8) ∧
      (∀ i, p.recovery = some i → Claims.verified p .recovery i → u.platform.mode = .minimal) ∧
      ((∀ i, p.recovery = some i → ¬ Claims.verified p .recovery i) → u.platform.mode = .dead))) ∧
  (∀ s t, let p := s.platform
    (p.mode ≠ .booting → exec (.bootStage t) s = .next s ∧ exec .watchdogExpiry s = .next s) ∧
    (p.mode = .booting →
      (∃ u, exec .watchdogExpiry s = .next u ∧ Claims.bootFailed u p 0x05#8) ∧
      (∃ u, runDue (.watchdog p.stage) s = .next u ∧ Claims.bootFailed u p 0x05#8) ∧
      (∀ n, n ≠ p.stage → runDue (.watchdog n) s = .next s) ∧
      (p.stage = 0#2 →
        (∀ i, Claims.copyOf p false .stage1 i → ∃ u, exec (.bootStage t) s = .next u ∧ Claims.atStage u 1#2 2 s.time ∧
          u.mem = s.mem ∧ u.platform.measure[0] = sha512 (bytes64 p.measure[0] ++ bytes64 i.digest)) ∧
        ((∀ b i, ¬ Claims.copyOf p b .stage1 i) → ∃ u, exec (.bootStage t) s = .next u ∧ Claims.bootFailed u p 0x01#8)) ∧
      (p.stage = 1#2 →
        (p.recordA = none → p.recordB = none → ∃ u, exec (.bootStage t) s = .next u ∧ Claims.bootFailed u p 0x03#8) ∧
        ∀ b r, p.chooseRecord = some (b, r) →
          (∀ h d, Claims.copyOf p (r.pref == 1#16) .house h → Claims.copyOf p (r.pref == 1#16) .die d →
            ∃ u, exec (.bootStage t) s = .next u ∧ Claims.atStage u 2#2 60 s.time ∧
              u.platform.record = some (b, r) ∧ u.mem = s.mem) ∧
          ((∀ x h, ¬ Claims.copyOf p x .house h) → ∃ u, exec (.bootStage t) s = .next u ∧ Claims.bootFailed u p 0x02#8)) ∧
      (p.stage = 2#2 → ∀ b r, p.record = some (b, r) → (∀ n, n < 96 → n ∈ t.channels) →
        (t.pourLock = false → ∃ u, exec (.bootStage t) s = .next u ∧ Claims.bootFailed u p 0x07#8) ∧
        (t.pourLock = true → t.supplyOk = false → ∃ u, exec (.bootStage t) s = .next u ∧ Claims.bootFailed u p 0x08#8) ∧
        (t.pourLock = true → t.supplyOk = true → r.tinmax.toNat < t.inletTemp →
          ∃ u, exec (.bootStage t) s = .next u ∧ Claims.bootFailed u p 0x09#8) ∧
        (t.pourLock = true → t.supplyOk = true → t.inletTemp ≤ r.tinmax.toNat → ∀ o,
          Claims.copyOf p (r.pref == 1#16) .os o → ∃ u, exec (.bootStage t) s = .next u ∧ Claims.atStage u 3#2 120 s.time ∧
            u.platform.trained = t.channels ∧ u.platform.cxlUp = r.cxlen.extractLsb' 0 10 &&& t.cxl ∧
            (∀ n : Fin 12, (u.ports[n]).lanes = if r.keaten.getLsbD n then 16#5 else 0#5) ∧ u.mem = s.mem)) ∧
      (p.stage = 3#2 → ∀ b r, p.record = some (b, r) →
        (∀ i, Claims.copyOf p (r.pref == 1#16) .casot i → ∃ u, exec (.bootStage t) s = .next u ∧
          u.platform.mode = .normal ∧ u.platform.failures = 0 ∧ u.enabled = true ∧ u.mem = s.mem ∧ u.threads = s.threads) ∧
        ((∀ x i, ¬ Claims.copyOf p x .casot i) → ∃ u, exec (.bootStage t) s = .next u ∧ Claims.bootFailed u p 0x04#8))))

/-- Loading objects, the end of a job, and boot: `Claims.ObjectsAndJobs`, `Claims.Boot`. -/
def Obligations.ObjectsJobsAndBoot : Prop :=
  Claims.ObjectsAndJobs ∧ Claims.Boot

/-- R429, R431, R432, R433, R436, R438: measurement, quotes and management. While the house firmware runs it extends registers 6 and
7 alone; management traffic is taken on a port that is up and, where a record gives MGMTVLAN, on that VLAN; a quote begins with its
nonce (DESIGN CHOICE 41); a write of an image that verifies replaces a copy that is not running, at once or, during a boot, at the
next, and any other write is ignored (DEDUCED 42); a reset boots again, in minimal mode with no failures; a power-down and a supply
out of range leave the module off. -/
def Claims.Management : Prop :=
  ∀ s, let p := s.platform
    let up := p.mode = .booting ∨ p.mode = .normal ∨ p.mode = .minimal
    let house := p.mode = .booting ∧ 2 ≤ p.stage.toNat ∨ p.mode = .normal ∨ p.mode = .minimal
    let takes := up ∧ p.ports[if p.mgmtIn.1 then 1 else 0]? = some true ∧ ∀ v, p.mgmtVlan = some v → v = p.mgmtIn.2.setWidth 16
    (∀ (n : BitVec 3) d, (house → ∀ i : Fin 8, i = n.toFin → 6 ≤ i.val → exec (.measurementExtend n d) s =
        .next { s with platform := { p with measure := p.measure.set i (sha512 (bytes64 p.measure[i] ++ bytes64 d)) } }) ∧
      (¬ house ∨ n.toNat < 6 → exec (.measurementExtend n d) s = .next s)) ∧
    (¬ takes → (∀ nonce, exec (.quoteRequest nonce) s = .next s) ∧
      (∀ x, exec (.mgmtWrite x) s = .next s) ∧ exec .mgmtReset s = .next s) ∧
    (takes →
      (∀ nonce, ∃ u q, exec (.quoteRequest nonce) s = .next u ∧ u = { s with platform := u.platform } ∧
        u.platform.quotes = p.quotes ++ [q] ∧ ∃ body, q = bytes64 nonce ++ body) ∧
      (∀ k b i, k ≠ .recovery → k ≠ .record →
        (¬ Claims.verified p k i ∨ (∃ x, (k, b, x) ∈ p.running) → exec (.mgmtWrite (.image k b i)) s = .next s) ∧
        (Claims.verified p k i → (∀ x, (k, b, x) ∉ p.running) →
          (p.mode = .booting → exec (.mgmtWrite (.image k b i)) s =
            .next { s with platform := { p with later := p.later ++ [.image k b i] } }) ∧
          (p.mode ≠ .booting → ∃ u, exec (.mgmtWrite (.image k b i)) s = .next u ∧
            u = { s with platform := u.platform } ∧ Claims.copyOf u.platform b k i ∧
            (if b then u.platform.imagesA = p.imagesA else u.platform.imagesB = p.imagesB)))) ∧
      (p.mode = .minimal → ∃ u, exec .mgmtReset s = .next u ∧ u.platform.mode = .booting ∧ u.platform.failures = 1 ∧
        u.threads = []) ∧
      (p.mode = .normal → p.failures < 3 → ∃ u, exec .mgmtReset s = .next u ∧ u.platform.mode = .booting ∧
        u.platform.failures = p.failures + 1 ∧ u.threads = [])) ∧
    (∃ u, exec .smbusPowerDown s = .next u ∧ u.platform.mode = .off ∧ u.platform.powered = false ∧ u.enabled = false ∧
      u.threads = [] ∧ u.mem = [] ∧ (p.mode = .booting → p.reason = 0#8 → u.platform.reason = 0x05#8)) ∧
    ∃ u, exec .supplyOutOfRange s = .next u ∧ u.platform.mode = .off ∧ u.platform.powered = false ∧ u.threads = [] ∧
      (p.mode = .booting → p.reason = 0#8 → u.platform.reason = 0x08#8)

/-- R189, R317, R434, R435, R436, R437, R439: parts that fail and the standard interfaces. A junction trip loses the threads of its
die and of no other; while the input power is above the cap, PCAP up to 2,600 W, a cluster's budget is lowered from the next window
on; the coolant limit raises the hot action, upon which every core disables slots; a retired channel is recorded once and logged,
and a third takes its die's pages to tier 2 (DEDUCED 42), or fails a boot; added CXL capacity is mapped once a port is up, and
accesses to capacity that goes meet a refused translation (DESIGN CHOICE 73); an arrival from the network is written at its address
while the module runs and a port is up, but for one on MGMTVLAN (DESIGN CHOICE 71); what a trip loses is DEDUCED 69. -/
def Claims.PlatformEvents : Prop :=
  (∀ s (d : BitVec 2), s.Inv → ∃ u, exec (.junctionTrip d) s = .next u ∧ (u.die d.toNat).tripped = true ∧ u.mem = s.mem ∧
    ∀ n, u.thread? n = if n / 16384 = d.toNat then none else s.thread? n) ∧
  (∀ s (n : BitVec 9) (b : BitVec 16),
    let cap := (s.platform.record.map fun r => min 2600 r.2.pcap.toNat).getD 2600
    (s.platform.inputPower ≤ cap → exec (.powerCapExceeded n b) s = .next s) ∧
    (cap < s.platform.inputPower → ∃ u, exec (.powerCapExceeded n b) s = .next u ∧
      u.cluster n.toNat = { s.cluster n.toNat with budgetNext := some (match (s.cluster n.toNat).budget with
        | some x => min x b.toNat
        | none => b.toNat) } ∧ u.cores = s.cores ∧ u.mem = s.mem)) ∧
  (∀ s, ∃ u, exec .coolantLimit s = .next u ∧ u.platform = { s.platform with hotAction := true } ∧ u.threads = s.threads ∧
    u.cores = s.cores ∧ u.mem = s.mem ∧ ∀ (c : CoreId) k, (c.toNat, k) ∈ s.cores →
      ∃ y ∈ u.timed, y.what = .thermalDisable c ∧ y.due = s.time) ∧
  (∀ s (ch : BitVec 7), let d := ch.toNat / 24
    (96 ≤ ch.toNat ∨ ch ∈ (s.die d).retired → exec (.channelRetire ch) s = .next s) ∧
    (ch.toNat < 96 → ch ∉ (s.die d).retired →
      ((s.die d).retired.length < 2 → ∃ u, exec (.channelRetire ch) s = .next u ∧
        (u.die d).retired = (s.die d).retired ++ [ch] ∧ u.mem = s.mem ∧ u.pages = s.pages ∧
        Claims.Spared s.platform u.platform (.channel ch)) ∧
      (2 ≤ (s.die d).retired.length →
        (s.platform.mode = .booting → ∃ u, exec (.channelRetire ch) s = .next u ∧ Claims.bootFailed u s.platform 0x06#8) ∧
        (s.platform.mode ≠ .booting → ∃ u, exec (.channelRetire ch) s = .next u ∧
          (u.die d).retired = (s.die d).retired ++ [ch] ∧ u.mem = s.mem ∧ ∀ p ∈ u.pages, p.home.toNat = d → p.tier2 = true)))) ∧
  (∀ s page b,
    (page.tier2 = true → s.platform.cxlUp ≠ 0#10 → exec (.cxlCapacityChange (.add page)) s = exec (.pageMap page) s) ∧
    (s.platform.cxlUp = 0#10 → exec (.cxlCapacityChange (.add page)) s = .next s) ∧
    exec (.cxlCapacityChange (.remove b)) s = exec (.cxlCapacityChange (.release b)) s ∧
    ((∀ p ∈ s.pages, p.base ≠ b) → exec (.cxlCapacityChange (.release b)) s = .next s) ∧
    ((∃ p ∈ s.pages, p.base = b) → ∃ u, exec (.cxlCapacityChange (.release b)) s = .next u ∧ (∀ p ∈ u.pages, p.base ≠ b) ∧
      u.mem = s.mem ∧ ∃ n, (b, n) ∈ u.released)) ∧
  (∀ s port vlan a l, s.Inv →
    (s.platform.mode = .normal → s.platform.ports = Vector.replicate 2 true → s.platform.mgmtVlan = none → l ≠ [] →
      l.length ≤ 9216 → 0x100000000000 ≤ a → a + l.length ≤ 0x200000000000 →
      ∃ u, exec (.ethernetFrame port vlan a l) s = .next u ∧ (∀ i b, l[i]? = some b → loadByte u.mem (a + i) = b) ∧
        (∀ x, x < a ∨ a + l.length ≤ x → loadByte u.mem x = loadByte s.mem x) ∧ u.threads = s.threads) ∧
    (s.platform.mode ≠ .normal ∨ s.platform.ports = Vector.replicate 2 false ∨ s.platform.mgmtVlan = some (vlan.setWidth 16) →
      exec (.ethernetFrame port vlan a l) s = .next s)) ∧
  ∀ s b, ∃ u, exec (.ethernetFailover b) s = .next u ∧ u = { s with platform := u.platform } ∧
    u.platform.ports = s.platform.ports.setIfInBounds (if b then 1 else 0) false ∧
    Claims.Spared s.platform u.platform (.ethernet b)

/-- Management, parts that fail, and the standard interfaces: `Claims.Management`, `Claims.PlatformEvents`. -/
def Obligations.ManagementAndPlatform : Prop :=
  Claims.Management ∧ Claims.PlatformEvents

/-! ### Where the instructions on tasks, messages, casts and vector memory complete -/

/-- R181, R182, R183: `taskget` gives the monitor the oldest entry that is not held, or zeros when there is none or two are held;
`taskadd` of a well-formed entry of the thread's job returns the id of its new launch when the queue has room; `grow` returns the
count of the thread's launch before it grew, once it is accepted. Each goes on with the next instruction. -/
def Claims.TaskFormsComplete : Prop :=
  ∀ s tid t, Performs s tid t → Claims.Settled s tid t → t.vres = [] → ∀ (d a : Reg) (v : VReg),
    let k := s.core (tid.toNat / 16)
    let e := t.vreg v
    (s.isMonitor tid.toNat = true → ∃ u q, exec (.taskget v) s = .next u ∧ u.thread? tid.toNat = some q ∧ q.pc = t.pc + 4#64 ∧
      ((∀ b ∈ k.buffer, b.held = true) ∨ 2 ≤ k.buffer.countP (·.held) → q.vreg v = 0#512) ∧
      ∀ b rest, k.buffer = b :: rest → (∀ x ∈ k.buffer, x.held = false) → q.vreg v = b.entry) ∧
    (entryRq e = false → entryFault e false true = none → entryJob e = t.job →
      (s.die (entryDie e).toNat).queue.length < 16384 + Config.overflowEntries (entryDie e).toNat → s.launches.length < 65536 →
      ∃ u q l, exec (.taskadd d v) s = .next u ∧ u.thread? tid.toNat = some q ∧ q.pc = t.pc + 4#64 ∧
        u.launches = s.launches ++ [l] ∧ WroteReg t q d (l.id.setWidth 64) false ∧ l.count = (entryCount e).toNat) ∧
    ∀ l, s.launches = [l] → l.id = t.launch → 0 < (t.reg a).toNat → l.count + (t.reg a).toNat < 2 ^ 32 →
      Claims.Grows d a s tid t fun w r => WroteReg t r d (BitVec.ofNat 64 l.count) false ∧
        w.launches = [{ l with count := l.count + (t.reg a).toNat }]

/-- R253, R255, R268, R269: a message to a thread of this rank whose inbox can hold it enters the slot's outbound queue, and the
thread goes on; `recv`, `peek` and `btag` take the record at the head of an inbox that is not empty; a cast on a channel of the
thread's job leaves a frame in its station's queue, whose application lets the thread go on; `castsub` sets or clears the
channel's bit. -/
def Claims.MessageFormsComplete : Prop :=
  (∀ s tid t, Performs s tid t → Claims.Settled s tid t → Claims.Calm s → Claims.Quiet s → t.vres = [] → t.gang = none →
      t.latchCnt = none → ∀ (a b : Reg) (v : VReg) (tag : BitVec 4) (len : BitVec 2) (off : BitVec 12) (j : Job),
    let c := tid.toNat / 16
    let k := s.core c
    let dest := (t.reg a).toNat
    let head := 0x10000000000 + c * 0x80000 + (k.inboxb.extractLsb' 4 15).toNat * 16 + (k.inboxb.extractLsb' 48 16).toNat * 16
    let w := BitVec.ofNat 64 (readBytes s.mem head 8)
    let used := (k.inboxs.extractLsb' 32 16).toNat * 16
    let size := (k.inboxs.extractLsb' 0 16).toNat * 16
    let goes := fun (i : Instr) (pc : Word) (p : State → Thread → Prop) =>
      ∃ u q, exec i s = .next u ∧ u.thread? tid.toNat = some q ∧ q.pc = pc ∧ q.instret = t.instret + 1#64 ∧ p u q
    (tag ≠ 15#4 → dest / 2 ^ 16 = (s.ownRank t.job).toNat → (s.rankEntry { job := t.job, rank := s.ownRank t.job }).getLsbD 63 = true →
      Claims.recordBytes len ≤ (assocGet (dest / 16 % 4096) s.capacity).getD (if s.enabled then 4096 else 0) →
      k.outq = [] → s.packets = [] → Claims.NoneAtPort s → (∀ n : Fin 4, (k.fabqos[n]).extractLsb' 4 16 = 0#16) → s.messageOut tid.toNat = false →
      goes (.send a v tag len) (t.pc + 4#64) fun u q => q.x = t.x ∧ q.v = t.v ∧ ∃ m,
        (u.core c).outq = [(BitVec.ofNat 4 tid.toNat, m)] ∧ m.dest.toNat = dest ∧ m.tag = tag ∧ m.len = len) ∧
    (used ≠ 0 → Claims.recordBytes (w.extractLsb' 4 2) ≤ used → used ≤ size →
      (k.inboxb.extractLsb' 4 15).toNat * 16 + size ≤ 0x80000 → w.extractLsb' 6 2 ≠ 1#2 →
      goes (.recv b v) (t.pc + 4#64) (fun u q => q.reg b = (if b = 0#5 then 0#64 else w) ∧
        ((u.core c).inboxs.extractLsb' 32 16).toNat * 16 + Claims.recordBytes (w.extractLsb' 4 2) = used) ∧
      goes (.peek b v) (t.pc + 4#64) (fun u q => q.reg b = (if b = 0#5 then 0#64 else w) ∧ u.cores = s.cores) ∧
      let to_ := t.pc + 2#64 * off.signExtend 64 + 4#64 * (w.extractLsb' 0 4).setWidth 64
      (to_.toNat % 4 = 0 → goes (.btag off) to_ fun u q => q.x = t.x ∧ u.cores = s.cores)) ∧
    (s.jobs = [j] → j.id = t.job → dest ≤ 63 → j.channels.getLsbD dest = true →
      ((s.emitQ (tid.toNat / 128)).length < 16 → ∃ u q x, exec (.cast a v) s = .next u ∧ u.thread? tid.toNat = some q ∧
        q.wait.map (·.what) = some (.frame .cast .cast (BitVec.ofNat 10 dest)) ∧
        u.emitQ (tid.toNat / 128) = s.emitQ (tid.toNat / 128) ++ [x] ∧ x.ty = .cast ∧ x.f.payload = (t.vreg v).setWidth 256) ∧
      ((t.reg b).toNat ≤ 1 → goes (.castsub a b) (t.pc + 4#64) fun u q => q.x = t.x ∧
        (u.core c).subs.getLsbD dest = decide (t.reg b = 1#64)))) ∧
  ∀ s tid t f w, Claims.Sender s tid t f → t.wait = some w → w.what = .frame .cast .cast f.obj → s.cores = [] →
    ∃ u q, exec (.castFrame f) s = .next u ∧ u.thread? tid.toNat = some q ∧ q.pc = t.pc + 4#64 ∧ q.wait = none ∧ q.x = t.x

/-- R282, R283, R284: the strided and indexed loads and stores move a vector when every one of their addresses is aligned and lies
in the own window, the decoding load and the encoding store one unit of a bank with a valid format. -/
def Claims.VectorFormsComplete : Prop :=
  ∀ s tid t, Performs s tid t → t.vres = [] → Claims.Alone s tid → Claims.Settled s tid t → Claims.Clean s →
    (s.core (tid.toNat / 16)).lost = false → (s.core (tid.toNat / 16)).inboxs = 0#64 →
    ∀ (v b : VReg) (a x : Reg) (sc : BitVec 6) win el,
    let c := tid.toNat / 16
    let w := elBytes el
    let base := 0x10000000000 + c * 0x80000
    let step := fun (n : Nat) => t.reg a + BitVec.ofNat 64 n * t.reg x
    let index := fun (n : Nat) => t.reg a + ((t.vreg b).extractLsb' (8 * w * n) (8 * w)).signExtend 64
    let fits := fun (f : Nat → Word) => ∀ n, n < 64 / w → (f n).toNat % w = 0 ∧ (f n).toNat < 0x80000
    let ea := t.reg a + 64#64 * sc.signExtend 64
    let r := (s.core c).bfmt[ea.toNat / 16384 % 32]
    let goes := fun (i : Instr) (p : State → Thread → Prop) => ∃ u q, exec i s = .next u ∧ u.thread? tid.toNat = some q ∧
      q.pc = t.pc + 4#64 ∧ q.x = t.x ∧ p u q
    let loads := fun (i : Instr) (f : Nat → Word) => goes i fun _ q =>
      ∀ n, n < 64 / w → Claims.lane (q.vreg v) (8 * w) n = readBytes s.mem (base + (f n).toNat) w
    let stores := fun (i : Instr) (f : Nat → Word) => goes i fun u _ => u.mem = (List.range (64 / w)).foldl (fun m n =>
      writeBytes m (base + (f n).toNat) w (Claims.lane (t.vreg v) (8 * w) n)) s.mem
    (fits step → loads (.vlds v a x el win) step ∧ stores (.vsts v a x el win) step) ∧
    (fits index → loads (.vgat v a b el win) index ∧ stores (.vsca v a b el win) index) ∧
    (ea.toNat % unitBytes r = 0 → ea.toNat < 0x80000 → bfInvalid r = false → unitBad s.mem c r ea.toNat = false →
      (goes (.vldD v a sc .plain win) fun _ q => q.vreg v = (decodeUnit s.mem c r ea.toNat).1) ∧
      (bfDyn r = false → goes (.vstE v a sc .plain win) fun u q => q.v = t.v ∧
        u.mem = writeCells s.mem (encodeUnit s.mem c r ea.toNat (t.vreg v)).1))

/-- R162, R163, R165, R253, R378: the events of the task queue unit, the delivery of a message to an empty ring that can hold it,
and the request, the acceptance and the end of a resume. -/
def Claims.EventsComplete : Prop :=
  (∀ s (d : BitVec 2) x, s.cores = [] → s.threads = [] → s.susps = [] → s.resumes = [] → (s.die d.toNat).doneMsgs = [] →
    s.enabled = true → (s.die d.toNat).queue = [x] → x.since ≤ s.time → x.lo + 1 = x.hi → x.cls = 1 → entryKind x.entry = 1 →
    entryLevel x.entry = 0 → entryClass x.entry ≠ 0#2 → entryCtrl x.entry = false →
    ∃ u k p, exec (.tquDeal d) s = .next u ∧ u.threads = [(k, p)] ∧ p.pc = entryPc x.entry ∧ (u.die d.toNat).queue = []) ∧
  (∀ s (d : BitVec 2) x, (s.die d.toNat).queue = [x] →
    (x.cls = 3 → x.since + 2500000 ≤ s.time → ∃ u, exec (.class3Aging d) s = .next u ∧
      (u.die d.toNat).queue = [{ x with cls := 2, since := s.time, first := false }]) ∧
    (x.cls = 2 → x.since + 10000000 ≤ s.time → ∃ u, exec (.class2Aging d) s = .next u ∧
      (u.die d.toNat).queue = [{ x with cls := 1, since := s.time, first := false }])) ∧
  (∀ s (c : CoreId) b (n : BitVec 4), (s.core c.toNat).buffer = [b] → b.held = false → b.claim = some n →
    entryKind b.entry = 1 → entryLevel b.entry = 0 → entryCtrl b.entry = false → entryClass b.entry ≠ 0#2 →
    (s.core c.toNat).slotcfg.getLsbD 0 = false → ∃ u p, exec (.taskStart c) s = .next u ∧
      u.thread? (c.toNat * 16 + n.toNat) = some p ∧ p.pc = entryPc b.entry ∧ (u.core c.toNat).buffer = []) ∧
  (∀ s (tid : BitVec 16) m, s.Inv → Claims.Calm s → Claims.Quiet s → Claims.Clean s → m.dest.extractLsb' 16 6 = s.ownRank m.job →
    s.packets = [] → Claims.NoneAtPort s → (∀ n : Fin 4, ((s.core (tid.toNat / 16)).fabqos[n]).extractLsb' 4 16 = 0#16) →
    (s.core (tid.toNat / 16)).outq = [(BitVec.ofNat 4 tid.toNat, m)] →
    let c := (m.dest.extractLsb' 0 16).toNat / 16
    let k := s.core c
    let size := (k.inboxs.extractLsb' 0 16).toNat * 16
    k.inboxs.extractLsb' 32 16 = 0#16 → (k.inboxb.extractLsb' 4 15).toNat * 16 + size ≤ 0x80000 →
    k.marks.getLsbD ((m.dest.extractLsb' 0 16).toNat % 16) = false → Claims.recordBytes m.len ≤ size →
    ∀ i ∈ [Instr.messageOffer tid, .messageReoffer tid], ∃ u, exec i s = .next u ∧ (u.core (tid.toNat / 16)).outq = [] ∧
      ((u.core c).inboxs.extractLsb' 32 16).toNat * 16 = Claims.recordBytes m.len) ∧
  (∀ s tid t, Performs s tid t → Claims.Settled s tid t → ∀ (a b : Reg), Claims.InCarafe (t.reg a) 128 → ∀ l,
    s.resumeCheck (t.reg a).toNat (tid.toNat / 16) t.job none (some tid.toNat) = .ok l →
    ∃ u q r, exec (.resm a b) s = .next u ∧ u.thread? tid.toNat = some q ∧ u.resumes = s.resumes ++ [r] ∧
      r.addr = (t.reg a).toNat ∧ r.version = t.reg b ∧ q.wait.map (·.what) = some (.resuming r.id)) ∧
  ∀ s r, s.resumes = [r] → r.accepted = false → objValid s.mem r.addr = true → objOutcp s.mem r.addr = 0 →
    objState s.mem r.addr = 1 → objVersion s.mem r.addr = r.version →
    ∃ u q, exec (.resumeAccept r.id) s = .next u ∧ objState u.mem r.addr = 4 ∧ u.resumes = [q] ∧ q.accepted = true

/-- R162, R163, R165, R181, R182, R183, R253, R268, R269, R282, R283, R284, R378: where the instructions on tasks, messages, casts,
resumes and vector memory complete, and their events: `Claims.TaskFormsComplete`, `Claims.MessageFormsComplete`,
`Claims.VectorFormsComplete`, `Claims.EventsComplete`. -/
def Obligations.InstructionsComplete : Prop :=
  Claims.TaskFormsComplete ∧ Claims.MessageFormsComplete ∧ Claims.VectorFormsComplete ∧ Claims.EventsComplete

/-! ### The machine as a whole -/

/-- Words of the spec's worked encodings, one or more for each family, with the instruction each stands for (R62, R95, R148, R176,
R204, R238, R266, R281, R319, R349, R376, R412). -/
def Claims.workedWords : List (BitVec 32 × Instr) :=
  [(0x0073028B#32, .min 5#5 6#5 7#5), (0x8673028B#32, .sel 5#5 3#6 6#5 7#5), (0x0805850B#32, .clz 10#5 11#5),
   (0x1000028B#32, .pmvXp 5#5), (0x1203000B#32, .pmvPx 6#5), (0x0490138B#32, .psetGeu 1#6 0#5 9#5), (0x0010A40B#32, .bnp 2#6 4#12),
   (0x0000300B#32, .endThread), (0x0461328B#32, .start 5#5 2#3 6#5), (0x0873328B#32, .rove 5#5 6#5 7#5),
   (0x0A00308B#32, .taskget 1#3), (0x0C00B28B#32, .taskadd 5#5 1#3), (0x1002B00B#32, .sleep 5#5), (0x0070400B#32, .join 7#12),
   (0xFFF28293#32, .addi 5#5 5#5 (-1)), (0x00530333#32, .add 6#5 6#5 5#5), (0xFE029CE3#32, .bne 5#5 0#5 (-4)),
   (0x000003B7#32, .lui 7#5 0#20), (0x0063A023#32, .sw 7#5 6#5 0#12), (0xFF8302AB#32, .lconW 5#5 6#5 (-8)),
   (0x027322AB#32, .lswC 5#5 6#5 7#5), (0x0473202B#32, .sswE 6#5 7#5 0#5), (0x1840202B#32, .fenceS .module),
   (0x907332AB#32, .amoCasW 5#5 6#5 7#5), (0x0A73402B#32, .sdpD 6#5 7#5), (0x120042AB#32, .rank 5#5),
   (0x7435307B#32, .send 10#5 3#3 7#4 1#2), (0x002042FB#32, .recv 5#5 2#3), (0x0400507B#32, .btag 32#12),
   (0x1073407B#32, .barInit 6#5 7#5), (0x2673447B#32, .tlWait 6#5 7#5 8#5), (0x0000917B#32, .cmdw 2#3 1#3),
   (0x020290FB#32, .qpop 1#3 5#3), (0x060310FB#32, .radv 1#3 6#5), (0x0223207B#32, .hwait 6#5 .full),
   (0x0A0020FB#32, .xtake 1#3), (0x418320DB#32, .vadd .fp32 none 1#3 2#3 3#3 0#2),
   (0x4D84355B#32, .vfma .fp32 none 2#3 3#3 4#3 1#2), (0x8DBA125B#32, .vsel .fp32 3#2 4#3 1#3 2#3 0#2),
   (0xC1801BDB#32, .vexp2 .fp32 none 7#3 1#3 2#2), (0xE00320DB#32, .kand 1#2 2#2 3#2 0#2),
   (0xB1CB62DB#32, .vcvt .bf16 .fp32 .rtz 5#3 6#3 0#2), (0x001480DB#32, .vld 1#3 9#5 1#6 .plain 0#2),
   (0x1032815B#32, .vgat 2#3 5#5 3#3 .four 0#2), (0x2402A1DB#32, .vmxv 5#5 2#3 3#3 0#2),
   (0x0073528B#32, .susp 5#5 6#5 7#5), (0x0A73500B#32, .migcore 6#5 7#5), (0x0000600B#32, .tret), (0x0403600B#32, .hold 6#5)]

/-- The worked encodings decode to the instructions that they stand for, alone and whatever word follows. -/
def Obligations.WorkedWordsDecode : Prop :=
  ∀ x ∈ Claims.workedWords, ∀ second, decode x.1 second = .ok x.2

/-- R62 to R98: decoding what the encoder gives for a well-formed instruction, of one word or of two, gives the instruction
back, with every operand at every value that its field admits. -/
def Obligations.DecodeEncode : Prop :=
  (∀ (i : Instr) w, i.wf = true → encode i = [w] → ∀ second, decode w second = .ok i) ∧
  ∀ (i : Instr) w second, i.wf = true → encode i = [w, second] → decode w second = .ok i

/-- The word at `a` can be fetched by the thread now: it lies in the code bounds and in tiered memory, the instruction
cache of the cluster holds its line, and its granule passes its check (R171, R188, R405). -/
structure Claims.Fetches (s : State) (tid : Nat) (t : Thread) (a : Word) : Prop where
  bounds : t.cbase.toNat ≤ a.toNat ∧ a.toNat + 4 ≤ t.clim.toNat
  tier : 0x100000000000 ≤ a.toNat ∧ a.toNat < 0x200000000000
  cached : a.toNat / 128 ∈ (s.cluster (tid / 128)).icache
  checked : s.memErr a.toNat 4 = false

/-- The thread's turn is to issue the instruction at its PC: it waits for nothing, its retry latch holds no instruction, no step
report, breakpoint or asynchronous event comes first, it does not stand at the Casot entry, and no access of it is in flight
(R126, R402). -/
structure Claims.Issues (s : State) (tid : Nat) (t : Thread) : Prop where
  holds : s.thread? tid = some t
  idle : t.wait = none
  latch : t.latch = none
  stepped : t.stepped = false
  break_ : t.atBreak = false
  event : t.eventReady = false
  casot : t.atCasot = none
  packets : s.packetsOf tid = []

/-- R98, R126, R129, R171, R402: a step runs the decoded instruction. When no input is there and no step is due that comes before
the slots of a cycle, core slots are enabled, core `c` is next in the cycle and its slot is chosen, and the words at the thread's
PC decode to `i`, the step is `exec` of `i` performed by that thread, whose retry latch holds the words and whose skip bit is clear;
then the core's cycle is over, or the thread that only found that it must wait has its skip bit as before, tries again from the next
cycle on and the core chooses again (DESIGN CHOICE 1, 11). -/
def Obligations.StepRunsDecoded : Prop :=
  ∀ s c slot t i, s.Inv → s.inputs = [] → (∀ y ∈ s.timed, y.due ≤ s.time → y.what.phase ≠ 0) → s.enabled = true →
    s.nextCore = some c → c < 4096 →
    (s.core c).profctl.getLsbD 0 = false → s.chooseSlot c = some slot → Claims.Issues s (c * 16 + slot) t →
    let tid := c * 16 + slot
    let first := wordAt s.mem t.pc.toNat
    let second := wordAt s.mem (t.pc + 4#64).toNat
    Claims.Fetches s tid t t.pc → (first = 0x7B#32 → Claims.Fetches s tid t (t.pc + 4#64)) → decode first second = .ok i →
    ∃ u, exec i ({ s with cur := .slot (BitVec.ofNat 16 tid) }.setThread tid
        { t with latch := some (first, second), skip := false }) = .next u ∧
      step s = .next (if u.notIssued tid then
          { u.modThread tid (fun p => { p with readyAt := max p.readyAt (s.time + 1), skip := t.skip }) with scan := 2 * c + 1 }
        else { u.profileSlot c (some slot) with scan := 2 * c + 2 })

/-- R6, R12, R34, R119, R156, R250, R260: the state after reset. No thread runs, no core slot is enabled, no memory is
written and no granule is full, TIME is 0, every Pour object is free, no rank is valid, and every core stands at the Reset
column of its registers. Memory reading zero, empty full/empty bits, TIME 0 and the other values without a Reset column are
the model's (DESIGN CHOICE 4, 5, 6). -/
def Obligations.ResetState : Prop :=
  let s := State.reset
  (∀ n, s.thread? n = none) ∧ s.enabled = false ∧ (∀ a, loadByte s.mem a = 0#8) ∧ s.full = [] ∧ s.time = 0 ∧
    (∀ i, (s.pourObj i).kind = 0#2) ∧ (∀ p, (s.rankEntry p).getLsbD 63 = false) ∧ s.groups = [] ∧ s.launches = [] ∧
    ∀ c, let k := s.core c
      k.slotcfg = 0x802#64 ∧ k.rovelim = 0#64 ∧ k.inboxs = 0#64 ∧ k.mefault = 0#64 ∧ k.q0 = [] ∧ k.q4 = [] ∧
        (∀ n : Fin 32, k.bfmt[n] = 0#64) ∧ (∀ n : Fin 8, k.ringSize[n] = 0#64) ∧ (∀ n : Fin 64, k.handles[n].bound = false) ∧
        k.poison = 0#4 ∧ k.owner = none ∧ k.lost = false

/-- The invariant of a safe run holds after reset. -/
def Obligations.ResetKeepsForm : Prop := State.reset.Inv

/-- Every step keeps the invariant: memory stays in its canonical form, so that equal memories are equal data, and a slot
holds at most one thread. -/
def Obligations.StepKeepsForm : Prop := ∀ s u, s.Inv → step s = .next u → u.Inv

/-- R28: the module has no global stop. A step without an input from outside answers a next state, in every state. -/
def Obligations.StepAlwaysAnswers : Prop := ∀ s, s.inputs = [] → Answers (step s)
end

