-- ==== Sys2Proof/Laws/Assoc.lean ====
section
/-! SUPPORT. Laws of the association lists: what is read after a write, and that writes keep the canonical form. -/

set_option Elab.async false

namespace Sys2Proof.Machine

variable {α : Type}

@[simp] theorem assocGet_nil (k : Nat) : assocGet k ([] : List (Nat × α)) = none := rfl

theorem assocGet_cons (k j : Nat) (a : α) (l : List (Nat × α)) :
    assocGet k ((j, a) :: l) = if j = k then some a else assocGet k l := rfl

/-- What was set is read. -/
@[simp] theorem assocGet_set_same (k : Nat) (a : α) (l : List (Nat × α)) : assocGet k (assocSet k a l) = some a := by
  induction l with
  | nil => simp [assocSet, assocGet]
  | cons x l ih =>
    obtain ⟨j, b⟩ := x
    unfold assocSet
    split
    · simp [assocGet]
    · split
      · simp [assocGet]
      · next h => simp [assocGet, h, ih]

/-- A write leaves every other key alone. -/
theorem assocGet_set_other {k n : Nat} (h : n ≠ k) (a : α) (l : List (Nat × α)) :
    assocGet n (assocSet k a l) = assocGet n l := by
  induction l with
  | nil => simp [assocSet, assocGet, Ne.symm h]
  | cons x l ih =>
    obtain ⟨j, b⟩ := x
    unfold assocSet
    split
    · simp [assocGet, Ne.symm h]
    · split
      · next e => subst e; simp [assocGet, Ne.symm h]
      · simp [assocGet, ih]

/-- Removing a key leaves every other key alone. -/
theorem assocGet_erase_other {k n : Nat} (h : n ≠ k) (l : List (Nat × α)) :
    assocGet n (assocErase k l) = assocGet n l := by
  induction l with
  | nil => rfl
  | cons x l ih =>
    obtain ⟨j, b⟩ := x
    unfold assocErase
    split
    · next e => subst e; simp [assocGet, Ne.symm h]
    · simp [assocGet, ih]

/-! ### The canonical form -/

theorem assocSortedFrom_mono {lo lo' : Nat} (h : lo' ≤ lo) {l : List (Nat × α)} (hl : assocSortedFrom lo l = true) :
    assocSortedFrom lo' l = true := by
  cases l with
  | nil => rfl
  | cons x l =>
    obtain ⟨j, b⟩ := x
    simp only [assocSortedFrom, Bool.and_eq_true, decide_eq_true_eq] at hl ⊢
    exact ⟨by omega, hl.2⟩

/-- No key below the bound of a sorted list is listed. -/
theorem assocGet_below {lo k : Nat} (h : k < lo) {l : List (Nat × α)} (hl : assocSortedFrom lo l = true) :
    assocGet k l = none := by
  induction l generalizing lo with
  | nil => rfl
  | cons x l ih =>
    obtain ⟨j, b⟩ := x
    simp only [assocSortedFrom, Bool.and_eq_true, decide_eq_true_eq] at hl
    have : j ≠ k := by omega
    simp [assocGet, this, ih (by omega : k < j + 1) hl.2]

theorem assocSet_sortedFrom {lo k : Nat} (a : α) {l : List (Nat × α)} (hk : lo ≤ k)
    (hl : assocSortedFrom lo l = true) : assocSortedFrom lo (assocSet k a l) = true := by
  induction l generalizing lo with
  | nil => simp [assocSet, assocSortedFrom, hk]
  | cons x l ih =>
    obtain ⟨j, b⟩ := x
    simp only [assocSortedFrom, Bool.and_eq_true, decide_eq_true_eq] at hl
    unfold assocSet
    split
    · next h => simp [assocSortedFrom, hk, hl.2]; omega
    · split
      · next e => subst e; simp [assocSortedFrom, hk, hl.2]
      · simp only [assocSortedFrom, Bool.and_eq_true, decide_eq_true_eq]
        exact ⟨hl.1, ih (by omega) hl.2⟩

theorem assocErase_sortedFrom {lo k : Nat} {l : List (Nat × α)} (hl : assocSortedFrom lo l = true) :
    assocSortedFrom lo (assocErase k l) = true := by
  induction l generalizing lo with
  | nil => rfl
  | cons x l ih =>
    obtain ⟨j, b⟩ := x
    simp only [assocSortedFrom, Bool.and_eq_true, decide_eq_true_eq] at hl
    unfold assocErase
    split
    · exact assocSortedFrom_mono (by omega) hl.2
    · simp only [assocSortedFrom, Bool.and_eq_true, decide_eq_true_eq]
      exact ⟨hl.1, ih hl.2⟩

/-- A removed key is not listed any more. -/
theorem assocGet_erase_same {k : Nat} {l : List (Nat × α)} (hl : assocSorted l = true) :
    assocGet k (assocErase k l) = none := by
  unfold assocSorted at hl
  generalize 0 = lo at hl
  induction l generalizing lo with
  | nil => rfl
  | cons x l ih =>
    obtain ⟨j, b⟩ := x
    simp only [assocSortedFrom, Bool.and_eq_true, decide_eq_true_eq] at hl
    unfold assocErase
    split
    · next e => subst e; exact assocGet_below (by omega) hl.2
    · next h => simp [assocGet, h, ih _ hl.2]

theorem assocSet_all {p : α → Bool} {k : Nat} {a : α} (ha : p a = true) {l : List (Nat × α)}
    (hl : (l.all fun c => p c.2) = true) : ((assocSet k a l).all fun c => p c.2) = true := by
  induction l with
  | nil => simp [assocSet, ha]
  | cons x l ih =>
    obtain ⟨j, b⟩ := x
    simp only [List.all_cons, Bool.and_eq_true] at hl
    unfold assocSet
    split
    · simp only [List.all_cons, Bool.and_eq_true]; exact ⟨ha, hl.1, hl.2⟩
    · split
      · simp only [List.all_cons, Bool.and_eq_true]; exact ⟨ha, hl.2⟩
      · simp only [List.all_cons, Bool.and_eq_true]; exact ⟨hl.1, ih hl.2⟩

theorem assocErase_all {p : α → Bool} {k : Nat} {l : List (Nat × α)}
    (hl : (l.all fun c => p c.2) = true) : ((assocErase k l).all fun c => p c.2) = true := by
  induction l with
  | nil => rfl
  | cons x l ih =>
    obtain ⟨j, b⟩ := x
    simp only [List.all_cons, Bool.and_eq_true] at hl
    unfold assocErase
    split
    · exact hl.2
    · simp only [List.all_cons, Bool.and_eq_true]; exact ⟨hl.1, ih hl.2⟩

/-- Filtering keeps keys rising. -/
theorem assocSortedFrom_filter {lo : Nat} (p : Nat × α → Bool) {l : List (Nat × α)}
    (hl : assocSortedFrom lo l = true) : assocSortedFrom lo (l.filter p) = true := by
  induction l generalizing lo with
  | nil => rfl
  | cons x l ih =>
    obtain ⟨j, b⟩ := x
    simp only [assocSortedFrom, Bool.and_eq_true, decide_eq_true_eq] at hl
    rw [List.filter_cons]
    split
    · simp only [assocSortedFrom, Bool.and_eq_true, decide_eq_true_eq]; exact ⟨hl.1, ih hl.2⟩
    · exact assocSortedFrom_mono (by omega) (ih hl.2)

theorem assocSortedFrom_le {lo : Nat} {l : List (Nat × α)} (hl : assocSortedFrom lo l = true) {x : Nat × α}
    (hx : x ∈ l) : lo ≤ x.1 := by
  induction l generalizing lo with
  | nil => cases hx
  | cons y l ih =>
    obtain ⟨j, b⟩ := y
    simp only [assocSortedFrom, Bool.and_eq_true, decide_eq_true_eq] at hl
    rcases List.mem_cons.mp hx with rfl | h
    · exact hl.1
    · have := ih hl.2 h; omega

/-- Every entry of a sorted list is the one that its key reads. -/
theorem assocGet_of_mem {l : List (Nat × α)} (hl : assocSorted l = true) {x : Nat × α} (hx : x ∈ l) :
    assocGet x.1 l = some x.2 := by
  unfold assocSorted at hl
  generalize 0 = lo at hl
  induction l generalizing lo with
  | nil => cases hx
  | cons y l ih =>
    obtain ⟨j, b⟩ := y
    simp only [assocSortedFrom, Bool.and_eq_true, decide_eq_true_eq] at hl
    rcases List.mem_cons.mp hx with rfl | h
    · simp [assocGet]
    · have := assocSortedFrom_le hl.2 h
      have hne : j ≠ x.1 := by omega
      simp [assocGet, hne, ih h _ hl.2]

/-- The keys of a sorted list are distinct. -/
theorem assocSorted_keys {lo : Nat} {l : List (Nat × α)} (hl : assocSortedFrom lo l = true) :
    l.Pairwise fun x y => x.1 ≠ y.1 := by
  induction l generalizing lo with
  | nil => exact List.Pairwise.nil
  | cons y l ih =>
    obtain ⟨j, b⟩ := y
    simp only [assocSortedFrom, Bool.and_eq_true, decide_eq_true_eq] at hl
    refine List.Pairwise.cons (fun x hx => ?_) (ih hl.2)
    have := assocSortedFrom_le hl.2 hx
    show j ≠ x.1
    omega

/-- Mapping values keeps keys rising. -/
theorem assocSortedFrom_map {lo : Nat} {β : Type} (f : Nat × α → β) {l : List (Nat × α)}
    (hl : assocSortedFrom lo l = true) : assocSortedFrom lo (l.map fun x => (x.1, f x)) = true := by
  induction l generalizing lo with
  | nil => rfl
  | cons y l ih =>
    obtain ⟨j, b⟩ := y
    simp only [assocSortedFrom, Bool.and_eq_true, decide_eq_true_eq, List.map_cons] at hl ⊢
    exact ⟨hl.1, ih hl.2⟩

end Sys2Proof.Machine
end

