-- ==== Sys2Proof/Laws/Mem.lean ====
section
/-! SUPPORT. Laws of memory: a read after a write, and that every memory operation keeps the canonical form. -/

set_option Elab.async false

namespace Sys2Proof.Machine

/-- The canonical form, in its two parts. -/
theorem Mem.wf_iff {m : Mem} : Mem.wf m = true ↔
    assocSorted m = true ∧ (m.all fun c => c.2 != unlistedByte) = true := by
  simp [Mem.wf]

theorem Mem.wf_nil : Mem.wf [] = true := rfl

/-- Writing a byte keeps the canonical form. -/
theorem storeByte_wf {m : Mem} (h : Mem.wf m = true) (a : Nat) (b : Byte) : Mem.wf (storeByte m a b) = true := by
  rw [Mem.wf_iff] at h ⊢
  unfold storeByte
  split
  · exact ⟨assocErase_sortedFrom h.1, assocErase_all (p := fun c => c != unlistedByte) h.2⟩
  · next e =>
    exact ⟨assocSet_sortedFrom b (Nat.zero_le a) h.1, assocSet_all (p := fun c => c != unlistedByte) (by simp [e]) h.2⟩

/-- Writing a number keeps the canonical form. -/
theorem writeBytes_wf {m : Mem} (h : Mem.wf m = true) (a n v : Nat) : Mem.wf (writeBytes m a n v) = true := by
  induction n generalizing m a v with
  | zero => exact h
  | succ n ih => exact ih (storeByte_wf h a _) _ _

/-- Writing a list of bytes keeps the canonical form. -/
theorem writeCells_wf {m : Mem} (h : Mem.wf m = true) (l : List (Nat × Byte)) : Mem.wf (writeCells m l) = true := by
  induction l generalizing m with
  | nil => exact h
  | cons c l ih => obtain ⟨a, b⟩ := c; exact ih (storeByte_wf h a b)

/-- Removing cells keeps the canonical form. -/
theorem filter_wf {m : Mem} (h : Mem.wf m = true) (p : Nat × Byte → Bool) : Mem.wf (m.filter p) = true := by
  rw [Mem.wf_iff] at h ⊢
  refine ⟨assocSortedFrom_filter p h.1, ?_⟩
  rw [List.all_eq_true] at h ⊢
  exact fun c hc => h.2 c (List.mem_filter.mp hc).1

/-- A byte that was written reads back. -/
theorem loadByte_storeByte_same {m : Mem} (h : Mem.wf m = true) (a : Nat) (b : Byte) :
    loadByte (storeByte m a b) a = b := by
  unfold loadByte storeByte
  split
  · next e => rw [assocGet_erase_same (Mem.wf_iff.mp h).1, e]; rfl
  · rw [assocGet_set_same]; rfl

/-- Writing a byte leaves every other byte alone. -/
theorem loadByte_storeByte_other {m : Mem} {a c : Nat} (h : c ≠ a) (b : Byte) :
    loadByte (storeByte m a b) c = loadByte m c := by
  unfold loadByte storeByte
  split
  · rw [assocGet_erase_other h]
  · rw [assocGet_set_other h]

/-- Writing n bytes leaves every byte outside them alone. -/
theorem loadByte_writeBytes_other {m : Mem} {a n c : Nat} (v : Nat) (h : c < a ∨ a + n ≤ c) :
    loadByte (writeBytes m a n v) c = loadByte m c := by
  induction n generalizing m a v with
  | zero => rfl
  | succ n ih =>
    unfold writeBytes
    rw [ih _ (by omega), loadByte_storeByte_other (by omega)]

/-- A read of n bytes after a write of n bytes to the same place gives the number written (R3). -/
theorem readBytes_writeBytes_same {m : Mem} (h : Mem.wf m = true) (a n v : Nat) :
    readBytes (writeBytes m a n v) a n = v % 256 ^ n := by
  induction n generalizing m a v with
  | zero => simp [readBytes, Nat.mod_one]
  | succ n ih =>
    unfold readBytes writeBytes
    rw [ih (storeByte_wf h a _), loadByte_writeBytes_other _ (Or.inl (Nat.lt_succ_self a)),
      loadByte_storeByte_same h]
    simp only [BitVec.toNat_ofNat]
    rw [Nat.pow_succ' (m := 256), Nat.mod_mul, show (2 : Nat) ^ 8 = 256 from rfl]

/-- A read outside the bytes written is as before. -/
theorem readBytes_writeBytes_other {m : Mem} {a n c k : Nat} (v : Nat) (h : c + k ≤ a ∨ a + n ≤ c) :
    readBytes (writeBytes m a n v) c k = readBytes m c k := by
  induction k generalizing c with
  | zero => rfl
  | succ k ih =>
    unfold readBytes
    rw [ih (by omega), loadByte_writeBytes_other _ (by omega)]

end Sys2Proof.Machine
end

