-- ==== Sys2Proof/Laws/State.lean ====
section
/-! SUPPORT. One lemma for each field and each update of the state and of a thread: what the update leaves alone. -/

set_option Elab.async false

namespace Sys2Proof.Machine

/-! ### Updates of the state -/

@[simp] theorem State.setThread_cores (s : State) (k : Nat) (t : Thread) : (s.setThread k t).cores = s.cores := rfl
@[simp] theorem State.setThread_clusters (s : State) (k : Nat) (t : Thread) : (s.setThread k t).clusters = s.clusters := rfl
@[simp] theorem State.setThread_dies (s : State) (k : Nat) (t : Thread) : (s.setThread k t).dies = s.dies := rfl
@[simp] theorem State.setThread_mem (s : State) (k : Nat) (t : Thread) : (s.setThread k t).mem = s.mem := rfl
@[simp] theorem State.setThread_full (s : State) (k : Nat) (t : Thread) : (s.setThread k t).full = s.full := rfl
@[simp] theorem State.setThread_eccOne (s : State) (k : Nat) (t : Thread) : (s.setThread k t).eccOne = s.eccOne := rfl
@[simp] theorem State.setThread_eccBad (s : State) (k : Nat) (t : Thread) : (s.setThread k t).eccBad = s.eccBad := rfl
@[simp] theorem State.setThread_febBad (s : State) (k : Nat) (t : Thread) : (s.setThread k t).febBad = s.febBad := rfl
@[simp] theorem State.setThread_pages (s : State) (k : Nat) (t : Thread) : (s.setThread k t).pages = s.pages := rfl
@[simp] theorem State.setThread_released (s : State) (k : Nat) (t : Thread) : (s.setThread k t).released = s.released := rfl
@[simp] theorem State.setThread_refused (s : State) (k : Nat) (t : Thread) : (s.setThread k t).refused = s.refused := rfl
@[simp] theorem State.setThread_time (s : State) (k : Nat) (t : Thread) : (s.setThread k t).time = s.time := rfl
@[simp] theorem State.setThread_pour (s : State) (k : Nat) (t : Thread) : (s.setThread k t).pour = s.pour := rfl
@[simp] theorem State.setThread_pourPos (s : State) (k : Nat) (t : Thread) : (s.setThread k t).pourPos = s.pourPos := rfl
@[simp] theorem State.setThread_cup (s : State) (k : Nat) (t : Thread) : (s.setThread k t).cup = s.cup := rfl
@[simp] theorem State.setThread_emit (s : State) (k : Nat) (t : Thread) : (s.setThread k t).emit = s.emit := rfl
@[simp] theorem State.setThread_capacity (s : State) (k : Nat) (t : Thread) : (s.setThread k t).capacity = s.capacity := rfl
@[simp] theorem State.setThread_resync (s : State) (k : Nat) (t : Thread) : (s.setThread k t).resync = s.resync := rfl
@[simp] theorem State.setThread_spareWave (s : State) (k : Nat) (t : Thread) : (s.setThread k t).spareWave = s.spareWave := rfl
@[simp] theorem State.setThread_allreds (s : State) (k : Nat) (t : Thread) : (s.setThread k t).allreds = s.allreds := rfl
@[simp] theorem State.setThread_packets (s : State) (k : Nat) (t : Thread) : (s.setThread k t).packets = s.packets := rfl
@[simp] theorem State.setThread_paths (s : State) (k : Nat) (t : Thread) : (s.setThread k t).paths = s.paths := rfl
@[simp] theorem State.setThread_cxlBad (s : State) (k : Nat) (t : Thread) : (s.setThread k t).cxlBad = s.cxlBad := rfl
@[simp] theorem State.setThread_ranks (s : State) (k : Nat) (t : Thread) : (s.setThread k t).ranks = s.ranks := rfl
@[simp] theorem State.setThread_recovery (s : State) (k : Nat) (t : Thread) : (s.setThread k t).recovery = s.recovery := rfl
@[simp] theorem State.setThread_ports (s : State) (k : Nat) (t : Thread) : (s.setThread k t).ports = s.ports := rfl
@[simp] theorem State.setThread_markers (s : State) (k : Nat) (t : Thread) : (s.setThread k t).markers = s.markers := rfl
@[simp] theorem State.setThread_peerInbox (s : State) (k : Nat) (t : Thread) : (s.setThread k t).peerInbox = s.peerInbox := rfl
@[simp] theorem State.setThread_peerFrames (s : State) (k : Nat) (t : Thread) : (s.setThread k t).peerFrames = s.peerFrames := rfl
@[simp] theorem State.setThread_peerBounces (s : State) (k : Nat) (t : Thread) : (s.setThread k t).peerBounces = s.peerBounces := rfl
@[simp] theorem State.setThread_cupTime (s : State) (k : Nat) (t : Thread) : (s.setThread k t).cupTime = s.cupTime := rfl
@[simp] theorem State.setThread_fecCount (s : State) (k : Nat) (t : Thread) : (s.setThread k t).fecCount = s.fecCount := rfl
@[simp] theorem State.setThread_frozen (s : State) (k : Nat) (t : Thread) : (s.setThread k t).frozen = s.frozen := rfl
@[simp] theorem State.setThread_groups (s : State) (k : Nat) (t : Thread) : (s.setThread k t).groups = s.groups := rfl
@[simp] theorem State.setThread_launches (s : State) (k : Nat) (t : Thread) : (s.setThread k t).launches = s.launches := rfl
@[simp] theorem State.setThread_rovers (s : State) (k : Nat) (t : Thread) : (s.setThread k t).rovers = s.rovers := rfl
@[simp] theorem State.setThread_susps (s : State) (k : Nat) (t : Thread) : (s.setThread k t).susps = s.susps := rfl
@[simp] theorem State.setThread_resumes (s : State) (k : Nat) (t : Thread) : (s.setThread k t).resumes = s.resumes := rfl
@[simp] theorem State.setThread_poolUsed (s : State) (k : Nat) (t : Thread) : (s.setThread k t).poolUsed = s.poolUsed := rfl
@[simp] theorem State.setThread_dropped (s : State) (k : Nat) (t : Thread) : (s.setThread k t).dropped = s.dropped := rfl
@[simp] theorem State.setThread_jobs (s : State) (k : Nat) (t : Thread) : (s.setThread k t).jobs = s.jobs := rfl
@[simp] theorem State.setThread_replayLog (s : State) (k : Nat) (t : Thread) : (s.setThread k t).replayLog = s.replayLog := rfl
@[simp] theorem State.setThread_replayIn (s : State) (k : Nat) (t : Thread) : (s.setThread k t).replayIn = s.replayIn := rfl
@[simp] theorem State.setThread_loaded (s : State) (k : Nat) (t : Thread) : (s.setThread k t).loaded = s.loaded := rfl
@[simp] theorem State.setThread_migstat (s : State) (k : Nat) (t : Thread) : (s.setThread k t).migstat = s.migstat := rfl
@[simp] theorem State.setThread_houseX (s : State) (k : Nat) (t : Thread) : (s.setThread k t).houseX = s.houseX := rfl
@[simp] theorem State.setThread_platform (s : State) (k : Nat) (t : Thread) : (s.setThread k t).platform = s.platform := rfl
@[simp] theorem State.setThread_enabled (s : State) (k : Nat) (t : Thread) : (s.setThread k t).enabled = s.enabled := rfl
@[simp] theorem State.setThread_cur (s : State) (k : Nat) (t : Thread) : (s.setThread k t).cur = s.cur := rfl
@[simp] theorem State.setThread_scan (s : State) (k : Nat) (t : Thread) : (s.setThread k t).scan = s.scan := rfl
@[simp] theorem State.setThread_timed (s : State) (k : Nat) (t : Thread) : (s.setThread k t).timed = s.timed := rfl
@[simp] theorem State.setThread_inputs (s : State) (k : Nat) (t : Thread) : (s.setThread k t).inputs = s.inputs := rfl
@[simp] theorem State.setThread_fresh (s : State) (k : Nat) (t : Thread) : (s.setThread k t).fresh = s.fresh := rfl

@[simp] theorem State.dropThread_cores (s : State) (k : Nat) : (s.dropThread k).cores = s.cores := rfl
@[simp] theorem State.dropThread_clusters (s : State) (k : Nat) : (s.dropThread k).clusters = s.clusters := rfl
@[simp] theorem State.dropThread_dies (s : State) (k : Nat) : (s.dropThread k).dies = s.dies := rfl
@[simp] theorem State.dropThread_mem (s : State) (k : Nat) : (s.dropThread k).mem = s.mem := rfl
@[simp] theorem State.dropThread_full (s : State) (k : Nat) : (s.dropThread k).full = s.full := rfl
@[simp] theorem State.dropThread_eccOne (s : State) (k : Nat) : (s.dropThread k).eccOne = s.eccOne := rfl
@[simp] theorem State.dropThread_eccBad (s : State) (k : Nat) : (s.dropThread k).eccBad = s.eccBad := rfl
@[simp] theorem State.dropThread_febBad (s : State) (k : Nat) : (s.dropThread k).febBad = s.febBad := rfl
@[simp] theorem State.dropThread_pages (s : State) (k : Nat) : (s.dropThread k).pages = s.pages := rfl
@[simp] theorem State.dropThread_released (s : State) (k : Nat) : (s.dropThread k).released = s.released := rfl
@[simp] theorem State.dropThread_refused (s : State) (k : Nat) : (s.dropThread k).refused = s.refused := rfl
@[simp] theorem State.dropThread_time (s : State) (k : Nat) : (s.dropThread k).time = s.time := rfl
@[simp] theorem State.dropThread_pour (s : State) (k : Nat) : (s.dropThread k).pour = s.pour := rfl
@[simp] theorem State.dropThread_pourPos (s : State) (k : Nat) : (s.dropThread k).pourPos = s.pourPos := rfl
@[simp] theorem State.dropThread_cup (s : State) (k : Nat) : (s.dropThread k).cup = s.cup := rfl
@[simp] theorem State.dropThread_emit (s : State) (k : Nat) : (s.dropThread k).emit = s.emit := rfl
@[simp] theorem State.dropThread_capacity (s : State) (k : Nat) : (s.dropThread k).capacity = s.capacity := rfl
@[simp] theorem State.dropThread_resync (s : State) (k : Nat) : (s.dropThread k).resync = s.resync := rfl
@[simp] theorem State.dropThread_spareWave (s : State) (k : Nat) : (s.dropThread k).spareWave = s.spareWave := rfl
@[simp] theorem State.dropThread_allreds (s : State) (k : Nat) : (s.dropThread k).allreds = s.allreds := rfl
@[simp] theorem State.dropThread_packets (s : State) (k : Nat) : (s.dropThread k).packets = s.packets := rfl
@[simp] theorem State.dropThread_paths (s : State) (k : Nat) : (s.dropThread k).paths = s.paths := rfl
@[simp] theorem State.dropThread_cxlBad (s : State) (k : Nat) : (s.dropThread k).cxlBad = s.cxlBad := rfl
@[simp] theorem State.dropThread_ranks (s : State) (k : Nat) : (s.dropThread k).ranks = s.ranks := rfl
@[simp] theorem State.dropThread_recovery (s : State) (k : Nat) : (s.dropThread k).recovery = s.recovery := rfl
@[simp] theorem State.dropThread_ports (s : State) (k : Nat) : (s.dropThread k).ports = s.ports := rfl
@[simp] theorem State.dropThread_markers (s : State) (k : Nat) : (s.dropThread k).markers = s.markers := rfl
@[simp] theorem State.dropThread_peerInbox (s : State) (k : Nat) : (s.dropThread k).peerInbox = s.peerInbox := rfl
@[simp] theorem State.dropThread_peerFrames (s : State) (k : Nat) : (s.dropThread k).peerFrames = s.peerFrames := rfl
@[simp] theorem State.dropThread_peerBounces (s : State) (k : Nat) : (s.dropThread k).peerBounces = s.peerBounces := rfl
@[simp] theorem State.dropThread_cupTime (s : State) (k : Nat) : (s.dropThread k).cupTime = s.cupTime := rfl
@[simp] theorem State.dropThread_fecCount (s : State) (k : Nat) : (s.dropThread k).fecCount = s.fecCount := rfl
@[simp] theorem State.dropThread_frozen (s : State) (k : Nat) : (s.dropThread k).frozen = s.frozen := rfl
@[simp] theorem State.dropThread_groups (s : State) (k : Nat) : (s.dropThread k).groups = s.groups := rfl
@[simp] theorem State.dropThread_launches (s : State) (k : Nat) : (s.dropThread k).launches = s.launches := rfl
@[simp] theorem State.dropThread_rovers (s : State) (k : Nat) : (s.dropThread k).rovers = s.rovers := rfl
@[simp] theorem State.dropThread_susps (s : State) (k : Nat) : (s.dropThread k).susps = s.susps := rfl
@[simp] theorem State.dropThread_resumes (s : State) (k : Nat) : (s.dropThread k).resumes = s.resumes := rfl
@[simp] theorem State.dropThread_poolUsed (s : State) (k : Nat) : (s.dropThread k).poolUsed = s.poolUsed := rfl
@[simp] theorem State.dropThread_dropped (s : State) (k : Nat) : (s.dropThread k).dropped = s.dropped := rfl
@[simp] theorem State.dropThread_jobs (s : State) (k : Nat) : (s.dropThread k).jobs = s.jobs := rfl
@[simp] theorem State.dropThread_replayLog (s : State) (k : Nat) : (s.dropThread k).replayLog = s.replayLog := rfl
@[simp] theorem State.dropThread_replayIn (s : State) (k : Nat) : (s.dropThread k).replayIn = s.replayIn := rfl
@[simp] theorem State.dropThread_loaded (s : State) (k : Nat) : (s.dropThread k).loaded = s.loaded := rfl
@[simp] theorem State.dropThread_migstat (s : State) (k : Nat) : (s.dropThread k).migstat = s.migstat := rfl
@[simp] theorem State.dropThread_houseX (s : State) (k : Nat) : (s.dropThread k).houseX = s.houseX := rfl
@[simp] theorem State.dropThread_platform (s : State) (k : Nat) : (s.dropThread k).platform = s.platform := rfl
@[simp] theorem State.dropThread_enabled (s : State) (k : Nat) : (s.dropThread k).enabled = s.enabled := rfl
@[simp] theorem State.dropThread_cur (s : State) (k : Nat) : (s.dropThread k).cur = s.cur := rfl
@[simp] theorem State.dropThread_scan (s : State) (k : Nat) : (s.dropThread k).scan = s.scan := rfl
@[simp] theorem State.dropThread_timed (s : State) (k : Nat) : (s.dropThread k).timed = s.timed := rfl
@[simp] theorem State.dropThread_inputs (s : State) (k : Nat) : (s.dropThread k).inputs = s.inputs := rfl
@[simp] theorem State.dropThread_fresh (s : State) (k : Nat) : (s.dropThread k).fresh = s.fresh := rfl

@[simp] theorem State.mapThreads_cores (s : State) (f : Nat → Thread → Thread) : (s.mapThreads f).cores = s.cores := rfl
@[simp] theorem State.mapThreads_clusters (s : State) (f : Nat → Thread → Thread) : (s.mapThreads f).clusters = s.clusters := rfl
@[simp] theorem State.mapThreads_dies (s : State) (f : Nat → Thread → Thread) : (s.mapThreads f).dies = s.dies := rfl
@[simp] theorem State.mapThreads_mem (s : State) (f : Nat → Thread → Thread) : (s.mapThreads f).mem = s.mem := rfl
@[simp] theorem State.mapThreads_full (s : State) (f : Nat → Thread → Thread) : (s.mapThreads f).full = s.full := rfl
@[simp] theorem State.mapThreads_eccOne (s : State) (f : Nat → Thread → Thread) : (s.mapThreads f).eccOne = s.eccOne := rfl
@[simp] theorem State.mapThreads_eccBad (s : State) (f : Nat → Thread → Thread) : (s.mapThreads f).eccBad = s.eccBad := rfl
@[simp] theorem State.mapThreads_febBad (s : State) (f : Nat → Thread → Thread) : (s.mapThreads f).febBad = s.febBad := rfl
@[simp] theorem State.mapThreads_pages (s : State) (f : Nat → Thread → Thread) : (s.mapThreads f).pages = s.pages := rfl
@[simp] theorem State.mapThreads_released (s : State) (f : Nat → Thread → Thread) : (s.mapThreads f).released = s.released := rfl
@[simp] theorem State.mapThreads_refused (s : State) (f : Nat → Thread → Thread) : (s.mapThreads f).refused = s.refused := rfl
@[simp] theorem State.mapThreads_time (s : State) (f : Nat → Thread → Thread) : (s.mapThreads f).time = s.time := rfl
@[simp] theorem State.mapThreads_pour (s : State) (f : Nat → Thread → Thread) : (s.mapThreads f).pour = s.pour := rfl
@[simp] theorem State.mapThreads_pourPos (s : State) (f : Nat → Thread → Thread) : (s.mapThreads f).pourPos = s.pourPos := rfl
@[simp] theorem State.mapThreads_cup (s : State) (f : Nat → Thread → Thread) : (s.mapThreads f).cup = s.cup := rfl
@[simp] theorem State.mapThreads_emit (s : State) (f : Nat → Thread → Thread) : (s.mapThreads f).emit = s.emit := rfl
@[simp] theorem State.mapThreads_capacity (s : State) (f : Nat → Thread → Thread) : (s.mapThreads f).capacity = s.capacity := rfl
@[simp] theorem State.mapThreads_resync (s : State) (f : Nat → Thread → Thread) : (s.mapThreads f).resync = s.resync := rfl
@[simp] theorem State.mapThreads_spareWave (s : State) (f : Nat → Thread → Thread) : (s.mapThreads f).spareWave = s.spareWave := rfl
@[simp] theorem State.mapThreads_allreds (s : State) (f : Nat → Thread → Thread) : (s.mapThreads f).allreds = s.allreds := rfl
@[simp] theorem State.mapThreads_packets (s : State) (f : Nat → Thread → Thread) : (s.mapThreads f).packets = s.packets := rfl
@[simp] theorem State.mapThreads_paths (s : State) (f : Nat → Thread → Thread) : (s.mapThreads f).paths = s.paths := rfl
@[simp] theorem State.mapThreads_cxlBad (s : State) (f : Nat → Thread → Thread) : (s.mapThreads f).cxlBad = s.cxlBad := rfl
@[simp] theorem State.mapThreads_ranks (s : State) (f : Nat → Thread → Thread) : (s.mapThreads f).ranks = s.ranks := rfl
@[simp] theorem State.mapThreads_recovery (s : State) (f : Nat → Thread → Thread) : (s.mapThreads f).recovery = s.recovery := rfl
@[simp] theorem State.mapThreads_ports (s : State) (f : Nat → Thread → Thread) : (s.mapThreads f).ports = s.ports := rfl
@[simp] theorem State.mapThreads_markers (s : State) (f : Nat → Thread → Thread) : (s.mapThreads f).markers = s.markers := rfl
@[simp] theorem State.mapThreads_peerInbox (s : State) (f : Nat → Thread → Thread) : (s.mapThreads f).peerInbox = s.peerInbox := rfl
@[simp] theorem State.mapThreads_peerFrames (s : State) (f : Nat → Thread → Thread) : (s.mapThreads f).peerFrames = s.peerFrames := rfl
@[simp] theorem State.mapThreads_peerBounces (s : State) (f : Nat → Thread → Thread) : (s.mapThreads f).peerBounces = s.peerBounces := rfl
@[simp] theorem State.mapThreads_cupTime (s : State) (f : Nat → Thread → Thread) : (s.mapThreads f).cupTime = s.cupTime := rfl
@[simp] theorem State.mapThreads_fecCount (s : State) (f : Nat → Thread → Thread) : (s.mapThreads f).fecCount = s.fecCount := rfl
@[simp] theorem State.mapThreads_frozen (s : State) (f : Nat → Thread → Thread) : (s.mapThreads f).frozen = s.frozen := rfl
@[simp] theorem State.mapThreads_groups (s : State) (f : Nat → Thread → Thread) : (s.mapThreads f).groups = s.groups := rfl
@[simp] theorem State.mapThreads_launches (s : State) (f : Nat → Thread → Thread) : (s.mapThreads f).launches = s.launches := rfl
@[simp] theorem State.mapThreads_rovers (s : State) (f : Nat → Thread → Thread) : (s.mapThreads f).rovers = s.rovers := rfl
@[simp] theorem State.mapThreads_susps (s : State) (f : Nat → Thread → Thread) : (s.mapThreads f).susps = s.susps := rfl
@[simp] theorem State.mapThreads_resumes (s : State) (f : Nat → Thread → Thread) : (s.mapThreads f).resumes = s.resumes := rfl
@[simp] theorem State.mapThreads_poolUsed (s : State) (f : Nat → Thread → Thread) : (s.mapThreads f).poolUsed = s.poolUsed := rfl
@[simp] theorem State.mapThreads_dropped (s : State) (f : Nat → Thread → Thread) : (s.mapThreads f).dropped = s.dropped := rfl
@[simp] theorem State.mapThreads_jobs (s : State) (f : Nat → Thread → Thread) : (s.mapThreads f).jobs = s.jobs := rfl
@[simp] theorem State.mapThreads_replayLog (s : State) (f : Nat → Thread → Thread) : (s.mapThreads f).replayLog = s.replayLog := rfl
@[simp] theorem State.mapThreads_replayIn (s : State) (f : Nat → Thread → Thread) : (s.mapThreads f).replayIn = s.replayIn := rfl
@[simp] theorem State.mapThreads_loaded (s : State) (f : Nat → Thread → Thread) : (s.mapThreads f).loaded = s.loaded := rfl
@[simp] theorem State.mapThreads_migstat (s : State) (f : Nat → Thread → Thread) : (s.mapThreads f).migstat = s.migstat := rfl
@[simp] theorem State.mapThreads_houseX (s : State) (f : Nat → Thread → Thread) : (s.mapThreads f).houseX = s.houseX := rfl
@[simp] theorem State.mapThreads_platform (s : State) (f : Nat → Thread → Thread) : (s.mapThreads f).platform = s.platform := rfl
@[simp] theorem State.mapThreads_enabled (s : State) (f : Nat → Thread → Thread) : (s.mapThreads f).enabled = s.enabled := rfl
@[simp] theorem State.mapThreads_cur (s : State) (f : Nat → Thread → Thread) : (s.mapThreads f).cur = s.cur := rfl
@[simp] theorem State.mapThreads_scan (s : State) (f : Nat → Thread → Thread) : (s.mapThreads f).scan = s.scan := rfl
@[simp] theorem State.mapThreads_timed (s : State) (f : Nat → Thread → Thread) : (s.mapThreads f).timed = s.timed := rfl
@[simp] theorem State.mapThreads_inputs (s : State) (f : Nat → Thread → Thread) : (s.mapThreads f).inputs = s.inputs := rfl
@[simp] theorem State.mapThreads_fresh (s : State) (f : Nat → Thread → Thread) : (s.mapThreads f).fresh = s.fresh := rfl

@[simp] theorem State.setCore_threads (s : State) (c : Nat) (k : Core) : (s.setCore c k).threads = s.threads := rfl
@[simp] theorem State.setCore_clusters (s : State) (c : Nat) (k : Core) : (s.setCore c k).clusters = s.clusters := rfl
@[simp] theorem State.setCore_dies (s : State) (c : Nat) (k : Core) : (s.setCore c k).dies = s.dies := rfl
@[simp] theorem State.setCore_mem (s : State) (c : Nat) (k : Core) : (s.setCore c k).mem = s.mem := rfl
@[simp] theorem State.setCore_full (s : State) (c : Nat) (k : Core) : (s.setCore c k).full = s.full := rfl
@[simp] theorem State.setCore_eccOne (s : State) (c : Nat) (k : Core) : (s.setCore c k).eccOne = s.eccOne := rfl
@[simp] theorem State.setCore_eccBad (s : State) (c : Nat) (k : Core) : (s.setCore c k).eccBad = s.eccBad := rfl
@[simp] theorem State.setCore_febBad (s : State) (c : Nat) (k : Core) : (s.setCore c k).febBad = s.febBad := rfl
@[simp] theorem State.setCore_pages (s : State) (c : Nat) (k : Core) : (s.setCore c k).pages = s.pages := rfl
@[simp] theorem State.setCore_released (s : State) (c : Nat) (k : Core) : (s.setCore c k).released = s.released := rfl
@[simp] theorem State.setCore_refused (s : State) (c : Nat) (k : Core) : (s.setCore c k).refused = s.refused := rfl
@[simp] theorem State.setCore_time (s : State) (c : Nat) (k : Core) : (s.setCore c k).time = s.time := rfl
@[simp] theorem State.setCore_pour (s : State) (c : Nat) (k : Core) : (s.setCore c k).pour = s.pour := rfl
@[simp] theorem State.setCore_pourPos (s : State) (c : Nat) (k : Core) : (s.setCore c k).pourPos = s.pourPos := rfl
@[simp] theorem State.setCore_cup (s : State) (c : Nat) (k : Core) : (s.setCore c k).cup = s.cup := rfl
@[simp] theorem State.setCore_emit (s : State) (c : Nat) (k : Core) : (s.setCore c k).emit = s.emit := rfl
@[simp] theorem State.setCore_capacity (s : State) (c : Nat) (k : Core) : (s.setCore c k).capacity = s.capacity := rfl
@[simp] theorem State.setCore_resync (s : State) (c : Nat) (k : Core) : (s.setCore c k).resync = s.resync := rfl
@[simp] theorem State.setCore_spareWave (s : State) (c : Nat) (k : Core) : (s.setCore c k).spareWave = s.spareWave := rfl
@[simp] theorem State.setCore_allreds (s : State) (c : Nat) (k : Core) : (s.setCore c k).allreds = s.allreds := rfl
@[simp] theorem State.setCore_packets (s : State) (c : Nat) (k : Core) : (s.setCore c k).packets = s.packets := rfl
@[simp] theorem State.setCore_paths (s : State) (c : Nat) (k : Core) : (s.setCore c k).paths = s.paths := rfl
@[simp] theorem State.setCore_cxlBad (s : State) (c : Nat) (k : Core) : (s.setCore c k).cxlBad = s.cxlBad := rfl
@[simp] theorem State.setCore_ranks (s : State) (c : Nat) (k : Core) : (s.setCore c k).ranks = s.ranks := rfl
@[simp] theorem State.setCore_recovery (s : State) (c : Nat) (k : Core) : (s.setCore c k).recovery = s.recovery := rfl
@[simp] theorem State.setCore_ports (s : State) (c : Nat) (k : Core) : (s.setCore c k).ports = s.ports := rfl
@[simp] theorem State.setCore_markers (s : State) (c : Nat) (k : Core) : (s.setCore c k).markers = s.markers := rfl
@[simp] theorem State.setCore_peerInbox (s : State) (c : Nat) (k : Core) : (s.setCore c k).peerInbox = s.peerInbox := rfl
@[simp] theorem State.setCore_peerFrames (s : State) (c : Nat) (k : Core) : (s.setCore c k).peerFrames = s.peerFrames := rfl
@[simp] theorem State.setCore_peerBounces (s : State) (c : Nat) (k : Core) : (s.setCore c k).peerBounces = s.peerBounces := rfl
@[simp] theorem State.setCore_cupTime (s : State) (c : Nat) (k : Core) : (s.setCore c k).cupTime = s.cupTime := rfl
@[simp] theorem State.setCore_fecCount (s : State) (c : Nat) (k : Core) : (s.setCore c k).fecCount = s.fecCount := rfl
@[simp] theorem State.setCore_frozen (s : State) (c : Nat) (k : Core) : (s.setCore c k).frozen = s.frozen := rfl
@[simp] theorem State.setCore_groups (s : State) (c : Nat) (k : Core) : (s.setCore c k).groups = s.groups := rfl
@[simp] theorem State.setCore_launches (s : State) (c : Nat) (k : Core) : (s.setCore c k).launches = s.launches := rfl
@[simp] theorem State.setCore_rovers (s : State) (c : Nat) (k : Core) : (s.setCore c k).rovers = s.rovers := rfl
@[simp] theorem State.setCore_susps (s : State) (c : Nat) (k : Core) : (s.setCore c k).susps = s.susps := rfl
@[simp] theorem State.setCore_resumes (s : State) (c : Nat) (k : Core) : (s.setCore c k).resumes = s.resumes := rfl
@[simp] theorem State.setCore_poolUsed (s : State) (c : Nat) (k : Core) : (s.setCore c k).poolUsed = s.poolUsed := rfl
@[simp] theorem State.setCore_dropped (s : State) (c : Nat) (k : Core) : (s.setCore c k).dropped = s.dropped := rfl
@[simp] theorem State.setCore_jobs (s : State) (c : Nat) (k : Core) : (s.setCore c k).jobs = s.jobs := rfl
@[simp] theorem State.setCore_replayLog (s : State) (c : Nat) (k : Core) : (s.setCore c k).replayLog = s.replayLog := rfl
@[simp] theorem State.setCore_replayIn (s : State) (c : Nat) (k : Core) : (s.setCore c k).replayIn = s.replayIn := rfl
@[simp] theorem State.setCore_loaded (s : State) (c : Nat) (k : Core) : (s.setCore c k).loaded = s.loaded := rfl
@[simp] theorem State.setCore_migstat (s : State) (c : Nat) (k : Core) : (s.setCore c k).migstat = s.migstat := rfl
@[simp] theorem State.setCore_houseX (s : State) (c : Nat) (k : Core) : (s.setCore c k).houseX = s.houseX := rfl
@[simp] theorem State.setCore_platform (s : State) (c : Nat) (k : Core) : (s.setCore c k).platform = s.platform := rfl
@[simp] theorem State.setCore_enabled (s : State) (c : Nat) (k : Core) : (s.setCore c k).enabled = s.enabled := rfl
@[simp] theorem State.setCore_cur (s : State) (c : Nat) (k : Core) : (s.setCore c k).cur = s.cur := rfl
@[simp] theorem State.setCore_scan (s : State) (c : Nat) (k : Core) : (s.setCore c k).scan = s.scan := rfl
@[simp] theorem State.setCore_timed (s : State) (c : Nat) (k : Core) : (s.setCore c k).timed = s.timed := rfl
@[simp] theorem State.setCore_inputs (s : State) (c : Nat) (k : Core) : (s.setCore c k).inputs = s.inputs := rfl
@[simp] theorem State.setCore_fresh (s : State) (c : Nat) (k : Core) : (s.setCore c k).fresh = s.fresh := rfl

@[simp] theorem State.modCore_threads (s : State) (c : Nat) (f : Core → Core) : (s.modCore c f).threads = s.threads := rfl
@[simp] theorem State.modCore_clusters (s : State) (c : Nat) (f : Core → Core) : (s.modCore c f).clusters = s.clusters := rfl
@[simp] theorem State.modCore_dies (s : State) (c : Nat) (f : Core → Core) : (s.modCore c f).dies = s.dies := rfl
@[simp] theorem State.modCore_mem (s : State) (c : Nat) (f : Core → Core) : (s.modCore c f).mem = s.mem := rfl
@[simp] theorem State.modCore_full (s : State) (c : Nat) (f : Core → Core) : (s.modCore c f).full = s.full := rfl
@[simp] theorem State.modCore_eccOne (s : State) (c : Nat) (f : Core → Core) : (s.modCore c f).eccOne = s.eccOne := rfl
@[simp] theorem State.modCore_eccBad (s : State) (c : Nat) (f : Core → Core) : (s.modCore c f).eccBad = s.eccBad := rfl
@[simp] theorem State.modCore_febBad (s : State) (c : Nat) (f : Core → Core) : (s.modCore c f).febBad = s.febBad := rfl
@[simp] theorem State.modCore_pages (s : State) (c : Nat) (f : Core → Core) : (s.modCore c f).pages = s.pages := rfl
@[simp] theorem State.modCore_released (s : State) (c : Nat) (f : Core → Core) : (s.modCore c f).released = s.released := rfl
@[simp] theorem State.modCore_refused (s : State) (c : Nat) (f : Core → Core) : (s.modCore c f).refused = s.refused := rfl
@[simp] theorem State.modCore_time (s : State) (c : Nat) (f : Core → Core) : (s.modCore c f).time = s.time := rfl
@[simp] theorem State.modCore_pour (s : State) (c : Nat) (f : Core → Core) : (s.modCore c f).pour = s.pour := rfl
@[simp] theorem State.modCore_pourPos (s : State) (c : Nat) (f : Core → Core) : (s.modCore c f).pourPos = s.pourPos := rfl
@[simp] theorem State.modCore_cup (s : State) (c : Nat) (f : Core → Core) : (s.modCore c f).cup = s.cup := rfl
@[simp] theorem State.modCore_emit (s : State) (c : Nat) (f : Core → Core) : (s.modCore c f).emit = s.emit := rfl
@[simp] theorem State.modCore_capacity (s : State) (c : Nat) (f : Core → Core) : (s.modCore c f).capacity = s.capacity := rfl
@[simp] theorem State.modCore_resync (s : State) (c : Nat) (f : Core → Core) : (s.modCore c f).resync = s.resync := rfl
@[simp] theorem State.modCore_spareWave (s : State) (c : Nat) (f : Core → Core) : (s.modCore c f).spareWave = s.spareWave := rfl
@[simp] theorem State.modCore_allreds (s : State) (c : Nat) (f : Core → Core) : (s.modCore c f).allreds = s.allreds := rfl
@[simp] theorem State.modCore_packets (s : State) (c : Nat) (f : Core → Core) : (s.modCore c f).packets = s.packets := rfl
@[simp] theorem State.modCore_paths (s : State) (c : Nat) (f : Core → Core) : (s.modCore c f).paths = s.paths := rfl
@[simp] theorem State.modCore_cxlBad (s : State) (c : Nat) (f : Core → Core) : (s.modCore c f).cxlBad = s.cxlBad := rfl
@[simp] theorem State.modCore_ranks (s : State) (c : Nat) (f : Core → Core) : (s.modCore c f).ranks = s.ranks := rfl
@[simp] theorem State.modCore_recovery (s : State) (c : Nat) (f : Core → Core) : (s.modCore c f).recovery = s.recovery := rfl
@[simp] theorem State.modCore_ports (s : State) (c : Nat) (f : Core → Core) : (s.modCore c f).ports = s.ports := rfl
@[simp] theorem State.modCore_markers (s : State) (c : Nat) (f : Core → Core) : (s.modCore c f).markers = s.markers := rfl
@[simp] theorem State.modCore_peerInbox (s : State) (c : Nat) (f : Core → Core) : (s.modCore c f).peerInbox = s.peerInbox := rfl
@[simp] theorem State.modCore_peerFrames (s : State) (c : Nat) (f : Core → Core) : (s.modCore c f).peerFrames = s.peerFrames := rfl
@[simp] theorem State.modCore_peerBounces (s : State) (c : Nat) (f : Core → Core) : (s.modCore c f).peerBounces = s.peerBounces := rfl
@[simp] theorem State.modCore_cupTime (s : State) (c : Nat) (f : Core → Core) : (s.modCore c f).cupTime = s.cupTime := rfl
@[simp] theorem State.modCore_fecCount (s : State) (c : Nat) (f : Core → Core) : (s.modCore c f).fecCount = s.fecCount := rfl
@[simp] theorem State.modCore_frozen (s : State) (c : Nat) (f : Core → Core) : (s.modCore c f).frozen = s.frozen := rfl
@[simp] theorem State.modCore_groups (s : State) (c : Nat) (f : Core → Core) : (s.modCore c f).groups = s.groups := rfl
@[simp] theorem State.modCore_launches (s : State) (c : Nat) (f : Core → Core) : (s.modCore c f).launches = s.launches := rfl
@[simp] theorem State.modCore_rovers (s : State) (c : Nat) (f : Core → Core) : (s.modCore c f).rovers = s.rovers := rfl
@[simp] theorem State.modCore_susps (s : State) (c : Nat) (f : Core → Core) : (s.modCore c f).susps = s.susps := rfl
@[simp] theorem State.modCore_resumes (s : State) (c : Nat) (f : Core → Core) : (s.modCore c f).resumes = s.resumes := rfl
@[simp] theorem State.modCore_poolUsed (s : State) (c : Nat) (f : Core → Core) : (s.modCore c f).poolUsed = s.poolUsed := rfl
@[simp] theorem State.modCore_dropped (s : State) (c : Nat) (f : Core → Core) : (s.modCore c f).dropped = s.dropped := rfl
@[simp] theorem State.modCore_jobs (s : State) (c : Nat) (f : Core → Core) : (s.modCore c f).jobs = s.jobs := rfl
@[simp] theorem State.modCore_replayLog (s : State) (c : Nat) (f : Core → Core) : (s.modCore c f).replayLog = s.replayLog := rfl
@[simp] theorem State.modCore_replayIn (s : State) (c : Nat) (f : Core → Core) : (s.modCore c f).replayIn = s.replayIn := rfl
@[simp] theorem State.modCore_loaded (s : State) (c : Nat) (f : Core → Core) : (s.modCore c f).loaded = s.loaded := rfl
@[simp] theorem State.modCore_migstat (s : State) (c : Nat) (f : Core → Core) : (s.modCore c f).migstat = s.migstat := rfl
@[simp] theorem State.modCore_houseX (s : State) (c : Nat) (f : Core → Core) : (s.modCore c f).houseX = s.houseX := rfl
@[simp] theorem State.modCore_platform (s : State) (c : Nat) (f : Core → Core) : (s.modCore c f).platform = s.platform := rfl
@[simp] theorem State.modCore_enabled (s : State) (c : Nat) (f : Core → Core) : (s.modCore c f).enabled = s.enabled := rfl
@[simp] theorem State.modCore_cur (s : State) (c : Nat) (f : Core → Core) : (s.modCore c f).cur = s.cur := rfl
@[simp] theorem State.modCore_scan (s : State) (c : Nat) (f : Core → Core) : (s.modCore c f).scan = s.scan := rfl
@[simp] theorem State.modCore_timed (s : State) (c : Nat) (f : Core → Core) : (s.modCore c f).timed = s.timed := rfl
@[simp] theorem State.modCore_inputs (s : State) (c : Nat) (f : Core → Core) : (s.modCore c f).inputs = s.inputs := rfl
@[simp] theorem State.modCore_fresh (s : State) (c : Nat) (f : Core → Core) : (s.modCore c f).fresh = s.fresh := rfl

@[simp] theorem State.setCluster_threads (s : State) (n : Nat) (k : Cluster) : (s.setCluster n k).threads = s.threads := rfl
@[simp] theorem State.setCluster_cores (s : State) (n : Nat) (k : Cluster) : (s.setCluster n k).cores = s.cores := rfl
@[simp] theorem State.setCluster_dies (s : State) (n : Nat) (k : Cluster) : (s.setCluster n k).dies = s.dies := rfl
@[simp] theorem State.setCluster_mem (s : State) (n : Nat) (k : Cluster) : (s.setCluster n k).mem = s.mem := rfl
@[simp] theorem State.setCluster_full (s : State) (n : Nat) (k : Cluster) : (s.setCluster n k).full = s.full := rfl
@[simp] theorem State.setCluster_eccOne (s : State) (n : Nat) (k : Cluster) : (s.setCluster n k).eccOne = s.eccOne := rfl
@[simp] theorem State.setCluster_eccBad (s : State) (n : Nat) (k : Cluster) : (s.setCluster n k).eccBad = s.eccBad := rfl
@[simp] theorem State.setCluster_febBad (s : State) (n : Nat) (k : Cluster) : (s.setCluster n k).febBad = s.febBad := rfl
@[simp] theorem State.setCluster_pages (s : State) (n : Nat) (k : Cluster) : (s.setCluster n k).pages = s.pages := rfl
@[simp] theorem State.setCluster_released (s : State) (n : Nat) (k : Cluster) : (s.setCluster n k).released = s.released := rfl
@[simp] theorem State.setCluster_refused (s : State) (n : Nat) (k : Cluster) : (s.setCluster n k).refused = s.refused := rfl
@[simp] theorem State.setCluster_time (s : State) (n : Nat) (k : Cluster) : (s.setCluster n k).time = s.time := rfl
@[simp] theorem State.setCluster_pour (s : State) (n : Nat) (k : Cluster) : (s.setCluster n k).pour = s.pour := rfl
@[simp] theorem State.setCluster_pourPos (s : State) (n : Nat) (k : Cluster) : (s.setCluster n k).pourPos = s.pourPos := rfl
@[simp] theorem State.setCluster_cup (s : State) (n : Nat) (k : Cluster) : (s.setCluster n k).cup = s.cup := rfl
@[simp] theorem State.setCluster_emit (s : State) (n : Nat) (k : Cluster) : (s.setCluster n k).emit = s.emit := rfl
@[simp] theorem State.setCluster_capacity (s : State) (n : Nat) (k : Cluster) : (s.setCluster n k).capacity = s.capacity := rfl
@[simp] theorem State.setCluster_resync (s : State) (n : Nat) (k : Cluster) : (s.setCluster n k).resync = s.resync := rfl
@[simp] theorem State.setCluster_spareWave (s : State) (n : Nat) (k : Cluster) : (s.setCluster n k).spareWave = s.spareWave := rfl
@[simp] theorem State.setCluster_allreds (s : State) (n : Nat) (k : Cluster) : (s.setCluster n k).allreds = s.allreds := rfl
@[simp] theorem State.setCluster_packets (s : State) (n : Nat) (k : Cluster) : (s.setCluster n k).packets = s.packets := rfl
@[simp] theorem State.setCluster_paths (s : State) (n : Nat) (k : Cluster) : (s.setCluster n k).paths = s.paths := rfl
@[simp] theorem State.setCluster_cxlBad (s : State) (n : Nat) (k : Cluster) : (s.setCluster n k).cxlBad = s.cxlBad := rfl
@[simp] theorem State.setCluster_ranks (s : State) (n : Nat) (k : Cluster) : (s.setCluster n k).ranks = s.ranks := rfl
@[simp] theorem State.setCluster_recovery (s : State) (n : Nat) (k : Cluster) : (s.setCluster n k).recovery = s.recovery := rfl
@[simp] theorem State.setCluster_ports (s : State) (n : Nat) (k : Cluster) : (s.setCluster n k).ports = s.ports := rfl
@[simp] theorem State.setCluster_markers (s : State) (n : Nat) (k : Cluster) : (s.setCluster n k).markers = s.markers := rfl
@[simp] theorem State.setCluster_peerInbox (s : State) (n : Nat) (k : Cluster) : (s.setCluster n k).peerInbox = s.peerInbox := rfl
@[simp] theorem State.setCluster_peerFrames (s : State) (n : Nat) (k : Cluster) : (s.setCluster n k).peerFrames = s.peerFrames := rfl
@[simp] theorem State.setCluster_peerBounces (s : State) (n : Nat) (k : Cluster) : (s.setCluster n k).peerBounces = s.peerBounces := rfl
@[simp] theorem State.setCluster_cupTime (s : State) (n : Nat) (k : Cluster) : (s.setCluster n k).cupTime = s.cupTime := rfl
@[simp] theorem State.setCluster_fecCount (s : State) (n : Nat) (k : Cluster) : (s.setCluster n k).fecCount = s.fecCount := rfl
@[simp] theorem State.setCluster_frozen (s : State) (n : Nat) (k : Cluster) : (s.setCluster n k).frozen = s.frozen := rfl
@[simp] theorem State.setCluster_groups (s : State) (n : Nat) (k : Cluster) : (s.setCluster n k).groups = s.groups := rfl
@[simp] theorem State.setCluster_launches (s : State) (n : Nat) (k : Cluster) : (s.setCluster n k).launches = s.launches := rfl
@[simp] theorem State.setCluster_rovers (s : State) (n : Nat) (k : Cluster) : (s.setCluster n k).rovers = s.rovers := rfl
@[simp] theorem State.setCluster_susps (s : State) (n : Nat) (k : Cluster) : (s.setCluster n k).susps = s.susps := rfl
@[simp] theorem State.setCluster_resumes (s : State) (n : Nat) (k : Cluster) : (s.setCluster n k).resumes = s.resumes := rfl
@[simp] theorem State.setCluster_poolUsed (s : State) (n : Nat) (k : Cluster) : (s.setCluster n k).poolUsed = s.poolUsed := rfl
@[simp] theorem State.setCluster_dropped (s : State) (n : Nat) (k : Cluster) : (s.setCluster n k).dropped = s.dropped := rfl
@[simp] theorem State.setCluster_jobs (s : State) (n : Nat) (k : Cluster) : (s.setCluster n k).jobs = s.jobs := rfl
@[simp] theorem State.setCluster_replayLog (s : State) (n : Nat) (k : Cluster) : (s.setCluster n k).replayLog = s.replayLog := rfl
@[simp] theorem State.setCluster_replayIn (s : State) (n : Nat) (k : Cluster) : (s.setCluster n k).replayIn = s.replayIn := rfl
@[simp] theorem State.setCluster_loaded (s : State) (n : Nat) (k : Cluster) : (s.setCluster n k).loaded = s.loaded := rfl
@[simp] theorem State.setCluster_migstat (s : State) (n : Nat) (k : Cluster) : (s.setCluster n k).migstat = s.migstat := rfl
@[simp] theorem State.setCluster_houseX (s : State) (n : Nat) (k : Cluster) : (s.setCluster n k).houseX = s.houseX := rfl
@[simp] theorem State.setCluster_platform (s : State) (n : Nat) (k : Cluster) : (s.setCluster n k).platform = s.platform := rfl
@[simp] theorem State.setCluster_enabled (s : State) (n : Nat) (k : Cluster) : (s.setCluster n k).enabled = s.enabled := rfl
@[simp] theorem State.setCluster_cur (s : State) (n : Nat) (k : Cluster) : (s.setCluster n k).cur = s.cur := rfl
@[simp] theorem State.setCluster_scan (s : State) (n : Nat) (k : Cluster) : (s.setCluster n k).scan = s.scan := rfl
@[simp] theorem State.setCluster_timed (s : State) (n : Nat) (k : Cluster) : (s.setCluster n k).timed = s.timed := rfl
@[simp] theorem State.setCluster_inputs (s : State) (n : Nat) (k : Cluster) : (s.setCluster n k).inputs = s.inputs := rfl
@[simp] theorem State.setCluster_fresh (s : State) (n : Nat) (k : Cluster) : (s.setCluster n k).fresh = s.fresh := rfl

@[simp] theorem State.modCluster_threads (s : State) (n : Nat) (f : Cluster → Cluster) : (s.modCluster n f).threads = s.threads := rfl
@[simp] theorem State.modCluster_cores (s : State) (n : Nat) (f : Cluster → Cluster) : (s.modCluster n f).cores = s.cores := rfl
@[simp] theorem State.modCluster_dies (s : State) (n : Nat) (f : Cluster → Cluster) : (s.modCluster n f).dies = s.dies := rfl
@[simp] theorem State.modCluster_mem (s : State) (n : Nat) (f : Cluster → Cluster) : (s.modCluster n f).mem = s.mem := rfl
@[simp] theorem State.modCluster_full (s : State) (n : Nat) (f : Cluster → Cluster) : (s.modCluster n f).full = s.full := rfl
@[simp] theorem State.modCluster_eccOne (s : State) (n : Nat) (f : Cluster → Cluster) : (s.modCluster n f).eccOne = s.eccOne := rfl
@[simp] theorem State.modCluster_eccBad (s : State) (n : Nat) (f : Cluster → Cluster) : (s.modCluster n f).eccBad = s.eccBad := rfl
@[simp] theorem State.modCluster_febBad (s : State) (n : Nat) (f : Cluster → Cluster) : (s.modCluster n f).febBad = s.febBad := rfl
@[simp] theorem State.modCluster_pages (s : State) (n : Nat) (f : Cluster → Cluster) : (s.modCluster n f).pages = s.pages := rfl
@[simp] theorem State.modCluster_released (s : State) (n : Nat) (f : Cluster → Cluster) : (s.modCluster n f).released = s.released := rfl
@[simp] theorem State.modCluster_refused (s : State) (n : Nat) (f : Cluster → Cluster) : (s.modCluster n f).refused = s.refused := rfl
@[simp] theorem State.modCluster_time (s : State) (n : Nat) (f : Cluster → Cluster) : (s.modCluster n f).time = s.time := rfl
@[simp] theorem State.modCluster_pour (s : State) (n : Nat) (f : Cluster → Cluster) : (s.modCluster n f).pour = s.pour := rfl
@[simp] theorem State.modCluster_pourPos (s : State) (n : Nat) (f : Cluster → Cluster) : (s.modCluster n f).pourPos = s.pourPos := rfl
@[simp] theorem State.modCluster_cup (s : State) (n : Nat) (f : Cluster → Cluster) : (s.modCluster n f).cup = s.cup := rfl
@[simp] theorem State.modCluster_emit (s : State) (n : Nat) (f : Cluster → Cluster) : (s.modCluster n f).emit = s.emit := rfl
@[simp] theorem State.modCluster_capacity (s : State) (n : Nat) (f : Cluster → Cluster) : (s.modCluster n f).capacity = s.capacity := rfl
@[simp] theorem State.modCluster_resync (s : State) (n : Nat) (f : Cluster → Cluster) : (s.modCluster n f).resync = s.resync := rfl
@[simp] theorem State.modCluster_spareWave (s : State) (n : Nat) (f : Cluster → Cluster) : (s.modCluster n f).spareWave = s.spareWave := rfl
@[simp] theorem State.modCluster_allreds (s : State) (n : Nat) (f : Cluster → Cluster) : (s.modCluster n f).allreds = s.allreds := rfl
@[simp] theorem State.modCluster_packets (s : State) (n : Nat) (f : Cluster → Cluster) : (s.modCluster n f).packets = s.packets := rfl
@[simp] theorem State.modCluster_paths (s : State) (n : Nat) (f : Cluster → Cluster) : (s.modCluster n f).paths = s.paths := rfl
@[simp] theorem State.modCluster_cxlBad (s : State) (n : Nat) (f : Cluster → Cluster) : (s.modCluster n f).cxlBad = s.cxlBad := rfl
@[simp] theorem State.modCluster_ranks (s : State) (n : Nat) (f : Cluster → Cluster) : (s.modCluster n f).ranks = s.ranks := rfl
@[simp] theorem State.modCluster_recovery (s : State) (n : Nat) (f : Cluster → Cluster) : (s.modCluster n f).recovery = s.recovery := rfl
@[simp] theorem State.modCluster_ports (s : State) (n : Nat) (f : Cluster → Cluster) : (s.modCluster n f).ports = s.ports := rfl
@[simp] theorem State.modCluster_markers (s : State) (n : Nat) (f : Cluster → Cluster) : (s.modCluster n f).markers = s.markers := rfl
@[simp] theorem State.modCluster_peerInbox (s : State) (n : Nat) (f : Cluster → Cluster) : (s.modCluster n f).peerInbox = s.peerInbox := rfl
@[simp] theorem State.modCluster_peerFrames (s : State) (n : Nat) (f : Cluster → Cluster) : (s.modCluster n f).peerFrames = s.peerFrames := rfl
@[simp] theorem State.modCluster_peerBounces (s : State) (n : Nat) (f : Cluster → Cluster) : (s.modCluster n f).peerBounces = s.peerBounces := rfl
@[simp] theorem State.modCluster_cupTime (s : State) (n : Nat) (f : Cluster → Cluster) : (s.modCluster n f).cupTime = s.cupTime := rfl
@[simp] theorem State.modCluster_fecCount (s : State) (n : Nat) (f : Cluster → Cluster) : (s.modCluster n f).fecCount = s.fecCount := rfl
@[simp] theorem State.modCluster_frozen (s : State) (n : Nat) (f : Cluster → Cluster) : (s.modCluster n f).frozen = s.frozen := rfl
@[simp] theorem State.modCluster_groups (s : State) (n : Nat) (f : Cluster → Cluster) : (s.modCluster n f).groups = s.groups := rfl
@[simp] theorem State.modCluster_launches (s : State) (n : Nat) (f : Cluster → Cluster) : (s.modCluster n f).launches = s.launches := rfl
@[simp] theorem State.modCluster_rovers (s : State) (n : Nat) (f : Cluster → Cluster) : (s.modCluster n f).rovers = s.rovers := rfl
@[simp] theorem State.modCluster_susps (s : State) (n : Nat) (f : Cluster → Cluster) : (s.modCluster n f).susps = s.susps := rfl
@[simp] theorem State.modCluster_resumes (s : State) (n : Nat) (f : Cluster → Cluster) : (s.modCluster n f).resumes = s.resumes := rfl
@[simp] theorem State.modCluster_poolUsed (s : State) (n : Nat) (f : Cluster → Cluster) : (s.modCluster n f).poolUsed = s.poolUsed := rfl
@[simp] theorem State.modCluster_dropped (s : State) (n : Nat) (f : Cluster → Cluster) : (s.modCluster n f).dropped = s.dropped := rfl
@[simp] theorem State.modCluster_jobs (s : State) (n : Nat) (f : Cluster → Cluster) : (s.modCluster n f).jobs = s.jobs := rfl
@[simp] theorem State.modCluster_replayLog (s : State) (n : Nat) (f : Cluster → Cluster) : (s.modCluster n f).replayLog = s.replayLog := rfl
@[simp] theorem State.modCluster_replayIn (s : State) (n : Nat) (f : Cluster → Cluster) : (s.modCluster n f).replayIn = s.replayIn := rfl
@[simp] theorem State.modCluster_loaded (s : State) (n : Nat) (f : Cluster → Cluster) : (s.modCluster n f).loaded = s.loaded := rfl
@[simp] theorem State.modCluster_migstat (s : State) (n : Nat) (f : Cluster → Cluster) : (s.modCluster n f).migstat = s.migstat := rfl
@[simp] theorem State.modCluster_houseX (s : State) (n : Nat) (f : Cluster → Cluster) : (s.modCluster n f).houseX = s.houseX := rfl
@[simp] theorem State.modCluster_platform (s : State) (n : Nat) (f : Cluster → Cluster) : (s.modCluster n f).platform = s.platform := rfl
@[simp] theorem State.modCluster_enabled (s : State) (n : Nat) (f : Cluster → Cluster) : (s.modCluster n f).enabled = s.enabled := rfl
@[simp] theorem State.modCluster_cur (s : State) (n : Nat) (f : Cluster → Cluster) : (s.modCluster n f).cur = s.cur := rfl
@[simp] theorem State.modCluster_scan (s : State) (n : Nat) (f : Cluster → Cluster) : (s.modCluster n f).scan = s.scan := rfl
@[simp] theorem State.modCluster_timed (s : State) (n : Nat) (f : Cluster → Cluster) : (s.modCluster n f).timed = s.timed := rfl
@[simp] theorem State.modCluster_inputs (s : State) (n : Nat) (f : Cluster → Cluster) : (s.modCluster n f).inputs = s.inputs := rfl
@[simp] theorem State.modCluster_fresh (s : State) (n : Nat) (f : Cluster → Cluster) : (s.modCluster n f).fresh = s.fresh := rfl

@[simp] theorem State.setStream_threads (s : State) (id : Nat) (x : Stream) : (s.setStream id x).threads = s.threads := rfl
@[simp] theorem State.setStream_cores (s : State) (id : Nat) (x : Stream) : (s.setStream id x).cores = s.cores := rfl
@[simp] theorem State.setStream_dies (s : State) (id : Nat) (x : Stream) : (s.setStream id x).dies = s.dies := rfl
@[simp] theorem State.setStream_mem (s : State) (id : Nat) (x : Stream) : (s.setStream id x).mem = s.mem := rfl
@[simp] theorem State.setStream_full (s : State) (id : Nat) (x : Stream) : (s.setStream id x).full = s.full := rfl
@[simp] theorem State.setStream_eccOne (s : State) (id : Nat) (x : Stream) : (s.setStream id x).eccOne = s.eccOne := rfl
@[simp] theorem State.setStream_eccBad (s : State) (id : Nat) (x : Stream) : (s.setStream id x).eccBad = s.eccBad := rfl
@[simp] theorem State.setStream_febBad (s : State) (id : Nat) (x : Stream) : (s.setStream id x).febBad = s.febBad := rfl
@[simp] theorem State.setStream_pages (s : State) (id : Nat) (x : Stream) : (s.setStream id x).pages = s.pages := rfl
@[simp] theorem State.setStream_released (s : State) (id : Nat) (x : Stream) : (s.setStream id x).released = s.released := rfl
@[simp] theorem State.setStream_refused (s : State) (id : Nat) (x : Stream) : (s.setStream id x).refused = s.refused := rfl
@[simp] theorem State.setStream_time (s : State) (id : Nat) (x : Stream) : (s.setStream id x).time = s.time := rfl
@[simp] theorem State.setStream_pour (s : State) (id : Nat) (x : Stream) : (s.setStream id x).pour = s.pour := rfl
@[simp] theorem State.setStream_pourPos (s : State) (id : Nat) (x : Stream) : (s.setStream id x).pourPos = s.pourPos := rfl
@[simp] theorem State.setStream_cup (s : State) (id : Nat) (x : Stream) : (s.setStream id x).cup = s.cup := rfl
@[simp] theorem State.setStream_emit (s : State) (id : Nat) (x : Stream) : (s.setStream id x).emit = s.emit := rfl
@[simp] theorem State.setStream_capacity (s : State) (id : Nat) (x : Stream) : (s.setStream id x).capacity = s.capacity := rfl
@[simp] theorem State.setStream_resync (s : State) (id : Nat) (x : Stream) : (s.setStream id x).resync = s.resync := rfl
@[simp] theorem State.setStream_spareWave (s : State) (id : Nat) (x : Stream) : (s.setStream id x).spareWave = s.spareWave := rfl
@[simp] theorem State.setStream_allreds (s : State) (id : Nat) (x : Stream) : (s.setStream id x).allreds = s.allreds := rfl
@[simp] theorem State.setStream_packets (s : State) (id : Nat) (x : Stream) : (s.setStream id x).packets = s.packets := rfl
@[simp] theorem State.setStream_paths (s : State) (id : Nat) (x : Stream) : (s.setStream id x).paths = s.paths := rfl
@[simp] theorem State.setStream_cxlBad (s : State) (id : Nat) (x : Stream) : (s.setStream id x).cxlBad = s.cxlBad := rfl
@[simp] theorem State.setStream_ranks (s : State) (id : Nat) (x : Stream) : (s.setStream id x).ranks = s.ranks := rfl
@[simp] theorem State.setStream_recovery (s : State) (id : Nat) (x : Stream) : (s.setStream id x).recovery = s.recovery := rfl
@[simp] theorem State.setStream_ports (s : State) (id : Nat) (x : Stream) : (s.setStream id x).ports = s.ports := rfl
@[simp] theorem State.setStream_markers (s : State) (id : Nat) (x : Stream) : (s.setStream id x).markers = s.markers := rfl
@[simp] theorem State.setStream_peerInbox (s : State) (id : Nat) (x : Stream) : (s.setStream id x).peerInbox = s.peerInbox := rfl
@[simp] theorem State.setStream_peerFrames (s : State) (id : Nat) (x : Stream) : (s.setStream id x).peerFrames = s.peerFrames := rfl
@[simp] theorem State.setStream_peerBounces (s : State) (id : Nat) (x : Stream) : (s.setStream id x).peerBounces = s.peerBounces := rfl
@[simp] theorem State.setStream_cupTime (s : State) (id : Nat) (x : Stream) : (s.setStream id x).cupTime = s.cupTime := rfl
@[simp] theorem State.setStream_fecCount (s : State) (id : Nat) (x : Stream) : (s.setStream id x).fecCount = s.fecCount := rfl
@[simp] theorem State.setStream_frozen (s : State) (id : Nat) (x : Stream) : (s.setStream id x).frozen = s.frozen := rfl
@[simp] theorem State.setStream_groups (s : State) (id : Nat) (x : Stream) : (s.setStream id x).groups = s.groups := rfl
@[simp] theorem State.setStream_launches (s : State) (id : Nat) (x : Stream) : (s.setStream id x).launches = s.launches := rfl
@[simp] theorem State.setStream_rovers (s : State) (id : Nat) (x : Stream) : (s.setStream id x).rovers = s.rovers := rfl
@[simp] theorem State.setStream_susps (s : State) (id : Nat) (x : Stream) : (s.setStream id x).susps = s.susps := rfl
@[simp] theorem State.setStream_resumes (s : State) (id : Nat) (x : Stream) : (s.setStream id x).resumes = s.resumes := rfl
@[simp] theorem State.setStream_poolUsed (s : State) (id : Nat) (x : Stream) : (s.setStream id x).poolUsed = s.poolUsed := rfl
@[simp] theorem State.setStream_dropped (s : State) (id : Nat) (x : Stream) : (s.setStream id x).dropped = s.dropped := rfl
@[simp] theorem State.setStream_jobs (s : State) (id : Nat) (x : Stream) : (s.setStream id x).jobs = s.jobs := rfl
@[simp] theorem State.setStream_replayLog (s : State) (id : Nat) (x : Stream) : (s.setStream id x).replayLog = s.replayLog := rfl
@[simp] theorem State.setStream_replayIn (s : State) (id : Nat) (x : Stream) : (s.setStream id x).replayIn = s.replayIn := rfl
@[simp] theorem State.setStream_loaded (s : State) (id : Nat) (x : Stream) : (s.setStream id x).loaded = s.loaded := rfl
@[simp] theorem State.setStream_migstat (s : State) (id : Nat) (x : Stream) : (s.setStream id x).migstat = s.migstat := rfl
@[simp] theorem State.setStream_houseX (s : State) (id : Nat) (x : Stream) : (s.setStream id x).houseX = s.houseX := rfl
@[simp] theorem State.setStream_platform (s : State) (id : Nat) (x : Stream) : (s.setStream id x).platform = s.platform := rfl
@[simp] theorem State.setStream_enabled (s : State) (id : Nat) (x : Stream) : (s.setStream id x).enabled = s.enabled := rfl
@[simp] theorem State.setStream_cur (s : State) (id : Nat) (x : Stream) : (s.setStream id x).cur = s.cur := rfl
@[simp] theorem State.setStream_scan (s : State) (id : Nat) (x : Stream) : (s.setStream id x).scan = s.scan := rfl
@[simp] theorem State.setStream_timed (s : State) (id : Nat) (x : Stream) : (s.setStream id x).timed = s.timed := rfl
@[simp] theorem State.setStream_inputs (s : State) (id : Nat) (x : Stream) : (s.setStream id x).inputs = s.inputs := rfl
@[simp] theorem State.setStream_fresh (s : State) (id : Nat) (x : Stream) : (s.setStream id x).fresh = s.fresh := rfl

@[simp] theorem State.modDie_threads (s : State) (d : Nat) (f : Die → Die) : (s.modDie d f).threads = s.threads := rfl
@[simp] theorem State.modDie_cores (s : State) (d : Nat) (f : Die → Die) : (s.modDie d f).cores = s.cores := rfl
@[simp] theorem State.modDie_clusters (s : State) (d : Nat) (f : Die → Die) : (s.modDie d f).clusters = s.clusters := rfl
@[simp] theorem State.modDie_mem (s : State) (d : Nat) (f : Die → Die) : (s.modDie d f).mem = s.mem := rfl
@[simp] theorem State.modDie_full (s : State) (d : Nat) (f : Die → Die) : (s.modDie d f).full = s.full := rfl
@[simp] theorem State.modDie_eccOne (s : State) (d : Nat) (f : Die → Die) : (s.modDie d f).eccOne = s.eccOne := rfl
@[simp] theorem State.modDie_eccBad (s : State) (d : Nat) (f : Die → Die) : (s.modDie d f).eccBad = s.eccBad := rfl
@[simp] theorem State.modDie_febBad (s : State) (d : Nat) (f : Die → Die) : (s.modDie d f).febBad = s.febBad := rfl
@[simp] theorem State.modDie_pages (s : State) (d : Nat) (f : Die → Die) : (s.modDie d f).pages = s.pages := rfl
@[simp] theorem State.modDie_released (s : State) (d : Nat) (f : Die → Die) : (s.modDie d f).released = s.released := rfl
@[simp] theorem State.modDie_refused (s : State) (d : Nat) (f : Die → Die) : (s.modDie d f).refused = s.refused := rfl
@[simp] theorem State.modDie_time (s : State) (d : Nat) (f : Die → Die) : (s.modDie d f).time = s.time := rfl
@[simp] theorem State.modDie_pour (s : State) (d : Nat) (f : Die → Die) : (s.modDie d f).pour = s.pour := rfl
@[simp] theorem State.modDie_pourPos (s : State) (d : Nat) (f : Die → Die) : (s.modDie d f).pourPos = s.pourPos := rfl
@[simp] theorem State.modDie_cup (s : State) (d : Nat) (f : Die → Die) : (s.modDie d f).cup = s.cup := rfl
@[simp] theorem State.modDie_emit (s : State) (d : Nat) (f : Die → Die) : (s.modDie d f).emit = s.emit := rfl
@[simp] theorem State.modDie_capacity (s : State) (d : Nat) (f : Die → Die) : (s.modDie d f).capacity = s.capacity := rfl
@[simp] theorem State.modDie_resync (s : State) (d : Nat) (f : Die → Die) : (s.modDie d f).resync = s.resync := rfl
@[simp] theorem State.modDie_spareWave (s : State) (d : Nat) (f : Die → Die) : (s.modDie d f).spareWave = s.spareWave := rfl
@[simp] theorem State.modDie_allreds (s : State) (d : Nat) (f : Die → Die) : (s.modDie d f).allreds = s.allreds := rfl
@[simp] theorem State.modDie_packets (s : State) (d : Nat) (f : Die → Die) : (s.modDie d f).packets = s.packets := rfl
@[simp] theorem State.modDie_paths (s : State) (d : Nat) (f : Die → Die) : (s.modDie d f).paths = s.paths := rfl
@[simp] theorem State.modDie_cxlBad (s : State) (d : Nat) (f : Die → Die) : (s.modDie d f).cxlBad = s.cxlBad := rfl
@[simp] theorem State.modDie_ranks (s : State) (d : Nat) (f : Die → Die) : (s.modDie d f).ranks = s.ranks := rfl
@[simp] theorem State.modDie_recovery (s : State) (d : Nat) (f : Die → Die) : (s.modDie d f).recovery = s.recovery := rfl
@[simp] theorem State.modDie_ports (s : State) (d : Nat) (f : Die → Die) : (s.modDie d f).ports = s.ports := rfl
@[simp] theorem State.modDie_markers (s : State) (d : Nat) (f : Die → Die) : (s.modDie d f).markers = s.markers := rfl
@[simp] theorem State.modDie_peerInbox (s : State) (d : Nat) (f : Die → Die) : (s.modDie d f).peerInbox = s.peerInbox := rfl
@[simp] theorem State.modDie_peerFrames (s : State) (d : Nat) (f : Die → Die) : (s.modDie d f).peerFrames = s.peerFrames := rfl
@[simp] theorem State.modDie_peerBounces (s : State) (d : Nat) (f : Die → Die) : (s.modDie d f).peerBounces = s.peerBounces := rfl
@[simp] theorem State.modDie_cupTime (s : State) (d : Nat) (f : Die → Die) : (s.modDie d f).cupTime = s.cupTime := rfl
@[simp] theorem State.modDie_fecCount (s : State) (d : Nat) (f : Die → Die) : (s.modDie d f).fecCount = s.fecCount := rfl
@[simp] theorem State.modDie_frozen (s : State) (d : Nat) (f : Die → Die) : (s.modDie d f).frozen = s.frozen := rfl
@[simp] theorem State.modDie_groups (s : State) (d : Nat) (f : Die → Die) : (s.modDie d f).groups = s.groups := rfl
@[simp] theorem State.modDie_launches (s : State) (d : Nat) (f : Die → Die) : (s.modDie d f).launches = s.launches := rfl
@[simp] theorem State.modDie_rovers (s : State) (d : Nat) (f : Die → Die) : (s.modDie d f).rovers = s.rovers := rfl
@[simp] theorem State.modDie_susps (s : State) (d : Nat) (f : Die → Die) : (s.modDie d f).susps = s.susps := rfl
@[simp] theorem State.modDie_resumes (s : State) (d : Nat) (f : Die → Die) : (s.modDie d f).resumes = s.resumes := rfl
@[simp] theorem State.modDie_poolUsed (s : State) (d : Nat) (f : Die → Die) : (s.modDie d f).poolUsed = s.poolUsed := rfl
@[simp] theorem State.modDie_dropped (s : State) (d : Nat) (f : Die → Die) : (s.modDie d f).dropped = s.dropped := rfl
@[simp] theorem State.modDie_jobs (s : State) (d : Nat) (f : Die → Die) : (s.modDie d f).jobs = s.jobs := rfl
@[simp] theorem State.modDie_replayLog (s : State) (d : Nat) (f : Die → Die) : (s.modDie d f).replayLog = s.replayLog := rfl
@[simp] theorem State.modDie_replayIn (s : State) (d : Nat) (f : Die → Die) : (s.modDie d f).replayIn = s.replayIn := rfl
@[simp] theorem State.modDie_loaded (s : State) (d : Nat) (f : Die → Die) : (s.modDie d f).loaded = s.loaded := rfl
@[simp] theorem State.modDie_migstat (s : State) (d : Nat) (f : Die → Die) : (s.modDie d f).migstat = s.migstat := rfl
@[simp] theorem State.modDie_houseX (s : State) (d : Nat) (f : Die → Die) : (s.modDie d f).houseX = s.houseX := rfl
@[simp] theorem State.modDie_platform (s : State) (d : Nat) (f : Die → Die) : (s.modDie d f).platform = s.platform := rfl
@[simp] theorem State.modDie_enabled (s : State) (d : Nat) (f : Die → Die) : (s.modDie d f).enabled = s.enabled := rfl
@[simp] theorem State.modDie_cur (s : State) (d : Nat) (f : Die → Die) : (s.modDie d f).cur = s.cur := rfl
@[simp] theorem State.modDie_scan (s : State) (d : Nat) (f : Die → Die) : (s.modDie d f).scan = s.scan := rfl
@[simp] theorem State.modDie_timed (s : State) (d : Nat) (f : Die → Die) : (s.modDie d f).timed = s.timed := rfl
@[simp] theorem State.modDie_inputs (s : State) (d : Nat) (f : Die → Die) : (s.modDie d f).inputs = s.inputs := rfl
@[simp] theorem State.modDie_fresh (s : State) (d : Nat) (f : Die → Die) : (s.modDie d f).fresh = s.fresh := rfl

@[simp] theorem State.modGroup_threads (s : State) (g : Nat) (f : Group → Group) : (s.modGroup g f).threads = s.threads := rfl
@[simp] theorem State.modGroup_cores (s : State) (g : Nat) (f : Group → Group) : (s.modGroup g f).cores = s.cores := rfl
@[simp] theorem State.modGroup_clusters (s : State) (g : Nat) (f : Group → Group) : (s.modGroup g f).clusters = s.clusters := rfl
@[simp] theorem State.modGroup_dies (s : State) (g : Nat) (f : Group → Group) : (s.modGroup g f).dies = s.dies := rfl
@[simp] theorem State.modGroup_mem (s : State) (g : Nat) (f : Group → Group) : (s.modGroup g f).mem = s.mem := rfl
@[simp] theorem State.modGroup_full (s : State) (g : Nat) (f : Group → Group) : (s.modGroup g f).full = s.full := rfl
@[simp] theorem State.modGroup_eccOne (s : State) (g : Nat) (f : Group → Group) : (s.modGroup g f).eccOne = s.eccOne := rfl
@[simp] theorem State.modGroup_eccBad (s : State) (g : Nat) (f : Group → Group) : (s.modGroup g f).eccBad = s.eccBad := rfl
@[simp] theorem State.modGroup_febBad (s : State) (g : Nat) (f : Group → Group) : (s.modGroup g f).febBad = s.febBad := rfl
@[simp] theorem State.modGroup_pages (s : State) (g : Nat) (f : Group → Group) : (s.modGroup g f).pages = s.pages := rfl
@[simp] theorem State.modGroup_released (s : State) (g : Nat) (f : Group → Group) : (s.modGroup g f).released = s.released := rfl
@[simp] theorem State.modGroup_refused (s : State) (g : Nat) (f : Group → Group) : (s.modGroup g f).refused = s.refused := rfl
@[simp] theorem State.modGroup_time (s : State) (g : Nat) (f : Group → Group) : (s.modGroup g f).time = s.time := rfl
@[simp] theorem State.modGroup_pour (s : State) (g : Nat) (f : Group → Group) : (s.modGroup g f).pour = s.pour := rfl
@[simp] theorem State.modGroup_pourPos (s : State) (g : Nat) (f : Group → Group) : (s.modGroup g f).pourPos = s.pourPos := rfl
@[simp] theorem State.modGroup_cup (s : State) (g : Nat) (f : Group → Group) : (s.modGroup g f).cup = s.cup := rfl
@[simp] theorem State.modGroup_emit (s : State) (g : Nat) (f : Group → Group) : (s.modGroup g f).emit = s.emit := rfl
@[simp] theorem State.modGroup_capacity (s : State) (g : Nat) (f : Group → Group) : (s.modGroup g f).capacity = s.capacity := rfl
@[simp] theorem State.modGroup_resync (s : State) (g : Nat) (f : Group → Group) : (s.modGroup g f).resync = s.resync := rfl
@[simp] theorem State.modGroup_spareWave (s : State) (g : Nat) (f : Group → Group) : (s.modGroup g f).spareWave = s.spareWave := rfl
@[simp] theorem State.modGroup_allreds (s : State) (g : Nat) (f : Group → Group) : (s.modGroup g f).allreds = s.allreds := rfl
@[simp] theorem State.modGroup_packets (s : State) (g : Nat) (f : Group → Group) : (s.modGroup g f).packets = s.packets := rfl
@[simp] theorem State.modGroup_paths (s : State) (g : Nat) (f : Group → Group) : (s.modGroup g f).paths = s.paths := rfl
@[simp] theorem State.modGroup_cxlBad (s : State) (g : Nat) (f : Group → Group) : (s.modGroup g f).cxlBad = s.cxlBad := rfl
@[simp] theorem State.modGroup_ranks (s : State) (g : Nat) (f : Group → Group) : (s.modGroup g f).ranks = s.ranks := rfl
@[simp] theorem State.modGroup_recovery (s : State) (g : Nat) (f : Group → Group) : (s.modGroup g f).recovery = s.recovery := rfl
@[simp] theorem State.modGroup_ports (s : State) (g : Nat) (f : Group → Group) : (s.modGroup g f).ports = s.ports := rfl
@[simp] theorem State.modGroup_markers (s : State) (g : Nat) (f : Group → Group) : (s.modGroup g f).markers = s.markers := rfl
@[simp] theorem State.modGroup_peerInbox (s : State) (g : Nat) (f : Group → Group) : (s.modGroup g f).peerInbox = s.peerInbox := rfl
@[simp] theorem State.modGroup_peerFrames (s : State) (g : Nat) (f : Group → Group) : (s.modGroup g f).peerFrames = s.peerFrames := rfl
@[simp] theorem State.modGroup_peerBounces (s : State) (g : Nat) (f : Group → Group) : (s.modGroup g f).peerBounces = s.peerBounces := rfl
@[simp] theorem State.modGroup_cupTime (s : State) (g : Nat) (f : Group → Group) : (s.modGroup g f).cupTime = s.cupTime := rfl
@[simp] theorem State.modGroup_fecCount (s : State) (g : Nat) (f : Group → Group) : (s.modGroup g f).fecCount = s.fecCount := rfl
@[simp] theorem State.modGroup_frozen (s : State) (g : Nat) (f : Group → Group) : (s.modGroup g f).frozen = s.frozen := rfl
@[simp] theorem State.modGroup_launches (s : State) (g : Nat) (f : Group → Group) : (s.modGroup g f).launches = s.launches := rfl
@[simp] theorem State.modGroup_rovers (s : State) (g : Nat) (f : Group → Group) : (s.modGroup g f).rovers = s.rovers := rfl
@[simp] theorem State.modGroup_susps (s : State) (g : Nat) (f : Group → Group) : (s.modGroup g f).susps = s.susps := rfl
@[simp] theorem State.modGroup_resumes (s : State) (g : Nat) (f : Group → Group) : (s.modGroup g f).resumes = s.resumes := rfl
@[simp] theorem State.modGroup_poolUsed (s : State) (g : Nat) (f : Group → Group) : (s.modGroup g f).poolUsed = s.poolUsed := rfl
@[simp] theorem State.modGroup_dropped (s : State) (g : Nat) (f : Group → Group) : (s.modGroup g f).dropped = s.dropped := rfl
@[simp] theorem State.modGroup_jobs (s : State) (g : Nat) (f : Group → Group) : (s.modGroup g f).jobs = s.jobs := rfl
@[simp] theorem State.modGroup_replayLog (s : State) (g : Nat) (f : Group → Group) : (s.modGroup g f).replayLog = s.replayLog := rfl
@[simp] theorem State.modGroup_replayIn (s : State) (g : Nat) (f : Group → Group) : (s.modGroup g f).replayIn = s.replayIn := rfl
@[simp] theorem State.modGroup_loaded (s : State) (g : Nat) (f : Group → Group) : (s.modGroup g f).loaded = s.loaded := rfl
@[simp] theorem State.modGroup_migstat (s : State) (g : Nat) (f : Group → Group) : (s.modGroup g f).migstat = s.migstat := rfl
@[simp] theorem State.modGroup_houseX (s : State) (g : Nat) (f : Group → Group) : (s.modGroup g f).houseX = s.houseX := rfl
@[simp] theorem State.modGroup_platform (s : State) (g : Nat) (f : Group → Group) : (s.modGroup g f).platform = s.platform := rfl
@[simp] theorem State.modGroup_enabled (s : State) (g : Nat) (f : Group → Group) : (s.modGroup g f).enabled = s.enabled := rfl
@[simp] theorem State.modGroup_cur (s : State) (g : Nat) (f : Group → Group) : (s.modGroup g f).cur = s.cur := rfl
@[simp] theorem State.modGroup_scan (s : State) (g : Nat) (f : Group → Group) : (s.modGroup g f).scan = s.scan := rfl
@[simp] theorem State.modGroup_timed (s : State) (g : Nat) (f : Group → Group) : (s.modGroup g f).timed = s.timed := rfl
@[simp] theorem State.modGroup_inputs (s : State) (g : Nat) (f : Group → Group) : (s.modGroup g f).inputs = s.inputs := rfl
@[simp] theorem State.modGroup_fresh (s : State) (g : Nat) (f : Group → Group) : (s.modGroup g f).fresh = s.fresh := rfl

@[simp] theorem State.setPour_threads (s : State) (i : Nat) (x : PourObj) : (s.setPour i x).threads = s.threads := rfl
@[simp] theorem State.setPour_cores (s : State) (i : Nat) (x : PourObj) : (s.setPour i x).cores = s.cores := rfl
@[simp] theorem State.setPour_clusters (s : State) (i : Nat) (x : PourObj) : (s.setPour i x).clusters = s.clusters := rfl
@[simp] theorem State.setPour_dies (s : State) (i : Nat) (x : PourObj) : (s.setPour i x).dies = s.dies := rfl
@[simp] theorem State.setPour_mem (s : State) (i : Nat) (x : PourObj) : (s.setPour i x).mem = s.mem := rfl
@[simp] theorem State.setPour_full (s : State) (i : Nat) (x : PourObj) : (s.setPour i x).full = s.full := rfl
@[simp] theorem State.setPour_eccOne (s : State) (i : Nat) (x : PourObj) : (s.setPour i x).eccOne = s.eccOne := rfl
@[simp] theorem State.setPour_eccBad (s : State) (i : Nat) (x : PourObj) : (s.setPour i x).eccBad = s.eccBad := rfl
@[simp] theorem State.setPour_febBad (s : State) (i : Nat) (x : PourObj) : (s.setPour i x).febBad = s.febBad := rfl
@[simp] theorem State.setPour_pages (s : State) (i : Nat) (x : PourObj) : (s.setPour i x).pages = s.pages := rfl
@[simp] theorem State.setPour_released (s : State) (i : Nat) (x : PourObj) : (s.setPour i x).released = s.released := rfl
@[simp] theorem State.setPour_refused (s : State) (i : Nat) (x : PourObj) : (s.setPour i x).refused = s.refused := rfl
@[simp] theorem State.setPour_time (s : State) (i : Nat) (x : PourObj) : (s.setPour i x).time = s.time := rfl
@[simp] theorem State.setPour_pourPos (s : State) (i : Nat) (x : PourObj) : (s.setPour i x).pourPos = s.pourPos := rfl
@[simp] theorem State.setPour_cup (s : State) (i : Nat) (x : PourObj) : (s.setPour i x).cup = s.cup := rfl
@[simp] theorem State.setPour_emit (s : State) (i : Nat) (x : PourObj) : (s.setPour i x).emit = s.emit := rfl
@[simp] theorem State.setPour_capacity (s : State) (i : Nat) (x : PourObj) : (s.setPour i x).capacity = s.capacity := rfl
@[simp] theorem State.setPour_resync (s : State) (i : Nat) (x : PourObj) : (s.setPour i x).resync = s.resync := rfl
@[simp] theorem State.setPour_spareWave (s : State) (i : Nat) (x : PourObj) : (s.setPour i x).spareWave = s.spareWave := rfl
@[simp] theorem State.setPour_allreds (s : State) (i : Nat) (x : PourObj) : (s.setPour i x).allreds = s.allreds := rfl
@[simp] theorem State.setPour_packets (s : State) (i : Nat) (x : PourObj) : (s.setPour i x).packets = s.packets := rfl
@[simp] theorem State.setPour_paths (s : State) (i : Nat) (x : PourObj) : (s.setPour i x).paths = s.paths := rfl
@[simp] theorem State.setPour_cxlBad (s : State) (i : Nat) (x : PourObj) : (s.setPour i x).cxlBad = s.cxlBad := rfl
@[simp] theorem State.setPour_ranks (s : State) (i : Nat) (x : PourObj) : (s.setPour i x).ranks = s.ranks := rfl
@[simp] theorem State.setPour_recovery (s : State) (i : Nat) (x : PourObj) : (s.setPour i x).recovery = s.recovery := rfl
@[simp] theorem State.setPour_ports (s : State) (i : Nat) (x : PourObj) : (s.setPour i x).ports = s.ports := rfl
@[simp] theorem State.setPour_markers (s : State) (i : Nat) (x : PourObj) : (s.setPour i x).markers = s.markers := rfl
@[simp] theorem State.setPour_peerInbox (s : State) (i : Nat) (x : PourObj) : (s.setPour i x).peerInbox = s.peerInbox := rfl
@[simp] theorem State.setPour_peerFrames (s : State) (i : Nat) (x : PourObj) : (s.setPour i x).peerFrames = s.peerFrames := rfl
@[simp] theorem State.setPour_peerBounces (s : State) (i : Nat) (x : PourObj) : (s.setPour i x).peerBounces = s.peerBounces := rfl
@[simp] theorem State.setPour_cupTime (s : State) (i : Nat) (x : PourObj) : (s.setPour i x).cupTime = s.cupTime := rfl
@[simp] theorem State.setPour_fecCount (s : State) (i : Nat) (x : PourObj) : (s.setPour i x).fecCount = s.fecCount := rfl
@[simp] theorem State.setPour_frozen (s : State) (i : Nat) (x : PourObj) : (s.setPour i x).frozen = s.frozen := rfl
@[simp] theorem State.setPour_groups (s : State) (i : Nat) (x : PourObj) : (s.setPour i x).groups = s.groups := rfl
@[simp] theorem State.setPour_launches (s : State) (i : Nat) (x : PourObj) : (s.setPour i x).launches = s.launches := rfl
@[simp] theorem State.setPour_rovers (s : State) (i : Nat) (x : PourObj) : (s.setPour i x).rovers = s.rovers := rfl
@[simp] theorem State.setPour_susps (s : State) (i : Nat) (x : PourObj) : (s.setPour i x).susps = s.susps := rfl
@[simp] theorem State.setPour_resumes (s : State) (i : Nat) (x : PourObj) : (s.setPour i x).resumes = s.resumes := rfl
@[simp] theorem State.setPour_poolUsed (s : State) (i : Nat) (x : PourObj) : (s.setPour i x).poolUsed = s.poolUsed := rfl
@[simp] theorem State.setPour_dropped (s : State) (i : Nat) (x : PourObj) : (s.setPour i x).dropped = s.dropped := rfl
@[simp] theorem State.setPour_jobs (s : State) (i : Nat) (x : PourObj) : (s.setPour i x).jobs = s.jobs := rfl
@[simp] theorem State.setPour_replayLog (s : State) (i : Nat) (x : PourObj) : (s.setPour i x).replayLog = s.replayLog := rfl
@[simp] theorem State.setPour_replayIn (s : State) (i : Nat) (x : PourObj) : (s.setPour i x).replayIn = s.replayIn := rfl
@[simp] theorem State.setPour_loaded (s : State) (i : Nat) (x : PourObj) : (s.setPour i x).loaded = s.loaded := rfl
@[simp] theorem State.setPour_migstat (s : State) (i : Nat) (x : PourObj) : (s.setPour i x).migstat = s.migstat := rfl
@[simp] theorem State.setPour_houseX (s : State) (i : Nat) (x : PourObj) : (s.setPour i x).houseX = s.houseX := rfl
@[simp] theorem State.setPour_platform (s : State) (i : Nat) (x : PourObj) : (s.setPour i x).platform = s.platform := rfl
@[simp] theorem State.setPour_enabled (s : State) (i : Nat) (x : PourObj) : (s.setPour i x).enabled = s.enabled := rfl
@[simp] theorem State.setPour_cur (s : State) (i : Nat) (x : PourObj) : (s.setPour i x).cur = s.cur := rfl
@[simp] theorem State.setPour_scan (s : State) (i : Nat) (x : PourObj) : (s.setPour i x).scan = s.scan := rfl
@[simp] theorem State.setPour_timed (s : State) (i : Nat) (x : PourObj) : (s.setPour i x).timed = s.timed := rfl
@[simp] theorem State.setPour_inputs (s : State) (i : Nat) (x : PourObj) : (s.setPour i x).inputs = s.inputs := rfl
@[simp] theorem State.setPour_fresh (s : State) (i : Nat) (x : PourObj) : (s.setPour i x).fresh = s.fresh := rfl

@[simp] theorem State.queueFrame_threads (s : State) (n : Nat) (ty : FrameType) (b : Bool) (f : Frame) (w : Nat) : (s.queueFrame n ty b f w).threads = s.threads := rfl
@[simp] theorem State.queueFrame_cores (s : State) (n : Nat) (ty : FrameType) (b : Bool) (f : Frame) (w : Nat) : (s.queueFrame n ty b f w).cores = s.cores := rfl
@[simp] theorem State.queueFrame_clusters (s : State) (n : Nat) (ty : FrameType) (b : Bool) (f : Frame) (w : Nat) : (s.queueFrame n ty b f w).clusters = s.clusters := rfl
@[simp] theorem State.queueFrame_dies (s : State) (n : Nat) (ty : FrameType) (b : Bool) (f : Frame) (w : Nat) : (s.queueFrame n ty b f w).dies = s.dies := rfl
@[simp] theorem State.queueFrame_mem (s : State) (n : Nat) (ty : FrameType) (b : Bool) (f : Frame) (w : Nat) : (s.queueFrame n ty b f w).mem = s.mem := rfl
@[simp] theorem State.queueFrame_full (s : State) (n : Nat) (ty : FrameType) (b : Bool) (f : Frame) (w : Nat) : (s.queueFrame n ty b f w).full = s.full := rfl
@[simp] theorem State.queueFrame_eccOne (s : State) (n : Nat) (ty : FrameType) (b : Bool) (f : Frame) (w : Nat) : (s.queueFrame n ty b f w).eccOne = s.eccOne := rfl
@[simp] theorem State.queueFrame_eccBad (s : State) (n : Nat) (ty : FrameType) (b : Bool) (f : Frame) (w : Nat) : (s.queueFrame n ty b f w).eccBad = s.eccBad := rfl
@[simp] theorem State.queueFrame_febBad (s : State) (n : Nat) (ty : FrameType) (b : Bool) (f : Frame) (w : Nat) : (s.queueFrame n ty b f w).febBad = s.febBad := rfl
@[simp] theorem State.queueFrame_pages (s : State) (n : Nat) (ty : FrameType) (b : Bool) (f : Frame) (w : Nat) : (s.queueFrame n ty b f w).pages = s.pages := rfl
@[simp] theorem State.queueFrame_released (s : State) (n : Nat) (ty : FrameType) (b : Bool) (f : Frame) (w : Nat) : (s.queueFrame n ty b f w).released = s.released := rfl
@[simp] theorem State.queueFrame_refused (s : State) (n : Nat) (ty : FrameType) (b : Bool) (f : Frame) (w : Nat) : (s.queueFrame n ty b f w).refused = s.refused := rfl
@[simp] theorem State.queueFrame_time (s : State) (n : Nat) (ty : FrameType) (b : Bool) (f : Frame) (w : Nat) : (s.queueFrame n ty b f w).time = s.time := rfl
@[simp] theorem State.queueFrame_pour (s : State) (n : Nat) (ty : FrameType) (b : Bool) (f : Frame) (w : Nat) : (s.queueFrame n ty b f w).pour = s.pour := rfl
@[simp] theorem State.queueFrame_pourPos (s : State) (n : Nat) (ty : FrameType) (b : Bool) (f : Frame) (w : Nat) : (s.queueFrame n ty b f w).pourPos = s.pourPos := rfl
@[simp] theorem State.queueFrame_cup (s : State) (n : Nat) (ty : FrameType) (b : Bool) (f : Frame) (w : Nat) : (s.queueFrame n ty b f w).cup = s.cup := rfl
@[simp] theorem State.queueFrame_capacity (s : State) (n : Nat) (ty : FrameType) (b : Bool) (f : Frame) (w : Nat) : (s.queueFrame n ty b f w).capacity = s.capacity := rfl
@[simp] theorem State.queueFrame_resync (s : State) (n : Nat) (ty : FrameType) (b : Bool) (f : Frame) (w : Nat) : (s.queueFrame n ty b f w).resync = s.resync := rfl
@[simp] theorem State.queueFrame_spareWave (s : State) (n : Nat) (ty : FrameType) (b : Bool) (f : Frame) (w : Nat) : (s.queueFrame n ty b f w).spareWave = s.spareWave := rfl
@[simp] theorem State.queueFrame_allreds (s : State) (n : Nat) (ty : FrameType) (b : Bool) (f : Frame) (w : Nat) : (s.queueFrame n ty b f w).allreds = s.allreds := rfl
@[simp] theorem State.queueFrame_packets (s : State) (n : Nat) (ty : FrameType) (b : Bool) (f : Frame) (w : Nat) : (s.queueFrame n ty b f w).packets = s.packets := rfl
@[simp] theorem State.queueFrame_paths (s : State) (n : Nat) (ty : FrameType) (b : Bool) (f : Frame) (w : Nat) : (s.queueFrame n ty b f w).paths = s.paths := rfl
@[simp] theorem State.queueFrame_cxlBad (s : State) (n : Nat) (ty : FrameType) (b : Bool) (f : Frame) (w : Nat) : (s.queueFrame n ty b f w).cxlBad = s.cxlBad := rfl
@[simp] theorem State.queueFrame_ranks (s : State) (n : Nat) (ty : FrameType) (b : Bool) (f : Frame) (w : Nat) : (s.queueFrame n ty b f w).ranks = s.ranks := rfl
@[simp] theorem State.queueFrame_recovery (s : State) (n : Nat) (ty : FrameType) (b : Bool) (f : Frame) (w : Nat) : (s.queueFrame n ty b f w).recovery = s.recovery := rfl
@[simp] theorem State.queueFrame_ports (s : State) (n : Nat) (ty : FrameType) (b : Bool) (f : Frame) (w : Nat) : (s.queueFrame n ty b f w).ports = s.ports := rfl
@[simp] theorem State.queueFrame_markers (s : State) (n : Nat) (ty : FrameType) (b : Bool) (f : Frame) (w : Nat) : (s.queueFrame n ty b f w).markers = s.markers := rfl
@[simp] theorem State.queueFrame_peerInbox (s : State) (n : Nat) (ty : FrameType) (b : Bool) (f : Frame) (w : Nat) : (s.queueFrame n ty b f w).peerInbox = s.peerInbox := rfl
@[simp] theorem State.queueFrame_peerFrames (s : State) (n : Nat) (ty : FrameType) (b : Bool) (f : Frame) (w : Nat) : (s.queueFrame n ty b f w).peerFrames = s.peerFrames := rfl
@[simp] theorem State.queueFrame_peerBounces (s : State) (n : Nat) (ty : FrameType) (b : Bool) (f : Frame) (w : Nat) : (s.queueFrame n ty b f w).peerBounces = s.peerBounces := rfl
@[simp] theorem State.queueFrame_cupTime (s : State) (n : Nat) (ty : FrameType) (b : Bool) (f : Frame) (w : Nat) : (s.queueFrame n ty b f w).cupTime = s.cupTime := rfl
@[simp] theorem State.queueFrame_fecCount (s : State) (n : Nat) (ty : FrameType) (b : Bool) (f : Frame) (w : Nat) : (s.queueFrame n ty b f w).fecCount = s.fecCount := rfl
@[simp] theorem State.queueFrame_frozen (s : State) (n : Nat) (ty : FrameType) (b : Bool) (f : Frame) (w : Nat) : (s.queueFrame n ty b f w).frozen = s.frozen := rfl
@[simp] theorem State.queueFrame_groups (s : State) (n : Nat) (ty : FrameType) (b : Bool) (f : Frame) (w : Nat) : (s.queueFrame n ty b f w).groups = s.groups := rfl
@[simp] theorem State.queueFrame_launches (s : State) (n : Nat) (ty : FrameType) (b : Bool) (f : Frame) (w : Nat) : (s.queueFrame n ty b f w).launches = s.launches := rfl
@[simp] theorem State.queueFrame_rovers (s : State) (n : Nat) (ty : FrameType) (b : Bool) (f : Frame) (w : Nat) : (s.queueFrame n ty b f w).rovers = s.rovers := rfl
@[simp] theorem State.queueFrame_susps (s : State) (n : Nat) (ty : FrameType) (b : Bool) (f : Frame) (w : Nat) : (s.queueFrame n ty b f w).susps = s.susps := rfl
@[simp] theorem State.queueFrame_resumes (s : State) (n : Nat) (ty : FrameType) (b : Bool) (f : Frame) (w : Nat) : (s.queueFrame n ty b f w).resumes = s.resumes := rfl
@[simp] theorem State.queueFrame_poolUsed (s : State) (n : Nat) (ty : FrameType) (b : Bool) (f : Frame) (w : Nat) : (s.queueFrame n ty b f w).poolUsed = s.poolUsed := rfl
@[simp] theorem State.queueFrame_dropped (s : State) (n : Nat) (ty : FrameType) (b : Bool) (f : Frame) (w : Nat) : (s.queueFrame n ty b f w).dropped = s.dropped := rfl
@[simp] theorem State.queueFrame_jobs (s : State) (n : Nat) (ty : FrameType) (b : Bool) (f : Frame) (w : Nat) : (s.queueFrame n ty b f w).jobs = s.jobs := rfl
@[simp] theorem State.queueFrame_replayLog (s : State) (n : Nat) (ty : FrameType) (b : Bool) (f : Frame) (w : Nat) : (s.queueFrame n ty b f w).replayLog = s.replayLog := rfl
@[simp] theorem State.queueFrame_replayIn (s : State) (n : Nat) (ty : FrameType) (b : Bool) (f : Frame) (w : Nat) : (s.queueFrame n ty b f w).replayIn = s.replayIn := rfl
@[simp] theorem State.queueFrame_loaded (s : State) (n : Nat) (ty : FrameType) (b : Bool) (f : Frame) (w : Nat) : (s.queueFrame n ty b f w).loaded = s.loaded := rfl
@[simp] theorem State.queueFrame_migstat (s : State) (n : Nat) (ty : FrameType) (b : Bool) (f : Frame) (w : Nat) : (s.queueFrame n ty b f w).migstat = s.migstat := rfl
@[simp] theorem State.queueFrame_houseX (s : State) (n : Nat) (ty : FrameType) (b : Bool) (f : Frame) (w : Nat) : (s.queueFrame n ty b f w).houseX = s.houseX := rfl
@[simp] theorem State.queueFrame_platform (s : State) (n : Nat) (ty : FrameType) (b : Bool) (f : Frame) (w : Nat) : (s.queueFrame n ty b f w).platform = s.platform := rfl
@[simp] theorem State.queueFrame_enabled (s : State) (n : Nat) (ty : FrameType) (b : Bool) (f : Frame) (w : Nat) : (s.queueFrame n ty b f w).enabled = s.enabled := rfl
@[simp] theorem State.queueFrame_cur (s : State) (n : Nat) (ty : FrameType) (b : Bool) (f : Frame) (w : Nat) : (s.queueFrame n ty b f w).cur = s.cur := rfl
@[simp] theorem State.queueFrame_scan (s : State) (n : Nat) (ty : FrameType) (b : Bool) (f : Frame) (w : Nat) : (s.queueFrame n ty b f w).scan = s.scan := rfl
@[simp] theorem State.queueFrame_timed (s : State) (n : Nat) (ty : FrameType) (b : Bool) (f : Frame) (w : Nat) : (s.queueFrame n ty b f w).timed = s.timed := rfl
@[simp] theorem State.queueFrame_inputs (s : State) (n : Nat) (ty : FrameType) (b : Bool) (f : Frame) (w : Nat) : (s.queueFrame n ty b f w).inputs = s.inputs := rfl
@[simp] theorem State.queueFrame_fresh (s : State) (n : Nat) (ty : FrameType) (b : Bool) (f : Frame) (w : Nat) : (s.queueFrame n ty b f w).fresh = s.fresh := rfl

@[simp] theorem State.schedule_threads (s : State) (n : Nat) (d : Due) : (s.schedule n d).threads = s.threads := rfl
@[simp] theorem State.schedule_cores (s : State) (n : Nat) (d : Due) : (s.schedule n d).cores = s.cores := rfl
@[simp] theorem State.schedule_clusters (s : State) (n : Nat) (d : Due) : (s.schedule n d).clusters = s.clusters := rfl
@[simp] theorem State.schedule_dies (s : State) (n : Nat) (d : Due) : (s.schedule n d).dies = s.dies := rfl
@[simp] theorem State.schedule_mem (s : State) (n : Nat) (d : Due) : (s.schedule n d).mem = s.mem := rfl
@[simp] theorem State.schedule_full (s : State) (n : Nat) (d : Due) : (s.schedule n d).full = s.full := rfl
@[simp] theorem State.schedule_eccOne (s : State) (n : Nat) (d : Due) : (s.schedule n d).eccOne = s.eccOne := rfl
@[simp] theorem State.schedule_eccBad (s : State) (n : Nat) (d : Due) : (s.schedule n d).eccBad = s.eccBad := rfl
@[simp] theorem State.schedule_febBad (s : State) (n : Nat) (d : Due) : (s.schedule n d).febBad = s.febBad := rfl
@[simp] theorem State.schedule_pages (s : State) (n : Nat) (d : Due) : (s.schedule n d).pages = s.pages := rfl
@[simp] theorem State.schedule_released (s : State) (n : Nat) (d : Due) : (s.schedule n d).released = s.released := rfl
@[simp] theorem State.schedule_refused (s : State) (n : Nat) (d : Due) : (s.schedule n d).refused = s.refused := rfl
@[simp] theorem State.schedule_time (s : State) (n : Nat) (d : Due) : (s.schedule n d).time = s.time := rfl
@[simp] theorem State.schedule_pour (s : State) (n : Nat) (d : Due) : (s.schedule n d).pour = s.pour := rfl
@[simp] theorem State.schedule_pourPos (s : State) (n : Nat) (d : Due) : (s.schedule n d).pourPos = s.pourPos := rfl
@[simp] theorem State.schedule_cup (s : State) (n : Nat) (d : Due) : (s.schedule n d).cup = s.cup := rfl
@[simp] theorem State.schedule_emit (s : State) (n : Nat) (d : Due) : (s.schedule n d).emit = s.emit := rfl
@[simp] theorem State.schedule_capacity (s : State) (n : Nat) (d : Due) : (s.schedule n d).capacity = s.capacity := rfl
@[simp] theorem State.schedule_resync (s : State) (n : Nat) (d : Due) : (s.schedule n d).resync = s.resync := rfl
@[simp] theorem State.schedule_spareWave (s : State) (n : Nat) (d : Due) : (s.schedule n d).spareWave = s.spareWave := rfl
@[simp] theorem State.schedule_allreds (s : State) (n : Nat) (d : Due) : (s.schedule n d).allreds = s.allreds := rfl
@[simp] theorem State.schedule_packets (s : State) (n : Nat) (d : Due) : (s.schedule n d).packets = s.packets := rfl
@[simp] theorem State.schedule_paths (s : State) (n : Nat) (d : Due) : (s.schedule n d).paths = s.paths := rfl
@[simp] theorem State.schedule_cxlBad (s : State) (n : Nat) (d : Due) : (s.schedule n d).cxlBad = s.cxlBad := rfl
@[simp] theorem State.schedule_ranks (s : State) (n : Nat) (d : Due) : (s.schedule n d).ranks = s.ranks := rfl
@[simp] theorem State.schedule_recovery (s : State) (n : Nat) (d : Due) : (s.schedule n d).recovery = s.recovery := rfl
@[simp] theorem State.schedule_ports (s : State) (n : Nat) (d : Due) : (s.schedule n d).ports = s.ports := rfl
@[simp] theorem State.schedule_markers (s : State) (n : Nat) (d : Due) : (s.schedule n d).markers = s.markers := rfl
@[simp] theorem State.schedule_peerInbox (s : State) (n : Nat) (d : Due) : (s.schedule n d).peerInbox = s.peerInbox := rfl
@[simp] theorem State.schedule_peerFrames (s : State) (n : Nat) (d : Due) : (s.schedule n d).peerFrames = s.peerFrames := rfl
@[simp] theorem State.schedule_peerBounces (s : State) (n : Nat) (d : Due) : (s.schedule n d).peerBounces = s.peerBounces := rfl
@[simp] theorem State.schedule_cupTime (s : State) (n : Nat) (d : Due) : (s.schedule n d).cupTime = s.cupTime := rfl
@[simp] theorem State.schedule_fecCount (s : State) (n : Nat) (d : Due) : (s.schedule n d).fecCount = s.fecCount := rfl
@[simp] theorem State.schedule_frozen (s : State) (n : Nat) (d : Due) : (s.schedule n d).frozen = s.frozen := rfl
@[simp] theorem State.schedule_groups (s : State) (n : Nat) (d : Due) : (s.schedule n d).groups = s.groups := rfl
@[simp] theorem State.schedule_launches (s : State) (n : Nat) (d : Due) : (s.schedule n d).launches = s.launches := rfl
@[simp] theorem State.schedule_rovers (s : State) (n : Nat) (d : Due) : (s.schedule n d).rovers = s.rovers := rfl
@[simp] theorem State.schedule_susps (s : State) (n : Nat) (d : Due) : (s.schedule n d).susps = s.susps := rfl
@[simp] theorem State.schedule_resumes (s : State) (n : Nat) (d : Due) : (s.schedule n d).resumes = s.resumes := rfl
@[simp] theorem State.schedule_poolUsed (s : State) (n : Nat) (d : Due) : (s.schedule n d).poolUsed = s.poolUsed := rfl
@[simp] theorem State.schedule_dropped (s : State) (n : Nat) (d : Due) : (s.schedule n d).dropped = s.dropped := rfl
@[simp] theorem State.schedule_jobs (s : State) (n : Nat) (d : Due) : (s.schedule n d).jobs = s.jobs := rfl
@[simp] theorem State.schedule_replayLog (s : State) (n : Nat) (d : Due) : (s.schedule n d).replayLog = s.replayLog := rfl
@[simp] theorem State.schedule_replayIn (s : State) (n : Nat) (d : Due) : (s.schedule n d).replayIn = s.replayIn := rfl
@[simp] theorem State.schedule_loaded (s : State) (n : Nat) (d : Due) : (s.schedule n d).loaded = s.loaded := rfl
@[simp] theorem State.schedule_migstat (s : State) (n : Nat) (d : Due) : (s.schedule n d).migstat = s.migstat := rfl
@[simp] theorem State.schedule_houseX (s : State) (n : Nat) (d : Due) : (s.schedule n d).houseX = s.houseX := rfl
@[simp] theorem State.schedule_platform (s : State) (n : Nat) (d : Due) : (s.schedule n d).platform = s.platform := rfl
@[simp] theorem State.schedule_enabled (s : State) (n : Nat) (d : Due) : (s.schedule n d).enabled = s.enabled := rfl
@[simp] theorem State.schedule_cur (s : State) (n : Nat) (d : Due) : (s.schedule n d).cur = s.cur := rfl
@[simp] theorem State.schedule_scan (s : State) (n : Nat) (d : Due) : (s.schedule n d).scan = s.scan := rfl
@[simp] theorem State.schedule_inputs (s : State) (n : Nat) (d : Due) : (s.schedule n d).inputs = s.inputs := rfl

@[simp] theorem State.bump_threads (s : State) : (s.bump).threads = s.threads := rfl
@[simp] theorem State.bump_cores (s : State) : (s.bump).cores = s.cores := rfl
@[simp] theorem State.bump_clusters (s : State) : (s.bump).clusters = s.clusters := rfl
@[simp] theorem State.bump_dies (s : State) : (s.bump).dies = s.dies := rfl
@[simp] theorem State.bump_mem (s : State) : (s.bump).mem = s.mem := rfl
@[simp] theorem State.bump_full (s : State) : (s.bump).full = s.full := rfl
@[simp] theorem State.bump_eccOne (s : State) : (s.bump).eccOne = s.eccOne := rfl
@[simp] theorem State.bump_eccBad (s : State) : (s.bump).eccBad = s.eccBad := rfl
@[simp] theorem State.bump_febBad (s : State) : (s.bump).febBad = s.febBad := rfl
@[simp] theorem State.bump_pages (s : State) : (s.bump).pages = s.pages := rfl
@[simp] theorem State.bump_released (s : State) : (s.bump).released = s.released := rfl
@[simp] theorem State.bump_refused (s : State) : (s.bump).refused = s.refused := rfl
@[simp] theorem State.bump_time (s : State) : (s.bump).time = s.time := rfl
@[simp] theorem State.bump_pour (s : State) : (s.bump).pour = s.pour := rfl
@[simp] theorem State.bump_pourPos (s : State) : (s.bump).pourPos = s.pourPos := rfl
@[simp] theorem State.bump_cup (s : State) : (s.bump).cup = s.cup := rfl
@[simp] theorem State.bump_emit (s : State) : (s.bump).emit = s.emit := rfl
@[simp] theorem State.bump_capacity (s : State) : (s.bump).capacity = s.capacity := rfl
@[simp] theorem State.bump_resync (s : State) : (s.bump).resync = s.resync := rfl
@[simp] theorem State.bump_spareWave (s : State) : (s.bump).spareWave = s.spareWave := rfl
@[simp] theorem State.bump_allreds (s : State) : (s.bump).allreds = s.allreds := rfl
@[simp] theorem State.bump_packets (s : State) : (s.bump).packets = s.packets := rfl
@[simp] theorem State.bump_paths (s : State) : (s.bump).paths = s.paths := rfl
@[simp] theorem State.bump_cxlBad (s : State) : (s.bump).cxlBad = s.cxlBad := rfl
@[simp] theorem State.bump_ranks (s : State) : (s.bump).ranks = s.ranks := rfl
@[simp] theorem State.bump_recovery (s : State) : (s.bump).recovery = s.recovery := rfl
@[simp] theorem State.bump_ports (s : State) : (s.bump).ports = s.ports := rfl
@[simp] theorem State.bump_markers (s : State) : (s.bump).markers = s.markers := rfl
@[simp] theorem State.bump_peerInbox (s : State) : (s.bump).peerInbox = s.peerInbox := rfl
@[simp] theorem State.bump_peerFrames (s : State) : (s.bump).peerFrames = s.peerFrames := rfl
@[simp] theorem State.bump_peerBounces (s : State) : (s.bump).peerBounces = s.peerBounces := rfl
@[simp] theorem State.bump_cupTime (s : State) : (s.bump).cupTime = s.cupTime := rfl
@[simp] theorem State.bump_fecCount (s : State) : (s.bump).fecCount = s.fecCount := rfl
@[simp] theorem State.bump_frozen (s : State) : (s.bump).frozen = s.frozen := rfl
@[simp] theorem State.bump_groups (s : State) : (s.bump).groups = s.groups := rfl
@[simp] theorem State.bump_launches (s : State) : (s.bump).launches = s.launches := rfl
@[simp] theorem State.bump_rovers (s : State) : (s.bump).rovers = s.rovers := rfl
@[simp] theorem State.bump_susps (s : State) : (s.bump).susps = s.susps := rfl
@[simp] theorem State.bump_resumes (s : State) : (s.bump).resumes = s.resumes := rfl
@[simp] theorem State.bump_poolUsed (s : State) : (s.bump).poolUsed = s.poolUsed := rfl
@[simp] theorem State.bump_dropped (s : State) : (s.bump).dropped = s.dropped := rfl
@[simp] theorem State.bump_jobs (s : State) : (s.bump).jobs = s.jobs := rfl
@[simp] theorem State.bump_replayLog (s : State) : (s.bump).replayLog = s.replayLog := rfl
@[simp] theorem State.bump_replayIn (s : State) : (s.bump).replayIn = s.replayIn := rfl
@[simp] theorem State.bump_loaded (s : State) : (s.bump).loaded = s.loaded := rfl
@[simp] theorem State.bump_migstat (s : State) : (s.bump).migstat = s.migstat := rfl
@[simp] theorem State.bump_houseX (s : State) : (s.bump).houseX = s.houseX := rfl
@[simp] theorem State.bump_platform (s : State) : (s.bump).platform = s.platform := rfl
@[simp] theorem State.bump_enabled (s : State) : (s.bump).enabled = s.enabled := rfl
@[simp] theorem State.bump_cur (s : State) : (s.bump).cur = s.cur := rfl
@[simp] theorem State.bump_scan (s : State) : (s.bump).scan = s.scan := rfl
@[simp] theorem State.bump_timed (s : State) : (s.bump).timed = s.timed := rfl
@[simp] theorem State.bump_inputs (s : State) : (s.bump).inputs = s.inputs := rfl

/-! ### Updates of a thread -/

@[simp] theorem Thread.setReg_pc (t : Thread) (r : Reg) (v : Word) (b : Bool) : (t.setReg r v b).pc = t.pc := by unfold Thread.setReg; split <;> rfl
@[simp] theorem Thread.setReg_pw (t : Thread) (r : Reg) (v : Word) (b : Bool) : (t.setReg r v b).pw = t.pw := by unfold Thread.setReg; split <;> rfl
@[simp] theorem Thread.setReg_v (t : Thread) (r : Reg) (v : Word) (b : Bool) : (t.setReg r v b).v = t.v := by unfold Thread.setReg; split <;> rfl
@[simp] theorem Thread.setReg_k (t : Thread) (r : Reg) (v : Word) (b : Bool) : (t.setReg r v b).k = t.k := by unfold Thread.setReg; split <;> rfl
@[simp] theorem Thread.setReg_vres (t : Thread) (r : Reg) (v : Word) (b : Bool) : (t.setReg r v b).vres = t.vres := by unfold Thread.setReg; split <;> rfl
@[simp] theorem Thread.setReg_evec (t : Thread) (r : Reg) (v : Word) (b : Bool) : (t.setReg r v b).evec = t.evec := by unfold Thread.setReg; split <;> rfl
@[simp] theorem Thread.setReg_basic (t : Thread) (r : Reg) (v : Word) (b : Bool) : (t.setReg r v b).basic = t.basic := by unfold Thread.setReg; split <;> rfl
@[simp] theorem Thread.setReg_entered (t : Thread) (r : Reg) (v : Word) (b : Bool) : (t.setReg r v b).entered = t.entered := by unfold Thread.setReg; split <;> rfl
@[simp] theorem Thread.setReg_epc (t : Thread) (r : Reg) (v : Word) (b : Bool) : (t.setReg r v b).epc = t.epc := by unfold Thread.setReg; split <;> rfl
@[simp] theorem Thread.setReg_ecause (t : Thread) (r : Reg) (v : Word) (b : Bool) : (t.setReg r v b).ecause = t.ecause := by unfold Thread.setReg; split <;> rfl
@[simp] theorem Thread.setReg_eval (t : Thread) (r : Reg) (v : Word) (b : Bool) : (t.setReg r v b).eval = t.eval := by unfold Thread.setReg; split <;> rfl
@[simp] theorem Thread.setReg_epw (t : Thread) (r : Reg) (v : Word) (b : Bool) : (t.setReg r v b).epw = t.epw := by unfold Thread.setReg; split <;> rfl
@[simp] theorem Thread.setReg_vflags (t : Thread) (r : Reg) (v : Word) (b : Bool) : (t.setReg r v b).vflags = t.vflags := by unfold Thread.setReg; split <;> rfl
@[simp] theorem Thread.setReg_synclim (t : Thread) (r : Reg) (v : Word) (b : Bool) : (t.setReg r v b).synclim = t.synclim := by unfold Thread.setReg; split <;> rfl
@[simp] theorem Thread.setReg_dline (t : Thread) (r : Reg) (v : Word) (b : Bool) : (t.setReg r v b).dline = t.dline := by unfold Thread.setReg; split <;> rfl
@[simp] theorem Thread.setReg_carry (t : Thread) (r : Reg) (v : Word) (b : Bool) : (t.setReg r v b).carry = t.carry := by unfold Thread.setReg; split <;> rfl
@[simp] theorem Thread.setReg_scorechk (t : Thread) (r : Reg) (v : Word) (b : Bool) : (t.setReg r v b).scorechk = t.scorechk := by unfold Thread.setReg; split <;> rfl
@[simp] theorem Thread.setReg_stepctl (t : Thread) (r : Reg) (v : Word) (b : Bool) : (t.setReg r v b).stepctl = t.stepctl := by unfold Thread.setReg; split <;> rfl
@[simp] theorem Thread.setReg_instret (t : Thread) (r : Reg) (v : Word) (b : Bool) : (t.setReg r v b).instret = t.instret := by unfold Thread.setReg; split <;> rfl
@[simp] theorem Thread.setReg_cbase (t : Thread) (r : Reg) (v : Word) (b : Bool) : (t.setReg r v b).cbase = t.cbase := by unfold Thread.setReg; split <;> rfl
@[simp] theorem Thread.setReg_clim (t : Thread) (r : Reg) (v : Word) (b : Bool) : (t.setReg r v b).clim = t.clim := by unfold Thread.setReg; split <;> rfl
@[simp] theorem Thread.setReg_lastTime (t : Thread) (r : Reg) (v : Word) (b : Bool) : (t.setReg r v b).lastTime = t.lastTime := by unfold Thread.setReg; split <;> rfl
@[simp] theorem Thread.setReg_inHandler (t : Thread) (r : Reg) (v : Word) (b : Bool) : (t.setReg r v b).inHandler = t.inHandler := by unfold Thread.setReg; split <;> rfl
@[simp] theorem Thread.setReg_promises (t : Thread) (r : Reg) (v : Word) (b : Bool) : (t.setReg r v b).promises = t.promises := by unfold Thread.setReg; split <;> rfl
@[simp] theorem Thread.setReg_arrRec (t : Thread) (r : Reg) (v : Word) (b : Bool) : (t.setReg r v b).arrRec = t.arrRec := by unfold Thread.setReg; split <;> rfl
@[simp] theorem Thread.setReg_events (t : Thread) (r : Reg) (v : Word) (b : Bool) : (t.setReg r v b).events = t.events := by unfold Thread.setReg; split <;> rfl
@[simp] theorem Thread.setReg_dlPending (t : Thread) (r : Reg) (v : Word) (b : Bool) : (t.setReg r v b).dlPending = t.dlPending := by unfold Thread.setReg; split <;> rfl
@[simp] theorem Thread.setReg_dlTicks (t : Thread) (r : Reg) (v : Word) (b : Bool) : (t.setReg r v b).dlTicks = t.dlTicks := by unfold Thread.setReg; split <;> rfl
@[simp] theorem Thread.setReg_run (t : Thread) (r : Reg) (v : Word) (b : Bool) : (t.setReg r v b).run = t.run := by unfold Thread.setReg; split <;> rfl
@[simp] theorem Thread.setReg_reason (t : Thread) (r : Reg) (v : Word) (b : Bool) : (t.setReg r v b).reason = t.reason := by unfold Thread.setReg; split <;> rfl
@[simp] theorem Thread.setReg_wasDep (t : Thread) (r : Reg) (v : Word) (b : Bool) : (t.setReg r v b).wasDep = t.wasDep := by unfold Thread.setReg; split <;> rfl
@[simp] theorem Thread.setReg_skip (t : Thread) (r : Reg) (v : Word) (b : Bool) : (t.setReg r v b).skip = t.skip := by unfold Thread.setReg; split <;> rfl
@[simp] theorem Thread.setReg_dcode (t : Thread) (r : Reg) (v : Word) (b : Bool) : (t.setReg r v b).dcode = t.dcode := by unfold Thread.setReg; split <;> rfl
@[simp] theorem Thread.setReg_noticed (t : Thread) (r : Reg) (v : Word) (b : Bool) : (t.setReg r v b).noticed = t.noticed := by unfold Thread.setReg; split <;> rfl
@[simp] theorem Thread.setReg_stepped (t : Thread) (r : Reg) (v : Word) (b : Bool) : (t.setReg r v b).stepped = t.stepped := by unfold Thread.setReg; split <;> rfl
@[simp] theorem Thread.setReg_stepAt (t : Thread) (r : Reg) (v : Word) (b : Bool) : (t.setReg r v b).stepAt = t.stepAt := by unfold Thread.setReg; split <;> rfl
@[simp] theorem Thread.setReg_stepSend (t : Thread) (r : Reg) (v : Word) (b : Bool) : (t.setReg r v b).stepSend = t.stepSend := by unfold Thread.setReg; split <;> rfl
@[simp] theorem Thread.setReg_wait (t : Thread) (r : Reg) (v : Word) (b : Bool) : (t.setReg r v b).wait = t.wait := by unfold Thread.setReg; split <;> rfl
@[simp] theorem Thread.setReg_latch (t : Thread) (r : Reg) (v : Word) (b : Bool) : (t.setReg r v b).latch = t.latch := by unfold Thread.setReg; split <;> rfl
@[simp] theorem Thread.setReg_latchCnt (t : Thread) (r : Reg) (v : Word) (b : Bool) : (t.setReg r v b).latchCnt = t.latchCnt := by unfold Thread.setReg; split <;> rfl
@[simp] theorem Thread.setReg_readyAt (t : Thread) (r : Reg) (v : Word) (b : Bool) : (t.setReg r v b).readyAt = t.readyAt := by unfold Thread.setReg; split <;> rfl
@[simp] theorem Thread.setReg_ackAt (t : Thread) (r : Reg) (v : Word) (b : Bool) : (t.setReg r v b).ackAt = t.ackAt := by unfold Thread.setReg; split <;> rfl
@[simp] theorem Thread.setReg_relAcks (t : Thread) (r : Reg) (v : Word) (b : Bool) : (t.setReg r v b).relAcks = t.relAcks := by unfold Thread.setReg; split <;> rfl
@[simp] theorem Thread.setReg_gang (t : Thread) (r : Reg) (v : Word) (b : Bool) : (t.setReg r v b).gang = t.gang := by unfold Thread.setReg; split <;> rfl
@[simp] theorem Thread.setReg_rover (t : Thread) (r : Reg) (v : Word) (b : Bool) : (t.setReg r v b).rover = t.rover := by unfold Thread.setReg; split <;> rfl
@[simp] theorem Thread.setReg_origin (t : Thread) (r : Reg) (v : Word) (b : Bool) : (t.setReg r v b).origin = t.origin := by unfold Thread.setReg; split <;> rfl
@[simp] theorem Thread.setReg_group (t : Thread) (r : Reg) (v : Word) (b : Bool) : (t.setReg r v b).group = t.group := by unfold Thread.setReg; split <;> rfl
@[simp] theorem Thread.setReg_launch (t : Thread) (r : Reg) (v : Word) (b : Bool) : (t.setReg r v b).launch = t.launch := by unfold Thread.setReg; split <;> rfl
@[simp] theorem Thread.setReg_index (t : Thread) (r : Reg) (v : Word) (b : Bool) : (t.setReg r v b).index = t.index := by unfold Thread.setReg; split <;> rfl
@[simp] theorem Thread.setReg_job (t : Thread) (r : Reg) (v : Word) (b : Bool) : (t.setReg r v b).job = t.job := by unfold Thread.setReg; split <;> rfl

@[simp] theorem Thread.setPred_pc (t : Thread) (n : BitVec 6) (b : Bool) : (t.setPred n b).pc = t.pc := rfl
@[simp] theorem Thread.setPred_x (t : Thread) (n : BitVec 6) (b : Bool) : (t.setPred n b).x = t.x := rfl
@[simp] theorem Thread.setPred_taint (t : Thread) (n : BitVec 6) (b : Bool) : (t.setPred n b).taint = t.taint := rfl
@[simp] theorem Thread.setPred_v (t : Thread) (n : BitVec 6) (b : Bool) : (t.setPred n b).v = t.v := rfl
@[simp] theorem Thread.setPred_k (t : Thread) (n : BitVec 6) (b : Bool) : (t.setPred n b).k = t.k := rfl
@[simp] theorem Thread.setPred_vres (t : Thread) (n : BitVec 6) (b : Bool) : (t.setPred n b).vres = t.vres := rfl
@[simp] theorem Thread.setPred_evec (t : Thread) (n : BitVec 6) (b : Bool) : (t.setPred n b).evec = t.evec := rfl
@[simp] theorem Thread.setPred_basic (t : Thread) (n : BitVec 6) (b : Bool) : (t.setPred n b).basic = t.basic := rfl
@[simp] theorem Thread.setPred_entered (t : Thread) (n : BitVec 6) (b : Bool) : (t.setPred n b).entered = t.entered := rfl
@[simp] theorem Thread.setPred_epc (t : Thread) (n : BitVec 6) (b : Bool) : (t.setPred n b).epc = t.epc := rfl
@[simp] theorem Thread.setPred_ecause (t : Thread) (n : BitVec 6) (b : Bool) : (t.setPred n b).ecause = t.ecause := rfl
@[simp] theorem Thread.setPred_eval (t : Thread) (n : BitVec 6) (b : Bool) : (t.setPred n b).eval = t.eval := rfl
@[simp] theorem Thread.setPred_epw (t : Thread) (n : BitVec 6) (b : Bool) : (t.setPred n b).epw = t.epw := rfl
@[simp] theorem Thread.setPred_vflags (t : Thread) (n : BitVec 6) (b : Bool) : (t.setPred n b).vflags = t.vflags := rfl
@[simp] theorem Thread.setPred_synclim (t : Thread) (n : BitVec 6) (b : Bool) : (t.setPred n b).synclim = t.synclim := rfl
@[simp] theorem Thread.setPred_dline (t : Thread) (n : BitVec 6) (b : Bool) : (t.setPred n b).dline = t.dline := rfl
@[simp] theorem Thread.setPred_carry (t : Thread) (n : BitVec 6) (b : Bool) : (t.setPred n b).carry = t.carry := rfl
@[simp] theorem Thread.setPred_scorechk (t : Thread) (n : BitVec 6) (b : Bool) : (t.setPred n b).scorechk = t.scorechk := rfl
@[simp] theorem Thread.setPred_stepctl (t : Thread) (n : BitVec 6) (b : Bool) : (t.setPred n b).stepctl = t.stepctl := rfl
@[simp] theorem Thread.setPred_instret (t : Thread) (n : BitVec 6) (b : Bool) : (t.setPred n b).instret = t.instret := rfl
@[simp] theorem Thread.setPred_cbase (t : Thread) (n : BitVec 6) (b : Bool) : (t.setPred n b).cbase = t.cbase := rfl
@[simp] theorem Thread.setPred_clim (t : Thread) (n : BitVec 6) (b : Bool) : (t.setPred n b).clim = t.clim := rfl
@[simp] theorem Thread.setPred_lastTime (t : Thread) (n : BitVec 6) (b : Bool) : (t.setPred n b).lastTime = t.lastTime := rfl
@[simp] theorem Thread.setPred_inHandler (t : Thread) (n : BitVec 6) (b : Bool) : (t.setPred n b).inHandler = t.inHandler := rfl
@[simp] theorem Thread.setPred_promises (t : Thread) (n : BitVec 6) (b : Bool) : (t.setPred n b).promises = t.promises := rfl
@[simp] theorem Thread.setPred_arrRec (t : Thread) (n : BitVec 6) (b : Bool) : (t.setPred n b).arrRec = t.arrRec := rfl
@[simp] theorem Thread.setPred_events (t : Thread) (n : BitVec 6) (b : Bool) : (t.setPred n b).events = t.events := rfl
@[simp] theorem Thread.setPred_dlPending (t : Thread) (n : BitVec 6) (b : Bool) : (t.setPred n b).dlPending = t.dlPending := rfl
@[simp] theorem Thread.setPred_dlTicks (t : Thread) (n : BitVec 6) (b : Bool) : (t.setPred n b).dlTicks = t.dlTicks := rfl
@[simp] theorem Thread.setPred_run (t : Thread) (n : BitVec 6) (b : Bool) : (t.setPred n b).run = t.run := rfl
@[simp] theorem Thread.setPred_reason (t : Thread) (n : BitVec 6) (b : Bool) : (t.setPred n b).reason = t.reason := rfl
@[simp] theorem Thread.setPred_wasDep (t : Thread) (n : BitVec 6) (b : Bool) : (t.setPred n b).wasDep = t.wasDep := rfl
@[simp] theorem Thread.setPred_skip (t : Thread) (n : BitVec 6) (b : Bool) : (t.setPred n b).skip = t.skip := rfl
@[simp] theorem Thread.setPred_dcode (t : Thread) (n : BitVec 6) (b : Bool) : (t.setPred n b).dcode = t.dcode := rfl
@[simp] theorem Thread.setPred_noticed (t : Thread) (n : BitVec 6) (b : Bool) : (t.setPred n b).noticed = t.noticed := rfl
@[simp] theorem Thread.setPred_stepped (t : Thread) (n : BitVec 6) (b : Bool) : (t.setPred n b).stepped = t.stepped := rfl
@[simp] theorem Thread.setPred_stepAt (t : Thread) (n : BitVec 6) (b : Bool) : (t.setPred n b).stepAt = t.stepAt := rfl
@[simp] theorem Thread.setPred_stepSend (t : Thread) (n : BitVec 6) (b : Bool) : (t.setPred n b).stepSend = t.stepSend := rfl
@[simp] theorem Thread.setPred_wait (t : Thread) (n : BitVec 6) (b : Bool) : (t.setPred n b).wait = t.wait := rfl
@[simp] theorem Thread.setPred_latch (t : Thread) (n : BitVec 6) (b : Bool) : (t.setPred n b).latch = t.latch := rfl
@[simp] theorem Thread.setPred_latchCnt (t : Thread) (n : BitVec 6) (b : Bool) : (t.setPred n b).latchCnt = t.latchCnt := rfl
@[simp] theorem Thread.setPred_readyAt (t : Thread) (n : BitVec 6) (b : Bool) : (t.setPred n b).readyAt = t.readyAt := rfl
@[simp] theorem Thread.setPred_ackAt (t : Thread) (n : BitVec 6) (b : Bool) : (t.setPred n b).ackAt = t.ackAt := rfl
@[simp] theorem Thread.setPred_relAcks (t : Thread) (n : BitVec 6) (b : Bool) : (t.setPred n b).relAcks = t.relAcks := rfl
@[simp] theorem Thread.setPred_gang (t : Thread) (n : BitVec 6) (b : Bool) : (t.setPred n b).gang = t.gang := rfl
@[simp] theorem Thread.setPred_rover (t : Thread) (n : BitVec 6) (b : Bool) : (t.setPred n b).rover = t.rover := rfl
@[simp] theorem Thread.setPred_origin (t : Thread) (n : BitVec 6) (b : Bool) : (t.setPred n b).origin = t.origin := rfl
@[simp] theorem Thread.setPred_group (t : Thread) (n : BitVec 6) (b : Bool) : (t.setPred n b).group = t.group := rfl
@[simp] theorem Thread.setPred_launch (t : Thread) (n : BitVec 6) (b : Bool) : (t.setPred n b).launch = t.launch := rfl
@[simp] theorem Thread.setPred_index (t : Thread) (n : BitVec 6) (b : Bool) : (t.setPred n b).index = t.index := rfl
@[simp] theorem Thread.setPred_job (t : Thread) (n : BitVec 6) (b : Bool) : (t.setPred n b).job = t.job := rfl

@[simp] theorem Thread.orFlags_pc (t : Thread) (f : BitVec 6) : (t.orFlags f).pc = t.pc := rfl
@[simp] theorem Thread.orFlags_x (t : Thread) (f : BitVec 6) : (t.orFlags f).x = t.x := rfl
@[simp] theorem Thread.orFlags_taint (t : Thread) (f : BitVec 6) : (t.orFlags f).taint = t.taint := rfl
@[simp] theorem Thread.orFlags_pw (t : Thread) (f : BitVec 6) : (t.orFlags f).pw = t.pw := rfl
@[simp] theorem Thread.orFlags_v (t : Thread) (f : BitVec 6) : (t.orFlags f).v = t.v := rfl
@[simp] theorem Thread.orFlags_k (t : Thread) (f : BitVec 6) : (t.orFlags f).k = t.k := rfl
@[simp] theorem Thread.orFlags_vres (t : Thread) (f : BitVec 6) : (t.orFlags f).vres = t.vres := rfl
@[simp] theorem Thread.orFlags_evec (t : Thread) (f : BitVec 6) : (t.orFlags f).evec = t.evec := rfl
@[simp] theorem Thread.orFlags_basic (t : Thread) (f : BitVec 6) : (t.orFlags f).basic = t.basic := rfl
@[simp] theorem Thread.orFlags_entered (t : Thread) (f : BitVec 6) : (t.orFlags f).entered = t.entered := rfl
@[simp] theorem Thread.orFlags_epc (t : Thread) (f : BitVec 6) : (t.orFlags f).epc = t.epc := rfl
@[simp] theorem Thread.orFlags_ecause (t : Thread) (f : BitVec 6) : (t.orFlags f).ecause = t.ecause := rfl
@[simp] theorem Thread.orFlags_eval (t : Thread) (f : BitVec 6) : (t.orFlags f).eval = t.eval := rfl
@[simp] theorem Thread.orFlags_epw (t : Thread) (f : BitVec 6) : (t.orFlags f).epw = t.epw := rfl
@[simp] theorem Thread.orFlags_synclim (t : Thread) (f : BitVec 6) : (t.orFlags f).synclim = t.synclim := rfl
@[simp] theorem Thread.orFlags_dline (t : Thread) (f : BitVec 6) : (t.orFlags f).dline = t.dline := rfl
@[simp] theorem Thread.orFlags_carry (t : Thread) (f : BitVec 6) : (t.orFlags f).carry = t.carry := rfl
@[simp] theorem Thread.orFlags_scorechk (t : Thread) (f : BitVec 6) : (t.orFlags f).scorechk = t.scorechk := rfl
@[simp] theorem Thread.orFlags_stepctl (t : Thread) (f : BitVec 6) : (t.orFlags f).stepctl = t.stepctl := rfl
@[simp] theorem Thread.orFlags_instret (t : Thread) (f : BitVec 6) : (t.orFlags f).instret = t.instret := rfl
@[simp] theorem Thread.orFlags_cbase (t : Thread) (f : BitVec 6) : (t.orFlags f).cbase = t.cbase := rfl
@[simp] theorem Thread.orFlags_clim (t : Thread) (f : BitVec 6) : (t.orFlags f).clim = t.clim := rfl
@[simp] theorem Thread.orFlags_lastTime (t : Thread) (f : BitVec 6) : (t.orFlags f).lastTime = t.lastTime := rfl
@[simp] theorem Thread.orFlags_inHandler (t : Thread) (f : BitVec 6) : (t.orFlags f).inHandler = t.inHandler := rfl
@[simp] theorem Thread.orFlags_promises (t : Thread) (f : BitVec 6) : (t.orFlags f).promises = t.promises := rfl
@[simp] theorem Thread.orFlags_arrRec (t : Thread) (f : BitVec 6) : (t.orFlags f).arrRec = t.arrRec := rfl
@[simp] theorem Thread.orFlags_events (t : Thread) (f : BitVec 6) : (t.orFlags f).events = t.events := rfl
@[simp] theorem Thread.orFlags_dlPending (t : Thread) (f : BitVec 6) : (t.orFlags f).dlPending = t.dlPending := rfl
@[simp] theorem Thread.orFlags_dlTicks (t : Thread) (f : BitVec 6) : (t.orFlags f).dlTicks = t.dlTicks := rfl
@[simp] theorem Thread.orFlags_run (t : Thread) (f : BitVec 6) : (t.orFlags f).run = t.run := rfl
@[simp] theorem Thread.orFlags_reason (t : Thread) (f : BitVec 6) : (t.orFlags f).reason = t.reason := rfl
@[simp] theorem Thread.orFlags_wasDep (t : Thread) (f : BitVec 6) : (t.orFlags f).wasDep = t.wasDep := rfl
@[simp] theorem Thread.orFlags_skip (t : Thread) (f : BitVec 6) : (t.orFlags f).skip = t.skip := rfl
@[simp] theorem Thread.orFlags_dcode (t : Thread) (f : BitVec 6) : (t.orFlags f).dcode = t.dcode := rfl
@[simp] theorem Thread.orFlags_noticed (t : Thread) (f : BitVec 6) : (t.orFlags f).noticed = t.noticed := rfl
@[simp] theorem Thread.orFlags_stepped (t : Thread) (f : BitVec 6) : (t.orFlags f).stepped = t.stepped := rfl
@[simp] theorem Thread.orFlags_stepAt (t : Thread) (f : BitVec 6) : (t.orFlags f).stepAt = t.stepAt := rfl
@[simp] theorem Thread.orFlags_stepSend (t : Thread) (f : BitVec 6) : (t.orFlags f).stepSend = t.stepSend := rfl
@[simp] theorem Thread.orFlags_wait (t : Thread) (f : BitVec 6) : (t.orFlags f).wait = t.wait := rfl
@[simp] theorem Thread.orFlags_latch (t : Thread) (f : BitVec 6) : (t.orFlags f).latch = t.latch := rfl
@[simp] theorem Thread.orFlags_latchCnt (t : Thread) (f : BitVec 6) : (t.orFlags f).latchCnt = t.latchCnt := rfl
@[simp] theorem Thread.orFlags_readyAt (t : Thread) (f : BitVec 6) : (t.orFlags f).readyAt = t.readyAt := rfl
@[simp] theorem Thread.orFlags_ackAt (t : Thread) (f : BitVec 6) : (t.orFlags f).ackAt = t.ackAt := rfl
@[simp] theorem Thread.orFlags_relAcks (t : Thread) (f : BitVec 6) : (t.orFlags f).relAcks = t.relAcks := rfl
@[simp] theorem Thread.orFlags_gang (t : Thread) (f : BitVec 6) : (t.orFlags f).gang = t.gang := rfl
@[simp] theorem Thread.orFlags_rover (t : Thread) (f : BitVec 6) : (t.orFlags f).rover = t.rover := rfl
@[simp] theorem Thread.orFlags_origin (t : Thread) (f : BitVec 6) : (t.orFlags f).origin = t.origin := rfl
@[simp] theorem Thread.orFlags_group (t : Thread) (f : BitVec 6) : (t.orFlags f).group = t.group := rfl
@[simp] theorem Thread.orFlags_launch (t : Thread) (f : BitVec 6) : (t.orFlags f).launch = t.launch := rfl
@[simp] theorem Thread.orFlags_index (t : Thread) (f : BitVec 6) : (t.orFlags f).index = t.index := rfl
@[simp] theorem Thread.orFlags_job (t : Thread) (f : BitVec 6) : (t.orFlags f).job = t.job := rfl

@[simp] theorem Thread.putV_pc (t : Thread) (d : BitVec 4) (x : VWord) : (t.putV d x).pc = t.pc := by unfold Thread.putV; split <;> rfl
@[simp] theorem Thread.putV_x (t : Thread) (d : BitVec 4) (x : VWord) : (t.putV d x).x = t.x := by unfold Thread.putV; split <;> rfl
@[simp] theorem Thread.putV_taint (t : Thread) (d : BitVec 4) (x : VWord) : (t.putV d x).taint = t.taint := by unfold Thread.putV; split <;> rfl
@[simp] theorem Thread.putV_pw (t : Thread) (d : BitVec 4) (x : VWord) : (t.putV d x).pw = t.pw := by unfold Thread.putV; split <;> rfl
@[simp] theorem Thread.putV_vres (t : Thread) (d : BitVec 4) (x : VWord) : (t.putV d x).vres = t.vres := by unfold Thread.putV; split <;> rfl
@[simp] theorem Thread.putV_evec (t : Thread) (d : BitVec 4) (x : VWord) : (t.putV d x).evec = t.evec := by unfold Thread.putV; split <;> rfl
@[simp] theorem Thread.putV_basic (t : Thread) (d : BitVec 4) (x : VWord) : (t.putV d x).basic = t.basic := by unfold Thread.putV; split <;> rfl
@[simp] theorem Thread.putV_entered (t : Thread) (d : BitVec 4) (x : VWord) : (t.putV d x).entered = t.entered := by unfold Thread.putV; split <;> rfl
@[simp] theorem Thread.putV_epc (t : Thread) (d : BitVec 4) (x : VWord) : (t.putV d x).epc = t.epc := by unfold Thread.putV; split <;> rfl
@[simp] theorem Thread.putV_ecause (t : Thread) (d : BitVec 4) (x : VWord) : (t.putV d x).ecause = t.ecause := by unfold Thread.putV; split <;> rfl
@[simp] theorem Thread.putV_eval (t : Thread) (d : BitVec 4) (x : VWord) : (t.putV d x).eval = t.eval := by unfold Thread.putV; split <;> rfl
@[simp] theorem Thread.putV_epw (t : Thread) (d : BitVec 4) (x : VWord) : (t.putV d x).epw = t.epw := by unfold Thread.putV; split <;> rfl
@[simp] theorem Thread.putV_vflags (t : Thread) (d : BitVec 4) (x : VWord) : (t.putV d x).vflags = t.vflags := by unfold Thread.putV; split <;> rfl
@[simp] theorem Thread.putV_synclim (t : Thread) (d : BitVec 4) (x : VWord) : (t.putV d x).synclim = t.synclim := by unfold Thread.putV; split <;> rfl
@[simp] theorem Thread.putV_dline (t : Thread) (d : BitVec 4) (x : VWord) : (t.putV d x).dline = t.dline := by unfold Thread.putV; split <;> rfl
@[simp] theorem Thread.putV_carry (t : Thread) (d : BitVec 4) (x : VWord) : (t.putV d x).carry = t.carry := by unfold Thread.putV; split <;> rfl
@[simp] theorem Thread.putV_scorechk (t : Thread) (d : BitVec 4) (x : VWord) : (t.putV d x).scorechk = t.scorechk := by unfold Thread.putV; split <;> rfl
@[simp] theorem Thread.putV_stepctl (t : Thread) (d : BitVec 4) (x : VWord) : (t.putV d x).stepctl = t.stepctl := by unfold Thread.putV; split <;> rfl
@[simp] theorem Thread.putV_instret (t : Thread) (d : BitVec 4) (x : VWord) : (t.putV d x).instret = t.instret := by unfold Thread.putV; split <;> rfl
@[simp] theorem Thread.putV_cbase (t : Thread) (d : BitVec 4) (x : VWord) : (t.putV d x).cbase = t.cbase := by unfold Thread.putV; split <;> rfl
@[simp] theorem Thread.putV_clim (t : Thread) (d : BitVec 4) (x : VWord) : (t.putV d x).clim = t.clim := by unfold Thread.putV; split <;> rfl
@[simp] theorem Thread.putV_lastTime (t : Thread) (d : BitVec 4) (x : VWord) : (t.putV d x).lastTime = t.lastTime := by unfold Thread.putV; split <;> rfl
@[simp] theorem Thread.putV_inHandler (t : Thread) (d : BitVec 4) (x : VWord) : (t.putV d x).inHandler = t.inHandler := by unfold Thread.putV; split <;> rfl
@[simp] theorem Thread.putV_promises (t : Thread) (d : BitVec 4) (x : VWord) : (t.putV d x).promises = t.promises := by unfold Thread.putV; split <;> rfl
@[simp] theorem Thread.putV_arrRec (t : Thread) (d : BitVec 4) (x : VWord) : (t.putV d x).arrRec = t.arrRec := by unfold Thread.putV; split <;> rfl
@[simp] theorem Thread.putV_events (t : Thread) (d : BitVec 4) (x : VWord) : (t.putV d x).events = t.events := by unfold Thread.putV; split <;> rfl
@[simp] theorem Thread.putV_dlPending (t : Thread) (d : BitVec 4) (x : VWord) : (t.putV d x).dlPending = t.dlPending := by unfold Thread.putV; split <;> rfl
@[simp] theorem Thread.putV_dlTicks (t : Thread) (d : BitVec 4) (x : VWord) : (t.putV d x).dlTicks = t.dlTicks := by unfold Thread.putV; split <;> rfl
@[simp] theorem Thread.putV_run (t : Thread) (d : BitVec 4) (x : VWord) : (t.putV d x).run = t.run := by unfold Thread.putV; split <;> rfl
@[simp] theorem Thread.putV_reason (t : Thread) (d : BitVec 4) (x : VWord) : (t.putV d x).reason = t.reason := by unfold Thread.putV; split <;> rfl
@[simp] theorem Thread.putV_wasDep (t : Thread) (d : BitVec 4) (x : VWord) : (t.putV d x).wasDep = t.wasDep := by unfold Thread.putV; split <;> rfl
@[simp] theorem Thread.putV_skip (t : Thread) (d : BitVec 4) (x : VWord) : (t.putV d x).skip = t.skip := by unfold Thread.putV; split <;> rfl
@[simp] theorem Thread.putV_dcode (t : Thread) (d : BitVec 4) (x : VWord) : (t.putV d x).dcode = t.dcode := by unfold Thread.putV; split <;> rfl
@[simp] theorem Thread.putV_noticed (t : Thread) (d : BitVec 4) (x : VWord) : (t.putV d x).noticed = t.noticed := by unfold Thread.putV; split <;> rfl
@[simp] theorem Thread.putV_stepped (t : Thread) (d : BitVec 4) (x : VWord) : (t.putV d x).stepped = t.stepped := by unfold Thread.putV; split <;> rfl
@[simp] theorem Thread.putV_stepAt (t : Thread) (d : BitVec 4) (x : VWord) : (t.putV d x).stepAt = t.stepAt := by unfold Thread.putV; split <;> rfl
@[simp] theorem Thread.putV_stepSend (t : Thread) (d : BitVec 4) (x : VWord) : (t.putV d x).stepSend = t.stepSend := by unfold Thread.putV; split <;> rfl
@[simp] theorem Thread.putV_wait (t : Thread) (d : BitVec 4) (x : VWord) : (t.putV d x).wait = t.wait := by unfold Thread.putV; split <;> rfl
@[simp] theorem Thread.putV_latch (t : Thread) (d : BitVec 4) (x : VWord) : (t.putV d x).latch = t.latch := by unfold Thread.putV; split <;> rfl
@[simp] theorem Thread.putV_latchCnt (t : Thread) (d : BitVec 4) (x : VWord) : (t.putV d x).latchCnt = t.latchCnt := by unfold Thread.putV; split <;> rfl
@[simp] theorem Thread.putV_readyAt (t : Thread) (d : BitVec 4) (x : VWord) : (t.putV d x).readyAt = t.readyAt := by unfold Thread.putV; split <;> rfl
@[simp] theorem Thread.putV_ackAt (t : Thread) (d : BitVec 4) (x : VWord) : (t.putV d x).ackAt = t.ackAt := by unfold Thread.putV; split <;> rfl
@[simp] theorem Thread.putV_relAcks (t : Thread) (d : BitVec 4) (x : VWord) : (t.putV d x).relAcks = t.relAcks := by unfold Thread.putV; split <;> rfl
@[simp] theorem Thread.putV_gang (t : Thread) (d : BitVec 4) (x : VWord) : (t.putV d x).gang = t.gang := by unfold Thread.putV; split <;> rfl
@[simp] theorem Thread.putV_rover (t : Thread) (d : BitVec 4) (x : VWord) : (t.putV d x).rover = t.rover := by unfold Thread.putV; split <;> rfl
@[simp] theorem Thread.putV_origin (t : Thread) (d : BitVec 4) (x : VWord) : (t.putV d x).origin = t.origin := by unfold Thread.putV; split <;> rfl
@[simp] theorem Thread.putV_group (t : Thread) (d : BitVec 4) (x : VWord) : (t.putV d x).group = t.group := by unfold Thread.putV; split <;> rfl
@[simp] theorem Thread.putV_launch (t : Thread) (d : BitVec 4) (x : VWord) : (t.putV d x).launch = t.launch := by unfold Thread.putV; split <;> rfl
@[simp] theorem Thread.putV_index (t : Thread) (d : BitVec 4) (x : VWord) : (t.putV d x).index = t.index := by unfold Thread.putV; split <;> rfl
@[simp] theorem Thread.putV_job (t : Thread) (d : BitVec 4) (x : VWord) : (t.putV d x).job = t.job := by unfold Thread.putV; split <;> rfl

@[simp] theorem Thread.fulfil_pc (t : Thread) (x : Obj) : (t.fulfil x).pc = t.pc := rfl
@[simp] theorem Thread.fulfil_x (t : Thread) (x : Obj) : (t.fulfil x).x = t.x := rfl
@[simp] theorem Thread.fulfil_taint (t : Thread) (x : Obj) : (t.fulfil x).taint = t.taint := rfl
@[simp] theorem Thread.fulfil_pw (t : Thread) (x : Obj) : (t.fulfil x).pw = t.pw := rfl
@[simp] theorem Thread.fulfil_v (t : Thread) (x : Obj) : (t.fulfil x).v = t.v := rfl
@[simp] theorem Thread.fulfil_k (t : Thread) (x : Obj) : (t.fulfil x).k = t.k := rfl
@[simp] theorem Thread.fulfil_vres (t : Thread) (x : Obj) : (t.fulfil x).vres = t.vres := rfl
@[simp] theorem Thread.fulfil_evec (t : Thread) (x : Obj) : (t.fulfil x).evec = t.evec := rfl
@[simp] theorem Thread.fulfil_basic (t : Thread) (x : Obj) : (t.fulfil x).basic = t.basic := rfl
@[simp] theorem Thread.fulfil_entered (t : Thread) (x : Obj) : (t.fulfil x).entered = t.entered := rfl
@[simp] theorem Thread.fulfil_epc (t : Thread) (x : Obj) : (t.fulfil x).epc = t.epc := rfl
@[simp] theorem Thread.fulfil_ecause (t : Thread) (x : Obj) : (t.fulfil x).ecause = t.ecause := rfl
@[simp] theorem Thread.fulfil_eval (t : Thread) (x : Obj) : (t.fulfil x).eval = t.eval := rfl
@[simp] theorem Thread.fulfil_epw (t : Thread) (x : Obj) : (t.fulfil x).epw = t.epw := rfl
@[simp] theorem Thread.fulfil_vflags (t : Thread) (x : Obj) : (t.fulfil x).vflags = t.vflags := rfl
@[simp] theorem Thread.fulfil_synclim (t : Thread) (x : Obj) : (t.fulfil x).synclim = t.synclim := rfl
@[simp] theorem Thread.fulfil_dline (t : Thread) (x : Obj) : (t.fulfil x).dline = t.dline := rfl
@[simp] theorem Thread.fulfil_carry (t : Thread) (x : Obj) : (t.fulfil x).carry = t.carry := rfl
@[simp] theorem Thread.fulfil_scorechk (t : Thread) (x : Obj) : (t.fulfil x).scorechk = t.scorechk := rfl
@[simp] theorem Thread.fulfil_stepctl (t : Thread) (x : Obj) : (t.fulfil x).stepctl = t.stepctl := rfl
@[simp] theorem Thread.fulfil_instret (t : Thread) (x : Obj) : (t.fulfil x).instret = t.instret := rfl
@[simp] theorem Thread.fulfil_cbase (t : Thread) (x : Obj) : (t.fulfil x).cbase = t.cbase := rfl
@[simp] theorem Thread.fulfil_clim (t : Thread) (x : Obj) : (t.fulfil x).clim = t.clim := rfl
@[simp] theorem Thread.fulfil_lastTime (t : Thread) (x : Obj) : (t.fulfil x).lastTime = t.lastTime := rfl
@[simp] theorem Thread.fulfil_inHandler (t : Thread) (x : Obj) : (t.fulfil x).inHandler = t.inHandler := rfl
@[simp] theorem Thread.fulfil_arrRec (t : Thread) (x : Obj) : (t.fulfil x).arrRec = t.arrRec := rfl
@[simp] theorem Thread.fulfil_events (t : Thread) (x : Obj) : (t.fulfil x).events = t.events := rfl
@[simp] theorem Thread.fulfil_dlPending (t : Thread) (x : Obj) : (t.fulfil x).dlPending = t.dlPending := rfl
@[simp] theorem Thread.fulfil_dlTicks (t : Thread) (x : Obj) : (t.fulfil x).dlTicks = t.dlTicks := rfl
@[simp] theorem Thread.fulfil_run (t : Thread) (x : Obj) : (t.fulfil x).run = t.run := rfl
@[simp] theorem Thread.fulfil_reason (t : Thread) (x : Obj) : (t.fulfil x).reason = t.reason := rfl
@[simp] theorem Thread.fulfil_wasDep (t : Thread) (x : Obj) : (t.fulfil x).wasDep = t.wasDep := rfl
@[simp] theorem Thread.fulfil_skip (t : Thread) (x : Obj) : (t.fulfil x).skip = t.skip := rfl
@[simp] theorem Thread.fulfil_dcode (t : Thread) (x : Obj) : (t.fulfil x).dcode = t.dcode := rfl
@[simp] theorem Thread.fulfil_noticed (t : Thread) (x : Obj) : (t.fulfil x).noticed = t.noticed := rfl
@[simp] theorem Thread.fulfil_stepped (t : Thread) (x : Obj) : (t.fulfil x).stepped = t.stepped := rfl
@[simp] theorem Thread.fulfil_stepAt (t : Thread) (x : Obj) : (t.fulfil x).stepAt = t.stepAt := rfl
@[simp] theorem Thread.fulfil_stepSend (t : Thread) (x : Obj) : (t.fulfil x).stepSend = t.stepSend := rfl
@[simp] theorem Thread.fulfil_wait (t : Thread) (x : Obj) : (t.fulfil x).wait = t.wait := rfl
@[simp] theorem Thread.fulfil_latch (t : Thread) (x : Obj) : (t.fulfil x).latch = t.latch := rfl
@[simp] theorem Thread.fulfil_latchCnt (t : Thread) (x : Obj) : (t.fulfil x).latchCnt = t.latchCnt := rfl
@[simp] theorem Thread.fulfil_readyAt (t : Thread) (x : Obj) : (t.fulfil x).readyAt = t.readyAt := rfl
@[simp] theorem Thread.fulfil_ackAt (t : Thread) (x : Obj) : (t.fulfil x).ackAt = t.ackAt := rfl
@[simp] theorem Thread.fulfil_relAcks (t : Thread) (x : Obj) : (t.fulfil x).relAcks = t.relAcks := rfl
@[simp] theorem Thread.fulfil_gang (t : Thread) (x : Obj) : (t.fulfil x).gang = t.gang := rfl
@[simp] theorem Thread.fulfil_rover (t : Thread) (x : Obj) : (t.fulfil x).rover = t.rover := rfl
@[simp] theorem Thread.fulfil_origin (t : Thread) (x : Obj) : (t.fulfil x).origin = t.origin := rfl
@[simp] theorem Thread.fulfil_group (t : Thread) (x : Obj) : (t.fulfil x).group = t.group := rfl
@[simp] theorem Thread.fulfil_launch (t : Thread) (x : Obj) : (t.fulfil x).launch = t.launch := rfl
@[simp] theorem Thread.fulfil_index (t : Thread) (x : Obj) : (t.fulfil x).index = t.index := rfl
@[simp] theorem Thread.fulfil_job (t : Thread) (x : Obj) : (t.fulfil x).job = t.job := rfl

@[simp] theorem Thread.leaveTrap_pc (t : Thread) : (t.leaveTrap).pc = t.pc := rfl
@[simp] theorem Thread.leaveTrap_x (t : Thread) : (t.leaveTrap).x = t.x := rfl
@[simp] theorem Thread.leaveTrap_taint (t : Thread) : (t.leaveTrap).taint = t.taint := rfl
@[simp] theorem Thread.leaveTrap_v (t : Thread) : (t.leaveTrap).v = t.v := rfl
@[simp] theorem Thread.leaveTrap_k (t : Thread) : (t.leaveTrap).k = t.k := rfl
@[simp] theorem Thread.leaveTrap_vres (t : Thread) : (t.leaveTrap).vres = t.vres := rfl
@[simp] theorem Thread.leaveTrap_evec (t : Thread) : (t.leaveTrap).evec = t.evec := rfl
@[simp] theorem Thread.leaveTrap_basic (t : Thread) : (t.leaveTrap).basic = t.basic := rfl
@[simp] theorem Thread.leaveTrap_epc (t : Thread) : (t.leaveTrap).epc = t.epc := rfl
@[simp] theorem Thread.leaveTrap_ecause (t : Thread) : (t.leaveTrap).ecause = t.ecause := rfl
@[simp] theorem Thread.leaveTrap_eval (t : Thread) : (t.leaveTrap).eval = t.eval := rfl
@[simp] theorem Thread.leaveTrap_epw (t : Thread) : (t.leaveTrap).epw = t.epw := rfl
@[simp] theorem Thread.leaveTrap_vflags (t : Thread) : (t.leaveTrap).vflags = t.vflags := rfl
@[simp] theorem Thread.leaveTrap_synclim (t : Thread) : (t.leaveTrap).synclim = t.synclim := rfl
@[simp] theorem Thread.leaveTrap_dline (t : Thread) : (t.leaveTrap).dline = t.dline := rfl
@[simp] theorem Thread.leaveTrap_carry (t : Thread) : (t.leaveTrap).carry = t.carry := rfl
@[simp] theorem Thread.leaveTrap_scorechk (t : Thread) : (t.leaveTrap).scorechk = t.scorechk := rfl
@[simp] theorem Thread.leaveTrap_stepctl (t : Thread) : (t.leaveTrap).stepctl = t.stepctl := rfl
@[simp] theorem Thread.leaveTrap_instret (t : Thread) : (t.leaveTrap).instret = t.instret := rfl
@[simp] theorem Thread.leaveTrap_cbase (t : Thread) : (t.leaveTrap).cbase = t.cbase := rfl
@[simp] theorem Thread.leaveTrap_clim (t : Thread) : (t.leaveTrap).clim = t.clim := rfl
@[simp] theorem Thread.leaveTrap_lastTime (t : Thread) : (t.leaveTrap).lastTime = t.lastTime := rfl
@[simp] theorem Thread.leaveTrap_promises (t : Thread) : (t.leaveTrap).promises = t.promises := rfl
@[simp] theorem Thread.leaveTrap_arrRec (t : Thread) : (t.leaveTrap).arrRec = t.arrRec := rfl
@[simp] theorem Thread.leaveTrap_events (t : Thread) : (t.leaveTrap).events = t.events := rfl
@[simp] theorem Thread.leaveTrap_dlPending (t : Thread) : (t.leaveTrap).dlPending = t.dlPending := rfl
@[simp] theorem Thread.leaveTrap_dlTicks (t : Thread) : (t.leaveTrap).dlTicks = t.dlTicks := rfl
@[simp] theorem Thread.leaveTrap_run (t : Thread) : (t.leaveTrap).run = t.run := rfl
@[simp] theorem Thread.leaveTrap_reason (t : Thread) : (t.leaveTrap).reason = t.reason := rfl
@[simp] theorem Thread.leaveTrap_wasDep (t : Thread) : (t.leaveTrap).wasDep = t.wasDep := rfl
@[simp] theorem Thread.leaveTrap_skip (t : Thread) : (t.leaveTrap).skip = t.skip := rfl
@[simp] theorem Thread.leaveTrap_dcode (t : Thread) : (t.leaveTrap).dcode = t.dcode := rfl
@[simp] theorem Thread.leaveTrap_noticed (t : Thread) : (t.leaveTrap).noticed = t.noticed := rfl
@[simp] theorem Thread.leaveTrap_stepped (t : Thread) : (t.leaveTrap).stepped = t.stepped := rfl
@[simp] theorem Thread.leaveTrap_stepAt (t : Thread) : (t.leaveTrap).stepAt = t.stepAt := rfl
@[simp] theorem Thread.leaveTrap_stepSend (t : Thread) : (t.leaveTrap).stepSend = t.stepSend := rfl
@[simp] theorem Thread.leaveTrap_wait (t : Thread) : (t.leaveTrap).wait = t.wait := rfl
@[simp] theorem Thread.leaveTrap_latch (t : Thread) : (t.leaveTrap).latch = t.latch := rfl
@[simp] theorem Thread.leaveTrap_latchCnt (t : Thread) : (t.leaveTrap).latchCnt = t.latchCnt := rfl
@[simp] theorem Thread.leaveTrap_readyAt (t : Thread) : (t.leaveTrap).readyAt = t.readyAt := rfl
@[simp] theorem Thread.leaveTrap_ackAt (t : Thread) : (t.leaveTrap).ackAt = t.ackAt := rfl
@[simp] theorem Thread.leaveTrap_relAcks (t : Thread) : (t.leaveTrap).relAcks = t.relAcks := rfl
@[simp] theorem Thread.leaveTrap_gang (t : Thread) : (t.leaveTrap).gang = t.gang := rfl
@[simp] theorem Thread.leaveTrap_rover (t : Thread) : (t.leaveTrap).rover = t.rover := rfl
@[simp] theorem Thread.leaveTrap_origin (t : Thread) : (t.leaveTrap).origin = t.origin := rfl
@[simp] theorem Thread.leaveTrap_group (t : Thread) : (t.leaveTrap).group = t.group := rfl
@[simp] theorem Thread.leaveTrap_launch (t : Thread) : (t.leaveTrap).launch = t.launch := rfl
@[simp] theorem Thread.leaveTrap_index (t : Thread) : (t.leaveTrap).index = t.index := rfl
@[simp] theorem Thread.leaveTrap_job (t : Thread) : (t.leaveTrap).job = t.job := rfl

/-! ### Windows of vector results -/

@[simp] theorem Thread.landFrom_pc (now : Nat) (keep l : List VResult) (t : Thread) :
    (Thread.landFrom now keep l t).pc = t.pc := by
  induction l generalizing keep t with
  | nil => rfl
  | cons r l ih => unfold Thread.landFrom; split <;> simp [ih]
@[simp] theorem Thread.landFrom_x (now : Nat) (keep l : List VResult) (t : Thread) :
    (Thread.landFrom now keep l t).x = t.x := by
  induction l generalizing keep t with
  | nil => rfl
  | cons r l ih => unfold Thread.landFrom; split <;> simp [ih]
@[simp] theorem Thread.landFrom_taint (now : Nat) (keep l : List VResult) (t : Thread) :
    (Thread.landFrom now keep l t).taint = t.taint := by
  induction l generalizing keep t with
  | nil => rfl
  | cons r l ih => unfold Thread.landFrom; split <;> simp [ih]
@[simp] theorem Thread.landFrom_pw (now : Nat) (keep l : List VResult) (t : Thread) :
    (Thread.landFrom now keep l t).pw = t.pw := by
  induction l generalizing keep t with
  | nil => rfl
  | cons r l ih => unfold Thread.landFrom; split <;> simp [ih]
@[simp] theorem Thread.landFrom_evec (now : Nat) (keep l : List VResult) (t : Thread) :
    (Thread.landFrom now keep l t).evec = t.evec := by
  induction l generalizing keep t with
  | nil => rfl
  | cons r l ih => unfold Thread.landFrom; split <;> simp [ih]
@[simp] theorem Thread.landFrom_basic (now : Nat) (keep l : List VResult) (t : Thread) :
    (Thread.landFrom now keep l t).basic = t.basic := by
  induction l generalizing keep t with
  | nil => rfl
  | cons r l ih => unfold Thread.landFrom; split <;> simp [ih]
@[simp] theorem Thread.landFrom_entered (now : Nat) (keep l : List VResult) (t : Thread) :
    (Thread.landFrom now keep l t).entered = t.entered := by
  induction l generalizing keep t with
  | nil => rfl
  | cons r l ih => unfold Thread.landFrom; split <;> simp [ih]
@[simp] theorem Thread.landFrom_epc (now : Nat) (keep l : List VResult) (t : Thread) :
    (Thread.landFrom now keep l t).epc = t.epc := by
  induction l generalizing keep t with
  | nil => rfl
  | cons r l ih => unfold Thread.landFrom; split <;> simp [ih]
@[simp] theorem Thread.landFrom_ecause (now : Nat) (keep l : List VResult) (t : Thread) :
    (Thread.landFrom now keep l t).ecause = t.ecause := by
  induction l generalizing keep t with
  | nil => rfl
  | cons r l ih => unfold Thread.landFrom; split <;> simp [ih]
@[simp] theorem Thread.landFrom_eval (now : Nat) (keep l : List VResult) (t : Thread) :
    (Thread.landFrom now keep l t).eval = t.eval := by
  induction l generalizing keep t with
  | nil => rfl
  | cons r l ih => unfold Thread.landFrom; split <;> simp [ih]
@[simp] theorem Thread.landFrom_epw (now : Nat) (keep l : List VResult) (t : Thread) :
    (Thread.landFrom now keep l t).epw = t.epw := by
  induction l generalizing keep t with
  | nil => rfl
  | cons r l ih => unfold Thread.landFrom; split <;> simp [ih]
@[simp] theorem Thread.landFrom_synclim (now : Nat) (keep l : List VResult) (t : Thread) :
    (Thread.landFrom now keep l t).synclim = t.synclim := by
  induction l generalizing keep t with
  | nil => rfl
  | cons r l ih => unfold Thread.landFrom; split <;> simp [ih]
@[simp] theorem Thread.landFrom_dline (now : Nat) (keep l : List VResult) (t : Thread) :
    (Thread.landFrom now keep l t).dline = t.dline := by
  induction l generalizing keep t with
  | nil => rfl
  | cons r l ih => unfold Thread.landFrom; split <;> simp [ih]
@[simp] theorem Thread.landFrom_carry (now : Nat) (keep l : List VResult) (t : Thread) :
    (Thread.landFrom now keep l t).carry = t.carry := by
  induction l generalizing keep t with
  | nil => rfl
  | cons r l ih => unfold Thread.landFrom; split <;> simp [ih]
@[simp] theorem Thread.landFrom_scorechk (now : Nat) (keep l : List VResult) (t : Thread) :
    (Thread.landFrom now keep l t).scorechk = t.scorechk := by
  induction l generalizing keep t with
  | nil => rfl
  | cons r l ih => unfold Thread.landFrom; split <;> simp [ih]
@[simp] theorem Thread.landFrom_stepctl (now : Nat) (keep l : List VResult) (t : Thread) :
    (Thread.landFrom now keep l t).stepctl = t.stepctl := by
  induction l generalizing keep t with
  | nil => rfl
  | cons r l ih => unfold Thread.landFrom; split <;> simp [ih]
@[simp] theorem Thread.landFrom_instret (now : Nat) (keep l : List VResult) (t : Thread) :
    (Thread.landFrom now keep l t).instret = t.instret := by
  induction l generalizing keep t with
  | nil => rfl
  | cons r l ih => unfold Thread.landFrom; split <;> simp [ih]
@[simp] theorem Thread.landFrom_cbase (now : Nat) (keep l : List VResult) (t : Thread) :
    (Thread.landFrom now keep l t).cbase = t.cbase := by
  induction l generalizing keep t with
  | nil => rfl
  | cons r l ih => unfold Thread.landFrom; split <;> simp [ih]
@[simp] theorem Thread.landFrom_clim (now : Nat) (keep l : List VResult) (t : Thread) :
    (Thread.landFrom now keep l t).clim = t.clim := by
  induction l generalizing keep t with
  | nil => rfl
  | cons r l ih => unfold Thread.landFrom; split <;> simp [ih]
@[simp] theorem Thread.landFrom_lastTime (now : Nat) (keep l : List VResult) (t : Thread) :
    (Thread.landFrom now keep l t).lastTime = t.lastTime := by
  induction l generalizing keep t with
  | nil => rfl
  | cons r l ih => unfold Thread.landFrom; split <;> simp [ih]
@[simp] theorem Thread.landFrom_inHandler (now : Nat) (keep l : List VResult) (t : Thread) :
    (Thread.landFrom now keep l t).inHandler = t.inHandler := by
  induction l generalizing keep t with
  | nil => rfl
  | cons r l ih => unfold Thread.landFrom; split <;> simp [ih]
@[simp] theorem Thread.landFrom_promises (now : Nat) (keep l : List VResult) (t : Thread) :
    (Thread.landFrom now keep l t).promises = t.promises := by
  induction l generalizing keep t with
  | nil => rfl
  | cons r l ih => unfold Thread.landFrom; split <;> simp [ih]
@[simp] theorem Thread.landFrom_arrRec (now : Nat) (keep l : List VResult) (t : Thread) :
    (Thread.landFrom now keep l t).arrRec = t.arrRec := by
  induction l generalizing keep t with
  | nil => rfl
  | cons r l ih => unfold Thread.landFrom; split <;> simp [ih]
@[simp] theorem Thread.landFrom_events (now : Nat) (keep l : List VResult) (t : Thread) :
    (Thread.landFrom now keep l t).events = t.events := by
  induction l generalizing keep t with
  | nil => rfl
  | cons r l ih => unfold Thread.landFrom; split <;> simp [ih]
@[simp] theorem Thread.landFrom_dlPending (now : Nat) (keep l : List VResult) (t : Thread) :
    (Thread.landFrom now keep l t).dlPending = t.dlPending := by
  induction l generalizing keep t with
  | nil => rfl
  | cons r l ih => unfold Thread.landFrom; split <;> simp [ih]
@[simp] theorem Thread.landFrom_dlTicks (now : Nat) (keep l : List VResult) (t : Thread) :
    (Thread.landFrom now keep l t).dlTicks = t.dlTicks := by
  induction l generalizing keep t with
  | nil => rfl
  | cons r l ih => unfold Thread.landFrom; split <;> simp [ih]
@[simp] theorem Thread.landFrom_run (now : Nat) (keep l : List VResult) (t : Thread) :
    (Thread.landFrom now keep l t).run = t.run := by
  induction l generalizing keep t with
  | nil => rfl
  | cons r l ih => unfold Thread.landFrom; split <;> simp [ih]
@[simp] theorem Thread.landFrom_reason (now : Nat) (keep l : List VResult) (t : Thread) :
    (Thread.landFrom now keep l t).reason = t.reason := by
  induction l generalizing keep t with
  | nil => rfl
  | cons r l ih => unfold Thread.landFrom; split <;> simp [ih]
@[simp] theorem Thread.landFrom_wasDep (now : Nat) (keep l : List VResult) (t : Thread) :
    (Thread.landFrom now keep l t).wasDep = t.wasDep := by
  induction l generalizing keep t with
  | nil => rfl
  | cons r l ih => unfold Thread.landFrom; split <;> simp [ih]
@[simp] theorem Thread.landFrom_skip (now : Nat) (keep l : List VResult) (t : Thread) :
    (Thread.landFrom now keep l t).skip = t.skip := by
  induction l generalizing keep t with
  | nil => rfl
  | cons r l ih => unfold Thread.landFrom; split <;> simp [ih]
@[simp] theorem Thread.landFrom_dcode (now : Nat) (keep l : List VResult) (t : Thread) :
    (Thread.landFrom now keep l t).dcode = t.dcode := by
  induction l generalizing keep t with
  | nil => rfl
  | cons r l ih => unfold Thread.landFrom; split <;> simp [ih]
@[simp] theorem Thread.landFrom_noticed (now : Nat) (keep l : List VResult) (t : Thread) :
    (Thread.landFrom now keep l t).noticed = t.noticed := by
  induction l generalizing keep t with
  | nil => rfl
  | cons r l ih => unfold Thread.landFrom; split <;> simp [ih]
@[simp] theorem Thread.landFrom_stepped (now : Nat) (keep l : List VResult) (t : Thread) :
    (Thread.landFrom now keep l t).stepped = t.stepped := by
  induction l generalizing keep t with
  | nil => rfl
  | cons r l ih => unfold Thread.landFrom; split <;> simp [ih]
@[simp] theorem Thread.landFrom_stepAt (now : Nat) (keep l : List VResult) (t : Thread) :
    (Thread.landFrom now keep l t).stepAt = t.stepAt := by
  induction l generalizing keep t with
  | nil => rfl
  | cons r l ih => unfold Thread.landFrom; split <;> simp [ih]
@[simp] theorem Thread.landFrom_stepSend (now : Nat) (keep l : List VResult) (t : Thread) :
    (Thread.landFrom now keep l t).stepSend = t.stepSend := by
  induction l generalizing keep t with
  | nil => rfl
  | cons r l ih => unfold Thread.landFrom; split <;> simp [ih]
@[simp] theorem Thread.landFrom_wait (now : Nat) (keep l : List VResult) (t : Thread) :
    (Thread.landFrom now keep l t).wait = t.wait := by
  induction l generalizing keep t with
  | nil => rfl
  | cons r l ih => unfold Thread.landFrom; split <;> simp [ih]
@[simp] theorem Thread.landFrom_latch (now : Nat) (keep l : List VResult) (t : Thread) :
    (Thread.landFrom now keep l t).latch = t.latch := by
  induction l generalizing keep t with
  | nil => rfl
  | cons r l ih => unfold Thread.landFrom; split <;> simp [ih]
@[simp] theorem Thread.landFrom_latchCnt (now : Nat) (keep l : List VResult) (t : Thread) :
    (Thread.landFrom now keep l t).latchCnt = t.latchCnt := by
  induction l generalizing keep t with
  | nil => rfl
  | cons r l ih => unfold Thread.landFrom; split <;> simp [ih]
@[simp] theorem Thread.landFrom_readyAt (now : Nat) (keep l : List VResult) (t : Thread) :
    (Thread.landFrom now keep l t).readyAt = t.readyAt := by
  induction l generalizing keep t with
  | nil => rfl
  | cons r l ih => unfold Thread.landFrom; split <;> simp [ih]
@[simp] theorem Thread.landFrom_ackAt (now : Nat) (keep l : List VResult) (t : Thread) :
    (Thread.landFrom now keep l t).ackAt = t.ackAt := by
  induction l generalizing keep t with
  | nil => rfl
  | cons r l ih => unfold Thread.landFrom; split <;> simp [ih]
@[simp] theorem Thread.landFrom_relAcks (now : Nat) (keep l : List VResult) (t : Thread) :
    (Thread.landFrom now keep l t).relAcks = t.relAcks := by
  induction l generalizing keep t with
  | nil => rfl
  | cons r l ih => unfold Thread.landFrom; split <;> simp [ih]
@[simp] theorem Thread.landFrom_gang (now : Nat) (keep l : List VResult) (t : Thread) :
    (Thread.landFrom now keep l t).gang = t.gang := by
  induction l generalizing keep t with
  | nil => rfl
  | cons r l ih => unfold Thread.landFrom; split <;> simp [ih]
@[simp] theorem Thread.landFrom_rover (now : Nat) (keep l : List VResult) (t : Thread) :
    (Thread.landFrom now keep l t).rover = t.rover := by
  induction l generalizing keep t with
  | nil => rfl
  | cons r l ih => unfold Thread.landFrom; split <;> simp [ih]
@[simp] theorem Thread.landFrom_origin (now : Nat) (keep l : List VResult) (t : Thread) :
    (Thread.landFrom now keep l t).origin = t.origin := by
  induction l generalizing keep t with
  | nil => rfl
  | cons r l ih => unfold Thread.landFrom; split <;> simp [ih]
@[simp] theorem Thread.landFrom_group (now : Nat) (keep l : List VResult) (t : Thread) :
    (Thread.landFrom now keep l t).group = t.group := by
  induction l generalizing keep t with
  | nil => rfl
  | cons r l ih => unfold Thread.landFrom; split <;> simp [ih]
@[simp] theorem Thread.landFrom_launch (now : Nat) (keep l : List VResult) (t : Thread) :
    (Thread.landFrom now keep l t).launch = t.launch := by
  induction l generalizing keep t with
  | nil => rfl
  | cons r l ih => unfold Thread.landFrom; split <;> simp [ih]
@[simp] theorem Thread.landFrom_index (now : Nat) (keep l : List VResult) (t : Thread) :
    (Thread.landFrom now keep l t).index = t.index := by
  induction l generalizing keep t with
  | nil => rfl
  | cons r l ih => unfold Thread.landFrom; split <;> simp [ih]
@[simp] theorem Thread.landFrom_job (now : Nat) (keep l : List VResult) (t : Thread) :
    (Thread.landFrom now keep l t).job = t.job := by
  induction l generalizing keep t with
  | nil => rfl
  | cons r l ih => unfold Thread.landFrom; split <;> simp [ih]

@[simp] theorem Thread.passWindows_pc (t : Thread) (now : Nat) : (t.passWindows now).pc = t.pc := by
  unfold Thread.passWindows; split <;> simp [Thread.land]
@[simp] theorem Thread.passWindows_x (t : Thread) (now : Nat) : (t.passWindows now).x = t.x := by
  unfold Thread.passWindows; split <;> simp [Thread.land]
@[simp] theorem Thread.passWindows_taint (t : Thread) (now : Nat) : (t.passWindows now).taint = t.taint := by
  unfold Thread.passWindows; split <;> simp [Thread.land]
@[simp] theorem Thread.passWindows_pw (t : Thread) (now : Nat) : (t.passWindows now).pw = t.pw := by
  unfold Thread.passWindows; split <;> simp [Thread.land]
@[simp] theorem Thread.passWindows_evec (t : Thread) (now : Nat) : (t.passWindows now).evec = t.evec := by
  unfold Thread.passWindows; split <;> simp [Thread.land]
@[simp] theorem Thread.passWindows_basic (t : Thread) (now : Nat) : (t.passWindows now).basic = t.basic := by
  unfold Thread.passWindows; split <;> simp [Thread.land]
@[simp] theorem Thread.passWindows_entered (t : Thread) (now : Nat) : (t.passWindows now).entered = t.entered := by
  unfold Thread.passWindows; split <;> simp [Thread.land]
@[simp] theorem Thread.passWindows_epc (t : Thread) (now : Nat) : (t.passWindows now).epc = t.epc := by
  unfold Thread.passWindows; split <;> simp [Thread.land]
@[simp] theorem Thread.passWindows_ecause (t : Thread) (now : Nat) : (t.passWindows now).ecause = t.ecause := by
  unfold Thread.passWindows; split <;> simp [Thread.land]
@[simp] theorem Thread.passWindows_eval (t : Thread) (now : Nat) : (t.passWindows now).eval = t.eval := by
  unfold Thread.passWindows; split <;> simp [Thread.land]
@[simp] theorem Thread.passWindows_epw (t : Thread) (now : Nat) : (t.passWindows now).epw = t.epw := by
  unfold Thread.passWindows; split <;> simp [Thread.land]
@[simp] theorem Thread.passWindows_synclim (t : Thread) (now : Nat) : (t.passWindows now).synclim = t.synclim := by
  unfold Thread.passWindows; split <;> simp [Thread.land]
@[simp] theorem Thread.passWindows_dline (t : Thread) (now : Nat) : (t.passWindows now).dline = t.dline := by
  unfold Thread.passWindows; split <;> simp [Thread.land]
@[simp] theorem Thread.passWindows_carry (t : Thread) (now : Nat) : (t.passWindows now).carry = t.carry := by
  unfold Thread.passWindows; split <;> simp [Thread.land]
@[simp] theorem Thread.passWindows_scorechk (t : Thread) (now : Nat) : (t.passWindows now).scorechk = t.scorechk := by
  unfold Thread.passWindows; split <;> simp [Thread.land]
@[simp] theorem Thread.passWindows_stepctl (t : Thread) (now : Nat) : (t.passWindows now).stepctl = t.stepctl := by
  unfold Thread.passWindows; split <;> simp [Thread.land]
@[simp] theorem Thread.passWindows_instret (t : Thread) (now : Nat) : (t.passWindows now).instret = t.instret := by
  unfold Thread.passWindows; split <;> simp [Thread.land]
@[simp] theorem Thread.passWindows_cbase (t : Thread) (now : Nat) : (t.passWindows now).cbase = t.cbase := by
  unfold Thread.passWindows; split <;> simp [Thread.land]
@[simp] theorem Thread.passWindows_clim (t : Thread) (now : Nat) : (t.passWindows now).clim = t.clim := by
  unfold Thread.passWindows; split <;> simp [Thread.land]
@[simp] theorem Thread.passWindows_lastTime (t : Thread) (now : Nat) : (t.passWindows now).lastTime = t.lastTime := by
  unfold Thread.passWindows; split <;> simp [Thread.land]
@[simp] theorem Thread.passWindows_inHandler (t : Thread) (now : Nat) : (t.passWindows now).inHandler = t.inHandler := by
  unfold Thread.passWindows; split <;> simp [Thread.land]
@[simp] theorem Thread.passWindows_promises (t : Thread) (now : Nat) : (t.passWindows now).promises = t.promises := by
  unfold Thread.passWindows; split <;> simp [Thread.land]
@[simp] theorem Thread.passWindows_arrRec (t : Thread) (now : Nat) : (t.passWindows now).arrRec = t.arrRec := by
  unfold Thread.passWindows; split <;> simp [Thread.land]
@[simp] theorem Thread.passWindows_events (t : Thread) (now : Nat) : (t.passWindows now).events = t.events := by
  unfold Thread.passWindows; split <;> simp [Thread.land]
@[simp] theorem Thread.passWindows_dlPending (t : Thread) (now : Nat) : (t.passWindows now).dlPending = t.dlPending := by
  unfold Thread.passWindows; split <;> simp [Thread.land]
@[simp] theorem Thread.passWindows_dlTicks (t : Thread) (now : Nat) : (t.passWindows now).dlTicks = t.dlTicks := by
  unfold Thread.passWindows; split <;> simp [Thread.land]
@[simp] theorem Thread.passWindows_run (t : Thread) (now : Nat) : (t.passWindows now).run = t.run := by
  unfold Thread.passWindows; split <;> simp [Thread.land]
@[simp] theorem Thread.passWindows_reason (t : Thread) (now : Nat) : (t.passWindows now).reason = t.reason := by
  unfold Thread.passWindows; split <;> simp [Thread.land]
@[simp] theorem Thread.passWindows_wasDep (t : Thread) (now : Nat) : (t.passWindows now).wasDep = t.wasDep := by
  unfold Thread.passWindows; split <;> simp [Thread.land]
@[simp] theorem Thread.passWindows_skip (t : Thread) (now : Nat) : (t.passWindows now).skip = t.skip := by
  unfold Thread.passWindows; split <;> simp [Thread.land]
@[simp] theorem Thread.passWindows_dcode (t : Thread) (now : Nat) : (t.passWindows now).dcode = t.dcode := by
  unfold Thread.passWindows; split <;> simp [Thread.land]
@[simp] theorem Thread.passWindows_noticed (t : Thread) (now : Nat) : (t.passWindows now).noticed = t.noticed := by
  unfold Thread.passWindows; split <;> simp [Thread.land]
@[simp] theorem Thread.passWindows_stepped (t : Thread) (now : Nat) : (t.passWindows now).stepped = t.stepped := by
  unfold Thread.passWindows; split <;> simp [Thread.land]
@[simp] theorem Thread.passWindows_stepAt (t : Thread) (now : Nat) : (t.passWindows now).stepAt = t.stepAt := by
  unfold Thread.passWindows; split <;> simp [Thread.land]
@[simp] theorem Thread.passWindows_stepSend (t : Thread) (now : Nat) : (t.passWindows now).stepSend = t.stepSend := by
  unfold Thread.passWindows; split <;> simp [Thread.land]
@[simp] theorem Thread.passWindows_wait (t : Thread) (now : Nat) : (t.passWindows now).wait = t.wait := by
  unfold Thread.passWindows; split <;> simp [Thread.land]
@[simp] theorem Thread.passWindows_latch (t : Thread) (now : Nat) : (t.passWindows now).latch = t.latch := by
  unfold Thread.passWindows; split <;> simp [Thread.land]
@[simp] theorem Thread.passWindows_latchCnt (t : Thread) (now : Nat) : (t.passWindows now).latchCnt = t.latchCnt := by
  unfold Thread.passWindows; split <;> simp [Thread.land]
@[simp] theorem Thread.passWindows_readyAt (t : Thread) (now : Nat) : (t.passWindows now).readyAt = t.readyAt := by
  unfold Thread.passWindows; split <;> simp [Thread.land]
@[simp] theorem Thread.passWindows_ackAt (t : Thread) (now : Nat) : (t.passWindows now).ackAt = t.ackAt := by
  unfold Thread.passWindows; split <;> simp [Thread.land]
@[simp] theorem Thread.passWindows_relAcks (t : Thread) (now : Nat) : (t.passWindows now).relAcks = t.relAcks := by
  unfold Thread.passWindows; split <;> simp [Thread.land]
@[simp] theorem Thread.passWindows_gang (t : Thread) (now : Nat) : (t.passWindows now).gang = t.gang := by
  unfold Thread.passWindows; split <;> simp [Thread.land]
@[simp] theorem Thread.passWindows_rover (t : Thread) (now : Nat) : (t.passWindows now).rover = t.rover := by
  unfold Thread.passWindows; split <;> simp [Thread.land]
@[simp] theorem Thread.passWindows_origin (t : Thread) (now : Nat) : (t.passWindows now).origin = t.origin := by
  unfold Thread.passWindows; split <;> simp [Thread.land]
@[simp] theorem Thread.passWindows_group (t : Thread) (now : Nat) : (t.passWindows now).group = t.group := by
  unfold Thread.passWindows; split <;> simp [Thread.land]
@[simp] theorem Thread.passWindows_launch (t : Thread) (now : Nat) : (t.passWindows now).launch = t.launch := by
  unfold Thread.passWindows; split <;> simp [Thread.land]
@[simp] theorem Thread.passWindows_index (t : Thread) (now : Nat) : (t.passWindows now).index = t.index := by
  unfold Thread.passWindows; split <;> simp [Thread.land]
@[simp] theorem Thread.passWindows_job (t : Thread) (now : Nat) : (t.passWindows now).job = t.job := by
  unfold Thread.passWindows; split <;> simp [Thread.land]

@[simp] theorem Thread.foldResults_pc (l : List VResult) (t : Thread) :
    (l.foldl (fun (u : Thread) r => (u.putV r.dest r.value).orFlags r.flags) t).pc = t.pc := by
  induction l generalizing t with
  | nil => rfl
  | cons r l ih => simp [ih]
@[simp] theorem Thread.foldResults_x (l : List VResult) (t : Thread) :
    (l.foldl (fun (u : Thread) r => (u.putV r.dest r.value).orFlags r.flags) t).x = t.x := by
  induction l generalizing t with
  | nil => rfl
  | cons r l ih => simp [ih]
@[simp] theorem Thread.foldResults_taint (l : List VResult) (t : Thread) :
    (l.foldl (fun (u : Thread) r => (u.putV r.dest r.value).orFlags r.flags) t).taint = t.taint := by
  induction l generalizing t with
  | nil => rfl
  | cons r l ih => simp [ih]
@[simp] theorem Thread.foldResults_pw (l : List VResult) (t : Thread) :
    (l.foldl (fun (u : Thread) r => (u.putV r.dest r.value).orFlags r.flags) t).pw = t.pw := by
  induction l generalizing t with
  | nil => rfl
  | cons r l ih => simp [ih]
@[simp] theorem Thread.foldResults_evec (l : List VResult) (t : Thread) :
    (l.foldl (fun (u : Thread) r => (u.putV r.dest r.value).orFlags r.flags) t).evec = t.evec := by
  induction l generalizing t with
  | nil => rfl
  | cons r l ih => simp [ih]
@[simp] theorem Thread.foldResults_basic (l : List VResult) (t : Thread) :
    (l.foldl (fun (u : Thread) r => (u.putV r.dest r.value).orFlags r.flags) t).basic = t.basic := by
  induction l generalizing t with
  | nil => rfl
  | cons r l ih => simp [ih]
@[simp] theorem Thread.foldResults_entered (l : List VResult) (t : Thread) :
    (l.foldl (fun (u : Thread) r => (u.putV r.dest r.value).orFlags r.flags) t).entered = t.entered := by
  induction l generalizing t with
  | nil => rfl
  | cons r l ih => simp [ih]
@[simp] theorem Thread.foldResults_epc (l : List VResult) (t : Thread) :
    (l.foldl (fun (u : Thread) r => (u.putV r.dest r.value).orFlags r.flags) t).epc = t.epc := by
  induction l generalizing t with
  | nil => rfl
  | cons r l ih => simp [ih]
@[simp] theorem Thread.foldResults_ecause (l : List VResult) (t : Thread) :
    (l.foldl (fun (u : Thread) r => (u.putV r.dest r.value).orFlags r.flags) t).ecause = t.ecause := by
  induction l generalizing t with
  | nil => rfl
  | cons r l ih => simp [ih]
@[simp] theorem Thread.foldResults_eval (l : List VResult) (t : Thread) :
    (l.foldl (fun (u : Thread) r => (u.putV r.dest r.value).orFlags r.flags) t).eval = t.eval := by
  induction l generalizing t with
  | nil => rfl
  | cons r l ih => simp [ih]
@[simp] theorem Thread.foldResults_epw (l : List VResult) (t : Thread) :
    (l.foldl (fun (u : Thread) r => (u.putV r.dest r.value).orFlags r.flags) t).epw = t.epw := by
  induction l generalizing t with
  | nil => rfl
  | cons r l ih => simp [ih]
@[simp] theorem Thread.foldResults_synclim (l : List VResult) (t : Thread) :
    (l.foldl (fun (u : Thread) r => (u.putV r.dest r.value).orFlags r.flags) t).synclim = t.synclim := by
  induction l generalizing t with
  | nil => rfl
  | cons r l ih => simp [ih]
@[simp] theorem Thread.foldResults_dline (l : List VResult) (t : Thread) :
    (l.foldl (fun (u : Thread) r => (u.putV r.dest r.value).orFlags r.flags) t).dline = t.dline := by
  induction l generalizing t with
  | nil => rfl
  | cons r l ih => simp [ih]
@[simp] theorem Thread.foldResults_carry (l : List VResult) (t : Thread) :
    (l.foldl (fun (u : Thread) r => (u.putV r.dest r.value).orFlags r.flags) t).carry = t.carry := by
  induction l generalizing t with
  | nil => rfl
  | cons r l ih => simp [ih]
@[simp] theorem Thread.foldResults_scorechk (l : List VResult) (t : Thread) :
    (l.foldl (fun (u : Thread) r => (u.putV r.dest r.value).orFlags r.flags) t).scorechk = t.scorechk := by
  induction l generalizing t with
  | nil => rfl
  | cons r l ih => simp [ih]
@[simp] theorem Thread.foldResults_stepctl (l : List VResult) (t : Thread) :
    (l.foldl (fun (u : Thread) r => (u.putV r.dest r.value).orFlags r.flags) t).stepctl = t.stepctl := by
  induction l generalizing t with
  | nil => rfl
  | cons r l ih => simp [ih]
@[simp] theorem Thread.foldResults_instret (l : List VResult) (t : Thread) :
    (l.foldl (fun (u : Thread) r => (u.putV r.dest r.value).orFlags r.flags) t).instret = t.instret := by
  induction l generalizing t with
  | nil => rfl
  | cons r l ih => simp [ih]
@[simp] theorem Thread.foldResults_cbase (l : List VResult) (t : Thread) :
    (l.foldl (fun (u : Thread) r => (u.putV r.dest r.value).orFlags r.flags) t).cbase = t.cbase := by
  induction l generalizing t with
  | nil => rfl
  | cons r l ih => simp [ih]
@[simp] theorem Thread.foldResults_clim (l : List VResult) (t : Thread) :
    (l.foldl (fun (u : Thread) r => (u.putV r.dest r.value).orFlags r.flags) t).clim = t.clim := by
  induction l generalizing t with
  | nil => rfl
  | cons r l ih => simp [ih]
@[simp] theorem Thread.foldResults_lastTime (l : List VResult) (t : Thread) :
    (l.foldl (fun (u : Thread) r => (u.putV r.dest r.value).orFlags r.flags) t).lastTime = t.lastTime := by
  induction l generalizing t with
  | nil => rfl
  | cons r l ih => simp [ih]
@[simp] theorem Thread.foldResults_inHandler (l : List VResult) (t : Thread) :
    (l.foldl (fun (u : Thread) r => (u.putV r.dest r.value).orFlags r.flags) t).inHandler = t.inHandler := by
  induction l generalizing t with
  | nil => rfl
  | cons r l ih => simp [ih]
@[simp] theorem Thread.foldResults_promises (l : List VResult) (t : Thread) :
    (l.foldl (fun (u : Thread) r => (u.putV r.dest r.value).orFlags r.flags) t).promises = t.promises := by
  induction l generalizing t with
  | nil => rfl
  | cons r l ih => simp [ih]
@[simp] theorem Thread.foldResults_arrRec (l : List VResult) (t : Thread) :
    (l.foldl (fun (u : Thread) r => (u.putV r.dest r.value).orFlags r.flags) t).arrRec = t.arrRec := by
  induction l generalizing t with
  | nil => rfl
  | cons r l ih => simp [ih]
@[simp] theorem Thread.foldResults_events (l : List VResult) (t : Thread) :
    (l.foldl (fun (u : Thread) r => (u.putV r.dest r.value).orFlags r.flags) t).events = t.events := by
  induction l generalizing t with
  | nil => rfl
  | cons r l ih => simp [ih]
@[simp] theorem Thread.foldResults_dlPending (l : List VResult) (t : Thread) :
    (l.foldl (fun (u : Thread) r => (u.putV r.dest r.value).orFlags r.flags) t).dlPending = t.dlPending := by
  induction l generalizing t with
  | nil => rfl
  | cons r l ih => simp [ih]
@[simp] theorem Thread.foldResults_dlTicks (l : List VResult) (t : Thread) :
    (l.foldl (fun (u : Thread) r => (u.putV r.dest r.value).orFlags r.flags) t).dlTicks = t.dlTicks := by
  induction l generalizing t with
  | nil => rfl
  | cons r l ih => simp [ih]
@[simp] theorem Thread.foldResults_run (l : List VResult) (t : Thread) :
    (l.foldl (fun (u : Thread) r => (u.putV r.dest r.value).orFlags r.flags) t).run = t.run := by
  induction l generalizing t with
  | nil => rfl
  | cons r l ih => simp [ih]
@[simp] theorem Thread.foldResults_reason (l : List VResult) (t : Thread) :
    (l.foldl (fun (u : Thread) r => (u.putV r.dest r.value).orFlags r.flags) t).reason = t.reason := by
  induction l generalizing t with
  | nil => rfl
  | cons r l ih => simp [ih]
@[simp] theorem Thread.foldResults_wasDep (l : List VResult) (t : Thread) :
    (l.foldl (fun (u : Thread) r => (u.putV r.dest r.value).orFlags r.flags) t).wasDep = t.wasDep := by
  induction l generalizing t with
  | nil => rfl
  | cons r l ih => simp [ih]
@[simp] theorem Thread.foldResults_skip (l : List VResult) (t : Thread) :
    (l.foldl (fun (u : Thread) r => (u.putV r.dest r.value).orFlags r.flags) t).skip = t.skip := by
  induction l generalizing t with
  | nil => rfl
  | cons r l ih => simp [ih]
@[simp] theorem Thread.foldResults_dcode (l : List VResult) (t : Thread) :
    (l.foldl (fun (u : Thread) r => (u.putV r.dest r.value).orFlags r.flags) t).dcode = t.dcode := by
  induction l generalizing t with
  | nil => rfl
  | cons r l ih => simp [ih]
@[simp] theorem Thread.foldResults_noticed (l : List VResult) (t : Thread) :
    (l.foldl (fun (u : Thread) r => (u.putV r.dest r.value).orFlags r.flags) t).noticed = t.noticed := by
  induction l generalizing t with
  | nil => rfl
  | cons r l ih => simp [ih]
@[simp] theorem Thread.foldResults_stepped (l : List VResult) (t : Thread) :
    (l.foldl (fun (u : Thread) r => (u.putV r.dest r.value).orFlags r.flags) t).stepped = t.stepped := by
  induction l generalizing t with
  | nil => rfl
  | cons r l ih => simp [ih]
@[simp] theorem Thread.foldResults_stepAt (l : List VResult) (t : Thread) :
    (l.foldl (fun (u : Thread) r => (u.putV r.dest r.value).orFlags r.flags) t).stepAt = t.stepAt := by
  induction l generalizing t with
  | nil => rfl
  | cons r l ih => simp [ih]
@[simp] theorem Thread.foldResults_stepSend (l : List VResult) (t : Thread) :
    (l.foldl (fun (u : Thread) r => (u.putV r.dest r.value).orFlags r.flags) t).stepSend = t.stepSend := by
  induction l generalizing t with
  | nil => rfl
  | cons r l ih => simp [ih]
@[simp] theorem Thread.foldResults_wait (l : List VResult) (t : Thread) :
    (l.foldl (fun (u : Thread) r => (u.putV r.dest r.value).orFlags r.flags) t).wait = t.wait := by
  induction l generalizing t with
  | nil => rfl
  | cons r l ih => simp [ih]
@[simp] theorem Thread.foldResults_latch (l : List VResult) (t : Thread) :
    (l.foldl (fun (u : Thread) r => (u.putV r.dest r.value).orFlags r.flags) t).latch = t.latch := by
  induction l generalizing t with
  | nil => rfl
  | cons r l ih => simp [ih]
@[simp] theorem Thread.foldResults_latchCnt (l : List VResult) (t : Thread) :
    (l.foldl (fun (u : Thread) r => (u.putV r.dest r.value).orFlags r.flags) t).latchCnt = t.latchCnt := by
  induction l generalizing t with
  | nil => rfl
  | cons r l ih => simp [ih]
@[simp] theorem Thread.foldResults_readyAt (l : List VResult) (t : Thread) :
    (l.foldl (fun (u : Thread) r => (u.putV r.dest r.value).orFlags r.flags) t).readyAt = t.readyAt := by
  induction l generalizing t with
  | nil => rfl
  | cons r l ih => simp [ih]
@[simp] theorem Thread.foldResults_ackAt (l : List VResult) (t : Thread) :
    (l.foldl (fun (u : Thread) r => (u.putV r.dest r.value).orFlags r.flags) t).ackAt = t.ackAt := by
  induction l generalizing t with
  | nil => rfl
  | cons r l ih => simp [ih]
@[simp] theorem Thread.foldResults_relAcks (l : List VResult) (t : Thread) :
    (l.foldl (fun (u : Thread) r => (u.putV r.dest r.value).orFlags r.flags) t).relAcks = t.relAcks := by
  induction l generalizing t with
  | nil => rfl
  | cons r l ih => simp [ih]
@[simp] theorem Thread.foldResults_gang (l : List VResult) (t : Thread) :
    (l.foldl (fun (u : Thread) r => (u.putV r.dest r.value).orFlags r.flags) t).gang = t.gang := by
  induction l generalizing t with
  | nil => rfl
  | cons r l ih => simp [ih]
@[simp] theorem Thread.foldResults_rover (l : List VResult) (t : Thread) :
    (l.foldl (fun (u : Thread) r => (u.putV r.dest r.value).orFlags r.flags) t).rover = t.rover := by
  induction l generalizing t with
  | nil => rfl
  | cons r l ih => simp [ih]
@[simp] theorem Thread.foldResults_origin (l : List VResult) (t : Thread) :
    (l.foldl (fun (u : Thread) r => (u.putV r.dest r.value).orFlags r.flags) t).origin = t.origin := by
  induction l generalizing t with
  | nil => rfl
  | cons r l ih => simp [ih]
@[simp] theorem Thread.foldResults_group (l : List VResult) (t : Thread) :
    (l.foldl (fun (u : Thread) r => (u.putV r.dest r.value).orFlags r.flags) t).group = t.group := by
  induction l generalizing t with
  | nil => rfl
  | cons r l ih => simp [ih]
@[simp] theorem Thread.foldResults_launch (l : List VResult) (t : Thread) :
    (l.foldl (fun (u : Thread) r => (u.putV r.dest r.value).orFlags r.flags) t).launch = t.launch := by
  induction l generalizing t with
  | nil => rfl
  | cons r l ih => simp [ih]
@[simp] theorem Thread.foldResults_index (l : List VResult) (t : Thread) :
    (l.foldl (fun (u : Thread) r => (u.putV r.dest r.value).orFlags r.flags) t).index = t.index := by
  induction l generalizing t with
  | nil => rfl
  | cons r l ih => simp [ih]
@[simp] theorem Thread.foldResults_job (l : List VResult) (t : Thread) :
    (l.foldl (fun (u : Thread) r => (u.putV r.dest r.value).orFlags r.flags) t).job = t.job := by
  induction l generalizing t with
  | nil => rfl
  | cons r l ih => simp [ih]

@[simp] theorem Thread.drainWindows_pc (t : Thread) : t.drainWindows.pc = t.pc := by
  simp [Thread.drainWindows]
@[simp] theorem Thread.drainWindows_x (t : Thread) : t.drainWindows.x = t.x := by
  simp [Thread.drainWindows]
@[simp] theorem Thread.drainWindows_taint (t : Thread) : t.drainWindows.taint = t.taint := by
  simp [Thread.drainWindows]
@[simp] theorem Thread.drainWindows_pw (t : Thread) : t.drainWindows.pw = t.pw := by
  simp [Thread.drainWindows]
@[simp] theorem Thread.drainWindows_evec (t : Thread) : t.drainWindows.evec = t.evec := by
  simp [Thread.drainWindows]
@[simp] theorem Thread.drainWindows_basic (t : Thread) : t.drainWindows.basic = t.basic := by
  simp [Thread.drainWindows]
@[simp] theorem Thread.drainWindows_entered (t : Thread) : t.drainWindows.entered = t.entered := by
  simp [Thread.drainWindows]
@[simp] theorem Thread.drainWindows_epc (t : Thread) : t.drainWindows.epc = t.epc := by
  simp [Thread.drainWindows]
@[simp] theorem Thread.drainWindows_ecause (t : Thread) : t.drainWindows.ecause = t.ecause := by
  simp [Thread.drainWindows]
@[simp] theorem Thread.drainWindows_eval (t : Thread) : t.drainWindows.eval = t.eval := by
  simp [Thread.drainWindows]
@[simp] theorem Thread.drainWindows_epw (t : Thread) : t.drainWindows.epw = t.epw := by
  simp [Thread.drainWindows]
@[simp] theorem Thread.drainWindows_synclim (t : Thread) : t.drainWindows.synclim = t.synclim := by
  simp [Thread.drainWindows]
@[simp] theorem Thread.drainWindows_dline (t : Thread) : t.drainWindows.dline = t.dline := by
  simp [Thread.drainWindows]
@[simp] theorem Thread.drainWindows_carry (t : Thread) : t.drainWindows.carry = t.carry := by
  simp [Thread.drainWindows]
@[simp] theorem Thread.drainWindows_scorechk (t : Thread) : t.drainWindows.scorechk = t.scorechk := by
  simp [Thread.drainWindows]
@[simp] theorem Thread.drainWindows_stepctl (t : Thread) : t.drainWindows.stepctl = t.stepctl := by
  simp [Thread.drainWindows]
@[simp] theorem Thread.drainWindows_instret (t : Thread) : t.drainWindows.instret = t.instret := by
  simp [Thread.drainWindows]
@[simp] theorem Thread.drainWindows_cbase (t : Thread) : t.drainWindows.cbase = t.cbase := by
  simp [Thread.drainWindows]
@[simp] theorem Thread.drainWindows_clim (t : Thread) : t.drainWindows.clim = t.clim := by
  simp [Thread.drainWindows]
@[simp] theorem Thread.drainWindows_lastTime (t : Thread) : t.drainWindows.lastTime = t.lastTime := by
  simp [Thread.drainWindows]
@[simp] theorem Thread.drainWindows_inHandler (t : Thread) : t.drainWindows.inHandler = t.inHandler := by
  simp [Thread.drainWindows]
@[simp] theorem Thread.drainWindows_promises (t : Thread) : t.drainWindows.promises = t.promises := by
  simp [Thread.drainWindows]
@[simp] theorem Thread.drainWindows_arrRec (t : Thread) : t.drainWindows.arrRec = t.arrRec := by
  simp [Thread.drainWindows]
@[simp] theorem Thread.drainWindows_events (t : Thread) : t.drainWindows.events = t.events := by
  simp [Thread.drainWindows]
@[simp] theorem Thread.drainWindows_dlPending (t : Thread) : t.drainWindows.dlPending = t.dlPending := by
  simp [Thread.drainWindows]
@[simp] theorem Thread.drainWindows_dlTicks (t : Thread) : t.drainWindows.dlTicks = t.dlTicks := by
  simp [Thread.drainWindows]
@[simp] theorem Thread.drainWindows_run (t : Thread) : t.drainWindows.run = t.run := by
  simp [Thread.drainWindows]
@[simp] theorem Thread.drainWindows_reason (t : Thread) : t.drainWindows.reason = t.reason := by
  simp [Thread.drainWindows]
@[simp] theorem Thread.drainWindows_wasDep (t : Thread) : t.drainWindows.wasDep = t.wasDep := by
  simp [Thread.drainWindows]
@[simp] theorem Thread.drainWindows_skip (t : Thread) : t.drainWindows.skip = t.skip := by
  simp [Thread.drainWindows]
@[simp] theorem Thread.drainWindows_dcode (t : Thread) : t.drainWindows.dcode = t.dcode := by
  simp [Thread.drainWindows]
@[simp] theorem Thread.drainWindows_noticed (t : Thread) : t.drainWindows.noticed = t.noticed := by
  simp [Thread.drainWindows]
@[simp] theorem Thread.drainWindows_stepped (t : Thread) : t.drainWindows.stepped = t.stepped := by
  simp [Thread.drainWindows]
@[simp] theorem Thread.drainWindows_stepAt (t : Thread) : t.drainWindows.stepAt = t.stepAt := by
  simp [Thread.drainWindows]
@[simp] theorem Thread.drainWindows_stepSend (t : Thread) : t.drainWindows.stepSend = t.stepSend := by
  simp [Thread.drainWindows]
@[simp] theorem Thread.drainWindows_wait (t : Thread) : t.drainWindows.wait = t.wait := by
  simp [Thread.drainWindows]
@[simp] theorem Thread.drainWindows_latch (t : Thread) : t.drainWindows.latch = t.latch := by
  simp [Thread.drainWindows]
@[simp] theorem Thread.drainWindows_latchCnt (t : Thread) : t.drainWindows.latchCnt = t.latchCnt := by
  simp [Thread.drainWindows]
@[simp] theorem Thread.drainWindows_readyAt (t : Thread) : t.drainWindows.readyAt = t.readyAt := by
  simp [Thread.drainWindows]
@[simp] theorem Thread.drainWindows_ackAt (t : Thread) : t.drainWindows.ackAt = t.ackAt := by
  simp [Thread.drainWindows]
@[simp] theorem Thread.drainWindows_relAcks (t : Thread) : t.drainWindows.relAcks = t.relAcks := by
  simp [Thread.drainWindows]
@[simp] theorem Thread.drainWindows_gang (t : Thread) : t.drainWindows.gang = t.gang := by
  simp [Thread.drainWindows]
@[simp] theorem Thread.drainWindows_rover (t : Thread) : t.drainWindows.rover = t.rover := by
  simp [Thread.drainWindows]
@[simp] theorem Thread.drainWindows_origin (t : Thread) : t.drainWindows.origin = t.origin := by
  simp [Thread.drainWindows]
@[simp] theorem Thread.drainWindows_group (t : Thread) : t.drainWindows.group = t.group := by
  simp [Thread.drainWindows]
@[simp] theorem Thread.drainWindows_launch (t : Thread) : t.drainWindows.launch = t.launch := by
  simp [Thread.drainWindows]
@[simp] theorem Thread.drainWindows_index (t : Thread) : t.drainWindows.index = t.index := by
  simp [Thread.drainWindows]
@[simp] theorem Thread.drainWindows_job (t : Thread) : t.drainWindows.job = t.job := by
  simp [Thread.drainWindows]

end Sys2Proof.Machine
end

