-- ==== Sys2Proof/Laws/Ops.lean ====
section
/-! SUPPORT. What each shared operation can do, said once: reading after a write of the state's parts, retirement,
halts, traps and waits. -/

set_option Elab.async false

namespace Sys2Proof.Machine

/-! ### Parts of the state -/

@[simp] theorem thread_setThread_same (s : State) (k : Nat) (t : Thread) : (s.setThread k t).thread? k = some t :=
  assocGet_set_same k t s.threads

theorem thread_setThread_other (s : State) {k n : Nat} (h : n ≠ k) (t : Thread) :
    (s.setThread k t).thread? n = s.thread? n :=
  assocGet_set_other h t s.threads

@[simp] theorem core_setCore_same (s : State) (c : Nat) (k : Core) : (s.setCore c k).core c = k := by
  simp [State.setCore, State.core]

theorem core_setCore_other (s : State) {c n : Nat} (h : n ≠ c) (k : Core) : (s.setCore c k).core n = s.core n := by
  unfold State.core
  rw [show (s.setCore c k).cores = assocSet c k s.cores from rfl, assocGet_set_other h]
  rfl

@[simp] theorem core_modCore_same (s : State) (c : Nat) (f : Core → Core) : (s.modCore c f).core c = f (s.core c) := by
  simp [State.modCore]

@[simp] theorem cluster_setCluster_same (s : State) (n : Nat) (k : Cluster) : (s.setCluster n k).cluster n = k := by
  simp [State.setCluster, State.cluster]

theorem cluster_setCluster_other (s : State) {n m : Nat} (h : m ≠ n) (k : Cluster) :
    (s.setCluster n k).cluster m = s.cluster m := by
  simp [State.setCluster, State.cluster, assocGet_set_other h]

@[simp] theorem pourObj_setPour_same (s : State) (i : Nat) (x : PourObj) : (s.setPour i x).pourObj i = x := by
  simp [State.setPour, State.pourObj]

/-- A core of the state in which a thread was replaced. -/
@[simp] theorem core_setThread (s : State) (k : Nat) (t : Thread) (c : Nat) : (s.setThread k t).core c = s.core c := rfl

@[simp] theorem thread_setCore (s : State) (c : Nat) (k : Core) (n : Nat) : (s.setCore c k).thread? n = s.thread? n := rfl

@[simp] theorem thread_modCore (s : State) (c : Nat) (f : Core → Core) (n : Nat) :
    (s.modCore c f).thread? n = s.thread? n := rfl

@[simp] theorem thread_setCluster (s : State) (c : Nat) (k : Cluster) (n : Nat) :
    (s.setCluster c k).thread? n = s.thread? n := rfl

@[simp] theorem thread_setStream (s : State) (i : Nat) (x : Stream) (n : Nat) :
    (s.setStream i x).thread? n = s.thread? n := rfl

@[simp] theorem cluster_setThread (s : State) (k : Nat) (t : Thread) (n : Nat) :
    (s.setThread k t).cluster n = s.cluster n := rfl

@[simp] theorem thread_schedule (s : State) (n : Nat) (d : Due) (k : Nat) : (s.schedule n d).thread? k = s.thread? k := rfl

@[simp] theorem core_schedule (s : State) (n : Nat) (d : Due) (k : Nat) : (s.schedule n d).core k = s.core k := rfl

theorem assocGet_map {α : Type} (f : Nat → α → α) (k : Nat) (l : List (Nat × α)) :
    assocGet k (l.map fun x => (x.1, f x.1 x.2)) = (assocGet k l).map (f k) := by
  induction l with
  | nil => rfl
  | cons x l ih =>
    obtain ⟨j, b⟩ := x
    simp only [List.map_cons, assocGet]
    split
    · next e => subst e; rfl
    · exact ih

@[simp] theorem thread_mapThreads (s : State) (f : Nat → Thread → Thread) (k : Nat) :
    (s.mapThreads f).thread? k = (s.thread? k).map (f k) := assocGet_map f k s.threads

/-- A changed stream changes nothing else of a cluster. -/
theorem cluster_setStream (s : State) (id : Nat) (x : Stream) (n : Nat) :
    (s.setStream id x).cluster n = { s.cluster n with streams := ((s.setStream id x).cluster n).streams } := by
  unfold State.setStream State.modCluster
  by_cases h : n = id / 16
  · subst h; simp
  · simp [cluster_setCluster_other _ h]

/-! ### Registers -/

@[simp] theorem reg_zero (t : Thread) : t.reg 0#5 = 0#64 := rfl

@[simp] theorem tainted_zero (t : Thread) : t.tainted 0#5 = false := rfl

/-- A register other than x0 reads what the file holds. -/
theorem reg_of_ne (t : Thread) {r : Reg} (h : r ≠ 0#5) : t.reg r = t.x[r.toNat] := by
  simp only [Thread.reg, h, if_false]; rfl

/-- The register that was written reads its new value. -/
theorem reg_setReg_same (t : Thread) {r : Reg} (h : r ≠ 0#5) (v : Word) (b : Bool) : (t.setReg r v b).reg r = v := by
  rw [reg_of_ne _ h]; simp [Thread.setReg, h]

/-- A write of one register leaves every other alone. -/
theorem reg_setReg_other (t : Thread) {r n : Reg} (h : n ≠ r) (v : Word) (b : Bool) :
    (t.setReg r v b).reg n = t.reg n := by
  by_cases hn : n = 0#5
  · subst hn; rfl
  · rw [reg_of_ne _ hn, reg_of_ne _ hn]
    have : r.toNat ≠ n.toNat := fun e => h (BitVec.eq_of_toNat_eq e.symm)
    unfold Thread.setReg
    split
    · rfl
    · simp [this]

theorem tainted_setReg_same (t : Thread) {r : Reg} (h : r ≠ 0#5) (v : Word) (b : Bool) :
    (t.setReg r v b).tainted r = b := by
  have : r.toNat < 32 := r.isLt
  cases b <;> simp [Thread.setReg, Thread.tainted, h, this]

theorem tainted_setReg_other (t : Thread) {r n : Reg} (h : n ≠ r) (v : Word) (b : Bool) :
    (t.setReg r v b).tainted n = t.tainted n := by
  have h1 : n.toNat < 32 := n.isLt
  have h2 : n.toNat ≠ r.toNat := fun e => h (BitVec.eq_of_toNat_eq e)
  have h3 : (1#32 <<< r.toNat).getLsbD n.toNat = false := by
    rw [BitVec.getLsbD_shiftLeft, BitVec.getLsbD_one]
    by_cases hl : n.toNat < r.toNat
    · simp [hl]
    · have : n.toNat - r.toNat ≠ 0 := by omega
      simp [this]
  unfold Thread.setReg Thread.tainted
  split
  · rfl
  · cases b
    · simp only [Bool.false_eq_true, if_false, BitVec.getLsbD_and, BitVec.getLsbD_not, h3, h1]; simp
    · simp only [if_true, BitVec.getLsbD_or, h3, Bool.or_false]

/-- What a write of a register does, as claims say it. -/
theorem setReg_wrote (t : Thread) (r : Reg) (v : Word) (b : Bool) : WroteReg t (t.setReg r v b) r v b where
  dest h := ⟨reg_setReg_same t h v b, tainted_setReg_same t h v b⟩
  zero := ⟨rfl, rfl⟩
  others _ h := ⟨reg_setReg_other t h v b, tainted_setReg_other t h v b⟩

/-! ### The frame of a thread's step -/

theorem ThreadOnly.refl (s : State) (tid : Nat) (t : Thread) : ThreadOnly s s tid t where
  rest := rfl
  streams _ := rfl
  others _ _ := Or.inl rfl
  alone _ := rfl

/-- Replacing the thread of the slot changes nothing else. -/
theorem setThread_only (s : State) (tid : Nat) (t q : Thread) : ThreadOnly s (s.setThread tid q) tid t where
  rest := rfl
  streams _ := rfl
  others _ h := Or.inl (thread_setThread_other s h q)
  alone _ := rfl

/-! ### Windows of vector results -/

/-- Two threads with the same vector state. -/
structure SameVec (t u : Thread) : Prop where
  v : t.v = u.v
  k : t.k = u.k
  vres : t.vres = u.vres
  vflags : t.vflags = u.vflags

theorem putV_same {t u : Thread} (h : SameVec t u) (d : BitVec 4) (x : VWord) : SameVec (t.putV d x) (u.putV d x) := by
  obtain ⟨hv, hk, hr, hf⟩ := h
  unfold Thread.putV
  split <;> exact ⟨by simp [hv], by simp [hk], hr, hf⟩

theorem orFlags_same {t u : Thread} (h : SameVec t u) (f : BitVec 6) : SameVec (t.orFlags f) (u.orFlags f) :=
  ⟨h.v, h.k, h.vres, by simp [Thread.orFlags, h.vflags]⟩

theorem landFrom_same (now : Nat) (keep l : List VResult) {t u : Thread} (h : SameVec t u) :
    SameVec (Thread.landFrom now keep l t) (Thread.landFrom now keep l u) := by
  induction l generalizing keep t u with
  | nil => exact ⟨h.v, h.k, rfl, h.vflags⟩
  | cons r l ih =>
    unfold Thread.landFrom
    split
    · exact ih _ (orFlags_same (putV_same h _ _) _)
    · exact ih _ h

/-- What the passing of windows does depends on the vector state only. -/
theorem passWindows_same {t u : Thread} (h : SameVec t u) (now : Nat) : SameVec (t.passWindows now) (u.passWindows now) := by
  unfold Thread.passWindows
  rw [h.vres]
  cases u.vres with
  | nil => exact h
  | cons r l => exact landFrom_same _ _ _ ⟨h.v, h.k, rfl, h.vflags⟩

/-- With no result pending, nothing changes. -/
theorem passWindows_none {t : Thread} (h : t.vres = []) (now : Nat) : t.passWindows now = t := by
  unfold Thread.passWindows; rw [h]

theorem setReg_same (t : Thread) (r : Reg) (v : Word) (b : Bool) : SameVec (t.setReg r v b) t :=
  ⟨by simp, by simp, by simp, by simp⟩

/-! ### Gangs -/

/-- `q` is `p` but for what the progress of its gang changes. -/
def SameButGang (p q : Thread) : Prop :=
  q = { p with
    pc := q.pc, pw := q.pw, v := q.v, k := q.k, vres := q.vres, vflags := q.vflags, instret := q.instret
    skip := q.skip, wait := q.wait, latch := q.latch, latchCnt := q.latchCnt, stepped := q.stepped, stepAt := q.stepAt, stepSend := q.stepSend
    readyAt := q.readyAt, gang := q.gang }

theorem SameButGang.trans {p q r : Thread} (h1 : SameButGang p q) (h2 : SameButGang q r) : SameButGang p r := by
  unfold SameButGang at *; rw [h2, h1]

theorem retired_sameButGang (t : Thread) (n : Nat) (pc : Word) (busy : Nat) (b : Bool) (g : Option Gang) :
    SameButGang t { (t.setPred 63#6 b).retired n pc busy with gang := g } := by
  unfold SameButGang Thread.retired
  ext <;> simp

/-- Nothing but streams and threads. -/
structure GangOnly (s u : State) (id : Nat) : Prop where
  rest : u = { s with threads := u.threads, clusters := u.clusters }
  streams : ∀ n, u.cluster n = { s.cluster n with streams := (u.cluster n).streams }
  threads : ∀ k, u.thread? k = s.thread? k ∨
    ∃ p q g, s.thread? k = some p ∧ u.thread? k = some q ∧ p.gang = some g ∧ g.stream = id ∧ SameButGang p q

theorem GangOnly.refl (s : State) (id : Nat) : GangOnly s s id := ⟨rfl, fun _ => rfl, fun _ => Or.inl rfl⟩

theorem setStream_gangOnly (s : State) (id i : Nat) (x : Stream) : GangOnly s (s.setStream i x) id :=
  ⟨rfl, cluster_setStream s i x, fun _ => Or.inl rfl⟩

theorem setThread_sorted {s : State} (h : assocSorted s.threads = true) (k : Nat) (t : Thread) :
    assocSorted (s.setThread k t).threads = true := assocSet_sortedFrom t (Nat.zero_le k) h

/-- A fold over members of a gang that replaces some of them: only the gang changes, and no thread outside the fold. -/
theorem foldMembers_spec {α : Type} (key : α → Nat) (val : α → Thread) (id : Nat) (F : State → α → State) (s : State)
    (l : List α) (a : State)
    (hF : ∀ b, ∀ x ∈ l, F b x = b ∨ ∃ q, F b x = b.setThread (key x) q ∧ SameButGang (val x) q)
    (hl : ∀ x ∈ l, s.thread? (key x) = some (val x) ∧ ∃ g, (val x).gang = some g ∧ g.stream = id)
    (hs : GangOnly s a id) (ho : assocSorted a.threads = true) :
    GangOnly s (l.foldl F a) id ∧ assocSorted (l.foldl F a).threads = true ∧
      ∀ k, (∀ x ∈ l, key x ≠ k) → (l.foldl F a).thread? k = a.thread? k := by
  induction l generalizing a with
  | nil => exact ⟨hs, ho, fun _ _ => rfl⟩
  | cons x l ih =>
    have hF' := fun b y hy => hF b y (List.mem_cons_of_mem _ hy)
    have hl' := fun y hy => hl y (List.mem_cons_of_mem _ hy)
    obtain e | ⟨q, e, hq⟩ := hF a x List.mem_cons_self
    · simp only [List.foldl_cons, e]
      obtain ⟨h1, h2, h3⟩ := ih a hF' hl' hs ho
      exact ⟨h1, h2, fun k hk => h3 k fun y hy => hk y (List.mem_cons_of_mem _ hy)⟩
    · simp only [List.foldl_cons, e]
      obtain ⟨hx, g, hg, hi⟩ := hl x List.mem_cons_self
      have h0 : GangOnly s (a.setThread (key x) q) id := by
        refine ⟨by rw [hs.rest]; rfl, hs.streams, fun k => ?_⟩
        by_cases hk : k = key x
        · subst hk; exact Or.inr ⟨val x, q, g, hx, thread_setThread_same .., hg, hi, hq⟩
        · rw [thread_setThread_other _ hk]; exact hs.threads k
      obtain ⟨h1, h2, h3⟩ := ih _ hF' hl' h0 (setThread_sorted ho ..)
      refine ⟨h1, h2, fun k hk => ?_⟩
      rw [h3 k fun y hy => hk y (List.mem_cons_of_mem _ hy),
        thread_setThread_other _ (Ne.symm (hk x List.mem_cons_self))]

/-- A waiting member of a join stands in its slot, waits and belongs to the stream. -/
theorem mem_joinWaiters {s : State} (hs : assocSorted s.threads = true) {id : Nat} {x : Nat × Thread × BitVec 12}
    (h : x ∈ s.joinWaiters id) :
    s.thread? x.1 = some x.2.1 ∧ x.2.1.wait ≠ none ∧ ∃ g, x.2.1.gang = some g ∧ g.stream = id := by
  unfold State.joinWaiters at h
  obtain ⟨⟨n, t⟩, hm, hx⟩ := List.mem_filterMap.mp h
  revert hx
  simp only
  split
  · next g w hg hw _ =>
    split
    · split
      · next hi =>
        simp only [Option.some.injEq]
        rintro rfl
        exact ⟨assocGet_of_mem hs hm, by simp [hw], g, hg, by simpa using hi⟩
      · simp
    · simp
  · simp

/-- An attached member stands in its slot and belongs to the stream. -/
theorem mem_attached {s : State} (hs : assocSorted s.threads = true) {id : Nat} {x : Nat × Thread}
    (h : x ∈ s.attached id) : s.thread? x.1 = some x.2 ∧ ∃ g, x.2.gang = some g ∧ g.stream = id ∧ g.attached = true := by
  obtain ⟨hm, hp⟩ := List.mem_filter.mp h
  refine ⟨assocGet_of_mem hs hm, ?_⟩
  revert hp
  cases e : x.2.gang with
  | none => simp
  | some g => simp only [Bool.and_eq_true, beq_iff_eq]; exact fun hp => ⟨g, rfl, hp.1, hp.2⟩

/-- The settling of a join changes the gang only, and no thread that does not wait. -/
theorem settleJoin_spec {s : State} (hs : assocSorted s.threads = true) (id : Nat) :
    GangOnly s (s.settleJoin id) id ∧ assocSorted (s.settleJoin id).threads = true ∧
      ∀ k t, s.thread? k = some t → t.wait = none → (s.settleJoin id).thread? k = some t := by
  unfold State.settleJoin
  split
  · exact ⟨GangOnly.refl s id, hs, fun _ _ h _ => h⟩
  · split
    · next n t k l st _ _ =>
      simp only
      generalize hx : s.setStream id _ = a
      have ha : GangOnly s a id := hx ▸ setStream_gangOnly ..
      have ht : a.threads = s.threads := hx ▸ rfl
      have hh : ∀ j, a.thread? j = s.thread? j := fun j => by unfold State.thread?; rw [ht]
      have hso : assocSorted a.threads = true := ht ▸ hs
      unfold State.attachJoin
      obtain ⟨h1, h2, h3⟩ := foldMembers_spec (fun x : Nat × Thread × BitVec 12 => x.1) (fun x => x.2.1) id (fun u x =>
          if x.2.2 = k then
            u.setThread x.1 { (x.2.1.setPred 63#6 false).retired a.time (t.pc + 4#64) 8 with
              gang := x.2.1.gang.map fun g => { g with attached := true, pos := st.base + st.path.length } }
          else u) s (a.joinWaiters id) a
        (fun b x _ => by
          simp only
          split
          · exact Or.inr ⟨_, rfl, retired_sameButGang _ _ _ _ _ _⟩
          · exact Or.inl rfl)
        (fun x hx => by
          obtain ⟨e, -, e'⟩ := mem_joinWaiters hso hx
          exact ⟨hh _ ▸ e, e'⟩) ha hso
      refine ⟨h1, h2, fun j u hj hw => ?_⟩
      refine (h3 j fun x hx e => ?_).trans ((hh j).trans hj)
      obtain ⟨e1, e2, -⟩ := mem_joinWaiters hso hx
      rw [show x.1 = j from e, hh, hj] at e1
      exact e2 (by rw [← Option.some.inj e1]; exact hw)
    · exact ⟨GangOnly.refl s id, hs, fun _ _ h _ => h⟩

/-- The pilot's resolution changes the gang only, and of it attached members other than the pilot. -/
theorem resolveStream_spec {s : State} (hs : assocSorted s.threads = true) (id : Nat) :
    GangOnly s (s.resolveStream id) id ∧ assocSorted (s.resolveStream id).threads = true ∧
      ∀ k, (∀ x ∈ (s.attached id).tail, x.1 ≠ k) → (s.resolveStream id).thread? k = s.thread? k := by
  unfold State.resolveStream
  split
  · next st n t rest _ hat =>
    simp only
    split
    · rw [hat, List.tail_cons]
      have hm : ∀ x ∈ rest, x ∈ s.attached id := fun x hx => hat ▸ List.mem_cons_of_mem _ hx
      refine foldMembers_spec (fun x : Nat × Thread => x.1) (fun x => x.2) id _ s rest _ (fun b x _ => ?_)
        (fun x hx => ?_) (setStream_gangOnly ..) hs
      · cases e : x.2.gang with
        | none => exact Or.inl rfl
        | some g =>
          simp only
          split
          · split
            · exact Or.inr ⟨_, rfl, by unfold SameButGang; rfl⟩
            · exact Or.inr ⟨_, rfl, by unfold SameButGang; rfl⟩
          · exact Or.inl rfl
      · obtain ⟨e, g, hg, hi, -⟩ := mem_attached hs (hm x hx)
        exact ⟨e, g, hg, hi⟩
    · exact ⟨GangOnly.refl s id, hs, fun _ _ => rfl⟩
  · exact ⟨GangOnly.refl s id, hs, fun _ _ => rfl⟩

theorem GangOnly.trans {s a u : State} {id : Nat} (h1 : GangOnly s a id) (h2 : GangOnly a u id) : GangOnly s u id where
  rest := by rw [h2.rest, h1.rest]
  streams n := by rw [h2.streams, h1.streams]
  threads k := by
    obtain e2 | ⟨p, q, g, hp, hq, hg, hi, hpq⟩ := h2.threads k
    · rw [e2]; exact h1.threads k
    · obtain e1 | ⟨p', q', g', hp', hq', hg', hi', hpq'⟩ := h1.threads k
      · exact Or.inr ⟨p, q, g, e1 ▸ hp, hq, hg, hi, hpq⟩
      · rw [hq'] at hp
        cases hp
        exact Or.inr ⟨p', q, g', hp', hq, hg', hi', hpq'.trans hpq⟩

theorem detachGang_attached {s : State} {tid : Nat} {t : Thread} {g : Gang} (h : s.thread? tid = some t)
    (hg : t.gang = some g) (ha : g.attached = true) :
    s.detachGang tid =
      ((s.setThread tid { t with gang := some { g with attached := false } }).resolveStream g.stream).settleJoin g.stream := by
  simp only [State.detachGang, h, hg, ha, if_true]

/-- A member that does not wait leaves its stream: it keeps all but its gang record, and nothing outside its gang changes. -/
theorem leaveStream_spec {s : State} (hs : assocSorted s.threads = true) {tid : Nat} {q : Thread} {g : Gang}
    (h : s.thread? tid = some q) (hw : q.wait = none) (hg : q.gang = some { g with attached := false }) :
    ((s.resolveStream g.stream).settleJoin g.stream).thread? tid = some q ∧
      GangOnly s ((s.resolveStream g.stream).settleJoin g.stream) g.stream := by
  obtain ⟨h1, h2, h3⟩ := resolveStream_spec hs g.stream
  obtain ⟨k1, -, k3⟩ := settleJoin_spec h2 g.stream
  refine ⟨k3 tid q (h3 tid (fun x hx e => ?_) |>.trans h) hw, h1.trans k1⟩
  obtain ⟨e1, g', hg', -, ha⟩ := mem_attached hs (List.mem_of_mem_tail hx)
  rw [e, h] at e1
  cases e1
  rw [hg] at hg'
  cases hg'
  exact absurd ha (by simp)

theorem detachGang_other {s : State} {tid : Nat} {t : Thread} (h : s.thread? tid = some t) (ha : t.inGang = false) :
    s.detachGang tid = s := by
  unfold State.detachGang
  rw [h]
  unfold Thread.inGang at ha
  cases hg : t.gang with
  | none => simp [hg]
  | some g => simp only [hg] at ha ⊢; simp [ha]

/-! ### Retirement -/

/-- The pilot stays the first attached member when its thread is replaced by an attached one. -/
theorem filter_assocSet_head {p : Nat × Thread → Bool} {k : Nat} {q : Thread} (hp : p (k, q) = true)
    {l : List (Nat × Thread)} (h : ((l.filter p).head?.map (·.1)) = some k) :
    ((assocSet k q l).filter p).head? = some (k, q) := by
  induction l with
  | nil => simp at h
  | cons x l ih =>
    obtain ⟨j, b⟩ := x
    unfold assocSet
    split
    · simp [hp]
    · split
      · simp [hp]
      · next hj =>
        by_cases hb : p (j, b) = true
        · simp [hb] at h; exact absurd h hj
        · simp only [List.filter_cons, hb] at h ⊢
          exact ih h

/-- From the frame of a gang's progress to that of the member's step. -/
theorem GangOnly.only {s a u : State} {tid : Nat} {t : Thread} {g : Gang} (hg : t.gang = some g)
    (ha : g.attached = true) (h1 : ThreadOnly s a tid t) (h2 : GangOnly a u g.stream)
    (h3 : ∀ k, k ≠ tid → a.thread? k = s.thread? k) : ThreadOnly s u tid t where
  rest := by rw [h2.rest, h1.rest]
  streams n := by rw [h2.streams, h1.streams]
  others k hk := by
    rw [← h3 k hk]
    obtain h | ⟨p, q, g', hp, hq, hg', hi, hs⟩ := h2.threads k
    · exact Or.inl h
    · exact Or.inr ⟨p, q, by simp [Thread.inGang, hg, ha], hp, hq, ⟨g, g', hg, hg', hi⟩, hs⟩
  alone h := by simp [Thread.inGang, hg, ha] at h

/-- Retirement of a gang member: it goes on as its instruction left it, and nothing outside its gang changes. -/
theorem gangRetire_spec {s : State} (hs : assocSorted s.threads = true) (tid : Nat) {t : Thread} {g : Gang}
    (hg : t.gang = some g) (ha : g.attached = true) (pc : Word) (tr : Bool) (busy : Nat) :
    (∃ g', (s.gangRetire tid t g pc tr busy).thread? tid = some { t.retired s.time pc busy with gang := g' }) ∧
      ThreadOnly s (s.gangRetire tid t g pc tr busy) tid t := by
  unfold State.gangRetire
  extract_lets r s1
  have keep : ∀ q : Thread, ThreadOnly s (s.setThread tid q) tid t := setThread_only s tid t
  have other : ∀ (q : Thread) k, k ≠ tid → (s.setThread tid q).thread? k = s.thread? k :=
    fun q k hk => thread_setThread_other s hk q
  have hrg : r.gang = t.gang := by simp [r, Thread.retired]
  split
  · refine ⟨⟨r.gang, ?_⟩, keep _⟩
    rw [thread_setThread_same]
  · next st hst =>
    have h1 : s1.thread? tid = some { r with gang := some { g with pos := g.pos + 1 } } := thread_setThread_same ..
    split
    · next n hn =>
      split
      · exact ⟨⟨_, h1⟩, keep _⟩
      · have e := detachGang_attached (s := s.setThread tid r) (thread_setThread_same s tid r) (hrg.trans hg) ha
        rw [e]
        obtain ⟨k1, k2⟩ := leaveStream_spec (g := g) (setThread_sorted (setThread_sorted hs tid r) tid
          { r with gang := some { g with attached := false } }) (thread_setThread_same ..) rfl rfl
        refine ⟨⟨_, k1⟩, GangOnly.only hg ha ?_ k2 fun k hk => ?_⟩
        · exact ⟨rfl, fun _ => rfl, fun k hk => Or.inl (by
            rw [thread_setThread_other _ hk, thread_setThread_other _ hk]), fun _ => rfl⟩
        · rw [thread_setThread_other _ hk, thread_setThread_other _ hk]
    · split
      · next hp =>
        obtain ⟨k1, k2, k3⟩ := resolveStream_spec (setThread_sorted hs tid { r with gang := some { g with pos := g.pos + 1 } }) g.stream
        refine ⟨⟨_, (k3 tid fun x hx => ?_).trans h1⟩, GangOnly.only hg ha (keep _) k1 (other _)⟩
        have hh := filter_assocSet_head (k := tid) (q := { r with gang := some { g with pos := g.pos + 1 } })
          (p := fun x : Nat × Thread => match x.2.gang with
            | some g' => g'.stream == g.stream && g'.attached
            | none => false) (by simp [ha]) (beq_iff_eq.mp hp)
        have hs1 := (assocSorted_keys (lo := 0) (setThread_sorted hs tid { r with gang := some { g with pos := g.pos + 1 } })).filter
          (fun x : Nat × Thread => match x.2.gang with
            | some g' => g'.stream == g.stream && g'.attached
            | none => false)
        change x ∈ (State.attached (s.setThread tid _) g.stream).tail at hx
        unfold State.attached State.setThread at hx
        simp only at hx
        revert hx hh hs1
        unfold State.setThread
        simp only
        generalize List.filter _ (assocSet tid _ s.threads) = l
        cases l with
        | nil => simp
        | cons y l =>
          intro hh hs1 hx e
          simp only [List.head?_cons, Option.some.injEq] at hh
          subst hh
          exact (List.pairwise_cons.mp hs1).1 x hx (by simpa using e.symm)
      · split
        · exact ⟨⟨_, h1⟩, keep _⟩
        · refine ⟨⟨_, h1⟩, ⟨rfl, fun n => cluster_setStream s1 g.stream _ n, fun k hk => Or.inl (other _ k hk),
            fun h => by simp [Thread.inGang, hg, ha] at h⟩⟩

/-- Retirement: the thread goes on as its instruction left it, and nothing else changes but the progress of its
gang. -/
theorem finish_spec {s : State} (hs : assocSorted s.threads = true) (tid : Nat) (t : Thread) (pc : Word) (tr : Bool)
    (busy : Nat) :
    (∃ g, (s.finish tid t pc tr busy).thread? tid = some { t.retired s.time pc busy with gang := g }) ∧
      ThreadOnly s (s.finish tid t pc tr busy) tid t := by
  unfold State.finish
  cases hg : t.gang with
  | none => exact ⟨⟨(t.retired s.time pc busy).gang, thread_setThread_same ..⟩, setThread_only ..⟩
  | some g =>
    simp only
    split
    · next ha => exact gangRetire_spec hs tid hg ha pc tr busy
    · exact ⟨⟨(t.retired s.time pc busy).gang, thread_setThread_same ..⟩, setThread_only ..⟩

theorem ThreadOnly.congr {s u : State} {tid : Nat} {t t' : Thread} (h : ThreadOnly s u tid t) (hg : t.gang = t'.gang) :
    ThreadOnly s u tid t' where
  rest := h.rest
  streams := h.streams
  others k hk := by
    obtain e | ⟨p, q, h1, h2, h3, ⟨⟨g, g', e1, e2, e3⟩, h4⟩⟩ := h.others k hk
    · exact Or.inl e
    · exact Or.inr ⟨p, q, by simpa [Thread.inGang, hg] using h1, h2, h3, ⟨⟨g, g', hg ▸ e1, e2, e3⟩, h4⟩⟩
  alone h' := h.alone (by simpa [Thread.inGang, hg] using h')

/-- The scalar and predicate registers of a thread are changed, and nothing else of it. -/
def ScalarOf (t u : Thread) : Prop := u = { t with x := u.x, taint := u.taint, pw := u.pw }

theorem setReg_scalar (t : Thread) (r : Reg) (v : Word) (b : Bool) : ScalarOf t (t.setReg r v b) := by
  unfold ScalarOf; ext <;> simp

theorem setPred_scalar (t : Thread) (n : BitVec 6) (b : Bool) : ScalarOf t (t.setPred n b) := rfl

/-- Retirement of an instruction that changes scalar and predicate registers only. -/
theorem finish_scalar {s : State} (hs : assocSorted s.threads = true) (tid : Nat) {t u : Thread} (hu : ScalarOf t u)
    (pc : Word) (tr : Bool) (busy : Nat) :
    ∃ q, (s.finish tid u pc tr busy).thread? tid = some q ∧ ThreadOnly s (s.finish tid u pc tr busy) tid t ∧
      RetiredTo s t q pc ∧ q.x = u.x ∧ q.taint = u.taint ∧ q.pw = u.pw := by
  obtain ⟨⟨g, h1⟩, h2⟩ := finish_spec hs tid u pc tr busy
  have hv : SameVec u t := by rw [hu]; exact ⟨rfl, rfl, rfl, rfl⟩
  have hw := passWindows_same hv s.time
  have hg : u.gang = t.gang := by rw [hu]
  refine ⟨_, h1, h2.congr hg, ?_, ?_, ?_, ?_⟩
  · unfold RetiredTo Thread.retired
    ext <;> simp [hw.v, hw.k, hw.vres, hw.vflags] <;> rw [hu]
  all_goals simp [Thread.retired]

/-- Retirement with one register written. -/
theorem finish_setReg {s : State} (hs : assocSorted s.threads = true) (tid : Nat) (t : Thread) (d : Reg) (v : Word)
    (b : Bool) (pc : Word) (tr : Bool) (busy : Nat) :
    ∃ q, (s.finish tid (t.setReg d v b) pc tr busy).thread? tid = some q ∧
      ThreadOnly s (s.finish tid (t.setReg d v b) pc tr busy) tid t ∧ RetiredTo s t q pc ∧ WroteReg t q d v b ∧
      q.pw = t.pw := by
  obtain ⟨q, h1, h2, h3, hx, ht, hp⟩ := finish_scalar hs tid (setReg_scalar t d v b) pc tr busy
  have hr : ∀ r, q.reg r = (t.setReg d v b).reg r := fun r => by unfold Thread.reg; rw [hx]
  have hn : ∀ r, q.tainted r = (t.setReg d v b).tainted r := fun r => by unfold Thread.tainted; rw [ht]
  have hw := setReg_wrote t d v b
  refine ⟨q, h1, h2, h3, ⟨fun h => ?_, ⟨rfl, rfl⟩, fun r h => ?_⟩, by simpa using hp⟩
  · rw [hr, hn]; exact hw.dest h
  · rw [hr, hn]; exact hw.others r h

/-! ### Halts and traps -/

/-- Notices of a halt change the emit queues only. -/
theorem queueNotices_emit (s : State) (ty : FrameType) (tid : Nat) (root : Bool) (l : List Obj) :
    s.queueNotices ty tid root l = { s with emit := (s.queueNotices ty tid root l).emit } := by
  unfold State.queueNotices
  generalize sixes 2 l = ls
  have key : ∀ a : State, a = { s with emit := a.emit } → ∀ (F : State → List Obj → State),
      (∀ b l, ∃ n ty d x w, F b l = b.queueFrame n ty d x w) → ls.foldl F a = { s with emit := (ls.foldl F a).emit } := by
    induction ls with
    | nil => exact fun a ha _ _ => ha
    | cons x ls ih =>
      intro a ha F hF
      obtain ⟨n, ty, d, y, w, e⟩ := hF a x
      exact ih (F a x) (by rw [e]; unfold State.queueFrame; rw [ha]) F hF
  exact key s rfl _ fun b l => ⟨_, _, _, _, _, rfl⟩

@[simp] theorem thread_queueNotices (s : State) (ty : FrameType) (tid : Nat) (root : Bool) (l : List Obj) (k : Nat) :
    (s.queueNotices ty tid root l).thread? k = s.thread? k := by
  rw [queueNotices_emit]; rfl

/-- What a halt or a trap leaves alone: only threads, streams, emit queues, timed steps and the counter change. -/
def QuietIn (s u : State) : Prop :=
  u = { s with threads := u.threads, clusters := u.clusters, emit := u.emit, timed := u.timed, fresh := u.fresh }

theorem QuietIn.refl (s : State) : QuietIn s s := rfl

theorem QuietIn.trans {s a u : State} (h1 : QuietIn s a) (h2 : QuietIn a u) : QuietIn s u := by
  unfold QuietIn at *; rw [h2, h1]

theorem QuietIn.mem {s u : State} (h : QuietIn s u) : u.mem = s.mem := by rw [h]

theorem QuietIn.full {s u : State} (h : QuietIn s u) : u.full = s.full := by rw [h]

theorem setThread_quiet (s : State) (k : Nat) (t : Thread) : QuietIn s (s.setThread k t) := rfl

theorem ThreadOnly.quiet {s u : State} {tid : Nat} {t : Thread} (h : ThreadOnly s u tid t) : QuietIn s u := by
  unfold QuietIn; rw [h.rest]

theorem GangOnly.quiet {s u : State} {id : Nat} (h : GangOnly s u id) : QuietIn s u := by
  unfold QuietIn; rw [h.rest]

theorem queueNotices_quiet (s : State) (ty : FrameType) (tid : Nat) (root : Bool) (l : List Obj) :
    QuietIn s (s.queueNotices ty tid root l) := by
  unfold QuietIn; rw [queueNotices_emit]

theorem foldThreads_quiet {α : Type} (F : State → α → State) (hF : ∀ a x, QuietIn a (F a x)) (l : List α) (s : State) :
    QuietIn s (l.foldl F s) := by
  induction l generalizing s with
  | nil => exact QuietIn.refl s
  | cons x l ih => exact (hF s x).trans (ih _)

theorem setStream_quiet (s : State) (i : Nat) (x : Stream) : QuietIn s (s.setStream i x) := rfl

theorem settleJoin_quiet (s : State) (id : Nat) : QuietIn s (s.settleJoin id) := by
  unfold State.settleJoin
  split
  · exact QuietIn.refl s
  · split
    · refine (setStream_quiet ..).trans (foldThreads_quiet _ (fun a x => ?_) _ _)
      split
      · exact setThread_quiet ..
      · exact QuietIn.refl a
    · exact QuietIn.refl s

theorem resolveStream_quiet (s : State) (id : Nat) : QuietIn s (s.resolveStream id) := by
  unfold State.resolveStream
  split
  · simp only
    split
    · refine (setStream_quiet ..).trans (foldThreads_quiet _ (fun a x => ?_) _ _)
      split
      · split
        · split
          · exact setThread_quiet ..
          · exact setThread_quiet ..
        · exact QuietIn.refl a
      · exact QuietIn.refl a
    · exact QuietIn.refl s
  · exact QuietIn.refl s

theorem detachGang_quiet (s : State) (tid : Nat) : QuietIn s (s.detachGang tid) := by
  unfold State.detachGang
  split
  · split
    · split
      · exact ((setThread_quiet ..).trans (resolveStream_quiet ..)).trans (settleJoin_quiet ..)
      · exact QuietIn.refl s
    · exact QuietIn.refl s
  · exact QuietIn.refl s

theorem detachGang_sorted {s : State} (hs : assocSorted s.threads = true) (tid : Nat) :
    assocSorted (s.detachGang tid).threads = true := by
  unfold State.detachGang
  split
  · split
    · split
      · exact (settleJoin_spec (resolveStream_spec (setThread_sorted hs ..) _).2.1 _).2.1
      · exact hs
    · exact hs
  · exact hs

/-- A thread that does not wait keeps all but its gang record when it detaches. -/
theorem detachGang_thread {s : State} (hs : assocSorted s.threads = true) {tid : Nat} {t : Thread}
    (h : s.thread? tid = some t) (hw : t.wait = none) :
    ∃ g, (s.detachGang tid).thread? tid = some { t with gang := g } := by
  cases hg : t.gang with
  | none =>
    rw [detachGang_other h (by simp [Thread.inGang, hg])]
    exact ⟨none, by rw [h, ← hg]⟩
  | some g =>
    cases ha : g.attached with
    | true =>
      rw [detachGang_attached h hg ha]
      exact ⟨_, (leaveStream_spec (q := { t with gang := some { g with attached := false } }) (g := g)
        (setThread_sorted hs tid _) (thread_setThread_same ..) hw rfl).1⟩
    | false =>
      rw [detachGang_other h (by simp [Thread.inGang, hg, ha])]
      exact ⟨some g, by rw [h, ← hg]⟩

theorem drainWindows_none {t : Thread} (h : t.vres = []) : t.drainWindows = t := by
  unfold Thread.drainWindows; rw [h]; simp only [List.foldl_nil]; rw [← h]

/-- A root halt of a live thread that does not wait: its windows drain, it leaves its gang's stream, it halts with the
reason, and nothing else of it changes (R28, R410). -/
theorem rootHalt_live {s : State} (hs : assocSorted s.threads = true) {tid : Nat} {t : Thread} (h : s.thread? tid = some t) (hr : t.run = .live)
    (hw : t.wait = none) (why : Reason) :
    QuietIn s (s.rootHalt tid why) ∧ ∃ g, (s.rootHalt tid why).thread? tid =
      some { t.drainWindows with run := .root, reason := why, wasDep := none, stepped := false, noticed := t.openPromises, gang := g } := by
  unfold State.rootHalt
  rw [h]
  simp only [hr]
  obtain ⟨g, hg⟩ := detachGang_thread (setThread_sorted hs tid t.drainWindows) (thread_setThread_same s tid t.drainWindows) (by simpa using hw)
  have e : State.withdrawParked (((s.setThread tid t.drainWindows).detachGang tid).modThread tid fun u =>
        { u with run := .root, reason := why, wasDep := none, stepped := false, noticed := t.openPromises }) tid =
      ((s.setThread tid t.drainWindows).detachGang tid).setThread tid
        { t.drainWindows with run := .root, reason := why, wasDep := none, stepped := false, noticed := t.openPromises, gang := g } := by
    unfold State.modThread
    rw [hg]
    unfold State.withdrawParked
    simp [hw]
  rw [e]
  refine ⟨((setThread_quiet ..).trans (detachGang_quiet ..)).trans ((setThread_quiet ..).trans (queueNotices_quiet ..)), g, ?_⟩
  rw [thread_queueNotices, thread_setThread_same]

/-- A root halt changes nothing outside threads, streams, emit queues and timed steps. -/
theorem rootHalt_quiet (s : State) (tid : Nat) (why : Reason) : QuietIn s (s.rootHalt tid why) := by
  have hm : ∀ (a : State) f, QuietIn a (a.modThread tid f) := fun a f => by
    unfold State.modThread; split
    · exact setThread_quiet ..
    · exact QuietIn.refl a
  have hp : ∀ a : State, QuietIn a (a.withdrawParked tid) := fun a => by
    unfold State.withdrawParked
    split
    · exact QuietIn.refl a
    · split
      · split
        · split
          · exact QuietIn.refl a
          · exact rfl
        · exact QuietIn.refl a
      · exact QuietIn.refl a
  unfold State.rootHalt
  split
  · exact QuietIn.refl s
  · split
    · exact QuietIn.refl s
    · exact setThread_quiet ..
    · exact ((((setThread_quiet ..).trans (detachGang_quiet ..)).trans (hm _ _)).trans (hp _)).trans (queueNotices_quiet ..)

/-- A trap changes no memory and no full/empty bit, outside and inside a handler. -/
theorem takeTrap_quiet (s : State) (tid : Nat) (t : Thread) (code : BitVec 8) (eval epc : Word) (async : Bool) :
    QuietIn s (s.takeTrap tid t code eval epc async) := by
  have h1 : ∀ q : Thread, QuietIn s (match t.gang with
      | some g => if g.attached then (s.setThread tid q).detachGang tid else s.setThread tid q
      | none => s.setThread tid q) := fun q => by
    split
    · split
      · exact (setThread_quiet ..).trans (detachGang_quiet ..)
      · exact setThread_quiet ..
    · exact setThread_quiet ..
  unfold State.takeTrap
  split
  · exact (setThread_quiet ..).trans (rootHalt_quiet ..)
  · extract_lets t1 s1
    split
    · exact (h1 t1).trans (rootHalt_quiet ..)
    · split
      · exact (h1 t1).trans (rootHalt_quiet ..)
      · exact h1 t1

/-- Taking a trap outside a handler: the trap registers, the handler state and PC are as R401 says; STEPCTL.TRAPH or
ASYNH then halts the thread; general and predicate registers are untouched. -/
theorem takeTrap_thread {s : State} (hs : assocSorted s.threads = true) {tid : Nat} {t : Thread} (code : BitVec 8) (eval epc : Word) (async : Bool)
    (hh : async = true ∨ t.inHandler = false) (hr : t.run = .live) :
    ∃ q, (s.takeTrap tid t code eval epc async).thread? tid = some q ∧ q.x = t.x ∧ q.taint = t.taint ∧ q.pw = t.pw ∧
      q.instret = t.instret ∧ q.epc = align4 epc ∧ q.eval = eval ∧ q.epw = t.pw ∧ q.inHandler = true ∧ q.pc = t.evec ∧
      q.ecause = (if async then 0x8000000000000000#64 else 0#64) ||| code.setWidth 64 ∧
      (if async = false ∧ t.stepctl.getLsbD 61 = true then q.run = .root ∧ q.reason = .traph
       else if async = true ∧ t.stepctl.getLsbD 60 = true then q.run = .root ∧ q.reason = .asynh else q.run = .live) := by
  unfold State.takeTrap
  have hc : (!async && t.inHandler) = false := by rcases hh with h | h <;> simp [h]
  rw [if_neg (by simp [hc])]
  extract_lets t1 s1
  have ht : assocSorted s1.threads = true ∧
      ∃ g, s1.thread? tid = some { t.drainWindows.enterTrap s.time code eval epc async with gang := g } := by
    show assocSorted (State.threads (match t.gang with
      | some g => if g.attached then (s.setThread tid t1).detachGang tid else s.setThread tid t1
      | none => s.setThread tid t1)) = true ∧ ∃ g, State.thread? (match t.gang with
      | some g => if g.attached then (s.setThread tid t1).detachGang tid else s.setThread tid t1
      | none => s.setThread tid t1) tid = _
    have h1 := setThread_sorted hs tid t1
    split
    · split
      · exact ⟨detachGang_sorted h1 tid, detachGang_thread h1 (thread_setThread_same ..) rfl⟩
      · exact ⟨h1, _, thread_setThread_same ..⟩
    · exact ⟨h1, _, thread_setThread_same ..⟩
  obtain ⟨hso, g, hg⟩ := ht
  clear_value s1
  have key : ∀ why, ∃ q, (s1.rootHalt tid why).thread? tid = some q ∧ q.x = t.x ∧ q.taint = t.taint ∧ q.pw = t.pw ∧
      q.instret = t.instret ∧ q.epc = align4 epc ∧ q.eval = eval ∧ q.epw = t.pw ∧ q.inHandler = true ∧ q.pc = t.evec ∧
      q.ecause = (if async then 0x8000000000000000#64 else 0#64) ||| code.setWidth 64 ∧ q.run = .root ∧ q.reason = why := by
    intro why
    obtain ⟨-, g', hq⟩ := rootHalt_live hso hg (by simpa [Thread.enterTrap] using hr) rfl why
    exact ⟨_, hq, by simp [Thread.enterTrap]⟩
  cases async with
  | false =>
    cases hb : t.stepctl.getLsbD 61 with
    | true => simpa using key .traph
    | false => exact ⟨_, by simpa using hg, by simp [Thread.enterTrap, hr]⟩
  | true =>
    cases hb : t.stepctl.getLsbD 60 with
    | true => simpa using key .asynh
    | false => exact ⟨_, by simpa using hg, by simp [Thread.enterTrap, hr]⟩

/-- A double trap: the trap registers stay, the thread halts with the second cause's code (R403). -/
theorem doubleTrap_thread {s : State} {tid : Nat} {t : Thread} (code : BitVec 8) (epc : Word) (hs : assocSorted s.threads = true)
    (hr : t.run = .live) :
    ∃ g, (s.doubleTrap tid t code epc).thread? tid = some { Thread.drainWindows { t with
      dcode := code, pc := epc, skip := false, wait := none, latch := none, latchCnt := none } with
        run := .root, reason := .double, wasDep := none, stepped := false, noticed := t.openPromises, gang := g } :=
  (rootHalt_live (s := s.setThread tid { t with dcode := code, pc := epc, skip := false, wait := none, latch := none, latchCnt := none })
    (setThread_sorted hs ..) (thread_setThread_same ..) hr rfl .double).2

/-! ### Performing -/

theorem performing_next {s : State} {tid : BitVec 16} {t : Thread} (h : Performs s tid t) (f : Nat → Thread → State) :
    performing s f = .next (f tid.toNat t) := by
  simp [performing, h.slot, h.holds]

end Sys2Proof.Machine
end

