-- ==== Sys2Proof/Tests/Slice0.lean ====
section
/-! SUPPORT. Tests of the decoder and of well-formedness, small steps with values worked by hand from the spec, and
for each obligation with hypotheses a concrete state and operands that meet them. -/

/- The tests are checked one after another: each of those that the kernel evaluates would otherwise hold a thread, and its
stack, of its own. -/
set_option Elab.async false

namespace Sys2Proof.Tests

open Sys2Proof Sys2Proof.Machine

/-! ## Decoding: words written out from the encoding tables of R63 to R98 -/

/-- Every word of the list decodes to the instruction beside it. The second word that the decoder is given is the
scalar form's second word, of which only the forms of R66 read any bit. -/
def decodes (l : List (BitVec 32 × Instr)) : Bool :=
  l.all fun x => match decode x.1 0x00033283#32 with
    | .ok i => decide (i = x.2)
    | .error _ => false

theorem test_decode_words_1 :
    decodes [(0x5AB90583#32, .lb 11#5 18#5 1451#12),
     (0x5AEA9703#32, .lh 14#5 21#5 1454#12),
     (0x5B1C2883#32, .lw 17#5 24#5 1457#12),
     (0x5B4DBA03#32, .ld 20#5 27#5 1460#12),
     (0x5B7F4B83#32, .lbu 23#5 30#5 1463#12),
     (0x5BA15D03#32, .lhu 26#5 2#5 1466#12),
     (0x5BD2EE83#32, .lwu 29#5 5#5 1469#12),
     (0xD28086A3#32, .sb 1#5 8#5 0xD2D#12),
     (0xD2B216A3#32, .sh 4#5 11#5 0xD2D#12),
     (0xD2E3A6A3#32, .sw 7#5 14#5 0xD2D#12),
     (0xD31536A3#32, .sd 10#5 17#5 0xD2D#12),
     (0x5CCA0693#32, .addi 13#5 20#5 1484#12),
     (0x5CFBA813#32, .slti 16#5 23#5 1487#12),
     (0x5D2D3993#32, .sltiu 19#5 26#5 1490#12),
     (0x5D5ECB13#32, .xori 22#5 29#5 1493#12),
     (0x5D80EC93#32, .ori 25#5 1#5 1496#12),
     (0x5DB27E13#32, .andi 28#5 4#5 1499#12),
     (0x01E39F93#32, .slli 31#5 7#5 30#6),
     (0x02155193#32, .srli 3#5 10#5 33#6)] = true := by decide

theorem test_decode_words_2 :
    decodes [(0x4246D313#32, .srai 6#5 13#5 36#6),
     (0x5E78049B#32, .addiw 9#5 16#5 1511#12),
     (0x00A9961B#32, .slliw 12#5 19#5 10#5),
     (0x00DB579B#32, .srliw 15#5 22#5 13#5),
     (0x410CD91B#32, .sraiw 18#5 25#5 16#5),
     (0x004E0AB3#32, .add 21#5 28#5 4#5),
     (0x007F9C33#32, .sll 24#5 31#5 7#5),
     (0x00A1ADB3#32, .slt 27#5 3#5 10#5),
     (0x00D33F33#32, .sltu 30#5 6#5 13#5),
     (0x0104C133#32, .xor 2#5 9#5 16#5),
     (0x013652B3#32, .srl 5#5 12#5 19#5),
     (0x0167E433#32, .or 8#5 15#5 22#5),
     (0x019975B3#32, .and 11#5 18#5 25#5),
     (0x41CA8733#32, .sub 14#5 21#5 28#5),
     (0x41FC58B3#32, .sra 17#5 24#5 31#5),
     (0x023D8A33#32, .mul 20#5 27#5 3#5),
     (0x026F1BB3#32, .mulh 23#5 30#5 6#5),
     (0x02912D33#32, .mulhsu 26#5 2#5 9#5),
     (0x02C2BEB3#32, .mulhu 29#5 5#5 12#5)] = true := by decide

theorem test_decode_words_3 :
    decodes [(0x02F440B3#32, .div 1#5 8#5 15#5),
     (0x0325D233#32, .divu 4#5 11#5 18#5),
     (0x035763B3#32, .rem 7#5 14#5 21#5),
     (0x0388F533#32, .remu 10#5 17#5 24#5),
     (0x01BA06BB#32, .addw 13#5 20#5 27#5),
     (0x01EB983B#32, .sllw 16#5 23#5 30#5),
     (0x002D59BB#32, .srlw 19#5 26#5 2#5),
     (0x405E8B3B#32, .subw 22#5 29#5 5#5),
     (0x4080DCBB#32, .sraw 25#5 1#5 8#5),
     (0x02B20E3B#32, .mulw 28#5 4#5 11#5),
     (0x02E3CFBB#32, .divw 31#5 7#5 14#5),
     (0x031551BB#32, .divuw 3#5 10#5 17#5),
     (0x0346E33B#32, .remw 6#5 13#5 20#5),
     (0x037874BB#32, .remuw 9#5 16#5 23#5),
     (0x5A646637#32, .lui 12#5 370246#20),
     (0x5A649797#32, .auipc 15#5 370249#20),
     (0x9EA6796F#32, .jal 18#5 0xB38F5#20),
     (0x650E0AE7#32, .jalr 21#5 28#5 1616#12),
     (0xEFFC0263#32, .beq 24#5 31#5 0xB72#12)] = true := by decide

theorem test_decode_words_4 :
    decodes [(0xEE3D9263#32, .bne 27#5 3#5 0xB72#12),
     (0xEE6F4263#32, .blt 30#5 6#5 0xB72#12),
     (0xEE915263#32, .bge 2#5 9#5 0xB72#12),
     (0xEEC2E263#32, .bltu 5#5 12#5 0xB72#12),
     (0xEEF47263#32, .bgeu 8#5 15#5 0xB72#12),
     (0x8450000F#32, .fence true 4#4 5#4),
     (0x00000073#32, .ecall),
     (0x00100073#32, .ebreak),
     (0x66ED9A73#32, .csrrw 20#5 27#5 1646#12),
     (0x671F2BF3#32, .csrrs 23#5 30#5 1649#12),
     (0x67413D73#32, .csrrc 26#5 2#5 1652#12),
     (0x677B5EF3#32, .csrrwi 29#5 22#5 1655#12),
     (0x67ACE0F3#32, .csrrsi 1#5 25#5 1658#12),
     (0x67DE7273#32, .csrrci 4#5 28#5 1661#12),
     (0x0157038B#32, .min 7#5 14#5 21#5),
     (0x0388850B#32, .max 10#5 17#5 24#5),
     (0x05BA068B#32, .minu 13#5 20#5 27#5),
     (0x07EB880B#32, .maxu 16#5 23#5 30#5),
     (0x080D098B#32, .clz 19#5 26#5)] = true := by decide

theorem test_decode_words_5 :
    decodes [(0x0A0E8B0B#32, .ctz 22#5 29#5),
     (0x0C008C8B#32, .cpop 25#5 1#5),
     (0x10000E0B#32, .pmvXp 28#5),
     (0x120F800B#32, .pmvPx 31#5),
     (0xB588818B#32, .sel 3#5 26#6 17#5 24#5),
     (0x7146900B#32, .psetEq 28#6 13#5 20#5),
     (0x7D78108B#32, .psetNe 31#6 16#5 23#5),
     (0x89A9920B#32, .psetLt 34#6 19#5 26#5),
     (0x95DB128B#32, .psetGe 37#6 22#5 29#5),
     (0xA01C930B#32, .psetLtu 40#6 25#5 1#5),
     (0xAC4E138B#32, .psetGeu 43#6 28#5 4#5),
     (0xEF70220B#32, .bp 46#6 0xB72#12),
     (0xEF88A20B#32, .bnp 49#6 0xB72#12),
     (0x0000300B#32, .endThread),
     (0x0200300B#32, .detach),
     (0x0530B28B#32, .start 5#5 1#3 19#5),
     (0x0761340B#32, .startg 8#5 2#3 22#5),
     (0x0999358B#32, .rove 11#5 18#5 25#5),
     (0x0A00308B#32, .taskget 1#3)] = true := by decide

theorem test_decode_words_6 :
    decodes [(0x0C02B88B#32, .taskadd 17#5 5#3),
     (0x0E0DBA0B#32, .grow 20#5 27#5),
     (0x100BB00B#32, .sleep 23#5),
     (0x120D300B#32, .dlset 26#5),
     (0x1400300B#32, .dlclr),
     (0x6D50400B#32, .join 1749#12),
     (0x0125D20B#32, .susp 4#5 11#5 18#5),
     (0x02E3D00B#32, .resm 7#5 14#5),
     (0x0515500B#32, .ccopy 10#5 17#5),
     (0x0746D00B#32, .cdisc 13#5 20#5),
     (0x080BD80B#32, .cstat 16#5 23#5),
     (0x0BA9D00B#32, .migcore 19#5 26#5),
     (0x0000600B#32, .tret),
     (0x0200600B#32, .halt),
     (0x040E600B#32, .hold 28#5),
     (0x060FE00B#32, .rel 31#5),
     (0x6F8501AB#32, .lconW 3#5 10#5 1784#12),
     (0x6FB6932B#32, .lconD 6#5 13#5 1787#12),
     (0x017824AB#32, .lswK 9#5 16#5 23#5)] = true := by decide

theorem test_decode_words_7 :
    decodes [(0x03A9A62B#32, .lswC 12#5 19#5 26#5),
     (0x0567AEAB#32, .sswE 15#5 22#5 29#5),
     (0x079920AB#32, .sswF 18#5 25#5 1#5),
     (0x080AA02B#32, .feSet 21#5),
     (0x0A0C202B#32, .feClr 24#5),
     (0x0C01ADAB#32, .feTst 27#5 3#5),
     (0x10D32F2B#32, .promise 30#5 6#5 13#5),
     (0x1201202B#32, .unpromise 2#5),
     (0x1830202B#32, .fenceS .die),
     (0x0167B42B#32, .amoAddW 8#5 15#5 22#5),
     (0x039935AB#32, .amoAddD 11#5 18#5 25#5),
     (0x11CAB72B#32, .amoAndW 14#5 21#5 28#5),
     (0x13FC38AB#32, .amoAndD 17#5 24#5 31#5),
     (0x203DBA2B#32, .amoOrW 20#5 27#5 3#5),
     (0x226F3BAB#32, .amoOrD 23#5 30#5 6#5),
     (0x30913D2B#32, .amoXorW 26#5 2#5 9#5),
     (0x32C2BEAB#32, .amoXorD 29#5 5#5 12#5),
     (0x40F430AB#32, .amoMinW 1#5 8#5 15#5),
     (0x4325B22B#32, .amoMinD 4#5 11#5 18#5)] = true := by decide

theorem test_decode_words_8 :
    decodes [(0x515733AB#32, .amoMaxW 7#5 14#5 21#5),
     (0x5388B52B#32, .amoMaxD 10#5 17#5 24#5),
     (0x61BA36AB#32, .amoMinuW 13#5 20#5 27#5),
     (0x63EBB82B#32, .amoMinuD 16#5 23#5 30#5),
     (0x702D39AB#32, .amoMaxuW 19#5 26#5 2#5),
     (0x725EBB2B#32, .amoMaxuD 22#5 29#5 5#5),
     (0x8080BCAB#32, .amoSwapW 25#5 1#5 8#5),
     (0x82B23E2B#32, .amoSwapD 28#5 4#5 11#5),
     (0x90E3BFAB#32, .amoCasW 31#5 7#5 14#5),
     (0x931531AB#32, .amoCasD 3#5 10#5 17#5),
     (0x0006C32B#32, .ldmW 6#5 13#5),
     (0x020844AB#32, .ldmD 9#5 16#5),
     (0x0406402B#32, .migr 12#5),
     (0x0967C02B#32, .sdpW 15#5 22#5),
     (0x0B99402B#32, .sdpD 18#5 25#5),
     (0x1000402B#32, .cbf),
     (0x12004C2B#32, .rank 24#5),
     (0x140DC02B#32, .drain 27#5),
     (0x0000007B#32, .rlx 0x00033283#32)] = true := by decide

theorem test_decode_words_9 :
    decodes [(0x0003117B#32, .cmdw 2#3 6#3),
     (0x0202927B#32, .qpop 4#3 5#3),
     (0x0400147B#32, .qstat 8#5 0#3),
     (0x0609117B#32, .radv 2#3 18#5),
     (0x0807107B#32, .mesc 14#5),
     (0x0A00107B#32, .mereplay),
     (0x0C00107B#32, .meskip),
     (0x006F2BFB#32, .hbind 23#5 30#5 6#5),
     (0x022D207B#32, .hwait 26#5 .full),
     (0x040EA07B#32, .hdrain 29#5),
     (0x0600A07B#32, .hfree 1#5),
     (0x0805A27B#32, .hstat 4#5 11#5),
     (0x0A0020FB#32, .xtake 1#3),
     (0x9C55307B#32, .send 10#5 5#3 9#4 3#2),
     (0x006046FB#32, .recv 13#5 6#3),
     (0x0270487B#32, .peek 16#5 7#3),
     (0xEE00527B#32, .btag 0xB72#12),
     (0x042B407B#32, .cast 22#5 2#3),
     (0x061CC07B#32, .castsub 25#5 1#5)] = true := by decide

theorem test_decode_words_10 :
    decodes [(0x104E407B#32, .barInit 28#5 4#5),
     (0x120FC07B#32, .barReg 31#5),
     (0x1401C07B#32, .barArr 3#5),
     (0x16D3407B#32, .barWait 6#5 13#5),
     (0x180844FB#32, .barStat 9#5 16#5),
     (0x2136407B#32, .tlInit 12#5 19#5),
     (0x2367C07B#32, .tlAdd 15#5 22#5),
     (0x2599407B#32, .tlSet 18#5 25#5),
     (0x27CAC27B#32, .tlWait 21#5 28#5 4#5),
     (0x280FCC7B#32, .tlRd 24#5 31#5),
     (0x00A1AA5B#32, .vld 4#3 3#5 10#6 .keep 2#2),
     (0x04D32EDB#32, .vst 5#3 6#5 13#6 .keep 3#2),
     (0x0904935B#32, .vlds 6#3 9#5 16#5 .eight 0#2),
     (0x0D3617DB#32, .vsts 7#3 12#5 19#5 .eight 1#2),
     (0x107798DB#32, .vgat 1#3 15#5 7#3 .eight 2#2),
     (0x14191D5B#32, .vsca 2#3 18#5 1#3 .eight 3#2),
     (0x19CAA1DB#32, .vldD 3#3 21#5 28#6 .keep 0#2),
     (0x1DFC265B#32, .vstE 4#3 24#5 31#6 .keep 1#2),
     (0x200DAADB#32, .vmvx 5#3 27#5 2#3 2#2)] = true := by decide

theorem test_decode_words_11 :
    decodes [(0x240BAEDB#32, .vmxv 23#5 2#3 5#3 3#2),
     (0x29C481DB#32, .vbc .bf16 3#3 9#5 0#2),
     (0x41EE37DB#32, .vadd .bf16 (some 1#2) 7#3 3#3 6#3 1#2),
     (0x45F748DB#32, .vsub .bf16 (some 2#2) 1#3 4#3 7#3 2#2),
     (0x49F95D5B#32, .vmul .bf16 (some 3#2) 2#3 5#3 1#3 3#2),
     (0x4DE261DB#32, .vfma .bf16 (some 0#2) 3#3 6#3 2#3 0#2),
     (0x51EB765B#32, .vfms .bf16 (some 1#2) 4#3 7#3 3#3 1#2),
     (0x55F41ADB#32, .vmax .bf16 (some 2#2) 5#3 1#3 4#3 2#2),
     (0x59FD2F5B#32, .vmin .bf16 (some 3#2) 6#3 2#3 5#3 3#2),
     (0x5DE033DB#32, .vabs .bf16 (some 0#2) 7#3 3#3 0#2),
     (0x61E844DB#32, .vneg .bf16 (some 1#2) 1#3 4#3 1#2),
     (0x64352B5B#32, .vand (some 2#2) 6#3 2#3 5#3 2#2),
     (0x683E3FDB#32, .vor (some 3#2) 7#3 3#3 6#3 3#2),
     (0x6C2740DB#32, .vxor (some 0#2) 1#3 4#3 7#3 0#2),
     (0x7028555B#32, .vnot (some 1#2) 2#3 5#3 1#2),
     (0x74752B5B#32, .vsll .int32 (some 2#2) 6#3 2#3 5#3 2#2),
     (0x787E3FDB#32, .vsrl .int32 (some 3#2) 7#3 3#3 6#3 3#2),
     (0x7C6740DB#32, .vsra .int32 (some 0#2) 1#3 4#3 7#3 0#2),
     (0x81E955DB#32, .vcmpEq .bf16 (some 1#2) 3#2 5#3 1#3 1#2)] = true := by decide

theorem test_decode_words_12 :
    decodes [(0x85F268DB#32, .vcmpLt .bf16 (some 2#2) 1#2 6#3 2#3 2#2),
     (0x89FB7D5B#32, .vcmpLe .bf16 (some 3#2) 2#2 7#3 3#3 3#2),
     (0x8DF412DB#32, .vsel .bf16 2#2 5#3 1#3 4#3 0#2),
     (0x91E8275B#32, .vredAdd .bf16 (some 1#2) 6#3 2#3 1#2),
     (0x95F03BDB#32, .vredMax .bf16 (some 2#2) 7#3 3#3 2#2),
     (0x99F84CDB#32, .vredMin .bf16 (some 3#2) 1#3 4#3 3#2),
     (0x9DE0515B#32, .vscan .bf16 (some 0#2) 2#3 5#3 0#2),
     (0xA1EA65DB#32, .vperm .bf16 (some 1#2) 3#3 6#3 2#3 1#2),
     (0xB1D33BDB#32, .vcvt .bf16 .fp32 .rdn 7#3 3#3 2#2),
     (0xB53C1EDB#32, .vq .uint8 (some 3#2) 5#3 1#3 4#3 3#2),
     (0xB925235B#32, .vdq .uint8 (some 0#2) 6#3 2#3 5#3 0#2),
     (0xC1E837DB#32, .vexp2 .bf16 (some 1#2) 7#3 3#3 1#2),
     (0xC5F048DB#32, .vrcp .bf16 (some 2#2) 1#3 4#3 2#2),
     (0xC9F85D5B#32, .vrsq .bf16 (some 3#2) 2#3 5#3 3#2),
     (0xCDE061DB#32, .vsig .bf16 (some 0#2) 3#3 6#3 0#2),
     (0xD1E8765B#32, .vtanh .bf16 (some 1#2) 4#3 7#3 1#2),
     (0xE00219DB#32, .kand 3#2 1#2 2#2 2#2),
     (0xE4032CDB#32, .kor 1#2 2#2 3#2 3#2),
     (0xE800315B#32, .knot 2#2 3#2 0#2)] = true := by decide

theorem test_decode_words_13 :
    decodes [(0xEC0015DB#32, .kmv 3#2 1#2 1#2)] = true := by decide

/-! ## Well-formedness: each check refuses an ill-formed instruction and accepts its neighbour (R84, R86, R280) -/

theorem test_wf_cmdw_queue : (Instr.cmdw 1#3 1#3).wf = false ∧ (Instr.cmdw 2#3 1#3).wf = true := by decide

theorem test_wf_qpop_queue : (Instr.qpop 1#3 0#3).wf = false ∧ (Instr.qpop 1#3 5#3).wf = true := by decide

theorem test_wf_qstat_queue :
    (Instr.qstat 1#5 6#3).wf = false ∧ (Instr.qstat 1#5 7#3).wf = false ∧ (Instr.qstat 1#5 5#3).wf = true := by decide

theorem test_wf_send_tag : (Instr.send 1#5 1#3 15#4 0#2).wf = false ∧ (Instr.send 1#5 1#3 14#4 0#2).wf = true := by decide

theorem test_wf_arith_format :
    (Instr.vadd .int4 none 1#3 2#3 3#3 0#2).wf = false ∧ (Instr.vadd .uint8 none 1#3 2#3 3#3 0#2).wf = true := by decide

theorem test_wf_float_format :
    (Instr.vfma .int32 none 1#3 2#3 3#3 0#2).wf = false ∧ (Instr.vfma .fp16 none 1#3 2#3 3#3 0#2).wf = true := by decide

theorem test_wf_shift_format :
    (Instr.vsll .fp32 none 1#3 2#3 3#3 0#2).wf = false ∧ (Instr.vsll .uint8 none 1#3 2#3 3#3 0#2).wf = true := by decide

theorem test_wf_arithmetic_shift_format :
    (Instr.vsra .uint8 none 1#3 2#3 3#3 0#2).wf = false ∧ (Instr.vsra .int8 none 1#3 2#3 3#3 0#2).wf = true := by decide

theorem test_wf_code_format :
    (Instr.vq .int8 none 1#3 2#3 3#3 0#2).wf = false ∧ (Instr.vq .int4 none 1#3 2#3 3#3 0#2).wf = true := by decide

/-! ## Words that the decoder refuses, by the reason -/

/-- The all-zero word (R63). -/
theorem test_refuse_compressed : decode 0#32 0#32 = .error .compressed := by decide

/-- Major opcode 00001 (R64). -/
theorem test_refuse_opcode : decode 0x00000007#32 0#32 = .error .opcode := by decide

/-- A load with funct3 111 (R65). -/
theorem test_refuse_funct : decode 0x00007003#32 0#32 = .error .funct := by decide

/-- `clz x10, x11` with rs2 1 (R68). -/
theorem test_refuse_field : decode 0x0815850B#32 0#32 = .error .field := by decide

/-- `vadd` with fmt 0x5 (R280). -/
theorem test_refuse_format : decode 0x414320DB#32 0#32 = .error .format := by decide

/-- `cmdw q1, v1` (R84). -/
theorem test_refuse_queue : decode 0x000090FB#32 0#32 = .error .queue := by decide

/-- `send` with tag 15 (R86). -/
theorem test_refuse_tag : decode 0xF435307B#32 0#32 = .error .tag := by decide

/-! ## Witnesses: for each obligation with hypotheses, concrete states and operands that meet them -/

/-- What the witness thread starts from (R158). -/
def seed : Seed :=
  { pc := 0x100000000400#64, arg := 0x77#64, group := 1, launch := 1#32, index := 0#32, job := 9#32, cbase := 0#64
    clim := 0#64, dline := 0#64 }

/-- A started thread. -/
def fresh : Thread := Thread.atStart seed 1#12 0

/-- The witness thread: x5 = 0x140 (tainted), x6 = -3, x7 = 5, x8 an address of core 2's scratchpad, x9 the least odd
negative number, x10 = 0x141, x11 = -1, x12 an address above the map, x13 the last dword of the own window. -/
def th : Thread :=
  { fresh with
    x := ((((((((fresh.x.set 5 0x140#64).set 6 0xFFFFFFFFFFFFFFFD#64).set 7 5#64).set 8 0x10000100040#64).set 9
      0x8000000000000001#64).set 10 0x141#64).set 11 0xFFFFFFFFFFFFFFFF#64).set 12 0x200000000000#64).set 13 0x7FFF8#64
    evec := 0x100000001000#64, taint := 0x20#32, pw := 0xF3#64, synclim := 0x33#64 }

/-- Slot 1 of core 1 holds `t` and performs at cycle 100; nothing else is in the module. -/
def one (t : Thread) : State := { State.reset with cur := .slot 17#16, threads := [(17, t)], time := 100 }

/-- The witness state. -/
def plain : State := one th

/-- The witness thread inside a handler. -/
def inHand : Thread := { th with inHandler := true, epc := 0x1234#64, ecause := 5#64, eval := 7#64, epw := 9#64 }

/-- The witness thread halting at traps (STEPCTL.TRAPH, R407). -/
def traph : Thread := { th with stepctl := 1#64 <<< 61 }

/-- The witness thread as an attached member of a gang of one stream, with another member in slot 1 of core 2. -/
def ganged : State :=
  let t := { th with gang := some { stream := 1, attached := true, pos := 0 } }
  { plain with
    threads := [(17, t), (33, t)]
    clusters := [(0, { Cluster.reset with streams := [(1, { base := 0, path := [th.pc], joins := [] })] })] }

/-- The first address of core 1's scratchpad. -/
def own : Nat := 0x10000080000

/-- The witness state with three dwords in core 1's scratchpad. -/
def stored : State :=
  { plain with mem := writeBytes (writeBytes (writeBytes [] (own + 0x140) 8 0x8877665544332211) (own + 0x148) 8
      0xF1F2F3F4F5F6F7F8) (own + 0x7FFF8) 8 0xABCD }

theorem performs {s : State} {t : Thread} (hc : s.cur = .slot 17#16) (ht : s.thread? 17 = some t)
    (hm : Mem.wf s.mem = true) (hs : assocSorted s.threads = true) (hl : t.run = .live) (hw : t.wait = none) :
    Performs s 17#16 t := ⟨⟨hm, hs⟩, hc, ht, hl, hw⟩

theorem performs_one (t : Thread) (hl : t.run = .live) (hw : t.wait = none) : Performs (one t) 17#16 t :=
  performs rfl rfl rfl rfl hl hw

theorem performs_plain : Performs plain 17#16 th := performs_one th rfl rfl

theorem performs_stored : Performs stored 17#16 th := performs rfl rfl (by decide) rfl rfl rfl

/-- What holds of the value holds of whatever the option holds. -/
theorem onlySome {α : Type} {o : Option α} {x : α} {P : α → Prop} (h : o = some x) (p : P x) : ∀ e, o = some e → P e :=
  fun _ he => Option.some.inj (h.symm.trans he) ▸ p

/-- An empty option holds nothing. -/
theorem noneSome {α : Type} {o : Option α} {P : α → Prop} (h : o = none) : ∀ e, o = some e → P e :=
  fun _ he => absurd (h.symm.trans he) (Option.some_ne_none _).symm

/-! ## Single steps: values worked by hand from the spec -/

/-- The witness thread after one instruction. -/
def after (i : Instr) (s : State) : Option Thread := match exec i s with
  | .next u => u.thread? 17
  | _ => none

/-- Memory after one instruction. -/
def memAfter (i : Instr) (s : State) : Mem := match exec i s with
  | .next u => u.mem
  | _ => []

/-- -1 + 1 wraps to 0, and the PC moves on (R136). -/
theorem test_addi_wraps : (after (.addi 7#5 11#5 1#12) plain).map (fun t => (t.reg 7#5, t.pc)) = some (0#64, 0x100000000404#64) := by
  decide

/-- x0 discards a write. -/
theorem test_addi_x0 : (after (.addi 0#5 11#5 5#12) plain).map (·.reg 0#5) = some 0#64 := by decide

/-- A division by zero gives all ones, its remainder the dividend (R136). -/
theorem test_div_by_zero : (after (.div 7#5 6#5 0#5) plain).map (·.reg 7#5) = some 0xFFFFFFFFFFFFFFFF#64 ∧
    (after (.rem 7#5 6#5 0#5) plain).map (·.reg 7#5) = some 0xFFFFFFFFFFFFFFFD#64 := by decide

/-- -3 shifted right by one, with its sign. -/
theorem test_srai_sign : (after (.srai 7#5 6#5 1#6) plain).map (·.reg 7#5) = some 0xFFFFFFFFFFFFFFFE#64 := by decide

/-- 2^31 sign-extends from 32 bits. -/
theorem test_lui_sign : (after (.lui 7#5 0x80000#20) plain).map (·.reg 7#5) = some 0xFFFFFFFF80000000#64 := by decide

/-- Byte 7 of 0x8877665544332211 is 0x88, sign-extended; its second halfword is 0x4433 (R205). -/
theorem test_loads_little_endian : (after (.lb 7#5 5#5 7#12) stored).map (·.reg 7#5) = some 0xFFFFFFFFFFFFFF88#64 ∧
    (after (.lhu 7#5 5#5 2#12) stored).map (·.reg 7#5) = some 0x4433#64 := by decide +kernel

/-- A halfword 0x0001 replaces the two low bytes. -/
theorem test_sh_two_bytes : readBytes (memAfter (.sh 5#5 9#5 0#12) stored) (own + 0x140) 8 = 0x8877665544330001 := by decide

/-- ECALL enters the handler at EVEC and saves its own PC (R139). -/
theorem test_ecall_traps : (after .ecall plain).map (fun t => (t.pc, t.epc, t.inHandler)) =
    some (0x100000001000#64, 0x100000000400#64, true) := by decide

/-- A byte in every lane. -/
def bytes (b : BitVec 8) : VWord := BitVec.replicate 64 b

/-- A halfword in every lane. -/
def halves (h : BitVec 16) : VWord := BitVec.replicate 32 h

/-- The witness thread with a vector of -128 bytes and one of 300 halfwords. -/
def vectored : Thread :=
  { th with v := ((Vector.replicate 8 0#512).set 1 (bytes 0x80#8)).set 2 (halves 300#16) }

/-- The result on its way to a vector register: its destination, value and flags. -/
def result (i : Instr) : Option (List (BitVec 4 × VWord × BitVec 6)) :=
  (after i (one vectored)).map fun t => t.vres.map fun r => (r.dest, r.value, r.flags)

/-- `vabs.int8` of -128 is 127 with SAT (R286). -/
theorem test_vabs_saturates : result (.vabs .int8 none 3#3 1#3 0#2) = some [(3#4, bytes 0x7F#8, 0x20#6)] := by
  decide +kernel

/-- SHA-512 of the bytes of `abc`, the first example of FIPS 180-4 (R431). -/
theorem test_sha512_abc : bytes64 (sha512 [0x61#8, 0x62#8, 0x63#8]) = toBigEndian 64
    0xDDAF35A193617ABACC417349AE20413112E6FA4E89A97EA20A9EEEE64B55D39A2192992A274FC1A836BA3C23A3FEEBBD454D4423643CE80E2A9AC94FA54CA49F := by
  decide +kernel

/-- `vmul.int16` of 300 by 300 is 32767 with SAT (R286). -/
theorem test_vmul_saturates : result (.vmul .int16 none 3#3 2#3 2#3 0#2) =
    some [(3#4, halves 0x7FFF#16, 0x20#6)] := by decide +kernel

/-! ### Scalar instructions -/

/-- A tainted source and one that is not. -/
theorem witness_ImmediateArithmetic : Performs plain 17#16 th ∧ th.tainted 5#5 = true ∧ th.tainted 6#5 = false :=
  ⟨performs_plain, by decide, by decide⟩

theorem witness_UpperImmediates : Performs plain 17#16 th := performs_plain

theorem witness_RegisterArithmetic : Performs plain 17#16 th ∧ th.tainted 5#5 = true ∧ th.tainted 6#5 = false :=
  ⟨performs_plain, by decide, by decide⟩

/-- A negative first source, and a source whose low 32 bits alone are the operand. -/
theorem witness_WordFormArithmetic : Performs plain 17#16 th ∧ (th.reg 6#5).toInt = -3 ∧
    ((th.reg 9#5).setWidth 32 : BitVec 32) = 1#32 := ⟨performs_plain, by decide, by decide⟩

/-- A zero divisor, a positive one, and the division of the most negative number by -1. -/
theorem witness_DivideAndRemainder : Performs plain 17#16 th ∧ (th.reg 0#5).toInt = 0 ∧ (th.reg 7#5).toInt = 5 ∧
    (th.reg 11#5).toInt = -1 := ⟨performs_plain, by decide, by decide, by decide⟩

theorem witness_ScalarExtras : Performs plain 17#16 th ∧ th.pred 0#6 = true ∧ th.pred 63#6 = false :=
  ⟨performs_plain, by decide, by decide⟩

theorem witness_PredicateSets : Performs plain 17#16 th ∧ (th.reg 6#5).toInt < (th.reg 7#5).toInt ∧
    ¬ (th.reg 6#5).toNat < (th.reg 7#5).toNat := ⟨performs_plain, by decide, by decide⟩

/-- A taken branch to an aligned target, a taken one to a misaligned target, and one that is not taken. -/
theorem witness_Branches : Performs plain 17#16 th ∧
    (th.reg 6#5 ≠ th.reg 7#5 ∧ (th.pc + 2#64 * (0x800#12).signExtend 64).toNat % 4 = 0) ∧
    (th.reg 6#5 ≠ th.reg 7#5 ∧ (th.pc + 2#64 * (0x001#12).signExtend 64).toNat % 4 ≠ 0) ∧
    ¬ th.reg 5#5 ≠ th.reg 5#5 :=
  ⟨performs_plain, ⟨by decide, by decide⟩, ⟨by decide, by decide⟩, by decide⟩

/-- A jump to an aligned target and one to a misaligned target. -/
theorem witness_JumpsAndLinks : Performs plain 17#16 th ∧
    (th.pc + 2#64 * (0x80000#20).signExtend 64).toNat % 4 = 0 ∧
    ((th.reg 10#5 + (0x001#12).signExtend 64) &&& ~~~1#64).toNat % 4 ≠ 0 :=
  ⟨performs_plain, by decide, by decide⟩

/-- A thread outside a handler, one inside, and one that halts at a trap. -/
theorem witness_PreciseTraps : (Performs plain 17#16 th ∧ th.inHandler = false ∧ th.stepctl.getLsbD 61 = false) ∧
    (Performs (one inHand) 17#16 inHand ∧ inHand.inHandler = true) ∧
    (Performs (one traph) 17#16 traph ∧ traph.stepctl.getLsbD 61 = true) :=
  ⟨⟨performs_plain, rfl, by decide⟩, ⟨performs_one _ rfl rfl, rfl⟩, performs_one _ rfl rfl, by decide⟩

theorem witness_TrapReturn : Performs (one inHand) 17#16 inHand ∧ inHand.inHandler = true :=
  ⟨performs_one _ rfl rfl, rfl⟩

theorem witness_RootHalts : Performs plain 17#16 th ∧
    ((Instr.ebreak, Reason.ebreak, th.pc + 4#64, 1#64) = (Instr.ebreak, Reason.ebreak, th.pc + 4#64, 1#64)) ∧
    ((Instr.halt, Reason.halt, th.pc, 0#64) = (Instr.halt, Reason.halt, th.pc, 0#64)) := ⟨performs_plain, rfl, rfl⟩

/-- A member of a gang performs as well. -/
theorem witness_Performs_gang : Performs ganged 17#16 { th with gang := some { stream := 1, attached := true, pos := 0 } } :=
  performs rfl rfl rfl (by decide) rfl rfl

/-! ### Control and status registers -/

/-- A register of the list, VFLAGS among them with no result pending; sources that are zero and not zero. -/
theorem witness_SlotCsrAccess : Performs plain 17#16 th ∧ (0x800#12, ~~~3#64) ∈ Claims.slotCsrs ∧
    (0x805#12, 0x3F#64) ∈ Claims.slotCsrs ∧ th.vres = [] ∧ th.reg 0#5 = 0#64 ∧ th.reg 5#5 ≠ 0#64 :=
  ⟨performs_plain, by decide, by decide, rfl, by decide, by decide⟩

/-- Numbers outside the map at the edges of its gaps; a read-only register, STEPCTL, and SLOTCFG in slot 1; a source that
is not zero. -/
theorem witness_CsrRefusals : Performs plain 17#16 th ∧ ¬ Claims.presentCsr (0x80B#12).toNat ∧
    ¬ Claims.presentCsr (0x817#12).toNat ∧ ¬ Claims.presentCsr (0xCE0#12).toNat ∧ 0xC00 ≤ (0xC00#12).toNat ∧
    (0x810#12 = 0x810#12 ∧ (17#16).toNat % 16 ≠ 0) ∧ th.reg 5#5 ≠ 0#64 ∧ 31#5 ≠ 0#5 :=
  ⟨performs_plain, by unfold Claims.presentCsr; decide, by unfold Claims.presentCsr; decide,
    by unfold Claims.presentCsr; decide, by decide, ⟨rfl, by decide⟩, by decide, by decide⟩

theorem witness_CounterReads : Performs plain 17#16 th ∧ th.lastTime ≤ plain.time ∧ plain.replayIn = [] ∧
    plain.logged th = false := ⟨performs_plain, by decide, rfl, by decide⟩

/-- A deadline that has passed at once and one that lies ahead; a write that arms and one that disarms. -/
theorem witness_DeadlineSetAndClear : Performs plain 17#16 th ∧
    ((th.reg 0#5).setWidth 63).toNat ≤ plain.time / 1250 ∧ ¬ ((th.reg 5#5).setWidth 63).toNat ≤ plain.time / 1250 ∧
    plain.thread? (17#16).toNat = some th ∧ (0x8000000000000000#64).getLsbD 63 = true ∧
    ((0x8000000000000000#64).setWidth 63).toNat ≤ plain.time / 1250 :=
  ⟨performs_plain, by decide, by decide, rfl, by decide, by decide⟩

/-- The matrix command `mma` of ring 2, pushed by slot 0 of core 1. -/
def ringCmd : Cmd :=
  { word := BitVec.ofNat 256 (1 + 2 * 2 ^ 72), word1 := 0#256, two := false, tid := 16#16, gtid := 16#22, group := 1
    job := 9#32, seq := 0#64, ready := 0, who := .gone, obj := none }

/-- A core with the fields that the register clauses ask for: contexts held (ARRSPILL.OCC), records in the inbox, a
matrix command in q0 that names ring 2. -/
def regCore : Core :=
  { Core.reset with arrspill := 0x0005000000000000#64, inboxs := 0x0000000300000040#64, q0 := [ringCmd] }

/-- A core with contexts in its spill ring, and one without. -/
theorem witness_CoreRegisterWrites : regCore.arrspill.extractLsb' 48 9 ≠ 0#9 ∧
    (plain.core 1).arrspill.extractLsb' 48 9 = 0#9 := ⟨by decide, by decide⟩

/-- A core whose slot 15 is occupied, and an idle one. -/
theorem witness_SlotcfgModeAndXfer :
    ({ plain with threads := [(31, th)] }).thread? (1 * 16 + 15) ≠ none ∧
    ¬ (plain.thread? (1 * 16 + 15) ≠ none ∨ (plain.core 1).q4 ≠ [] ∨ (plain.core 1).copies ≠ [] ∨
      ∃ m, some m ∈ (plain.core 1).q2.toList) :=
  ⟨Option.some_ne_none _, by
    rintro (h | h | h | ⟨m, hm⟩)
    · exact h rfl
    · exact h rfl
    · exact h rfl
    · simp [plain, one, State.core, State.unlisted, State.reset, Core.reset] at hm⟩

/-- An inbox that holds records, and an empty one that is given another base. -/
theorem witness_InboxConfiguration : regCore.inboxs.extractLsb' 32 16 ≠ 0#16 ∧
    (plain.core 1).inboxs.extractLsb' 32 16 = 0#16 ∧
    (0x100#64).extractLsb' 4 15 ≠ (plain.core 1).inboxb.extractLsb' 4 15 := ⟨by decide, by decide, by decide⟩

/-- A ring that a matrix command names, and one that none names. -/
theorem witness_RingRegisterWrites :
    (∃ x ∈ regCore.q0, x.word.toNat % 256 ∈ [1, 2, 3] ∧ (x.word.extractLsb' 72 3 = 2#3 ∨ x.word.extractLsb' 80 3 = 2#3)) ∧
    ¬ ∃ x ∈ (plain.core 1).q0, x.word.toNat % 256 ∈ [1, 2, 3] ∧
      (x.word.extractLsb' 72 3 = 2#3 ∨ x.word.extractLsb' 80 3 = 2#3) :=
  ⟨⟨ringCmd, List.mem_singleton.2 rfl, by decide, by decide⟩, fun ⟨_, h, _⟩ => absurd h List.not_mem_nil⟩

/-- A halted thread and one that is not; the last register of a slot and the first that is read only. -/
theorem witness_HouseCsrWrites : plain.thread? (17#16).toNat = some th ∧ th.run = .live ∧
    { th with run := .root }.run ≠ .live ∧ 0x800 ≤ (0x80A#12).toNat ∧ (0x80A#12).toNat ≤ 0x80A ∧ 0xC00 ≤ (0xC00#12).toNat ∧
    th.vres = [] :=
  ⟨rfl, rfl, by decide, by decide, by decide, by decide, rfl⟩

/-! ### Memory, synchronisation, atomics -/

/-- A core that is not listed has the fields of reset that no start sets. -/
theorem unlisted {s : State} {c : Nat} : (s.unlisted c).cb = [] ∧ (s.unlisted c).lost = false ∧ (s.unlisted c).signals = [] ∧
    (s.unlisted c).castQ = [] := by
  unfold State.unlisted
  split <;> exact ⟨rfl, rfl, rfl, rfl⟩

theorem settled {s : State} {t : Thread} (hp : s.packets = []) (hc : s.cores = []) (ha : t.ackAt ≤ s.time)
    (hr : t.relAcks = [] := by rfl) : Claims.Settled s 17#16 t where
  packets := by simp [State.packetsOf, hp]
  combining := by simp [State.core, hc, unlisted]
  acked := ha
  relaxed := by simp [hr]

theorem sound {s : State} {a n : Nat} (hc : s.cores = []) (hm : s.memErr a n = false) : Claims.Sound s 17#16 a n where
  core := by simp [State.core, hc, unlisted]
  checks := hm

theorem settled_stored : Claims.Settled stored 17#16 th := settled rfl rfl (by decide)

/-- A load of the own window at its last dword, and one of a byte. -/
theorem witness_LocalLoads : Performs stored 17#16 th ∧ Claims.Settled stored 17#16 th ∧
    ((Instr.ld 1#5 13#5 0#12, 8, true, false) ∈ Claims.loads 1#5 13#5 0#12 ∧
      (th.reg 13#5 + (0#12).signExtend 64).toNat < 0x80000 ∧ (th.reg 13#5 + (0#12).signExtend 64).toNat % 8 = 0 ∧
      Claims.Sound stored 17#16 (0x10000000000 + (17#16).toNat / 16 * 0x80000 + (th.reg 13#5 + (0#12).signExtend 64).toNat) 8) ∧
    ((Instr.lb 1#5 10#5 0xFFF#12, 1, true, false) ∈ Claims.loads 1#5 10#5 0xFFF#12 ∧
      (th.reg 10#5 + (0xFFF#12).signExtend 64).toNat < 0x80000 ∧ (th.reg 10#5 + (0xFFF#12).signExtend 64).toNat % 1 = 0 ∧
      Claims.Sound stored 17#16
        (0x10000000000 + (17#16).toNat / 16 * 0x80000 + (th.reg 10#5 + (0xFFF#12).signExtend 64).toNat) 1) :=
  ⟨performs_stored, settled_stored, ⟨by decide, by decide, by decide, sound rfl (by decide)⟩, by decide, by decide,
    by decide, sound rfl (by decide)⟩

theorem witness_LocalStores : Performs stored 17#16 th ∧ Claims.Settled stored 17#16 th ∧
    (Instr.sd 13#5 9#5 0#12, 8) ∈ Claims.stores 13#5 9#5 0#12 ∧ (th.reg 13#5 + (0#12).signExtend 64).toNat < 0x80000 ∧
    (th.reg 13#5 + (0#12).signExtend 64).toNat % 8 = 0 ∧
    Claims.Sound stored 17#16 (0x10000000000 + (17#16).toNat / 16 * 0x80000 + (th.reg 13#5 + (0#12).signExtend 64).toNat) 8 ∧
    stored.hitsInbox (0x10000000000 + (17#16).toNat / 16 * 0x80000 + (th.reg 13#5 + (0#12).signExtend 64).toNat) 8 = false :=
  ⟨performs_stored, settled_stored, by decide, by decide, by decide, sound rfl (by decide), by decide⟩

theorem witness_LocalAtomics : Performs stored 17#16 th ∧ Claims.Settled stored 17#16 th ∧
    (Instr.amoAddD 1#5 5#5 7#5, AmoOp.add, 8) ∈ Claims.atomics 1#5 5#5 7#5 ∧ (th.reg 5#5).toNat < 0x80000 ∧
    (th.reg 5#5).toNat % 8 = 0 ∧
    Claims.Sound stored 17#16 (0x10000000000 + (17#16).toNat / 16 * 0x80000 + (th.reg 5#5).toNat) 8 ∧
    stored.hitsInbox (0x10000000000 + (17#16).toNat / 16 * 0x80000 + (th.reg 5#5).toNat) 8 = false :=
  ⟨performs_stored, settled_stored, by decide, by decide, by decide, sound rfl (by decide), by decide⟩

/-- The stored state with an uncorrectable granule at 0x140. -/
def badGranule : State := { stored with eccBad := [(own + 0x140) / 16] }

/-- The stored state with an enabled inbox at 0x100 of core 1, whose ring takes in 0x140. -/
def withInbox : State := { stored with cores := [(1, { Core.reset with inboxs := 0x40#64, inboxb := 0x100#64 })] }

/-- A misaligned address; one above the map at its first value; one in the ring of an enabled inbox; one in an
uncorrectable granule. -/
theorem witness_AccessTraps : Performs stored 17#16 th ∧ (th.reg 10#5 + (0#12).signExtend 64).toNat % 8 ≠ 0 ∧
    ((th.reg 12#5 + (0#12).signExtend 64).toNat % 8 = 0 ∧ 0x200000000000 ≤ (th.reg 12#5 + (0#12).signExtend 64).toNat ∧
      (th.reg 12#5 + (0#12).signExtend 64).toNat < 2 ^ 62) ∧
    (Performs withInbox 17#16 th ∧ (th.reg 5#5).toNat % 8 = 0 ∧ (th.reg 5#5).toNat < 0x80000 ∧
      withInbox.hitsInbox (0x10000000000 + (17#16).toNat / 16 * 0x80000 + (th.reg 5#5).toNat) 8 = true) ∧
    (Performs badGranule 17#16 th ∧ Claims.Settled badGranule 17#16 th ∧
      (true && badGranule.hitsInbox (0x10000000000 + (17#16).toNat / 16 * 0x80000 + (th.reg 5#5).toNat) 8) = false ∧
      (badGranule.core ((17#16).toNat / 16)).lost = false ∧
      badGranule.memErr (0x10000000000 + (17#16).toNat / 16 * 0x80000 + (th.reg 5#5).toNat) 8 = true) :=
  ⟨performs_stored, by decide, ⟨by decide, by decide, by decide⟩,
    ⟨performs rfl rfl (by decide) rfl rfl rfl, by decide, by decide, by decide⟩,
    performs rfl rfl (by decide) rfl rfl rfl, settled rfl rfl (by decide), by decide, by decide, by decide⟩

/-- A load, a store and an atomic at an address of core 2's scratchpad. -/
theorem witness_SharedAccesses : Performs stored 17#16 th ∧ Claims.Settled stored 17#16 th ∧
    (Instr.ld 1#5 8#5 0#12, 8, true, false) ∈ Claims.loads 1#5 8#5 0#12 ∧
    (Instr.sd 8#5 7#5 0#12, 8) ∈ Claims.stores 8#5 7#5 0#12 ∧
    (Instr.amoAddD 1#5 8#5 7#5, AmoOp.add, 8) ∈ Claims.atomics 1#5 8#5 7#5 ∧
    (th.reg 8#5 + (0#12).signExtend 64).toNat % 8 = 0 ∧ 0x10000000000 ≤ (th.reg 8#5 + (0#12).signExtend 64).toNat ∧
    (th.reg 8#5 + (0#12).signExtend 64).toNat < 0x10080000000 ∧
    (stored.core (((th.reg 8#5 + (0#12).signExtend 64).toNat - 0x10000000000) / 0x80000)).lost = false ∧
    stored.hitsInbox (th.reg 8#5 + (0#12).signExtend 64).toNat 8 = false :=
  ⟨performs_stored, settled_stored, by decide, by decide, by decide, by decide, by decide, by decide, by decide, by decide⟩

/-- A packet of the witness thread to core 2's scratchpad. -/
def pkt (id : Nat) (c : AccClass) (a : Access) : Packet :=
  { id := id, tid := 17#16, core := 1#12, group := 1, pc := 0#64, addr := 0x10000100040, acc := a, cls := c, ordered := false
    escape := false, units := 1, start := 0, issued := 0, total := 1, sent := false, parked := false, order := 0, held := false
    retry := false, part := 0, data := 0#512, evals := [], failAt := 0, reply := none, fail := none }

/-- Nothing outstanding; and a relaxed load outstanding. -/
theorem witness_Fences : (Performs plain 17#16 th ∧ Claims.Settled plain 17#16 th) ∧
    (Performs { plain with packets := [pkt 3 .relaxed (.load 1#5 8 true false)] } 17#16 th ∧
      pkt 3 .relaxed (.load 1#5 8 true false) ∈
        ({ plain with packets := [pkt 3 .relaxed (.load 1#5 8 true false)] }).packetsOf (17#16).toNat ∧
      (pkt 3 .relaxed (.load 1#5 8 true false)).cls = .relaxed ∧
      (pkt 3 .relaxed (.load 1#5 8 true false)).acc.isLoad = true) :=
  ⟨⟨performs_plain, settled rfl rfl (by decide)⟩, performs rfl rfl rfl rfl rfl rfl, by decide +kernel, rfl, rfl⟩

/-- A state whose only thread is `t`, without packets, signals or combining entries, leaves it alone. -/
theorem alone {s : State} {t : Thread} (ht : s.threads = [(17, t)]) (hl : t.run = .live) (hw : t.wait = none)
    (hp : s.packets = []) (hc : s.cores = []) : Claims.Alone s 17#16 where
  threads k p h := by
    simp only [State.thread?, ht, assocGet] at h
    split at h
    · cases h; exact ⟨hw, hl⟩
    · cases h
  packets := hp
  signals := by simp [State.core, hc, unlisted]
  combining := by simp [State.core, hc, unlisted]

/-- The stored state with the granule at 0x140 full. -/
def oneFull : State := { stored with full := [(own + 0x140) / 16] }

theorem performs_oneFull : Performs oneFull 17#16 th := performs rfl rfl (by decide) rfl rfl rfl

/-- A full granule, and an empty one. -/
theorem witness_SynchronisingServed : Performs oneFull 17#16 th ∧ Claims.Alone oneFull 17#16 ∧ th.ackAt ≤ oneFull.time ∧
    ((th.reg 5#5).toNat < 0x80000 ∧ (th.reg 5#5).toNat % 8 = 0 ∧
      Claims.Sound oneFull 17#16 ((0x10000000000 + (17#16).toNat / 16 * 0x80000 + (th.reg 5#5).toNat) / 16 * 16) 16 ∧
      oneFull.hitsInbox (0x10000000000 + (17#16).toNat / 16 * 0x80000 + (th.reg 5#5).toNat) 8 = false ∧
      (0x10000000000 + (17#16).toNat / 16 * 0x80000 + (th.reg 5#5).toNat) / 16 ∈ oneFull.full) ∧
    ((th.reg 13#5).toNat < 0x80000 ∧ (th.reg 13#5).toNat % 8 = 0 ∧
      Claims.Sound oneFull 17#16 ((0x10000000000 + (17#16).toNat / 16 * 0x80000 + (th.reg 13#5).toNat) / 16 * 16) 16 ∧
      oneFull.hitsInbox (0x10000000000 + (17#16).toNat / 16 * 0x80000 + (th.reg 13#5).toNat) 8 = false ∧
      (0x10000000000 + (17#16).toNat / 16 * 0x80000 + (th.reg 13#5).toNat) / 16 ∉ oneFull.full) :=
  ⟨performs_oneFull, alone rfl rfl rfl rfl rfl, by decide,
    ⟨by decide, by decide, sound rfl (by decide), by decide, by decide⟩,
    by decide, by decide, sound rfl (by decide), by decide, by decide⟩

/-- The same two granules, with what the waits ask for besides. -/
theorem witness_SynchronisingWaits : th.latchCnt = none ∧ (∀ n, (oneFull.cluster n).withheld = []) ∧
    oneFull.q0Gated ((17#16).toNat / 16) = none ∧ (oneFull.core ((17#16).toNat / 16)).copies = [] :=
  ⟨rfl, fun _ => rfl, by decide, rfl⟩

theorem witness_FullEmptyOperations : Performs oneFull 17#16 th ∧ Claims.Alone oneFull 17#16 ∧ th.ackAt ≤ oneFull.time ∧
    (th.reg 5#5).toNat < 0x80000 ∧
    Claims.Sound oneFull 17#16 (0x10000000000 + (17#16).toNat / 16 * 0x80000 + (th.reg 5#5).toNat) 1 :=
  ⟨performs_oneFull, alone rfl rfl rfl rfl rfl, by decide, by decide, sound rfl (by decide)⟩

/-- The witness thread with a table that holds the granule at 0x140 in entry 1 and has entry 0 free; and one whose table
is full. -/
def promised : Thread := { th with promises := th.promises.set 1 (some (.granule ((own + 0x140) / 16))) }

/-- A thread whose promise table holds eight tags. -/
def promisedFull : Thread :=
  { th with promises := Vector.ofFn fun i : Fin 8 => some (.tag 5#22 (BitVec.ofNat 4 i)) }

/-- An object that the table holds, one that it does not hold with a free entry, a full table, and a descriptor of another
kind. -/
theorem witness_Promises :
    (Performs (one promised) 17#16 promised ∧
      Claims.names 17#16 (promised.reg 0#5) (promised.reg 5#5) (.granule ((own + 0x140) / 16)) ∧
      promised.promises[(1 : Fin 8)] = some (.granule ((own + 0x140) / 16)) ∧
      (∀ j : Fin 8, j < 1 → promised.promises[j] ≠ some (.granule ((own + 0x140) / 16)))) ∧
    (Claims.names 17#16 (promised.reg 0#5) (promised.reg 0#5) (.granule (own / 16)) ∧
      (∀ j : Fin 8, promised.promises[j] ≠ some (.granule (own / 16))) ∧
      promised.promises[(0 : Fin 8)] = none ∧ ∀ j : Fin 8, j < 0 → promised.promises[j] ≠ none) ∧
    (Performs (one promisedFull) 17#16 promisedFull ∧
      Claims.names 17#16 (promisedFull.reg 0#5) (promisedFull.reg 5#5) (.granule ((own + 0x140) / 16)) ∧
      (∀ j : Fin 8, promisedFull.promises[j] ≠ some (.granule ((own + 0x140) / 16))) ∧
      ∀ i : Fin 8, promisedFull.promises[i] ≠ none) ∧
    4 ≤ (th.reg 7#5).toNat % 16 :=
  ⟨⟨performs_one _ rfl rfl, .inl ⟨by decide, by decide, by decide, by decide⟩, by decide, by decide⟩,
    ⟨.inl ⟨by decide, by decide, by decide, by decide⟩, by decide, by decide, by decide⟩,
    ⟨performs_one _ rfl rfl, .inl ⟨by decide, by decide, by decide, by decide⟩, by decide, by decide⟩, by decide⟩

/-! ### Remote access and the fabric -/

/-- A rank table of the witness thread's job, in which the module is rank 0. -/
def table (e : Vector Word 64) : List RankTable := [{ job := 9#32, own := 0#6, entries := e }]

/-- The stored state, ranks 0 and 3 valid, and the group of the witness thread. -/
def ranked : State :=
  { stored with
    groups := [{ fetchGroup 1 with unrcnt := 3#8, ulast := 5#6 }]
    ranks := table (((Vector.replicate 64 0#64).set 0 0x8000000000000000#64).set 3 0x8000000000000000#64) }

/-- Posted stores to the own window, to core 2 with a credit, and to a misaligned address; `drain` of every rank, of rank
0, of the first number that is no rank, and of a rank that is not valid; and a thread with its group. -/
theorem witness_PostedStoresAndDrains : Performs ranked 17#16 th ∧ Claims.Settled ranked 17#16 th ∧
    ((th.reg 13#5).toNat < 0x80000 ∧ (th.reg 13#5).toNat % 8 = 0 ∧
      Claims.Sound ranked 17#16 (0x10000000000 + 1 * 0x80000 + (th.reg 13#5).toNat) 8 ∧
      ranked.hitsInbox (0x10000000000 + 1 * 0x80000 + (th.reg 13#5).toNat) 8 = false) ∧
    (0x10000000000 ≤ (th.reg 8#5).toNat ∧ (th.reg 8#5).toNat < 0x10080000000 ∧ (th.reg 8#5).toNat % 8 = 0 ∧
      ranked.hitsInbox (th.reg 8#5).toNat 8 = false ∧
      (ranked.core (((th.reg 8#5).toNat - 0x10000000000) / 0x80000)).lost = false ∧
      (ranked.core ((17#16).toNat / 16)).posted < 64) ∧
    (th.reg 10#5).toNat % 4 ≠ 0 ∧ ranked.markers = [] ∧ ranked.packets = [] ∧ th.reg 11#5 = BitVec.allOnes 64 ∧
    ((th.reg 0#5).toNat < 64 ∧
      (ranked.rankEntry { job := th.job, rank := (th.reg 0#5).setWidth 6 }).getLsbD 63 = true) ∧
    (th.reg 5#5 ≠ BitVec.allOnes 64 ∧ 64 ≤ (th.reg 5#5).toNat) ∧
    (stored.rankEntry { job := th.job, rank := (th.reg 0#5).setWidth 6 }).getLsbD 63 = false ∧
    ranked.group? th.group = some { fetchGroup 1 with unrcnt := 3#8, ulast := 5#6 } :=
  ⟨performs rfl rfl (by decide) rfl rfl rfl, settled rfl rfl (by decide),
    ⟨by decide, by decide, sound rfl (by decide), by decide⟩,
    ⟨by decide, by decide, by decide, by decide, by decide, by decide⟩, by decide, rfl, rfl, by decide,
    ⟨by decide, by decide⟩, ⟨by decide, by decide⟩, by decide, rfl⟩

/-- The witness thread as a rover. -/
def roving : Thread := { th with rover := true, origin := 1#12 }

/-- A thread that is no rover; a rover at its own window; and one that names core 2. -/
theorem witness_MigratingInstructions :
    (Performs stored 17#16 th ∧ Claims.Settled stored 17#16 th ∧ (∀ n, (stored.cluster n).forward = []) ∧
      th.rover = false) ∧
    (Performs (one roving) 17#16 roving ∧ Claims.Settled (one roving) 17#16 roving ∧ roving.rover = true ∧
      (roving.reg 5#5).toNat % 8 = 0 ∧ (roving.reg 5#5).toNat < 0x80000 ∧
      Claims.Sound (one roving) 17#16 (0x10000000000 + 1 * 0x80000 + (roving.reg 5#5).toNat) 8) ∧
    ((roving.reg 8#5).toNat % 8 = 0 ∧ 2 < 4096 ∧ 2 ≠ (17#16).toNat / 16 ∧ ((one roving).core 2).lost = false ∧
      0x10000000000 + 2 * 0x80000 ≤ (roving.reg 8#5).toNat ∧
      (roving.reg 8#5).toNat < 0x10000000000 + (2 + 1) * 0x80000 ∧ (one roving).packets = [] ∧
      (one roving).ownDone (17#16).toNat = true) :=
  ⟨⟨performs_stored, settled_stored, fun _ => rfl, rfl⟩,
    ⟨performs_one _ rfl rfl, settled rfl rfl (by decide), rfl, by decide, by decide, sound rfl (by decide)⟩,
    by decide, by decide, by decide, rfl, by decide, by decide, rfl, by decide⟩

/-- A load of the own window and one of core 2's scratchpad; a store of core 2's scratchpad by an untainted address; and a
word that is no instruction. -/
theorem witness_RelaxedPairs : Performs stored 17#16 th ∧ Claims.Settled stored 17#16 th ∧
    ((Instr.ld 1#5 5#5 8#12, 8, true, false) ∈ Claims.loads 1#5 5#5 8#12 ∧
      encode (.ld 1#5 5#5 8#12) = [0x0082B083#32] ∧ (th.reg 5#5 + (8#12).signExtend 64).toNat < 0x80000 ∧
      (th.reg 5#5 + (8#12).signExtend 64).toNat % 8 = 0 ∧
      Claims.Sound stored 17#16 (0x10000000000 + 1 * 0x80000 + (th.reg 5#5 + (8#12).signExtend 64).toNat) 8) ∧
    (encode (.ld 1#5 8#5 0#12) = [0x00043083#32] ∧ 0x10000000000 ≤ (th.reg 8#5 + (0#12).signExtend 64).toNat ∧
      (th.reg 8#5 + (0#12).signExtend 64).toNat < 0x10080000000 ∧ (th.reg 8#5 + (0#12).signExtend 64).toNat % 8 = 0 ∧
      (stored.core (((th.reg 8#5 + (0#12).signExtend 64).toNat - 0x10000000000) / 0x80000)).lost = false) ∧
    ((Instr.sd 8#5 7#5 0#12, 8) ∈ Claims.stores 8#5 7#5 0#12 ∧ encode (.sd 8#5 7#5 0#12) = [0x00743023#32] ∧
      stored.hitsInbox (th.reg 8#5 + (0#12).signExtend 64).toNat 8 = false ∧ th.tainted 8#5 = false ∧
      (stored.core ((17#16).toNat / 16)).cb.length < 8) ∧
    ∀ i, decodeWord 0#32 = .ok i → i.rlxEligible = false := by
  refine ⟨performs_stored, settled_stored, ⟨by decide, by decide, by decide, by decide, sound rfl (by decide)⟩,
    ⟨by decide, by decide, by decide, by decide, rfl⟩, ⟨by decide, by decide, by decide, by decide, by decide⟩, ?_⟩
  intro i h
  have h' : decodeWord 0#32 = .error .compressed := by rfl
  rw [h'] at h
  cases h

theorem calm {s : State} (h1 : s.clusters = []) (h2 : ∀ c, (s.core c).lost = false) (h3 : s.resync = []) : Claims.Calm s where
  forward := by simp [State.cluster, h1, Cluster.reset]
  withheld := by simp [State.cluster, h1, Cluster.reset]
  lost := h2
  resync := h3

theorem inFlight {s : State} {p : Packet} (h : s.packets = [p]) : Claims.InFlight s p :=
  ⟨h ▸ List.mem_singleton.2 rfl, fun _ hq _ => List.mem_singleton.1 (h ▸ hq)⟩

/-- Nothing waits at a port of a state in which nothing is scheduled. -/
theorem noneAtPort {s : State} (h : s.timed = []) : Claims.NoneAtPort s := fun x hx => by
  rw [h] at hx
  exact absurd hx List.not_mem_nil

/-- The only packet of a module without listed cores can leave its port. -/
theorem leaves {s : State} {p : Packet} (h : s.packets = [p]) (ht : s.timed = []) (hp : p.held = false ∧ p.parked = false ∧ p.reply = none ∧
    p.fail = none) (hf : ∀ n : Fin 4, ((s.core p.core.toNat).fabqos[n]).extractLsb' 4 16 = 0#16) : Claims.Leaves s p where
  port := noneAtPort ht
  here := hp
  first _ hx hn := absurd (List.mem_singleton.1 (h ▸ hx)) hn
  free := hf

/-- The witness thread waiting for `w`, with a count and a limit. -/
def waiting (w : WaitFor) (count : Nat) (limit : Option Nat) : Thread :=
  { th with wait := some { what := w, order := 3, count := count, limit := limit, eval := 0x99#64, cancel := false } }

/-- The stored state with one packet and its thread. -/
def sent (p : Packet) (t : Thread) : State := { stored with packets := [p], threads := [(17, t)], fresh := 2000 }

/-- Core 1 with no regulated class and three posted credits out. -/
def sentPosted (p : Packet) : State :=
  { sent p th with threads := [], cores := [(1, { Core.reset with posted := 3 })] }

/-- A load packet, the same with its data, a store packet of an ordinary and one of a posted store, and a core whose
classes are not regulated. -/
theorem witness_PacketDelivery :
    ((sent (pkt 3 .ordinary (.load 12#5 4 false true)) (waiting (.access 3) 0 none)).Inv ∧
      Claims.InFlight (sent (pkt 3 .ordinary (.load 12#5 4 false true)) (waiting (.access 3) 0 none))
        (pkt 3 .ordinary (.load 12#5 4 false true)) ∧
      0x10000000000 ≤ (pkt 3 .ordinary (.load 12#5 4 false true)).addr ∧
      (pkt 3 .ordinary (.load 12#5 4 false true)).addr + 64 ≤ 0x10080000000 ∧
      (∀ n, (stored.cluster n).forward = []) ∧ (∀ n, (stored.core n).lost = false) ∧ stored.cxlBad = [] ∧
      (pkt 3 .ordinary (.load 12#5 4 false true)).held = false ∧ (pkt 3 .ordinary (.load 12#5 4 false true)).sent = false ∧
      Claims.Leaves (sent (pkt 3 .ordinary (.load 12#5 4 false true)) (waiting (.access 3) 0 none))
        (pkt 3 .ordinary (.load 12#5 4 false true)) ∧
      (∀ x ∈ (pkt 3 .ordinary (.load 12#5 4 false true)).acc.pieces 0x10000100040, x.1 < 0x100000000000) ∧
      (pkt 3 .ordinary (.load 12#5 4 false true)).acc = .load 12#5 4 false true ∧ 4 ≤ 8 ∧
      (pkt 3 .ordinary (.load 12#5 4 false true)).data = 0#512 ∧
      stored.memErr 0x10000100040 4 = false ∧ stored.eccOne = []) ∧
    ({ pkt 3 .ordinary (.load 12#5 4 false true) with reply := some 0xAABBCCDD#512 }.reply = some 0xAABBCCDD#512 ∧
      (sent (pkt 3 .ordinary (.load 12#5 4 false true)) (waiting (.access 3) 0 none)).thread? (17#16).toNat =
        some (waiting (.access 3) 0 none) ∧ (waiting (.access 3) 0 none).group = 1 ∧
      ∃ k, (waiting (.access 3) 0 none).wait = some k ∧ k.what = .access 3) ∧
    ((sent (pkt 3 .ordinary (.store 4 7#64)) th).Inv ∧
      Claims.InFlight (sent (pkt 3 .ordinary (.store 4 7#64)) th) (pkt 3 .ordinary (.store 4 7#64)) ∧
      stored.hitsInbox 0x10000100040 4 = false ∧
      (sent (pkt 3 .ordinary (.store 4 7#64)) th).thread? (17#16).toNat = some th ∧
      th.group = (pkt 3 .ordinary (.store 4 7#64)).group ∧ th.wait = none) ∧
    ((sentPosted (pkt 3 .posted (.store 4 7#64))).Inv ∧
      Claims.InFlight (sentPosted (pkt 3 .posted (.store 4 7#64))) (pkt 3 .posted (.store 4 7#64)) ∧
      (sentPosted (pkt 3 .posted (.store 4 7#64))).thread? (17#16).toNat = none ∧
      (sentPosted (pkt 3 .posted (.store 4 7#64))).group? 1 = none) :=
  ⟨⟨⟨by decide, rfl⟩, inFlight rfl, by decide, by decide, fun _ => rfl, fun _ => rfl, rfl, rfl, rfl,
      leaves rfl rfl ⟨rfl, rfl, rfl, rfl⟩ (by decide), by decide +kernel, rfl, by decide, rfl, by decide, rfl⟩,
    ⟨rfl, rfl, rfl, _, rfl, rfl⟩,
    ⟨⟨by decide, rfl⟩, inFlight rfl, by decide, rfl, rfl, rfl⟩, ⟨by decide, rfl⟩, inFlight rfl, rfl, rfl⟩

/-- A core with one combining entry. -/
def combining : State :=
  { stored with cores := [(1, { Core.reset with
    cb := [{ id := 9, tid := 17#16, block := 0x10000100040, bytes := [(0x10000100041, 7#8)], last := 0 }] })] }

/-- A packet to rank 0's range of the global map. -/
def pktRank : Packet := { pkt 3 .ordinary (.store 8 5#64) with addr := 0x4000000000000040 }

/-- The fabric's events: a port, a listed core, a packet on the adaptive path to another rank, a combining entry, a rank
that is not the own one and a table word whose STATE is not 3, one marker, and both cases of a lost core. -/
theorem witness_FabricEvents :
    (stored.ports[(0#4).toNat]? = some { lanes := 16#5, retries := 0, escapes := 0 }) ∧
    (∃ k, assocGet 1 combining.cores = some k) ∧
    (Claims.InFlight (sent pktRank th) pktRank ∧ pktRank.ordered = false ∧ pktRank.escape = false ∧ pktRank.held = false ∧
      pktRank.reply = none ∧ pktRank.fail = none ∧ pktRank.sent = false ∧ pktRank.parked = false ∧ 2 ^ 62 ≤ pktRank.addr) ∧
    (∃ e ∈ (combining.core (1#12).toNat).cb, (∀ x ∈ (combining.core (1#12).toNat).cb, x.id = e.id → x = e) ∧
      ∀ p ∈ combining.packets, p.id ≠ e.id) ∧
    (stored.packets = [] ∧ stored.markers = [] ∧ stored.cores = [] ∧ (0x8000000000000000#64).extractLsb' 61 2 ≠ 3#2 ∧
      2#6 ≠ stored.ownRank 9#32) ∧
    (({ stored with markers := [(1#12, ⟨9#32, 2#6⟩, 7)] }).markers = [(1#12, ⟨9#32, 2#6⟩, 7)] ∧ stored.paths = [] ∧
      Claims.NoneAtPort { stored with markers := [(1#12, ⟨9#32, 2#6⟩, 7)] } ∧ (stored.rankEntry ⟨9#32, 2#6⟩).extractLsb' 61 2 ≠ 1#2) ∧
    (stored.cluster 0).spareUsed = false ∧
    (({ stored with clusters := [(0, { Cluster.reset with spareUsed := true })] }).cluster 0).spareUsed = true :=
  ⟨rfl, ⟨_, rfl⟩, ⟨inFlight rfl, rfl, rfl, rfl, rfl, rfl, rfl, rfl, by decide⟩,
    ⟨_, List.mem_singleton.2 rfl, fun _ h _ => List.mem_singleton.1 h, fun _ h => absurd h List.not_mem_nil⟩,
    ⟨rfl, rfl, rfl, by decide, by decide⟩,
    ⟨rfl, rfl, noneAtPort rfl, by decide⟩, rfl, rfl⟩

/-- A rover on offer to core 2, at slot 1 of core 1; and the same with a full arrival queue there. -/
def rover : Rover :=
  { id := 5, thread := roving, target := 2#12, fresh := false, load := none, spilled := none, last := 17#16, held := false }

/-- The rover's thread while it waits. -/
def offering : Thread := { waiting (.offer 5) 0 none with rover := true }

/-- The rover on offer. -/
def offered : State := { stored with rovers := [rover], threads := [(17, offering)] }

/-- The rover on offer to a core whose arrival queue is full. -/
def offeredFull : State :=
  { offered with cores := [(2, { Core.reset with arrQ := (List.range 16).map (· + 100) })] }

/-- Room in the arrival queue, and none there nor in a spill ring. -/
theorem witness_RoverArrivals : offered.rovers = [rover] ∧ offered.threads = [((17#16).toNat, offering)] ∧
    (∃ k, offering.wait = some k ∧ k.what = .offer rover.id) ∧ offering.run = .live ∧ offering.gang = none ∧
    (∀ n, (offered.cluster n).forward = []) ∧ offered.packets = [] ∧ Claims.NoneAtPort offered ∧
    (∀ n : Fin 4, ((offered.core ((17#16).toNat / 16)).fabqos[n]).extractLsb' 4 16 = 0#16) ∧ (offered.core rover.target.toNat).lost = false ∧
    (17#16).toNat / 16 ≠ rover.target.toNat ∧
    ((offered.core rover.target.toNat).arrQ.length < 16 ∧ (offered.core rover.target.toNat).spill = []) ∧
    ((offeredFull.core rover.target.toNat).arrQ.length = 16 ∧
      (offeredFull.core rover.target.toNat).arrspill.extractLsb' 32 9 = 0#9) :=
  ⟨rfl, rfl, ⟨_, rfl, rfl⟩, rfl, rfl, fun _ => rfl, rfl, noneAtPort rfl, by decide, rfl, by decide, ⟨by decide, rfl⟩, by decide,
    by decide⟩

/-- A rover at the head of core 2's arrival queue. -/
def arrived : State :=
  { stored with rovers := [{ rover with fresh := true }], threads := [], cores := [(2, { Core.reset with arrQ := [5] })] }

theorem witness_ArrivalTakesSlot : arrived.rovers = [{ rover with fresh := true }] ∧ arrived.threads = [] ∧
    arrived.resumes = [] ∧ arrived.susps = [] ∧ (arrived.core (2#12).toNat).arrQ = [rover.id] ∧
    (arrived.core (2#12).toNat).spill = [] ∧ (arrived.core (2#12).toNat).owner = none ∧
    (arrived.core (2#12).toNat).lost = false ∧ (arrived.core (2#12).toNat).buffer = [] ∧
    (arrived.core (2#12).toNat).slotcfg.extractLsb' 16 16 = 0#16 ∧ rover.held = false ∧ rover.thread.gang = none ∧
    rover.thread.dline.getLsbD 63 = false :=
  ⟨rfl, rfl, rfl, rfl, rfl, rfl, rfl, rfl, rfl, by decide, rfl, rfl, by decide⟩

/-! ### Waits, time, paging and the debugger -/

theorem plainThread {t : Thread} (h1 : t.run = .live) (h2 : t.inHandler = false) (h3 : t.gang = none)
    (h4 : t.stepctl = 0#64) : Claims.Plain t := ⟨h1, h2, h3, h4⟩

/-- Cycle 2,500, in tick 2, with one thread. -/
def later (t : Thread) : State := { one t with time := 2500 }

/-- A thread without a wait, one whose count stands at its limit, and one with a passed deadline. -/
theorem witness_TickCountsWaits : ((later th).Inv ∧ (later th).thread? 17 = some th ∧ th.wait = none) ∧
    ((later (waiting (.recv 5#5 1#3) 5 (some 5))).Inv ∧ (waiting (.recv 5#5 1#3) 5 (some 5)).run = .live ∧
      ∃ w, (waiting (.recv 5#5 1#3) 5 (some 5)).wait = some w ∧ w.limit = some 5 ∧ w.cancel = false ∧ 5 < w.count + 1) ∧
    ({ th with dline := 0x8000000000000002#64 }.dline.getLsbD 63 = true ∧
      ({ th with dline := 0x8000000000000002#64 }.dline.setWidth 63).toNat ≤ (later th).time / 1250) :=
  ⟨⟨⟨rfl, rfl⟩, rfl, rfl⟩, ⟨⟨rfl, rfl⟩, rfl, _, rfl, rfl, rfl, by decide⟩, by decide, by decide⟩

/-- A wait one past its limit and one at its limit; a deadline at the tick, one that lies ahead, and one that is not
armed; a sleep of no cycles and one of some; a sleep that is over in this cycle and one that is over in the next. -/
theorem witness_WaitEnds :
    ((later (waiting (.recv 5#5 1#3) 6 (some 5))).thread? (17#16).toNat = some (waiting (.recv 5#5 1#3) 6 (some 5)) ∧
      Claims.Plain (waiting (.recv 5#5 1#3) 6 (some 5)) ∧ (∃ w, (waiting (.recv 5#5 1#3) 6 (some 5)).wait = some w ∧
        w.limit = some 5 ∧ (∀ p a, w.what ≠ .parked p a) ∧ (∀ r, w.what ≠ .offer r) ∧ 5 < w.count)) ∧
    (∃ w, (waiting (.recv 5#5 1#3) 5 (some 5)).wait = some w ∧ w.count ≤ 5) ∧
    (({ th with dline := 0x8000000000000002#64 }.dline.setWidth 63).toNat ≤ (later th).time / 1250) ∧
    ((later th).time / 1250 < ({ th with dline := 0x8000000000000003#64 }.dline.setWidth 63).toNat) ∧
    th.dline.getLsbD 63 = false ∧ (Performs plain 17#16 th ∧ 7#5 ≠ 0#5) ∧
    (assocSorted (later (waiting (.sleep 2500) 0 none)).threads = true ∧
      ∃ w, (waiting (.sleep 2500) 0 none).wait = some w ∧ w.what = .sleep 2500 ∧ 2500 ≤ (later th).time) ∧
    ∃ w, (waiting (.sleep 2501) 0 none).wait = some w ∧ w.what = .sleep 2501 ∧ (later th).time < 2501 :=
  ⟨⟨rfl, plainThread rfl rfl rfl rfl, _, rfl, rfl, (fun _ _ => WaitFor.noConfusion),
    (fun _ => WaitFor.noConfusion), by decide⟩,
    ⟨_, rfl, by decide⟩, by decide, by decide, by decide, ⟨performs_plain, by decide⟩, ⟨rfl, _, rfl, rfl, by decide⟩,
    _, rfl, rfl, by decide⟩

/-- A synchronising load of core 2's granule. -/
def syncPkt (id : Nat) : Packet := pkt id .ordinary (.sync { addr := 0x10000100040, op := .keep, shape := .scalarLoad 12#5 })

/-- The access that the packet carries. -/
def syncAcc : SyncAccess := { addr := 0x10000100040, op := .keep, shape := .scalarLoad 12#5 }

/-- The packet, with 64 accesses parked at its core. -/
def crowded : State :=
  { sent (syncPkt 3) th with packets := syncPkt 3 :: (List.range 64).map fun i => { syncPkt (100 + i) with parked := true } }

/-- A full granule; an empty one with a free park entry, and with none; a cancel of a parked access, of a served one, and
its confirmation past the limit. -/
theorem witness_ParkedAccesses :
    (Claims.InFlight (sent (syncPkt 3) th) (syncPkt 3) ∧ (syncPkt 3).acc = .sync syncAcc ∧ 0x10000000000 ≤ (syncPkt 3).addr ∧
      (syncPkt 3).addr < 0x10080000000 ∧ syncAcc.addr = (syncPkt 3).addr ∧
      Claims.Calm (sent (syncPkt 3) th) ∧ stored.cxlBad = [] ∧ (∀ x ∈ (sent (syncPkt 3) th).packets, x.parked = false) ∧
      (∀ x ∈ (sent (syncPkt 3) th).threads, ∀ w ∈ x.2.wait, ∀ a, w.what ≠ .sync a) ∧
      syncAcc.shape = .scalarLoad 12#5 ∧ syncAcc.op = .keep ∧ (syncPkt 3).addr / 16 ∉ stored.full ∧
      (sent (syncPkt 3) th).syncWithheld syncAcc = none ∧
      Claims.Leaves (sent (syncPkt 3) th) (syncPkt 3)) ∧
    (Claims.InFlight crowded (syncPkt 3) ∧ Claims.Calm crowded ∧ 64 ≤ crowded.parkedAt (syncPkt 3).addr ∧
      crowded.syncWithheld syncAcc = none) ∧
    ((syncPkt 3).addr / 16 ∈ ({ stored with full := [0x1000010004] }).full ∧
      stored.memErr ((syncPkt 3).addr / 16 * 16) 16 = false) ∧
    ((sent (syncPkt 3) (waiting (.parked 3 syncAcc) 6 (some 5))).thread? (17#16).toNat =
        some (waiting (.parked 3 syncAcc) 6 (some 5)) ∧ Claims.Plain (waiting (.parked 3 syncAcc) 6 (some 5)) ∧
      (syncPkt 3).reply = none ∧ (syncPkt 3).fail = none ∧ { syncPkt 3 with reply := some 5#512 }.reply ≠ none ∧
      ∃ w, (waiting (.parked 3 syncAcc) 6 (some 5)).wait = some w ∧ w.what = .parked 3 syncAcc ∧ w.limit = some 5 ∧
        5 < w.count ∧ ∀ x ∈ (later (waiting (.parked 3 syncAcc) 6 (some 5))).packets, x.id ≠ 3) :=
  ⟨⟨inFlight rfl, rfl, by decide, by decide, rfl, calm rfl (fun _ => rfl) rfl, rfl, by
        intro x h
        rw [show (sent (syncPkt 3) th).packets = [syncPkt 3] from rfl, List.mem_singleton] at h
        subst h
        rfl, by
        intro x h w hw
        rw [show (sent (syncPkt 3) th).threads = [(17, th)] from rfl, List.mem_singleton] at h
        subst h
        exact absurd hw nofun, rfl, rfl, by decide, by decide,
      leaves rfl rfl ⟨rfl, rfl, rfl, rfl⟩ (by decide)⟩,
    ⟨⟨List.mem_cons_self, by decide +kernel⟩, calm rfl (fun _ => rfl) rfl, by decide +kernel, by decide +kernel⟩, ⟨by decide, by decide⟩,
    rfl, plainThread rfl rfl rfl rfl, rfl, rfl, by decide, _, rfl, rfl, rfl, by decide, fun _ h => absurd h List.not_mem_nil⟩

/-- A page of tiered memory. -/
def page : PageRec :=
  { job := 9#32, base := 0x100000010000, size := 2 ^ 16, tier2 := false, home := 0#2, r := true, w := true, x := true, shared := false }

/-- A page that is mapped for job 9 is no page of job 8 (R189). -/
theorem test_page_of_job : (({ plain with pages := [page] }).pageOf 9#32 0x100000010000).isSome = true ∧
    ({ plain with pages := [page] }).pageOf 8#32 0x100000010000 = none := by decide

/-- The module is rank 5 of job 9 and rank 0 of job 8: the same address is its own memory for the one and another module's for the
other (R23, R154, R220). -/
theorem test_rank_of_job :
    let s := { plain with ranks := [{ job := 9#32, own := 5#6, entries := Vector.replicate 64 0x8000000000000000#64 },
                                    { job := 8#32, own := 0#6, entries := Vector.replicate 64 0x8000000000000000#64 }] }
    s.place 1 9#32 0x4500010000000040#64 = .spad 0x10000000040 ∧
      s.place 1 8#32 0x4500010000000040#64 = .remote ⟨8#32, 5#6⟩ 0x84500010000000040 ∧ s.gtid 17 = 0x50011#22 := by decide

/-- A walk that finds a page, at its first byte, and one that finds none; a page of a legal size and one of another; a
latched thread under the page; a thread that waits for a line. -/
theorem witness_PagingAndFetch :
    ((later (waiting (.walk 0x100000010000) 0 none)).thread? (17#16).toNat = some (waiting (.walk 0x100000010000) 0 none) ∧
      (17#16).toNat / 16 = (1#12).toNat ∧
      (∃ w, (waiting (.walk 0x100000010000) 0 none).wait = some w ∧ w.what = .walk (0x100000010000#64).toNat) ∧
      ({ plain with pages := [page] }).pageOf 9#32 (0x100000010000#64).toNat = some page ∧
      plain.pageOf 9#32 (0x100000010000#64).toNat = none ∧ (waiting (.walk 0x100000010000) 0 none).job = page.job) ∧
    (plain.cores = [] ∧ page.size ∈ [2 ^ 16, 2 ^ 21, 2 ^ 30] ∧ page.base % page.size = 0 ∧ 0x100000000000 ≤ page.base ∧
      page.base + page.size ≤ 0x200000000000 ∧ plain.fits page = true ∧ { page with size := 5 }.size ∉ [2 ^ 16, 2 ^ 21, 2 ^ 30] ∧
      page.tier2 = false ∧ 2 < { Die.reset with retired := [1#7, 2#7, 3#7] }.retired.length) ∧
    ((17, waiting (.latched 0x10000001FFFF) 0 none) ∈ (later (waiting (.latched 0x10000001FFFF) 0 none)).threads ∧
      ∃ w, (waiting (.latched 0x10000001FFFF) 0 none).wait = some w ∧ w.what = .latched (0x10000001FFFF#64).toNat ∧
        page.base ≤ 0x10000001FFFF ∧ 0x10000001FFFF < page.base + page.size) ∧
    ((17#16).toNat / 128 = (0#9).toNat ∧ plain.cxlFault (128 * 77) = false ∧
      ∃ w, (waiting (.line 77) 0 none).wait = some w ∧ w.what = .line 77) :=
  ⟨⟨rfl, by decide, ⟨_, rfl, by decide⟩, by decide, by decide, rfl⟩,
    ⟨rfl, by decide, by decide, by decide, by decide, by decide +kernel, by decide, rfl, by decide⟩,
    ⟨List.mem_singleton.2 rfl, _, rfl, by decide, by decide, by decide⟩, by decide, rfl, _, rfl, rfl⟩

/-- Two events pending, a deadline pending alone, and nothing pending. -/
theorem witness_AsynchronousTraps :
    (plain.thread? (17#16).toNat = some th ∧ Claims.Plain th ∧ th.wait = none ∧ plain.cores = [] ∧ th.events = [] ∧
      th.dlPending = false) ∧
    (Claims.Plain { th with events := [⟨0x21#8, 5#64⟩, ⟨0x22#8, 6#64⟩] } ∧
      { th with events := [⟨0x21#8, 5#64⟩, ⟨0x22#8, 6#64⟩] }.events = ⟨0x21#8, 5#64⟩ :: [⟨0x22#8, 6#64⟩]) ∧
    (Claims.Plain { th with dlPending := true } ∧ { th with dlPending := true }.events = [] ∧
      { th with dlPending := true }.dlPending = true) :=
  ⟨⟨rfl, plainThread rfl rfl rfl rfl, rfl, rfl, rfl, rfl⟩, ⟨plainThread rfl rfl rfl rfl, rfl⟩,
    plainThread rfl rfl rfl rfl, rfl, rfl⟩

/-- The witness thread with a breakpoint at its PC. -/
def broken : Thread := { th with stepctl := 0x4000000000000000#64 ||| th.pc }

/-- The witness thread halted by a hold. -/
def heldThread : Thread := { th with run := .root, reason := .hold }

/-- A breakpoint at the thread's PC, the skip bit, a stepped thread with nothing outstanding, and a halted thread. -/
theorem witness_DebuggerSteps :
    ((one broken).thread? (17#16).toNat = some broken ∧ broken.gang = none ∧ broken.wait = none ∧
      (∀ n, ((one broken).cluster n).forward = []) ∧ broken.run = .live ∧ broken.stepctl.getLsbD 62 = true ∧
      broken.skip = false ∧ broken.pc = ((broken.stepctl.extractLsb' 2 43).setWidth 62 ++ 0#2 : BitVec 64)) ∧
    { broken with skip := true }.skip = true ∧
    ({ th with stepped := true }.stepped = true ∧
      (one { th with stepped := true }).stepDrained (17#16).toNat { th with stepped := true } = true) ∧
    (heldThread.run = .root ∧ heldThread.wasDep = none) :=
  ⟨⟨rfl, rfl, rfl, fun _ => rfl, rfl, by decide, rfl, by decide⟩, rfl, ⟨rfl, by decide⟩, rfl, rfl⟩

/-- House core 3 performs, with x5 naming the thread of slot 1 of core 1. -/
def housed (t : Thread) : State :=
  { one t with
    cur := .house 3#4, houseX := [(3, (Vector.replicate 32 0#64).set 5 17#64)]
    ranks := table ((Vector.replicate 64 0#64).set 0 0x8000000000000000#64) }

/-- The witness thread in slot 0 of core 1, its monitor, with x5 naming slot 7. -/
def monitor : State :=
  { plain with
    cur := .slot 16#16, threads := [(16, { th with x := th.x.set 5 23#64 })]
    cores := [(1, { Core.reset with slotcfg := 0x803#64 })]
    ranks := table ((Vector.replicate 64 0#64).set 0 0x8000000000000000#64) }

/-- A house core that names a live thread and a halted one; a thread that is no monitor; and a monitor. -/
theorem witness_HoldAndRelease :
    ((housed th).cur = .house 3#4 ∧
      assocGet (3#4).toNat (housed th).houseX = some ((Vector.replicate 32 0#64).set 5 17#64) ∧ 5#5 ≠ 0#5 ∧
      ((Vector.replicate 32 0#64).set 5 17#64)[(5#5).toNat] = ((housed th).ownRank th.job ++ 17#16 : BitVec 22).setWidth 64 ∧
      (housed th).thread? (17#16).toNat = some th ∧ th.gang = none ∧ th.wait = none ∧
      (∀ n, ((housed th).cluster n).forward = []) ∧ ((housed th).core ((17#16).toNat / 16)).lost = false ∧
      ((housed th).rankEntry { job := th.job, rank := (housed th).ownRank th.job }).getLsbD 63 = true ∧ th.run = .live) ∧
    ((housed heldThread).thread? (17#16).toNat = some heldThread ∧ heldThread.run = .root ∧ heldThread.wasDep = none) ∧
    (Performs plain 17#16 th ∧ plain.isMonitor (17#16).toNat = false) ∧
    (Performs monitor 16#16 { th with x := th.x.set 5 23#64 } ∧ monitor.isMonitor (16#16).toNat = true ∧
      monitor.badThread th.job ({ th with x := th.x.set 5 23#64 }.reg 5#5) = false ∧
      ({ th with x := th.x.set 5 23#64 }.reg 5#5).extractLsb' 16 6 = monitor.ownRank th.job ∧
      Claims.Settled monitor 16#16 { th with x := th.x.set 5 23#64 }) :=
  ⟨⟨rfl, rfl, by decide, by decide, rfl, rfl, rfl, fun _ => rfl, rfl, by decide, rfl⟩, ⟨rfl, rfl, rfl⟩,
    ⟨performs_plain, by decide⟩, ⟨⟨rfl, rfl⟩, rfl, rfl, rfl, rfl⟩, by decide, by decide, by decide,
    ⟨rfl, fun _ h => absurd h List.not_mem_nil, by decide, fun _ h => absurd h List.not_mem_nil⟩⟩

/-! ### Vector instructions -/

/-- The witness thread with vector registers 0 to 7 holding their number in every byte, and v2 a set of group parameters
for block 2: scale 1.0 (FP16) and zero point 7. -/
def vec : Thread :=
  { th with
    v := #v[0#512, BitVec.replicate 64 1#8, 0x73C00#512 ||| (2#512 <<< 128), BitVec.replicate 64 3#8,
      BitVec.replicate 64 4#8, BitVec.replicate 64 5#8, BitVec.replicate 64 6#8, BitVec.replicate 64 7#8]
    k := (Vector.replicate 4 0#128).set 0 5#128 }

/-- A thread with no vector result in flight; a format of R280's table and one outside it; a fused format and one that is
none; an active and an inactive lane. -/
theorem witness_VectorArithmetic : Performs (one vec) 17#16 vec ∧ vec.vres = [] ∧ Fmt.arith .int8 = true ∧
    Fmt.arith .int4 = false ∧ (Fmt.float3 .bf16 = true ∧ ∃ g, fmtFloat .bf16 = some g) ∧ Fmt.float3 .int8 = false ∧
    Claims.active vec (some 0#2) 0 = true ∧ Claims.active vec (some 0#2) 1 = false :=
  ⟨performs_one _ rfl rfl, rfl, rfl, rfl, ⟨rfl, _, rfl⟩, rfl, by decide, by decide⟩

theorem witness_VectorLogicAndShifts : Performs (one vec) 17#16 vec ∧ vec.vres = [] ∧ Fmt.intShift .uint8 = true ∧
    Fmt.intShift .fp32 = false ∧ Fmt.intArithShift .int64 = true ∧ Fmt.intArithShift .uint8 = false :=
  ⟨performs_one _ rfl rfl, rfl, rfl, rfl, rfl, rfl⟩

theorem witness_VectorMovesAndMasks : Performs (one vec) 17#16 vec ∧ vec.vres = [] ∧ 7 < 8 ∧ (3#3).toNat < 8 ∧
    15 < fmtLanes .fp32 ∧ Fmt.arith .fp32 = true ∧ Fmt.arith .e2m1 = false ∧ (fmtFloat .int16).isNone = true ∧
    (Instr.vcmpLe .int16 none 1#2 0#3 3#3 0#2, Cmp.le) ∈
      [(Instr.vcmpEq .int16 none 1#2 0#3 3#3 0#2, Cmp.eq), (.vcmpLt .int16 none 1#2 0#3 3#3 0#2, .lt),
        (.vcmpLe .int16 none 1#2 0#3 3#3 0#2, .le)] :=
  ⟨performs_one _ rfl rfl, rfl, by decide, by decide, by decide, rfl, rfl, rfl, by simp⟩

/-- Group parameters that are well formed, and some that are not (v3: the byte 3 throughout). -/
theorem witness_VectorReductionsAndFunctions : Performs (one vec) 17#16 vec ∧ vec.vres = [] ∧ Fmt.arith .int8 = true ∧
    Fmt.arith .int4 = false ∧ (Fmt.asymCode .int4 = true ∧ quantBad 4 (vec.vreg 2#3) = none) ∧
    (Fmt.asymCode .uint8 = true ∧ ∃ e, quantBad 8 (vec.vreg 3#3) = some e) ∧ Fmt.asymCode .fp32 = false ∧
    Fmt.float3 .fp16 = true ∧ Fmt.float3 .int8 = false :=
  ⟨performs_one _ rfl rfl, rfl, rfl, rfl, ⟨rfl, by decide +kernel⟩, ⟨rfl, Option.isSome_iff_exists.1 (by decide +kernel)⟩, rfl, rfl, rfl⟩

/-- The witness thread with one result in flight for v3: due by cycle `due`, under `window` open issues. -/
def pending (due window : Nat) (check : Word) : Thread :=
  { vec with scorechk := check, vres := [{ dest := 3#4, value := 77#512, flags := 0x21#6, issue := 0, due := due, window := window }] }

/-- A result to be written, one under an open window, one that is due in the next cycle; with the check on and off. -/
theorem witness_VectorResults :
    (Performs (one (pending 100 0 1#64)) 17#16 (pending 100 0 1#64) ∧
      ∃ r, (pending 100 0 1#64).vres = [r] ∧ r.dest.toNat < 12 ∧ r.window = 0 ∧ r.due ≤ plain.time) ∧
    (∃ r, (pending 101 0 1#64).vres = [r] ∧ plain.time < r.due) ∧
    (Performs (one (pending 100 1 1#64)) 17#16 (pending 100 1 1#64) ∧
      ∃ r, (pending 100 1 1#64).vres = [r] ∧ r.dest = (3#3).setWidth 4 ∧ 0 < r.window) ∧
    (pending 100 1 1#64).scorechk.getLsbD 0 = true ∧ (pending 100 1 0#64).scorechk.getLsbD 0 = false :=
  ⟨⟨performs_one _ rfl rfl, _, rfl, by decide, rfl, by decide⟩, ⟨_, rfl, by decide⟩,
    ⟨performs_one _ rfl rfl, _, rfl, by decide, by decide⟩, by decide, by decide⟩

theorem clean {s : State} (h1 : s.eccOne = []) (h2 : s.eccBad = []) (h3 : s.febBad = []) : Claims.Clean s := ⟨h1, h2, h3⟩

/-- A misaligned line, an aligned one, and four-byte elements with stride 5 - which is misaligned - and stride 0. -/
theorem witness_VectorLoadsAndStores : Performs (one vec) 17#16 vec ∧ vec.vres = [] ∧
    Claims.Settled (one vec) 17#16 vec ∧ Claims.Clean (one vec) ∧ ((one vec).core ((17#16).toNat / 16)).lost = false ∧
    (vec.reg 10#5 + 64#64 * (0#6).signExtend 64).toNat % 64 ≠ 0 ∧
    ((vec.reg 5#5 + 64#64 * (0x3F#6).signExtend 64).toNat % 64 = 0 ∧
      (vec.reg 5#5 + 64#64 * (0x3F#6).signExtend 64).toNat < 0x80000 ∧
      (one vec).hitsInbox (0x10000000000 + (17#16).toNat / 16 * 0x80000 +
        (vec.reg 5#5 + 64#64 * (0x3F#6).signExtend 64).toNat) 64 = false) ∧
    (∀ n, n < 64 / elBytes .four → (vec.reg 5#5 + BitVec.ofNat 64 n * vec.reg 0#5).toNat % elBytes .four = 0 ∧
      (vec.reg 5#5 + BitVec.ofNat 64 n * vec.reg 0#5).toNat < 0x80000 ∧
      (true = true → (one vec).hitsInbox (0x10000000000 + (17#16).toNat / 16 * 0x80000 +
        (vec.reg 5#5 + BitVec.ofNat 64 n * vec.reg 0#5).toNat) (elBytes .four) = false)) ∧
    (vec.reg 10#5 + BitVec.ofNat 64 0 * vec.reg 7#5).toNat % elBytes .four ≠ 0 :=
  ⟨performs_one _ rfl rfl, rfl, settled rfl rfl (by decide), clean rfl rfl rfl, rfl, by decide,
    ⟨by decide, by decide, by decide⟩, by decide, by decide⟩

/-- Core 1 with the format register of its first bank; the thread performs there. -/
def banked (r : Word) : State :=
  { one vec with cores := [(1, { Core.reset with bfmt := Core.reset.bfmt.set 0 r })] }

/-- A plain 8-bit bank, an invalid register, and a bank with dynamic scales; a line of full granules and one of empty
granules. -/
theorem witness_VectorUnitsAndSynchronisation :
    (Performs (banked 1#64) 17#16 vec ∧ vec.vres = [] ∧ Claims.Alone (one vec) 17#16 ∧
      Claims.Settled (one vec) 17#16 vec ∧ Claims.Clean (banked 1#64) ∧
      ((banked 1#64).core ((17#16).toNat / 16)).lost = false) ∧
    ((vec.reg 5#5 + 64#64 * (0#6).signExtend 64).toNat % unitBytes 1#64 = 0 ∧
      (vec.reg 5#5 + 64#64 * (0#6).signExtend 64).toNat < 0x80000 ∧ bfInvalid 1#64 = false ∧ bfDyn 1#64 = false ∧
      unitBad (banked 1#64).mem 1 1#64 (vec.reg 5#5 + 64#64 * (0#6).signExtend 64).toNat = false ∧
      (banked 1#64).hitsInbox (own + 0x140) (unitBytes 1#64) = false) ∧
    bfInvalid 0x1F#64 = true ∧ bfDyn 0x200B#64 = true ∧
    ((∀ n ∈ [(own + 0x140) / 16, (own + 0x140) / 16 + 1, (own + 0x140) / 16 + 2, (own + 0x140) / 16 + 3],
        n ∈ ({ one vec with full := [(own + 0x140) / 16, (own + 0x140) / 16 + 1, (own + 0x140) / 16 + 2,
          (own + 0x140) / 16 + 3] }).full) ∧
      ∀ n ∈ [(own + 0x140) / 16, (own + 0x140) / 16 + 1, (own + 0x140) / 16 + 2, (own + 0x140) / 16 + 3],
        n ∉ (one vec).full) :=
  ⟨⟨performs rfl rfl rfl rfl rfl rfl, rfl, alone rfl rfl rfl rfl rfl, settled rfl rfl (by decide), clean rfl rfl rfl, rfl⟩,
    ⟨by decide, by decide, by decide, by decide, by decide, by decide⟩, by decide, by decide, by decide, by decide⟩

/-! ### Threads, groups and tasks -/

/-- The group of the witness thread at a level, on the cores given. -/
def grp (l : Level) (cores : List CoreId) : Group := { fetchGroup 1 with level := l, cores := cores }

/-- A launch of two indices. -/
def lch : Launch :=
  { id := 1#32, count := 2, ended := 0, done := .none, job := 9#32, die := 0#2, cls := 2#2, entry := 0#512 }

/-- The witness thread alone in its group and its launch, on core 1 that the group owns. -/
def grouped : State :=
  { plain with
    groups := [grp .core [1#12]], launches := [lch], cores := [(1, { Core.reset with owner := some 1 })] }

theorem unheld {s : State} {n : Nat} {k : Core} (hc : s.cores = [(n, k)]) (h1 : k.holdOf 17 = false)
    (h2 : k.stopOf 17 = false) : Claims.Unheld s 17#16 := by
  intro c x h
  rw [hc, List.mem_singleton] at h
  cases h
  exact ⟨h1, h2⟩

/-- The witness thread after its `end`, with its slot to fall vacant in this cycle. -/
def endingThread : Thread :=
  { th with wait := some { what := .ending, order := 3, count := 0, limit := none, eval := 0#64, cancel := false } }

/-- The step that is due. -/
def vacancy : Timed := { due := 100, order := 1, what := .slotVacant 17#16 }

/-- The state in which it is due. -/
def ending : State := { grouped with threads := [(17, endingThread)], timed := [vacancy] }

/-- A thread with an open promise, and one with none; and the last thread of its group, whose slot falls vacant. -/
theorem witness_ThreadEnd :
    (Performs (one promised) 17#16 promised ∧ promised.openPromises ≠ []) ∧
    (Performs grouped 17#16 th ∧ th.openPromises = [] ∧ th.gang = none ∧ Claims.Settled grouped 17#16 th) ∧
    (ending.Inv ∧ ending.inputs = [] ∧ ending.timed = [vacancy] ∧ vacancy.what = .slotVacant 17#16 ∧ vacancy.due ≤ ending.time ∧
      ending.thread? (17#16).toNat = some endingThread ∧ endingThread.wait.map (·.what) = some .ending ∧
      endingThread.gang = none ∧ Claims.Unheld ending 17#16 ∧
      (∀ k p, ending.thread? k = some p → k ≠ (17#16).toNat → p.wait = none) ∧
      (∀ l ∈ ending.launches, ∀ g tag, l.done ≠ .msg g tag) ∧ ending.group? endingThread.group = some (grp .core [1#12]) ∧
      (ending.members endingThread.group).map (·.1) = [(17#16).toNat] ∧ ending.rovers = [] ∧
      (grp .core [1#12]).suspended = 0 ∧ (grp .core [1#12]).posted = 0 ∧ (∀ p ∈ ending.packets, p.group ≠ endingThread.group) ∧
      ending.launches = [lch] ∧ lch.id = (grp .core [1#12]).launch) :=
  ⟨⟨performs_one _ rfl rfl, by decide⟩,
    ⟨performs rfl rfl rfl rfl rfl rfl, by decide, rfl,
      ⟨rfl, fun _ h => absurd h List.not_mem_nil, by decide, fun _ h => absurd h List.not_mem_nil⟩⟩,
    ⟨rfl, rfl⟩, rfl, rfl, rfl, by decide, rfl, rfl, rfl, unheld rfl (by decide) (by decide), by
      intro k p h hk
      simp only [State.thread?, ending, assocGet] at h
      split at h
      · exact absurd ‹17 = k›.symm hk
      · exact absurd h nofun, by
      intro l h g tag
      rw [show ending.launches = [lch] from rfl, List.mem_singleton] at h
      subst h
      exact Done.noConfusion, rfl, by rfl, rfl, rfl, rfl, fun _ h => absurd h List.not_mem_nil, rfl, rfl⟩

/-- The witness thread in slot 0, whose end clears MODE. -/
theorem witness_ThreadEnd_monitor :
    Performs { plain with cur := .slot 16#16, threads := [(16, th)] } 16#16 th ∧ (16#16).toNat % 16 = 0 :=
  ⟨⟨⟨rfl, rfl⟩, rfl, rfl, rfl, rfl⟩, by decide⟩

/-- The witness thread in a gang of stream 1, attached or detached at a position. -/
def inStream (attached : Bool) (pos : Nat) : Thread := { th with gang := some { stream := 1, attached := attached, pos := pos } }

/-- The stream, whose pilot has executed `join` number 1 at position 5. -/
def streamed (t : Thread) : State :=
  { one t with clusters := [(0, { Cluster.reset with
    streams := [(1, { base := 0, path := List.replicate 7 th.pc, joins := [(5, 1#12)] })] })] }

/-- A thread in no gang, an attached member, and a detached one behind a join that its stream has passed. -/
theorem witness_GangMembership :
    (Performs plain 17#16 th ∧ th.inGang = false ∧ th.gang = none) ∧
    (Performs (streamed (inStream true 6)) 17#16 (inStream true 6) ∧
      (inStream true 6).gang = some { stream := 1, attached := true, pos := 6 } ∧
      (streamed (inStream true 6)).stream? 1 = some { base := 0, path := List.replicate 7 th.pc, joins := [(5, 1#12)] }) ∧
    (Performs (streamed (inStream false 4)) 17#16 (inStream false 4) ∧
      (inStream false 4).gang = some { stream := 1, attached := false, pos := 4 } ∧
      ∃ j ∈ [(5, 1#12)], j.2 = 1#12 ∧ 4 < j.1) :=
  ⟨⟨performs_plain, rfl, rfl⟩, ⟨performs rfl rfl rfl rfl rfl rfl, rfl, rfl⟩, performs rfl rfl rfl rfl rfl rfl, rfl,
    (5, 1#12), List.mem_singleton.2 rfl, rfl, by decide⟩

/-- An entry: its control dword, PC 0x10000000_0800 and ARG 0x77. -/
def ent (w : Word) : VWord := 0#320 ++ 0x77#64 ++ 0x100000000800#64 ++ w

/-- The witness thread with an entry of a spawn in v1 and of a gang spawn in v2, slot 14 in x7, and slot 3 of cores 0 and 2
in x6. -/
def spawner : Thread :=
  { th with
    v := (((Vector.replicate 8 0#512).set 1 (ent 0x4000000000000000#64)).set 2 (ent 0x8400830000000000#64))
    x := (th.x.set 6 0x305#64).set 7 14#64 }

/-- Cores 0 to 7 as owned by group 1, with a change. -/
def ownedCores (f : Core → Core) : List (Nat × Core) := (List.range 8).map fun i => (i, f { Core.reset with owner := some 1 })

/-- The spawner in a group of a cluster. -/
def spawning (l : Level) (f : Core → Core) : State :=
  { one spawner with groups := [grp l [0#12, 1#12, 2#12, 3#12, 4#12, 5#12, 6#12, 7#12]], cores := ownedCores f }

/-- A spawn in the highest slot, a spawn of a gang on cores 0 and 2, and `rove` at the limit, below it with room, and below it
with the arrival queue full. -/
theorem witness_ThreadStarts :
    (Performs (spawning .core id) 17#16 spawner ∧ Claims.Settled (spawning .core id) 17#16 spawner ∧ spawner.gang = none ∧
      spawner.vres = [] ∧ (spawning .core id).susps = [] ∧ (spawning .core id).resumes = []) ∧
    (∃ g, (spawning .core id).group? spawner.group = some g ∧ g.level ≠ .thread ∧ 1 ≤ (spawner.reg 7#5).toNat ∧
      (spawner.reg 7#5).toNat ≤ 14 ∧ Claims.Startable (spawning .core id) spawner.group (1 * 16 + (spawner.reg 7#5).toNat) ∧
      (spawner.vreg 1#3).extractLsb' 0 64 = 0x4000000000000000#64 ∧ (spawner.vreg 1#3).toNat / 2 ^ 192 = 0) ∧
    (∃ g, (spawning .cluster id).group? spawner.group = some g ∧ g.level = .cluster ∧ (spawner.reg 6#5).toNat < 2 ^ 12 ∧
      (spawner.reg 6#5).toNat % 256 ≠ 0 ∧ 1 ≤ (spawner.reg 6#5).toNat / 256 ∧ (spawner.reg 6#5).toNat / 256 ≤ 14 ∧
      ((spawning .cluster id).core 1).buffer = [] ∧
      (∀ i, i < 8 → (spawner.reg 6#5).getLsbD i = true →
        Claims.Startable (spawning .cluster id) spawner.group (((17#16).toNat / 128 * 8 + i) * 16 +
          (spawner.reg 6#5).toNat / 256)) ∧
      (∃ m : BitVec 8, m ≠ 0#8 ∧
        (spawner.vreg 2#3).extractLsb' 0 64 = BitVec.ofNat 64 (0x8400000000000000 + m.toNat * 2 ^ 40)) ∧
      (spawner.vreg 2#3).toNat / 2 ^ 192 = 0) ∧
    (∀ k p, (spawning .cluster id).thread? k = some p → p.gang = none) ∧
    (((spawning .core id).core 1).rovelim.extractLsb' 0 9).toNat ≤ (((spawning .core id).core 1).rovelim.extractLsb' 16 9).toNat ∧
    (let k := (spawning .core (fun k => { k with rovelim := 5#64 })).core 1
     (k.rovelim.extractLsb' 16 9).toNat < (k.rovelim.extractLsb' 0 9).toNat ∧ k.arrQ.length < 16 ∧ k.spill = []) ∧
    (let k := (spawning .core (fun k => { k with rovelim := 5#64, arrQ := (List.range 16).map (· + 50) })).core 1
     (k.rovelim.extractLsb' 16 9).toNat < (k.rovelim.extractLsb' 0 9).toNat ∧ k.arrQ.length = 16 ∧
        k.arrspill.extractLsb' 32 9 = 0#9 ∧ k.spill = []) := by
  refine ⟨⟨performs rfl rfl rfl rfl rfl rfl, ⟨rfl, by decide, by decide, fun _ h => absurd h List.not_mem_nil⟩, rfl, rfl, rfl, rfl⟩,
    ⟨_, rfl, by decide, by decide, by decide, ⟨rfl, by decide, by decide, by decide, by decide⟩, by decide +kernel, by decide +kernel⟩,
    ⟨_, rfl, rfl, by decide, by decide, by decide, by decide, by decide, ?_, ⟨0x83#8, by decide, by decide +kernel⟩, by decide +kernel⟩,
    ?_, by decide, by decide, by decide⟩
  · intro i hi hb
    obtain rfl | rfl : i = 0 ∨ i = 2 := by
      revert hb; revert i; decide
    all_goals exact ⟨rfl, by decide, by decide, by decide, by decide⟩
  · intro k p h
    simp only [State.thread?, spawning, one, assocGet] at h
    split at h
    · cases h; rfl
    · cases h

/-! ### Tasks, and continuations -/

/-- A task entry: kind 1, class 2, one thread, three indices, of job 9. -/
def goodEntry : VWord :=
  (0#32 ++ 9#32) ++ 0x100000001000#64 ++ 0x100000000000#64 ++ 0#64 ++ (3#32 ++ 0#32) ++ 0x77#64 ++ 0x100000000800#64 ++
    0x6000000000000000#64

/-- The same entry of job 8. -/
def otherJob : VWord :=
  (0#32 ++ 8#32) ++ 0x100000001000#64 ++ 0x100000000000#64 ++ 0#64 ++ (3#32 ++ 0#32) ++ 0x77#64 ++ 0x100000000800#64 ++
    0x6000000000000000#64

/-- The witness thread with the entries in v1 and v2, and an entry of no indices in v3. -/
def tasker : Thread :=
  { th with v := (((Vector.replicate 8 0#512).set 1 goodEntry).set 2 otherJob).set 3 0#512 }

/-- The queued task of the entry: indices 0 to n - 1, in class `cls` since cycle 5. -/
def queued (cls n : Nat) : QItem := { entry := goodEntry, lo := 0, hi := n, cls := cls, since := 5, first := false }

/-- A die whose task queue is full, overflow area and all. -/
def fullDie : State :=
  { one tasker with
    dies := (Vector.replicate 4 Die.reset).set 0
      { Die.reset with queue := List.replicate (16384 + Config.overflowEntries 0) (queued 2 1) } }

/-- The witness thread as the monitor of core 1, with a prefetch buffer. -/
def tasking (b : List Buffered) : State :=
  { one tasker with
    cur := .slot 16#16, threads := [(16, tasker)], cores := [(1, { Core.reset with slotcfg := 0x803#64, buffer := b })] }

/-- A worker and a monitor with an empty buffer and with one entry; a well-formed entry with room in the queue and without,
one of another job, a faulty one; and `grow` by nothing, by some, and by more than a count can hold. -/
theorem witness_TaskInstructions :
    (Performs (one tasker) 17#16 tasker ∧ Claims.Settled (one tasker) 17#16 tasker ∧ tasker.vres = [] ∧
      (one tasker).isMonitor (17#16).toNat = false) ∧
    (Performs (tasking []) 16#16 tasker ∧ (tasking []).isMonitor (16#16).toNat = true ∧ ((tasking []).core 1).buffer = [] ∧
      ((tasking [{ entry := goodEntry, held := false, claim := none }]).core 1).buffer =
        [{ entry := goodEntry, held := false, claim := none }]) ∧
    (entryRq (tasker.vreg 1#3) = false ∧ entryFault (tasker.vreg 1#3) false true = none ∧
      entryJob (tasker.vreg 1#3) = tasker.job ∧
      ¬ 16384 + Config.overflowEntries (entryDie (tasker.vreg 1#3)).toNat ≤
        ((one tasker).die (entryDie (tasker.vreg 1#3)).toNat).queue.length ∧ (one tasker).launches.length < 65536) ∧
    (16384 + Config.overflowEntries (entryDie (tasker.vreg 1#3)).toNat ≤
      (fullDie.die (entryDie (tasker.vreg 1#3)).toNat).queue.length) ∧
    (entryFault (tasker.vreg 2#3) false true = none ∧ entryJob (tasker.vreg 2#3) ≠ tasker.job) ∧
    (entryRq (tasker.vreg 3#3) = false ∧ ∃ n, entryFault (tasker.vreg 3#3) false true = some n) ∧
    (lch.id = tasker.launch ∧ (tasker.reg 0#5).toNat = 0 ∧ (tasker.reg 7#5).toNat ≠ 0 ∧
      lch.count + (tasker.reg 7#5).toNat < 2 ^ 32 ∧ 2 ^ 32 ≤ lch.count + (tasker.reg 11#5).toNat) := by
  refine ⟨⟨performs_one _ rfl rfl, settled rfl rfl (by decide), rfl, by decide⟩,
    ⟨⟨⟨rfl, rfl⟩, rfl, rfl, rfl, rfl⟩, by decide, rfl, rfl⟩,
    ⟨by decide +kernel, by decide +kernel, by decide +kernel, ?_, by decide⟩, ?_,
    ⟨by decide +kernel, by decide +kernel⟩, ⟨by decide +kernel, Option.isSome_iff_exists.1 (by decide +kernel)⟩,
    by decide, by decide, by decide, by decide, by decide⟩
  · have h : ((one tasker).die (entryDie (tasker.vreg 1#3)).toNat).queue = [] := by decide +kernel
    rw [h]
    simp
  · have h : entryDie (tasker.vreg 1#3) = 0#2 := by decide +kernel
    have hq : (fullDie.die 0).queue = List.replicate (16384 + Config.overflowEntries 0) (queued 2 1) := rfl
    rw [h]
    show 16384 + Config.overflowEntries 0 ≤ (fullDie.die 0).queue.length
    rw [hq, List.length_replicate]

/-- Die 1 with one queued task, at a cycle, with core slots enabled or not. -/
def dealing (x : QItem) (now : Nat) (on : Bool) : State :=
  { State.reset with dies := (Vector.replicate 4 Die.reset).set 1 { Die.reset with queue := [x] }, time := now, enabled := on }

/-- A core with the entry at the head of its buffer, claimed for slot 3, in mode 0 or 1. -/
def starting (cfg : Word) : State :=
  { State.reset with
    cores := [(5, { Core.reset with slotcfg := cfg, buffer := [{ entry := goodEntry, held := false, claim := some 3#4 }] })] }

/-- A task of several indices, of the last one, and one that waits while no slot is enabled; tasks that have waited long
enough, one cycle too little, and in another class; and a claimed entry in either mode. -/
theorem witness_TaskDealing :
    ((dealing (queued 2 3) 100 true).cores = [] ∧ (dealing (queued 2 3) 100 true).threads = [] ∧
      (dealing (queued 2 3) 100 true).susps = [] ∧ (dealing (queued 2 3) 100 true).resumes = [] ∧
      ((dealing (queued 2 3) 100 true).die (1#2).toNat).doneMsgs = [] ∧
      ((dealing (queued 2 3) 100 true).die (1#2).toNat).queue = [queued 2 3] ∧ (queued 2 3).lo < (queued 2 3).hi ∧
      (queued 2 1).lo + 1 = (queued 2 1).hi ∧ 1 ≤ (queued 2 3).cls ∧ (queued 2 3).cls ≤ 3 ∧
      entryKind goodEntry = 1 ∧ entryLevel goodEntry = 0 ∧ entryClass goodEntry ≠ 0#2 ∧ entryCtrl goodEntry = false ∧
      (dealing (queued 2 3) 100 true).enabled = true ∧ (dealing (queued 2 3) 100 false).enabled = false ∧
      (queued 2 3).since ≤ (dealing (queued 2 3) 100 true).time ∧ (dealing (queued 2 3) 4 true).time < (queued 2 3).since) ∧
    (((Instr.class3Aging 1#2, 3, 2500000) = (Instr.class3Aging 1#2, 3, 2500000)) ∧ (queued 3 1).cls = 3 ∧
      (queued 3 1).since + 2500000 ≤ (dealing (queued 3 1) 2500005 true).time ∧
      (dealing (queued 3 1) 2500004 true).time < (queued 3 1).since + 2500000 ∧ (queued 2 1).cls ≠ 3 ∧
      (queued 2 1).since + 10000000 ≤ (dealing (queued 2 1) 10000005 true).time) ∧
    (((starting 0x802#64).core (5#12).toNat).buffer = [{ entry := goodEntry, held := false, claim := some 3#4 }] ∧
      ((starting 0x802#64).core (5#12).toNat).slotcfg.getLsbD 0 = false ∧
      ((starting 0x803#64).core (5#12).toNat).slotcfg.getLsbD 0 = true) :=
  ⟨⟨rfl, rfl, rfl, rfl, rfl, rfl, by decide, rfl, by decide, by decide, by decide +kernel, by decide +kernel,
      by decide +kernel, by decide +kernel, rfl, rfl, by decide, by decide⟩,
    ⟨rfl, rfl, by decide, by decide, by decide, by decide⟩, rfl, by decide, by decide⟩

/-- A continuation entry of class 0, whose object's home core 5 is on die 0. -/
def contEnt : VWord := 0#192 ++ 5#64 ++ 0#64 ++ 0#64 ++ 0x18000000000#64 ++ 0xC000000000000000#64

/-- Lost cores from a number on. -/
def lostFrom (a : Nat) : Nat → List (Nat × Core)
  | 0 => []
  | n + 1 => (a, { Core.reset with lost := true }) :: lostFrom (a + 1) n

theorem lostFrom_get {a n x : Nat} (h1 : a ≤ x) (h2 : x < a + n) :
    assocGet x (lostFrom a n) = some { Core.reset with lost := true } := by
  induction n generalizing a with
  | zero => omega
  | succ n ih =>
    by_cases hx : a = x
    · simp [lostFrom, assocGet, hx]
    · have := ih (a := a + 1) (by omega) (by omega)
      simpa [lostFrom, assocGet, hx] using this

/-- Die 1 with that entry queued, every core lost to tasks, and one group of class 2 on its first core. -/
def preempted : State :=
  { State.reset with
    cores := lostFrom 1024 1024
    dies := (Vector.replicate 4 Die.reset).set 1
      { Die.reset with queue := [{ entry := contEnt, lo := 0, hi := 1, cls := 0, since := 0, first := false }] }
    threads := [(16385, { th with group := 7 })]
    groups := [{ fetchGroup 7 with level := .thread, cls := 2#2, cores := [1024#12] }] }

theorem preempted_cores : preempted.cores = lostFrom 1024 1024 := by simp only [preempted]

/-- The entry in the queue of die 1. -/
def contItem : QItem := { entry := contEnt, lo := 0, hi := 1, cls := 0, since := 0, first := false }

theorem lost_taskWorker {s : State} {c : Nat} (h : (s.core c).lost = true) : s.taskWorker c = none := by
  simp [State.taskWorker, State.freeWorker, h]

/-- The victims of the one class-0 entry of a die, when no core of it has a worker slot for the entry. -/
theorem preemptor_one {s : State} {d : Nat} {q : QItem} {g : Group} (hp : s.preempting d = false)
    (hq : ((s.queued d).filter fun x => x.cls == 0) = [q]) (h0 : entryLevel (s.formEntry q) = 0)
    (hl : ∀ n, n < 1024 → (s.core (d * 1024 + n)).lost = true) (hv : s.victims d 0 = [g]) : s.preemptor d = some [g] := by
  have hs : (List.range 1024).any (fun n => s.hasSlot (s.formEntry q) (d * 1024 + n)) = false := by
    rw [List.any_eq_false]
    intro n hn
    rw [State.hasSlot, if_pos h0, lost_taskWorker (hl n (List.mem_range.1 hn))]
    exact Bool.false_ne_true
  have hw : s.victimsFor d (s.formEntry q) = [g] := by rw [State.victimsFor, if_neg (by rw [h0, hs]; decide), h0, hv]
  simp [State.preemptor, hp, hq, hw]

/-- No core of the die has a worker slot for it; the group on the die is its victim. -/
theorem preempted_victim :
    preempted.preemptor (1#2).toNat = some [{ fetchGroup 7 with level := .thread, cls := 2#2, cores := [1024#12] }] :=
  preemptor_one (q := contItem) rfl rfl (by decide +kernel) (fun n hn => by
    rw [State.core, preempted_cores, lostFrom_get (by simp) (by simp; omega), Option.getD_some]) (by decide +kernel)

/-- Core 1 with slots disabled, by its thermal controller or by software, a limit of disabled slots, and a sensor that
reads `reading` between thresholds of 2 and 5. -/
def thermal (off : Nat) (by_ : List (BitVec 4)) (reading : Nat) (owner : Option Nat) : State :=
  { plain with
    threads := []
    cores := [(1, { Core.reset with
      slotcfg := BitVec.ofNat 64 (2 + 8 * 256 + off * 65536), owner := owner, hot := 5, cool := 2, reading := reading
      thermal := by_ })] }

/-- An idle die, and one with a victim; a core between the thresholds, a hot one with every slot enabled below its limit,
a hot one that a group owns, and cool ones with and without a slot that its controller disabled. -/
theorem witness_PreemptionAndThermalControl :
    plain.preemptor (1#2).toNat = none ∧
    preempted.preemptor (1#2).toNat = some [{ fetchGroup 7 with level := .thread, cls := 2#2, cores := [1024#12] }] ∧
    (thermal 0 [] 3 none).platform.hotAction = false ∧
    (((thermal 0 [] 3 none).core (1#12).toNat).reading ≤ ((thermal 0 [] 3 none).core (1#12).toNat).hot ∧
      ((thermal 0 [] 3 none).core (1#12).toNat).cool ≤ ((thermal 0 [] 3 none).core (1#12).toNat).reading) ∧
    (((thermal 0 [] 6 none).core (1#12).toNat).hot < ((thermal 0 [] 6 none).core (1#12).toNat).reading ∧
      ((thermal 0 [] 6 none).core (1#12).toNat).thermalAt ≤ (thermal 0 [] 6 none).time ∧ (thermal 0 [] 6 none).resumes = [] ∧
      ((thermal 0 [] 6 none).core (1#12).toNat).buffer = [] ∧ ((thermal 0 [] 6 none).core (1#12).toNat).owner = none ∧
      ((thermal 0 [] 6 none).core (1#12).toNat).slotcfg.getLsbD 1 = true ∧
      ((thermal 0 [] 6 none).core (1#12).toNat).slotcfg.getLsbD (16 + 14) = false ∧
      (∀ m, (1 ≤ m ∧ (m ≤ 14 ∨ m = 15 ∧ ((thermal 0 [] 6 none).core (1#12).toNat).slotcfg.getLsbD 1 = false)) → 14 < m →
        ((thermal 0 [] 6 none).core (1#12).toNat).slotcfg.getLsbD (16 + m) = true) ∧
      ((List.range 16).countP fun m => decide (1 ≤ m ∧ (m ≤ 14 ∨ m = 15 ∧
        ((thermal 0 [] 6 none).core (1#12).toNat).slotcfg.getLsbD 1 = false)) &&
          ((thermal 0 [] 6 none).core (1#12).toNat).slotcfg.getLsbD (16 + m)) <
        (((thermal 0 [] 6 none).core (1#12).toNat).slotcfg.extractLsb' 8 4).toNat ∧
      (thermal 0 [] 6 none).thread? ((1#12).toNat * 16 + 14) = none) ∧
    ((thermal 0 [] 6 (some 1)).core (1#12).toNat).owner ≠ none ∧
    (((thermal 0 [] 1 none).core (1#12).toNat).reading < ((thermal 0 [] 1 none).core (1#12).toNat).cool ∧
      ((thermal 0 [] 1 none).core (1#12).toNat).thermal = []) ∧
    ((thermal 0x4000 [14#4] 1 none).core (1#12).toNat).thermal = 14#4 :: [] := by
  have h1 : ((thermal 0 [] 6 none).core (1#12).toNat).slotcfg.getLsbD 1 = true := by decide
  refine ⟨rfl, preempted_victim, rfl, ⟨by decide, by decide⟩,
    ⟨by decide, by decide, rfl, rfl, rfl, h1, by decide, ?_, by decide, rfl⟩, by decide, ⟨by decide, rfl⟩, rfl⟩
  rintro m ⟨_, h | ⟨_, h⟩⟩ hm
  · omega
  · rw [h1] at h; cases h

/-- The first object address of the witnesses, in the Carafe of cluster 0. -/
def objPlace : Nat := 0x18000000400

/-- A thread-level object of job 9 there, with CAUSE 1, ORIGIN 17, an empty thread record, and the state and version
given. -/
def objMem (st ver : Nat) : Mem :=
  putFields objPlace [(0, 4, 0xC4C047), (4, 2, 1), (7, 1, st), (8, 8, ver), (0x10, 1, 1), (0x12, 1, 7), (0x17, 1, 1),
    (0x18, 4, 9), (0x1C, 4, 2115161570), (0x20, 8, 17), (0x58, 4, 2560)] []

/-- The witness thread with the object's address in x6, version 3 in x7, an address for a copy in x14, and a `susp`
operand of the reserved LEVEL in x15. -/
def conter : Thread :=
  { th with x := (((th.x.set 6 0x18000000400#64).set 7 3#64).set 14 0x18000001000#64).set 15 3#64 }

/-- The object in a state, with the witness thread. -/
def objState_ (st ver : Nat) : State := { one conter with mem := objMem st ver }

theorem inCarafe {a : Word} {n : Nat} (h1 : a.toNat % 128 = 0) (h2 : 0x18000000000 ≤ a.toNat)
    (h3 : a.toNat < 0x18008000000) (h4 : a.toNat % 0x40000 + n ≤ 0x40000) : Claims.InCarafe a n := ⟨h1, h2, h3, h4⟩

/-- The suspension of the witness thread, between its Stop and its commit. -/
def susp : Susp :=
  { id := 5, addr := objPlace, level := 0#2, rights := 3#8, cause := 0#8, version := 1#64, tids := [17#16], group := 1
    extents := [], origin := 17#22, msgs := [], evts := [], sticky := 0#6, edrop := 0 }

/-- The witness thread waiting for an object, without a limit. -/
def stoppedBy (w : WaitFor) : Thread :=
  { conter with wait := some { what := w, order := 0, count := 0, limit := none, eval := 0#64, cancel := false } }

/-- The suspension under way, with packets outstanding. -/
def suspending (l : List Packet) : State :=
  { plain with
    threads := [(17, stoppedBy (.suspending 5))], groups := [grp .thread []], packets := l, susps := [susp] }

/-- The witness thread alone in a thread-level group. -/
def single : State := { one conter with groups := [grp .thread []] }

/-- An address that is no multiple of 128, the reserved LEVEL, and a `susp` that begins; a commit that must wait and one
that need not. -/
theorem witness_SuspendAndCommit :
    (Performs single 17#16 conter ∧ Claims.Settled single 17#16 conter ∧ conter.gang = none ∧
      (conter.reg 10#5).toNat % 128 ≠ 0 ∧ Claims.InCarafe (conter.reg 6#5) 2560 ∧
      (conter.reg 15#5).extractLsb' 0 2 = 3#2) ∧
    (conter.reg 0#5 = BitVec.ofNat 64 ((0#5).toNat * 256) ∧ single.levelOf conter.group = .thread ∧
      (∃ g, single.group? conter.group = some g) ∧ single.objHeld (conter.reg 6#5).toNat conter.job = false ∧
      ∀ y ∈ single.susps, y.id < single.fresh) ∧
    ((suspending []).susps = [susp] ∧ assocSorted (suspending []).threads = true ∧
      (suspending []).thread? (17#16).toNat = some (stoppedBy (.suspending 5)) ∧
      (stoppedBy (.suspending 5)).stepped = false ∧ (stoppedBy (.suspending 5)).gang = none ∧
      (suspending []).group? susp.group = some (grp .thread []) ∧ susp.addr < 2 ^ 62 ∧
      (suspending []).suspReady susp = true) ∧
    (suspending [pkt 3 .ordinary (.store 8 5#64)]).suspReady susp = false :=
  ⟨⟨performs rfl rfl rfl rfl rfl rfl, settled rfl rfl (by decide), rfl, by decide,
      inCarafe (by decide) (by decide) (by decide) (by decide), by decide⟩,
    ⟨by decide, by decide, ⟨_, rfl⟩, by decide +kernel, fun _ h => absurd h List.not_mem_nil⟩,
    ⟨rfl, rfl, rfl, rfl, rfl, rfl, by decide, by decide +kernel⟩, by decide +kernel⟩

/-- A resume of the object under version 3, before or after its acceptance. -/
def resume (accepted : Bool) (issuer : Option (BitVec 16)) : Resume :=
  { id := 5, addr := objPlace, version := 3#64, issuer := issuer, core := 1#12, claims := [34#16], job := 9#32
    asCode := none, accepted := accepted }

/-- The resume under way over an object of a state and a version. -/
def resuming (st ver : Nat) (r : Resume) (l : List (Nat × Thread)) : State :=
  { objState_ st ver with resumes := [r], threads := l }

set_option maxRecDepth 1000000 in
/-- An object that passes the checks of `resm` and one of another job; an acceptance under the right version and under
another; and a restore. -/
theorem witness_ResumeAndRestore :
    (Performs (objState_ 1 3) 17#16 conter ∧ Claims.Settled (objState_ 1 3) 17#16 conter ∧
      Claims.InCarafe (conter.reg 6#5) 128 ∧
      (∃ l, (objState_ 1 3).resumeCheck (conter.reg 6#5).toNat ((17#16).toNat / 16) conter.job none (some (17#16).toNat) = .ok l) ∧
      ∃ e, (objState_ 1 3).resumeCheck (conter.reg 6#5).toNat ((17#16).toNat / 16) 8#32 none (some (17#16).toNat) = .error e) ∧
    (objValid (objMem 1 3) objPlace = true ∧ objOutcp (objMem 1 3) objPlace = 0 ∧ objState (objMem 1 3) objPlace = 1 ∧
      objVersion (objMem 1 3) objPlace = (resume false none).version) ∧
    (objVersion (objMem 1 4) objPlace ≠ (resume false none).version ∧ Claims.Plain (stoppedBy (.resuming 5)) ∧
      (resuming 1 4 (resume false (some 17#16)) [(17, stoppedBy (.resuming 5))]).thread? (17#16).toNat =
        some (stoppedBy (.resuming 5))) ∧
    (objExtents (objMem 4 4) objPlace = some ([], objPlace + 128 + 1536) ∧ objLevel (objMem 4 4) objPlace = 0 ∧
      objNthr (objMem 4 4) objPlace = 1 ∧ objNmsg (objMem 4 4) objPlace = 0 ∧ objNevt (objMem 4 4) objPlace = 0 ∧
      objCause (objMem 4 4) objPlace ≠ 0 ∧
      (resuming 4 4 (resume true none) []).roomFor objPlace (objPlace + 128 + 1536) [(34#16).toNat] = true ∧
      (BitVec.ofNat 64 (readBytes (objMem 4 4) (objPlace + 128 + 0x110) 8)).getLsbD 14 = false ∧
      (BitVec.ofNat 64 (readBytes (objMem 4 4) (objPlace + 128 + 0x110) 8)).getLsbD 9 = false) ∧
    (Claims.Calm (resuming 4 4 (resume true (some 17#16)) [(17, stoppedBy (.resuming 5))]) ∧
      (resume true (some 17#16)).issuer = some 17#16 ∧ (resume true (some 17#16)).asCode = none ∧ 17#16 ≠ 34#16 ∧
      (resuming 4 4 (resume true (some 17#16)) [(17, stoppedBy (.resuming 5))]).threads =
        [((17#16).toNat, stoppedBy (.resuming 5))] ∧
      (resuming 4 4 (resume true (some 17#16)) [(17, stoppedBy (.resuming 5))]).roomFor objPlace (objPlace + 128 + 1536)
        [(34#16).toNat] = true) :=
  ⟨⟨performs rfl rfl (by decide +kernel) rfl rfl rfl, settled rfl rfl (by decide),
      inCarafe (by decide) (by decide) (by decide) (by decide), ⟨[18], by decide +kernel⟩, ⟨0x17#8, by decide +kernel⟩⟩,
    ⟨by decide +kernel, by decide +kernel, by decide +kernel, by decide +kernel⟩,
    ⟨by decide +kernel, plainThread rfl rfl rfl rfl, rfl⟩,
    ⟨by decide +kernel, by decide +kernel, by decide +kernel, by decide +kernel, by decide +kernel, by decide +kernel,
      by decide +kernel, by decide +kernel, by decide +kernel⟩,
    calm rfl (fun _ => rfl) rfl, rfl, rfl, by decide, rfl, by decide +kernel⟩

set_option maxRecDepth 1000000 in
/-- A SUSPENDED object with room for its copy; one that is RESUMED; one of another job; no object at all; and one under
another version. -/
theorem witness_CopyDiscardAndStatus :
    (Performs (objState_ 1 3) 17#16 conter ∧ Claims.Settled (objState_ 1 3) 17#16 conter ∧ conter.gang = none ∧
      Claims.InCarafe (conter.reg 6#5) 128) ∧
    ((objState_ 1 3).objFault (conter.reg 6#5).toNat conter.job 1 = none ∧
      objState (objMem 1 3) (conter.reg 6#5).toNat = 1 ∧ objOutcp (objMem 1 3) (conter.reg 6#5).toNat = 0 ∧
      Claims.InCarafe (conter.reg 14#5) (objSize (objMem 1 3) (conter.reg 6#5).toNat) ∧
      128 ≤ objSize (objMem 1 3) (conter.reg 6#5).toNat ∧
      (conter.reg 6#5).toNat + objSize (objMem 1 3) (conter.reg 6#5).toNat ≤ (conter.reg 14#5).toNat ∧
      (objState_ 1 3).objHeld (conter.reg 14#5).toNat conter.job = false) ∧
    ((objState_ 2 3).objFault (conter.reg 6#5).toNat conter.job 1 = none ∧
      objState (objMem 2 3) (conter.reg 6#5).toNat ≠ 1) ∧
    (∃ e, (one conter).objFault (conter.reg 6#5).toNat conter.job 1 = some e) ∧
    (∃ e, (one conter).objFault (conter.reg 6#5).toNat conter.job 2 = some e) ∧
    ((objState_ 1 3).objFault (conter.reg 6#5).toNat conter.job 2 = none ∧
      objVersion (objMem 1 3) (conter.reg 6#5).toNat = conter.reg 7#5 ∧ (objState_ 1 3).groups = []) ∧
    objVersion (objMem 1 4) (conter.reg 6#5).toNat ≠ conter.reg 7#5 := by
  have hs : objSize (objMem 1 3) (conter.reg 6#5).toNat = 2560 := by decide +kernel
  rw [hs]
  exact ⟨⟨performs rfl rfl (by decide +kernel) rfl rfl rfl, settled rfl rfl (by decide), rfl,
      inCarafe (by decide) (by decide) (by decide) (by decide)⟩,
    ⟨by decide +kernel, by decide +kernel, by decide +kernel, inCarafe (by decide) (by decide) (by decide) (by decide),
      by decide, by decide, by decide +kernel⟩,
    ⟨by decide +kernel, by decide +kernel⟩, ⟨0x16#8, by decide +kernel⟩, ⟨0x16#8, by decide +kernel⟩,
    ⟨by decide +kernel, by decide +kernel, rfl⟩, by decide +kernel⟩

/-- House core 3 performs, with x5 naming core 1 and x6 a target. -/
def migrating (target : Word) : State :=
  { plain with
    cur := .house 3#4, houseX := [(3, ((Vector.replicate 32 0#64).set 5 1#64).set 6 target)] }

/-- A cluster whose spare core is in use. -/
def spareGone (s : State) : State := { s with clusters := [(0, { Cluster.reset with spareUsed := true })] }

/-- The forwarding entry of a move from core 1 to core 2, last used in cycle 10. -/
def fwd : Fwd := { whole := true, src := 1#16, dst := 2#16, last := 10, acked := some 30 }

/-- The state with that entry, at a cycle. -/
def forwarding (now : Nat) : State :=
  { plain with clusters := [(0, { Cluster.reset with forward := [fwd] })], time := now }

/-- A target that is the core itself, a free one, and the spare of a cluster that has used it; a move that can complete; an
entry that has been idle long enough, one that no rank has applied and one that has not been idle for so long. -/
theorem witness_CoreMigration :
    Performs plain 17#16 th ∧
    ((migrating 1#64).cur = .house 3#4 ∧
      assocGet (3#4).toNat (migrating 1#64).houseX = some (((Vector.replicate 32 0#64).set 5 1#64).set 6 1#64) ∧
      5#5 ≠ 0#5 ∧ (1#64).getLsbD 63 = false) ∧
    (2 ≠ 1 ∧ (migrating 2#64).coreFree 2 = true ∧ ((migrating 2#64).cluster (1 / 8)).forward.length < 64) ∧
    ((0x8000000000000000#64).getLsbD 63 = true ∧
      ((spareGone (migrating 0x8000000000000000#64)).cluster (1 / 8)).spareUsed = true) ∧
    (stored.Inv ∧ (1#12 : CoreId) ≠ 2#12 ∧ stored.coreFree (2#12).toNat = true ∧
      (stored.cluster ((1#12).toNat / 8)).forward.length < 64 ∧ stored.moveBusy (1#12).toNat = false ∧ stored.eccBad = [] ∧
      stored.febBad = [] ∧ (∀ k t, stored.thread? k = some t → t.gang = none ∧ t.vres = []) ∧ stored.thread? ((1#12).toNat * 16 + 1) = some th) ∧
    (((forwarding 20010).cluster (0#9).toNat).forward = [fwd] ∧ fwd.whole = true ∧ fwd.src.toNat = (1#12).toNat ∧
      (forwarding 20010).emitQ (0#9).toNat = [] ∧ fwd.last + 20000 ≤ (forwarding 20010).time ∧ fwd.acked = some 30 ∧
      30 ≤ (forwarding 20010).time ∧ (∀ p ∈ (forwarding 20010).everyRank, ((forwarding 20010).rankEntry p).extractLsb' 61 2 ≠ 1#2) ∧
      { fwd with acked := none }.acked = none ∧ (forwarding 20009).time < fwd.last + 20000) := by
  refine ⟨performs_plain, ⟨rfl, rfl, by decide, by decide⟩, ⟨by decide, by decide, by decide⟩, ⟨by decide, rfl⟩,
    ⟨⟨by decide, rfl⟩, by decide, by decide, by decide, by decide, rfl, rfl, ?_, rfl⟩,
    rfl, rfl, by decide, rfl, by decide, rfl, by decide, by decide, rfl, by decide⟩
  intro k p h
  simp only [State.thread?, stored, plain, one, assocGet] at h
  split at h
  · cases h; exact ⟨rfl, rfl⟩
  · cases h

/-! ### Engine queues and buffer handles -/

theorem oneThread {s : State} {n : Nat} {t : Thread} {P : Thread → Prop} (ht : s.threads = [(n, t)]) (h : P t) :
    ∀ k p, s.thread? k = some p → P p := by
  intro k p hp
  simp only [State.thread?, ht, assocGet] at hp
  split at hp
  · cases hp; exact h
  · cases hp

/-- The thread `t` in slot `n` of core 1, whose state is `k`. -/
def atCore (n : Nat) (t : Thread) (k : Core) : State :=
  { stored with cur := .slot (BitVec.ofNat 16 n), threads := [(n, t)], cores := [(1, k)] }

/-- A core with no transfer slot (XFER 0). -/
def noXfer : Core := { Core.reset with slotcfg := 0x800#64 }

/-- The witness thread with a line whose first command is `mma` in v1, one of a word each in v2, and the aliases of q0 and q2
in x14 and x15. -/
def pusher : Thread :=
  { th with
    v := ((Vector.replicate 8 0#512).set 1 1#512).set 2 9#512, x := (th.x.set 14 0x80000#64).set 15 0x80040#64 }

/-- Pushes to q0 of one command of two words and of two of one word; to q2 by a worker, with its first entry free and with
that taken; to q4 by the transfer slot; the slots that a push may not come from; and the aliases. -/
theorem witness_QueuePushes :
    (Performs (atCore 17 pusher Core.reset) 17#16 pusher ∧
      Claims.Settled (atCore 17 pusher Core.reset) 17#16 pusher ∧ (atCore 17 pusher Core.reset).packets = [] ∧
      pusher.vres = [] ∧ pusher.gang = none ∧ Core.reset.q0.length + 2 ≤ 16 ∧ (pusher.vreg 1#3).toNat % 256 ∈ [1, 2, 3] ∧
      (pusher.vreg 2#3).toNat % 256 ∉ [1, 2, 3]) ∧
    (Core.reset.slotcfg.getLsbD 1 = true ∧ (17#16).toNat % 16 ≠ 15 ∧
      (∀ j p, (atCore 17 pusher Core.reset).thread? j = some p → p.wait = none) ∧
      Core.reset.q2[(0 : Fin 4)] = none ∧ ∀ m : Fin 4, m < 0 → Core.reset.q2[m] ≠ none) ∧
    (Performs (atCore 31 pusher Core.reset) 31#16 pusher ∧ (31#16).toNat % 16 = 15 ∧ Core.reset.q4.length + 2 ≤ 8) ∧
    (noXfer.slotcfg.getLsbD 1 = false ∧ 7#3 ∈ [1#3, 3#3, 5#3, 6#3, 7#3]) ∧
    (pusher.reg 14#5 + 64#64 * (0#6).signExtend 64 = 0x80000#64 ∧
      pusher.reg 15#5 + 64#64 * (0#6).signExtend 64 = 0x80040#64) :=
  ⟨⟨performs rfl rfl (by decide) rfl rfl rfl, ⟨rfl, fun _ h => absurd h List.not_mem_nil, by decide, fun _ h => absurd h List.not_mem_nil⟩, rfl, rfl, rfl,
      by decide, by decide +kernel, by decide +kernel⟩,
    ⟨by decide, by decide, oneThread (P := fun p => p.wait = none) rfl rfl, by decide, by decide⟩,
    ⟨⟨⟨by decide, rfl⟩, rfl, rfl, rfl, rfl⟩, by decide, by decide⟩, ⟨by decide, by decide⟩, by decide, by decide⟩

/-- A record of the witness thread's group. -/
def qrec : QRec := { status := 0x2D07#64, seq := 44#64, gtid := 17#22, written := 1#64, group := 1 }

/-- A record in q1, one in q5 with the transfer slot, an empty q1 with nothing under way, and queues of no slot's. -/
theorem witness_QueueReads :
    (Performs (atCore 17 th { Core.reset with q1 := [qrec] }) 17#16 th ∧ th.vres = [] ∧ th.latchCnt = none ∧
      (1#3, false, [qrec]) = (1#3, false, ((atCore 17 th { Core.reset with q1 := [qrec] }).core 1).q1)) ∧
    (Performs (atCore 31 th { Core.reset with q5 := [qrec] }) 31#16 th ∧
      (5#3, true, [qrec]) = (5#3, true, ((atCore 31 th { Core.reset with q5 := [qrec] }).core 1).q5) ∧
      Core.reset.slotcfg.getLsbD 1 = true ∧ (31#16).toNat % 16 = 15) ∧
    (Core.reset.q1 = [] ∧ Core.reset.copies = [] ∧ Core.reset.q0 = [] ∧ Core.reset.q0.length < 65536) ∧
    (7#3 ∈ [0#3, 2#3, 3#3, 4#3, 6#3, 7#3] ∧ ¬ (Core.reset.slotcfg.getLsbD 1 = true ∧ (17#16).toNat % 16 = 15)) :=
  ⟨⟨performs rfl rfl (by decide) rfl rfl rfl, rfl, rfl, rfl⟩, ⟨⟨⟨by decide, rfl⟩, rfl, rfl, rfl, rfl⟩, rfl, by decide, by decide⟩,
    ⟨rfl, rfl, rfl, by decide⟩, by decide, by decide⟩

/-- Ring 1 of core 1: four tiles of 4 KB, with tile indices about to wrap and one tile in it. -/
def ringed : Core :=
  { Core.reset with
    ringBase := Core.reset.ringBase.set 1 0x1000#64, ringSize := Core.reset.ringSize.set 1 0x4000#64
    ringTile := Core.reset.ringTile.set 1 0x1000#64, ringHead := Core.reset.ringHead.set 1 0xFFFFFFFE#64
    ringTail := Core.reset.ringTail.set 1 0xFFFFFFFF#64 }

/-- The ringed core with an engine stop of a kind (1 for an overflow, 2 for an illegal command) on a command of a group. -/
def stoppedCore (kind g : Nat) : Core :=
  { ringed with
    mefault := BitVec.ofNat 64 (2 ^ 63 + kind * 2 ^ 60), q0 := [{ ringCmd with word := 10#256, group := g }], q0Phase := .held }

/-- The witness thread with 3 tiles in x6, 4 in x7, the largest MESCALE in x14 and one more in x15. -/
def ringer : Thread := { th with x := (((th.x.set 6 3#64).set 7 4#64).set 14 0xFE#64).set 15 0xFF#64 }

/-- No tiles, as many as the ring has room for, and one more; no hold, a hold of another group, an overflow and an illegal
command of the thread's own. -/
theorem witness_RingsAndHolds :
    (Performs (atCore 17 ringer ringed) 17#16 ringer ∧ Claims.Settled (atCore 17 ringer ringed) 17#16 ringer ∧
      ringer.gang = none ∧ ringer.reg 0#5 = 0#64 ∧ ringer.reg 6#5 ≠ 0#64 ∧ ringed.ringValid 1 = true ∧
      ringed.ringOcc 1 + (ringer.reg 6#5).toNat ≤
        ((ringed.ringSize[(1#3).toNat]?).getD 0#64).toNat / ((ringed.ringTile[(1#3).toNat]?).getD 0#64).toNat ∧
      (ringer.reg 6#5).toNat < 2 ^ 32 ∧
      ((ringed.ringSize[(1#3).toNat]?).getD 0#64).toNat / ((ringed.ringTile[(1#3).toNat]?).getD 0#64).toNat <
        ringed.ringOcc 1 + (ringer.reg 7#5).toNat) ∧
    ringed.mefault.getLsbD 63 = false ∧
    (∀ h ∈ (stoppedCore 1 2).q0.head?, h.group ≠ ringer.group) ∧
    (Performs (atCore 17 ringer (stoppedCore 1 1)) 17#16 ringer ∧ (stoppedCore 1 1).mefault.getLsbD 63 = true ∧
      (stoppedCore 1 1).q0 = [{ ringCmd with word := 10#256, group := 1 }] ∧ 1 = ringer.group ∧
      (stoppedCore 1 1).mefault.extractLsb' 60 3 = 1#3 ∧ (ringer.reg 14#5).toNat ≤ 0xFE ∧ 0xFE < (ringer.reg 15#5).toNat) ∧
    (stoppedCore 2 1).mefault.extractLsb' 60 3 = 2#3 := by
  refine ⟨⟨performs rfl rfl (by decide) rfl rfl rfl, ⟨rfl, fun _ h => absurd h List.not_mem_nil, by decide, fun _ h => absurd h List.not_mem_nil⟩, rfl, by decide,
    by decide, by decide, by decide, by decide, by decide⟩, by decide, ?_,
    ⟨performs rfl rfl (by decide) rfl rfl rfl, by decide, rfl, rfl, by decide, by decide, by decide⟩, by decide⟩
  intro h hh
  rw [show (stoppedCore 1 2).q0.head? = some { ringCmd with word := 10#256, group := 2 } from rfl] at hh
  cases hh
  decide

/-- A handle of the witness thread's group. -/
def handle (st : HState) (base len : Nat) : Handle :=
  { bound := true, st := st, len := BitVec.ofNat 20 len, base := BitVec.ofNat 19 base, group := 1 }

/-- A core whose handles 0 and 1 are FREE and FULL. -/
def handled : Core :=
  { Core.reset with handles := (Core.reset.handles.set 0 (handle .free 0x200 0x40)).set 1 (handle .full 0x300 0x40) }

/-- A core whose 64 handles are all bound, to regions above 0x1000. -/
def handlesFull : Core :=
  { Core.reset with handles := Vector.ofFn fun i : Fin 64 => handle .full (0x1000 + 0x100 * i.val) 0x10 }

/-- The transfer mailbox with two requests, the older in entry 2. -/
def mailed : Core :=
  { Core.reset with
    q2 := (Core.reset.q2.set 1 (some { data := 5#512, group := 4, order := 3 })).set 2
      (some { data := 6#512, group := 5, order := 2 }) }

/-- The witness thread with 0x40 in x6, 0x100 in x14, 0x200 in x15, 0x81 in x16 and 1 in x17. -/
def binder : Thread :=
  { th with x := ((((th.x.set 6 0x40#64).set 14 0x100#64).set 15 0x200#64).set 16 0x81#64).set 17 1#64 }

/-- An illegal region, one that meets a bound one, one with every handle bound, and one with handle 2 the lowest free; a
number above 63; a bound handle in the state waited for, in another, FREE and FULL; an unbound one; and `xtake` outside the
transfer slot, of an empty mailbox and of one with two requests. -/
theorem witness_HandlesAndRequests :
    (Performs (atCore 17 binder handled) 17#16 binder ∧ Claims.Settled (atCore 17 binder handled) 17#16 binder ∧
      binder.vres = [] ∧ binder.gang = none ∧ binder.latchCnt = none) ∧
    ¬ ((binder.reg 16#5).toNat % 16 = 0 ∧ (binder.reg 6#5).toNat % 16 = 0 ∧ binder.reg 6#5 ≠ 0#64 ∧
      (binder.reg 16#5).toNat + (binder.reg 6#5).toNat ≤ 0x80000) ∧
    (((binder.reg 15#5).toNat % 16 = 0 ∧ (binder.reg 6#5).toNat % 16 = 0 ∧ binder.reg 6#5 ≠ 0#64 ∧
      (binder.reg 15#5).toNat + (binder.reg 6#5).toNat ≤ 0x80000) ∧
      ∃ e ∈ handled.handles.toList, e.bound = true ∧ e.base.toNat < (binder.reg 15#5).toNat + (binder.reg 6#5).toNat ∧
        (binder.reg 15#5).toNat < e.base.toNat + e.len.toNat) ∧
    ((¬ ∃ e ∈ handlesFull.handles.toList, e.bound = true ∧
        e.base.toNat < (binder.reg 14#5).toNat + (binder.reg 6#5).toNat ∧
        (binder.reg 14#5).toNat < e.base.toNat + e.len.toNat) ∧ ∀ e ∈ handlesFull.handles.toList, e.bound = true) ∧
    ((¬ ∃ e ∈ handled.handles.toList, e.bound = true ∧ e.base.toNat < (binder.reg 14#5).toNat + (binder.reg 6#5).toNat ∧
        (binder.reg 14#5).toNat < e.base.toNat + e.len.toNat) ∧ handled.handles[(2 : Fin 64)].bound = false ∧
      ∀ j : Fin 64, j < 2 → handled.handles[j].bound = true) ∧
    64 ≤ (binder.reg 6#5).toNat ∧
    ((binder.reg 0#5).toNat = (0 : Fin 64).val ∧ (binder.reg 17#5).toNat = (1 : Fin 64).val ∧
      handled.handles[(0 : Fin 64)].bound = true ∧ handled.handles[(0 : Fin 64)].st = .free ∧
      handled.handles[(1 : Fin 64)].st = .full ∧ handled.copies = [] ∧
      (atCore 17 binder handled).thread? (1 * 16 + 15) = none ∧ (atCore 17 binder handled).packets = [] ∧
      (binder.reg 7#5).toNat = (5 : Fin 64).val ∧ handled.handles[(5 : Fin 64)].bound = false) ∧
    (∀ j p, (atCore 17 binder handled).thread? j = some p → p.wait = none ∧ p.run = .live) ∧
    ((17#16).toNat % 16 ≠ 15 ∧ Core.reset.slotcfg.getLsbD 1 = true ∧ (31#16).toNat % 16 = 15 ∧
      Core.reset.q2 = Vector.replicate 4 none ∧ mailed.q2[(2 : Fin 4)] = some { data := 6#512, group := 5, order := 2 } ∧
      ∀ (j : Fin 4) y, j ≠ 2 → mailed.q2[j] = some y → 2 < y.order) := by
  refine ⟨⟨performs rfl rfl (by decide) rfl rfl rfl, ⟨rfl, fun _ h => absurd h List.not_mem_nil, by decide, fun _ h => absurd h List.not_mem_nil⟩, rfl, rfl, rfl⟩,
    by decide, ⟨by decide, handle .free 0x200 0x40, by decide +kernel, by decide⟩, ⟨by decide +kernel, by decide +kernel⟩,
    ⟨by decide +kernel, by decide +kernel, by decide +kernel⟩, by decide,
    ⟨by decide, by decide, by decide, by decide, by decide, rfl, rfl, rfl, by decide, by decide⟩, ?_,
    by decide, by decide, by decide, rfl, by decide +kernel, ?_⟩
  · intro k p h
    simp only [State.thread?, atCore, assocGet] at h
    split at h
    · cases h; exact ⟨rfl, rfl⟩
    · cases h
  · intro j y hj h
    match j with
    | 0 => exact noneSome (P := fun y : Mail => 2 < y.order) (by decide +kernel) y h
    | 1 =>
      exact onlySome (P := fun y : Mail => 2 < y.order)
        (x := { data := 5#512, group := 4, order := 3 }) (by decide +kernel) (by decide) y h
    | 2 => exact absurd rfl hj
    | 3 => exact noneSome (P := fun y : Mail => 2 < y.order) (by decide +kernel) y h

/-! ### Messages, casts, barriers and timelines -/

/-- What holds of the one listed core and of a core at reset holds of every core. -/
theorem oneCore {s : State} {n : Nat} {k : Core} {P : Core → Prop} (hc : s.cores = [(n, k)]) (hk : P k) (hr : P Core.reset)
    (he : s.enabled = false := by rfl) : ∀ c, P (s.core c) := by
  intro c
  simp only [State.core, hc, assocGet]
  split
  · exact hk
  · rw [State.unlisted, he]; exact hr

/-- The witness thread with thread id 0x25 in x5, one of rank 1 in x6, a number that is none in x14, slot 5 of core 4 in x15,
and a promise of tag 3 to 0x25. -/
def sender : Thread :=
  { th with
    x := (((th.x.set 5 0x25#64).set 6 0x10025#64).set 14 0x400000#64).set 15 0x45#64
    promises := th.promises.set 2 (some (.tag 0x25#22 3#4)) }

/-- A message to slot 5 of core 2. -/
def outMsg (len : BitVec 2) : OutMsg := { job := 9#32, dest := 0x25#22, tag := 7#4, len := len, payload := 0xABCD#512 }

/-- The sender with `n` messages in its outbound queue and core 2's inbox in the capacity table; rank 0 valid. -/
def sending (n : Nat) : State :=
  { atCore 17 sender { Core.reset with outq := List.replicate n (1#4, outMsg 0#2) } with
    ranks := table ((Vector.replicate 64 0#64).set 0 0x8000000000000000#64), capacity := [(2, 96)] }

/-- A reserved tag; a number that names no thread, and one of a rank that is not valid; an inbox too small; and a message that
an outbound queue with one free entry takes. -/
theorem witness_Sends :
    (Performs (sending 3) 17#16 sender ∧ Claims.Settled (sending 3) 17#16 sender ∧ Claims.Calm (sending 3) ∧
      sender.vres = [] ∧ sender.gang = none) ∧
    (15#4 = 15#4 ∧ 3#4 ≠ 15#4) ∧ ¬ (sender.reg 14#5).toNat < 2 ^ 22 ∧
    ((sending 3).rankEntry { job := sender.job, rank := (sender.reg 6#5).extractLsb' 16 6 }).getLsbD 63 = false ∧
    (((sender.reg 15#5).toNat < 2 ^ 22 ∧ ((sending 3).rankEntry { job := sender.job, rank := (sender.reg 15#5).extractLsb' 16 6 }).getLsbD 63 = true) ∧
      (sender.reg 15#5).toNat / 2 ^ 16 = ((sending 3).ownRank sender.job).toNat ∧
      (assocGet ((sender.reg 15#5).toNat / 16 % 4096) (sending 3).capacity).getD (if (sending 3).enabled then 4096 else 0) <
        Claims.recordBytes 0#2) ∧
    (((sender.reg 5#5).toNat < 2 ^ 22 ∧ ((sending 3).rankEntry { job := sender.job, rank := (sender.reg 5#5).extractLsb' 16 6 }).getLsbD 63 = true) ∧
      (sender.reg 5#5).toNat / 2 ^ 16 = ((sending 3).ownRank sender.job).toNat ∧
      Claims.recordBytes 3#2 ≤
        (assocGet ((sender.reg 5#5).toNat / 16 % 4096) (sending 3).capacity).getD (if (sending 3).enabled then 4096 else 0) ∧
      (((sending 3).core 1).outq.countP fun x => x.1 == BitVec.ofNat 4 (17#16).toNat) < 4 ∧ (sending 3).packets = [] ∧
      (∀ n : Fin 4, (((sending 3).core 1).fabqos[n]).extractLsb' 4 16 = 0#16) ∧ (sending 3).messageOut (17#16).toNat = false ∧
      Claims.NoneAtPort (sending 3) ∧ 4 ≤ (((sending 4).core 1).outq.countP fun x => x.1 == BitVec.ofNat 4 (17#16).toNat)) :=
  ⟨⟨performs rfl rfl (by decide) rfl rfl rfl, ⟨rfl, fun _ h => absurd h List.not_mem_nil, by decide, fun _ h => absurd h List.not_mem_nil⟩,
      calm rfl (oneCore (P := fun k => k.lost = false) rfl rfl rfl) rfl, rfl, rfl⟩,
    ⟨rfl, by decide⟩, by decide, by decide, ⟨⟨by decide, by decide⟩, by decide, by decide⟩,
    ⟨by decide, by decide⟩, by decide, by decide, by decide, rfl, by decide, rfl, noneAtPort rfl, by decide⟩

/-- Core 2's inbox: a ring of 16 units of 16 bytes at 0x1000, `used` of them taken, its tail at unit `tail`. -/
def inbox (used tail : Nat) : Core :=
  { Core.reset with
    inboxs := BitVec.ofNat 64 (16 + used * 2 ^ 32), inboxb := BitVec.ofNat 64 (0x1000 + tail * 2 ^ 32), inboxSeq := 77#32 }

/-- A message of slot 1 of core 1 on its way to an inbox of core 2. -/
def offer (len : BitVec 2) (k : Core) : State :=
  { stored with cores := [(1, { Core.reset with outq := [(1#4, outMsg len)] }), (2, k)] }

theorem quiet {s : State} {n : Nat} {t : Thread} (ht : s.threads = [(n, t)]) (hw : t.wait = none)
    (hc : ∀ c, (s.core c).castQ = []) (hx : s.susps = []) : Claims.Quiet s where
  threads := oneThread (P := fun p => p.wait = none) ht hw
  casts := hc
  susps := hx

/-- A suspended destination of a sender without an inbox; a record that fills the ring to its end, one that starts over after
a pad, one that the ring has no room for, and one for which the pad leaves none. -/
theorem witness_MessageOffers :
    ((offer 1#2 (inbox 0 0)).Inv ∧ Claims.Calm (offer 1#2 (inbox 0 0)) ∧ Claims.Quiet (offer 1#2 (inbox 0 0)) ∧
      (offer 1#2 (inbox 0 0)).eccBad = [] ∧ (offer 1#2 (inbox 0 0)).febBad = [] ∧ (offer 1#2 (inbox 0 0)).eccOne = [] ∧
      (outMsg 1#2).dest.extractLsb' 16 6 = (offer 1#2 (inbox 0 0)).ownRank (outMsg 1#2).job ∧
      ((offer 1#2 (inbox 0 0)).core ((17#16).toNat / 16)).outq = (BitVec.ofNat 4 (17#16).toNat, outMsg 1#2) :: [] ∧
      (offer 1#2 (inbox 0 0)).packets = [] ∧ Claims.NoneAtPort (offer 1#2 (inbox 0 0)) ∧
      ∀ n : Fin 4, (((offer 1#2 (inbox 0 0)).core ((17#16).toNat / 16)).fabqos[n]).extractLsb' 4 16 = 0#16) ∧
    ({ inbox 0 0 with marks := 0x20#16 }.marks.getLsbD (((outMsg 1#2).dest.extractLsb' 0 16).toNat % 16) = true ∧
      ((offer 1#2 (inbox 0 0)).core ((17#16).toNat / 16)).inboxs = 0#64) ∧
    ((inbox 0 0).marks.getLsbD (((outMsg 1#2).dest.extractLsb' 0 16).toNat % 16) = false ∧
      ((inbox 0 0).inboxb.extractLsb' 4 15).toNat * 16 + 256 ≤ 0x80000) ∧
    (6 * 16 + Claims.recordBytes 3#2 ≤ 256 ∧ 11 * 16 + Claims.recordBytes 3#2 = 256) ∧
    (6 * 16 + (256 - 15 * 16) + Claims.recordBytes 3#2 ≤ 256 ∧ 256 < 15 * 16 + Claims.recordBytes 3#2) ∧
    256 < 12 * 16 + Claims.recordBytes 3#2 ∧
    (256 < 13 * 16 + Claims.recordBytes 3#2 ∧ 256 < 9 * 16 + (256 - 13 * 16) + Claims.recordBytes 3#2) :=
  ⟨⟨⟨by decide, rfl⟩, calm rfl (by
        intro c
        simp only [State.core, offer, assocGet]
        split
        · rfl
        · split <;> rfl) rfl,
      quiet rfl rfl (by
        intro c
        simp only [State.core, offer, assocGet]
        split
        · rfl
        · split <;> rfl) rfl, rfl, rfl, rfl, by decide, rfl, rfl, noneAtPort rfl, by decide⟩,
    ⟨by decide, rfl⟩, ⟨by decide, by decide⟩, by decide, by decide, by decide, by decide⟩

/-- Core 1's inbox with `used` units and its head at unit `head`; the header there has length code 1 and tag 5. -/
def inboxed (used head : Nat) : State :=
  { atCore 17 th { Core.reset with
      inboxs := BitVec.ofNat 64 (16 + used * 2 ^ 32), inboxb := BitVec.ofNat 64 (0x1000 + head * 2 ^ 48) } with
    mem := writeBytes [] (own + 0x1000 + head * 16) 8 0x4D00001115 }

/-- A record at the start of the ring and one that begins at its last units; a target of `btag` that is a multiple of 4 and one
that is not; and an empty inbox. -/
theorem witness_MessageReads :
    (Performs (inboxed 3 13) 17#16 th ∧ Claims.Quiet (inboxed 3 13) ∧ Claims.Calm (inboxed 3 13) ∧ th.vres = [] ∧
      th.gang = none ∧ th.latchCnt = none) ∧
    (let k := (inboxed 3 13).core 1
     let at_ := 0x10000000000 + 1 * 0x80000 + (k.inboxb.extractLsb' 4 15).toNat * 16 + (k.inboxb.extractLsb' 48 16).toNat * 16
     let w : Word := BitVec.ofNat 64 (readBytes (inboxed 3 13).mem at_ 8)
     (k.inboxs.extractLsb' 32 16).toNat * 16 ≠ 0 ∧
      Claims.recordBytes (w.extractLsb' 4 2) ≤ (k.inboxs.extractLsb' 32 16).toNat * 16 ∧
      (k.inboxs.extractLsb' 32 16).toNat * 16 ≤ (k.inboxs.extractLsb' 0 16).toNat * 16 ∧
      (k.inboxb.extractLsb' 4 15).toNat * 16 + (k.inboxs.extractLsb' 0 16).toNat * 16 ≤ 0x80000 ∧ w.extractLsb' 6 2 ≠ 1#2 ∧
      (th.pc + 2#64 * (0xFFE#12).signExtend 64 + 4#64 * (w.extractLsb' 0 4).setWidth 64).toNat % 4 = 0 ∧
      (th.pc + 2#64 * (0xFFF#12).signExtend 64 + 4#64 * (w.extractLsb' 0 4).setWidth 64).toNat % 4 ≠ 0) ∧
    (((inboxed 0 0).core 1).inboxs.extractLsb' 32 16).toNat * 16 = 0 :=
  ⟨⟨performs rfl rfl (by decide) rfl rfl rfl,
      quiet rfl rfl (oneCore (P := fun k => k.castQ = []) rfl rfl rfl) rfl,
      calm rfl (oneCore (P := fun k => k.lost = false) rfl rfl rfl) rfl, rfl, rfl, rfl⟩, by decide, by decide⟩

/-- Job 9 with channels 0 and 63. -/
def job9 : Job := { id := 9#32, channels := 0x8000000000000001#64, logged := false }

/-- The witness thread with 63 in x6, 64 in x14, 1 in x15 and 2 in x16. -/
def caster : Thread := { th with x := (((th.x.set 6 63#64).set 14 64#64).set 15 1#64).set 16 2#64 }

/-- The caster under that job. -/
def casting : State := { one caster with jobs := [job9] }

/-- The last channel number and the first that is none; `castsub` operands 1 and 2; a channel of the job and one that is
not. -/
theorem witness_CastInstructions :
    (Performs casting 17#16 caster ∧ Claims.Settled casting 17#16 caster ∧ casting.resync = [] ∧ caster.vres = [] ∧
      caster.gang = none ∧ caster.latchCnt = none) ∧
    63 < (caster.reg 14#5).toNat ∧ ((caster.reg 6#5).toNat ≤ 63 ∧ 1 < (caster.reg 16#5).toNat) ∧
    (casting.jobs = [job9] ∧ job9.id = caster.job) ∧ job9.channels.getLsbD (caster.reg 7#5).toNat = false ∧
    job9.channels.getLsbD (caster.reg 6#5).toNat = true ∧ (casting.emitQ ((17#16).toNat / 128)).length < 16 ∧
    (caster.reg 15#5).toNat ≤ 1 :=
  ⟨⟨performs rfl rfl rfl rfl rfl rfl, settled rfl rfl (by decide), rfl, rfl, rfl, rfl⟩, by decide, by decide, ⟨rfl, rfl⟩, by decide,
    by decide, by decide, by decide⟩

/-- An object of job 9 with three parties, at phase 4 with one arrival. -/
def pourOf (kind : BitVec 2) (scope : Bool) (home : BitVec 6) : PourObj :=
  { PourObj.reset with
    kind := kind, job := 9#32, scope := scope, home := home, parties := 3#24, arr := 1#24, phase := 4#32, val := 0x400000000#64 }

/-- The witness thread with index 5 in x5, 6 in x6, 7 in x7, 1024 in x14, a well-formed control word in x15, one of no parties
in x16, and two targets of the timeline in x17 and x18. -/
def pourer : Thread :=
  { th with
    x := (((((((th.x.set 5 5#64).set 6 6#64).set 7 7#64).set 14 1024#64).set 15 3#64).set 16 0#64).set 17
      0x400000000#64).set 18 0x400000001#64 }

/-- Barrier 5, timeline 6, and barrier 7 of the domain of rank 1. -/
def poured (t : Thread) : State :=
  { one t with
    pour := [(5, pourOf 1#2 false 0#6), (6, pourOf 2#2 false 0#6), (7, pourOf 1#2 true 1#6)]
    ranks := table (((Vector.replicate 64 0#64).set 0 0x8000000000000000#64).set 1 0x8000000000000000#64) }

/-- An index above 1023; an object of another kind, and a free one for a form that is no init. -/
theorem witness_ObjectChecks : Performs (poured pourer) 17#16 pourer ∧
    (Instr.barReg 14#5, 1#2, false) ∈ Claims.objectForms 0#5 14#5 0#5 0#5 ∧ 1023 < (pourer.reg 14#5).toNat ∧
    ((Instr.barReg 6#5, 1#2, false) ∈ Claims.objectForms 0#5 6#5 0#5 0#5 ∧ (pourer.reg 6#5).toNat ≤ 1023 ∧
      (∀ m, (poured pourer).frozenAt ((17#16).toNat / 128) = some m → (17#16).toNat ∉ m.late) ∧
      ¬ (((poured pourer).mirrorObj ((17#16).toNat / 128) (pourer.reg 6#5).toNat).kind = 1#2 ∧
        ((poured pourer).mirrorObj ((17#16).toNat / 128) (pourer.reg 6#5).toNat).job = pourer.job)) ∧
    (((poured pourer).mirrorObj ((17#16).toNat / 128) 0).kind = 0#2 ∧
      ¬ (false = true ∧ ((poured pourer).mirrorObj ((17#16).toNat / 128) 0).kind = 0#2)) :=
  ⟨performs rfl rfl rfl rfl rfl rfl, by simp [Claims.objectForms], by decide, ⟨by simp [Claims.objectForms], by decide, nofun, by decide⟩,
    by decide, by decide⟩

/-- The pourer that has promised barrier 5 and arrived in phase 3. -/
def arriver : Thread :=
  { pourer with
    promises := pourer.promises.set 0 (some (.barrier 5#10)), arrRec := some { obj := 5#10, phase := 3#32 } }

/-- The pourer that has arrived in phase 4, its promise table full. -/
def promiseless : Thread :=
  { pourer with
    promises := Vector.replicate 8 (some (.granule 3)), arrRec := some { obj := 5#10, phase := 4#32 } }

/-- A free object and a barrier of the job; a malformed control word and a well-formed one; the promise there, a free entry for
it, and none; a barrier of the module and one of a domain; a phase that has passed, and one that has not. -/
theorem witness_BarrierInstructions :
    (Performs (poured pourer) 17#16 pourer ∧ Claims.Settled (poured pourer) 17#16 pourer ∧ (poured pourer).resync = [] ∧
      pourer.latchCnt = none ∧ (pourer.reg 5#5).toNat ≤ 1023) ∧
    (((poured pourer).pourObj 0).kind = 0#2 ∧ ((poured pourer).pourObj 5).kind = 1#2 ∧
      ((poured pourer).pourObj 5).job = pourer.job) ∧
    (¬ (pourer.reg 16#5).extractLsb' 0 24 ≠ 0#24) ∧
    ((pourer.reg 15#5 &&& ~~~0x3F0100FFFFFF#64) = 0#64 ∧ (pourer.reg 15#5).extractLsb' 0 24 ≠ 0#24 ∧
      ((pourer.reg 15#5).getLsbD 32 = true → (pourer.reg 15#5).extractLsb' 40 6 = (poured pourer).ownRank pourer.job) ∧
      ((poured pourer).emitQ ((17#16).toNat / 128)).length < 16) ∧
    ((0x100000003#64).getLsbD 32 = true ∧ (0x100000003#64).extractLsb' 40 6 = (poured pourer).ownRank pourer.job ∧
      ((poured pourer).emitQ 512).length < 16) ∧
    (some (.barrier 5#10) ∈ arriver.promises.toList) ∧
    (some (.barrier 5#10) ∉ pourer.promises.toList ∧ pourer.promises[(0 : Fin 8)] = none ∧
      (∀ m : Fin 8, m < 0 → pourer.promises[m] ≠ none) ∧ pourer.gang = none) ∧
    (some (.barrier 5#10) ∉ promiseless.promises.toList ∧ none ∉ promiseless.promises.toList) ∧
    ((pourOf 1#2 false 0#6).scope = false ∧ (pourOf 1#2 true 1#6).scope = true ∧
      (pourOf 1#2 true 1#6).home ≠ (poured pourer).ownRank pourer.job ∧
      ((poured pourer).rankEntry { job := pourer.job, rank := (pourOf 1#2 true 1#6).home }).getLsbD 63 = true ∧
      ((poured pourer).rankEntry { job := pourer.job, rank := (pourOf 1#2 true 1#6).home }).extractLsb' 61 2 = 0#2) ∧
    (Performs (poured arriver) 17#16 arriver ∧ 0 < ((pourOf 1#2 false 0#6).phase - 3#32).toInt) ∧
    (Performs (poured promiseless) 17#16 promiseless ∧ ((pourOf 1#2 false 0#6).phase - 4#32).toInt ≤ 0 ∧
      (pourOf 1#2 false 0#6).wheld = 0) :=
  ⟨⟨performs rfl rfl rfl rfl rfl rfl, settled rfl rfl (by decide), rfl, rfl, by decide⟩, ⟨rfl, rfl, rfl⟩, by decide,
    ⟨by decide, by decide, by decide, by decide⟩, ⟨by decide, by decide, by decide⟩, by decide,
    ⟨by decide, by decide, by decide, rfl⟩, ⟨by decide, by decide⟩,
    ⟨rfl, rfl, by decide, by decide, by decide⟩, ⟨performs rfl rfl rfl rfl rfl rfl, by decide⟩,
    performs rfl rfl rfl rfl rfl rfl, by decide, rfl⟩

/-- A timeline of the job, at a target that it has reached and at the next. -/
theorem witness_TimelineInstructions : Performs (poured pourer) 17#16 pourer ∧
    Claims.Settled (poured pourer) 17#16 pourer ∧ (poured pourer).resync = [] ∧ pourer.latchCnt = none ∧
    (pourer.reg 6#5).toNat ≤ 1023 ∧ ((poured pourer).pourObj (pourer.reg 6#5).toNat).kind = 2#2 ∧
    ((poured pourer).pourObj (pourer.reg 6#5).toNat).job = pourer.job ∧ ((poured pourer).pourObj 0).kind = 0#2 ∧
    ((poured pourer).emitQ ((17#16).toNat / 128)).length < 16 ∧
    0 ≤ (((poured pourer).pourObj (pourer.reg 6#5).toNat).val - pourer.reg 17#5).toInt ∧
    (((poured pourer).pourObj (pourer.reg 6#5).toNat).val - pourer.reg 18#5).toInt < 0 ∧
    ((poured pourer).pourObj (pourer.reg 6#5).toNat).wheld = 0 :=
  ⟨performs rfl rfl rfl rfl rfl rfl, settled rfl rfl (by decide), rfl, rfl, by decide, by decide, by decide, rfl, by decide,
    by decide, by decide, by decide⟩

/-! ### The Pour -/

/-- A frame for object `o` from the witness thread. -/
def frame (o : BitVec 10) (count : BitVec 3) (payload : BitVec 256) : Frame :=
  { station := 0#10, obj := o, gtid := 17#22, job := 9#32, count := count, root := false, payload := payload }

/-- The payload of a `bar.init` of job 9 with seven parties, and that of a `tl.init` of job 9. -/
def barInit : BitVec 256 := BitVec.ofNat 256 (9 * 2 ^ 32 + 1 + 7 * 2 ^ 64)

/-- The payload of a `tl.init` of job 9. -/
def tlInit : BitVec 256 := BitVec.ofNat 256 (9 * 2 ^ 64 + 3)

/-- Object 5 as given; thread `t` alone. -/
def pouring (o : PourObj) (t : Thread) : State := { one t with pour := [(5, o)] }

theorem quietPour (o : PourObj) : Claims.Quiet (pouring o th) := quiet rfl rfl (fun _ => rfl) rfl

/-- A free object and one of the same kind and job; one of another kind, and one with an arrival. -/
theorem witness_ObjectFrames :
    (Claims.Quiet (pouring PourObj.reset th) ∧ (pouring PourObj.reset th).allreds = [] ∧
      ((pouring PourObj.reset th).pourObj (frame 5#10 0#3 barInit).obj.toNat).kind = 0#2) ∧
    (let o := (pouring { pourOf 1#2 false 0#6 with arr := 0#24 } th).pourObj 5
     o.kind = 1#2 ∧ o.job = barInit.extractLsb' 32 32 ∧ o.wheld = 0 ∧ o.arr = 0#24) ∧
    (let o := (pouring (pourOf 2#2 false 0#6) th).pourObj 5
     ¬ (o.kind = 0#2 ∨ o.kind = 1#2 ∧ o.job = barInit.extractLsb' 32 32 ∧ o.wheld = 0 ∧ o.arr = 0#24) ∧
       (o.kind = 2#2 ∧ o.job = tlInit.extractLsb' 64 32 ∧ o.wheld = 0)) ∧
    (let o := (pouring (pourOf 1#2 false 0#6) th).pourObj 5
     ¬ (o.kind = 0#2 ∨ o.kind = 1#2 ∧ o.job = barInit.extractLsb' 32 32 ∧ o.wheld = 0 ∧ o.arr = 0#24) ∧
       ¬ (o.kind = 0#2 ∨ o.kind = 2#2 ∧ o.job = tlInit.extractLsb' 64 32 ∧ o.wheld = 0)) :=
  ⟨⟨quietPour _, rfl, rfl⟩, by decide, by decide, by decide⟩

theorem sent_by {o : PourObj} {w : WaitFor} {f : Frame} (h : f.gtid = 17#22) (hj : f.job = 9#32) (hs : f.station = 0#10) :
    Claims.Sender (pouring o (waiting w 0 none)) 17#16 (waiting w 0 none) f where
  only := rfl
  plain := plainThread rfl rfl rfl rfl
  calm := calm rfl (fun _ => rfl) rfl
  sums := rfl
  thread := by
    rw [h]
    show (17#22 : BitVec 22) = State.reset.ownRank 9#32 ++ 17#16
    decide
  job := hj
  station := by rw [hs]; rfl

/-- The issuer of each frame; the last arrival of a phase that a thread waits for; an add that reaches its target. -/
theorem witness_FrameWaiters :
    (Claims.Sender (pouring (pourOf 1#2 false 0#6) (waiting (.frame .bararr .arrive 5#10) 0 none)) 17#16
        (waiting (.frame .bararr .arrive 5#10) 0 none) (frame 5#10 0#3 0#256) ∧
      (frame 5#10 0#3 0#256).payload = 0#256 ∧
      ∃ w, (waiting (.frame .bararr .arrive 5#10) 0 none).wait = some w ∧ w.what = .frame .bararr .arrive 5#10) ∧
    (Claims.Sender (pouring PourObj.reset (waiting (.frame .cast .cast 5#10) 0 none)) 17#16
        (waiting (.frame .cast .cast 5#10) 0 none) (frame 5#10 0#3 7#256) ∧
      (pouring PourObj.reset (waiting (.frame .cast .cast 5#10) 0 none)).cores = []) ∧
    (Claims.Sender (pouring PourObj.reset (waiting (.frame .barinit (.init true) 5#10) 0 none)) 17#16
        (waiting (.frame .barinit (.init true) 5#10) 0 none) (frame 5#10 0#3 barInit) ∧ PourObj.reset.kind = 0#2 ∧
      barInit.getLsbD 2 = false ∧ (pourOf 2#2 false 0#6).kind ≠ 0#2 ∧ (pourOf 2#2 false 0#6).kind ≠ 1#2) ∧
    (Claims.Sender (pouring { pourOf 1#2 false 0#6 with arr := 2#24 } (waiting (.barrier 5#10 4#32) 0 none)) 17#16
        (waiting (.barrier 5#10 4#32) 0 none) (frame 5#10 0#3 0#256) ∧
      { pourOf 1#2 false 0#6 with arr := 2#24 }.arr + 1#24 = (pourOf 1#2 false 0#6).parties ∧
      0 < ((pourOf 1#2 false 0#6).phase + 1#32 - 4#32).toInt) ∧
    (Claims.Sender (pouring (pourOf 2#2 false 0#6) (waiting (.timeline 5#10 0x400000003#64) 0 none)) 17#16
        (waiting (.timeline 5#10 0x400000003#64) 0 none) (frame 5#10 0#3 3#256) ∧
      0 ≤ ((pourOf 2#2 false 0#6).val + (3#256 : BitVec 256).extractLsb' 0 64 - 0x400000003#64).toInt) :=
  ⟨⟨sent_by rfl rfl rfl, rfl, _, rfl, rfl⟩, ⟨sent_by rfl rfl rfl, rfl⟩, ⟨sent_by rfl rfl rfl, rfl, by decide, by decide, by decide⟩,
    ⟨sent_by rfl rfl rfl, by decide, by decide⟩, sent_by rfl rfl rfl, by decide⟩

/-- The entry of a HOLD frame for granule 33 of core 20, and for tag 3 of thread 0x102. -/
def holdGranule : BitVec 256 := BitVec.ofNat 256 (20 * 2 ^ 15 + 33)

/-- The entry of a HOLD frame for tag 3 of thread 0x102. -/
def holdTag : BitVec 256 := BitVec.ofNat 256 (2 ^ 38 + 3 * 2 ^ 34 + 0x102)

/-- The entry of a HOLD frame for barrier 5. -/
def holdBarrier : BitVec 256 := BitVec.ofNat 256 (2 * 2 ^ 38 + 5)

/-- A frame of one entry for a barrier, a granule and a tag; tables without repeats, with and without the object; and a thread
that waits for a barrier, live and halted on it. -/
theorem witness_HoldAndReleaseFrames :
    (Claims.Quiet (pouring (pourOf 1#2 false 0#6) th) ∧
      (∀ n, ((pouring (pourOf 1#2 false 0#6) th).cluster n).forward = []) ∧ (frame 0#10 1#3 holdBarrier).count = 1#3 ∧
      holdBarrier.extractLsb' 0 40 = 2#2 ++ 0#4 ++ (5#10).setWidth 34 ∧ (pourOf 1#2 false 0#6).scope = false) ∧
    (holdGranule.extractLsb' 0 40 = (0#2 ++ 0#4 ++ 0#1 ++ plain.ownRank 9#32 ++ 20#12 ++ 33#15 : BitVec 40) ∧
      holdTag.extractLsb' 0 40 = 1#2 ++ 3#4 ++ (plain.ownRank 9#32 ++ 0x102#16 : BitVec 22).setWidth 34 ∧
      (((plain.cluster 2).withheld.map (·.1)).Nodup) ∧ (plain.cluster 2).withheld.length < 1024 ∧
      (∀ y ∈ (plain.cluster 2).withheld, y.2 ≠ 0) ∧ (plain.cluster 2).missed = []) ∧
    ((pouring (pourOf 1#2 false 0#6) (waiting (.barrier 5#10 4#32) 0 none)).threads =
        [((17#16).toNat, waiting (.barrier 5#10 4#32) 0 none)] ∧
      Claims.Calm (pouring (pourOf 1#2 false 0#6) (waiting (.barrier 5#10 4#32) 0 none)) ∧
      ((pourOf 1#2 false 0#6).phase - 4#32).toInt ≤ 0 ∧ (waiting (.barrier 5#10 4#32) 0 none).run = .live ∧
      { waiting (.barrier 5#10 4#32) 0 none with run := .dep (.barrier 5#10) }.run = .dep (.barrier 5#10) ∧
      { pourOf 1#2 false 0#6 with wheld := 1 }.wheld = 1) :=
  ⟨⟨quietPour _, fun _ => rfl, rfl, by decide, rfl⟩,
    ⟨by decide, by decide, List.nodup_nil, by decide, (fun _ h => absurd h List.not_mem_nil), rfl⟩,
    rfl, calm rfl (fun _ => rfl) rfl, by decide, rfl, rfl, rfl⟩

/-- Core 1 with an inbox of 16 units, `used` taken, its tail at unit `tail`, subscribed to channel 5. -/
def subscribed (used tail : Nat) : State :=
  { stored with cores := [(1, { inbox used tail with subs := 0x20#64 })] }

theorem inboxForm (used tail : Nat) (h1 : ((subscribed used tail).core 1).inboxb.extractLsb' 4 15 = 0x100#15)
    (h2 : ((subscribed used tail).core 1).inboxs.extractLsb' 0 16 = 16#16)
    (h3 : (((subscribed used tail).core 1).inboxb.extractLsb' 32 16).toNat < 16) :
    ∀ c, (((subscribed used tail).core c).inboxb.extractLsb' 4 15).toNat * 16 +
        (((subscribed used tail).core c).inboxs.extractLsb' 0 16).toNat * 16 ≤ 0x80000 ∧
      (((subscribed used tail).core c).inboxs.extractLsb' 0 16 = 0#16 ∨
        (((subscribed used tail).core c).inboxb.extractLsb' 32 16).toNat <
          (((subscribed used tail).core c).inboxs.extractLsb' 0 16).toNat) := by
  intro c
  by_cases h : c = 1
  · subst h
    rw [h1, h2]
    exact ⟨by decide, .inr h3⟩
  · have hc : (subscribed used tail).core c = Core.reset := by
      simp only [State.core, subscribed, assocGet, Ne.symm h, if_false]; rfl
    rw [hc]
    exact ⟨by decide, .inl (by decide)⟩

/-- A subscribed core whose ring takes the record at its last units, one whose ring is full, and one without a
subscription. -/
theorem witness_CastFrames :
    ((subscribed 13 13).Inv ∧ Claims.Quiet (subscribed 13 13) ∧ Claims.Calm (subscribed 13 13) ∧
      Claims.Clean (subscribed 13 13) ∧ assocSorted (subscribed 13 13).cores = true ∧
      (∀ c, (((subscribed 13 13).core c).inboxb.extractLsb' 4 15).toNat * 16 +
          (((subscribed 13 13).core c).inboxs.extractLsb' 0 16).toNat * 16 ≤ 0x80000 ∧
        (((subscribed 13 13).core c).inboxs.extractLsb' 0 16 = 0#16 ∨
          (((subscribed 13 13).core c).inboxb.extractLsb' 32 16).toNat <
            (((subscribed 13 13).core c).inboxs.extractLsb' 0 16).toNat))) ∧
    (((subscribed 13 13).core 1).subs.getLsbD ((frame 5#10 0#3 7#256).obj.toNat % 64) = true ∧
      13 * 16 + 48 ≤ 16 * 16 ∧ (((subscribed 13 13).core 1).inboxs.extractLsb' 32 16).toNat = 13 ∧
      (((subscribed 13 13).core 1).inboxb.extractLsb' 32 16).toNat = 13) ∧
    16 * 16 < (((subscribed 14 14).core 1).inboxs.extractLsb' 32 16).toNat * 16 + 48 ∧
    ((subscribed 13 13).core 2).subs.getLsbD 5 = false :=
  ⟨⟨⟨by decide, rfl⟩, quiet rfl rfl (oneCore (P := fun k => k.castQ = []) rfl rfl rfl) rfl,
      calm rfl (oneCore (P := fun k => k.lost = false) rfl rfl rfl) rfl, clean rfl rfl rfl, rfl,
      inboxForm 13 13 (by decide) (by decide) (by decide)⟩,
    ⟨by decide, by decide, by decide, by decide⟩, by decide, by decide⟩

/-- A contribution of 64 bytes of which `seen` frames are there. -/
def contribution (seen : Nat) : Contribution :=
  { obj := 5#10, phase := 3#32, core := 1#12, seq := 4#64, gtid := 17#22, count := 64, ty := 0#2, isMax := false, data := []
    seen := seen }

/-- A contribution with a frame to come; a forwarding entry of a whole core and its frame; a DRAIN frame toward rank 2 with a
listed core. -/
theorem witness_OtherFrames :
    (({ plain with allreds := [contribution 1] }).allreds = [contribution 1] ∧ (contribution 1).obj = 5#10 ∧
      (contribution 1).gtid = 17#22 ∧ 32 * (contribution 1).seen < (contribution 1).count) ∧
    (((forwarding 100).cluster (((BitVec.ofNat 256 (2 ^ 32 + 2 * 2 ^ 16 + 1)).extractLsb' 0 16).toNat / 8)).forward = [fwd] ∧
      (BitVec.ofNat 256 (2 ^ 32 + 2 * 2 ^ 16 + 1)).getLsbD 32 = fwd.whole ∧
      fwd.src = (BitVec.ofNat 256 (2 ^ 32 + 2 * 2 ^ 16 + 1)).extractLsb' 0 16 ∧ fwd.last ≤ (forwarding 100).time ∧
      (frame 5#10 0#3 0#256).gtid.extractLsb' 16 6 = (forwarding 100).ownRank 9#32 ∧
      { frame 5#10 0#3 0#256 with gtid := 0x10011#22 }.gtid.extractLsb' 16 6 ≠ (forwarding 100).ownRank 9#32) ∧
    (((1#12).toNat, Core.reset) ∈ (atCore 17 th Core.reset).cores ∧ (4#256).getLsbD (2#6).toNat = true ∧
      2#6 ≠ (atCore 17 th Core.reset).ownRank 9#32) :=
  ⟨⟨rfl, rfl, rfl, by decide⟩, ⟨by rfl, by decide, by decide, by decide, by decide, by decide⟩, List.mem_singleton.2 rfl, by decide, by decide⟩

/-- Three frames in the queue of station 0, ready at a cycle. -/
def waitingFrames (due : Nat) : State :=
  { plain with emit := [(0, List.replicate 3 { ty := .tladd, first := false, due := due, f := frame 5#10 0#3 7#256 })] }

/-- A frame on its way to the stations. -/
def lostFrame : State :=
  { plain with timed := [{ due := 110, order := 0, what := .frame .tladd (frame 5#10 0#3 7#256) }] }

/-- An emit queue of three frames that may leave, and one whose frames wait; a station whose core is subscribed to the lost cast; a station that resynchronises, with a
thread whose phase has passed; a packet of a domain barrier of this rank, and of another for an arrival of a waiting
thread. -/
theorem witness_PourStations :
    (assocSorted (waitingFrames 0).emit = true ∧ (waitingFrames 0).time = 100 ∧
      (∀ x ∈ ((waitingFrames 0).emitQ (0#10).toNat).take 2, x.due ≤ (waitingFrames 0).time) ∧
      ((waitingFrames 0).emitQ (0#10).toNat).length = 3 ∧
      ∀ x ∈ (waitingFrames 101).emitQ (0#10).toNat, (waitingFrames 101).time < x.due) ∧
    ((lostFrame.timed.map (·.what)) = [.frame .tladd (frame 5#10 0#3 7#256)]) ∧
    ((0#10) ∉ (subscribed 13 13).resync ∧ assocSorted (subscribed 13 13).frozen = true ∧ (subscribed 13 13).timed = []) ∧
    (Claims.Quiet (subscribed 13 13) ∧ (subscribed 13 13).allreds = [] ∧
      (subscribed 13 13).cores = [(1, { inbox 13 13 with subs := 0x20#64 })] ∧ 1 / 8 = (0#10).toNat ∧
      { inbox 13 13 with subs := 0x20#64 }.subs.getLsbD ((5#10).toNat % 64) = true ∧
      { inbox 13 13 with subs := 0x20#64 }.inboxs.extractLsb' 48 16 ≠ 0xFFFF#16) ∧
    (({ pouring (pourOf 1#2 false 0#6) (waiting (.barrier 5#10 3#32) 0 none) with resync := [0#10] }).resync = [0#10] ∧
      Claims.Plain (waiting (.barrier 5#10 3#32) 0 none) ∧ (0#10).toNat = (17#16).toNat / 128 ∧
      assocGet (0#10).toNat plain.frozen = none ∧ 0 < ((pourOf 1#2 false 0#6).phase - 3#32).toInt) ∧
    ((pourOf 1#2 false 0#6).home = plain.ownRank (pourOf 1#2 false 0#6).job ∧
      (pourOf 1#2 true 1#6).home ≠ plain.ownRank (pourOf 1#2 true 1#6).job ∧
      Claims.Sender (pouring (pourOf 1#2 true 1#6) (waiting (.frame .bararr .arrive 5#10) 0 none)) 17#16
        (waiting (.frame .bararr .arrive 5#10) 0 none) (frame 5#10 0#3 0#256)) :=
  ⟨⟨rfl, rfl, by decide, by decide, by decide⟩, rfl, ⟨by decide, rfl, rfl⟩,
    ⟨quiet rfl rfl (oneCore (P := fun k => k.castQ = []) rfl rfl rfl) rfl, rfl, rfl, by decide, by decide, by decide⟩,
    ⟨rfl, plainThread rfl rfl rfl rfl, by decide, rfl, by decide⟩, rfl, by decide, sent_by rfl rfl rfl⟩

/-! ### Tile commands and copies -/

/-- A command of the witness thread. -/
def command (w : Nat) : Cmd :=
  { word := BitVec.ofNat 256 w, word1 := 0#256, two := false, tid := 17#16, gtid := 17#22, group := 1, job := 9#32, seq := 3#64, ready := 0
    who := .live 17, obj := none }

/-- The command at the head of q0 of core 1, with another behind it. -/
def headed (h : Cmd) (k : Core) : State := atCore 17 th { k with q0 := [h, command 0] }

/-- The command at the head of q4 of core 1, with another behind it. -/
def copying (h : Cmd) (k : Core) : State := { atCore 17 th { k with q4 := [h, command 0] } with groups := [grp .thread [1#12]] }

theorem atHead {h : Cmd} {k : Core} (h1 : k.q0Phase = .queued) (h2 : k.mefault.getLsbD 63 = false) (h3 : h.ready = 0)
    (h4 : k.q0Ready = 0) (h5 : (k.mebudget.extractLsb' 24 16).toNat ≤ k.meBucket) (h6 : k.q0Work = []) :
    Claims.AtHead (headed h k) 1#12 h [command 0] where
  queue := rfl
  phase := h1
  idle := h6
  free := h2
  seen := ⟨h3 ▸ Nat.zero_le _, Nat.le_trans (Nat.le_of_eq h4) (Nat.zero_le _)⟩
  events := oneThread (P := fun t => t.events = []) rfl rfl
  units := h5
  budget := rfl

theorem copyNext {h : Cmd} {k : Core} (h1 : k.q4Held = false) (h2 : h.ready = 0) (h3 : k.copies = [])
    (h4 : ∀ n : Fin 4, (k.fabqos[n]).extractLsb' 4 16 = 0#16) :
    Claims.CopyNext (copying h k) 1#12 h [command 0] where
  queue := rfl
  going := h1
  seen := h2 ▸ Nat.zero_le _
  idle := ⟨fun _ hx => List.mem_singleton.1 hx ▸ h3, rfl⟩
  events := oneThread (P := fun t => t.events = []) rfl rfl
  paths := rfl
  free := h4

theorem headedForm (h : Cmd) (k : Core) : (headed h k).Inv := ⟨by show Mem.wf stored.mem = true; decide, rfl⟩

theorem copyingForm (h : Cmd) (k : Core) : (copying h k).Inv := ⟨by show Mem.wf stored.mem = true; decide, rfl⟩

/-- `tnop`, `sig` with post, signal, a tag and a granule, and `tfence`; the reserved bits at both ends, set. -/
theorem witness_BareCommands :
    (Claims.AtHead (headed (command 0) Core.reset) 1#12 (command 0) [command 0] ∧ Claims.formed (command 0) 0x00#8 0#256) ∧
    Claims.formed (command (0x10 + 2 ^ 9 + 2 ^ 10 + 0x55 * 2 ^ 16 + 7 * 2 ^ 32)) 0x10#8 0#256 ∧
    Claims.formed (command 0x11) 0x11#8 0#256 ∧
    ((command (2 ^ 8)).word.extractLsb' 0 8 = 0x00#8 ∧ ¬ Claims.formed (command (2 ^ 8)) 0x00#8 0#256 ∧
      ¬ Claims.formed (command (0x10 + 2 ^ 255)) 0x10#8 0#256 ∧ ¬ Claims.formed (command (0x11 + 2 ^ 40)) 0x11#8 0#256) ∧
    ((command (2 ^ 8)).who = .live 17 ∧ (headed (command (2 ^ 8)) Core.reset).thread? (17#16).toNat = some th ∧ th.wait = none) ∧
    (Claims.CopyNext (copying (command 0) Core.reset) 1#12 (command 0) [command 0] ∧
      (copying (command (2 ^ 8)) Core.reset).thread? (17#16).toNat = some th) :=
  ⟨⟨atHead rfl rfl rfl rfl (by decide) rfl, by unfold Claims.formed; decide +kernel⟩, by unfold Claims.formed; decide +kernel, by unfold Claims.formed; decide +kernel,
    ⟨by decide, by unfold Claims.formed; decide +kernel, by unfold Claims.formed; decide +kernel, by unfold Claims.formed; decide +kernel⟩, ⟨rfl, rfl, rfl⟩, copyNext rfl rfl rfl (by decide), rfl⟩

/-- Core 1 with format code `f` in the scratchpad banks 1 and 31 and a full charge bucket. -/
def formats (f : Nat) : Core :=
  { Core.reset with bfmt := (Core.reset.bfmt.set 1 (BitVec.ofNat 64 f)).set 31 (BitVec.ofNat 64 f) }

/-- What the element commands ask of the bank at `at_`: its format is one of the codes, plain, and the same bank register
holds to the end of the elements. -/
def fits (f at_ bytes : Nat) : Prop :=
  (((formats f).bfmt[at_ / 16384]?).getD 0#64).toNat = f ∧ at_ % 16 = 0 ∧ at_ + bytes ≤ 0x80000 ∧
    ((formats f).bfmt[(at_ + bytes - 1) / 16384]?).getD 0#64 = ((formats f).bfmt[at_ / 16384]?).getD 0#64

/-- Each command of accumulator 2 as it is formed; every format that a clause names, at a bank's start and where its
elements end with the scratchpad. -/
theorem witness_AccumulatorCommands :
    (∀ h f, (headed h (formats f)).Inv ∧ Claims.Clean (headed h (formats f)) ∧
      assocSorted ((headed h (formats f)).core 1).acc = true ∧
      (h.ready = 0 → Claims.AtHead (headed h (formats f)) 1#12 h [command 0])) ∧
    Claims.formed (command (0x08 + 2 * 2 ^ 64)) 0x08#8 (3#256 <<< 64) ∧
    (let h := command (0x109 + 2 * 2 ^ 64 + 0xFFFFFFFF * 2 ^ 128)
     Claims.formed h 0x09#8 ((3#256 <<< 64) ||| 0x100#256 ||| (0xFFFFFFFF#256 <<< 128)) ∧ h.word.getLsbD 8 = true) ∧
    Claims.formed (command (0x09 + 2 * 2 ^ 64 + 0x4000 * 2 ^ 96)) 0x09#8 ((3#256 <<< 64) ||| (0x7FFFF#256 <<< 96)) ∧
    Claims.formed (command (0x0A + 2 * 2 ^ 64 + 2 ^ 12 + 0x7E000 * 2 ^ 96)) 0x0A#8
      ((3#256 <<< 64) ||| 0x1000#256 ||| (0x7FFFF#256 <<< 96)) ∧
    (∀ f ∈ [0, 1, 2, 3, 7], fits f 0x4000 8192 ∧ fits f 0x7E000 8192 ∧ (BitVec.ofNat 64 f).extractLsb' 10 4 = 0#4 ∧
      ((BitVec.ofNat 64 f).extractLsb' 16 4).toNat ≤ 8) ∧
    (∀ f ∈ [2, 3], fits f 0x7F000 4096) ∧ (formats 2).poison.getLsbD 2 = false ∧ (formats 2).accBad.getLsbD 2 = false :=
  ⟨fun h f => ⟨headedForm h _, clean rfl rfl rfl, rfl, fun hr => atHead rfl
      (by show Core.reset.mefault.getLsbD 63 = false; decide) hr rfl
      (by show (Core.reset.mebudget.extractLsb' 24 16).toNat ≤ Core.reset.meBucket; decide) rfl⟩,
    by unfold Claims.formed; decide +kernel, ⟨by unfold Claims.formed; decide +kernel, by decide +kernel⟩, by unfold Claims.formed; decide +kernel, by unfold Claims.formed; decide +kernel, by unfold fits; decide +kernel,
    by unfold fits; decide +kernel, rfl, rfl⟩

/-- Core 1 with ring 0 in bank 1 (A, format register `f`) and ring 1 in bank 2 (B, `g`), tiles of `ta` and `tb` bytes, one of
A and two of B in them. -/
def tiled (f g : Word) (ta tb : Nat) : Core :=
  { Core.reset with
    bfmt := (Core.reset.bfmt.set 1 f).set 2 g, ringBase := (Core.reset.ringBase.set 0 0x4000#64).set 1 0x8000#64
    ringTile := (Core.reset.ringTile.set 0 (BitVec.ofNat 64 ta)).set 1 (BitVec.ofNat 64 tb)
    ringSize := (Core.reset.ringSize.set 0 0x4000#64).set 1 0x4000#64
    ringTail := (Core.reset.ringTail.set 0 1#64).set 1 2#64 }

/-- An array command into accumulator 2 that keeps ring 1. -/
def arrayCmd (op zacc : Nat) (w1 : Nat) : Cmd :=
  { command (op + 2 * 2 ^ 64 + 2 ^ 80 + zacc * 2 ^ 88 + 2 ^ 13) with
    word1 := BitVec.ofNat 256 (0xFF + 2 ^ 32 + 2 ^ 127 + w1), two := true }

/-- Well formed for an array command with the fields `extra` in its second word (R304). -/
def arrayForm (h : Cmd) (op : BitVec 8) (extra : BitVec 256) : Prop :=
  Claims.formed h op ((3#256 <<< 64) ||| (7#256 <<< 72) ||| (7#256 <<< 80) ||| (1#256 <<< 88) ||| 0x3000#256) ∧ h.two = true ∧
    h.word1.extractLsb' 0 8 = 0xFF#8 ∧ h.word1 &&& ~~~(0xFF#256 ||| (0xFFFFFFFFFFFFFFFFFFFFFFFF#256 <<< 32) ||| extra) = 0#256

/-- The checks of R305 pass for the formats, and the tiles are there. -/
def arrayReady (h : Cmd) (f g : Word) (ta tb : Nat) (op tiles : Nat) : Prop :=
  arrayCheck (tiled f g ta tb) h op = none ∧ 1 ≤ (tiled f g ta tb).ringOcc 0 ∧ tiles ≤ (tiled f g ta tb).ringOcc 1

/-- The format register of INT8 elements, of BF16 elements, and of 8-bit asymmetric ones with groups of 32 and their table at
`scale`. -/
def asym8 (scale : Nat) : Word := BitVec.ofNat 64 (0x40F + scale / 16 * 2 ^ 25)

/-- Memory whose `n` bytes from `a` on are 0x44, metadata that keeps positions 0 and 1 of every four. -/
def kept (a : Nat) : Nat → Mem
  | 0 => []
  | n + 1 => (a, 0x44#8) :: kept (a + 1) n

theorem loadByte_kept {a n x : Nat} (h1 : a ≤ x) (h2 : x < a + n) : loadByte (kept a n) x = 0x44#8 := by
  induction n generalizing a with
  | zero => omega
  | succ n ih =>
    by_cases hx : a = x
    · simp [kept, loadByte, assocGet, hx]
    · have := ih (a := a + 1) (by omega) (by omega)
      simpa [kept, loadByte, assocGet, hx, Ne.symm hx] using this

theorem arrayForms : (∀ z ∈ [0, 1], arrayForm (arrayCmd 1 z 0) 0x01#8 0#256) ∧
    arrayForm (arrayCmd 2 0 (0xC000 * 2 ^ 128)) 0x02#8 (0x7FFFF#256 <<< 128) ∧
    arrayForm (arrayCmd 3 0 (384 * 2 ^ 144)) 0x03#8 (0xFFFFFFFF#256 <<< 128) := by
  unfold arrayForm Claims.formed
  decide +kernel

theorem arraysReady : arrayReady (arrayCmd 1 0 0) 8#64 8#64 2048 4096 1 1 ∧
    arrayReady (arrayCmd 1 1 0) 2#64 2#64 2048 4096 1 1 ∧ arrayReady (arrayCmd 2 0 (0xC000 * 2 ^ 128)) 8#64 8#64 2048 4096 2 2 ∧
    arrayReady (arrayCmd 3 0 (384 * 2 ^ 144)) 8#64 (asym8 0x7F800) 2048 4096 3 1 := by
  unfold arrayReady
  decide +kernel

theorem noneBad : spBad (kept (own + 0xC000) 512) 1 0xC000 64 = none := by
  simp only [spBad, Option.map_eq_none_iff, List.find?_eq_none, List.mem_flatMap, List.mem_map, List.mem_range]
  rintro _ ⟨i, hi, g, hg, rfl⟩
  have h : loadByte (kept (own + 0xC000) 512) (spadAddr 1 (0xC000 + i * (64 / 4) + g / 2)) = 0x44#8 :=
    loadByte_kept (by simp [spadAddr, spadBase, spadSize, own]; omega) (by simp [spadAddr, spadBase, spadSize, own]; omega)
  have hn : spNibble (kept (own + 0xC000) 512) 1 0xC000 64 i g = 4 := by
    simp only [spNibble, h]
    split <;> rfl
  simp [hn]

theorem tableGood : mmqRowBad stored.mem 1 ((tiled 8#64 (asym8 0x7F800) 2048 4096).operand 1 0) 384 64 64 = false := by
  decide +kernel

/-- `mma` of integers and of BF16, into a value and into nothing; `mma.sp` with its metadata; `mmq` of one asymmetric operand
whose table lies at the end of the scratchpad. -/
theorem witness_ArrayCommands :
    (∀ h k m, k.q0Phase = .queued → k.mefault.getLsbD 63 = false → h.ready = 0 → k.q0Ready = 0 →
      (k.mebudget.extractLsb' 24 16).toNat ≤ k.meBucket → k.q0Work = [] → assocSorted k.acc = true →
      Claims.AtHead { headed h k with mem := m } 1#12 h [command 0] ∧ Claims.Clean { headed h k with mem := m } ∧
        assocSorted (({ headed h k with mem := m } : State).core 1).acc = true) ∧
    ((∀ z ∈ [0, 1], arrayForm (arrayCmd 1 z 0) 0x01#8 0#256) ∧ arrayReady (arrayCmd 1 0 0) 8#64 8#64 2048 4096 1 1 ∧
      arrayReady (arrayCmd 1 1 0) 2#64 2#64 2048 4096 1 1 ∧ bfFmt 8#64 ∈ [8, 9, 10] ∧ bfFmt 2#64 ∉ [8, 9, 10]) ∧
    (arrayForm (arrayCmd 2 0 (0xC000 * 2 ^ 128)) 0x02#8 (0x7FFFF#256 <<< 128) ∧
      arrayReady (arrayCmd 2 0 (0xC000 * 2 ^ 128)) 8#64 8#64 2048 4096 2 2 ∧ spBad (kept (own + 0xC000) 512) 1 0xC000 64 = none) ∧
    (arrayForm (arrayCmd 3 0 (384 * 2 ^ 144)) 0x03#8 (0xFFFFFFFF#256 <<< 128) ∧
      arrayReady (arrayCmd 3 0 (384 * 2 ^ 144)) 8#64 (asym8 0x7F800) 2048 4096 3 1 ∧ codeAsym (bfFmt 8#64) = false ∧
      codeAsym (bfFmt (asym8 0x7F800)) = true ∧ entryOff (asym8 0x7F800) (384 + 64 * 64 / bfGroup (asym8 0x7F800)) = 0x80000 ∧
      mmqRowBad stored.mem 1 ((tiled 8#64 (asym8 0x7F800) 2048 4096).operand 1 0) 384 64 64 = false) ∧
    ((tiled 8#64 8#64 2048 4096).residue = 0 ∧ (tiled 8#64 8#64 2048 4096).poison.getLsbD 2 = false ∧
      (tiled 8#64 8#64 2048 4096).accBad.getLsbD 2 = false) :=
  ⟨fun _ _ _ h1 h2 h3 h4 h5 h6 h7 => ⟨{ atHead h1 h2 h3 h4 h5 h6 with }, clean rfl rfl rfl, h7⟩,
    ⟨arrayForms.1, arraysReady.1, arraysReady.2.1, by decide, by decide⟩,
    ⟨arrayForms.2.1, arraysReady.2.2.1, noneBad⟩,
    ⟨arrayForms.2.2, arraysReady.2.2.2, by decide, by decide +kernel, by decide +kernel, tableGood⟩, rfl, rfl, rfl⟩

/-- A status of a command that is done. -/
def doneStatus : Word := 0x0800000000000500#64

/-- A copy at work that ends at `due`. -/
def copyRun (w due : Nat) (fail : Option (Nat × Nat)) (flags : BitVec 6) : CopyRun :=
  { cmd := command w, far := false, flags := flags, fixed := false, fail := fail, written := 77, due := due, paused := none
    atPort := none, gate := none, copyIn := none, copyOut := none, dsts := [], wrote := [], beats := [], spans := [], convert := false
    samples := [], done := 0, snap := [] }

/-- An array command's work until `due`. -/
def workUntil (due : Nat) : MeWork := { status := doneStatus, due := due, writes := [], pops := true }

/-- The command at work in q0 until `due`, with `n` records in q1. -/
def working (w due n : Nat) : State :=
  headed (command w) { Core.reset with q0Work := [workUntil due], q1 := List.replicate n qrec }

/-- The copy at work, with `n` records in q5. -/
def moving (r : CopyRun) (n : Nat) : State :=
  { atCore 17 th { Core.reset with copies := [r], q5 := List.replicate n qrec } with groups := [grp .thread [1#12]] }

theorem quietCore (n : Nat) (k : Core) (h : k.castQ = []) : Claims.Quiet (atCore n th k) :=
  quiet rfl rfl (oneCore (P := fun k => k.castQ = []) rfl h rfl) rfl

/-- A command before its end, at it with q1 full, with one place, and with a signal; copies the same, with each outcome; a
bucket with a rate and without; and q0 free for the spare column. -/
theorem witness_EngineCompletions :
    (∀ w due n, (working w due n).Inv ∧ Claims.Quiet (working w due n) ∧ (working w due n).packets = [] ∧
      ((working w due n).core 1).q0 = [command w, command 0] ∧
      ((working w due n).core 1).q0Work = [workUntil due] ∧ (workUntil due).pops = true ∧ (command w).obj = none) ∧
    (((command 0x600).word.getLsbD 9 = true ∧ (command 0x600).word.getLsbD 10 = true ∧
        (command 0x600).word.getLsbD 11 = false ∧ (command 0).word.getLsbD 9 = false) ∧
      (working 0x600 101 0).time < 101 ∧ 100 ≤ (working 0x600 100 31).time ∧
      ((working 0x600 100 31).core 1).q1.length < 32 ∧ 32 ≤ ((working 0x600 100 32).core 1).q1.length) ∧
    (∀ w due fail flags n, let s := moving (copyRun w due fail flags) n
      Claims.Quiet s ∧ s.packets = [] ∧ (s.core 1).copies = [copyRun w due fail flags] ∧
        (∀ e ∈ (s.core 1).handles.toList, e.bound = false) ∧ ∃ g, s.group? (copyRun w due fail flags).cmd.group = some g) ∧
    (((command 0x240).word.getLsbD 9 = true ∧ (command 0x240).word.getLsbD 10 = false ∧
        (command 0x240).word.getLsbD 11 = false ∧ (command 0x40).word.getLsbD 9 = false) ∧
      (moving (copyRun 0x240 101 none 0#6) 0).time < 101 ∧ 100 ≤ (moving (copyRun 0x240 100 none 0#6) 15).time ∧
      ((moving (copyRun 0x240 100 none 0#6) 15).core 1).q5.length < 16 ∧
      16 ≤ ((moving (copyRun 0x240 100 none 0#6) 16).core 1).q5.length ∧
      ((copyRun 0x240 100 none 0#6).paused = none ∧ (copyRun 0x240 100 none 0#6).atPort = none ∧
        (copyRun 0x240 100 none 0#6).gate = none) ∧
      (∀ x : Nat × Nat, x = (3, 7) → x.1 < 16 ∧ x.2 < 65536) ∧ (0x20#6).getLsbD 5 = true ∧ (0x1F#6).getLsbD 5 = false) ∧
    (assocSorted (headed (command 0) Core.reset).cores = true ∧ (1, Core.reset) ∈ (atCore 17 th Core.reset).cores ∧
      (Core.reset.mebudget.extractLsb' 4 16).toNat = 0 ∧ (((0x30#64 : Word)).extractLsb' 4 16).toNat ≠ 0) ∧
    ((working 0 100 0).core 1).q0Phase = .queued ∧ ∀ w ∈ ((working 0 100 0).core 1).q0Work, w.due ≤ (working 0 100 0).time :=
  ⟨fun _ _ _ => ⟨headedForm _ _, quietCore _ _ rfl, rfl, rfl, rfl, rfl, rfl⟩,
    ⟨⟨by decide +kernel, by decide +kernel, by decide +kernel, by decide +kernel⟩, by decide, by decide, by decide, by decide⟩,
    fun _ _ _ _ _ => ⟨quiet rfl rfl (oneCore (P := fun k => k.castQ = []) rfl rfl rfl) rfl, rfl, rfl, by
      show ∀ e ∈ Core.reset.handles.toList, e.bound = false
      decide, _, rfl⟩,
    ⟨⟨by decide +kernel, by decide +kernel, by decide +kernel, by decide +kernel⟩, by decide, by decide, by decide,
      by decide, ⟨rfl, rfl, rfl⟩, (fun _ h => h ▸ by decide), by decide, by decide⟩,
    ⟨rfl, List.mem_singleton.2 rfl, by decide, by decide⟩, rfl, by decide⟩

/-- A copy command: source, destination, auxiliary address, count and further bits. -/
def copyCmd (op n src dst aux more : Nat) : Cmd := command (op + src * 2 ^ 64 + dst * 2 ^ 128 + aux * 2 ^ 192 + n * 2 ^ 224 + more)

/-- Core 1's scratchpad with a descriptor of three by two at 0x3000, indices 5, 0, 5, 2 at 0x3100, and the number of barrier 5
at 0x3200. -/
def described : Mem :=
  [(0x140, 64, 0x0807060504030201), (0x3000, 32, 3 + 16 * 2 ^ 64 + 64 * 2 ^ 128), (0x3020, 32, 2 + 2 ^ 64 + 0x1000 * 2 ^ 128),
    (0x3100, 16, 5 + 5 * 2 ^ 64 + 2 * 2 ^ 96), (0x3200, 16, 5)].foldl (fun m x => writeBytes m (own + x.1) x.2.1 x.2.2) []

/-- The copy command next at q4 over memory `m`, with barrier 5 of the group's job. -/
def copies (m : Mem) (h : Cmd) (k : Core) : State :=
  { copying h k with mem := m, pour := [(5, { pourOf 1#2 false 0#6 with job := 1#32 })] }

theorem copiesNext {m : Mem} {h : Cmd} {k : Core} (hm : Mem.wf m = true) (h1 : k.q4Held = false) (h2 : h.ready = 0)
    (h3 : k.copies = []) (h4 : k.castQ = []) (h5 : k.lost = false)
    (h6 : ∀ n : Fin 4, (k.fabqos[n]).extractLsb' 4 16 = 0#16) :
    (copies m h k).Inv ∧ Claims.CopyNext (copies m h k) 1#12 h [command 0] ∧ Claims.Clean (copies m h k) ∧
      Claims.Quiet (copies m h k) ∧ ∀ n, ((copies m h k).core n).lost = false :=
  ⟨⟨hm, rfl⟩, { copyNext h1 h2 h3 h6 with }, clean rfl rfl rfl,
    quiet rfl rfl (oneCore (P := fun k => k.castQ = []) rfl h4 rfl) rfl, oneCore (P := fun k => k.lost = false) rfl h5 rfl⟩

/-- The bits of the two ends, of a source and of an auxiliary address. -/
def endBits : BitVec 256 := (0xFFFFFFFFFFFFFFFF#256 <<< 128) ||| (0xFFFFFF#256 <<< 224)

/-- The bits of a source address. -/
def sourceBits : BitVec 256 := 0xFFFFFFFFFFFFFFFF#256 <<< 64

/-- The bits of an auxiliary address. -/
def auxBits : BitVec 256 := 0x7FFFF#256 <<< 192

/-- The memory of core 1 with that descriptor, index list and object number. -/
theorem describedForm : Mem.wf described = true := by decide +kernel

/-- `copy.1d` whose source ends with the scratchpad, to another core's scratchpad. -/
def copy1 : Cmd := copyCmd 0x40 40 0x7FFD8 0x10000100000 0 0

/-- `copy.nd` of two dimensions of the descriptor. -/
def copyN : Cmd := copyCmd 0x41 8 0x140 0x4000 0x3000 (2 ^ 216)

/-- `gath` and `scat` of four elements of 16 bytes. -/
def gathered (op : Nat) : Cmd := copyCmd op 4 0x140 0x4000 0x3100 (2 ^ 220)

/-- `fill` of 37 bytes that end with the scratchpad. -/
def filling : Cmd := command (0x144 + 0x11223344 * 2 ^ 64 + 0x7FFDB * 2 ^ 128 + 37 * 2 ^ 224)

/-- `allred` of 40 bytes at barrier 5. -/
def reduction : Cmd := copyCmd 0x48 40 0x140 0x4000 0x3200 0

/-- `allred` at a barrier whose home is another rank. -/
def homed : Cmd := copyCmd 0x48 40 0x140 0x4000 0x3200 0x2000

/-- The state of a copy over that memory. -/
def onto (h : Cmd) : State := copies described h Core.reset

theorem freeBuckets : ∀ n : Fin 4, (Core.reset.fabqos[n]).extractLsb' 4 16 = 0#16 := by decide

theorem overNext (h : Cmd) (hr : h.ready = 0) : (onto h).Inv ∧ Claims.CopyNext (onto h) 1#12 h [command 0] ∧
    Claims.Clean (onto h) ∧ Claims.Quiet (onto h) ∧ ∀ n, ((onto h).core n).lost = false :=
  copiesNext describedForm rfl hr rfl rfl rfl freeBuckets

theorem bothSome {α β : Type} {l : List α} {f g : α → Option β} (h : (l.all fun o => (f o).isSome && (g o).isSome) = true) :
    ∀ o ∈ l, ∃ a b, f o = some a ∧ g o = some b := fun o ho => by
  have ho := List.all_eq_true.1 h o ho
  rw [Bool.and_eq_true] at ho
  obtain ⟨a, ha⟩ := Option.isSome_iff_exists.1 ho.1
  obtain ⟨b, hb⟩ := Option.isSome_iff_exists.1 ho.2
  exact ⟨a, b, ha, hb⟩

/-- The offsets of the index vectors of a descriptor, its first dimension varying fastest (R338). -/
def offsets (dims : List (Word × Word × Word)) : List (Word × Word) :=
  dims.foldr (fun x l => l.flatMap fun o => (List.range x.1.toNat).map fun i =>
    (o.1 + BitVec.ofNat 64 i * x.2.1, o.2 + BitVec.ofNat 64 i * x.2.2)) [(0#64, 0#64)]

/-- A dword of the described scratchpad. -/
def dword (a : Nat) : Word := BitVec.ofNat 64 (readBytes described (own + a) 8)

/-- The dimensions of its descriptor. -/
def dims : List (Word × Word × Word) :=
  (List.range 2).map fun j => (dword (0x3000 + 32 * j), dword (0x3000 + 32 * j + 8), dword (0x3000 + 32 * j + 16))

theorem dims_eq : dims = [(3#64, 16#64, 64#64), (2#64, 1#64, 0x1000#64)] := by decide +kernel

theorem offsets_eq : offsets dims = [(0#64, 0#64), (16#64, 64#64), (32#64, 128#64), (1#64, 0x1000#64), (17#64, 0x1040#64),
    (33#64, 0x1080#64)] := by rw [dims_eq]; decide +kernel

/-- The runs of that copy: sources 16 and 1 apart, destinations 64 and 0x1000 apart. -/
def runsN : List (Nat × Nat × Nat) :=
  (offsets dims).map fun o =>
    (((onto copyN).copyAddr 1 9#32 (0x140#64 + o.1) 8).getD 0, ((onto copyN).copyAddr 1 9#32 (0x4000#64 + o.2) 8).getD 0, 8)

/-- Element `j` of a `gath` or `scat` of 16-byte elements: its source and destination. -/
def element (scatter : Bool) (j : Nat) : Option Nat × Option Nat :=
  let s := onto (gathered (if scatter then 0x43 else 0x42))
  let index := fun j => readBytes described (own + 0x3100 + 4 * j) 4
  let at_ := fun (base : Word) (j : Nat) => s.copyAddr 1 9#32 (base + BitVec.ofNat 64 (j * 16)) 16
  if scatter then (at_ 0x140#64 j, at_ 0x4000#64 (index j)) else (at_ 0x140#64 (index j), at_ 0x4000#64 j)

/-- `copy.1d` whose ends may be named, and one whose source passes the scratchpad's end, or whose destination does. -/
theorem witness_PlainCopies_1d :
    (∀ h, h.ready = 0 → (onto h).Inv ∧ Claims.CopyNext (onto h) 1#12 h [command 0] ∧ Claims.Clean (onto h) ∧
      ∀ n, ((onto h).core n).lost = false) ∧
    (copy1.word.getLsbD 12 = false ∧ (copy1.word.extractLsb' 224 24).toNat = 40 ∧
      Claims.formed copy1 0x40#8 (endBits ||| sourceBits)) ∧
    ((onto copy1).copyAddr 1 9#32 0x7FFD8#64 40 = some 0x100000FFFD8 ∧
      (onto copy1).copyAddr 1 9#32 0x10000100000#64 40 = some 0x10000100000 ∧
      Claims.plainRun (onto copy1) (0x100000FFFD8, 0x10000100000, 40)) ∧
    (onto copy1).copyAddr 1 9#32 0x7FFD9#64 40 = none ∧
    ((onto copy1).copyAddr 1 9#32 0x7FFD9#64 1 = some 0x100000FFFD9 ∧
      (onto copy1).copyAddr 1 9#32 0x7FFD9#64 ((onto copy1).destBytes true (own + 0x140) 0x100000FFFD9 40) = none) :=
  ⟨fun h hr => let ⟨h1, h2, h3, _, h5⟩ := overNext h hr; ⟨h1, h2, h3, h5⟩,
    ⟨by decide +kernel, by decide +kernel, by unfold Claims.formed; decide +kernel⟩,
    ⟨by decide +kernel, by decide +kernel, by unfold Claims.plainRun; decide +kernel⟩, by decide +kernel, by decide +kernel⟩

/-- `copy.nd` over the descriptor. -/
theorem witness_PlainCopies_nd :
    Claims.formed copyN 0x41#8 (endBits ||| sourceBits ||| auxBits ||| (0xF#256 <<< 216)) ∧
    ((copyN.word.extractLsb' 216 4).toNat + 1 = 2 ∧ (copyN.word.extractLsb' 192 19).toNat = 0x3000 ∧
      ∀ j, j < 2 → dword (0x3000 + 32 * j + 24) = 0#64) ∧
    ((∀ x ∈ dims, x.1 ≠ 0#64 ∧ x.1.toNat < 2 ^ 32) ∧ (dims.map (·.1.toNat)).prod ≤ 2 ^ 32) ∧
    (∀ o ∈ offsets dims, ∃ a b, (onto copyN).copyAddr 1 9#32 (0x140#64 + o.1) 8 = some a ∧
      (onto copyN).copyAddr 1 9#32 (0x4000#64 + o.2) 8 = some b) ∧
    runsN.length = 6 ∧ ∀ r ∈ runsN, Claims.plainRun (onto copyN) r :=
  ⟨by unfold Claims.formed; decide +kernel, ⟨by decide +kernel, by decide +kernel, by decide +kernel⟩,
    ⟨by simp [dims_eq], by simp [dims_eq]⟩, bothSome (by rw [offsets_eq]; decide +kernel), by decide +kernel,
    by unfold Claims.plainRun runsN; rw [offsets_eq]; decide +kernel⟩

/-- `gath` and `scat` of four elements, two of one index. -/
theorem witness_PlainCopies_indexed : ∀ scatter : Bool,
    let h := gathered (if scatter then 0x43 else 0x42)
    Claims.formed h (if scatter then 0x43#8 else 0x42#8) (endBits ||| sourceBits ||| auxBits ||| (3#256 <<< 220)) ∧
    (h.word.extractLsb' 220 2).toNat = 1 ∧ (h.word.extractLsb' 192 19).toNat = 0x3100 ∧
    (∀ j, j < 4 → ∃ a b, element scatter j = (some a, some b)) ∧
    ∀ r ∈ (List.range 4).map fun j => ((element scatter j).1.getD 0, (element scatter j).2.getD 0, 16),
      (onto h).hitsInbox r.2.1 16 = false ∧ r.1 + 16 ≤ 0x100000000000 ∧ r.2.1 + 16 ≤ 0x100000000000 := by
  intro scatter
  have some2 : ∀ j ∈ List.range 4, ∃ a b, (element scatter j).1 = some a ∧ (element scatter j).2 = some b :=
    bothSome (by revert scatter; decide +kernel)
  refine ⟨by unfold Claims.formed; clear some2; revert scatter; decide +kernel, by clear some2; revert scatter; decide +kernel,
    by clear some2; revert scatter; decide +kernel, fun j hj => ?_, by clear some2; revert scatter; decide +kernel⟩
  obtain ⟨a, b, ha, hb⟩ := some2 j (List.mem_range.2 hj)
  exact ⟨a, b, Prod.ext ha hb⟩

/-- `fill` to the scratchpad's last byte, and one byte further; `allred` at a barrier of the group's job. -/
theorem witness_PlainCopies_fill_allred :
    (Claims.formed filling 0x44#8 (endBits ||| 0x100#256 ||| (0xFFFFFFFF#256 <<< 64)) ∧ filling.word.getLsbD 8 = true ∧
      (onto filling).copyAddr 1 9#32 0x7FFDC#64 37 = none ∧ (onto filling).copyAddr 1 9#32 0x7FFDB#64 37 = some 0x100000FFFDB ∧
      (onto filling).hitsInbox 0x100000FFFDB 37 = false ∧ 0x100000FFFDB + 37 ≤ 0x100000000000) ∧
    (Claims.formed reduction 0x48#8 (endBits ||| sourceBits ||| auxBits ||| (3#256 <<< 220) ||| 0x2000#256) ∧
      reduction.word.extractLsb' 220 2 ≠ 3#2 ∧ (reduction.word.extractLsb' 192 19).toNat = 0x3200 ∧
      (reduction.word.extractLsb' 64 64).toNat + 40 ≤ 0x80000 ∧ (reduction.word.extractLsb' 128 64).toNat + 40 ≤ 0x80000 ∧
      (onto reduction).hitsInbox (own + 0x4000) 40 = false ∧ readBytes described (own + 0x3200) 16 = (5#10).toNat) ∧
    (onto reduction).group? 1 = some (grp .thread [1#12]) ∧
    (let o := (onto reduction).pourObj 5
     o.kind = 1#2 ∧ o.job = (grp .thread [1#12]).job ∧ o.scope = reduction.word.getLsbD 13) ∧
    (Claims.formed homed 0x48#8 (endBits ||| sourceBits ||| auxBits ||| (3#256 <<< 220) ||| 0x2000#256) ∧
      (homed.word.extractLsb' 192 19).toNat = 0x3200 ∧ homed.word.getLsbD 13 = true ∧
      { pourOf 1#2 true 1#6 with job := 1#32 }.home ≠ (onto homed).ownRank homed.job) :=
  ⟨⟨by unfold Claims.formed; decide +kernel, by decide +kernel, by decide +kernel, by decide +kernel, by decide +kernel, by decide⟩,
    ⟨by unfold Claims.formed; decide +kernel, by decide +kernel, by decide +kernel, by decide +kernel, by decide +kernel,
      by decide +kernel, by decide +kernel⟩, rfl, by decide +kernel, by unfold Claims.formed; decide +kernel, by decide +kernel,
    by decide +kernel, by decide⟩

/-- Core 1 with handle 5 bound to the 40 bytes at 0x140, in a state. -/
def handleIn (st : HState) : Core :=
  { Core.reset with
    handles := Core.reset.handles.set 5 { bound := true, st := st, base := 0x140#19, len := 40#20, group := 1 } }

/-- `copy.1d` of 40 bytes that names handle 5. -/
def handleCopy (src dst : Nat) : Cmd := copyCmd 0x40 40 src dst 0 (2 ^ 12 + 5 * 2 ^ 248)

/-- A copy of an unbound handle; a copy into a FREE one that fills its region exactly; one out of a FULL one. -/
theorem witness_HandleCopies :
    (∀ h k, h.ready = 0 → k = Core.reset ∨ k = handleIn .free ∨ k = handleIn .full → let s := copies described h k
      s.Inv ∧ Claims.CopyNext s 1#12 h [command 0] ∧ Claims.Clean s ∧ Claims.Quiet s ∧ ∀ n, (s.core n).lost = false) ∧
    (∀ h ∈ [handleCopy 0x140 0x10000100000, handleCopy 0x10000100000 0x140], h.word.getLsbD 12 = true ∧
      (h.word.extractLsb' 224 24).toNat = 40 ∧ (h.word.extractLsb' 248 6).toNat = 5 ∧ h.word.extractLsb' 0 8 = 0x40#8 ∧
      h.word &&& ~~~(Claims.headerBits h.word |||
        (0x1000#256 ||| ((BitVec.allOnes 128).setWidth 256 <<< 64) ||| (0x3FFFFFFF#256 <<< 224))) = 0#256) ∧
    ((Core.reset.handles[5]).bound = false ∧
      ((handleIn .free).handles[5]).bound = true ∧ ((handleIn .free).handles[5]).st = .free ∧
      ((handleIn .full).handles[5]).st = .full) ∧
    (∀ k ∈ [Core.reset, handleIn .free, handleIn .full], let s := copies described (handleCopy 0x140 0x10000100000) k
      s.copyAddr 1 9#32 0x140#64 40 = some (own + 0x140) ∧ s.copyAddr 1 9#32 0x10000100000#64 40 = some 0x10000100000 ∧
      Claims.plainRun s (own + 0x140, 0x10000100000, 40) ∧ Claims.plainRun s (0x10000100000, own + 0x140, 40)) ∧
    (own + (0x140#19).toNat ≤ own + 0x140 ∧ own + 0x140 + 40 ≤ own + (0x140#19).toNat + (40#20).toNat ∧
      own + 0x80000 ≤ 0x10000100000) := by
  refine ⟨fun h k hr hk => ?_, by decide +kernel, by decide +kernel, by unfold Claims.plainRun; decide +kernel, by decide⟩
  rcases hk with rfl | rfl | rfl <;> exact copiesNext describedForm rfl hr rfl rfl rfl freeBuckets

/-! ### Loading, jobs, boot and the platform -/

/-- A launch of three threads on die 1. -/
def launchRec : LaunchRec :=
  { level := .thread, count := 3#32, cls := 2#2, deadline := 0#64, die := 1#2, gang := 0#8, entry := 0x100000000000#64
    arg := 5#64, argSym := none, cbase := 0x100000000000#64, clim := 0x100000001000#64, done := .none, clear := false }

/-- An object of text, scratchpad bytes in two granules, one of them full, and a bank. -/
def image : ObjectImage :=
  { name := 4, job := 9#32, text := [(0x100000000000, 7#8), (0x100000000001, 8#8)], spad := [(0x20, 5#8), (0x7FFFF, 9#8)]
    spadFull := [2], spadEmpty := [0x7FFF], carafe := [], banks := [{ bank := 31#5, fmt := 0x12#5, group := 1#2, axis := true, scale := 0x7FFF0#64 }], rings := []
    symbols := [{ name := 1, value := 4094, exported := true }, { name := 2, value := 4096, exported := false }], imports := [1]
    relocs := [], launches := [launchRec] }

/-- A branch relocation at the first byte, to a symbol. -/
def branchReloc (n : Nat) : Reloc :=
  { kind := .branch, part := .text, place := 0, symbol := n, addend := 0, pair := 0, bit := 0 }

/-- Objects with an import and with a relocation that nothing gives, with a branch one step too far, and with neither. -/
theorem witness_ObjectLoads :
    (stored.Inv ∧ Claims.Quiet stored ∧ stored.packets = [] ∧ stored.loaded = [] ∧ stored.full.Nodup ∧
      ∀ n, (stored.core n).lost = false) ∧
    ((3 ∈ [3] ++ image.relocs.map (·.symbol) ∨ 3 ∈ image.imports ++ [branchReloc 3].map (·.symbol)) ∧
      (∀ x ∈ image.symbols, x.name ≠ 3) ∧ ∀ l ∈ stored.loaded, l.job = image.job → ∀ e ∈ l.exports, e.1 ≠ 3) ∧
    (branchReloc 2 ∈ ({ image with relocs := [branchReloc 2] } : ObjectImage).relocs ∧
      stored.symbolValue { image with relocs := [branchReloc 2] } (branchReloc 2).symbol = some 4096 ∧
      relocInRange (branchReloc 2) 4096 = false) ∧
    (stored.symbolValue image (branchReloc 1).symbol = some 4094 ∧ relocInRange (branchReloc 1) 4094 = true) ∧
    ((∀ n ∈ image.imports, ∃ x ∈ image.symbols, x.name = n) ∧ image.relocs = [] ∧ image.carafe = [] ∧ image.rings = [] ∧
      image.launches = [launchRec] ∧ launchRec.clear = false ∧ launchRec.argSym = none) ∧
    ((∀ x ∈ image.text, 0x100000000000 ≤ x.1) ∧ (image.text.map (·.1)).Nodup ∧ (∀ x ∈ image.spad, x.1 < 0x80000) ∧
      (image.spad.map (·.1)).Nodup ∧ (image.banks.map (·.bank)).Nodup) :=
  ⟨⟨⟨by decide, rfl⟩, quiet rfl rfl (fun _ => rfl) rfl, rfl, rfl, List.nodup_nil, fun _ => rfl⟩,
    ⟨.inl (by decide), by decide, fun _ h => absurd h List.not_mem_nil⟩, ⟨by decide, by decide, by decide⟩,
    ⟨by decide, by decide⟩, ⟨by decide, rfl, rfl, rfl, rfl, rfl, rfl⟩, by decide, by decide, by decide, by decide,
    by decide⟩

/-- The one thread of the module, of job 9, and of another. -/
theorem witness_JobEnds :
    (plain.threads = [(17, th)] ∧ plain.rovers = [] ∧ plain.launches = [] ∧ th.gang = none ∧ th.wait = none ∧ th.job = 9#32) ∧
    th.job ≠ 8#32 := ⟨⟨rfl, rfl, rfl, rfl, rfl, rfl⟩, by decide⟩

/-- An image that verifies. -/
def good (n : Nat) : ImageRec := { sigOk := true, key := 1#4, typeOk := true, svn := 0#6, digest := BitVec.ofNat 512 n }

/-- One that does not. -/
def bad : ImageRec := { good 9 with sigOk := false }

/-- A configuration record that verifies, with an inlet limit of 45. -/
def record : ConfigRec :=
  { img := { good 6 with digest := 0#512 }, seq := 4#64, pref := 0#16, svnadv := 0#16, mgmtvlan := 1#16, pcap := 800#16
    cxlen := 0#16, keaten := 0#16, tinmax := 45#16, keyidx := 1#16, netcfg := 0#320, resvZero := true }

/-- A platform with an image of each kind and a record. -/
def built : Platform :=
  { Platform.reset with
    imagesA := [(.stage1, good 1), (.house, good 2), (.die, good 3), (.os, good 4), (.casot, good 5)], recordA := some record }

/-- One that boots, at a stage. -/
def booting (stage : BitVec 2) : Platform :=
  { built with mode := .booting, stage := stage, failures := 1, record := some (false, record) }

/-- What training of every channel finds. -/
def training (lock supply : Bool) (temp : Nat) : Training :=
  { channels := List.range 96, pourLock := lock, supplyOk := supply, inletTemp := temp, cxl := 3#10, eth := 3#2 }

theorem verifies (k : ImageKind) (n : Nat) {p : Platform} (hr : p.revoked = 0#16) (hs : p.svnMin = []) :
    Claims.verified p k (good n) := by
  refine ⟨rfl, ?_, rfl, ?_⟩
  · rw [hr]; show (0#16).getLsbD 1 = false; decide
  · rw [hs]; rfl

theorem noImage {p : Platform} (hA : p.imagesA = []) (hB : p.imagesB = []) (k : ImageKind) (b : Bool) (i : ImageRec) :
    ¬ Claims.copyOf p b k i := by
  rintro ⟨h, _⟩
  cases b <;> simp [hA, hB] at h

/-- Power after no failure, after two and after three, with a write of the last boot that is still to be made; a boot that power
breaks off; a recovery image that verifies and one that does not. -/
theorem witness_Boot_power :
    (built.failures < 3 ∧ { built with failures := 2 }.failures < 3 ∧ 3 ≤ { built with failures := 3 }.failures) ∧
    ({ built with later := [.image .os true (good 4)] }.later = [.image .os true (good 4)] ∧ ImageKind.os ≠ .recovery) ∧
    (let p := { booting 1#2 with failures := 3, recovery := some (good 7) }
     p.later = [] ∧ p.mode = .booting ∧ p.reason = 0#8 ∧ p.recovery = some (good 7) ∧ Claims.verified p .recovery (good 7)) ∧
    (let p := { built with failures := 3, recovery := some bad }
     ∀ i, p.recovery = some i → ¬ Claims.verified p .recovery i) :=
  ⟨by decide, ⟨rfl, by decide⟩, ⟨rfl, rfl, rfl, rfl, verifies _ _ rfl rfl⟩, onlySome rfl fun h => absurd h.1 (by decide)⟩

/-- Stages 0 to 3, with what each needs and without: the stage-1 image, the records, the house and die images, a lock, a supply, an inlet at
its limit and one above it, the images of stages 2 and 3; and a platform that does not boot. -/
theorem witness_Boot_stages :
    (built.mode ≠ .booting ∧ (booting 1#2).mode = .booting ∧ (booting 0#2).stage = 0#2 ∧ 1#2 ≠ (booting 0#2).stage ∧
      (booting 1#2).stage = 1#2 ∧ (booting 2#2).stage = 2#2 ∧
      (booting 3#2).stage = 3#2) ∧
    ({ booting 1#2 with recordA := none }.recordA = none ∧ (booting 1#2).recordB = none ∧
      (booting 1#2).chooseRecord = some (false, record) ∧ (booting 2#2).record = some (false, record)) ∧
    (∀ st, Claims.copyOf (booting st) false .stage1 (good 1) ∧ Claims.copyOf (booting st) (record.pref == 1#16) .house (good 2) ∧
      Claims.copyOf (booting st) (record.pref == 1#16) .die (good 3) ∧
      Claims.copyOf (booting st) (record.pref == 1#16) .os (good 4) ∧
      Claims.copyOf (booting st) (record.pref == 1#16) .casot (good 5)) ∧
    (∀ st k x i, ¬ Claims.copyOf { booting st with imagesA := [] } x k i) ∧
    ({ booting 1#2 with imagesA := [] }.chooseRecord = some (false, record)) ∧
    (∀ n, n < 96 → n ∈ (training true true 45).channels) ∧
    ((training false true 45).pourLock = false ∧ (training true false 45).supplyOk = false ∧
      record.tinmax.toNat < (training true true 46).inletTemp ∧ (training true true 45).inletTemp ≤ record.tinmax.toNat) :=
  ⟨⟨by decide, rfl, rfl, by decide, rfl, rfl, rfl⟩, ⟨rfl, rfl, by decide +kernel, rfl⟩,
    fun st => ⟨⟨rfl, verifies _ _ rfl rfl⟩, ⟨rfl, verifies _ _ rfl rfl⟩, ⟨rfl, verifies _ _ rfl rfl⟩, ⟨rfl, verifies _ _ rfl rfl⟩, ⟨rfl, verifies _ _ rfl rfl⟩⟩,
    fun st k x i => noImage rfl rfl k x i, by decide +kernel, fun n h => List.mem_range.2 h, by decide⟩

/-- Management traffic on the VLAN of the record, on another, on a port that is down, and on a platform that is not up; stages
with house firmware and without; registers 5 and 6; an image that verifies whose copy runs, whose copy does not, and one that does not
verify, during a boot and after; a minimal and a normal boot; a boot that a power-down breaks off. -/
theorem witness_Management :
    (let takes := fun (p : Platform) =>
       (p.mode = .booting ∨ p.mode = .normal ∨ p.mode = .minimal) ∧ p.ports[if p.mgmtIn.1 then 1 else 0]? = some true ∧
         ∀ v, p.mgmtVlan = some v → v = p.mgmtIn.2.setWidth 16
     takes { built with mode := .normal, mgmtIn := (true, 1#12) } ∧ takes { built with mode := .minimal, mgmtIn := (false, 1#12) } ∧
       takes { booting 2#2 with mgmtIn := (false, 1#12) } ∧ ¬ takes { built with mgmtIn := (false, 1#12) } ∧
       ¬ takes { built with mode := .normal, mgmtIn := (false, 2#12) } ∧
       ¬ takes { built with mode := .normal, ports := Vector.replicate 2 false, mgmtIn := (false, 1#12) }) ∧
    (let house := fun (p : Platform) => p.mode = .booting ∧ 2 ≤ p.stage.toNat ∨ p.mode = .normal ∨ p.mode = .minimal
     house (booting 2#2) ∧ house { built with mode := .normal } ∧ ¬ house (booting 1#2) ∧ ¬ house built) ∧
    ((6 : Fin 8) = (6#3).toFin ∧ 6 ≤ (6 : Fin 8).val ∧ (5#3).toNat < 6) ∧
    (ImageKind.os ≠ .recovery ∧ ImageKind.os ≠ .record) ∧
    (¬ Claims.verified built .os bad ∧ Claims.verified built .os (good 4) ∧
      (∃ x, (ImageKind.os, false, x) ∈ { built with running := [(.os, false, good 4)] }.running) ∧
      ∀ x, (ImageKind.os, false, x) ∉ built.running) ∧
    (booting 1#2).mode = .booting ∧ (booting 1#2).reason = 0#8 ∧ { built with mode := .normal }.failures < 3 := by
  have hv : built.mgmtVlan = some 1#16 := by decide +kernel
  have h1 : ({ built with mode := .normal, mgmtIn := (true, 1#12) } : Platform).mgmtVlan = some 1#16 := hv
  have h2 : ({ built with mode := .minimal, mgmtIn := (false, 1#12) } : Platform).mgmtVlan = some 1#16 := hv
  have h3 : ({ built with mode := .normal, mgmtIn := (false, 2#12) } : Platform).mgmtVlan = some 1#16 := hv
  refine ⟨⟨⟨.inr (.inl rfl), rfl, fun v h => ?_⟩, ⟨.inr (.inr rfl), rfl, fun v h => ?_⟩, ⟨.inl rfl, rfl, fun v h => ?_⟩,
      fun h => absurd h.1 (by decide), fun h => ?_, fun h => absurd h.2.1 (by decide)⟩,
    ⟨.inl ⟨rfl, by decide⟩, .inr (.inl rfl), by decide, by decide⟩, by decide, by decide,
    ⟨fun h => absurd h.1 (by decide), verifies _ _ rfl rfl, ⟨_, List.mem_singleton.2 rfl⟩, fun _ h => absurd h List.not_mem_nil⟩,
    rfl, rfl, by decide⟩
  · exact Option.some.inj (h1.symm.trans h) ▸ rfl
  · exact Option.some.inj (h2.symm.trans h) ▸ rfl
  · exact Option.some.inj (h : some 1#16 = some v) ▸ rfl
  · exact absurd (h.2.2 1#16 h3) (by decide)

/-- An input power at the cap and one above it; channel 5 as it retires, the last channel, one that is none and one that is
retired; a die with one retired channel and one with two, during a boot and after; a tier-2 page, with a CXL port up and with none,
in the table and not; a frame of the greatest length that ends with memory, with both ports up and none, and on the VLAN of
management and with none known. -/
theorem witness_PlatformEvents :
    (stored.platform.inputPower ≤ (stored.platform.record.map fun r => min 2600 r.2.pcap.toNat).getD 2600 ∧
      ((some (false, record)).map fun r : Bool × ConfigRec => min 2600 r.2.pcap.toNat).getD 2600 <
        { booting 2#2 with inputPower := 801 }.inputPower ∧ (1, Core.reset) ∈ (atCore 17 th Core.reset).cores) ∧
    (stored.Inv ∧ ∀ d : Die, d.retired = [4#7] → 4#7 ∈ d.retired ∧ 5#7 ∉ d.retired ∧ d.retired.length < 2) ∧
    (96 ≤ (96#7).toNat ∧ (95#7).toNat < 96 ∧ (95#7 : BitVec 7) ∉ (stored.die 3).retired ∧ 2 ≤ [3#7, 4#7].length ∧
      (booting 2#2).mode = .booting ∧ built.mode ≠ .booting) ∧
    ({ fetchPage with tier2 := true }.tier2 = true ∧ { Platform.reset with cxlUp := 1#10 }.cxlUp ≠ 0#10 ∧
      Platform.reset.cxlUp = 0#10 ∧ (∃ p ∈ [fetchPage], p.base = fetchPage.base) ∧
      ∀ p ∈ [fetchPage], p.base ≠ fetchPage.base + 1) ∧
    (let p := { Platform.reset with mode := .normal }
     p.mode = .normal ∧ p.ports = Vector.replicate 2 true ∧ p.mgmtVlan = none) ∧
    ((List.replicate 9216 1#8).length ≤ 9216 ∧ List.replicate 9216 1#8 ≠ [] ∧ 0x100000000000 ≤ 0x1FFFFFFFDC00 ∧
      0x1FFFFFFFDC00 + (List.replicate 9216 1#8).length ≤ 0x200000000000) ∧
    Platform.reset.mode ≠ .normal ∧ { Platform.reset with ports := Vector.replicate 2 false }.ports = Vector.replicate 2 false ∧
    (booting 2#2).mgmtVlan = some ((1#12).setWidth 16) :=
  ⟨⟨by decide, by decide, List.mem_singleton.2 rfl⟩, ⟨⟨by decide, rfl⟩, fun d h => by rw [h]; decide⟩,
    ⟨by decide, by decide, by decide, by decide, rfl, by decide⟩,
    ⟨rfl, by decide, rfl, ⟨_, List.mem_singleton.2 rfl, rfl⟩, fun p h => by rw [List.mem_singleton.1 h]; omega⟩, ⟨rfl, rfl, rfl⟩,
    ⟨Nat.le_of_eq List.length_replicate, List.replicate_succ ▸ List.cons_ne_nil _ _, by decide, by rw [List.length_replicate]⟩, by decide, rfl, rfl⟩

/-! ### Where the instructions on tasks, messages, casts and vector memory complete -/

/-- A monitor with nothing to take and with one entry; a task of the job for a queue with room; and a launch that grows. -/
theorem witness_TaskFormsComplete :
    (Performs (tasking []) 16#16 tasker ∧ Claims.Settled (tasking []) 16#16 tasker ∧ tasker.vres = [] ∧
      (tasking []).isMonitor (16#16).toNat = true ∧ (∀ b ∈ ((tasking []).core 1).buffer, b.held = true) ∧
      ((tasking [{ entry := goodEntry, held := false, claim := none }]).core 1).buffer =
        [{ entry := goodEntry, held := false, claim := none }]) ∧
    (Performs (one tasker) 17#16 tasker ∧ Claims.Settled (one tasker) 17#16 tasker ∧ entryRq (tasker.vreg 1#3) = false ∧
      entryFault (tasker.vreg 1#3) false true = none ∧ entryJob (tasker.vreg 1#3) = tasker.job ∧
      ((one tasker).die (entryDie (tasker.vreg 1#3)).toNat).queue = [] ∧ (one tasker).launches.length < 65536) ∧
    (Performs { one tasker with launches := [lch] } 17#16 tasker ∧
      Claims.Settled { one tasker with launches := [lch] } 17#16 tasker ∧ lch.id = tasker.launch ∧
      0 < (tasker.reg 7#5).toNat ∧ lch.count + (tasker.reg 7#5).toNat < 2 ^ 32) :=
  ⟨⟨⟨⟨rfl, rfl⟩, rfl, rfl, rfl, rfl⟩, ⟨rfl, fun _ h => absurd h List.not_mem_nil, by decide, fun _ h => absurd h List.not_mem_nil⟩,
      rfl, by decide, (fun _ h => absurd h List.not_mem_nil), rfl⟩,
    ⟨performs_one _ rfl rfl, settled rfl rfl (by decide), by decide +kernel, by decide +kernel, by decide +kernel,
      by decide +kernel, by decide⟩,
    performs rfl rfl rfl rfl rfl rfl, settled rfl rfl (by decide), by decide, by decide, by decide⟩

/-- A sender with an empty outbound queue; an inbox with one record; a channel of the job; and a cast's frame at its sender. -/
theorem witness_MessageFormsComplete :
    (Performs (sending 0) 17#16 sender ∧ Claims.Settled (sending 0) 17#16 sender ∧ Claims.Calm (sending 0) ∧
      Claims.Quiet (sending 0) ∧ sender.vres = [] ∧ sender.gang = none ∧ sender.latchCnt = none ∧ 3#4 ≠ 15#4 ∧
      (sender.reg 5#5).toNat / 2 ^ 16 = ((sending 0).ownRank sender.job).toNat ∧
      ((sending 0).rankEntry { job := sender.job, rank := (sending 0).ownRank sender.job }).getLsbD 63 = true ∧
      Claims.recordBytes 3#2 ≤
        (assocGet ((sender.reg 5#5).toNat / 16 % 4096) (sending 0).capacity).getD (if (sending 0).enabled then 4096 else 0) ∧
      ((sending 0).core 1).outq = [] ∧ (sending 0).packets = [] ∧ Claims.NoneAtPort (sending 0) ∧
      (∀ n : Fin 4, (((sending 0).core 1).fabqos[n]).extractLsb' 4 16 = 0#16) ∧ (sending 0).messageOut (17#16).toNat = false) ∧
    (Performs (inboxed 3 13) 17#16 th ∧ Claims.Settled (inboxed 3 13) 17#16 th ∧ Claims.Calm (inboxed 3 13) ∧
      Claims.Quiet (inboxed 3 13)) ∧
    (Performs casting 17#16 caster ∧ Claims.Settled casting 17#16 caster ∧ Claims.Calm casting ∧ Claims.Quiet casting ∧
      caster.vres = [] ∧ caster.gang = none ∧ caster.latchCnt = none ∧ casting.jobs = [job9] ∧ job9.id = caster.job ∧
      (caster.reg 6#5).toNat ≤ 63 ∧ job9.channels.getLsbD (caster.reg 6#5).toNat = true ∧
      (casting.emitQ ((17#16).toNat / 128)).length < 16 ∧ (caster.reg 15#5).toNat ≤ 1) ∧
    (Claims.Sender (pouring PourObj.reset (waiting (.frame .cast .cast 5#10) 0 none)) 17#16
        (waiting (.frame .cast .cast 5#10) 0 none) (frame 5#10 0#3 7#256) ∧
      (pouring PourObj.reset (waiting (.frame .cast .cast 5#10) 0 none)).cores = [] ∧
      ∃ w, (waiting (.frame .cast .cast 5#10) 0 none).wait = some w ∧ w.what = .frame .cast .cast (frame 5#10 0#3 7#256).obj) :=
  ⟨⟨performs rfl rfl (by decide) rfl rfl rfl,
      ⟨rfl, fun _ h => absurd h List.not_mem_nil, by decide, fun _ h => absurd h List.not_mem_nil⟩,
      calm rfl (oneCore (P := fun k => k.lost = false) rfl rfl rfl) rfl,
      quiet rfl rfl (oneCore (P := fun k => k.castQ = []) rfl rfl rfl) rfl, rfl, rfl, rfl, by decide, by decide, by decide,
      by decide, rfl, rfl, noneAtPort rfl, by decide, rfl⟩,
    ⟨performs rfl rfl (by decide) rfl rfl rfl,
      ⟨rfl, fun _ h => absurd h List.not_mem_nil, by decide, fun _ h => absurd h List.not_mem_nil⟩,
      calm rfl (oneCore (P := fun k => k.lost = false) rfl rfl rfl) rfl,
      quiet rfl rfl (oneCore (P := fun k => k.castQ = []) rfl rfl rfl) rfl⟩,
    ⟨performs rfl rfl rfl rfl rfl rfl, settled rfl rfl (by decide), calm rfl (fun _ => rfl) rfl, quiet rfl rfl (fun _ => rfl) rfl,
      rfl, rfl, rfl, rfl, rfl, by decide, by decide, by decide, by decide⟩,
    sent_by rfl rfl rfl, rfl, _, rfl, rfl⟩

/-- Addresses of a stride of 0 and of indices 0; and an 8-bit bank. -/
theorem witness_VectorFormsComplete :
    (Performs (one vec) 17#16 vec ∧ vec.vres = [] ∧ Claims.Alone (one vec) 17#16 ∧ Claims.Settled (one vec) 17#16 vec ∧
      Claims.Clean (one vec) ∧ ((one vec).core 1).lost = false ∧ ((one vec).core 1).inboxs = 0#64) ∧
    (∀ n, n < 64 / elBytes .four → (vec.reg 5#5 + BitVec.ofNat 64 n * vec.reg 0#5).toNat % elBytes .four = 0 ∧
      (vec.reg 5#5 + BitVec.ofNat 64 n * vec.reg 0#5).toNat < 0x80000) ∧
    (∀ n, n < 64 / elBytes .four →
      (vec.reg 5#5 + ((vec.vreg 0#3).extractLsb' (8 * elBytes .four * n) (8 * elBytes .four)).signExtend 64).toNat % elBytes .four = 0 ∧
      (vec.reg 5#5 + ((vec.vreg 0#3).extractLsb' (8 * elBytes .four * n) (8 * elBytes .four)).signExtend 64).toNat < 0x80000) ∧
    (Performs (banked 1#64) 17#16 vec ∧ Claims.Clean (banked 1#64) ∧ ((banked 1#64).core 1).inboxs = 0#64 ∧
      ((banked 1#64).core 1).bfmt[(vec.reg 5#5 + 64#64 * (0#6).signExtend 64).toNat / 16384 % 32] = 1#64 ∧
      (vec.reg 5#5 + 64#64 * (0#6).signExtend 64).toNat % unitBytes 1#64 = 0 ∧
      (vec.reg 5#5 + 64#64 * (0#6).signExtend 64).toNat < 0x80000 ∧ bfInvalid 1#64 = false ∧ bfDyn 1#64 = false ∧
      unitBad (banked 1#64).mem 1 1#64 (vec.reg 5#5 + 64#64 * (0#6).signExtend 64).toNat = false) :=
  ⟨⟨performs_one _ rfl rfl, rfl, alone rfl rfl rfl rfl rfl, settled rfl rfl (by decide), clean rfl rfl rfl, rfl, by decide⟩,
    by decide, by decide +kernel, performs rfl rfl rfl rfl rfl rfl, clean rfl rfl rfl, by decide, by decide, by decide, by decide, by decide,
    by decide, by decide⟩

/-- A last index to deal, tasks that have waited long enough, a claimed entry, a message for an empty ring, and a resume that is
issued and one that is accepted. -/
theorem witness_EventsComplete :
    ((dealing (queued 1 1) 100 true).cores = [] ∧ (dealing (queued 1 1) 100 true).threads = [] ∧
      (dealing (queued 1 1) 100 true).susps = [] ∧ (dealing (queued 1 1) 100 true).resumes = [] ∧
      ((dealing (queued 1 1) 100 true).die (1#2).toNat).doneMsgs = [] ∧ (dealing (queued 1 1) 100 true).enabled = true ∧
      ((dealing (queued 1 1) 100 true).die (1#2).toNat).queue = [queued 1 1] ∧
      (queued 1 1).since ≤ (dealing (queued 1 1) 100 true).time ∧ (queued 1 1).lo + 1 = (queued 1 1).hi ∧
      (queued 1 1).cls = 1 ∧ entryKind goodEntry = 1 ∧ entryLevel goodEntry = 0 ∧ entryClass goodEntry ≠ 0#2 ∧
      entryCtrl goodEntry = false) ∧
    ((queued 3 1).since + 2500000 ≤ (dealing (queued 3 1) 2500005 true).time ∧
      (queued 2 1).since + 10000000 ≤ (dealing (queued 2 1) 10000005 true).time) ∧
    (((starting 0x802#64).core (5#12).toNat).buffer = [{ entry := goodEntry, held := false, claim := some 3#4 }] ∧
      ((starting 0x802#64).core (5#12).toNat).slotcfg.getLsbD 0 = false) ∧
    ((offer 1#2 (inbox 0 0)).Inv ∧ Claims.Clean (offer 1#2 (inbox 0 0)) ∧
      (outMsg 1#2).dest.extractLsb' 16 6 = (offer 1#2 (inbox 0 0)).ownRank (outMsg 1#2).job ∧
      ((offer 1#2 (inbox 0 0)).core ((17#16).toNat / 16)).outq = [(BitVec.ofNat 4 (17#16).toNat, outMsg 1#2)] ∧
      (inbox 0 0).inboxs.extractLsb' 32 16 = 0#16 ∧
      ((inbox 0 0).inboxb.extractLsb' 4 15).toNat * 16 + ((inbox 0 0).inboxs.extractLsb' 0 16).toNat * 16 ≤ 0x80000 ∧
      (inbox 0 0).marks.getLsbD (((outMsg 1#2).dest.extractLsb' 0 16).toNat % 16) = false ∧
      Claims.recordBytes (outMsg 1#2).len ≤ ((inbox 0 0).inboxs.extractLsb' 0 16).toNat * 16) ∧
    ((resuming 1 3 (resume false none) []).resumes = [resume false none] ∧ (resume false none).accepted = false ∧
      objVersion (resuming 1 3 (resume false none) []).mem (resume false none).addr = (resume false none).version) :=
  ⟨⟨rfl, rfl, rfl, rfl, rfl, rfl, by decide, by decide, rfl, rfl, by decide +kernel, by decide +kernel, by decide +kernel,
      by decide +kernel⟩, ⟨by decide, by decide⟩, ⟨rfl, by decide⟩,
    ⟨⟨by decide, rfl⟩, clean rfl rfl rfl, by decide, rfl, by decide, by decide, by decide, by decide⟩, rfl, rfl, by decide +kernel⟩

/-! ### The machine as a whole -/

/-- `addi x5, x0, 1` as the word placed where the next step fetches. -/
def placed : State := State.reset.withFetchWord 32 0x00100293

/-- The thread there. -/
def fetcher : Thread := fetchThread 1

/-- A well-formed instruction of one word and one of two. -/
theorem witness_DecodeEncode :
    ((Instr.addi 5#5 0#5 1#12).wf = true ∧ encode (.addi 5#5 0#5 1#12) = [0x00100293#32]) ∧
    ∃ i second, Instr.wf i = true ∧ encode i = [0x7B#32, second] := by
  refine ⟨by decide, ?_⟩
  exact ⟨.rlx 0x12345678#32, 0x12345678#32, by decide, by decide⟩

/-- A state whose next step runs that instruction. -/
theorem witness_StepRunsDecoded :
    (placed.Inv ∧ placed.inputs = [] ∧ (∀ y ∈ placed.timed, y.due ≤ placed.time → y.what.phase ≠ 0) ∧ placed.enabled = true ∧
      placed.nextCore = some 0 ∧ (placed.core 0).profctl.getLsbD 0 = false ∧ placed.chooseSlot 0 = some 8) ∧
    Claims.Issues placed 8 fetcher ∧ Claims.Fetches placed 8 fetcher fetcher.pc ∧
    (wordAt placed.mem fetcher.pc.toNat ≠ 0x7B#32 ∧
      decode (wordAt placed.mem fetcher.pc.toNat) (wordAt placed.mem (fetcher.pc + 4#64).toNat) = .ok (.addi 5#5 0#5 1#12)) :=
  ⟨⟨⟨by decide +kernel, by decide⟩, rfl, fun _ h => absurd h List.not_mem_nil, rfl, by decide +kernel, rfl, by decide +kernel⟩,
    { holds := rfl, idle := rfl, latch := rfl, stepped := rfl, break_ := by decide +kernel, event := by decide +kernel, casot := by decide +kernel
      packets := rfl },
    { bounds := by decide +kernel, tier := by decide +kernel, cached := by decide +kernel, checked := by decide +kernel },
    by decide +kernel, by decide +kernel⟩

theorem witness_StepAlwaysAnswers : State.reset.inputs = [] ∧ plain.inputs = [] := ⟨rfl, rfl⟩

/-- The state after reset, whose step answers. -/
theorem witness_StepKeepsForm : State.reset.Inv ∧ State.reset.inputs = [] ∧ Answers (step State.reset) :=
  ⟨⟨rfl, rfl⟩, rfl, _, rfl⟩

end Sys2Proof.Tests
end

section
/-! Proofs about the scalar extras and `pset` (R143 to R148): how an instruction that changes scalar or predicate
registers only completes, the values of the minimum, the maximum and the bit counts, and the words of custom-0. -/

namespace Sys2Proof.Machine

/-! ### Completion of a scalar instruction -/

section Completion

variable {i : Instr} {s : State} {tid : BitVec 16} {t : Thread}

/-- The next issue lies at least `busy` cycles ahead, in a gang or outside one (R128, R133, R171). -/
theorem le_nextIssue (t : Thread) (now busy : Nat) : now + busy ≤ t.nextIssue now busy := by
  unfold Thread.nextIssue
  split
  · split <;> omega
  · omega

/-- A thread that retires is not ready before `busy` cycles have gone. -/
theorem ready_of_finish (h : Performs s tid t) {u q : Thread} {pc : Word} {tr : Bool} {busy : Nat}
    (hq : (s.finish tid.toNat u pc tr busy).thread? tid.toNat = some q) : s.time + busy ≤ q.readyAt := by
  obtain ⟨⟨g, hg⟩, -⟩ := finish_spec h.inv.threads tid.toNat u pc tr busy
  rw [Option.some.inj (hq.symm.trans hg)]
  exact (le_nextIssue ..).trans (Nat.le_max_right ..)

/-- An instruction that changes scalar and predicate registers only, to those of `u`, and retires, completes. -/
theorem completes_of_finish (h : Performs s tid t) {u : Thread} (hu : ScalarOf t u) {pc : Word} {tr : Bool} {busy : Nat}
    (he : exec i s = .next (s.finish tid.toNat u pc tr busy)) :
    ∃ q, Completes i s tid t q pc busy ∧ q.x = u.x ∧ q.taint = u.taint ∧ q.pw = u.pw := by
  obtain ⟨q, hq, honly, hret, hregs⟩ := finish_scalar h.inv.threads tid.toNat hu pc tr busy
  exact ⟨q, ⟨⟨_, he, hq, honly⟩, hret, ready_of_finish h hq⟩, hregs⟩

/-- An instruction that writes one register, whatever the time it takes, yields what it writes. -/
theorem yields_of_finish_setReg (h : Performs s tid t) {d : Reg} {v : Word} {b : Bool} {busy : Nat}
    (he : exec i s = .next (s.finish tid.toNat (t.setReg d v b) (t.pc + 4#64) false busy)) :
    Yields i s tid t d v b busy := by
  obtain ⟨q, hq, honly, hret, hwrote⟩ := finish_setReg h.inv.threads tid.toNat t d v b (t.pc + 4#64) false busy
  exact ⟨q, ⟨⟨_, he, hq, honly⟩, hret, ready_of_finish h hq⟩, hwrote⟩

theorem yields_of_writeReg (h : Performs s tid t) {d : Reg} {v : Thread → Word} {b : Thread → Bool}
    (he : exec i s = performing s fun k u => s.writeReg k u d (v u) (b u)) : Yields i s tid t d (v t) (b t) := by
  refine yields_of_finish_setReg h ?_
  rw [he, performing_next h]
  simp only [State.writeReg, State.next, Thread.setReg_pc]

theorem yields_of_aluRR (h : Performs s tid t) {d a b : Reg} {f : Thread → Word → Word → Word}
    (he : exec i s = performing s fun k u => s.aluRR k u d a b (f u)) :
    Yields i s tid t d (f t (t.reg a) (t.reg b)) (t.tainted a || t.tainted b) :=
  yields_of_writeReg (v := fun u => f u (u.reg a) (u.reg b)) (b := fun u => u.tainted a || u.tainted b) h he

theorem yields_of_aluR (h : Performs s tid t) {d a : Reg} {f : Word → Word}
    (he : exec i s = performing s fun k u => s.aluR k u d a f) : Yields i s tid t d (f (t.reg a)) (t.tainted a) :=
  yields_of_writeReg (v := fun u => f (u.reg a)) (b := fun u => u.tainted a) h he

/-! ### Predicates -/

/-- The predicate that was written reads its new value. -/
@[simp] theorem pred_setPred_same (t : Thread) (n : BitVec 6) (b : Bool) : (t.setPred n b).pred n = b := by
  have : n.toNat < 64 := n.isLt
  cases b <;> simp [Thread.setPred, Thread.pred, this]

/-- A write of one predicate leaves every other alone. -/
theorem pred_setPred_other (t : Thread) {n m : BitVec 6} (h : m ≠ n) (b : Bool) : (t.setPred n b).pred m = t.pred m := by
  have hm : m.toNat < 64 := m.isLt
  have hne : m.toNat ≠ n.toNat := fun e => h (BitVec.eq_of_toNat_eq e)
  have hbit : (1#64 <<< n.toNat).getLsbD m.toNat = false := by
    have hout : m.toNat < n.toNat ∨ m.toNat - n.toNat ≠ 0 := by omega
    simpa [hm] using fun h1 h2 => by omega
  unfold Thread.setPred Thread.pred
  cases b
  · simp only [Bool.false_eq_true, if_false, BitVec.getLsbD_and, BitVec.getLsbD_not, hbit, hm, decide_true, Bool.not_false,
      Bool.and_true]
  · simp only [if_true, BitVec.getLsbD_or, hbit, Bool.or_false]

/-- What a write of a predicate does, as claims say it, in every thread with the predicate word that results. -/
theorem wrotePred_of_pw {q : Thread} {n : BitVec 6} {b : Bool} (hp : q.pw = (t.setPred n b).pw) : WrotePred t q n b := by
  have hq : ∀ m, q.pred m = (t.setPred n b).pred m := fun m => by unfold Thread.pred; rw [hp]
  exact ⟨by rw [hq, pred_setPred_same], fun m h => by rw [hq, pred_setPred_other t h]⟩

theorem decides_of_setPred (h : Performs s tid t) {p : BitVec 6} {f : Word → Word → Bool} {a b : Reg}
    (he : exec i s = performing s fun k u => s.next k (u.setPred p (f (u.reg a) (u.reg b)))) :
    Decides i s tid t p (f (t.reg a) (t.reg b)) := by
  rw [performing_next h] at he
  obtain ⟨q, hc, hx, ht, hp⟩ := completes_of_finish h (setPred_scalar t p _) he
  exact ⟨q, hc, hx, ht, wrotePred_of_pw hp⟩

end Completion

/-! ### Values (R143, R144) -/

/-- When the operands are equal, the result is their common value: which of them a signed minimum takes is the same (R143). -/
theorem ite_slt64 (x y : Word) : (if slt64 x y then x else y) = if x.toInt ≤ y.toInt then x else y := by
  obtain hlt | heq | hgt := lt_trichotomy x.toInt y.toInt
  · simp [slt64, hlt, hlt.le]
  · simp [BitVec.eq_of_toInt_eq heq]
  · simp [slt64, hgt.not_gt, hgt.not_ge]

/-- The unsigned form of `ite_slt64`. -/
theorem ite_ult64 (x y : Word) : (if ult64 x y then x else y) = if x.toNat ≤ y.toNat then x else y := by
  obtain hlt | heq | hgt := lt_trichotomy x.toNat y.toNat
  · simp [ult64, hlt, hlt.le]
  · simp [BitVec.eq_of_toNat_eq heq]
  · simp [ult64, hgt.not_gt, hgt.not_ge]

/-- A signed maximum tests the operands in the other order, and takes the second when it is not the lesser (R143). -/
theorem ite_slt64_max (x y : Word) : (if slt64 y x then x else y) = if x.toInt ≤ y.toInt then y else x := by
  by_cases h : x.toInt ≤ y.toInt
  · simp [slt64, h, h.not_gt]
  · simp [slt64, h, lt_of_not_ge h]

/-- The unsigned form of `ite_slt64_max`. -/
theorem ite_ult64_max (x y : Word) : (if ult64 y x then x else y) = if x.toNat ≤ y.toNat then y else x := by
  by_cases h : x.toNat ≤ y.toNat
  · simp [ult64, h, h.not_gt]
  · simp [ult64, h, lt_of_not_ge h]

theorem not_slt64 (x y : Word) : (!slt64 x y) = decide (y.toInt ≤ x.toInt) := by
  unfold slt64; rw [← decide_not, decide_eq_decide]; exact not_lt

theorem not_ult64 (x y : Word) : (!ult64 x y) = decide (y.toNat ≤ x.toNat) := by
  unfold ult64; rw [← decide_not, decide_eq_decide]; exact not_lt

/-- Among bits n − 1 to 0 the count's worth from the top are zero, and the next below is 1 unless the count is n. -/
theorem clzBits_spec (x : Word) (n : Nat) :
    clzBits x n ≤ n ∧ (∀ j, n - clzBits x n ≤ j → j < n → x.getLsbD j = false) ∧
      (clzBits x n < n → x.getLsbD (n - 1 - clzBits x n) = true) := by
  induction n with
  | zero => exact ⟨le_rfl, fun j _ hj => absurd hj (Nat.not_lt_zero j), fun h => absurd h (Nat.lt_irrefl 0)⟩
  | succ n ih =>
    obtain ⟨hle, hzero, hone⟩ := ih
    unfold clzBits
    split
    · next hn => exact ⟨Nat.zero_le _, fun j h1 h2 => by omega, fun _ => by simpa using hn⟩
    · next hn =>
      refine ⟨by omega, fun j h1 h2 => ?_, fun h => ?_⟩
      · obtain rfl | hj := Nat.lt_succ_iff_lt_or_eq.mp h2 |>.symm
        · simpa using hn
        · exact hzero j (by omega) hj
      · rw [show n + 1 - 1 - (clzBits x n + 1) = n - 1 - clzBits x n by omega]
        exact hone (by omega)

/-- From bit 64 − n up the count's worth are zero, and the next above is 1 unless the count is n. -/
theorem ctzBits_spec (x : Word) (n : Nat) (hn : n ≤ 64) :
    ctzBits x n ≤ n ∧ (∀ j, j < ctzBits x n → x.getLsbD (64 - n + j) = false) ∧
      (ctzBits x n < n → x.getLsbD (64 - n + ctzBits x n) = true) := by
  induction n with
  | zero => exact ⟨le_rfl, fun j hj => absurd hj (Nat.not_lt_zero j), fun h => absurd h (Nat.lt_irrefl 0)⟩
  | succ n ih =>
    obtain ⟨hle, hzero, hone⟩ := ih (by omega)
    have hlow : 64 - (n + 1) = 63 - n := by omega
    have hnext : ∀ j, 64 - (n + 1) + (j + 1) = 64 - n + j := fun j => by omega
    unfold ctzBits
    split
    · next hb => exact ⟨Nat.zero_le _, fun j hj => absurd hj (Nat.not_lt_zero j), fun _ => by simpa [hlow] using hb⟩
    · next hb =>
      refine ⟨by omega, fun j hj => ?_, fun h => ?_⟩
      · cases j with
        | zero => simpa [hlow] using hb
        | succ j => rw [hnext]; exact hzero j (by omega)
      · rw [hnext]; exact hone (by omega)

theorem popBits_eq_countP (x : Word) (n : Nat) : popBits x n = (List.range n).countP x.getLsbD := by
  induction n with
  | zero => rfl
  | succ n ih => rw [popBits, ih, List.range_succ, List.countP_append, List.countP_singleton]

/-! ### Results and frames (R143 to R148) -/

theorem scalarExtras : Claims.ScalarExtras := by
  intro s tid t h d a b n x y z
  have hmin : Yields (.min d a b) s tid t d (if slt64 x y then x else y) z :=
    yields_of_aluRR (f := fun _ x y => if slt64 x y then x else y) h rfl
  have hmax : Yields (.max d a b) s tid t d (if slt64 y x then x else y) z :=
    yields_of_aluRR (f := fun _ x y => if slt64 y x then x else y) h rfl
  have hminu : Yields (.minu d a b) s tid t d (if ult64 x y then x else y) z :=
    yields_of_aluRR (f := fun _ x y => if ult64 x y then x else y) h rfl
  have hmaxu : Yields (.maxu d a b) s tid t d (if ult64 y x then x else y) z :=
    yields_of_aluRR (f := fun _ x y => if ult64 y x then x else y) h rfl
  have hclz : Yields (.clz d a) s tid t d (BitVec.ofNat 64 (clzBits x 64)) (t.tainted a) :=
    yields_of_aluR (f := fun x => BitVec.ofNat 64 (clzBits x 64)) h rfl
  have hctz : Yields (.ctz d a) s tid t d (BitVec.ofNat 64 (ctzBits x 64)) (t.tainted a) :=
    yields_of_aluR (f := fun x => BitVec.ofNat 64 (ctzBits x 64)) h rfl
  have hcpop : Yields (.cpop d a) s tid t d (BitVec.ofNat 64 (popBits x 64)) (t.tainted a) :=
    yields_of_aluR (f := fun x => BitVec.ofNat 64 (popBits x 64)) h rfl
  have hsel : Yields (.sel d n a b) s tid t d (if t.pred n then x else y) z :=
    yields_of_aluRR (f := fun u x y => if u.pred n then x else y) h rfl
  obtain ⟨hclzLe, hclzZero, hclzOne⟩ := clzBits_spec x 64
  obtain ⟨hctzLe, hctzZero, hctzOne⟩ := ctzBits_spec x 64 le_rfl
  simp only [Nat.sub_self, Nat.zero_add] at hctzZero hctzOne
  refine ⟨ite_slt64 x y ▸ hmin, ite_slt64_max x y ▸ hmax, ite_ult64 x y ▸ hminu, ite_ult64_max x y ▸ hmaxu,
    ⟨_, hclzLe, hclzZero, hclzOne, hclz⟩, ⟨_, hctzLe, hctzZero, hctzOne, hctz⟩, popBits_eq_countP x 64 ▸ hcpop,
    yields_of_writeReg (v := fun u => u.pw) (b := fun _ => false) h rfl, hsel, ?_⟩
  exact completes_of_finish h (u := { t with pw := x }) rfl (performing_next h fun k u => s.next k { u with pw := u.reg a })

theorem predicateSets : Claims.PredicateSets := by
  intro s tid t h p a b x y
  refine ⟨decides_of_setPred (f := fun x y => decide (x = y)) h rfl, decides_of_setPred (f := fun x y => decide (x ≠ y)) h rfl,
    decides_of_setPred (f := slt64) h rfl, not_slt64 x y ▸ ?_, decides_of_setPred (f := ult64) h rfl, not_ult64 x y ▸ ?_⟩
  · exact decides_of_setPred (f := fun x y => !slt64 x y) h rfl
  · exact decides_of_setPred (f := fun x y => !ult64 x y) h rfl

/-! ### Words of custom-0 (R67, R69 to R71) -/

/-- A word with the opcode of custom-0 is not the prefix and goes to that opcode's decoder. -/
theorem decode_custom0 {w : BitVec 32} (h : fld w 0 7 = 0x0B#7) (second : BitVec 32) : decode w second = decCustom0 w := by
  have hprefix : w ≠ rlxPrefix := fun e => absurd (e ▸ h) (by decide)
  have hfull : fld w 0 2 = 3#2 := by
    have hlow : fld w 0 2 = (fld w 0 7).setWidth 2 := by ext j hj; simp [fld, show j < 7 by omega]
    rw [hlow, h]; rfl
  rw [decode, if_neg hprefix, decodeWord, if_neg (not_not.mpr hfull), if_neg (by rw [h]; decide), if_pos h]

section Words

variable (f7 : BitVec 7) (a b d : Reg) (p : BitVec 6) (z : BitVec 1) (y : BitVec 2) (cond : BitVec 3)

/-- A field of an X word is cut from its parts. -/
theorem fld_xWord (lo len : Nat) : fld (Claims.xWord f7 b a d) lo len =
    (f7 ++ b ++ a ++ 0#3 ++ d ++ 0x0B#7).extractLsb' lo len := rfl

/-- The parts of an X word, and the two into which `sel` divides its funct7 (R67, R148). -/
theorem xWord_fields :
    fld (Claims.xWord f7 b a d) 0 7 = 0x0B#7 ∧ fld (Claims.xWord f7 b a d) 7 5 = d ∧
    fld (Claims.xWord f7 b a d) 12 3 = 0#3 ∧ fld (Claims.xWord f7 b a d) 15 5 = a ∧
    fld (Claims.xWord f7 b a d) 20 5 = b ∧ fld (Claims.xWord f7 b a d) 25 7 = f7 ∧
    fld (Claims.xWord f7 b a d) 25 6 = f7.extractLsb' 0 6 ∧ fld (Claims.xWord f7 b a d) 31 1 = f7.extractLsb' 6 1 := by
  simp (disch := decide) only [fld_xWord, BitVec.extractLsb'_append_eq_of_le, BitVec.extractLsb'_append_eq_of_add_le,
    Nat.reduceSub, BitVec.extractLsb'_eq_self, and_self]

/-- A word of custom-0 in the P layout, funct3 001, `z` and `y` the fields that no form names (R67). -/
def psetWord : BitVec 32 := p ++ z ++ b ++ a ++ 1#3 ++ y ++ cond ++ 0x0B#7

/-- A field of a `pset` word is cut from its parts. -/
theorem fld_psetWord (lo len : Nat) : fld (psetWord a b p z y cond) lo len =
    (p ++ z ++ b ++ a ++ 1#3 ++ y ++ cond ++ 0x0B#7).extractLsb' lo len := rfl

/-- The parts of a `pset` word (R67, R71). -/
theorem psetWord_fields :
    fld (psetWord a b p z y cond) 0 7 = 0x0B#7 ∧ fld (psetWord a b p z y cond) 7 3 = cond ∧
    fld (psetWord a b p z y cond) 10 2 = y ∧ fld (psetWord a b p z y cond) 12 3 = 1#3 ∧
    fld (psetWord a b p z y cond) 15 5 = a ∧ fld (psetWord a b p z y cond) 20 5 = b ∧
    fld (psetWord a b p z y cond) 25 1 = z ∧ fld (psetWord a b p z y cond) 26 6 = p := by
  simp (disch := decide) only [fld_psetWord, BitVec.extractLsb'_append_eq_of_le, BitVec.extractLsb'_append_eq_of_add_le,
    Nat.reduceSub, BitVec.extractLsb'_eq_self, and_self]

theorem decode_xWord (second : BitVec 32) :
    decode (Claims.xWord f7 b a d) second = decExtras (Claims.xWord f7 b a d) := by
  obtain ⟨hop, -, hf3, -⟩ := xWord_fields f7 a b d
  rw [decode_custom0 hop, decCustom0, if_pos hf3]

theorem decode_psetWord (second : BitVec 32) :
    decode (psetWord a b p z y cond) second = decPset (psetWord a b p z y cond) := by
  obtain ⟨hop, -, -, hf3, -⟩ := psetWord_fields a b p z y cond
  rw [decode_custom0 hop, decCustom0, if_neg (by rw [hf3]; decide), if_pos hf3]

/-- The funct7 of a `sel` is none of the other scalar extras', whose bit 6 is zero (R70). -/
theorem selFunct7_ne {k : BitVec 7} (hk : k.msb = false) : 1#1 ++ p ≠ k := by
  rintro rfl
  rw [BitVec.msb_append, if_neg (by decide)] at hk
  exact absurd hk (by decide)

theorem selFunct7_fields : (1#1 ++ p).extractLsb' 0 6 = p ∧ (1#1 ++ p).extractLsb' 6 1 = 1#1 := by
  simp (disch := decide) only [BitVec.extractLsb'_append_eq_of_le, BitVec.extractLsb'_append_eq_of_add_le,
    Nat.reduceSub, BitVec.extractLsb'_eq_self, and_self]

theorem decode_sel (second : BitVec 32) : decode (Claims.xWord (1#1 ++ p) b a d) second = .ok (.sel d p a b) := by
  rw [decode_xWord]
  simp (disch := decide) only [decExtras, xWord_fields, selFunct7_fields, selFunct7_ne, if_false, if_true]

end Words

/-! ### The words of the scalar extras, and the obligation -/

theorem scalarExtraWords : Claims.ScalarExtraWords := by
  intro a b d p z y cond second word
  have hword : ∀ f7, word f7 = decExtras (Claims.xWord f7 b a d) := fun f7 => decode_xWord f7 a b d second
  refine ⟨?_, ?_, ?_, ?_, ?_, ?_, ?_, ?_, ?_, decode_sel a b d p second, ?_⟩
  case refine_10 => -- the word of `pset`
    change decode (psetWord a b p z y cond) second = _
    rw [decode_psetWord]
    simp [decPset, check, psetWord_fields]
  all_goals
    rw [hword]
    simp [decExtras, check, xWord_fields]

/-- Settles O3: the shared operations complete and write what they are given, the counts are what their recursions
count, and the fields of a custom-0 word are its parts. -/
theorem scalarExtrasAndPredicates : Obligations.ScalarExtrasAndPredicates := by
  unfold Obligations.ScalarExtrasAndPredicates
  exact ⟨scalarExtras, predicateSets, scalarExtraWords⟩

end Sys2Proof.Machine
end

section
/-! Proofs about the vector unit's shared operations (R274 to R277, R280): the lanes and the flags that they build, the
result that an instruction leaves in flight, and the ILLEGAL trap of a format that an operation does not accept. -/

namespace Sys2Proof.Machine

/-! ### Lanes and masks (R274, R275) -/

section Lanes

variable {w n i x : Nat} {v : VWord} {l : List Nat}

/-- A lane of the model is the lane that claims speak of. -/
@[simp] theorem laneOf_eq_lane (v : VWord) (w n : Nat) : laneOf v w n = Claims.lane v w n := by
  rw [laneOf, Claims.lane, BitVec.extractLsb'_toNat, Nat.shiftRight_eq_div_pow]

theorem lane_lt (v : VWord) (w n : Nat) : Claims.lane v w n < 2 ^ w := Nat.mod_lt _ (Nat.two_pow_pos w)

theorem testBit_lane (v : VWord) (w n j : Nat) :
    (Claims.lane v w n).testBit j = (decide (j < w) && v.getLsbD (w * n + j)) := by
  rw [← laneOf_eq_lane, laneOf, BitVec.testBit_toNat, BitVec.getLsbD_extractLsb']

/-- The bits below lane 1 are those of the first number, and every bit above is one of the other lanes. -/
theorem getLsbD_fromLanes_cons (w x : Nat) (l : List Nat) {j : Nat} (hj : j < 512) :
    (fromLanes w (x :: l)).getLsbD j = if j < w then x.testBit j else (fromLanes w l).getLsbD (j - w) := by
  rw [fromLanes]
  have hx : (BitVec.ofNat 512 (x % 2 ^ w)).getLsbD j = (decide (j < w) && x.testBit j) := by
    rw [BitVec.getLsbD_ofNat, Nat.testBit_mod_two_pow, decide_eq_true hj, Bool.true_and]
  rw [BitVec.getLsbD_or, hx, BitVec.getLsbD_shiftLeft]
  split
  · next h => simp only [h, decide_true, Bool.not_true, Bool.and_false, Bool.false_and, Bool.false_or, Bool.true_and]
  · next h => simp only [h, hj, decide_true, decide_false, Bool.not_false, Bool.true_and, Bool.false_and, Bool.or_false]

/-- Lane n of a register built from lanes holds the n-th number, cut to the width. -/
theorem lane_fromLanes (hl : w * l.length ≤ 512) (hn : n < l.length) :
    Claims.lane (fromLanes w l) w n = l[n] % 2 ^ w := by
  refine Nat.eq_of_testBit_eq fun j => ?_
  rw [testBit_lane, Nat.testBit_mod_two_pow]
  by_cases hj : j < w
  case neg => simp [hj]
  simp only [hj, decide_true, Bool.true_and]
  induction l generalizing n with
  | nil => exact absurd hn (Nat.not_lt_zero n)
  | cons x l ih =>
    rw [List.length_cons, Nat.mul_succ] at hl
    cases n with
    | zero => rw [getLsbD_fromLanes_cons _ _ _ (by omega), Nat.mul_zero, Nat.zero_add, if_pos hj]; rfl
    | succ n =>
      have hn' : n < l.length := Nat.lt_of_succ_lt_succ hn
      have hle : w * (n + 1) ≤ w * l.length := Nat.mul_le_mul_left w hn'
      rw [Nat.mul_succ] at hle ⊢
      rw [getLsbD_fromLanes_cons _ _ _ (by omega), if_neg (by omega), show w * n + w + j - w = w * n + j by omega,
        ih (by omega) hn']
      rfl

/-- A register built lane by lane from a function. -/
theorem lane_fromLanes_range {k : Nat} (f : Nat → Nat) (hk : w * k ≤ 512) (hn : n < k) :
    Claims.lane (fromLanes w ((List.range k).map f)) w n = f n % 2 ^ w := by
  rw [lane_fromLanes (by simpa using hk) (by simpa using hn)]; simp

/-- Replacing a lane changes its bits to those of the new value and no others. -/
theorem getLsbD_setLane (v : VWord) (w i x : Nat) {j : Nat} (hj : j < 512) :
    (setLane v w i x).getLsbD j = if w * i ≤ j ∧ j < w * i + w then x.testBit (j - w * i) else v.getLsbD j := by
  have hones : ((BitVec.ofNat 512 (2 ^ w - 1)) <<< (w * i)).getLsbD j = decide (w * i ≤ j ∧ j < w * i + w) := by
    rw [BitVec.getLsbD_shiftLeft, BitVec.getLsbD_ofNat, Nat.testBit_two_pow_sub_one]
    simp only [← Bool.decide_and, ← decide_not, decide_eq_decide]
    omega
  have hx : (BitVec.ofNat 512 (x % 2 ^ w) <<< (w * i)).getLsbD j =
      (decide (w * i ≤ j ∧ j < w * i + w) && x.testBit (j - w * i)) := by
    rw [BitVec.getLsbD_shiftLeft, BitVec.getLsbD_ofNat, Nat.testBit_mod_two_pow, ← Bool.and_assoc, ← Bool.and_assoc]
    congr 1
    simp only [← Bool.decide_and, ← decide_not, decide_eq_decide]
    omega
  rw [setLane, BitVec.getLsbD_or, BitVec.getLsbD_and, BitVec.getLsbD_not, hones, hx]
  split
  · next h => simp only [h, decide_true, Bool.not_true, Bool.and_false, Bool.false_or, Bool.true_and, and_self]
  · next h => simp only [h, hj, decide_true, decide_false, Bool.not_false, Bool.and_true, Bool.false_and, Bool.or_false]

/-- A lane after one lane was replaced. -/
theorem lane_setLane (hn : w * n + w ≤ 512) :
    Claims.lane (setLane v w i x) w n = if n = i then x % 2 ^ w else Claims.lane v w n := by
  refine Nat.eq_of_testBit_eq fun j => ?_
  rw [testBit_lane]
  by_cases hj : j < w
  case neg => split <;> simp [hj, testBit_lane, Nat.testBit_mod_two_pow]
  rw [getLsbD_setLane v w i x (by omega)]
  by_cases h : n = i
  · subst h
    rw [if_pos ⟨Nat.le_add_right .., by omega⟩, if_pos rfl, Nat.testBit_mod_two_pow, Nat.add_sub_cancel_left]
  · have hout : ¬ (w * i ≤ w * n + j ∧ w * n + j < w * i + w) := by
      rintro ⟨h1, h2⟩
      obtain hlt | hgt := Nat.lt_or_gt_of_ne h
      · have hle := Nat.mul_le_mul_left w hlt
        rw [Nat.mul_succ] at hle
        omega
      · have hle := Nat.mul_le_mul_left w hgt
        rw [Nat.mul_succ] at hle
        omega
    rw [if_neg hout, if_neg h, testBit_lane]

/-- Bit n of a mask built from bits is the n-th of them. -/
theorem getLsbD_fromBits (l : List Bool) {n : Nat} (hn : n < 128) : (fromBits l).getLsbD n = l.getD n false := by
  induction l generalizing n with
  | nil => simp [fromBits]
  | cons b l ih =>
    rw [fromBits]
    cases n with
    | zero => cases b <;> simp
    | succ n =>
      have hlow : (if b then 1#128 else 0#128).getLsbD (n + 1) = false := by cases b <;> simp
      rw [BitVec.getLsbD_or, hlow, Bool.or_false, BitVec.getLsbD_shiftLeft]
      simpa only [hn, Nat.lt_add_left_iff_pos, Nat.not_lt_zero, decide_true, decide_false, Bool.not_false, Bool.true_and,
        Nat.add_sub_cancel, List.getD_cons_succ, Nat.lt_one_iff, Nat.succ_ne_zero] using ih (Nat.lt_of_succ_lt hn)

/-- A mask built bit by bit from a condition holds it below its length, and 0 above (R289). -/
theorem getLsbD_fromBits_range {k n : Nat} (p : Nat → Bool) (hk : k ≤ 128) :
    (fromBits ((List.range k).map p)).getLsbD n = (decide (n < k) && p n) := by
  by_cases hn : n < 128
  · rw [getLsbD_fromBits _ hn]
    by_cases h : n < k <;> simp [h]
  · rw [BitVec.getLsbD_of_ge _ _ (Nat.le_of_not_lt hn)]
    simp [show ¬ n < k by omega]

/-- A flag is collected when the start or one of the results holds it. -/
theorem getLsbD_foldl_flags {α : Type} (l : List (α × Flags)) (z : Flags) (b : Nat) :
    (l.foldl (fun a r => a ||| r.2) z).getLsbD b = (z.getLsbD b || l.any fun r => r.2.getLsbD b) := by
  induction l generalizing z with
  | nil => simp
  | cons r l ih => simp [ih, Bool.or_assoc]

theorem activeLane_maskOf (t : Thread) (m : Option KReg) (n : Nat) :
    activeLane (t.maskOf m) n = Claims.active t m n := by cases m <;> rfl

/-- What an element-wise operation gives in a lane (R275). -/
theorem lane_mapLanes {m : Option MaskWord} {f : Nat → Nat × Flags} {d : VWord} (hn : n < 512 / w) :
    Claims.lane (mapLanes w m f d).1 w n = if activeLane m n then (f n).1 % 2 ^ w else Claims.lane d w n := by
  simp only [mapLanes, List.map_map]
  rw [lane_fromLanes_range _ (Nat.mul_div_le 512 w) hn]
  by_cases h : activeLane m n <;> simp [h, Nat.mod_eq_of_lt (lane_lt d w n)]

/-- The flags of an element-wise operation are those of its active lanes (R275). -/
theorem getLsbD_mapLanes_flags {m : Option MaskWord} {f : Nat → Nat × Flags} {d : VWord} {b : Nat} :
    (mapLanes w m f d).2.getLsbD b = true ↔ ∃ n, n < 512 / w ∧ activeLane m n = true ∧ (f n).2.getLsbD b = true := by
  unfold mapLanes
  rw [getLsbD_foldl_flags]
  simp only [BitVec.getLsbD_zero, Bool.false_or, List.any_map, List.any_eq_true, List.mem_range, Function.comp_apply]
  refine exists_congr fun n => and_congr_right fun _ => ?_
  by_cases h : activeLane m n <;> simp [h]

end Lanes

/-! ### A result in flight (R276, R277) -/

section InFlight

variable {i : Instr} {s : State} {tid : BitVec 16} {t : Thread}

theorem useV_idle (hv : t.vres = []) (now : Nat) (rs : List (BitVec 4)) : t.useV now rs = .go := by
  have hnone : rs.find? (fun _ => false) = none := List.find?_eq_none.mpr fun _ _ => Bool.false_ne_true
  simp [Thread.useV, hv, hnone]

/-- A thread with no result in flight reads its vector registers at once. -/
theorem withVecs_idle (hv : t.vres = []) (k : Nat) (rs : List (BitVec 4)) (f : Unit → State) :
    s.withVecs k t rs f = f () := by
  rw [State.withVecs, useV_idle hv]

theorem mem_insertTimed_self (x : Timed) (l : List Timed) : x ∈ insertTimed x l := by
  induction l with
  | nil => exact List.mem_singleton.mpr rfl
  | cons y l ih =>
    rw [insertTimed]
    split
    · exact List.mem_cons_self
    · exact List.mem_cons_of_mem y ih

/-- Retirement of a vector instruction of a thread with no other result in flight. -/
theorem pends_of_nextVec (h : Performs s tid t) (hv : t.vres = []) {c : VClass} {d : BitVec 4} {v : VWord} {f : Flags}
    {win : BitVec 2} (he : exec i s = .next (s.nextVec tid.toNat t c d v f win)) :
    Claims.Pends i s tid t d v f c.cycles win := by
  obtain ⟨q, hq, honly, hret, hx, -, hpw⟩ := finish_scalar h.inv.threads tid.toNat (u := t) rfl (t.pc + 4#64) false 8
  change (s.next tid.toNat t).thread? tid.toNat = some q at hq
  unfold RetiredTo at hret
  rw [passWindows_none hv] at hret
  have hmod : (s.next tid.toNat t).modThread tid.toNat (fun u => u.pend s.time c d v f win) =
      (s.next tid.toNat t).setThread tid.toNat (q.pend s.time c d v f win) := by rw [State.modThread, hq]
  have hnext : s.nextVec tid.toNat t c d v f win =
      ((s.next tid.toNat t).setThread tid.toNat (q.pend s.time c d v f win)).schedule (s.time + c.cycles)
        (.vectorResultWrite tid) := by
    unfold State.nextVec
    rw [hmod, BitVec.ofNat_toNat, BitVec.setWidth_eq]
  have hrest : s.next tid.toNat t =
      { s with threads := (s.next tid.toNat t).threads, clusters := (s.next tid.toNat t).clusters } := honly.rest
  rw [hnext] at he
  refine ⟨_, q.pend s.time c d v f win, he, ?thread, ?pc, ?instret, hx, hpw, ?v, ?k, ?vflags, ?vres, ?frame, _,
    mem_insertTimed_self _ _, rfl, rfl⟩
  case thread => rw [thread_schedule, thread_setThread_same]
  case frame =>
    generalize (s.next tid.toNat t).threads = x, (s.next tid.toNat t).clusters = y at hrest
    rw [hrest]
    rfl
  all_goals rw [Thread.pend, hret]
  case vres => rw [hv, List.nil_append]

/-- A precise trap of a performing thread, outside a handler and inside one (R401, R403). -/
theorem traps_of_trap (h : Performs s tid t) {code : BitVec 8} {eval : Word}
    (he : exec i s = .next (s.trap tid.toNat t code eval)) : Traps i s tid t code eval := by
  have hquiet := takeTrap_quiet s tid.toNat t code eval t.pc false
  cases hh : t.inHandler with
  | false =>
    obtain ⟨q, hq, hx, ht, hpw, hret, hepc, heval, hepw, hin, hpc, hcause, hrun⟩ :=
      takeTrap_thread h.inv.threads code eval t.pc false (.inr hh) h.live (tid := tid.toNat)
    refine ⟨_, q, he, hq, hquiet.mem, hquiet.full, hx, ht, hpw, hret, hin, ?_⟩
    rw [hh]
    refine ⟨hepc, heval, by simpa using hcause, hepw, hpc, by simpa using hrun⟩
  | true =>
    obtain ⟨g, hq⟩ := doubleTrap_thread (s := s) (tid := tid.toNat) (t := t) code t.pc h.inv.threads h.live
    have hdouble : s.trap tid.toNat t code eval = s.doubleTrap tid.toNat t code t.pc := by
      simp [State.trap, State.takeTrap, hh]
    rw [← hdouble] at hq
    refine ⟨_, _, he, hq, hquiet.mem, hquiet.full, ?_⟩
    simp [hh]

theorem illegal_of_exec (h : Performs s tid t) (he : exec i s = .next (s.illegal tid.toNat t i)) :
    Claims.Illegal i s tid t := by
  unfold Claims.Illegal
  rw [State.illegal, cILLEGAL] at he
  exact traps_of_trap h he

/-- A form with a format is ILLEGAL on a format that its operation does not accept (R280). -/
theorem illegal_of_format (h : Performs s tid t) {ok : Bool} (hok : ok = false) {F : Nat → Thread → State}
    (he : exec i s = performing s fun k u => if ok then F k u else s.illegal k u i) : Claims.Illegal i s tid t := by
  rw [performing_next h, if_neg (by rw [hok]; decide)] at he
  exact illegal_of_exec h he

/-- Such a form performs on a format that its operation accepts (R280). -/
theorem exec_of_format (h : Performs s tid t) {ok : Bool} (hok : ok = true) {F : Nat → Thread → State}
    (he : exec i s = performing s fun k u => if ok then F k u else s.illegal k u i) : exec i s = .next (F tid.toNat t) := by
  rw [he, performing_next h, if_pos hok]

/-! ### Element-wise forms (R275, R286) -/

/-- Two results that a lane of width w does not tell apart: the same low bits and the same flags. -/
def SameLane (w : Nat) (p q : Nat × Flags) : Prop := p.1 % 2 ^ w = q.1 % 2 ^ w ∧ p.2 = q.2

theorem SameLane.of_eq {w : Nat} {p q : Nat × Flags} (e : p = q) : SameLane w p q := by rw [e]; exact ⟨rfl, rfl⟩

section Elementwise

variable {c : VClass} {f : Fmt} {w : Nat} {m : Option KReg} {d a b : VReg} {rs : List VReg} {win : BitVec 2} {ok : Bool}
  {g : Nat → Nat × Flags}

theorem illegal_of_elementwise (h : Performs s tid t) (hok : ok = false) {op : Thread → Nat → Nat × Flags}
    (he : exec i s = performing s fun k u => s.elementwise k u i ok c w m d rs win (op u)) : Claims.Illegal i s tid t :=
  illegal_of_format h hok he

/-- An element-wise form leaves in flight what its operation gives in the active lanes. -/
theorem lanewise_of_elementwise (h : Performs s tid t) (hv : t.vres = []) (hok : ok = true) {op : Thread → Nat → Nat × Flags}
    (he : exec i s = performing s fun k u => s.elementwise k u i ok c w m d rs win (op u))
    (hop : ∀ n, n < 512 / w → SameLane w (op t n) (g n)) : Claims.Lanewise i s tid t d m w c.cycles win g := by
  have hrun := exec_of_format h hok he
  rw [withVecs_idle hv] at hrun
  refine ⟨(mapLanes w (t.maskOf m) (op t) (t.vreg d)).1, (mapLanes w (t.maskOf m) (op t) (t.vreg d)).2,
    pends_of_nextVec h hv hrun, fun n hn => ?_, fun b => ?_⟩
  · rw [lane_mapLanes hn, activeLane_maskOf, (hop n hn).1]
  · rw [getLsbD_mapLanes_flags]
    refine exists_congr fun n => and_congr_right fun hn => ?_
    rw [activeLane_maskOf, (hop n hn).2]

theorem lanewise_of_elem2 (h : Performs s tid t) (hv : t.vres = []) (hok : ok = true) {op : Thread → Fmt → Nat → Nat → Nat × Flags}
    (he : exec i s = performing s fun k u => s.elem2 k u i ok f m d a b win (op u))
    (hop : ∀ n, SameLane (fmtWidth f)
      (op t f (Claims.lane (t.vreg a) (fmtWidth f) n) (Claims.lane (t.vreg b) (fmtWidth f) n)) (g n)) :
    Claims.Lanewise i s tid t d m (fmtWidth f) 8 win g := by
  refine lanewise_of_elementwise (c := .simple) h hv hok he fun n _ => ?_
  rw [laneOf_eq_lane, laneOf_eq_lane]
  exact hop n

theorem lanewise_of_elem1 (h : Performs s tid t) (hv : t.vres = []) (hok : ok = true) {op : Fmt → Nat → Nat × Flags}
    (he : exec i s = performing s fun k u => s.elem1 k u i ok c f m d a win op)
    (hop : ∀ n, SameLane (fmtWidth f) (op f (Claims.lane (t.vreg a) (fmtWidth f) n)) (g n)) :
    Claims.Lanewise i s tid t d m (fmtWidth f) c.cycles win g := by
  refine lanewise_of_elementwise h hv hok he fun n _ => ?_
  rw [laneOf_eq_lane]
  exact hop n

theorem lanewise_of_elem3 (h : Performs s tid t) (hv : t.vres = []) (hok : ok = true) {op : Fmt → Nat → Nat → Nat → Nat × Flags}
    (he : exec i s = performing s fun k u => s.elem3 k u i ok f m d a b win op)
    (hop : ∀ n, SameLane (fmtWidth f) (op f (Claims.lane (t.vreg a) (fmtWidth f) n)
      (Claims.lane (t.vreg b) (fmtWidth f) n) (Claims.lane (t.vreg d) (fmtWidth f) n)) (g n)) :
    Claims.Lanewise i s tid t d m (fmtWidth f) 12 win g := by
  refine lanewise_of_elementwise (c := .fused) h hv hok he fun n _ => ?_
  rw [laneOf_eq_lane, laneOf_eq_lane, laneOf_eq_lane]
  exact hop n

end Elementwise

end InFlight

end Sys2Proof.Machine
end

section
/-! Proofs about the vector arithmetic (R286, R287): each lane operation against the exact results that claims state. -/

namespace Sys2Proof.Machine

/-! ### Lane values (R274, R286, R287) -/

theorem two_pow_fmtWidth (f : Fmt) : 2 ^ fmtWidth f = 2 * 2 ^ (fmtWidth f - 1) := by cases f <;> rfl

/-- A lane of a float format has its sign in the top bit. -/
theorem signBit_of_fmtFloat {f : Fmt} {g : FloatFmt} (hg : fmtFloat f = some g) : g.signBit = 2 ^ (fmtWidth f - 1) := by
  cases f <;> cases hg <;> rfl

theorem fmtSigned_of_ne {f : Fmt} : f ≠ .uint8 → fmtSigned f = true := by cases f <;> decide

/-- The integer that a lane holds, in the model and in claims. -/
theorem laneInt_eq_intOf {f : Fmt} {x : Nat} (hx : x < 2 ^ fmtWidth f) :
    laneInt (fmtSigned f) (fmtWidth f) x = Claims.intOf f x := by
  have hw := two_pow_fmtWidth f
  rw [laneInt, Claims.intOf, Nat.mod_eq_of_lt hx]
  by_cases hf : f = .uint8
  · subst hf; rfl
  · simp only [fmtSigned_of_ne hf, hf, Bool.true_and, false_or, decide_eq_true_eq]
    by_cases hlow : 2 * x < 2 ^ fmtWidth f
    · rw [if_pos hlow, if_neg (by omega)]
    · rw [if_neg hlow, if_pos (by omega)]

/-- A result saturated to the lane's range, in the model and in claims. -/
theorem clampLane_eq_clamp (f : Fmt) (i : Int) : clampLane f i = Claims.clamp f i := by
  have hlo : laneLo (fmtSigned f) (fmtWidth f) = if f = .uint8 then 0 else - 2 ^ (fmtWidth f - 1) := by cases f <;> rfl
  have hhi : laneHi (fmtSigned f) (fmtWidth f) = if f = .uint8 then 255 else 2 ^ (fmtWidth f - 1) - 1 := by cases f <;> rfl
  have hle : laneLo (fmtSigned f) (fmtWidth f) ≤ laneHi (fmtSigned f) (fmtWidth f) := by cases f <;> decide
  simp only [clampLane, Claims.clamp, ← hlo, ← hhi, intLane, flagSAT]
  generalize laneLo (fmtSigned f) (fmtWidth f) = lo, laneHi (fmtSigned f) (fmtWidth f) = hi at hle ⊢
  split
  · next h => rw [if_pos (.inl h), max_eq_left (by omega)]
  · next h =>
    split
    · next h' => rw [if_pos (.inr h'), min_eq_left h'.le, max_eq_right hle]
    · next h' => rw [if_neg (by omega), min_eq_right (not_lt.mp h'), max_eq_right (not_lt.mp h)]

section Results

variable {f : Fmt} {g : FloatFmt} {value : FloatFmt → FVal} {i : Int} {x y z : Nat}

theorem result_of_float (hf : fmtFloat f = some g) : Claims.result f value i = g.deliver .rne false (value g) := by
  unfold Claims.result; rw [hf]

theorem result_of_int (hf : fmtFloat f = none) : Claims.result f value i = satLane f i := by
  unfold Claims.result satLane; rw [hf, clampLane_eq_clamp]; rfl

/-! ### Lane operations (R286, R287) -/

theorem laneAdd_eq_result (hx : x < 2 ^ fmtWidth f) (hy : y < 2 ^ fmtWidth f) : laneAdd f x y =
    Claims.result f (fun g => exactSum [g.decode x, g.decode y]) (Claims.intOf f x + Claims.intOf f y) := by
  unfold laneAdd
  cases hf : fmtFloat f with
  | some g => rw [result_of_float hf]
  | none => rw [result_of_int hf, laneInt_eq_intOf hx, laneInt_eq_intOf hy]

theorem laneSub_eq_result (hx : x < 2 ^ fmtWidth f) (hy : y < 2 ^ fmtWidth f) : laneSub f x y =
    Claims.result f (fun g => exactSum [g.decode x, (g.decode y).neg]) (Claims.intOf f x - Claims.intOf f y) := by
  unfold laneSub
  cases hf : fmtFloat f with
  | some g => rw [result_of_float hf]
  | none => rw [result_of_int hf, laneInt_eq_intOf hx, laneInt_eq_intOf hy]

theorem laneMul_eq_result (hx : x < 2 ^ fmtWidth f) (hy : y < 2 ^ fmtWidth f) : laneMul f x y =
    Claims.result f (fun g => (g.decode x).mul (g.decode y)) (Claims.intOf f x * Claims.intOf f y) := by
  unfold laneMul
  cases hf : fmtFloat f with
  | some g => rw [result_of_float hf]
  | none => rw [result_of_int hf, laneInt_eq_intOf hx, laneInt_eq_intOf hy]

/-- On integer lanes a maximum takes the second operand when it is the greater, and a minimum when it is the lesser. -/
theorem laneMaxMin_of_int (isMax : Bool) (hf : (fmtFloat f).isNone = true) (hx : x < 2 ^ fmtWidth f) (hy : y < 2 ^ fmtWidth f) :
    laneMaxMin isMax f x y = (if (if isMax then Claims.intOf f x < Claims.intOf f y else Claims.intOf f y < Claims.intOf f x)
      then y else x, 0#6) := by
  unfold laneMaxMin
  rw [Option.isNone_iff_eq_none.mp hf, laneInt_eq_intOf hx, laneInt_eq_intOf hy]

theorem laneMax_eq (hx : x < 2 ^ fmtWidth f) (hy : y < 2 ^ fmtWidth f) : laneMaxMin true f x y =
    if (fmtFloat f).isNone then (if Claims.intOf f x < Claims.intOf f y then y else x, 0#6) else laneMaxMin true f x y := by
  split
  · next hf => simpa only [if_true] using laneMaxMin_of_int true hf hx hy
  · rfl

theorem laneMin_eq (hx : x < 2 ^ fmtWidth f) (hy : y < 2 ^ fmtWidth f) : laneMaxMin false f x y =
    if (fmtFloat f).isNone then (if Claims.intOf f y < Claims.intOf f x then y else x, 0#6) else laneMaxMin false f x y := by
  split
  · next hf => simpa only [Bool.false_eq_true, if_false] using laneMaxMin_of_int false hf hx hy
  · rfl

/-- An unsigned lane is its own absolute value, within its range. -/
theorem clamp_natAbs_uint8 (hx : x < 2 ^ fmtWidth .uint8) : Claims.clamp .uint8 (Claims.intOf .uint8 x).natAbs = (x, 0#6) := by
  change x < 256 at hx
  have hint : ((Claims.intOf .uint8 x).natAbs : Int) = x := by simp [Claims.intOf]
  rw [hint, ← clampLane_eq_clamp]
  have hlo : ¬ (x : Int) < laneLo (fmtSigned .uint8) (fmtWidth .uint8) := not_lt.mpr (Int.natCast_nonneg x)
  have hhi : ¬ laneHi (fmtSigned .uint8) (fmtWidth .uint8) < x := not_lt.mpr (Int.le_sub_one_of_lt (by exact_mod_cast hx))
  rw [clampLane, if_neg hlo, if_neg hhi]
  change (((x : Int) % 256).toNat, 0#6) = (x, 0#6)
  rw [Int.emod_eq_of_lt (Int.natCast_nonneg x) (by exact_mod_cast hx), Int.toNat_natCast]

theorem laneAbs_eq (hx : x < 2 ^ fmtWidth f) : laneAbs f x =
    if (fmtFloat f).isNone then Claims.clamp f (Claims.intOf f x).natAbs else (x % 2 ^ (fmtWidth f - 1), 0#6) := by
  unfold laneAbs
  cases hf : fmtFloat f with
  | some g => simp [signBit_of_fmtFloat hf]
  | none =>
    rw [Option.isNone_none, if_pos rfl]
    by_cases hs : fmtSigned f = true
    · have hint := laneInt_eq_intOf hx
      rw [hs] at hint
      simp only [hs, if_true, hint, clampLane_eq_clamp]
    · obtain rfl : f = .uint8 := not_not.mp fun hne => hs (fmtSigned_of_ne hne)
      exact (clamp_natAbs_uint8 hx).symm

/-- A float lane's sign is inverted by adding the weight of its sign bit, modulo the lane's width (R287). -/
theorem laneNeg_same (hx : x < 2 ^ fmtWidth f) : SameLane (fmtWidth f) (laneNeg f x)
    (if (fmtFloat f).isNone then Claims.result f (fun _ => .nan false) (- Claims.intOf f x)
      else (x + 2 ^ (fmtWidth f - 1), 0#6)) := by
  unfold laneNeg
  cases hf : fmtFloat f with
  | some g =>
    simp only [signBit_of_fmtFloat hf]
    refine ⟨?_, rfl⟩
    have hw := two_pow_fmtWidth f
    generalize 2 ^ (fmtWidth f - 1) = top at hw
    simp only [Option.isNone_some, Bool.false_eq_true, if_false, hw] at hx ⊢
    split
    · rfl
    · next h => rw [show x + top = (x - top) + 2 * top by omega, Nat.add_mod_right]
  | none => exact .of_eq (by rw [Option.isNone_none, if_pos rfl, result_of_int hf, laneInt_eq_intOf hx])

theorem laneFma_of_float (hf : fmtFloat f = some g) :
    laneFma f x y z = g.deliver .rne false (exactSum [(g.decode x).mul (g.decode y), g.decode z]) := by
  unfold laneFma; rw [hf]

theorem laneFms_of_float (hf : fmtFloat f = some g) :
    laneFms f x y z = g.deliver .rne false (exactSum [(g.decode x).mul (g.decode y), (g.decode z).neg]) := by
  unfold laneFms; rw [hf]

end Results

/-- Settles O25: an element-wise form leaves its lane operation's results in flight, each lane operation gives what claims
state, and a format outside R280's row is refused before anything is read. -/
theorem vectorArithmetic : Obligations.VectorArithmetic := by
  unfold Obligations.VectorArithmetic
  intro s tid t h hv f m d a b win w x y z int top
  have hx : ∀ n, x n < 2 ^ w := lane_lt (t.vreg a) w
  have hy : ∀ n, y n < 2 ^ w := lane_lt (t.vreg b) w
  refine ⟨fun hf => ⟨?_, ?_, ?_, ?_, ?_, ?_, ?_⟩, fun hf g hg => ⟨?_, ?_⟩, fun hf i hi => ?_, fun hf i hi => ?_⟩
  · exact lanewise_of_elem2 (op := fun _ => laneAdd) h hv hf rfl fun n => .of_eq (laneAdd_eq_result (hx n) (hy n))
  · exact lanewise_of_elem2 (op := fun _ => laneSub) h hv hf rfl fun n => .of_eq (laneSub_eq_result (hx n) (hy n))
  · exact lanewise_of_elem2 (op := fun _ => laneMul) h hv hf rfl fun n => .of_eq (laneMul_eq_result (hx n) (hy n))
  · exact lanewise_of_elem2 (op := fun _ => laneMaxMin true) h hv hf rfl fun n => .of_eq (laneMax_eq (hx n) (hy n))
  · exact lanewise_of_elem2 (op := fun _ => laneMaxMin false) h hv hf rfl fun n => .of_eq (laneMin_eq (hx n) (hy n))
  · exact lanewise_of_elem1 (c := .simple) (op := laneAbs) h hv hf rfl fun n => .of_eq (laneAbs_eq (hx n))
  · exact lanewise_of_elem1 (c := .simple) (op := laneNeg) h hv hf rfl fun n => laneNeg_same (hx n)
  · exact lanewise_of_elem3 (op := laneFma) h hv hf rfl fun n => .of_eq (laneFma_of_float hg)
  · exact lanewise_of_elem3 (op := laneFms) h hv hf rfl fun n => .of_eq (laneFms_of_float hg)
  · simp only [List.mem_cons, List.not_mem_nil, or_false] at hi
    rcases hi with rfl | rfl | rfl | rfl | rfl | rfl | rfl <;> exact illegal_of_elementwise h hf rfl
  · simp only [List.mem_cons, List.not_mem_nil, or_false] at hi
    rcases hi with rfl | rfl <;> exact illegal_of_elementwise h hf rfl

end Sys2Proof.Machine
end

section
/-! Proofs about the vector logic and shifts, moves, comparisons, selection, permutation and mask operations (R285, R288
to R290, R295). -/

namespace Sys2Proof.Machine

section Forms

variable {i : Instr} {s : State} {tid : BitVec 16} {t : Thread} {f : Fmt} {w n x y : Nat} {m : Option KReg}
  {d a b : VReg} {rs : List VReg} {win : BitVec 2}

/-! ### Logic and shifts (R288) -/

theorem lane_and (u v : VWord) (w n : Nat) : Claims.lane (u &&& v) w n = Claims.lane u w n &&& Claims.lane v w n :=
  Nat.eq_of_testBit_eq fun j => by
    simp only [testBit_lane, Nat.testBit_and, BitVec.getLsbD_and]
    cases decide (j < w) <;> rfl

theorem lane_or (u v : VWord) (w n : Nat) : Claims.lane (u ||| v) w n = Claims.lane u w n ||| Claims.lane v w n :=
  Nat.eq_of_testBit_eq fun j => by
    simp only [testBit_lane, Nat.testBit_or, BitVec.getLsbD_or]
    cases decide (j < w) <;> rfl

theorem lane_xor (u v : VWord) (w n : Nat) : Claims.lane (u ^^^ v) w n = Claims.lane u w n ^^^ Claims.lane v w n :=
  Nat.eq_of_testBit_eq fun j => by
    simp only [testBit_lane, Nat.testBit_xor, BitVec.getLsbD_xor]
    cases decide (j < w) <;> rfl

/-- Every lane that lies in the register is complemented. -/
theorem lane_not (v : VWord) (hn : w * n + w ≤ 512) : Claims.lane (~~~v) w n = 2 ^ w - 1 - Claims.lane v w n :=
  Nat.eq_of_testBit_eq fun j => by
    rw [Nat.sub_sub, Nat.add_comm 1, Nat.testBit_two_pow_sub_succ (lane_lt v w n), testBit_lane, testBit_lane,
      BitVec.getLsbD_not]
    by_cases hj : j < w
    · simp only [hj, show w * n + j < 512 by omega, decide_true, Bool.true_and]
    · simp only [hj, decide_false, Bool.false_and]

/-- A logic form leaves in flight, in its active 64-bit lanes, what the operation gives of whole registers. -/
theorem lanewise_of_logic (h : Performs s tid t) (hv : t.vres = []) {v : Thread → VWord} {g : Nat → Nat}
    (he : exec i s = performing s fun k u => s.logic k u i m d rs (v u) win)
    (hg : ∀ n, n < 8 → Claims.lane (v t) 64 n = g n) :
    Claims.Lanewise i s tid t d m 64 8 win fun n => (g n, 0#6) :=
  lanewise_of_elementwise (c := .simple) (op := fun u n => (laneOf (v u) 64 n, 0#6)) h hv rfl he fun n hn =>
    .of_eq (by rw [laneOf_eq_lane, hg n hn])

/-- What leaves the lane on the left is lost. -/
theorem laneSll_same : SameLane (fmtWidth f) (laneSll f x y) (if fmtWidth f ≤ y then 0 else x * 2 ^ y, 0#6) := by
  refine ⟨?_, rfl⟩
  unfold laneSll
  split
  · rfl
  · exact Nat.mod_mod _ _

theorem laneSra_eq (hf : f.intArithShift = true) (hx : x < 2 ^ fmtWidth f) : laneSra f x y =
    ((Claims.intOf f x / 2 ^ min (fmtWidth f) y % 2 ^ fmtWidth f).toNat, 0#6) := by
  have hs : fmtSigned f = true := fmtSigned_of_ne fun e => absurd (e ▸ hf) (by decide)
  rw [laneSra, min_comm, ← hs, laneInt_eq_intOf hx, intLane]

/-! ### Results that one register holds as a whole (R285, R290, R295) -/

theorem pends_of_performing (h : Performs s tid t) (hv : t.vres = []) {c : VClass} {dest : BitVec 4} {v : Thread → VWord}
    {fl : Thread → Flags} (he : exec i s = performing s fun k u => s.nextVec k u c dest (v u) (fl u) win) :
    Claims.Pends i s tid t dest (v t) (fl t) c.cycles win :=
  pends_of_nextVec h hv (by rw [he, performing_next h])

theorem pends_of_withVecs (h : Performs s tid t) (hv : t.vres = []) {reads : Thread → List (BitVec 4)} {c : VClass}
    {dest : BitVec 4} {v : Thread → VWord} {fl : Thread → Flags}
    (he : exec i s = performing s fun k u => s.withVecs k u (reads u) fun _ => s.nextVec k u c dest (v u) (fl u) win) :
    Claims.Pends i s tid t dest (v t) (fl t) c.cycles win :=
  pends_of_nextVec h hv (by rw [he, performing_next h, withVecs_idle hv])

/-- A mask register among the destinations of results, as claims number it. -/
theorem kdest_eq_add : ∀ k : KReg, kdest k = 8#4 + k.setWidth 4 := by decide

/-- A mask operation leaves its 128 bits in flight (R295). -/
theorem pends_of_maskOp (h : Performs s tid t) (hv : t.vres = []) {k : KReg} {ks : List KReg} {v : Thread → MaskWord}
    (he : exec i s = performing s fun j u => s.maskOp j u k ks (v u) win) :
    Claims.Pends i s tid t (8#4 + k.setWidth 4) ((v t).setWidth 512) 0#6 8 win := by
  rw [← kdest_eq_add]
  exact pends_of_withVecs (c := .simple) (v := fun u => (v u).setWidth 512) (fl := fun _ => 0#6) h hv he

/-! ### Comparison (R289) -/

/-- The condition of a comparison between integers. -/
def Cmp.Holds (c : Cmp) (x y : Int) : Prop := match c with
  | .eq => x = y
  | .lt => x < y
  | .le => x ≤ y

/-- On integer lanes a comparison decides its condition and raises nothing. -/
theorem laneCmp_of_int (c : Cmp) (hf : (fmtFloat f).isNone = true) (hx : x < 2 ^ fmtWidth f) (hy : y < 2 ^ fmtWidth f) :
    ((laneCmp c f x y).1 = true ↔ c.Holds (Claims.intOf f x) (Claims.intOf f y)) ∧ (laneCmp c f x y).2 = 0#6 := by
  unfold laneCmp
  rw [Option.isNone_iff_eq_none.mp hf, laneInt_eq_intOf hx, laneInt_eq_intOf hy]
  cases c <;> exact ⟨decide_eq_true_iff, rfl⟩

theorem foldl_flags_eq_zero {α : Type} {l : List (α × Flags)} (hl : ∀ r ∈ l, r.2 = 0#6) :
    l.foldl (fun a r => a ||| r.2) 0#6 = 0#6 := by
  induction l with
  | nil => rfl
  | cons r l ih =>
    rw [List.foldl_cons, hl r List.mem_cons_self]
    exact ih fun x hx => hl x (List.mem_cons_of_mem r hx)

theorem fmtLanes_le (f : Fmt) : fmtLanes f ≤ 128 := by cases f <;> decide

theorem illegal_of_vcmp (h : Performs s tid t) (hf : f.arith = false) {c : Cmp} {k : KReg}
    (he : exec i s = performing s fun j u => s.vcmp j u i c f m k a b win) : Claims.Illegal i s tid t :=
  illegal_of_format h hf he

/-- What a comparison gives in lane n: nothing in an inactive one. -/
def cmpLane (t : Thread) (c : Cmp) (f : Fmt) (m : Option KReg) (a b : VReg) (n : Nat) : Bool × Flags :=
  if activeLane (t.maskOf m) n then laneCmp c f (laneOf (t.vreg a) (fmtWidth f) n) (laneOf (t.vreg b) (fmtWidth f) n)
  else (false, 0#6)

/-- A comparison leaves in flight one bit for each lane, and its flags are those of the active lanes. -/
theorem pends_of_vcmp (h : Performs s tid t) (hv : t.vres = []) (hf : f.arith = true) {c : Cmp} {k : KReg}
    (he : exec i s = performing s fun j u => s.vcmp j u i c f m k a b win) :
    Claims.Pends i s tid t (8#4 + k.setWidth 4)
      ((fromBits ((List.range (fmtLanes f)).map fun n => (cmpLane t c f m a b n).1)).setWidth 512)
      (((List.range (fmtLanes f)).map (cmpLane t c f m a b)).foldl (fun x r => x ||| r.2) 0#6) 8 win := by
  have hrun := exec_of_format h hf he
  rw [withVecs_idle hv, kdest_eq_add] at hrun
  have hbits : (List.range (fmtLanes f)).map (fun n => (cmpLane t c f m a b n).1) =
      ((List.range (fmtLanes f)).map (cmpLane t c f m a b)).map (·.1) := (List.map_map ..).symm
  rw [hbits]
  exact pends_of_nextVec (c := .simple) h hv hrun

/-- The mask and the flags of a comparison: a bit is set for an active lane whose condition holds and for no other, and
integer lanes compare as their integers and raise nothing. -/
theorem vcmp_spec (h : Performs s tid t) (hv : t.vres = []) (hf : f.arith = true) {c : Cmp} {k : KReg}
    (he : exec i s = performing s fun j u => s.vcmp j u i c f m k a b win) :
    ∃ v g, Claims.Pends i s tid t (8#4 + k.setWidth 4) v g 8 win ∧
      (∀ n : Nat, v.getLsbD n = true ↔ n < fmtLanes f ∧ Claims.active t m n = true ∧
        (laneCmp c f (Claims.lane (t.vreg a) (fmtWidth f) n) (Claims.lane (t.vreg b) (fmtWidth f) n)).1 = true) ∧
      ((fmtFloat f).isNone = true → g = 0#6 ∧ ∀ n, n < fmtLanes f →
        ((laneCmp c f (Claims.lane (t.vreg a) (fmtWidth f) n) (Claims.lane (t.vreg b) (fmtWidth f) n)).1 = true ↔
          c.Holds (Claims.intOf f (Claims.lane (t.vreg a) (fmtWidth f) n)) (Claims.intOf f (Claims.lane (t.vreg b) (fmtWidth f) n)))) := by
  refine ⟨_, _, pends_of_vcmp h hv hf he, fun n => ?_, fun hi => ⟨foldl_flags_eq_zero fun r hr => ?_, fun n _ => ?_⟩⟩
  · have hk := fmtLanes_le f
    rw [BitVec.getLsbD_setWidth, getLsbD_fromBits_range _ hk, Bool.and_eq_true, Bool.and_eq_true, decide_eq_true_iff,
      decide_eq_true_iff, and_iff_right_of_imp fun hn => by omega, cmpLane, activeLane_maskOf, laneOf_eq_lane, laneOf_eq_lane]
    cases Claims.active t m n <;> simp
  · obtain ⟨n, -, rfl⟩ := List.mem_map.mp hr
    unfold cmpLane
    split
    · rw [laneOf_eq_lane, laneOf_eq_lane]
      exact (laneCmp_of_int c hi (lane_lt ..) (lane_lt ..)).2
    · rfl
  · exact (laneCmp_of_int c hi (lane_lt ..) (lane_lt ..)).1

/-! ### Moves, selection (R285, R290) -/

theorem mul_fmtLanes_le (f : Fmt) : fmtWidth f * fmtLanes f ≤ 512 := Nat.mul_div_le 512 (fmtWidth f)

/-- Every lane of a broadcast holds the low bits of the scalar. -/
theorem lane_broadcast (f : Fmt) (x : Nat) (hn : n < fmtLanes f) :
    Claims.lane (fromLanes (fmtWidth f) (List.replicate (fmtLanes f) x)) (fmtWidth f) n = x % 2 ^ fmtWidth f := by
  rw [lane_fromLanes (by simpa using mul_fmtLanes_le f) (by simpa using hn), List.getElem_replicate]

/-- Lane by lane, a selection takes the first source where the mask is 1 and the second elsewhere. -/
theorem lane_select (f : Fmt) (p : Nat → Bool) (u v : VWord) (hn : n < fmtLanes f) :
    Claims.lane (fromLanes (fmtWidth f) ((List.range (fmtLanes f)).map fun n => laneOf (if p n then u else v) (fmtWidth f) n))
      (fmtWidth f) n = if p n then Claims.lane u (fmtWidth f) n else Claims.lane v (fmtWidth f) n := by
  rw [lane_fromLanes_range _ (mul_fmtLanes_le f) hn, laneOf_eq_lane, Nat.mod_eq_of_lt (lane_lt ..)]
  split <;> rfl

theorem vmvx_spec (h : Performs s tid t) (hv : t.vres = []) (d : VReg) (x : Reg) (lane : BitVec 3) (win : BitVec 2) :
    ∃ v, Claims.Pends (.vmvx d x lane win) s tid t (d.setWidth 4) v 0#6 8 win ∧ ∀ n, n < 8 →
      Claims.lane v 64 n = if n = lane.toNat then (t.reg x).toNat else Claims.lane (t.vreg d) 64 n := by
  refine ⟨_, pends_of_withVecs (c := .simple) (v := fun u => setLane (u.vreg d) 64 lane.toNat (u.reg x).toNat)
    (fl := fun _ => 0#6) h hv rfl, fun n hn => ?_⟩
  rw [lane_setLane (by omega), Nat.mod_eq_of_lt (t.reg x).isLt]

theorem vmxv_yields (h : Performs s tid t) (hv : t.vres = []) (x : Reg) (a : VReg) (lane : BitVec 3) (win : BitVec 2) :
    Yields (.vmxv x a lane win) s tid t x (BitVec.ofNat 64 (Claims.lane (t.vreg a) 64 lane.toNat)) false := by
  have hexec : exec (.vmxv x a lane win) s = performing s fun k u =>
    s.withVecs k u [vdest a] fun _ => s.writeReg k u x (BitVec.ofNat 64 (laneOf (u.vreg a) 64 lane.toNat)) false := rfl
  rw [performing_next h, withVecs_idle hv, laneOf_eq_lane, State.writeReg, State.next, Thread.setReg_pc] at hexec
  exact yields_of_finish_setReg h hexec

theorem vbc_spec (h : Performs s tid t) (hv : t.vres = []) (f : Fmt) (d : VReg) (x : Reg) (win : BitVec 2) :
    ∃ v, Claims.Pends (.vbc f d x win) s tid t (d.setWidth 4) v 0#6 8 win ∧
      ∀ n, n < fmtLanes f → Claims.lane v (fmtWidth f) n = (t.reg x).toNat % 2 ^ fmtWidth f :=
  ⟨_, pends_of_performing (c := .simple) (v := fun u => fromLanes (fmtWidth f) (List.replicate (fmtLanes f) (u.reg x).toNat))
    (fl := fun _ => 0#6) h hv rfl, fun _ hn => lane_broadcast f _ hn⟩

/-- A selection reads both sources and its mask on a format that it accepts. -/
theorem exec_vsel (f : Fmt) (k : KReg) (d a b : VReg) (win : BitVec 2) (s : State) :
    exec (.vsel f k d a b win) s = performing s fun j u =>
      if f.arith then
        s.withVecs j u [vdest a, vdest b, kdest k] fun _ =>
          s.nextVec j u .simple (vdest d) (fromLanes (fmtWidth f) ((List.range (fmtLanes f)).map fun n =>
            laneOf (if (u.kreg k).getLsbD n then u.vreg a else u.vreg b) (fmtWidth f) n)) 0#6 win
      else s.illegal j u (.vsel f k d a b win) := rfl

theorem vsel_spec (h : Performs s tid t) (hv : t.vres = []) (hf : f.arith = true) (k : KReg) (d a b : VReg) (win : BitVec 2) :
    ∃ v, Claims.Pends (.vsel f k d a b win) s tid t (d.setWidth 4) v 0#6 8 win ∧ ∀ n, n < fmtLanes f →
      Claims.lane v (fmtWidth f) n =
        if (t.kreg k).getLsbD n then Claims.lane (t.vreg a) (fmtWidth f) n else Claims.lane (t.vreg b) (fmtWidth f) n := by
  have hrun := exec_of_format h hf (exec_vsel f k d a b win s)
  rw [withVecs_idle hv] at hrun
  exact ⟨_, pends_of_nextVec (c := .simple) h hv hrun, fun n hn => lane_select f (t.kreg k).getLsbD _ _ hn⟩

end Forms

/-! ### The obligation -/

theorem vectorLogicAndShifts : Claims.VectorLogicAndShifts := by
  intro s tid t h hv f m d a b win w x y
  refine ⟨?_, ?_, ?_, ?_, fun hf => ⟨?_, ?_⟩, fun hf => ?_, fun hf => ⟨?_, ?_⟩, fun hf => ?_⟩
  · exact lanewise_of_logic (v := fun u => u.vreg a &&& u.vreg b) h hv rfl fun n _ => lane_and _ _ 64 n
  · exact lanewise_of_logic (v := fun u => u.vreg a ||| u.vreg b) h hv rfl fun n _ => lane_or _ _ 64 n
  · exact lanewise_of_logic (v := fun u => u.vreg a ^^^ u.vreg b) h hv rfl fun n _ => lane_xor _ _ 64 n
  · exact lanewise_of_logic (v := fun u => ~~~(u.vreg a)) h hv rfl fun n hn => lane_not _ (by omega)
  · exact lanewise_of_elem2 (op := fun _ => laneSll) h hv hf rfl fun n => laneSll_same
  · exact lanewise_of_elem2 (op := fun _ => laneSrl) h hv hf rfl fun n => .of_eq rfl
  · exact lanewise_of_elem2 (op := fun _ => laneSra) h hv hf rfl fun n => .of_eq (laneSra_eq hf (lane_lt ..))
  · exact illegal_of_elementwise h hf rfl
  · exact illegal_of_elementwise h hf rfl
  · exact illegal_of_elementwise h hf rfl

theorem vectorMovesAndMasks : Claims.VectorMovesAndMasks := by
  intro s tid t h hv f m d a b kd ka kb x lane win w av bv
  refine ⟨vmvx_spec h hv d x lane win, vmxv_yields h hv x a lane win, vbc_spec h hv f d x win,
    fun hf => ⟨fun i c hi => ?_, vsel_spec h hv hf ka d a b win, ?_⟩, fun hf i hi => ?_, ?_, ?_, ?_, ?_⟩
  · simp only [List.mem_cons, List.not_mem_nil, or_false, Prod.mk.injEq] at hi
    rcases hi with ⟨rfl, rfl⟩ | ⟨rfl, rfl⟩ | ⟨rfl, rfl⟩ <;> exact vcmp_spec h hv hf rfl
  · exact lanewise_of_elem2 (op := fun u g _ i => (laneOf (u.vreg a) (fmtWidth g) (i % fmtLanes g), 0#6)) h hv hf rfl
      fun n => .of_eq (by rw [laneOf_eq_lane])
  · simp only [List.mem_cons, List.not_mem_nil, or_false] at hi
    rcases hi with rfl | rfl | rfl | rfl | rfl
    · exact illegal_of_vcmp h hf rfl
    · exact illegal_of_vcmp h hf rfl
    · exact illegal_of_vcmp h hf rfl
    · exact illegal_of_format h hf (exec_vsel f ka d a b win s)
    · exact illegal_of_elementwise h hf rfl
  · exact pends_of_maskOp (v := fun u => u.kreg ka &&& u.kreg kb) h hv rfl
  · exact pends_of_maskOp (v := fun u => u.kreg ka ||| u.kreg kb) h hv rfl
  · exact pends_of_maskOp (v := fun u => ~~~(u.kreg ka)) h hv rfl
  · exact pends_of_maskOp (v := fun u => u.kreg ka) h hv rfl

/-- Settles O26: logic, shifts and permutation are element-wise forms; the moves, the selection, the comparisons and the
mask operations leave one whole register in flight, which is then read lane by lane. -/
theorem vectorLogicMovesAndMasks : Obligations.VectorLogicMovesAndMasks := by
  unfold Obligations.VectorLogicMovesAndMasks
  exact ⟨vectorLogicAndShifts, vectorMovesAndMasks⟩

end Sys2Proof.Machine
end

section
/-! Proofs about buffer handles and `xtake` (R344, R345, R350 to R354): the entries of a core's handle table, the traps that the
handle instructions share, and what a change of state does in a core where no thread waits. -/

namespace Sys2Proof.Machine

/-! ### The handle table (R344) -/

/-- The handle that a number below 64 names. -/
theorem handle_eq_getElem (k : Core) (i : Fin 64) : k.handle i = k.handles[i] := by
  simp [Core.handle]

/-- A write at a number within the bounds is one of the total form. -/
theorem setIfInBounds_eq_set {α : Type} {n : Nat} (v : Vector α n) (i : Fin n) (x : α) : v.setIfInBounds i x = v.set i x :=
  Vector.ext fun j hj => by simp only [Vector.getElem_setIfInBounds, Vector.getElem_set]

/-- Replacing a handle changes the table at its number only. -/
theorem setHandle_eq_set (k : Core) (i : Fin 64) (e : Handle) : k.setHandle i e = { k with handles := k.handles.set i e } := by
  rw [Core.setHandle, setIfInBounds_eq_set]

/-- The word that `hstat` reads is the one of claims. -/
theorem word_eq_handleWord (e : Handle) : e.word = Claims.handleWord e := by
  obtain ⟨bound, st, len, base, group⟩ := e
  cases st <;> rfl

/-- A bound handle's region meets another when each begins before the other ends. -/
theorem meets_iff (e : Handle) (b n : Nat) :
    e.meets b n = true ↔ e.bound = true ∧ e.base.toNat < b + n ∧ b < e.base.toNat + e.len.toNat := by
  simp [Handle.meets, rangesMeet]

/-- The lowest unbound handle is the one that `hbind` finds (R350). -/
theorem findIdx_unbound (v : Vector Handle 64) {i : Fin 64} (hi : v[i].bound = false)
    (hlow : ∀ j : Fin 64, j < i → v[j].bound = true) : v.toList.findIdx? (fun e => !e.bound) = some i.val := by
  rw [List.findIdx?_eq_some_iff_getElem]
  refine ⟨by simp, by simpa using hi, fun j hj => ?_⟩
  simpa using hlow ⟨j, hj.trans i.isLt⟩ hj

/-- With every handle bound, `hbind` finds none (R350). -/
theorem findIdx_bound {v : Vector Handle 64} (hv : ∀ e ∈ v.toList, e.bound = true) :
    v.toList.findIdx? (fun e => !e.bound) = none := by
  rw [List.findIdx?_eq_none_iff]
  intro e he
  rw [hv e he, Bool.not_true]

/-! ### The mailbox q2 (R333, R354) -/

/-- The scan for the least order ends at an entry that precedes every other, wherever it stands. -/
theorem foldl_least {α : Type} {x : Nat × α} (l : List (Nat × α)) (m : Nat × α) (hx : x ∈ m :: l)
    (hleast : ∀ y ∈ m :: l, y = x ∨ x.1 < y.1) : l.foldl (fun (m : Nat × α) y => if y.1 < m.1 then y else m) m = x := by
  induction l generalizing m with
  | nil => exact (List.mem_singleton.mp hx).symm
  | cons y l ih =>
    rw [List.foldl_cons]
    refine ih _ ?mem ?least
    case mem => split <;> grind
    case least => split <;> grind

/-- An entry that precedes every other of the list is its oldest. -/
theorem oldest_of_least {α : Type} {l : List (Nat × α)} {x : Nat × α} (hx : x ∈ l) (hleast : ∀ y ∈ l, y = x ∨ x.1 < y.1) :
    oldest l = some x.2 := by
  cases l with
  | nil => exact absurd hx List.not_mem_nil
  | cons m l => rw [oldest, foldl_least l m hx hleast]

theorem q2Oldest_empty {k : Core} (hk : k.q2 = Vector.replicate 4 none) : k.q2Oldest = none := by
  rw [Core.q2Oldest, hk]
  rfl

/-- The entries among which `xtake` looks are the full ones of q2, each with its order and number. -/
theorem mem_q2_full_iff (k : Core) (y : Nat × Nat × Mail) :
    (y ∈ (k.q2.toList.zipIdx).filterMap fun x => x.1.map fun m => (m.order, (x.2, m))) ↔
      ∃ (j : Fin 4) (z : Mail), k.q2[j] = some z ∧ y = (z.order, (j.val, z)) := by
  simp only [List.mem_filterMap, Prod.exists, Option.map_eq_some_iff, List.mk_mem_zipIdx_iff_getElem?]
  constructor
  · rintro ⟨_, n, hn, z, rfl, rfl⟩
    obtain ⟨hlt, hz⟩ := List.getElem?_eq_some_iff.mp hn
    exact ⟨⟨n, by simpa using hlt⟩, z, by simpa using hz, rfl⟩
  · rintro ⟨j, z, hz, rfl⟩
    exact ⟨some z, j, List.getElem?_eq_some_iff.mpr ⟨by simp, by simpa using hz⟩, z, rfl, rfl⟩

/-- The entry that was pushed before every other full one is the oldest. -/
theorem q2Oldest_of_least {k : Core} {i : Fin 4} {m : Mail} (hm : k.q2[i] = some m)
    (hleast : ∀ (j : Fin 4) y, j ≠ i → k.q2[j] = some y → m.order < y.order) : k.q2Oldest = some (i.val, m) := by
  refine oldest_of_least (x := (m.order, (i.val, m))) ((mem_q2_full_iff k _).mpr ⟨i, m, hm, rfl⟩) fun y hy => ?_
  obtain ⟨j, z, hz, rfl⟩ := (mem_q2_full_iff k y).mp hy
  by_cases hj : j = i
  · subst hj
    exact .inl (by rw [Option.some.inj (hm.symm.trans hz)])
  · exact .inr (hleast j z hj hz)

/-- A vector register written by a queue instruction holds its value, and no other register changes. -/
theorem memV_wrote (t : Thread) (d : VReg) (v : VWord) : Claims.WroteV t (t.memV d v) d v := by
  have hd : (vdest d).toNat = d.toNat := BitVec.toNat_setWidth_of_le (by decide)
  have hput : t.putV (vdest d) v = { t with v := t.v.setIfInBounds d.toNat v } := by
    rw [Thread.putV, hd, if_pos d.isLt]
  unfold Thread.memV
  rw [hput]
  refine ⟨?_, fun r hr => ?_, rfl, rfl, rfl, rfl⟩
  · simp [Thread.vreg, Vector.get_eq_getElem]
  · have hne : d.toNat ≠ r.toNat := fun e => hr (BitVec.eq_of_toNat_eq e.symm)
    simp [Thread.vreg, Vector.get_eq_getElem, hne]

section Instructions

variable {i : Instr} {s : State} {tid : BitVec 16} {t : Thread}

/-! ### Retirement and waiting -/

theorem ThreadOnly.core {u : State} {n : Nat} (h : ThreadOnly s u n t) (c : Nat) : u.core c = s.core c := by
  rw [h.rest]; rfl

theorem ThreadOnly.mem {u : State} {n : Nat} (h : ThreadOnly s u n t) : u.mem = s.mem := h.quiet.mem

/-- An instruction that only retires goes on at the next word. -/
theorem goesTo_of_next (h : Performs s tid t) (he : exec i s = .next (s.next tid.toNat t)) :
    GoesTo i s tid t (t.pc + 4#64) :=
  completes_of_finish h (u := t) rfl he

/-- An instruction that writes one register and goes on yields what it writes. -/
theorem yields_of_exec_writeReg (h : Performs s tid t) {d : Reg} {v : Word} {b : Bool}
    (he : exec i s = .next (s.writeReg tid.toNat t d v b)) : Yields i s tid t d v b := by
  rw [State.writeReg, State.next, Thread.setReg_pc] at he
  exact yields_of_finish_setReg h he

/-- Retirement to the next word leaves the scalar registers as they are. -/
theorem next_spec (hs : assocSorted s.threads = true) (n : Nat) (t : Thread) :
    ∃ q, (s.next n t).thread? n = some q ∧ ThreadOnly s (s.next n t) n t ∧ q.pc = t.pc + 4#64 ∧ q.x = t.x := by
  obtain ⟨q, hq, honly, hret, hx, -, -⟩ := finish_scalar hs n (u := t) rfl (t.pc + 4#64) false 8
  exact ⟨q, hq, honly, by rw [hret], hx⟩

/-- A thread outside a gang that retires to the next word is replaced, and nothing else changes. -/
theorem next_of_gang_none (s : State) (n : Nat) (hg : t.gang = none) :
    s.next n t = s.setThread n (t.retired s.time (t.pc + 4#64) 8) := by
  rw [State.next, State.finish, hg]

/-- A wait that no latched count precedes begins at the instruction, with the limit it is given, and changes no core. -/
theorem await_spec (s : State) (n : Nat) (hl : t.latchCnt = none) (what : WaitFor) (limit : Option Nat) (eval : Word) :
    ∃ q w, (s.await n t what limit eval).thread? n = some q ∧ q.pc = t.pc ∧ q.wait = some w ∧ w.what = what ∧
      w.limit = limit ∧ ∀ c, (s.await n t what limit eval).core c = s.core c := by
  refine ⟨_, _, thread_setThread_same s n _, rfl, rfl, rfl, ?_, fun _ => rfl⟩
  rw [hl]

/-! ### What the handle instructions share (R350 to R353) -/

/-- A number above 63 raises HSTATE. -/
theorem traps_of_withHandle (h : Performs s tid t) {a : Reg} (ha : 64 ≤ (t.reg a).toNat) {F : Nat → Thread → Nat → Handle → State}
    (he : exec i s = performing s fun n u => s.withHandle n u a (F n u)) : Traps i s tid t 0x13#8 (t.reg a) := by
  rw [performing_next h, State.withHandle, if_pos (show 63 < (t.reg a).toNat by omega), cHSTATE] at he
  exact traps_of_trap h he

/-- A number that names a handle gives its entry. -/
theorem exec_of_withHandle (h : Performs s tid t) {a : Reg} {n : Fin 64} (ha : (t.reg a).toNat = n)
    {F : Nat → Thread → Nat → Handle → State} (he : exec i s = performing s fun n u => s.withHandle n u a (F n u)) :
    exec i s = .next (F tid.toNat t n ((s.core (tid.toNat / 16)).handles[n])) := by
  rw [he, performing_next h, State.withHandle, if_neg (show ¬ 63 < (t.reg a).toNat by omega), ha, handle_eq_getElem, tidCore]

/-- A thread with nothing outstanding has nothing to wait for at a release (R347). -/
theorem quietWait_of_settled (hs : Claims.Settled s tid t) (f : Unit → State) : s.quietWait tid.toNat t f = f () := by
  have hcombining : s.combiningOut tid.toNat = false := by
    simp only [State.combiningOut, hs.packets, List.any_nil, Bool.or_false, List.any_eq_false, beq_iff_eq, tidCore]
    exact fun e he hne => hs.combining e he (BitVec.eq_of_toNat_eq hne)
  simp [State.quietWait, hs.packets, hcombining]

/-! ### Changes of a handle's state where no thread waits (R345, R351) -/

/-- No thread of the state waits. -/
def NoneWaits (s : State) : Prop := ∀ n p, s.thread? n = some p → p.wait = none

/-- A thread that retires waits for nothing. -/
theorem noneWaits_next (hw : NoneWaits s) (n : Nat) (hg : t.gang = none) : NoneWaits (s.next n t) := by
  intro j p hp
  rw [next_of_gang_none s n hg] at hp
  by_cases hj : j = n
  · subst hj
    rw [thread_setThread_same, Option.some.injEq] at hp
    rw [← hp]
    rfl
  · rw [thread_setThread_other s hj] at hp
    exact hw j p hp

theorem hwaiters_nil (hs : assocSorted s.threads = true) (hw : NoneWaits s) (c n : Nat) (st : HState) :
    s.hwaiters c n st = [] := by
  rw [State.hwaiters, List.filterMap_eq_nil_iff]
  intro x hx
  rw [hw x.1 x.2 (assocGet_of_mem hs (List.mem_filter.mp hx).1)]

/-- A change of a handle's state serves nobody, and changes the handle only. -/
theorem setHState_of_noneWaits (hs : assocSorted s.threads = true) (hw : NoneWaits s) (c n : Nat) (st : HState) :
    s.setHState c n st = s.modCore c fun k => k.setHandle n { k.handle n with st := st } := by
  have hnil : (s.modCore c fun k => k.setHandle n { k.handle n with st := st }).hwaiters c n st = [] :=
    hwaiters_nil (s := s.modCore c fun k => k.setHandle n { k.handle n with st := st }) hs hw c n st
  simp only [State.setHState, hnil, List.foldl_nil]

theorem settleWithheld_of_noneWaits (hw : NoneWaits s) : s.settleWithheld = s := by
  unfold State.settleWithheld
  generalize s.threads = l
  induction l with
  | nil => rfl
  | cons x l ih =>
    rw [List.foldl_cons]
    cases hx : s.thread? x.1 with
    | none => exact ih
    | some p =>
      simp only [hw x.1 p hx]
      cases p.run <;> exact ih

/-- In a core without copies a FULL handle drains at once: it is FREE, every other handle and the rest of the core stay,
and so do threads and memory. -/
theorem drainHandle_of_noneWaits (hs : assocSorted s.threads = true) (hw : NoneWaits s) {c : Nat} {n : Fin 64}
    (hc : (s.core c).copies = []) :
    (s.drainHandle c n).threads = s.threads ∧ (s.drainHandle c n).mem = s.mem ∧
      (s.drainHandle c n).core c = { s.core c with
        handles := (s.core c).handles.set n { (s.core c).handles[n] with st := .free } } := by
  have hfirst := setHState_of_noneWaits hs hw c n .draining
  generalize hu : s.modCore c (fun k => k.setHandle n { k.handle n with st := .draining }) = u at hfirst
  have huThreads : u.threads = s.threads := by rw [← hu]; rfl
  have huMem : u.mem = s.mem := by rw [← hu]; rfl
  have huCore : u.core c = { s.core c with
      handles := (s.core c).handles.set n { (s.core c).handles[n] with st := .draining } } := by
    rw [← hu, core_modCore_same, setHandle_eq_set, handle_eq_getElem]
  have huWaits : NoneWaits u := by rw [← hu]; exact hw
  have hcopies : (u.core c).draining n = false := by rw [huCore, Core.draining, hc]; rfl
  have hdrain : s.drainHandle c n = u.modCore c fun k => k.setHandle n { k.handle n with st := .free } := by
    simp only [State.drainHandle, hfirst, hcopies, Bool.false_eq_true, if_false]
    exact setHState_of_noneWaits (huThreads ▸ hs) huWaits c n .free
  rw [hdrain]
  refine ⟨huThreads, huMem, ?_⟩
  rw [core_modCore_same, setHandle_eq_set, handle_eq_getElem, huCore]
  simp

end Instructions

/-! ### The forms -/

theorem exec_hwait (a : Reg) (st : HState) (s : State) : exec (.hwait a st) s = performing s fun k u =>
    s.withHandle k u a fun n e =>
      if !e.bound then s.trap k u cHSTATE (u.reg a)
      else if e.st = st then s.next k u
      else s.awaitOrHalt k u (.handle (BitVec.ofNat 6 n) st) (some u.defaultLimit) (u.reg a) := rfl

theorem exec_hdrain (a : Reg) (s : State) : exec (.hdrain a) s = performing s fun k u =>
    s.withHandle k u a fun n e =>
      if e.bound && e.st == .full then s.quietWait k u fun _ => ((s.next k u).drainHandle (k / 16) n).settleWithheld
      else s.trap k u cHSTATE (u.reg a) := rfl

theorem exec_hfree (a : Reg) (s : State) : exec (.hfree a) s = performing s fun k u =>
    s.withHandle k u a fun n e =>
      if !e.bound then s.next k u
      else if e.st = .free then (s.modCore (k / 16) fun c => c.setHandle n Handle.reset).next k u
      else s.trap k u cHSTATE (u.reg a) := rfl

theorem exec_hstat (d a : Reg) (s : State) : exec (.hstat d a) s = performing s fun k u =>
    s.withHandle k u a fun _ e => s.writeReg k u d e.word false := rfl

/-- `i` retires, writes no register and no memory, and leaves handle `n` of the thread's core as `e`. -/
def Rebinds (i : Instr) (s : State) (tid : BitVec 16) (t : Thread) (n : Fin 64) (e : Handle) : Prop :=
  ∃ u q, exec i s = .next u ∧ u.thread? tid.toNat = some q ∧ q.pc = t.pc + 4#64 ∧ q.x = t.x ∧
    u.core (tid.toNat / 16) = { s.core (tid.toNat / 16) with handles := (s.core (tid.toNat / 16)).handles.set n e } ∧
    u.mem = s.mem

section Forms

variable {s : State} {tid : BitVec 16} {t : Thread} {a : Reg} {n : Fin 64}

theorem hstat_yields (h : Performs s tid t) (ha : (t.reg a).toNat = n) (d : Reg) :
    Yields (.hstat d a) s tid t d (Claims.handleWord (s.core (tid.toNat / 16)).handles[n]) false := by
  have he := exec_of_withHandle h ha (exec_hstat d a s)
  rw [word_eq_handleWord] at he
  exact yields_of_exec_writeReg h he

theorem hwait_goesTo (h : Performs s tid t) (ha : (t.reg a).toNat = n)
    (hb : (s.core (tid.toNat / 16)).handles[n].bound = true) {st : HState}
    (hst : (s.core (tid.toNat / 16)).handles[n].st = st) : GoesTo (.hwait a st) s tid t (t.pc + 4#64) := by
  have he := exec_of_withHandle h ha (exec_hwait a st s)
  simp only [hb, Bool.not_true, Bool.false_eq_true, hst, if_false, if_true] at he
  exact goesTo_of_next h he

/-- While the core's transfer slot is vacant no handle is withheld (R348). -/
theorem handle_not_withheld {k : Nat} (hx : s.thread? (tidCore k * 16 + 15) = none) (g : BitVec 6) (st : HState) :
    s.withheldFor k (.handle g st) = none := by
  simp [State.withheldFor, State.transferHalted, hx]

theorem hwait_waits (h : Performs s tid t) (hl : t.latchCnt = none) (ha : (t.reg a).toNat = n)
    (hb : (s.core (tid.toNat / 16)).handles[n].bound = true) {st : HState}
    (hst : (s.core (tid.toNat / 16)).handles[n].st ≠ st) (hx : s.thread? (tid.toNat / 16 * 16 + 15) = none) :
    ∃ u q w, exec (.hwait a st) s = .next u ∧ u.thread? tid.toNat = some q ∧ q.pc = t.pc ∧ q.wait = some w ∧
      w.what = .handle (BitVec.ofNat 6 n) st ∧ w.limit = some (t.synclim.setWidth 32).toNat ∧
      u.core (tid.toNat / 16) = s.core (tid.toNat / 16) := by
  have he := exec_of_withHandle h ha (exec_hwait a st s)
  simp only [hb, Bool.not_true, Bool.false_eq_true, hst, if_false, State.awaitOrHalt,
    handle_not_withheld hx] at he
  obtain ⟨q, w, hq, hpc, hw, hwhat, hlimit, hcore⟩ := await_spec s tid.toNat hl (.handle (BitVec.ofNat 6 n) st)
    (some t.defaultLimit) (t.reg a)
  refine ⟨_, q, w, he, hq, hpc, hw, hwhat, hlimit.trans ?_, hcore _⟩
  rw [Thread.defaultLimit, BitVec.setWidth_eq_extractLsb' (by decide)]

theorem hdrain_rebinds (h : Performs s tid t) (hset : Claims.Settled s tid t) (hg : t.gang = none) (ha : (t.reg a).toNat = n)
    (hb : (s.core (tid.toNat / 16)).handles[n].bound = true) (hst : (s.core (tid.toNat / 16)).handles[n].st = .full)
    (hc : (s.core (tid.toNat / 16)).copies = []) (hw : NoneWaits s) :
    Rebinds (.hdrain a) s tid t n { (s.core (tid.toNat / 16)).handles[n] with st := .free } := by
  have he := exec_of_withHandle h ha (exec_hdrain a s)
  obtain ⟨q, hq, honly, hpc, hx⟩ := next_spec h.inv.threads tid.toNat t
  obtain ⟨hthreads, hmem, hcore⟩ := drainHandle_of_noneWaits (s := s.next tid.toNat t) (n := n) (c := tid.toNat / 16)
    (by rw [next_of_gang_none s _ hg]; exact setThread_sorted h.inv.threads ..) (noneWaits_next hw tid.toNat hg)
    (by rw [honly.core, hc])
  have hsettled : NoneWaits ((s.next tid.toNat t).drainHandle (tid.toNat / 16) n) := fun j p hp =>
    noneWaits_next hw tid.toNat hg j p (by rwa [State.thread?, hthreads] at hp)
  simp only [hb, hst, Bool.and_true, beq_self_eq_true, if_true, quietWait_of_settled hset,
    settleWithheld_of_noneWaits hsettled] at he
  refine ⟨_, q, he, ?_, hpc, hx, ?_, hmem.trans honly.mem⟩
  · rw [State.thread?, hthreads]; exact hq
  · rw [hcore, honly.core]

theorem hfree_rebinds (h : Performs s tid t) (ha : (t.reg a).toNat = n)
    (hb : (s.core (tid.toNat / 16)).handles[n].bound = true) (hst : (s.core (tid.toNat / 16)).handles[n].st = .free) :
    Rebinds (.hfree a) s tid t n { bound := false, st := .free, len := 0, base := 0, group := 0 } := by
  have he := exec_of_withHandle h ha (exec_hfree a s)
  simp only [hb, hst, Bool.not_true, Bool.false_eq_true, if_false, if_true] at he
  obtain ⟨q, hq, honly, hpc, hx⟩ := next_spec (s := s.modCore (tid.toNat / 16) fun k => k.setHandle n Handle.reset)
    h.inv.threads tid.toNat t
  refine ⟨_, q, he, hq, hpc, hx, ?_, honly.mem⟩
  rw [honly.core, core_modCore_same, setHandle_eq_set, Handle.reset]

/-- `hwait` and `hdrain` of an unbound handle raise HSTATE; `hfree` of one changes nothing (R351, R352). -/
theorem unbound_handle (h : Performs s tid t) (ha : (t.reg a).toNat = n)
    (hb : (s.core (tid.toNat / 16)).handles[n].bound = false) (st : HState) :
    Traps (.hwait a st) s tid t 0x13#8 (t.reg a) ∧ Traps (.hdrain a) s tid t 0x13#8 (t.reg a) ∧
      GoesTo (.hfree a) s tid t (t.pc + 4#64) := by
  have hwait := exec_of_withHandle h ha (exec_hwait a st s)
  have hdrain := exec_of_withHandle h ha (exec_hdrain a s)
  have hfree := exec_of_withHandle h ha (exec_hfree a s)
  simp only [hb, Bool.not_false, Bool.false_and, Bool.false_eq_true, if_true, if_false] at hwait hdrain hfree
  exact ⟨traps_of_trap h hwait, traps_of_trap h hdrain, goesTo_of_next h hfree⟩

theorem hdrain_traps (h : Performs s tid t) (ha : (t.reg a).toNat = n)
    (hst : (s.core (tid.toNat / 16)).handles[n].st ≠ .full) : Traps (.hdrain a) s tid t 0x13#8 (t.reg a) := by
  have he := exec_of_withHandle h ha (exec_hdrain a s)
  simp only [beq_false_of_ne hst, Bool.and_false, Bool.false_eq_true, if_false] at he
  exact traps_of_trap h he

theorem hfree_traps (h : Performs s tid t) (ha : (t.reg a).toNat = n)
    (hb : (s.core (tid.toNat / 16)).handles[n].bound = true) (hst : (s.core (tid.toNat / 16)).handles[n].st ≠ .free) :
    Traps (.hfree a) s tid t 0x13#8 (t.reg a) := by
  have he := exec_of_withHandle h ha (exec_hfree a s)
  simp only [hb, Bool.not_true, Bool.false_eq_true, hst, if_false] at he
  exact traps_of_trap h he

/-- Every handle instruction on a number above 63 raises HSTATE. -/
theorem number_above_63_traps (h : Performs s tid t) (ha : 64 ≤ (t.reg a).toNat) (d : Reg) (st : HState) :
    Traps (.hwait a st) s tid t 0x13#8 (t.reg a) ∧ Traps (.hdrain a) s tid t 0x13#8 (t.reg a) ∧
      Traps (.hfree a) s tid t 0x13#8 (t.reg a) ∧ Traps (.hstat d a) s tid t 0x13#8 (t.reg a) :=
  ⟨traps_of_withHandle h ha (exec_hwait a st s), traps_of_withHandle h ha (exec_hdrain a s),
    traps_of_withHandle h ha (exec_hfree a s), traps_of_withHandle h ha (exec_hstat d a s)⟩

/-! ### `hbind` (R350) -/

/-- The region that `hbind` is given lies in the scratchpad, is not empty, and begins and ends at granules. -/
def RegionLegal (x n : Word) : Prop := x.toNat % 16 = 0 ∧ n.toNat % 16 = 0 ∧ n ≠ 0#64 ∧ x.toNat + n.toNat ≤ 0x80000

/-- A region meets that of a bound handle. -/
def RegionMeets (k : Core) (x n : Word) : Prop := ∃ e ∈ k.handles.toList, e.bound = true ∧
  e.base.toNat < x.toNat + n.toNat ∧ x.toNat < e.base.toNat + e.len.toNat

/-- The handle that `hbind` binds. -/
def boundHandle (x n : Word) (g : Nat) : Handle :=
  { bound := true, st := .free, len := BitVec.ofNat 20 n.toNat, base := BitVec.ofNat 19 x.toNat, group := g }

/-- A legal region's base and length fit the fields of its handle. -/
theorem boundHandle_region {x n : Word} (hl : RegionLegal x n) (g : Nat) :
    (boundHandle x n g).base.toNat = x.toNat ∧ (boundHandle x n g).len.toNat = n.toNat := by
  obtain ⟨-, -, hn, hend⟩ := hl
  have hpos : 0 < n.toNat := Nat.pos_of_ne_zero fun e => hn (BitVec.eq_of_toNat_eq e)
  simp only [boundHandle, BitVec.toNat_ofNat]
  omega

/-- The model's test of a region fails on the legal ones only. -/
theorem region_test_iff (x n : Word) : (!aligned x 16 || !aligned n 16 || n == 0#64 ||
    decide (spadSize < x.toNat + n.toNat)) = true ↔ ¬ RegionLegal x n := by
  simp only [RegionLegal, aligned, Bool.or_eq_true, Bool.not_eq_true', decide_eq_false_iff_not, beq_iff_eq,
    decide_eq_true_eq, show spadSize = 0x80000 from rfl]
  rw [← Nat.not_le]
  tauto

theorem any_meets_iff (k : Core) (x n : Word) :
    (k.handles.toList.any fun e => e.meets x.toNat n.toNat) = true ↔ RegionMeets k x n := by
  simp only [List.any_eq_true, meets_iff, RegionMeets]

theorem exec_hbind (d a b : Reg) (s : State) : exec (.hbind d a b) s = performing s fun j u =>
    if !aligned (u.reg a) 16 || !aligned (u.reg b) 16 || u.reg b == 0#64 ||
        decide (spadSize < (u.reg a).toNat + (u.reg b).toNat) then s.trap j u cACCESSFAULT (u.reg a)
    else if (s.core (j / 16)).handles.toList.any fun e => e.meets (u.reg a).toNat (u.reg b).toNat then
      s.writeReg j u d 0xFFFFFFFFFFFFFFFE#64 false
    else match (s.core (j / 16)).handles.toList.findIdx? (fun e => !e.bound) with
      | none => s.writeReg j u d 0xFFFFFFFFFFFFFFFF#64 false
      | some i => (s.setCore (j / 16) ((s.core (j / 16)).setHandle i
          (boundHandle (u.reg a) (u.reg b) u.group))).writeReg j u d (BitVec.ofNat 64 i) false := rfl

variable {d b : Reg}

theorem hbind_traps (h : Performs s tid t) (hl : ¬ RegionLegal (t.reg a) (t.reg b)) :
    Traps (.hbind d a b) s tid t 0x02#8 (t.reg a) := by
  have he := (exec_hbind d a b s).trans (performing_next h _)
  rw [if_pos ((region_test_iff _ _).mpr hl)] at he
  exact traps_of_trap h he

theorem hbind_meets (h : Performs s tid t) (hl : RegionLegal (t.reg a) (t.reg b))
    (hm : RegionMeets (s.core (tid.toNat / 16)) (t.reg a) (t.reg b)) :
    Yields (.hbind d a b) s tid t d 0xFFFFFFFFFFFFFFFE#64 false := by
  have he := (exec_hbind d a b s).trans (performing_next h _)
  rw [if_neg ((region_test_iff _ _).not_left.mpr hl), if_pos ((any_meets_iff _ _ _).mpr hm)] at he
  exact yields_of_exec_writeReg h he

/-- A legal region that meets no bound one goes to the lowest unbound handle. -/
theorem exec_hbind_clear (h : Performs s tid t) (hl : RegionLegal (t.reg a) (t.reg b))
    (hm : ¬ RegionMeets (s.core (tid.toNat / 16)) (t.reg a) (t.reg b)) :
    exec (.hbind d a b) s = .next (match (s.core (tid.toNat / 16)).handles.toList.findIdx? (fun e => !e.bound) with
      | none => s.writeReg tid.toNat t d 0xFFFFFFFFFFFFFFFF#64 false
      | some i => (s.setCore (tid.toNat / 16) ((s.core (tid.toNat / 16)).setHandle i
          (boundHandle (t.reg a) (t.reg b) t.group))).writeReg tid.toNat t d (BitVec.ofNat 64 i) false) := by
  rw [exec_hbind, performing_next h, if_neg ((region_test_iff _ _).not_left.mpr hl), if_neg ((any_meets_iff _ _ _).not.mpr hm)]

theorem hbind_full (h : Performs s tid t) (hl : RegionLegal (t.reg a) (t.reg b))
    (hm : ¬ RegionMeets (s.core (tid.toNat / 16)) (t.reg a) (t.reg b))
    (hfull : ∀ e ∈ (s.core (tid.toNat / 16)).handles.toList, e.bound = true) :
    Yields (.hbind d a b) s tid t d 0xFFFFFFFFFFFFFFFF#64 false := by
  have he := exec_hbind_clear (d := d) h hl hm
  simp only [findIdx_bound hfull] at he
  exact yields_of_exec_writeReg h he

theorem hbind_binds (h : Performs s tid t) (hl : RegionLegal (t.reg a) (t.reg b))
    (hm : ¬ RegionMeets (s.core (tid.toNat / 16)) (t.reg a) (t.reg b))
    (hn : (s.core (tid.toNat / 16)).handles[n].bound = false)
    (hlow : ∀ j : Fin 64, j < n → (s.core (tid.toNat / 16)).handles[j].bound = true) :
    ∃ u q, exec (.hbind d a b) s = .next u ∧ u.thread? tid.toNat = some q ∧ q.pc = t.pc + 4#64 ∧
      WroteReg t q d (BitVec.ofNat 64 n) false ∧
      u.core (tid.toNat / 16) = { s.core (tid.toNat / 16) with
        handles := (s.core (tid.toNat / 16)).handles.set n (boundHandle (t.reg a) (t.reg b) t.group) } ∧
      u.mem = s.mem := by
  have he := exec_hbind_clear (d := d) h hl hm
  simp only [findIdx_unbound _ hn hlow, State.writeReg, State.next, Thread.setReg_pc, setHandle_eq_set] at he
  obtain ⟨q, hq, honly, hret, hwrote, -⟩ := finish_setReg (s := s.setCore (tid.toNat / 16) { s.core (tid.toNat / 16) with
    handles := (s.core (tid.toNat / 16)).handles.set n (boundHandle (t.reg a) (t.reg b) t.group) }) h.inv.threads
    tid.toNat t d (BitVec.ofNat 64 n) false (t.pc + 4#64) false 8
  exact ⟨_, q, he, hq, by rw [hret], hwrote, by rw [honly.core, core_setCore_same], honly.mem⟩

/-! ### `xtake` (R354) -/

theorem exec_xtake (v : VReg) (s : State) : exec (.xtake v) s = performing s fun j u =>
    if !s.isTransfer j then s.illegal j u (.xtake v)
    else match (s.core (j / 16)).q2Oldest with
      | some (i, m) => (s.takeMail (j / 16) i m).next j (u.memV v m.data)
      | none => s.await j u (.xtake v) none 0#64 := rfl

theorem isTransfer_iff (s : State) (j : Nat) :
    s.isTransfer j = true ↔ j % 16 = 15 ∧ (s.core (j / 16)).slotcfg.getLsbD 1 = true := by
  simp [State.isTransfer, tidSlot, tidCore, Core.xfer]

variable {v : VReg}

theorem xtake_illegal (h : Performs s tid t)
    (hx : (s.core (tid.toNat / 16)).slotcfg.getLsbD 1 = false ∨ tid.toNat % 16 ≠ 15) : Claims.Illegal (.xtake v) s tid t := by
  have hno : s.isTransfer tid.toNat = false := by
    rw [Bool.eq_false_iff, Ne, isTransfer_iff]
    rintro ⟨hslot, hxfer⟩
    obtain hx | hx := hx
    · exact absurd (hx.symm.trans hxfer) Bool.false_ne_true
    · exact hx hslot
  have he := (exec_xtake v s).trans (performing_next h _)
  rw [if_pos (by rw [hno, Bool.not_false])] at he
  exact illegal_of_exec h he

/-- In the transfer slot `xtake` goes by the oldest request. -/
theorem exec_xtake_transfer (h : Performs s tid t) (hslot : tid.toNat % 16 = 15)
    (hx : (s.core (tid.toNat / 16)).slotcfg.getLsbD 1 = true) :
    exec (.xtake v) s = .next (match (s.core (tid.toNat / 16)).q2Oldest with
      | some (i, m) => (s.takeMail (tid.toNat / 16) i m).next tid.toNat (t.memV v m.data)
      | none => s.await tid.toNat t (.xtake v) none 0#64) := by
  rw [exec_xtake, performing_next h, (isTransfer_iff s _).mpr ⟨hslot, hx⟩]
  rfl

/-- A retired thread without results in flight holds what its instruction wrote to a vector register. -/
theorem retired_memV_wrote (hv : t.vres = []) (v : VReg) (x : VWord) (now : Nat) (pc : Word) (busy : Nat) (g : Option Gang) :
    Claims.WroteV t { (t.memV v x).retired now pc busy with gang := g } v x := by
  have hpass : (t.memV v x).passWindows now = t.memV v x :=
    passWindows_none (by rw [Thread.memV, hv, overwrite, List.map_nil]) now
  obtain ⟨hdest, hothers, hmasks, hscalars⟩ := memV_wrote t v x
  rw [Thread.retired, hpass]
  exact ⟨hdest, hothers, hmasks, hscalars⟩

theorem xtake_takes (h : Performs s tid t) (hv : t.vres = []) (hslot : tid.toNat % 16 = 15)
    (hx : (s.core (tid.toNat / 16)).slotcfg.getLsbD 1 = true) {i : Fin 4} {m : Mail}
    (hold : (s.core (tid.toNat / 16)).q2Oldest = some (i.val, m)) :
    ∃ u q, exec (.xtake v) s = .next u ∧ u.thread? tid.toNat = some q ∧ q.pc = t.pc + 4#64 ∧
      Claims.WroteV t q v m.data ∧ u.mem = s.mem ∧ u.core (tid.toNat / 16) = { s.core (tid.toNat / 16) with
        q2 := (s.core (tid.toNat / 16)).q2.set i none
        requester := some ((m.data.extractLsb' 448 64).extractLsb' 0 22, m.group) } := by
  have he : exec (.xtake v) s = .next ((s.takeMail (tid.toNat / 16) i m).next tid.toNat (t.memV v m.data)) := by
    rw [exec_xtake_transfer h hslot hx, hold]
  obtain ⟨⟨g, hq⟩, honly⟩ := finish_spec (s := s.takeMail (tid.toNat / 16) i m) h.inv.threads tid.toNat (t.memV v m.data)
    ((t.memV v m.data).pc + 4#64) false 8
  refine ⟨_, _, he, hq, ?_, retired_memV_wrote hv .., honly.mem, (honly.core _).trans ?_⟩
  · simp [Thread.retired, Thread.memV]
  · rw [State.takeMail, core_modCore_same, setIfInBounds_eq_set]
    rfl

end Forms

/-- Settles O40: each form by the lemma about it, with the handle table and q2 read through `Fin` numbers. -/
theorem handlesAndRequests : Obligations.HandlesAndRequests := by
  unfold Obligations.HandlesAndRequests
  intro s tid t h hset hv hg hl d a b v st c k x n legal meets
  refine ⟨hbind_traps h, hbind_meets h, hbind_full h, fun hlegal hm i hi hlow => ?_,
    fun hx => number_above_63_traps h hx d st, fun i hx => ?_, xtake_illegal h,
    fun hxfer hslot => ⟨fun hempty => ?_, fun i m hm hleast => ?_⟩⟩
  · obtain ⟨u, q, he, hq, hpc, hwrote, hcore, hmem⟩ := hbind_binds (d := d) h hlegal hm hi hlow
    obtain ⟨hbase, hlen⟩ := boundHandle_region hlegal t.group
    exact ⟨u, q, _, he, hq, hpc, hwrote, hcore, rfl, rfl, hbase, hlen, rfl, hmem⟩
  · intro e becomes
    exact ⟨hstat_yields h hx d, fun hb => unbound_handle h hx hb st, fun hb => ⟨hwait_goesTo h hx hb,
      fun hst _ => hwait_waits h hl hx hb hst, hdrain_traps h hx, hfree_traps h hx hb, hfree_rebinds h hx hb,
      fun hst hc _ hw => hdrain_rebinds h hset hg hx hb hst hc fun j p hp => (hw j p hp).1⟩⟩
  · have he := exec_xtake_transfer (v := v) h hslot hxfer
    rw [q2Oldest_empty hempty] at he
    obtain ⟨q, w, hq, hpc, hw, hwhat, -, hcore⟩ := await_spec s tid.toNat hl (.xtake v) none 0#64
    exact ⟨_, q, he, hq, hpc, by rw [hw, Option.map_some, hwhat], hcore c⟩
  · exact xtake_takes h hv hslot hxfer (q2Oldest_of_least hm hleast)

end Sys2Proof.Machine
end

section
/-! Proofs about precise traps, the return from a handler, and the root halts of EBREAK and `halt` (R139, R140, R413, R414):
retirement and a root halt outside a gang, and how a member leaves its gang's stream before it halts. -/

namespace Sys2Proof.Machine

section TrapsAndHalts

variable {i : Instr} {s : State} {tid : BitVec 16} {t : Thread}

/-! ### Outside a gang (R168, R170) -/

theorem inGang_eq_false_iff (t : Thread) : t.inGang = false ↔ ∀ g, t.gang = some g → g.attached = false := by
  rw [Thread.inGang]
  cases t.gang with
  | none => simp
  | some g => simp

/-- Retirement outside a gang replaces the thread and nothing else. -/
theorem finish_of_not_inGang (s : State) (n : Nat) (ht : t.inGang = false) (pc : Word) (tr : Bool) (busy : Nat) :
    s.finish n t pc tr busy = s.setThread n (t.retired s.time pc busy) := by
  rw [State.finish]
  cases hg : t.gang with
  | none => rfl
  | some g => simp [(inGang_eq_false_iff t).mp ht g hg]

/-- The thread that a root halt leaves of a live one. -/
def Thread.halted (t : Thread) (why : Reason) : Thread :=
  { t.drainWindows with run := .root, reason := why, wasDep := none, stepped := false, noticed := t.openPromises }

/-- A root halt of a live thread outside a gang that does not wait keeps its gang record too (R28, R410). -/
theorem rootHalt_of_not_inGang {n : Nat} (h : s.thread? n = some t) (ht : t.inGang = false) (hr : t.run = .live)
    (hw : t.wait = none) (why : Reason) : (s.rootHalt n why).thread? n = some (t.halted why) := by
  have hout : t.drainWindows.inGang = false := by simpa [Thread.inGang] using ht
  have hstay := detachGang_other (thread_setThread_same s n t.drainWindows) hout
  simp [State.rootHalt, h, hr, hstay, State.modThread, State.withdrawParked, hw, Thread.halted]

/-! ### Precise traps and the return from a handler (R139, R413) -/

theorem exec_ecall (s : State) : exec .ecall s = performing s fun k u => s.trap k u cECALL 0#64 := rfl

theorem exec_illegalWord (w : BitVec 32) (s : State) :
    exec (.illegalWord w) s = performing s fun k u => s.trap k u cILLEGAL (w.setWidth 64) := rfl

theorem exec_fetchbound (a : Word) (s : State) :
    exec (.fetchbound a) s = performing s fun k u => s.trap k u cFETCHBOUND a := rfl

theorem exec_tret (s : State) : exec .tret s = performing s fun k u =>
    if u.inHandler then s.finish k u.leaveTrap (align4 u.epc) true 8 else s.illegal k u .tret := rfl

theorem preciseTraps : Claims.PreciseTraps := by
  intro s tid t h
  refine ⟨traps_of_trap h ((exec_ecall s).trans (performing_next h _)),
    fun w => traps_of_trap h ((exec_illegalWord w s).trans (performing_next h _)),
    fun a => traps_of_trap h ((exec_fetchbound a s).trans (performing_next h _)), fun hout => ?_⟩
  have he := (exec_tret s).trans (performing_next h _)
  rw [if_neg (by rw [hout]; decide)] at he
  exact illegal_of_exec h he

theorem trapReturn : Claims.TrapReturn := by
  intro s tid t h hin
  have he := (exec_tret s).trans (performing_next h _)
  rw [if_pos hin] at he
  obtain ⟨⟨g, hq⟩, honly⟩ := finish_spec h.inv.threads tid.toNat t.leaveTrap (align4 t.epc) true 8
  have hgang : t.inGang = false → g = t.gang := fun hout => by
    rw [finish_of_not_inGang s _ (t := t.leaveTrap) hout, thread_setThread_same, Option.some.injEq] at hq
    simpa [Thread.retired] using (congrArg Thread.gang hq).symm
  have hready := ready_of_finish h hq
  refine ⟨_, _, he, hq, honly.congr t.leaveTrap_gang, rfl, ?_, ?_, ?_, ?_, hready, hgang, ?_⟩
  all_goals simp [Thread.retired, Thread.leaveTrap]

/-! ### Root halts (R140, R414) -/

/-- A thread that leaves its stream stands outside a gang, the same but for its gang record, and no memory changes (R170). -/
theorem leaveStream_detaches (s : State) (n : Nat) (t : Thread) : ∃ a g, s.leaveStream n t = (a, { t with gang := g }) ∧
    QuietIn s a ∧ ∀ x, g = some x → x.attached = false := by
  rw [State.leaveStream]
  cases hg : t.gang with
  | none => exact ⟨s, t.gang, rfl, QuietIn.refl s, by simp [hg]⟩
  | some g => exact ⟨_, _, rfl, detachGang_quiet s n, fun x hx => by rw [← Option.some.inj hx]⟩

theorem exec_ebreak (s : State) : exec .ebreak s = performing s fun k u =>
    ((s.leaveStream k u).1.next k (s.leaveStream k u).2).rootHalt k .ebreak := rfl

theorem exec_halt (s : State) : exec .halt s = performing s fun k u =>
    ((s.leaveStream k u).1.setThread k { (s.leaveStream k u).2 with
      latch := none, readyAt := max (s.leaveStream k u).2.readyAt ((s.leaveStream k u).2.nextIssue s.time 8) }).rootHalt k
      .halt := rfl

/-- An instruction that leaves its thread live and outside a gang, and then halts it, changes no memory and no full/empty bit. -/
theorem halts_of_rootHalt {a : State} {p : Thread} {n : Nat} {why : Reason}
    (he : exec i s = .next ((a.setThread n p).rootHalt n why)) (hquiet : QuietIn s a) (hp : p.inGang = false)
    (hr : p.run = .live) (hw : p.wait = none) :
    ∃ u, exec i s = .next u ∧ u.thread? n = some (p.halted why) ∧ u.mem = s.mem ∧ u.full = s.full := by
  have hall := (hquiet.trans (setThread_quiet a n p)).trans (rootHalt_quiet _ n why)
  exact ⟨_, he, rootHalt_of_not_inGang (thread_setThread_same a n p) hp hr hw why, hall.mem, hall.full⟩

/-- EBREAK halts the retired thread. -/
theorem ebreak_halts (h : Performs s tid t) : ∃ u g now, exec .ebreak s = .next u ∧
    u.thread? tid.toNat = some ((Thread.retired { t with gang := g } now (t.pc + 4#64) 8).halted .ebreak) ∧
    u.mem = s.mem ∧ u.full = s.full ∧ ∀ x, g = some x → x.attached = false := by
  obtain ⟨a, g, hleave, hquiet, hout⟩ := leaveStream_detaches s tid.toNat t
  have hgang : Thread.inGang { t with gang := g } = false := (inGang_eq_false_iff _).mpr hout
  have he := (exec_ebreak s).trans (performing_next h _)
  rw [hleave, State.next, finish_of_not_inGang a _ hgang] at he
  obtain ⟨u, he, hq, hmem, hfull⟩ := halts_of_rootHalt he hquiet
    ((inGang_eq_false_iff _).mpr (by simpa [Thread.retired] using hout)) (by simpa [Thread.retired] using h.live) rfl
  exact ⟨u, g, a.time, he, hq, hmem, hfull, hout⟩

/-- `halt` halts the thread as it stands at the `halt`. -/
theorem halt_halts (h : Performs s tid t) : ∃ u g ready, exec .halt s = .next u ∧
    u.thread? tid.toNat = some (Thread.halted { t with gang := g, latch := none, readyAt := ready } .halt) ∧
    u.mem = s.mem ∧ u.full = s.full ∧ ∀ x, g = some x → x.attached = false := by
  obtain ⟨a, g, hleave, hquiet, hout⟩ := leaveStream_detaches s tid.toNat t
  have he := (exec_halt s).trans (performing_next h _)
  rw [hleave] at he
  obtain ⟨u, he, hq, hmem, hfull⟩ := halts_of_rootHalt he hquiet ((inGang_eq_false_iff _).mpr hout) h.live h.idle
  exact ⟨u, g, _, he, hq, hmem, hfull, hout⟩

theorem rootHalts : Claims.RootHalts := by
  rintro s tid t h i why pc n (⟨rfl, rfl, rfl, rfl⟩ | ⟨rfl, rfl, rfl, rfl⟩)
  · obtain ⟨u, g, now, he, hq, hmem, hfull, hout⟩ := ebreak_halts h
    refine ⟨u, _, he, hq, hmem, hfull, ?_⟩
    simpa [Thread.halted, Thread.retired] using hout
  · obtain ⟨u, g, ready, he, hq, hmem, hfull, hout⟩ := halt_halts h
    refine ⟨u, _, he, hq, hmem, hfull, ?_⟩
    simpa [Thread.halted] using hout

end TrapsAndHalts

/-- Settles O6: the precise traps by the rule of a trap, `tret` by the rule of retirement, and the root halts by that of a
thread that has left its gang. -/
theorem trapsAndReturns : Obligations.TrapsAndReturns := by
  unfold Obligations.TrapsAndReturns
  exact ⟨preciseTraps, trapReturn, rootHalts⟩

end Sys2Proof.Machine
end
